-- ==== Sys2Proof/Word.lean ====
section
/-! DEFINITION. The word types of the machine, the bit-field arithmetic every encoding uses (R3, R11), and the
sorted tables that hold sparse state. -/

namespace Sys2Proof

/-- One byte of memory. -/
abbrev Byte := BitVec 8
/-- A 32-bit register value or instruction word. -/
abbrev Word := BitVec 32
/-- A 64-bit value, the contents of a register pair. -/
abbrev DWord := BitVec 64
/-- A 10-bit register field (R93). -/
abbrev Reg := BitVec 10

/-- `bits hi lo x` of R12: bits hi:lo of a natural number. -/
def bits (x hi lo : Nat) : Nat := x / 2 ^ lo % 2 ^ (hi + 1 - lo)

/-- One bit of a natural number. -/
def bit (x i : Nat) : Bool := x / 2 ^ i % 2 == 1

/-- `sext(x, n)` of R12 on a natural number below 2^n. -/
def sext (x n : Nat) : Int := if x % 2 ^ n < 2 ^ (n - 1) then (x % 2 ^ n : Nat) else (x % 2 ^ n : Nat) - (2 ^ n : Nat)

/-- An integer reduced modulo 2^n (R359). -/
def wrap (n : Nat) (v : Int) : Nat := (v % (2 ^ n : Nat)).toNat

/-- Fields packed from bit 0 upward, each a width and a value (R3). -/
def pack : List (Nat × Nat) → Nat
  | [] => 0
  | (w, v) :: fs => v % 2 ^ w + 2 ^ w * pack fs

/-- The values of consecutive fields of the given widths, from bit 0 upward. -/
def unpack : List Nat → Nat → List Nat
  | [], _ => []
  | w :: ws, x => x % 2 ^ w :: unpack ws (x / 2 ^ w)

/-- 1 for true, 0 for false. -/
def ofBool (b : Bool) : Nat := if b then 1 else 0

end Sys2Proof
end

