-- ==== Sys2Proof/Syntax.lean ====
section
/-! DEFINITION. The instructions and steps of the package: one constructor per row of spec/opcode_table.json.
Instruction rows carry the fields of R105-R121; step rows (spec/95) carry what the step is about. -/

namespace Sys2Proof

/-- Type codes (R111). -/
inductive Ty where
  | b32 | z32 | s64 | z64 | f32 | bf16 | s8 | z8 | s16 | z16 | b128
  | e4m3 | e5m2 | e3m2 | e2m3 | e2m1 | cb4 | x8 | e4m3p
  deriving DecidableEq, Repr

/-- Rounding codes (R112). -/
inductive Rnd where
  | dflt | rtz | rdn | rup | rna | sr
  deriving DecidableEq, Repr

/-- Ordering codes (R113). -/
inductive Ord where
  | none | acq | rel | ar
  deriving DecidableEq, Repr

/-- Scope codes (R9, R113). -/
inductive Scope where
  | cr | cl | dv | sy
  deriving DecidableEq, Repr

/-- Condition codes (R113). -/
inductive Cond where
  | eq | ne | lt | le | gt | ge | un | ord
  deriving DecidableEq, Repr

/-- Types of a B3 word's t field (R106): 32-bit or f32, z32 or bf16, 64-bit pairs. -/
inductive B3Ty where
  | w32 | z32bf | w64
  deriving DecidableEq, Repr

/-- MLOG functions (R116). -/
inductive MlogFn where
  | and | or | xor | andn | not | copy
  deriving DecidableEq, Repr

/-- FSGN functions (R117). -/
inductive SgnFn where
  | copy | neg | xor | abs
  deriving DecidableEq, Repr

/-- SFQ functions (R118). -/
inductive SfuFn where
  | rcp | rsqrt | sqrt | exp2 | log2 | sin | cos | tanh
  deriving DecidableEq, Repr

/-- CPY kinds (R118). -/
inductive CpyKind where
  | glToSp | spToGl | spToRm | rmToSp
  deriving DecidableEq, Repr

/-- ATOM and RED operations (R119). -/
inductive AtomOp where
  | add | min | max | and | or | xor | xchg | cas
  deriving DecidableEq, Repr

/-- CCTL operations (R119). -/
inductive CctlOp where
  | wb | inv | wbinv | iinv
  deriving DecidableEq, Repr

/-- SHFL modes (R120). -/
inductive ShflMode where
  | idx | up | down | xor
  deriving DecidableEq, Repr

/-- VOTE kinds (R120). -/
inductive VoteKind where
  | ballot | any | all
  deriving DecidableEq, Repr

/-- TRED and TSCAN operations (R120). -/
inductive RedOp where
  | add | min | max | and | or | xor
  deriving DecidableEq, Repr

/-- TBAR levels (R120). -/
inductive Level where
  | bent | die | pkg
  deriving DecidableEq, Repr

/-- The word before a base word that widens its fields (R107). -/
structure Pfx where
  vdh : BitVec 3
  vah : BitVec 3
  vbh : BitVec 3
  mask : BitVec 4
  z : Bool
  rnd : Rnd
  vc : Reg
  deriving DecidableEq, Repr

/-- Operands of a B3 word (R105). -/
structure B3 where
  pfx : Option Pfx
  t : B3Ty
  d : BitVec 7
  a : BitVec 7
  b : BitVec 7
  deriving DecidableEq, Repr

/-- Operands of a BI or BM word (R105). -/
structure BI where
  pfx : Option Pfx
  d : BitVec 7
  a : BitVec 7
  imm : BitVec 9
  deriving DecidableEq, Repr

/-- Operands of the base MOVI word (R105). -/
structure BMovi where
  pfx : Option Pfx
  d : BitVec 7
  imm : BitVec 16
  deriving DecidableEq, Repr

/-- Fields common to every extended form (R109), less L, xop, type and MOD. -/
structure Ext where
  vd : Reg
  va : Reg
  vb : Reg
  vc : Reg
  mask : BitVec 4
  inv : Bool
  z : Bool
  rnd : Rnd
  imm : BitVec 13
  lit : Option DWord
  deriving DecidableEq, Repr

/-- A vector thread or matrix thread by number, or one of its hands (hand 0 is the thread itself), or a hart. -/
inductive Who where
  | thread (t : Nat)
  | hand (t : Nat) (h : Nat)
  | hart (h : Nat)
  deriving DecidableEq, Repr

/-- Who reads or writes device space: a management port or a hart (R345, R354), or the host behind a PCIe port, which reaches its
mailbox alone (R352). -/
inductive Source where
  | port (p : Nat)
  | hart (h : Nat)
  | host (p : Nat)
  deriving DecidableEq, Repr

/-- What a debugger may do to a thread of a debug-enabled partition (R323, R380). -/
inductive DebugCmd where
  | release
  | writePc (pc : DWord)
  deriving DecidableEq, Repr

/-- Cache-block operations of Zicbom (R340). -/
inductive Cbo where
  | clean | flush | inval
  deriving DecidableEq, Repr

/-- The RISC-V instructions the spec says something about (R149, R250, R340, R341, R345). -/
inductive SillOp where
  | load (rd : BitVec 5) (addr : Nat) (size : Nat) (signed : Bool) (acq : Bool)
  | store (addr : Nat) (size : Nat) (value : DWord) (rel : Bool)
  | fence (pred : BitVec 4) (succ : BitVec 4)
  | cbo (op : Cbo) (addr : Nat)
  | illegal (word : Word)
  deriving DecidableEq, Repr

/-- Units that latch a snapshot pair (R357). -/
inductive SnapUnit where
  | bay (b : Nat)
  | quarter (q : Nat)
  | slice (n : Nat)
  | governor (g : Nat)
  deriving DecidableEq, Repr

/-- TDISP interface states (R322). -/
inductive Tdisp where
  | configUnlocked | configLocked | run | error
  deriving DecidableEq, Repr

/-- What a frame of a Dreush stream carries: bytes for an address of the enclave's memory, a line of a migration, its list of pages, or
its records (R321, R335, R336). -/
inductive FrameKind where
  | data (va : DWord)
  | line (va : DWord)
  | pages
  | records
  deriving DecidableEq, Repr

/-- What a requester offers beside SM2 signatures: SM3, the key exchange on the SM2 curve and SM4-GCM (R319). -/
structure Offer where
  sm3 : Bool
  dhe : Bool
  aead : Bool
  deriving DecidableEq, Repr

/-- Whose bytes leave the package: an enclave, and the device interface that reads them if one does (R314, R322). -/
structure Sender where
  enclave : Nat
  ifc : Option Nat
  deriving DecidableEq, Repr

/-- The instructions and steps, one constructor per row of the operation table. -/
inductive Instr where
  -- base words (R114)
  | iaddB3 (x : B3) | isubB3 (x : B3) | imulB3 (x : B3) | iminB3 (x : B3) | imaxB3 (x : B3)
  | andB3 (x : B3) | orB3 (x : B3) | xorB3 (x : B3) | shlB3 (x : B3) | shrB3 (x : B3) | sarB3 (x : B3)
  | movB3 (x : B3)
  | faddB3 (x : B3) | fsubB3 (x : B3) | fmulB3 (x : B3) | fminB3 (x : B3) | fmaxB3 (x : B3) | ffmaB3 (x : B3)
  | iaddBI (x : BI) | andBI (x : BI) | orBI (x : BI) | xorBI (x : BI)
  | shlBI (x : BI) | shrBI (x : BI) | sarBI (x : BI)
  | moviB (x : BMovi)
  | ldB32 (x : BI) | ldB64 (x : BI) | stB32 (x : BI) | stB64 (x : BI)
  | ldsB32 (x : BI) | stsB32 (x : BI) | ldsB64 (x : BI) | stsB64 (x : BI)
  | braBB (mask : BitVec 4) (inv : Bool) (off : BitVec 18)
  | callBB (ign : BitVec 5) (off : BitVec 18)
  | waitB (ld st : BitVec 6) (cp tl : BitVec 4)
  -- integer and logic class (R116)
  | iaddExt (sat : Bool) (ty : Ty) (x : Ext) | isubExt (sat : Bool) (ty : Ty) (x : Ext)
  | imulExt (ty : Ty) (x : Ext) | imulhi (ty : Ty) (x : Ext) | imad (sat : Bool) (ty : Ty) (x : Ext)
  | iminExt (ty : Ty) (x : Ext) | imaxExt (ty : Ty) (x : Ext)
  | icmp (c : Cond) (toMask : Bool) (md : BitVec 4) (ty : Ty) (x : Ext)
  | andExt (ty : Ty) (x : Ext) | orExt (ty : Ty) (x : Ext) | xorExt (ty : Ty) (x : Ext)
  | not (ty : Ty) (x : Ext) | andn (ty : Ty) (x : Ext)
  | shlExt (ty : Ty) (x : Ext) | shrExt (ty : Ty) (x : Ext) | sarExt (ty : Ty) (x : Ext)
  | bfx (pos : BitVec 5) (len : BitVec 6) (ty : Ty) (x : Ext)
  | bfi (pos : BitVec 5) (len : BitVec 6) (ty : Ty) (x : Ext)
  | popc (ty : Ty) (x : Ext) | clz (ty : Ty) (x : Ext) | brev (ty : Ty) (x : Ext)
  | sel (inv : Bool) (ms : BitVec 4) (ty : Ty) (x : Ext)
  | movExt (ty : Ty) (x : Ext) | moviExt (ty : Ty) (x : Ext)
  | lea (sh : BitVec 2) (ty : Ty) (x : Ext)
  | mlog (fn : MlogFn) (md ma mb : BitVec 4) (x : Ext)
  | mmov (toMask : Bool) (m : BitVec 4) (x : Ext)
  -- floating-point and conversion class (R117)
  | faddExt (ty : Ty) (x : Ext) | fsubExt (ty : Ty) (x : Ext) | fmulExt (ty : Ty) (x : Ext)
  | ffmaExt (ty : Ty) (x : Ext) | fminExt (ty : Ty) (x : Ext) | fmaxExt (ty : Ty) (x : Ext)
  | fcmp (c : Cond) (toMask : Bool) (md : BitVec 4) (ty : Ty) (x : Ext)
  | fclass (ty : Ty) (x : Ext) | frnd (ty : Ty) (x : Ext)
  | fsgn (fn : SgnFn) (ty : Ty) (x : Ext) | fldx (ty : Ty) (x : Ext)
  | cvt (src : Ty) (sat : Bool) (ty : Ty) (x : Ext)
  | pack (n : Ty) (pos : BitVec 4) (sat : Bool) (ty : Ty) (x : Ext)
  | unpk (n : Ty) (pos : BitVec 4) (ty : Ty) (x : Ext)
  -- engine class (R118)
  | sfq (fn : SfuFn) (ty : Ty) (x : Ext)
  | sfuResultArrive (w : Who) (q : Nat)
  | idivq (rem : Bool) (ty : Ty) (x : Ext)
  | qsave (bank : Bool) (x : Ext) | qrst (bank : Bool) (x : Ext) | qcnt (q : BitVec 3) (x : Ext)
  | cpy (kind : CpyKind) (mc : Bool) (g : Option (BitVec 3)) (x : Ext)
  | cpyg (g : Option (BitVec 3)) (ty : Ty) (x : Ext)
  | cbseal (x : Ext) | cbwait (chk : Bool) (x : Ext)
  | promiseMissed (t : Nat) (batch : Word)
  | gopen (g : BitVec 3) (x : Ext) | gset (g : BitVec 3) (x : Ext)
  | tnx (o : Ord) (sc : Scope) (sync post : Bool) (slot : BitVec 6) (args : BitVec 4) (x : Ext)
  | tnsync (x : Ext)
  -- team class (R120)
  | shfl (all : Bool) (mode : ShflMode) (ty : Ty) (x : Ext)
  | vote (all : Bool) (kind : VoteKind) (x : Ext)
  | tred (all : Bool) (op : RedOp) (ty : Ty) (x : Ext)
  | tscan (all : Bool) (op : RedOp) (inc : Bool) (ty : Ty) (x : Ext)
  -- memory class (R119)
  | ldExt (o : Ord) (sc : Scope) (sync : Bool) (ty : Ty) (x : Ext)
  | stExt (o : Ord) (sc : Scope) (sync : Bool) (ty : Ty) (x : Ext)
  | ldsExt (ty : Ty) (x : Ext) | stsExt (ty : Ty) (x : Ext)
  | ldr (ty : Ty) (x : Ext) | str (ty : Ty) (x : Ext)
  | pref (l2 : Bool) (x : Ext)
  | atom (op : AtomOp) (o : Ord) (sc : Scope) (sync rne : Bool) (ty : Ty) (x : Ext)
  | red (op : AtomOp) (o : Ord) (sc : Scope) (sync rne : Bool) (ty : Ty) (x : Ext)
  | fence (o : Ord) (sc : Scope) (x : Ext)
  | waitc (c : Cond) (o : Ord) (sc : Scope) (sync : Bool) (ty : Ty) (x : Ext)
  | monitorWake (core : Nat) (line : Nat)
  | waitcRecheck (t : Nat)
  | cctl (op : CctlOp) (sc : Scope) (x : Ext)
  | ifence (x : Ext)
  | pgalloc (x : Ext) | pgfree (x : Ext)
  -- control class (R120)
  | braExt (x : Ext) | jmp (x : Ext) | callExt (x : Ext) | calli (x : Ext) | ret (x : Ext)
  | meet (x : Ext) | meetHold (t : Nat) | exit (x : Ext)
  | bar (x : Ext) | tbar (level : Level) (x : Ext) | ypt (x : Ext) | nopExt (x : Ext)
  | sleepc (x : Ext) | sleepcWake (t : Nat)
  | waitExt (ld st : BitVec 6) (cp : BitVec 4) (x : Ext)
  -- raising class (R120)
  | raise (red : Bool) (x : Ext) | itnext (x : Ext) | itend (x : Ext) | hred (x : Ext)
  | joinh (fold : Bool) (x : Ext)
  | handForceRelease (t h : Nat)
  -- matrix class (R121)
  | mdesc (r : BitVec 4) (x : Ext) | mldb (r : BitVec 4) (x : Ext)
  | mrow (a c : BitVec 4) (feed ord pair : Bool) (x : Ext) | mzero (r : BitVec 4) (x : Ext)
  | msync (x : Ext) | mstat (x : Ext)
  -- system class (R121)
  | sreg (idx : BitVec 8) (x : Ext) | sset (idx : BitVec 8) (x : Ext)
  | trap (x : Ext) | rte (x : Ext) | rteSkip (x : Ext) | rteSub (x : Ext)
  | sysc (svc : BitVec 8) (x : Ext)
  | syscReply (t : Nat) (code result : Word) (out : List (Nat × List Byte))
  | launch (q : BitVec 6) (x : Ext) | plumb (x : Ext) | brk (x : Ext)
  -- enclave words of the sill cores (R122)
  | encCreate (rd rs1 : BitVec 5) | encAddpg (rd rs1 rs2 : BitVec 5) | encEnter (rd rs1 rs2 : BitVec 5)
  | encSeal (rd rs1 rs2 : BitVec 5) | encUnseal (rd rs1 rs2 : BitVec 5) | encDestroy (rd rs1 : BitVec 5)
  | keyTransfer (enclave : Nat) (peerAttested : Bool)
  | enclaveAsyncExit (hart : Nat) (cause : DWord)
  -- dispatcher (R67-R92)
  | kqcfgWrite (enclave q : Nat) (v : DWord) | kqdoorTailWrite (enclave q : Nat) (v : DWord)
  | headerCheck (enclave q : Nat) | tokenReady (l : Nat) | priorityAge (enclave q : Nat)
  | launchRetire (l : Nat) | preemptRequest (ticket : Nat)
  | mappedSave (ticket : Nat) | fullSave (ticket : Nat) | bentResume (ticket : Nat)
  -- issue (R30, R79-R81)
  | planerRegroup (bay : Nat) | issueSelect (bay : Nat) | starvationForce (bay : Nat)
  | powerWindow (cluster : Nat) | clbudgetWrite (src : Source) (cluster : Nat) (v : DWord)
  -- copy engine, translation, tenons
  | copyCommandBegin (c : Nat) | copyCommandComplete (c : Nat)
  | tlbMissWalk (core enclave : Nat) (va : DWord) | tlbInvalidate (enclave : Nat) (va : DWord)
  | demandZeroFill (enclave : Nat) (va : DWord) | retentionOverflow (core bay : Nat)
  | tenonExecute (slice : Nat) | tenonDone (t : Nat)
  -- matrix quarters
  | quarterBind (q : Nat) | bankSwap (q : Nat) (bad : List (Nat × Nat)) | rowAccept (q : Nat) (bad : List Nat) | segmentArrive (k : Nat)
  | mzeroComplete (q : Nat) | fillFault (q : Nat)
  -- integrity and error queue
  | integrityHalt (consumer : Option Nat) (line : Nat) (mac : Bool)
  | eqcfgWrite (enclave : Nat) (v : DWord) | eqdoorHeadWrite (enclave : Nat) (v : DWord)
  | packageFailure (unit : Nat)
  -- SPDM (R319-R320)
  | negotiateAlgorithms (sm2 : Bool) (others : Offer) | getCertificate (slot : Nat)
  | challenge (slot : Nat) (nonce : BitVec 256) | getMeasurements (index : Nat) (nonce : BitVec 256)
  | finish (ok : Bool)
  | vendorDefinedRequest (enclave : Nat) (nonce : BitVec 256) (ckpt : Option (Nat × Nat))
  | unsupportedRequest (code : Nat)
  -- egress, links, devices
  | egressTransfer (gov : Nat) (sender : Sender) (bytes : Nat) | egressWindow (gov enclave : Nat)
  | egcfgWrite (src : Source) (gov enclave : Nat) (v : DWord)
  | dreushStreamOpen (stream enclave peer peerEnclave : Nat) (localReq peerReq : Bool)
  | dreushFrameReceive (stream : Nat) (tag : BitVec 128) (kind : FrameKind) (sealed : List Byte)
  | tdispStateChange (ifc enclave : Nat) (st : Tdisp)
  -- partitions, migration, checkpoint
  | colownWrite (src : Source) (col : Nat) (v : DWord) | pcfgWrite (src : Source) (p : Nat) (v : DWord)
  | wmaskWrite (src : Source) (slice p : Nat) (v : DWord)
  | migctlEnWrite (src : Source) (enclave : Nat) (v : DWord)
  | migctlGo (src : Source) (enclave : Nat) (v : DWord) | migctlFinal (src : Source) (enclave : Nat) (v : DWord)
  | migrationRoundDone (enclave : Nat)
  | checkpoint (src : Source) | checkpointRestore (image : Nat)
  -- management
  | clmodeWrite (src : Source) (cluster : Nat) (v : DWord) | coresvcWrite (src : Source) (cluster : Nat) (v : DWord)
  | wgateWrite (src : Source) (slice : Nat) (v : DWord)
  | mgsemWrite (port : Nat) (v : DWord)
  | pkctlWarmReset (src : Source) | pkctlColdReset (src : Source) | pkctlPlumb (src : Source)
  | pkidWrite (src : Source) (v : DWord) | registerWrite (src : Source) (addr : Nat) (v : Option DWord)
  | mtimecmpInterrupt (hart : Nat) | deviceMsi (hart identity : Nat)
  | thermalThrottle (die temp : Nat) | thermalTrip (die temp : Nat)
  | snapshotLatch (u : SnapUnit) 
  | ioWriteCompletion (enclave : Nat) (ifc : Option Nat) (va : DWord) (data : List Byte) (rec : DWord) (recData : List Byte)
  | unassignedEncoding (word0 : Word)
  | sillCoreInstruction (hart : Nat) (op : SillOp)
  | debuggerCommand (port t : Nat) (c : DebugCmd)
  | syscRequestTaken (die iodie : Nat)
  | loadDataReturn (w : Who) (k : Nat) | storeAccepted (w : Who) | feedPushAccepted (q : Nat)
  -- instructions and steps that carry nothing
  | nopB | encExit | dispatchDecision | getVersion | getCapabilities | getDigests | heartbeat
  | keyUpdate | endSession | keyExchange | traceComparatorMatch | mgsemTimeout | powerOn | watchdogReset | phyTrainingDone | scrub | linksDone
  | plumbTrigger | rootbootDone
  deriving DecidableEq, Repr

end Sys2Proof
end

