-- ==== Sys2Proof/WellFormed.lean ====
section
/-! DEFINITION. The checks of R123 that depend on the words alone: must-be-zero bits, unused fields, type, rounding and
MOD codes (step 4) and register classes (step 5). Hand mode and REG_RANGE (step 6) are checked where the machine runs. -/

namespace Sys2Proof

/-- Registers an operand of a type occupies (R94). -/
def Ty.regs : Ty → Nat
  | .s64 | .z64 => 2
  | .b128 => 4
  | _ => 1

/-- Whether an operand is a 64-bit one. -/
def Ty.is64 : Ty → Bool
  | .s64 | .z64 => true
  | _ => false

/-- Whether integers of the type are signed (R8). -/
def Ty.signed : Ty → Bool
  | .b32 | .s64 | .s8 | .s16 => true
  | _ => false

/-- Access size in bytes of the types memory instructions admit (R111). -/
def Ty.size : Ty → Nat
  | .b32 | .z32 | .f32 => 4
  | .s64 | .z64 => 8
  | .bf16 | .s16 | .z16 => 2
  | .b128 => 16
  | _ => 1

/-- Types 0x00 to 0x03. -/
def Ty.int : Ty → Bool
  | .b32 | .z32 | .s64 | .z64 => true
  | _ => false
/-- Types 0x00 and 0x01. -/
def Ty.int32 : Ty → Bool
  | .b32 | .z32 => true
  | _ => false
/-- Types 0x04 and 0x05. -/
def Ty.flt : Ty → Bool
  | .f32 | .bf16 => true
  | _ => false
/-- Types 0x00 to 0x05. -/
def Ty.move (t : Ty) : Bool := t.int || t.flt
/-- Types of the loads and stores (R436). -/
def Ty.mem (t : Ty) : Bool := t.move || t == .s8 || t == .z8 || t == .s16 || t == .z16 || t == .b128
/-- Formats of one byte or less that PACK and UNPK take (R455). -/
def Ty.narrow : Ty → Bool
  | .e4m3 | .e5m2 | .e3m2 | .e2m3 | .e2m1 | .x8 | .e4m3p => true
  | _ => false
/-- Types CVT admits (R394). -/
def Ty.cvt (t : Ty) : Bool := t != .b128 && t != .cb4
/-- Destinations for which CVT admits SR (R394). -/
def Ty.srDest (t : Ty) : Bool := t.flt || t == .e4m3 || t == .e5m2 || t == .e3m2 || t == .e2m3 || t == .e2m1

/-- What a 10-bit register field names in an instruction, by R93, R94 and R508. -/
inductive Role where
  /-- not used: 0x3FF -/
  | no
  /-- a source of so many registers; a 32-bit one may pop q0-q3 -/
  | src (w : Nat)
  /-- a destination of so many registers; a 32-bit one may push to q4-q7 where R508 admits it -/
  | dst (w : Nat) (push : Bool)
  /-- q0-q3 of SFQ and IDIVQ -/
  | queue
  /-- a run of so many registers of v0-v767 in any place (TNX), with or without vz -/
  | run (w : Nat) (vz : Bool)
  /-- h0-h15 or vz, or a v register, which is a hand fault (ITNEXT, R427) -/
  | hand
  /-- a source of one register that pops no queue (HRED, R417) -/
  | plain
  /-- the first of so many argument registers of TNX, whose last is checked against n alone (R257) -/
  | args (w : Nat)
  deriving DecidableEq, Repr

/-- Whether a field value is admitted in a role, whatever the context (R123 step 5). vz stands for 32-bit and 64-bit operands
alone: R94 gives a 128-bit operand no register that is not a multiple of 4. -/
def Role.admits (r : Role) (f : Reg) : Bool :=
  let n := f.toNat
  match r with
  | .no => n == 1023
  | .src w =>
    (n == 1023 && w != 4) || ((n < 768 || (784 ≤ n && n < 800)) && n % w == 0) || (w == 1 && 768 ≤ n && n < 772)
  | .dst w push =>
    (n == 1023 && w != 4) || ((n < 768 || (784 ≤ n && n < 800)) && n % w == 0) || (w == 1 && push && 772 ≤ n && n < 776)
  | .queue => 768 ≤ n && n < 772
  | .run w vz => (vz && n == 1023) || n + w ≤ 768
  | .hand | .plain => n == 1023 || n < 768 || (784 ≤ n && n < 800)
  | .args _ => n < 768

/-- Registers a role occupies. -/
def Role.width : Role → Nat
  | .src w | .dst w _ | .run w _ | .args w => w
  | _ => 1

/-- Whether the role writes its register. -/
def Role.writes : Role → Bool
  | .dst .. | .queue | .hand => true
  | _ => false

/-- What stands in imm13 and the literal (R110, R119, R120). -/
inductive ImmUse where
  /-- none: L = 10, imm13 = 0 -/
  | none
  /-- an immediate second source of a 32-bit or 64-bit operation -/
  | imm (w64 : Bool)
  /-- a float literal as second source -/
  | lit (bf16 : Bool)
  /-- a memory offset; for a 32-bit address the literal is sign-extended from bit 31 -/
  | off (a32 : Bool)
  /-- imm13 alone -/
  | i13
  /-- imm13 bits 11:0 (BAR, YPT) -/
  | i12
  /-- imm13 bits 3:0 (WAIT) -/
  | i4
  /-- the literal is required (BRA, CALL, MEET) -/
  | need
  deriving DecidableEq, Repr

/-- A literal whose high word repeats bit 31 (R110). -/
def litIsSext (l : DWord) : Bool := l == (l.extractLsb' 0 32).signExtend 64

/-- Whether an instruction's immediate fields are as its use of them asks (R110, R403, R408). That bits 63:32 of an f32 literal of FCMP must be
zero, as R403 says of FADD to FMAX, is the model's choice (log entry 61). -/
def ImmUse.ok (u : ImmUse) (x : Ext) : Bool :=
  match u with
  | .none => x.lit == Option.none && x.imm == 0
  | .imm w64 =>
    if x.vb == 1023 then
      match x.lit with
      | Option.none => true
      | some l => x.imm == 0 && (w64 || litIsSext l)
    else x.lit == Option.none && x.imm == 0
  | .lit bf16 =>
    x.imm == 0 && match x.lit with
      | Option.none => true
      | some l => x.vb == 1023 && l.toNat < (if bf16 then 2 ^ 16 else 2 ^ 32)
  | .off a32 =>
    match x.lit with
    | Option.none => true
    | some l => x.imm == 0 && (!a32 || litIsSext l)
  | .i13 => x.lit == Option.none
  | .i12 => x.lit == Option.none && x.imm.toNat < 2 ^ 12
  | .i4 => x.lit == Option.none && x.imm.toNat < 2 ^ 4
  | .need => x.lit.isSome && x.imm == 0

/-- What predication an instruction takes: MASK, INV and Z; MASK and INV with Z = 0; or all zero. -/
inductive PredUse where
  | full | noZ | none
  deriving DecidableEq, Repr

def PredUse.ok (u : PredUse) (x : Ext) : Bool :=
  match u with
  | .full => true
  | .noZ => !x.z
  | .none => x.mask == 0 && !x.inv && !x.z

/-- Which rounding codes an instruction admits (R110, R112). -/
inductive RndUse where
  | dflt | noSr | any
  deriving DecidableEq, Repr

def RndUse.ok (u : RndUse) (r : Rnd) : Bool :=
  match u with
  | .dflt => r == .dflt
  | .noSr => r != .sr
  | .any => true

/-- The layout of an extended form: the roles of vd, va, vb, vc, and the use of the other fields. -/
structure Form where
  d : Role := .no
  a : Role := .no
  b : Role := .no
  c : Role := .no
  imm : ImmUse := .none
  pred : PredUse := .full
  rnd : RndUse := .dflt

/-- The operand fields of a form with their roles, in the order vd, va, vb, vc. -/
def Form.operands (f : Form) (x : Ext) : List (Role × Reg) := [(f.d, x.vd), (f.a, x.va), (f.b, x.vb), (f.c, x.vc)]

def Form.ok (f : Form) (x : Ext) : Bool :=
  f.d.admits x.vd && f.a.admits x.va && f.b.admits x.vb && f.c.admits x.vc &&
    f.imm.ok x && f.pred.ok x && f.rnd.ok x.rnd

/-- Form of the two-source integer instructions with an immediate second source. -/
def formInt (t : Ty) : Form :=
  { d := .dst t.regs true, a := .src t.regs, b := .src t.regs, imm := .imm t.is64 }
/-- Form of the one-source integer instructions; the destination may be one register. -/
def formInt1 (t : Ty) (dw : Nat) : Form := { d := .dst dw true, a := .src t.regs }
/-- Form of the float instructions with a literal second source. -/
def formFlt (t : Ty) : Form :=
  { d := .dst 1 true, a := .src 1, b := .src 1, imm := .lit (t == .bf16) }

/-- The form of every extended instruction, none for base words and steps (R116-R121 and the entries). -/
def Instr.form? : Instr → Option (Form × Ext)
  | .iaddExt _ t x | .isubExt _ t x | .imulExt t x | .imulhi t x | .iminExt t x | .imaxExt t x
  | .andExt t x | .orExt t x | .xorExt t x | .andn t x | .shlExt t x | .shrExt t x | .sarExt t x => some (formInt t, x)
  | .imad _ t x => some ({ d := .dst t.regs true, a := .src t.regs, b := .src t.regs, c := .src t.regs }, x)
  | .icmp _ m _ t x =>
    some ({ d := if m then .no else .dst 1 true, a := .src t.regs, b := .src t.regs, imm := .imm t.is64 }, x)
  | .not t x | .brev t x => some (formInt1 t t.regs, x)
  | .popc t x | .clz t x => some (formInt1 t 1, x)
  | .bfx _ _ _ x => some ({ d := .dst 1 true, a := .src 1 }, x)
  | .bfi _ _ _ x => some ({ d := .dst 1 true, a := .src 1, b := .src 1 }, x)
  | .sel _ _ t x => some (formInt t, x)
  | .movExt t x => some ({ d := .dst t.regs true, a := .src t.regs }, x)
  | .moviExt t x => some ({ d := .dst t.regs true, imm := .imm t.is64 }, x)
  | .lea _ _ x => some ({ d := .dst 2 false, a := .src 2, b := .src 1, imm := .imm true }, x)
  | .mlog _ _ _ _ x => some ({}, x)
  | .mmov dir _ x => some (if dir then { a := .src 1 } else { d := .dst 1 true }, x)
  | .faddExt t x | .fsubExt t x | .fmulExt t x => some ({ formFlt t with rnd := .any }, x)
  | .ffmaExt t x => some ({ formFlt t with c := .src 1, rnd := .any }, x)
  | .fminExt t x | .fmaxExt t x => some (formFlt t, x)
  | .fcmp _ m _ t x => some ({ formFlt t with d := if m then .no else .dst 1 true }, x)
  | .fclass _ x => some ({ d := .dst 1 true, a := .src 1 }, x)
  | .frnd _ x => some ({ d := .dst 1 true, a := .src 1, rnd := .noSr }, x)
  | .fsgn f _ x => some ({ d := .dst 1 true, a := .src 1, b := if f = .abs then .no else .src 1 }, x)
  | .fldx _ x => some ({ d := .dst 1 true, a := .src 1, b := .src 1, imm := .imm false, rnd := .noSr }, x)
  | .cvt s _ t x =>
    some ({ d := .dst t.regs true, a := .src s.regs, rnd := if t.srDest then .any else .noSr }, x)
  | .pack n _ _ _ x =>
    some ({ d := .dst 1 false, a := .src 1, b := if n = .x8 ∨ n = .e4m3p then .no else .src 1, rnd := .any }, x)
  | .unpk n _ _ x =>
    some ({ d := .dst 1 true, a := .src 1, b := if n = .x8 ∨ n = .e4m3p then .no else .src 1, rnd := .noSr }, x)
  | .sfq _ _ x => some ({ d := .queue, a := .src 1 }, x)
  | .idivq _ _ x => some ({ d := .queue, a := .src 1, b := .src 1 }, x)
  | .qsave _ x | .qrst _ x => some ({ a := .src 1 }, x)
  | .qcnt _ x => some ({ d := .dst 1 false }, x)
  | .cpy k mc _ x =>
    some ({ d := .src (if k = .spToGl then 2 else 1), a := .src (if k = .glToSp then 2 else 1), b := .src 1,
            c := if mc then .src 2 else .no }, x)
  | .cpyg _ _ x => some ({ d := .src 1, a := .src 2, b := .src 1, c := .src 1 }, x)
  | .cbseal x => some ({ d := .dst 2 false }, x)
  | .cbwait _ x => some ({ a := .src 1 }, x)
  | .gopen _ x => some ({ pred := .noZ }, x)
  | .gset _ x => some ({ a := .run 1 true, pred := .noZ }, x)
  | .tnx _ _ _ post _ n x =>
    some ({ d := if post then .no else .run 4 true, a := .src 2, b := if n = 0 then .no else .args n.toNat }, x)
  | .tnsync x => some ({ pred := .none }, x)
  | .shfl all _ t x => some ({ formInt t with d := .dst t.regs false, b := .src 1, imm := .imm false, c := if all then .no else .src 2 }, x)
  | .vote all k x =>
    some ({ d := .dst (if k = .ballot then 2 else 1) false, a := .src 1, c := if all then .no else .src 2 }, x)
  | .tred all _ t x | .tscan all _ _ t x =>
    some ({ d := .dst t.regs false, a := .src t.regs, c := if all then .no else .src 2 }, x)
  | .ldExt _ _ _ t x => some ({ d := .dst t.regs false, a := .src 2, imm := .off false }, x)
  | .stExt _ _ _ t x => some ({ d := .src t.regs, a := .src 2, imm := .off false, pred := .noZ }, x)
  | .ldsExt t x => some ({ d := .dst t.regs false, a := .src 1, imm := .off true }, x)
  | .stsExt t x => some ({ d := .src t.regs, a := .src 1, imm := .off true, pred := .noZ }, x)
  | .ldr t x => some ({ d := .dst t.regs false, a := .src 1, b := .src 1, imm := .off true }, x)
  | .str t x => some ({ d := .src t.regs, a := .src 1, b := .src 1, imm := .off true, pred := .noZ }, x)
  | .pref _ x => some ({ a := .src 2, imm := .off false, pred := .noZ }, x)
  | .atom op _ _ _ _ t x =>
    some ({ d := .dst t.regs false, a := .src 2, b := .src t.regs, c := if op = .cas then .src t.regs else .no,
            imm := .off false }, x)
  | .red _ _ _ _ _ t x => some ({ a := .src 2, b := .src t.regs, imm := .off false }, x)
  | .fence _ _ x => some ({}, x)
  | .waitc _ _ _ _ t x => some ({ d := .dst t.regs false, a := .src 2, b := .src t.regs, imm := .off false }, x)
  | .cctl _ _ x => some ({ a := .src 2, b := .src 1 }, x)
  | .ifence x => some ({ pred := .noZ }, x)
  | .pgalloc x | .pgfree x => some ({ d := .dst 1 false, a := .src 2 }, x)
  | .braExt x | .meet x => some ({ imm := .need, pred := .noZ }, x)
  | .callExt x => some ({ imm := .need, pred := .none }, x)
  | .jmp x => some ({ a := .src 2, pred := .noZ }, x)
  | .calli x => some ({ a := .src 2, pred := .none }, x)
  | .ret x | .tbar _ x | .nopExt x => some ({ pred := .none }, x)
  | .exit x => some ({ pred := .noZ }, x)
  | .plumb x => some ({}, x)
  | .bar x | .ypt x => some ({ imm := .i12, pred := .none }, x)
  | .sleepc x => some ({ a := .src 2 }, x)
  | .waitExt _ _ _ x => some ({ imm := .i4 }, x)
  | .raise r x =>
    some ({ d := .run 1 false, a := .src 2, b := if r then .src 1 else .no, c := .src 1, imm := .i13 }, x)
  | .itnext x => some ({ d := .hand, pred := .none }, x)
  | .itend x => some ({ pred := .none }, x)
  | .hred x => some ({ a := .plain, pred := .noZ }, x)
  | .joinh f x => some ({ d := .dst 2 false, c := if f then .dst 1 false else .no, pred := .none }, x)
  | .mdesc _ x => some ({ a := .src 2, b := .src 1, c := .src 1, pred := .noZ }, x)
  | .mldb _ x => some ({ pred := .noZ }, x)
  | .mrow _ _ _ _ _ x => some ({ a := .src 1, b := .src 1, c := .src 1, pred := .noZ }, x)
  | .mzero _ x => some ({ a := .src 1, pred := .noZ }, x)
  | .msync x => some ({ d := .dst 1 false, pred := .noZ }, x)
  | .mstat x => some ({ d := .dst 2 false, pred := .noZ }, x)
  | .sreg i x =>
    let w := if i = 0x00 ∨ i = 0x10 ∨ i = 0x21 ∨ i = 0x22 ∨ i = 0x23 then 2 else 1
    some ({ d := .dst w (w == 1) }, x)
  | .sset _ x => some ({ a := .src 1 }, x)
  | .trap x | .brk x => some ({ imm := .i13, pred := .noZ }, x)
  | .rte x | .rteSkip x => some ({ pred := .none }, x)
  | .rteSub x => some ({ a := .src 1, pred := .none }, x)
  | .sysc _ x => some ({ d := .dst 2 false, a := .src 2, b := .src 1 }, x)
  | .launch _ x => some ({ d := .dst 1 false, a := .src 2, pred := .noZ }, x)
  | _ => none

/-- The special-register indices SREG reads (R97). -/
def sregIndices : List Nat :=
  [0x00, 0x01, 0x02, 0x03, 0x04, 0x05, 0x06, 0x08, 0x09, 0x0A, 0x0B, 0x0C, 0x0D, 0x0E, 0x10, 0x18, 0x20, 0x21, 0x22,
    0x23, 0x24, 0x25, 0x26, 0x27]

/-- Positions a narrow format has in a word (R455). -/
def Ty.positions : Ty → Nat
  | .e2m1 | .cb4 => 8
  | _ => 4

/-- Type codes and MOD codes an instruction admits (R115-R121 and the entries): the rest of R123 step 4. -/
def Instr.codesOk : Instr → Bool
  | .iaddExt _ t _ | .isubExt _ t _ | .imad _ t _ | .imulExt t _ | .imulhi t _ | .iminExt t _ | .imaxExt t _
  | .andExt t _ | .orExt t _ | .xorExt t _ | .not t _ | .andn t _ | .shlExt t _ | .shrExt t _ | .sarExt t _
  | .popc t _ | .clz t _ | .brev t _ => t.int
  | .moviExt t x => t.int && x.vb == 1023 && x.va == 1023
  | .icmp c m md t _ => t.int && c != .un && c != .ord && (if m then md != 0 else md == 0)
  | .fcmp _ m md t _ => t.flt && (if m then md != 0 else md == 0)
  | .bfx p l t _ | .bfi p l t _ => t.int32 && l != 0 && p.toNat + l.toNat ≤ 32
  | .sel _ _ t _ | .movExt t _ | .shfl _ _ t _ => t.move
  | .lea _ t x => t.int32 && (x.vb == 1023 || (x.imm == 0 && x.lit == none))
  | .mlog f md _ mb _ => md != 0 && ((f != .not && f != .copy) || mb == 0)
  | .mmov dir m _ => !dir || m != 0
  | .faddExt t _ | .fsubExt t _ | .fmulExt t _ | .ffmaExt t _ | .fminExt t _ | .fmaxExt t _ | .fclass t _ | .frnd t _
  | .fsgn _ t _ | .fldx t _ | .sfq _ t _ => t.flt
  | .cvt s _ t _ => s.cvt && t.cvt
  | .pack n p _ t _ => t.flt && n.narrow && p.toNat < n.positions
  | .unpk n p t _ => t.flt && (n.narrow || n == .cb4) && p.toNat < n.positions
  | .idivq _ t _ => t.int32
  | .cpy k mc _ _ => !mc || k == .glToSp || k == .spToRm
  | .cpyg _ t _ => t == .b32 || t == .s64 || t == .b128
  | .tnx o _ sync post _ n _ => n.toNat ≤ 8 && (!post || (!sync && (o == .none || o == .rel)))
  | .tred _ op t _ | .tscan _ op _ t _ => t.int || (t.flt && (op == .add || op == .min || op == .max))
  | .ldExt o _ _ t _ => t.mem && (o == .none || o == .acq)
  | .stExt o _ _ t _ => t.mem && (o == .none || o == .rel)
  | .ldsExt t _ | .stsExt t _ | .ldr t _ | .str t _ => t.mem
  | .atom op _ _ _ rne t _ =>
    (t.int || (t == .f32 && (op == .add || op == .min || op == .max || op == .xchg))) &&
      (!rne || (op == .add && t == .f32))
  | .red op o _ _ rne t _ =>
    op != .xchg && op != .cas && (o == .none || o == .rel) &&
      (t.int || (t == .f32 && (op == .add || op == .min || op == .max))) && (!rne || (op == .add && t == .f32))
  | .fence o _ _ => o != .none
  | .waitc c o _ _ t _ => t.int && c != .un && c != .ord && (o == .none || o == .acq)
  | .cctl op sc _ => op != .iinv || sc == .dv
  | .raise r x => x.lit == none && (if r then x.vb != 1023 else x.vb == 1023)
  | .sreg i _ => sregIndices.contains i.toNat
  | .sset i _ => i == 0x18 || i == 0x24 || i == 0x25
  | _ => true

/-- The checks on the word before a base word (R107, R108), for the fields its format has. -/
def Pfx.ok (p : Pfx) (hasB : Bool) (hasA : Bool) (rnd z : Bool) (vc : Bool) : Bool :=
  p.vdh.toNat < 6 && p.vah.toNat < 6 && p.vbh.toNat < 6 && (hasA || p.vah == 0) && (hasB || p.vbh == 0) &&
    (rnd || p.rnd == .dflt) && (z || !p.z) && (vc || p.vc == 1023)

/-- A register field widened by its high part (R108). -/
def wide (h : BitVec 3) (f : BitVec 7) : Reg := h ++ f

def B3.vd (x : B3) : Reg := wide ((x.pfx.map (·.vdh)).getD 0) x.d
def B3.va (x : B3) : Reg := wide ((x.pfx.map (·.vah)).getD 0) x.a
def B3.vb (x : B3) : Reg := wide ((x.pfx.map (·.vbh)).getD 0) x.b
/-- The addend of FFMA: VC, or vd without a leading word (R106). -/
def B3.vc (x : B3) : Reg := (x.pfx.map (·.vc)).getD x.vd
def BI.vd (x : BI) : Reg := wide ((x.pfx.map (·.vdh)).getD 0) x.d
def BI.va (x : BI) : Reg := wide ((x.pfx.map (·.vah)).getD 0) x.a
def BMovi.vd (x : BMovi) : Reg := wide ((x.pfx.map (·.vdh)).getD 0) x.d

/-- Registers of a B3 operand. -/
def B3Ty.regs : B3Ty → Nat
  | .w64 => 2
  | _ => 1

/-- Operands with their roles of a base word, none for the words that name no register. -/
def Instr.baseOperands : Instr → Option (List (Role × Reg))
  | .iaddB3 x | .isubB3 x | .imulB3 x | .iminB3 x | .imaxB3 x | .andB3 x | .orB3 x | .xorB3 x
  | .shlB3 x | .shrB3 x | .sarB3 x =>
    some [(.dst x.t.regs true, x.vd), (.src x.t.regs, x.va), (.src x.t.regs, x.vb)]
  | .movB3 x => some [(.dst x.t.regs true, x.vd), (.src x.t.regs, x.va)]
  | .faddB3 x | .fsubB3 x | .fmulB3 x | .fminB3 x | .fmaxB3 x =>
    some [(.dst 1 true, x.vd), (.src 1, x.va), (.src 1, x.vb)]
  | .ffmaB3 x => some [(.dst 1 true, x.vd), (.src 1, x.va), (.src 1, x.vb), (.src 1, x.vc)]
  | .iaddBI x | .andBI x | .orBI x | .xorBI x | .shlBI x | .shrBI x | .sarBI x =>
    some [(.dst 1 true, x.vd), (.src 1, x.va)]
  | .moviB x => some [(.dst 1 true, x.vd)]
  | .ldB32 x => some [(.dst 1 false, x.vd), (.src 2, x.va)]
  | .ldB64 x => some [(.dst 2 false, x.vd), (.src 2, x.va)]
  | .stB32 x => some [(.src 1, x.vd), (.src 2, x.va)]
  | .stB64 x => some [(.src 2, x.vd), (.src 2, x.va)]
  | .ldsB32 x => some [(.dst 1 false, x.vd), (.src 1, x.va)]
  | .ldsB64 x => some [(.dst 2 false, x.vd), (.src 1, x.va)]
  | .stsB32 x => some [(.src 1, x.vd), (.src 1, x.va)]
  | .stsB64 x => some [(.src 2, x.vd), (.src 1, x.va)]
  | _ => none

/-- The leading word of a base word is well formed for it (R108). -/
def Instr.pfxOk : Instr → Bool
  | .iaddB3 x | .isubB3 x | .imulB3 x | .iminB3 x | .imaxB3 x | .andB3 x | .orB3 x | .xorB3 x
  | .shlB3 x | .shrB3 x | .sarB3 x => x.pfx.all (·.ok true true false true false)
  | .movB3 x => x.b == 0 && x.pfx.all (·.ok false true false true false)
  | .faddB3 x | .fsubB3 x | .fmulB3 x => x.t != .w64 && x.pfx.all (·.ok true true true true false)
  | .fminB3 x | .fmaxB3 x => x.t != .w64 && x.pfx.all (·.ok true true false true false)
  | .ffmaB3 x => x.t != .w64 && x.pfx.all (·.ok true true true true true)
  | .iaddBI x | .andBI x | .orBI x | .xorBI x | .shlBI x | .shrBI x | .sarBI x
  | .ldB32 x | .ldB64 x | .ldsB32 x | .ldsB64 x => x.pfx.all (·.ok false true false true false)
  | .stB32 x | .stB64 x | .stsB32 x | .stsB64 x => x.pfx.all (·.ok false true false false false)
  | .moviB x => x.pfx.all (·.ok false false false true false)
  | _ => true

/-- Operands with their roles of an instruction; none for a step. -/
def Instr.operands (i : Instr) : List (Role × Reg) :=
  match i.form? with
  | some (f, x) => f.operands x
  | none => i.baseOperands.getD []

/-- Steps 4 and 5 of R123, less what depends on the running context. -/
def Instr.wellFormed (i : Instr) : Bool :=
  i.codesOk && i.pfxOk &&
    match i.form? with
    | some (f, x) => f.ok x
    | none => (i.baseOperands.getD []).all fun (r, f) => r.admits f

end Sys2Proof
end

