-- ==== Sys2Proof/Decode.lean ====
section
/-! DEFINITION. The decoder, total on any words, and after it the encoder, both from the encoding tables of R105-R122. -/

namespace Sys2Proof

/-- Type codes (R111). -/
def Ty.code : Ty → Nat
  | .b32 => 0
  | .z32 => 1
  | .s64 => 2
  | .z64 => 3
  | .f32 => 4
  | .bf16 => 5
  | .s8 => 6
  | .z8 => 7
  | .s16 => 8
  | .z16 => 9
  | .b128 => 10
  | .e4m3 => 11
  | .e5m2 => 12
  | .e3m2 => 13
  | .e2m3 => 14
  | .e2m1 => 15
  | .cb4 => 16
  | .x8 => 17
  | .e4m3p => 18
/-- The Ty of a code, none where the code is assigned to none. -/
def Ty.ofCode : Nat → Option Ty
  | 0 => some .b32
  | 1 => some .z32
  | 2 => some .s64
  | 3 => some .z64
  | 4 => some .f32
  | 5 => some .bf16
  | 6 => some .s8
  | 7 => some .z8
  | 8 => some .s16
  | 9 => some .z16
  | 10 => some .b128
  | 11 => some .e4m3
  | 12 => some .e5m2
  | 13 => some .e3m2
  | 14 => some .e2m3
  | 15 => some .e2m1
  | 16 => some .cb4
  | 17 => some .x8
  | 18 => some .e4m3p
  | _ => none

/-- Rounding codes (R112). -/
def Rnd.code : Rnd → Nat
  | .dflt => 0
  | .rtz => 1
  | .rdn => 2
  | .rup => 3
  | .rna => 4
  | .sr => 5
/-- The Rnd of a code, none where the code is assigned to none. -/
def Rnd.ofCode : Nat → Option Rnd
  | 0 => some .dflt
  | 1 => some .rtz
  | 2 => some .rdn
  | 3 => some .rup
  | 4 => some .rna
  | 5 => some .sr
  | _ => none

/-- Ordering codes (R113). -/
def Ord.code : Ord → Nat
  | .none => 0
  | .acq => 1
  | .rel => 2
  | .ar => 3
/-- The Ord of a code, none where the code is assigned to none. -/
def Ord.ofCode : Nat → Option Ord
  | 0 => some .none
  | 1 => some .acq
  | 2 => some .rel
  | 3 => some .ar
  | _ => none

/-- Scope codes (R113). -/
def Scope.code : Scope → Nat
  | .cr => 0
  | .cl => 1
  | .dv => 2
  | .sy => 3
/-- The Scope of a code, none where the code is assigned to none. -/
def Scope.ofCode : Nat → Option Scope
  | 0 => some .cr
  | 1 => some .cl
  | 2 => some .dv
  | 3 => some .sy
  | _ => none

/-- Condition codes (R113). -/
def Cond.code : Cond → Nat
  | .eq => 0
  | .ne => 1
  | .lt => 2
  | .le => 3
  | .gt => 4
  | .ge => 5
  | .un => 6
  | .ord => 7
/-- The Cond of a code, none where the code is assigned to none. -/
def Cond.ofCode : Nat → Option Cond
  | 0 => some .eq
  | 1 => some .ne
  | 2 => some .lt
  | 3 => some .le
  | 4 => some .gt
  | 5 => some .ge
  | 6 => some .un
  | 7 => some .ord
  | _ => none

/-- Codes of the t field (R106). -/
def B3Ty.code : B3Ty → Nat
  | .w32 => 0
  | .z32bf => 1
  | .w64 => 2
/-- The B3Ty of a code, none where the code is assigned to none. -/
def B3Ty.ofCode : Nat → Option B3Ty
  | 0 => some .w32
  | 1 => some .z32bf
  | 2 => some .w64
  | _ => none

/-- MLOG functions (R116). -/
def MlogFn.code : MlogFn → Nat
  | .and => 0
  | .or => 1
  | .xor => 2
  | .andn => 3
  | .not => 4
  | .copy => 5
/-- The MlogFn of a code, none where the code is assigned to none. -/
def MlogFn.ofCode : Nat → Option MlogFn
  | 0 => some .and
  | 1 => some .or
  | 2 => some .xor
  | 3 => some .andn
  | 4 => some .not
  | 5 => some .copy
  | _ => none

/-- FSGN functions (R117). -/
def SgnFn.code : SgnFn → Nat
  | .copy => 0
  | .neg => 1
  | .xor => 2
  | .abs => 3
/-- The SgnFn of a code, none where the code is assigned to none. -/
def SgnFn.ofCode : Nat → Option SgnFn
  | 0 => some .copy
  | 1 => some .neg
  | 2 => some .xor
  | 3 => some .abs
  | _ => none

/-- SFQ functions (R118). -/
def SfuFn.code : SfuFn → Nat
  | .rcp => 0
  | .rsqrt => 1
  | .sqrt => 2
  | .exp2 => 3
  | .log2 => 4
  | .sin => 5
  | .cos => 6
  | .tanh => 7
/-- The SfuFn of a code, none where the code is assigned to none. -/
def SfuFn.ofCode : Nat → Option SfuFn
  | 0 => some .rcp
  | 1 => some .rsqrt
  | 2 => some .sqrt
  | 3 => some .exp2
  | 4 => some .log2
  | 5 => some .sin
  | 6 => some .cos
  | 7 => some .tanh
  | _ => none

/-- CPY kinds (R118). -/
def CpyKind.code : CpyKind → Nat
  | .glToSp => 0
  | .spToGl => 1
  | .spToRm => 2
  | .rmToSp => 3
/-- The CpyKind of a code, none where the code is assigned to none. -/
def CpyKind.ofCode : Nat → Option CpyKind
  | 0 => some .glToSp
  | 1 => some .spToGl
  | 2 => some .spToRm
  | 3 => some .rmToSp
  | _ => none

/-- ATOM operations (R119). -/
def AtomOp.code : AtomOp → Nat
  | .add => 0
  | .min => 1
  | .max => 2
  | .and => 3
  | .or => 4
  | .xor => 5
  | .xchg => 6
  | .cas => 7
/-- The AtomOp of a code, none where the code is assigned to none. -/
def AtomOp.ofCode : Nat → Option AtomOp
  | 0 => some .add
  | 1 => some .min
  | 2 => some .max
  | 3 => some .and
  | 4 => some .or
  | 5 => some .xor
  | 6 => some .xchg
  | 7 => some .cas
  | _ => none

/-- CCTL operations (R119). -/
def CctlOp.code : CctlOp → Nat
  | .wb => 0
  | .inv => 1
  | .wbinv => 2
  | .iinv => 3
/-- The CctlOp of a code, none where the code is assigned to none. -/
def CctlOp.ofCode : Nat → Option CctlOp
  | 0 => some .wb
  | 1 => some .inv
  | 2 => some .wbinv
  | 3 => some .iinv
  | _ => none

/-- SHFL modes (R120). -/
def ShflMode.code : ShflMode → Nat
  | .idx => 0
  | .up => 1
  | .down => 2
  | .xor => 3
/-- The ShflMode of a code, none where the code is assigned to none. -/
def ShflMode.ofCode : Nat → Option ShflMode
  | 0 => some .idx
  | 1 => some .up
  | 2 => some .down
  | 3 => some .xor
  | _ => none

/-- VOTE kinds (R120). -/
def VoteKind.code : VoteKind → Nat
  | .ballot => 0
  | .any => 1
  | .all => 2
/-- The VoteKind of a code, none where the code is assigned to none. -/
def VoteKind.ofCode : Nat → Option VoteKind
  | 0 => some .ballot
  | 1 => some .any
  | 2 => some .all
  | _ => none

/-- TRED operations (R120). -/
def RedOp.code : RedOp → Nat
  | .add => 0
  | .min => 1
  | .max => 2
  | .and => 3
  | .or => 4
  | .xor => 5
/-- The RedOp of a code, none where the code is assigned to none. -/
def RedOp.ofCode : Nat → Option RedOp
  | 0 => some .add
  | 1 => some .min
  | 2 => some .max
  | 3 => some .and
  | 4 => some .or
  | 5 => some .xor
  | _ => none

/-- TBAR levels (R120). -/
def Level.code : Level → Nat
  | .bent => 0
  | .die => 1
  | .pkg => 2
/-- The Level of a code, none where the code is assigned to none. -/
def Level.ofCode : Nat → Option Level
  | 0 => some .bent
  | 1 => some .die
  | 2 => some .pkg
  | _ => none

/-- `.g` and the guard slot of CPY and CPYG in MOD bits 6:3 (R118, R390). -/
def guardCode : Option (BitVec 3) → Nat
  | none => 0
  | some g => pack [(1, 1), (3, g.toNat)]
/-- The guard of MOD bits 6:3; guard bits without `.g` are refused (R392). -/
def guardOf (n : Nat) : Option (Option (BitVec 3)) :=
  match unpack [1, 3] n with
  | [0, 0] => some none
  | [1, g] => some (some (BitVec.ofNat 3 g))
  | _ => none

/-- Why words are no instruction (R101, R102, R114, R115, R123). -/
inductive Reject where
  /-- fewer words than the length field asks for -/
  | short
  /-- a leading word not followed by a base word it may widen (R102) -/
  | framing
  /-- an opcode, xop, type or MOD code assigned to no instruction -/
  | unassigned
  /-- a field check of R123 steps 4 and 5 fails -/
  | illFormed
  deriving DecidableEq, Repr

/-- The xop, type code, MOD and common fields of an extended form (R109). -/
structure RawExt where
  xop : Nat
  ty : Nat
  mod : Nat
  x : Ext
  deriving DecidableEq, Repr

/-- The instruction of an extended form (R115-R121). -/
def decodeExt (raw : RawExt) : Option Instr :=
  match raw.xop with
  | 0x0 => match unpack [1, 15] raw.mod with | [sat, 0] => (do let ty ← Ty.ofCode raw.ty; return .iaddExt (sat == 1) ty raw.x) | _ => none
  | 0x1 => match unpack [1, 15] raw.mod with | [sat, 0] => (do let ty ← Ty.ofCode raw.ty; return .isubExt (sat == 1) ty raw.x) | _ => none
  | 0x2 => if raw.mod = 0 then (do let ty ← Ty.ofCode raw.ty; return .imulExt ty raw.x) else none
  | 0x3 => if raw.mod = 0 then (do let ty ← Ty.ofCode raw.ty; return .imulhi ty raw.x) else none
  | 0x4 => match unpack [1, 15] raw.mod with | [sat, 0] => (do let ty ← Ty.ofCode raw.ty; return .imad (sat == 1) ty raw.x) | _ => none
  | 0x5 => if raw.mod = 0 then (do let ty ← Ty.ofCode raw.ty; return .iminExt ty raw.x) else none
  | 0x6 => if raw.mod = 0 then (do let ty ← Ty.ofCode raw.ty; return .imaxExt ty raw.x) else none
  | 0x7 => match unpack [4, 1, 7, 4] raw.mod with | [c, m, 0, md] => (do let c ← Cond.ofCode c; let ty ← Ty.ofCode raw.ty; return .icmp c (m == 1) (BitVec.ofNat 4 md) ty raw.x) | _ => none
  | 0x8 => if raw.mod = 0 then (do let ty ← Ty.ofCode raw.ty; return .andExt ty raw.x) else none
  | 0x9 => if raw.mod = 0 then (do let ty ← Ty.ofCode raw.ty; return .orExt ty raw.x) else none
  | 0xa => if raw.mod = 0 then (do let ty ← Ty.ofCode raw.ty; return .xorExt ty raw.x) else none
  | 0xb => if raw.mod = 0 then (do let ty ← Ty.ofCode raw.ty; return .not ty raw.x) else none
  | 0xc => if raw.mod = 0 then (do let ty ← Ty.ofCode raw.ty; return .andn ty raw.x) else none
  | 0xd => if raw.mod = 0 then (do let ty ← Ty.ofCode raw.ty; return .shlExt ty raw.x) else none
  | 0xe => if raw.mod = 0 then (do let ty ← Ty.ofCode raw.ty; return .shrExt ty raw.x) else none
  | 0xf => if raw.mod = 0 then (do let ty ← Ty.ofCode raw.ty; return .sarExt ty raw.x) else none
  | 0x10 => match unpack [5, 6, 5] raw.mod with | [p, l, 0] => (do let ty ← Ty.ofCode raw.ty; return .bfx (BitVec.ofNat 5 p) (BitVec.ofNat 6 l) ty raw.x) | _ => none
  | 0x11 => match unpack [5, 6, 5] raw.mod with | [p, l, 0] => (do let ty ← Ty.ofCode raw.ty; return .bfi (BitVec.ofNat 5 p) (BitVec.ofNat 6 l) ty raw.x) | _ => none
  | 0x12 => if raw.mod = 0 then (do let ty ← Ty.ofCode raw.ty; return .popc ty raw.x) else none
  | 0x13 => if raw.mod = 0 then (do let ty ← Ty.ofCode raw.ty; return .clz ty raw.x) else none
  | 0x14 => if raw.mod = 0 then (do let ty ← Ty.ofCode raw.ty; return .brev ty raw.x) else none
  | 0x15 => match unpack [11, 1, 4] raw.mod with | [0, v, m] => (do let ty ← Ty.ofCode raw.ty; return .sel (v == 1) (BitVec.ofNat 4 m) ty raw.x) | _ => none
  | 0x16 => if raw.mod = 0 then (do let ty ← Ty.ofCode raw.ty; return .movExt ty raw.x) else none
  | 0x17 => if raw.mod = 0 then (do let ty ← Ty.ofCode raw.ty; return .moviExt ty raw.x) else none
  | 0x18 => match unpack [2, 14] raw.mod with | [s, 0] => (do let ty ← Ty.ofCode raw.ty; return .lea (BitVec.ofNat 2 s) ty raw.x) | _ => none
  | 0x19 => match unpack [4, 4, 4, 4] raw.mod with | [f, md, ma, mb] => (if raw.ty = 0 then do let f ← MlogFn.ofCode f; return .mlog f (BitVec.ofNat 4 md) (BitVec.ofNat 4 ma) (BitVec.ofNat 4 mb) raw.x else none) | _ => none
  | 0x1a => match unpack [1, 11, 4] raw.mod with | [dir, 0, m] => (if raw.ty = 0 then some (.mmov (dir == 1) (BitVec.ofNat 4 m) raw.x) else none) | _ => none
  | 0x40 => if raw.mod = 0 then (do let ty ← Ty.ofCode raw.ty; return .faddExt ty raw.x) else none
  | 0x41 => if raw.mod = 0 then (do let ty ← Ty.ofCode raw.ty; return .fsubExt ty raw.x) else none
  | 0x42 => if raw.mod = 0 then (do let ty ← Ty.ofCode raw.ty; return .fmulExt ty raw.x) else none
  | 0x43 => if raw.mod = 0 then (do let ty ← Ty.ofCode raw.ty; return .ffmaExt ty raw.x) else none
  | 0x44 => if raw.mod = 0 then (do let ty ← Ty.ofCode raw.ty; return .fminExt ty raw.x) else none
  | 0x45 => if raw.mod = 0 then (do let ty ← Ty.ofCode raw.ty; return .fmaxExt ty raw.x) else none
  | 0x46 => match unpack [4, 1, 7, 4] raw.mod with | [c, m, 0, md] => (do let c ← Cond.ofCode c; let ty ← Ty.ofCode raw.ty; return .fcmp c (m == 1) (BitVec.ofNat 4 md) ty raw.x) | _ => none
  | 0x47 => if raw.mod = 0 then (do let ty ← Ty.ofCode raw.ty; return .fclass ty raw.x) else none
  | 0x48 => if raw.mod = 0 then (do let ty ← Ty.ofCode raw.ty; return .frnd ty raw.x) else none
  | 0x49 => match unpack [2, 14] raw.mod with | [f, 0] => (do let f ← SgnFn.ofCode f; let ty ← Ty.ofCode raw.ty; return .fsgn f ty raw.x) | _ => none
  | 0x4a => if raw.mod = 0 then (do let ty ← Ty.ofCode raw.ty; return .fldx ty raw.x) else none
  | 0x4b => match unpack [5, 1, 10] raw.mod with | [s, v, 0] => (do let s ← Ty.ofCode s; let ty ← Ty.ofCode raw.ty; return .cvt s (v == 1) ty raw.x) | _ => none
  | 0x4c => match unpack [5, 4, 1, 6] raw.mod with | [n, p, v, 0] => (do let n ← Ty.ofCode n; let ty ← Ty.ofCode raw.ty; return .pack n (BitVec.ofNat 4 p) (v == 1) ty raw.x) | _ => none
  | 0x4d => match unpack [5, 4, 7] raw.mod with | [n, p, 0] => (do let n ← Ty.ofCode n; let ty ← Ty.ofCode raw.ty; return .unpk n (BitVec.ofNat 4 p) ty raw.x) | _ => none
  | 0x80 => match unpack [4, 12] raw.mod with | [f, 0] => (do let f ← SfuFn.ofCode f; let ty ← Ty.ofCode raw.ty; return .sfq f ty raw.x) | _ => none
  | 0x81 => match unpack [1, 15] raw.mod with | [r, 0] => (do let ty ← Ty.ofCode raw.ty; return .idivq (r == 1) ty raw.x) | _ => none
  | 0x82 => match unpack [1, 15] raw.mod with | [b, 0] => (if raw.ty = 0 then some (.qsave (b == 1) raw.x) else none) | _ => none
  | 0x83 => match unpack [1, 15] raw.mod with | [b, 0] => (if raw.ty = 0 then some (.qrst (b == 1) raw.x) else none) | _ => none
  | 0x84 => match unpack [3, 13] raw.mod with | [q, 0] => (if raw.ty = 0 then some (.qcnt (BitVec.ofNat 3 q) raw.x) else none) | _ => none
  | 0x88 => match unpack [2, 1, 4, 9] raw.mod with | [k, mc, g, 0] => (if raw.ty = 0 then do let k ← CpyKind.ofCode k; let g ← guardOf g; return .cpy k (mc == 1) g raw.x else none) | _ => none
  | 0x89 => match unpack [3, 4, 9] raw.mod with | [0, g, 0] => (do let g ← guardOf g; let ty ← Ty.ofCode raw.ty; return .cpyg g ty raw.x) | _ => none
  | 0x8a => if raw.mod = 0 then (if raw.ty = 0 then some (.cbseal raw.x) else none) else none
  | 0x8b => match unpack [1, 15] raw.mod with | [c, 0] => (if raw.ty = 0 then some (.cbwait (c == 1) raw.x) else none) | _ => none
  | 0x8c => match unpack [3, 13] raw.mod with | [g, 0] => (if raw.ty = 0 then some (.gopen (BitVec.ofNat 3 g) raw.x) else none) | _ => none
  | 0x8d => match unpack [3, 13] raw.mod with | [g, 0] => (if raw.ty = 0 then some (.gset (BitVec.ofNat 3 g) raw.x) else none) | _ => none
  | 0x90 => match unpack [2, 2, 1, 1, 6, 4] raw.mod with | [o, s, y, p, slot, n] => (if raw.ty = 0 then do let o ← Ord.ofCode o; let s ← Scope.ofCode s; return .tnx o s (y == 1) (p == 1) (BitVec.ofNat 6 slot) (BitVec.ofNat 4 n) raw.x else none) | _ => none
  | 0x91 => if raw.mod = 0 then (if raw.ty = 0 then some (.tnsync raw.x) else none) else none
  | 0xc0 => match unpack [1, 3, 12] raw.mod with | [a, m, 0] => (do let m ← ShflMode.ofCode m; let ty ← Ty.ofCode raw.ty; return .shfl (a == 1) m ty raw.x) | _ => none
  | 0xc1 => match unpack [1, 2, 13] raw.mod with | [a, k, 0] => (if raw.ty = 0 then do let k ← VoteKind.ofCode k; return .vote (a == 1) k raw.x else none) | _ => none
  | 0xc2 => match unpack [1, 3, 12] raw.mod with | [a, op, 0] => (do let op ← RedOp.ofCode op; let ty ← Ty.ofCode raw.ty; return .tred (a == 1) op ty raw.x) | _ => none
  | 0xc3 => match unpack [1, 3, 1, 11] raw.mod with | [a, op, i, 0] => (do let op ← RedOp.ofCode op; let ty ← Ty.ofCode raw.ty; return .tscan (a == 1) op (i == 1) ty raw.x) | _ => none
  | 0x100 => match unpack [2, 2, 1, 11] raw.mod with | [o, s, y, 0] => (do let o ← Ord.ofCode o; let s ← Scope.ofCode s; let ty ← Ty.ofCode raw.ty; return .ldExt o s (y == 1) ty raw.x) | _ => none
  | 0x101 => match unpack [2, 2, 1, 11] raw.mod with | [o, s, y, 0] => (do let o ← Ord.ofCode o; let s ← Scope.ofCode s; let ty ← Ty.ofCode raw.ty; return .stExt o s (y == 1) ty raw.x) | _ => none
  | 0x102 => if raw.mod = 0 then (do let ty ← Ty.ofCode raw.ty; return .ldsExt ty raw.x) else none
  | 0x103 => if raw.mod = 0 then (do let ty ← Ty.ofCode raw.ty; return .stsExt ty raw.x) else none
  | 0x104 => if raw.mod = 0 then (do let ty ← Ty.ofCode raw.ty; return .ldr ty raw.x) else none
  | 0x105 => if raw.mod = 0 then (do let ty ← Ty.ofCode raw.ty; return .str ty raw.x) else none
  | 0x106 => match unpack [5, 1, 10] raw.mod with | [0, l, 0] => (if raw.ty = 0 then some (.pref (l == 1) raw.x) else none) | _ => none
  | 0x107 => match unpack [2, 2, 1, 5, 1, 5] raw.mod with | [o, s, y, op, r, 0] => (do let op ← AtomOp.ofCode op; let o ← Ord.ofCode o; let s ← Scope.ofCode s; let ty ← Ty.ofCode raw.ty; return .atom op o s (y == 1) (r == 1) ty raw.x) | _ => none
  | 0x108 => match unpack [2, 2, 1, 5, 1, 5] raw.mod with | [o, s, y, op, r, 0] => (do let op ← AtomOp.ofCode op; let o ← Ord.ofCode o; let s ← Scope.ofCode s; let ty ← Ty.ofCode raw.ty; return .red op o s (y == 1) (r == 1) ty raw.x) | _ => none
  | 0x109 => match unpack [2, 2, 12] raw.mod with | [o, s, 0] => (if raw.ty = 0 then do let o ← Ord.ofCode o; let s ← Scope.ofCode s; return .fence o s raw.x else none) | _ => none
  | 0x10a => match unpack [2, 2, 1, 4, 7] raw.mod with | [o, s, y, c, 0] => (do let c ← Cond.ofCode c; let o ← Ord.ofCode o; let s ← Scope.ofCode s; let ty ← Ty.ofCode raw.ty; return .waitc c o s (y == 1) ty raw.x) | _ => none
  | 0x10b => match unpack [2, 2, 1, 5, 6] raw.mod with | [0, s, 0, op, 0] => (if raw.ty = 0 then do let op ← CctlOp.ofCode op; let s ← Scope.ofCode s; return .cctl op s raw.x else none) | _ => none
  | 0x10c => if raw.mod = 0 then (if raw.ty = 0 then some (.ifence raw.x) else none) else none
  | 0x10d => if raw.mod = 0 then (if raw.ty = 0 then some (.pgalloc raw.x) else none) else none
  | 0x10e => if raw.mod = 0 then (if raw.ty = 0 then some (.pgfree raw.x) else none) else none
  | 0x140 => if raw.mod = 0 then (if raw.ty = 0 then some (.braExt raw.x) else none) else none
  | 0x141 => if raw.mod = 0 then (if raw.ty = 0 then some (.jmp raw.x) else none) else none
  | 0x142 => if raw.mod = 0 then (if raw.ty = 0 then some (.callExt raw.x) else none) else none
  | 0x143 => if raw.mod = 0 then (if raw.ty = 0 then some (.calli raw.x) else none) else none
  | 0x144 => if raw.mod = 0 then (if raw.ty = 0 then some (.ret raw.x) else none) else none
  | 0x145 => if raw.mod = 0 then (if raw.ty = 0 then some (.meet raw.x) else none) else none
  | 0x146 => if raw.mod = 0 then (if raw.ty = 0 then some (.exit raw.x) else none) else none
  | 0x147 => if raw.mod = 0 then (if raw.ty = 0 then some (.bar raw.x) else none) else none
  | 0x148 => match unpack [2, 14] raw.mod with | [l, 0] => (if raw.ty = 0 then do let l ← Level.ofCode l; return .tbar l raw.x else none) | _ => none
  | 0x149 => if raw.mod = 0 then (if raw.ty = 0 then some (.ypt raw.x) else none) else none
  | 0x14a => if raw.mod = 0 then (if raw.ty = 0 then some (.nopExt raw.x) else none) else none
  | 0x14b => if raw.mod = 0 then (if raw.ty = 0 then some (.sleepc raw.x) else none) else none
  | 0x14c => match unpack [4, 6, 6] raw.mod with | [cp, st, ld] => (if raw.ty = 0 then some (.waitExt (BitVec.ofNat 6 ld) (BitVec.ofNat 6 st) (BitVec.ofNat 4 cp) raw.x) else none) | _ => none
  | 0x180 => match unpack [1, 15] raw.mod with | [r, 0] => (if raw.ty = 0 then some (.raise (r == 1) raw.x) else none) | _ => none
  | 0x181 => if raw.mod = 0 then (if raw.ty = 0 then some (.itnext raw.x) else none) else none
  | 0x182 => if raw.mod = 0 then (if raw.ty = 0 then some (.itend raw.x) else none) else none
  | 0x183 => if raw.mod = 0 then (if raw.ty = 0 then some (.hred raw.x) else none) else none
  | 0x184 => match unpack [1, 15] raw.mod with | [f, 0] => (if raw.ty = 0 then some (.joinh (f == 1) raw.x) else none) | _ => none
  | 0x1a0 => match unpack [4, 12] raw.mod with | [r, 0] => (if raw.ty = 0 then some (.mdesc (BitVec.ofNat 4 r) raw.x) else none) | _ => none
  | 0x1a1 => match unpack [4, 12] raw.mod with | [r, 0] => (if raw.ty = 0 then some (.mldb (BitVec.ofNat 4 r) raw.x) else none) | _ => none
  | 0x1a2 => match unpack [4, 4, 1, 1, 1, 5] raw.mod with | [a, c, f, o, p, 0] => (if raw.ty = 0 then some (.mrow (BitVec.ofNat 4 a) (BitVec.ofNat 4 c) (f == 1) (o == 1) (p == 1) raw.x) else none) | _ => none
  | 0x1a3 => match unpack [4, 12] raw.mod with | [r, 0] => (if raw.ty = 0 then some (.mzero (BitVec.ofNat 4 r) raw.x) else none) | _ => none
  | 0x1a4 => if raw.mod = 0 then (if raw.ty = 0 then some (.msync raw.x) else none) else none
  | 0x1a5 => if raw.mod = 0 then (if raw.ty = 0 then some (.mstat raw.x) else none) else none
  | 0x1c0 => match unpack [8, 8] raw.mod with | [i, 0] => (if raw.ty = 0 then some (.sreg (BitVec.ofNat 8 i) raw.x) else none) | _ => none
  | 0x1c1 => match unpack [8, 8] raw.mod with | [i, 0] => (if raw.ty = 0 then some (.sset (BitVec.ofNat 8 i) raw.x) else none) | _ => none
  | 0x1c2 => if raw.mod = 0 then (if raw.ty = 0 then some (.trap raw.x) else none) else none
  | 0x1c4 => match unpack [8, 8] raw.mod with | [s, 0] => (if raw.ty = 0 then some (.sysc (BitVec.ofNat 8 s) raw.x) else none) | _ => none
  | 0x1c5 => match unpack [6, 10] raw.mod with | [q, 0] => (if raw.ty = 0 then some (.launch (BitVec.ofNat 6 q) raw.x) else none) | _ => none
  | 0x1c6 => if raw.mod = 0 then (if raw.ty = 0 then some (.plumb raw.x) else none) else none
  | 0x1c7 => if raw.mod = 0 then (if raw.ty = 0 then some (.brk raw.x) else none) else none
  | 0x1c3 => if raw.ty = 0 then (match raw.mod with | 0 => some (.rte raw.x) | 1 => some (.rteSkip raw.x) | 2 => some (.rteSub raw.x) | _ => none) else none
  | _ => none

/-- Words of an instruction by its length field (R101). -/
def lengthOf (w0 : Word) : Nat :=
  match w0.toNat / 2 ^ 30 with
  | 0 => 1
  | 1 => 2
  | 2 => 3
  | _ => 5

/-- The common fields of an extended form from its words after the first (R109); none for a rounding code 110 or 111
or a word-1 bit that must be zero. -/
def extFields (w1 w2 : Word) (lit : Option DWord) : Option Ext :=
  match unpack [2, 10, 10, 10] w1.toNat, unpack [13, 3, 1, 1, 4, 10] w2.toNat with
  | [0, vb, va, vd], [imm, rnd, z, inv, mask, vc] => do
    let rnd ← Rnd.ofCode rnd
    return { vd := BitVec.ofNat 10 vd, va := BitVec.ofNat 10 va, vb := BitVec.ofNat 10 vb, vc := BitVec.ofNat 10 vc,
             mask := BitVec.ofNat 4 mask, inv := inv == 1, z := z == 1, rnd := rnd, imm := BitVec.ofNat 13 imm,
             lit := lit }
  | _, _ => none

/-- An extended form from its words. -/
def decodeExtWords (w0 w1 w2 : Word) (lit : Option DWord) : Option Instr :=
  match unpack [16, 5, 9] w0.toNat with
  | [mod, ty, xop] => do
    let x ← extFields w1 w2 lit
    decodeExt ⟨xop, ty, mod, x⟩
  | _ => none

/-- The leading word of R107. -/
def decodePfx (w : Word) : Option Pfx :=
  match unpack [3, 10, 3, 1, 4, 3, 3, 3, 2] w.toNat with
  | [0, vc, rnd, z, mask, vbh, vah, vdh, 1] => do
    let rnd ← Rnd.ofCode rnd
    return { vdh := BitVec.ofNat 3 vdh, vah := BitVec.ofNat 3 vah, vbh := BitVec.ofNat 3 vbh,
             mask := BitVec.ofNat 4 mask, z := z == 1, rnd := rnd, vc := BitVec.ofNat 10 vc }
  | _ => none

/-- Operands of a B3 word (R105). -/
def b3Of (p : Option Pfx) (w : Word) : Option B3 :=
  match unpack [2, 7, 7, 7] w.toNat with
  | [t, b, a, d] => do
    let t ← B3Ty.ofCode t
    return { pfx := p, t := t, d := BitVec.ofNat 7 d, a := BitVec.ofNat 7 a, b := BitVec.ofNat 7 b }
  | _ => none

/-- Operands of a BI or BM word (R105). -/
def biOf (p : Option Pfx) (w : Word) : Option BI :=
  match unpack [9, 7, 7] w.toNat with
  | [imm, a, d] => some { pfx := p, d := BitVec.ofNat 7 d, a := BitVec.ofNat 7 a, imm := BitVec.ofNat 9 imm }
  | _ => none

/-- Operands of the base MOVI word (R105). -/
def bmoviOf (p : Option Pfx) (w : Word) : Option BMovi :=
  match unpack [16, 7] w.toNat with
  | [imm, d] => some { pfx := p, d := BitVec.ofNat 7 d, imm := BitVec.ofNat 16 imm }
  | _ => none

/-- The prefixable base words (R114). -/
def decodeOperandWord (p : Option Pfx) (w : Word) : Option Instr :=
  match w.toNat / 2 ^ 23 with
  | 0x0 => (b3Of p w).map .iaddB3
  | 0x1 => (b3Of p w).map .isubB3
  | 0x2 => (b3Of p w).map .imulB3
  | 0x3 => (b3Of p w).map .iminB3
  | 0x4 => (b3Of p w).map .imaxB3
  | 0x5 => (b3Of p w).map .andB3
  | 0x6 => (b3Of p w).map .orB3
  | 0x7 => (b3Of p w).map .xorB3
  | 0x8 => (b3Of p w).map .shlB3
  | 0x9 => (b3Of p w).map .shrB3
  | 0xa => (b3Of p w).map .sarB3
  | 0xb => (b3Of p w).map .movB3
  | 0xc => (b3Of p w).map .faddB3
  | 0xd => (b3Of p w).map .fsubB3
  | 0xe => (b3Of p w).map .fmulB3
  | 0xf => (b3Of p w).map .fminB3
  | 0x10 => (b3Of p w).map .fmaxB3
  | 0x11 => (b3Of p w).map .ffmaB3
  | 0x20 => (biOf p w).map .iaddBI
  | 0x21 => (biOf p w).map .andBI
  | 0x22 => (biOf p w).map .orBI
  | 0x23 => (biOf p w).map .xorBI
  | 0x24 => (biOf p w).map .shlBI
  | 0x25 => (biOf p w).map .shrBI
  | 0x26 => (biOf p w).map .sarBI
  | 0x30 => (biOf p w).map .ldB32
  | 0x31 => (biOf p w).map .ldB64
  | 0x32 => (biOf p w).map .stB32
  | 0x33 => (biOf p w).map .stB64
  | 0x34 => (biOf p w).map .ldsB32
  | 0x35 => (biOf p w).map .stsB32
  | 0x36 => (biOf p w).map .ldsB64
  | 0x37 => (biOf p w).map .stsB64
  | 0x27 => (bmoviOf p w).map .moviB
  | _ => none

/-- A base word on its own (R105, R114). -/
def decodeBase (w : Word) : Option Instr :=
  match w.toNat / 2 ^ 23 with
  | 0x3c =>
    match unpack [18, 1, 4] w.toNat with
    | [o, n, m] => some (.braBB (BitVec.ofNat 4 m) (n == 1) (BitVec.ofNat 18 o))
    | _ => none
  | 0x3d =>
    match unpack [18, 5] w.toNat with
    | [o, n] => some (.callBB (BitVec.ofNat 5 n) (BitVec.ofNat 18 o))
    | _ => none
  | 0x3e =>
    match unpack [3, 4, 4, 6, 6] w.toNat with
    | [0, t, c, s, l] => some (.waitB (BitVec.ofNat 6 l) (BitVec.ofNat 6 s) (BitVec.ofNat 4 c) (BitVec.ofNat 4 t))
    | _ => none
  | 0x3f => if w.toNat % 2 ^ 23 = 0 then some .nopB else none
  | _ => decodeOperandWord none w

/-- The fields of an instruction, before the checks of R123 steps 4 and 5. -/
def decodeFields : List Word → Except Reject Instr
  | [] => .error .short
  | w0 :: ws =>
    match w0.toNat / 2 ^ 30, ws with
    | 0, _ => (decodeBase w0).elim (.error .unassigned) .ok
    | 1, w1 :: _ =>
      match decodePfx w0 with
      | none => .error .illFormed
      | some p => (decodeOperandWord (some p) w1).elim (.error .framing) .ok
    | 2, w1 :: w2 :: _ => (decodeExtWords w0 w1 w2 none).elim (.error .unassigned) .ok
    | 3, w1 :: w2 :: w3 :: w4 :: _ => (decodeExtWords w0 w1 w2 (some (w4 ++ w3))).elim (.error .unassigned) .ok
    | _, _ => .error .short

/-- The decoder of Vebalyn words: the instruction, or the named reason why there is none. -/
def decode (ws : List Word) : Except Reject Instr :=
  match decodeFields ws with
  | .ok i => if i.wellFormed then .ok i else .error .illFormed
  | .error e => .error e

/-- The enclave words of the sill cores (R122, R397): custom-0, R-type. -/
def decodeEnc (w : Word) : Option Instr :=
  match unpack [7, 5, 3, 5, 5, 7] w.toNat with
  | [0x0b, rd, 0, rs1, rs2, f7] =>
    let d := BitVec.ofNat 5 rd
    let s := BitVec.ofNat 5 rs1
    let t := BitVec.ofNat 5 rs2
    match f7 with
    | 0 => if rs2 = 0 then some (.encCreate d s) else none
    | 1 => some (.encAddpg d s t)
    | 2 => some (.encEnter d s t)
    | 3 => if rd = 0 ∧ rs1 = 0 ∧ rs2 = 0 then some .encExit else none
    | 4 => some (.encSeal d s t)
    | 5 => some (.encUnseal d s t)
    | 6 => if rs2 = 0 then some (.encDestroy d s) else none
    | _ => none
  | _ => none

/-! ### The encoder -/

/-- The xop, type and MOD of an extended instruction. -/
def rawOf : Instr → Option RawExt
  | .iaddExt sat ty x => some ⟨0x0, ty.code, pack [(1, ofBool sat), (15, 0)], x⟩
  | .isubExt sat ty x => some ⟨0x1, ty.code, pack [(1, ofBool sat), (15, 0)], x⟩
  | .imulExt ty x => some ⟨0x2, ty.code, pack [(16, 0)], x⟩
  | .imulhi ty x => some ⟨0x3, ty.code, pack [(16, 0)], x⟩
  | .imad sat ty x => some ⟨0x4, ty.code, pack [(1, ofBool sat), (15, 0)], x⟩
  | .iminExt ty x => some ⟨0x5, ty.code, pack [(16, 0)], x⟩
  | .imaxExt ty x => some ⟨0x6, ty.code, pack [(16, 0)], x⟩
  | .icmp c m md ty x => some ⟨0x7, ty.code, pack [(4, c.code), (1, ofBool m), (7, 0), (4, md.toNat)], x⟩
  | .andExt ty x => some ⟨0x8, ty.code, pack [(16, 0)], x⟩
  | .orExt ty x => some ⟨0x9, ty.code, pack [(16, 0)], x⟩
  | .xorExt ty x => some ⟨0xa, ty.code, pack [(16, 0)], x⟩
  | .not ty x => some ⟨0xb, ty.code, pack [(16, 0)], x⟩
  | .andn ty x => some ⟨0xc, ty.code, pack [(16, 0)], x⟩
  | .shlExt ty x => some ⟨0xd, ty.code, pack [(16, 0)], x⟩
  | .shrExt ty x => some ⟨0xe, ty.code, pack [(16, 0)], x⟩
  | .sarExt ty x => some ⟨0xf, ty.code, pack [(16, 0)], x⟩
  | .bfx p l ty x => some ⟨0x10, ty.code, pack [(5, p.toNat), (6, l.toNat), (5, 0)], x⟩
  | .bfi p l ty x => some ⟨0x11, ty.code, pack [(5, p.toNat), (6, l.toNat), (5, 0)], x⟩
  | .popc ty x => some ⟨0x12, ty.code, pack [(16, 0)], x⟩
  | .clz ty x => some ⟨0x13, ty.code, pack [(16, 0)], x⟩
  | .brev ty x => some ⟨0x14, ty.code, pack [(16, 0)], x⟩
  | .sel v m ty x => some ⟨0x15, ty.code, pack [(11, 0), (1, ofBool v), (4, m.toNat)], x⟩
  | .movExt ty x => some ⟨0x16, ty.code, pack [(16, 0)], x⟩
  | .moviExt ty x => some ⟨0x17, ty.code, pack [(16, 0)], x⟩
  | .lea s ty x => some ⟨0x18, ty.code, pack [(2, s.toNat), (14, 0)], x⟩
  | .mlog f md ma mb x => some ⟨0x19, 0, pack [(4, f.code), (4, md.toNat), (4, ma.toNat), (4, mb.toNat)], x⟩
  | .mmov dir m x => some ⟨0x1a, 0, pack [(1, ofBool dir), (11, 0), (4, m.toNat)], x⟩
  | .faddExt ty x => some ⟨0x40, ty.code, pack [(16, 0)], x⟩
  | .fsubExt ty x => some ⟨0x41, ty.code, pack [(16, 0)], x⟩
  | .fmulExt ty x => some ⟨0x42, ty.code, pack [(16, 0)], x⟩
  | .ffmaExt ty x => some ⟨0x43, ty.code, pack [(16, 0)], x⟩
  | .fminExt ty x => some ⟨0x44, ty.code, pack [(16, 0)], x⟩
  | .fmaxExt ty x => some ⟨0x45, ty.code, pack [(16, 0)], x⟩
  | .fcmp c m md ty x => some ⟨0x46, ty.code, pack [(4, c.code), (1, ofBool m), (7, 0), (4, md.toNat)], x⟩
  | .fclass ty x => some ⟨0x47, ty.code, pack [(16, 0)], x⟩
  | .frnd ty x => some ⟨0x48, ty.code, pack [(16, 0)], x⟩
  | .fsgn f ty x => some ⟨0x49, ty.code, pack [(2, f.code), (14, 0)], x⟩
  | .fldx ty x => some ⟨0x4a, ty.code, pack [(16, 0)], x⟩
  | .cvt s v ty x => some ⟨0x4b, ty.code, pack [(5, s.code), (1, ofBool v), (10, 0)], x⟩
  | .pack n p v ty x => some ⟨0x4c, ty.code, pack [(5, n.code), (4, p.toNat), (1, ofBool v), (6, 0)], x⟩
  | .unpk n p ty x => some ⟨0x4d, ty.code, pack [(5, n.code), (4, p.toNat), (7, 0)], x⟩
  | .sfq f ty x => some ⟨0x80, ty.code, pack [(4, f.code), (12, 0)], x⟩
  | .idivq r ty x => some ⟨0x81, ty.code, pack [(1, ofBool r), (15, 0)], x⟩
  | .qsave b x => some ⟨0x82, 0, pack [(1, ofBool b), (15, 0)], x⟩
  | .qrst b x => some ⟨0x83, 0, pack [(1, ofBool b), (15, 0)], x⟩
  | .qcnt q x => some ⟨0x84, 0, pack [(3, q.toNat), (13, 0)], x⟩
  | .cpy k mc g x => some ⟨0x88, 0, pack [(2, k.code), (1, ofBool mc), (4, guardCode g), (9, 0)], x⟩
  | .cpyg g ty x => some ⟨0x89, ty.code, pack [(3, 0), (4, guardCode g), (9, 0)], x⟩
  | .cbseal x => some ⟨0x8a, 0, pack [(16, 0)], x⟩
  | .cbwait c x => some ⟨0x8b, 0, pack [(1, ofBool c), (15, 0)], x⟩
  | .gopen g x => some ⟨0x8c, 0, pack [(3, g.toNat), (13, 0)], x⟩
  | .gset g x => some ⟨0x8d, 0, pack [(3, g.toNat), (13, 0)], x⟩
  | .tnx o s y p slot n x => some ⟨0x90, 0, pack [(2, o.code), (2, s.code), (1, ofBool y), (1, ofBool p), (6, slot.toNat), (4, n.toNat)], x⟩
  | .tnsync x => some ⟨0x91, 0, pack [(16, 0)], x⟩
  | .shfl a m ty x => some ⟨0xc0, ty.code, pack [(1, ofBool a), (3, m.code), (12, 0)], x⟩
  | .vote a k x => some ⟨0xc1, 0, pack [(1, ofBool a), (2, k.code), (13, 0)], x⟩
  | .tred a op ty x => some ⟨0xc2, ty.code, pack [(1, ofBool a), (3, op.code), (12, 0)], x⟩
  | .tscan a op i ty x => some ⟨0xc3, ty.code, pack [(1, ofBool a), (3, op.code), (1, ofBool i), (11, 0)], x⟩
  | .ldExt o s y ty x => some ⟨0x100, ty.code, pack [(2, o.code), (2, s.code), (1, ofBool y), (11, 0)], x⟩
  | .stExt o s y ty x => some ⟨0x101, ty.code, pack [(2, o.code), (2, s.code), (1, ofBool y), (11, 0)], x⟩
  | .ldsExt ty x => some ⟨0x102, ty.code, pack [(16, 0)], x⟩
  | .stsExt ty x => some ⟨0x103, ty.code, pack [(16, 0)], x⟩
  | .ldr ty x => some ⟨0x104, ty.code, pack [(16, 0)], x⟩
  | .str ty x => some ⟨0x105, ty.code, pack [(16, 0)], x⟩
  | .pref l x => some ⟨0x106, 0, pack [(5, 0), (1, ofBool l), (10, 0)], x⟩
  | .atom op o s y r ty x => some ⟨0x107, ty.code, pack [(2, o.code), (2, s.code), (1, ofBool y), (5, op.code), (1, ofBool r), (5, 0)], x⟩
  | .red op o s y r ty x => some ⟨0x108, ty.code, pack [(2, o.code), (2, s.code), (1, ofBool y), (5, op.code), (1, ofBool r), (5, 0)], x⟩
  | .fence o s x => some ⟨0x109, 0, pack [(2, o.code), (2, s.code), (12, 0)], x⟩
  | .waitc c o s y ty x => some ⟨0x10a, ty.code, pack [(2, o.code), (2, s.code), (1, ofBool y), (4, c.code), (7, 0)], x⟩
  | .cctl op s x => some ⟨0x10b, 0, pack [(2, 0), (2, s.code), (1, 0), (5, op.code), (6, 0)], x⟩
  | .ifence x => some ⟨0x10c, 0, pack [(16, 0)], x⟩
  | .pgalloc x => some ⟨0x10d, 0, pack [(16, 0)], x⟩
  | .pgfree x => some ⟨0x10e, 0, pack [(16, 0)], x⟩
  | .braExt x => some ⟨0x140, 0, pack [(16, 0)], x⟩
  | .jmp x => some ⟨0x141, 0, pack [(16, 0)], x⟩
  | .callExt x => some ⟨0x142, 0, pack [(16, 0)], x⟩
  | .calli x => some ⟨0x143, 0, pack [(16, 0)], x⟩
  | .ret x => some ⟨0x144, 0, pack [(16, 0)], x⟩
  | .meet x => some ⟨0x145, 0, pack [(16, 0)], x⟩
  | .exit x => some ⟨0x146, 0, pack [(16, 0)], x⟩
  | .bar x => some ⟨0x147, 0, pack [(16, 0)], x⟩
  | .tbar l x => some ⟨0x148, 0, pack [(2, l.code), (14, 0)], x⟩
  | .ypt x => some ⟨0x149, 0, pack [(16, 0)], x⟩
  | .nopExt x => some ⟨0x14a, 0, pack [(16, 0)], x⟩
  | .sleepc x => some ⟨0x14b, 0, pack [(16, 0)], x⟩
  | .waitExt ld st cp x => some ⟨0x14c, 0, pack [(4, cp.toNat), (6, st.toNat), (6, ld.toNat)], x⟩
  | .raise r x => some ⟨0x180, 0, pack [(1, ofBool r), (15, 0)], x⟩
  | .itnext x => some ⟨0x181, 0, pack [(16, 0)], x⟩
  | .itend x => some ⟨0x182, 0, pack [(16, 0)], x⟩
  | .hred x => some ⟨0x183, 0, pack [(16, 0)], x⟩
  | .joinh f x => some ⟨0x184, 0, pack [(1, ofBool f), (15, 0)], x⟩
  | .mdesc r x => some ⟨0x1a0, 0, pack [(4, r.toNat), (12, 0)], x⟩
  | .mldb r x => some ⟨0x1a1, 0, pack [(4, r.toNat), (12, 0)], x⟩
  | .mrow a c f o p x => some ⟨0x1a2, 0, pack [(4, a.toNat), (4, c.toNat), (1, ofBool f), (1, ofBool o), (1, ofBool p), (5, 0)], x⟩
  | .mzero r x => some ⟨0x1a3, 0, pack [(4, r.toNat), (12, 0)], x⟩
  | .msync x => some ⟨0x1a4, 0, pack [(16, 0)], x⟩
  | .mstat x => some ⟨0x1a5, 0, pack [(16, 0)], x⟩
  | .sreg i x => some ⟨0x1c0, 0, pack [(8, i.toNat), (8, 0)], x⟩
  | .sset i x => some ⟨0x1c1, 0, pack [(8, i.toNat), (8, 0)], x⟩
  | .trap x => some ⟨0x1c2, 0, pack [(16, 0)], x⟩
  | .sysc s x => some ⟨0x1c4, 0, pack [(8, s.toNat), (8, 0)], x⟩
  | .launch q x => some ⟨0x1c5, 0, pack [(6, q.toNat), (10, 0)], x⟩
  | .plumb x => some ⟨0x1c6, 0, pack [(16, 0)], x⟩
  | .brk x => some ⟨0x1c7, 0, pack [(16, 0)], x⟩
  | .rte x => some ⟨0x1c3, 0, 0, x⟩
  | .rteSkip x => some ⟨0x1c3, 0, 1, x⟩
  | .rteSub x => some ⟨0x1c3, 0, 2, x⟩
  | _ => none

/-- The words of an extended form (R109). -/
def encodeExt (r : RawExt) : List Word :=
  let x := r.x
  let l := if x.lit.isSome then 3 else 2
  let w0 := BitVec.ofNat 32 (Sys2Proof.pack [(16, r.mod), (5, r.ty), (9, r.xop), (2, l)])
  let w1 := BitVec.ofNat 32 (Sys2Proof.pack [(2, 0), (10, x.vb.toNat), (10, x.va.toNat), (10, x.vd.toNat)])
  let w2 := BitVec.ofNat 32 (Sys2Proof.pack [(13, x.imm.toNat), (3, x.rnd.code), (1, ofBool x.z), (1, ofBool x.inv),
    (4, x.mask.toNat), (10, x.vc.toNat)])
  match x.lit with
  | none => [w0, w1, w2]
  | some v => [w0, w1, w2, v.extractLsb' 0 32, v.extractLsb' 32 32]

/-- The leading word of R107. -/
def encodePfx (p : Pfx) : Word :=
  BitVec.ofNat 32 (Sys2Proof.pack [(3, 0), (10, p.vc.toNat), (3, p.rnd.code), (1, ofBool p.z), (4, p.mask.toNat),
    (3, p.vbh.toNat), (3, p.vah.toNat), (3, p.vdh.toNat), (2, 1)])

/-- A base word after its leading word, if any. -/
def withPfx (p : Option Pfx) (w : Nat) : List Word :=
  match p with
  | none => [BitVec.ofNat 32 w]
  | some q => [encodePfx q, BitVec.ofNat 32 w]

def encodeB3 (op : Nat) (x : B3) : List Word :=
  withPfx x.pfx (Sys2Proof.pack [(2, x.t.code), (7, x.b.toNat), (7, x.a.toNat), (7, x.d.toNat), (7, op), (2, 0)])
def encodeBI (op : Nat) (x : BI) : List Word :=
  withPfx x.pfx (Sys2Proof.pack [(9, x.imm.toNat), (7, x.a.toNat), (7, x.d.toNat), (7, op), (2, 0)])

/-- A word of the enclave extension (R397). -/
def encodeEnc (f7 : Nat) (rs2 rs1 rd : BitVec 5) : Word :=
  BitVec.ofNat 32 (Sys2Proof.pack [(7, 0x0b), (5, rd.toNat), (3, 0), (5, rs1.toNat), (5, rs2.toNat), (7, f7)])

/-- The words of a well-formed instruction; a step has none. -/
def encode (i : Instr) : List Word :=
  match i with
  | .iaddB3 x => encodeB3 0x0 x
  | .isubB3 x => encodeB3 0x1 x
  | .imulB3 x => encodeB3 0x2 x
  | .iminB3 x => encodeB3 0x3 x
  | .imaxB3 x => encodeB3 0x4 x
  | .andB3 x => encodeB3 0x5 x
  | .orB3 x => encodeB3 0x6 x
  | .xorB3 x => encodeB3 0x7 x
  | .shlB3 x => encodeB3 0x8 x
  | .shrB3 x => encodeB3 0x9 x
  | .sarB3 x => encodeB3 0xa x
  | .movB3 x => encodeB3 0xb x
  | .faddB3 x => encodeB3 0xc x
  | .fsubB3 x => encodeB3 0xd x
  | .fmulB3 x => encodeB3 0xe x
  | .fminB3 x => encodeB3 0xf x
  | .fmaxB3 x => encodeB3 0x10 x
  | .ffmaB3 x => encodeB3 0x11 x
  | .iaddBI x => encodeBI 0x20 x
  | .andBI x => encodeBI 0x21 x
  | .orBI x => encodeBI 0x22 x
  | .xorBI x => encodeBI 0x23 x
  | .shlBI x => encodeBI 0x24 x
  | .shrBI x => encodeBI 0x25 x
  | .sarBI x => encodeBI 0x26 x
  | .ldB32 x => encodeBI 0x30 x
  | .ldB64 x => encodeBI 0x31 x
  | .stB32 x => encodeBI 0x32 x
  | .stB64 x => encodeBI 0x33 x
  | .ldsB32 x => encodeBI 0x34 x
  | .stsB32 x => encodeBI 0x35 x
  | .ldsB64 x => encodeBI 0x36 x
  | .stsB64 x => encodeBI 0x37 x
  | .moviB x => withPfx x.pfx (Sys2Proof.pack [(16, x.imm.toNat), (7, x.d.toNat), (7, 0x27), (2, 0)])
  | .braBB m n o => [BitVec.ofNat 32 (Sys2Proof.pack [(18, o.toNat), (1, ofBool n), (4, m.toNat), (7, 0x3c), (2, 0)])]
  | .callBB g o => [BitVec.ofNat 32 (Sys2Proof.pack [(18, o.toNat), (5, g.toNat), (7, 0x3d), (2, 0)])]
  | .waitB l s c t =>
    [BitVec.ofNat 32 (Sys2Proof.pack [(3, 0), (4, t.toNat), (4, c.toNat), (6, s.toNat), (6, l.toNat), (7, 0x3e), (2, 0)])]
  | .nopB => [0x1f800000]
  | .encCreate d s => [encodeEnc 0 0 s d]
  | .encAddpg d s t => [encodeEnc 1 t s d]
  | .encEnter d s t => [encodeEnc 2 t s d]
  | .encExit => [encodeEnc 3 0 0 0]
  | .encSeal d s t => [encodeEnc 4 t s d]
  | .encUnseal d s t => [encodeEnc 5 t s d]
  | .encDestroy d s => [encodeEnc 6 0 s d]
  | _ =>
    match rawOf i with
    | some r => encodeExt r
    | none => []

/-- The little-endian bytes of words (R3). -/
def wordBytes (ws : List Word) : List Byte :=
  ws.flatMap fun w => [w.extractLsb' 0 8, w.extractLsb' 8 8, w.extractLsb' 16 8, w.extractLsb' 24 8]

/-- The words of a number whose bit 0 is bit 0 of the first word. -/
def wordsOf (w : Nat) : List Word := (List.range 5).map fun k => BitVec.ofNat 32 (w / 2 ^ (32 * k))

/-- The instruction of a table word: a Vebalyn instruction, or an enclave word of a sill core (R122). -/
def decodeTableWord (_nbits w : Nat) : Option Instr :=
  match decode (wordsOf w) with
  | .ok i => some i
  | .error _ => decodeEnc (BitVec.ofNat 32 w)

end Sys2Proof
end

