-- ==== Sys2Proof/Config.lean ====
section
/-! DEFINITION. What an implementation fixes and the spec does not state: free values with no body (log entries 2, 7,
8), and the package's fixed dimensions (R2). -/

namespace Sys2Proof.Config

/-- The n-th free choice between two orders or times the spec leaves open (log entry 2). -/
opaque choose : Nat → Bool
/-- The n-th free number, reduced by its user to the range it needs (log entry 2). -/
opaque pick : Nat → Nat
/-- Set index of a line in its L2 slice: R195 gives 64 sets and no map (log entry 2). -/
opaque l2Set : Nat → Nat
/-- Set index of a line in a core's L1: R189 gives 128 sets and no map (log entry 2). -/
opaque l1Set : Nat → Nat
/-- The way a fill replaces, by the counter of free values and the line: R189 gives no policy (log entry 2). -/
opaque l1Victim : Nat → Nat → Nat
/-- Set index of a line in its memory-side cache slice, and the way a line takes there, by the counter of free values: R198 gives
neither (log entry 2). -/
opaque msSet : Nat → Nat
opaque msWay : Nat → Nat → Nat
/-- Set index of a page in a cluster's L2 TLB: R215 gives 8 ways and no map (log entry 2). -/
opaque tlbSet : Nat → Nat
/-- SM3 of a byte string (R300, R317): the spec names the function and does not define it (log entry 7). -/
opaque sm3 : List (BitVec 8) → BitVec 256
/-- SM2 signature by the key of a certificate slot (R318, R320; log entry 7). -/
opaque sm2Sign : Nat → List (BitVec 8) → BitVec 512
/-- SM2 decryption of a weight blob's content key (R310-R312), none when it fails (log entry 7). -/
opaque sm2Open : List (BitVec 8) → Option (BitVec 128)
/-- SM4-GCM opening: key, nonce, authenticated bytes, sealed bytes, tag (R291, R304, R311; log entry 7). -/
opaque gcmOpen : Nat → Nat → List (BitVec 8) → List (BitVec 8) → BitVec 128 → Option (List (BitVec 8))
/-- SM4-GCM sealing: key, nonce, authenticated bytes, plain bytes; the sealed bytes and the tag (log entry 7). -/
opaque gcmSeal : Nat → Nat → List (BitVec 8) → List (BitVec 8) → List (BitVec 8) × BitVec 128
/-- Key of a stream, from the secret of a session of two roots, or of a root and a device, and the two ends (R321, R322; log entry 7). -/
opaque streamKey : Nat → Nat → Nat → Nat
/-- IMGROOT with which an enclave of another package is reported: package and enclave (R320, R333; log entry 8). -/
opaque peerImgroot : Nat → Nat → BitVec 256
/-- Whether the high half of a 128-bit access is performed first, by the cycle and the bundle of its issue (R228; log entry 2). -/
opaque highFirst : Nat → Nat → Bool
/-- The n-th key of the root's random-bit generator (R301; log entry 7). -/
opaque randomKey : Nat → Nat
/-- Silicon stepping from fuses (R354; log entry 8). -/
opaque fuseStep : BitVec 8
/-- The boot firmware of measurement 3 (R319, R343; log entry 8). -/
opaque bootImage : List (BitVec 8)
/-- Measurements 1, 2 and 4 (R319; log entry 8). -/
opaque measurement : Nat → BitVec 256
/-- The certificate chain of an SPDM slot (R310, R319; log entry 8). -/
opaque certificate : Nat → List (BitVec 8)
/-- Whether the strap of port 0 has it train as CXL (R352; log entry 8). -/
opaque cxlPort : Bool
/-- Whether the strap of a PCIe port makes it an endpoint (R352; log entry 8). -/
opaque pcieEndpoint : Nat → Bool
/-- mvendorid, marchid and mimpid of the sill cores, whose values the spec does not give (log entry 8). -/
opaque hartIdent : Nat → BitVec 64
/-- Whether the code of a line takes more than four erroneous symbols, by place and difference, for four or fewer: R286 does not give the
code's polynomial (log entry 20). -/
opaque miscorrects : List (Nat × BitVec 8) → Bool
/-- Cycles within which what the spec says comes in finite time does come: R264 gives no bound (log entry 2). -/
opaque patience : Nat
/-- Outcome the spec calls unspecified, as a value (R10; log entry 2). -/
opaque unspecified : Nat → Nat

/-! ### Fixed dimensions (R2, R18, R26, R195, R197, R200, R217) -/

def clusters : Nat := 40
def cores : Nat := 640
def slices : Nat := 768
def columns : Nat := 160
def hbmBytes : Nat := 2 ^ 39
def frames : Nat := 8388608
def lineBytes : Nat := 128
def monitorEntries : Nat := 256
def scopeEntries : Nat := 4096
def engineCommands : Nat := 256
def mergeSegments : Nat := 256
def tenonQueue : Nat := 64
def routineCache : Nat := 16
def feedWords : Nat := 1024
def commandQueue : Nat := 8
def freeStack : Nat := 65536
def ringEntries : Nat := 256
def saveEntries : Nat := 65536
def l1Tlb : Nat := 128
def l2TlbWays : Nat := 8
def l2TlbSets : Nat := 512
def walkCache : Nat := 256
def msSets : Nat := 4096
def icacheBytes : Nat := 65536

end Sys2Proof.Config
end

