-- ==== Sys2Proof/Machine/State.lean ====
section
/-! DEFINITION. The state of the package as plain data, the reasons a step can stop, and the state after reset. Every
structure names the rule that gives its fields. -/

namespace Sys2Proof.Machine

/-- A sorted table: keys rise strictly; an absent key reads as its user's default. -/
abbrev Tab (α : Type) := List (Nat × α)

/-- Trap codes (R280). -/
inductive TrapCode where
  | illegalInsn | regRange | brAlign | retEmpty | rstackSpill | rstackFill
  | pageNotPresent | pageProt | potViolation | fmtStore | misalign | scopeMismatch | bentTicket | syscArgSpace
  | promiseMissed | tenonFault | tenonInvalid | handFault | matrixShape | teamopMismatch | freePageEmpty | fmtScale
  | fpInvalid | fpDivzero | fpOverflow | fpUnderflow | fpInexact | eccUncorr | macFail | soft
  deriving DecidableEq, Repr

/-- A fault kept for a later instruction, with its `tinfo` (R208, R275, R279). -/
structure Kept where
  code : TrapCode
  info : DWord
  deriving DecidableEq, Repr

/-- An entry of a result queue; an owed one has not arrived (R95, R100, R423). -/
structure QEntry where
  value : Word
  flags : BitVec 5
  arrived : Bool
  deriving DecidableEq, Repr

/-- An arrival at a team operation: the instruction, its member mask, the sources read at arrival and the cycle of it
(R50, R477). -/
structure Arrival where
  insn : Instr
  mask : DWord
  val : DWord
  b : Word
  pred : Bool
  since : Nat
  deriving DecidableEq, Repr

/-- A watched location of a WAITC (R491, R492). `full` says that a full monitor table refused it, so that it re-checks (R66). -/
structure Watch where
  ea : DWord
  pa : Nat
  ty : Ty
  c : Cond
  b : DWord
  o : Ord
  sc : Scope
  dest : Reg
  insn : Instr
  since : Nat
  full : Bool
  deriving DecidableEq, Repr

/-- Thread states (R90), with the condition a parked thread waits for. -/
inductive Status where
  | running
  | held
  | bar (idx : Nat)
  | tbar (l : Level)
  | waitc (w : Watch)
  | sleep (target : Nat)
  | cbwait (batch : Word) (i : Instr)
  | joinh (i : Instr)
  | team (a : Arrival)
  | stopped (point : Option Nat)
  | debugStop
  | exited
  deriving DecidableEq, Repr

/-- A load on its way: the registers it will write, by field (R210, R211). -/
structure LoadOut where
  writes : List (Nat × Word)
  deriving DecidableEq, Repr

/-- A sealed copy batch: its number, promise and armed check (R207, R208, R387). -/
structure Batch where
  num : Word
  promise : DWord
  sealed : DWord
  armed : Bool
  deriving DecidableEq, Repr

/-- A SYSC between its release and its completion: released, with what it will post once its ring has room; posted; or taken by
its service (R350). -/
inductive SyscState where
  | released (i : Instr) (vb : Word) (args : List (DWord × Nat × Bool))
  | posted (i : Instr)
  | taken (i : Instr)
  deriving DecidableEq, Repr

/-- A buffered store of an iteration (R58, R428), and whether it releases before its write (R232, R483). -/
structure BufEntry where
  scratch : Bool
  addr : Nat
  data : List Byte
  sc : Scope
  rel : Bool
  deriving DecidableEq, Repr

/-- A page a translation leads to: its virtual and physical base, size and format attribute (R213, R214). -/
structure Page where
  va : Nat
  pa : Nat
  size : Nat
  fmt : Nat
  deriving DecidableEq, Repr

/-- Where a 128-bit access acts: a load, a store to global memory at the site of a scope, or one to a block's scratchpad. -/
inductive HalfAt where
  | load
  | global (sc : Scope)
  | scratch (block : Nat)
  deriving DecidableEq, Repr

/-- A 128-bit access of which one half has been performed (R228): its instruction, the half performed first, where it acts, the page of
its checked translation, its address and rank, the bytes a load's half has read or all that a store writes, the issue it belongs to
and its place there, and whether a later store of that issue has had the other half performed ahead of its own (R482). -/
structure Half where
  insn : Instr
  no : Nat
  at' : HalfAt
  page : Page
  ea : Nat
  rank : Nat
  data : List Byte
  issue : Nat × Nat
  seq : Nat
  made : Bool
  deriving DecidableEq, Repr

/-- What hand mode gives each hand, hand 0 included (R58), and, of any context, a 128-bit access under way (R228). -/
structure HandCtx where
  no : Nat
  h : Tab Word
  iter : Option Nat
  buf : List BufEntry
  gather : BitVec 5
  phase : Word
  half : Option Half
  deriving DecidableEq, Repr

/-- A hand other than hand 0 (R57, R58, R424). -/
structure Hand where
  ctx : HandCtx
  pc : DWord
  queues : Tab (List QEntry)
  loads : List LoadOut
  slice : Nat
  lane : Nat
  slot : Nat
  age : Nat
  deriving DecidableEq, Repr

/-- A raise record (R57). -/
structure RaiseRec where
  n : Nat
  red : Option Nat
  list : Nat
  entry : DWord
  pool : List Nat
  committed : List Nat
  unfinished : List Nat
  faulted : List (Nat × Kept × DWord)
  hands : List Hand
  deriving DecidableEq, Repr

/-- A thread: the state of R37 with its place (R39, R40), its trap state (R276, R277) and its outstanding operations.
A matrix thread has `control` set and holds the shape records of R165; `mxtrap` is
the trap it meets at an unusable entry (R160). `late` lists the ranges of global memory that stores not yet accepted write (R210). -/
structure Thread where
  control : Bool
  bent : Nat
  block : Nat
  fields : List Nat
  slice : Nat
  lane : Nat
  slot : Nat
  n : Nat
  pc : DWord
  meet : Option DWord
  stack : List DWord
  spill : Word
  regs : Tab Word
  masks : BitVec 16
  queues : Tab (List QEntry)
  trapBank : Bool
  guards : Tab Bool
  fpsr : BitVec 5
  fpen : BitVec 5
  seed : Word
  loads : List LoadOut
  stores : Nat
  late : List (Nat × Nat)
  tl : Nat
  batchCount : Word
  batches : List Batch
  trapActive : Bool
  tcause : Word
  tpc : DWord
  tinfo : DWord
  tmask : DWord
  tdst : Word
  tlen : Nat
  status : Status
  age : Nat
  phaseStart : Word
  fetched : Tab Word
  mxtrap : Option Kept
  kept : Option Kept
  keptSeq : Nat
  tnx : Option Instr
  sysc : Option SyscState
  handMode : Bool
  hctx : HandCtx
  raise : Option RaiseRec
  recs : Tab (BitVec 128)
  deriving DecidableEq, Repr

/-- What a copy command does (R201, R204, R205). -/
inductive CopyWhat where
  | cpy (kind : CpyKind) (mask : Option DWord)
  | gather (size : Nat) (list : Nat)
  deriving DecidableEq, Repr

/-- Progress of a copy command (R200, R206). -/
inductive CopyState where
  | waiting | begun | done
  deriving DecidableEq, Repr

/-- A command of a core's copy engine (R200-R209); `moved` counts the bytes a begun one has moved, and `frames` lists those whose
translations it has used for them (R216). -/
structure CopyCmd where
  thread : Nat
  core : Nat
  what : CopyWhat
  dst : DWord
  src : DWord
  len : Nat
  guard : Option Nat
  batch : Option Word
  state : CopyState
  moved : Nat
  frames : List Nat
  fault : Option Kept
  delivered : Bool
  deriving DecidableEq, Repr

/-- A launch header (R69). -/
structure Header where
  entry : DWord
  handler : DWord
  widths : List Nat
  part : Nat
  fused : Bool
  paired : Bool
  coop : Bool
  extents : List Nat
  regs : Nat
  hands : Nat
  scratch : Nat
  livemap : Nat
  livecnt : Nat
  ctxt : DWord
  seed : Word
  grace : Word
  waita : DWord
  vala : DWord
  waitb : DWord
  valb : DWord
  signal : DWord
  priv : Nat
  privsz : Nat
  deriving DecidableEq, Repr

/-- An accepted launch (R72-R74). -/
structure Launch where
  enclave : Nat
  queue : Nat
  hdr : Header
  next : Nat
  ended : Nat
  halted : Bool
  deriving DecidableEq, Repr

/-- A partial segment on its way to a home or held there (R172, R175), with the addresses of its line and descriptor. `refused`
says that its home has no room for it, which stalls the quarter that sent it. -/
structure Segment where
  line : Nat
  desc : Nat
  ord : Bool
  chunk : Nat
  pair : Bool
  data : List Word
  quarter : Nat
  ticket : Nat
  op : Nat
  held : Bool
  refused : Bool
  va : Nat
  descVa : Nat
  deriving DecidableEq, Repr

/-- A tile of B held by a bank (R165, R169). -/
structure BTile where
  k : Nat
  n : Nat
  data : Tab (BitVec 16)
  deriving DecidableEq, Repr

/-- The kind of a queued matrix operation (R167). -/
inductive MatKind where
  | fill | rows | zero
  deriving DecidableEq, Repr

/-- A queued matrix operation with what it captured at issue (R167-R173, R445). -/
structure MatOp where
  kind : MatKind
  seq : Nat
  a : BitVec 128
  c : BitVec 128
  row : Nat
  left : Nat
  feed : Bool
  ord : Bool
  pair : Bool
  chunk : Nat
  rank : Nat
  desc : Nat
  pages : List Page
  loaded : Option BTile
  deriving DecidableEq, Repr

/-- A feed push under way to its quarter: its word, its thread, the thread as the pushing instruction found it, and the address after that
instruction (R171, R183). -/
structure Push where
  thread : Nat
  word : Word
  was : Thread
  next : DWord
  deriving DecidableEq, Repr

/-- A matrix quarter (R158-R184). `active` is the MLDB whose tile the active bank holds; `dead` says that the last MLDB
issued has failed (R179). -/
structure Quarter where
  bound : Option Nat
  active : Option MatOp
  ops : List MatOp
  issued : Option (Nat × Nat)
  feed : List Word
  pushes : List Push
  order : Bool
  pairFailed : Bool
  errs : List DWord
  more : Nat
  deferred : Option Kept
  dead : Bool
  accepted : Nat
  deriving DecidableEq, Repr

/-- The place of a quad: its slice and context slot, and its run in the slice's bank; a run in the companion's bank for
n above 512 (R20, R78). -/
structure Quad where
  slice : Nat
  slot : Nat
  base : Nat
  size : Nat
  cbase : Nat
  csize : Nat
  deriving DecidableEq, Repr

/-- A block of a resident bent (R41, R78). -/
structure Block where
  core : Nat
  bay : Nat
  quads : List Quad
  banks : List Nat
  scratch : List Host.Cell
  ended : Bool
  deriving DecidableEq, Repr

/-- Bent states after placement (R92). -/
inductive BentState where
  | running | draining
  deriving DecidableEq, Repr

/-- A placed bent (R42, R83). `asked` is a system-software request that waits for room (R290); `full` says that the full save has
begun (R86); `restore` is the quarter state a resumed bent brings (R184); `stamp` is
its place in the dispatch order (R83, R159); `pairCut` says that its pair failed before its quarter was bound (R182); `room` is the place and
the size kept for its record from the request on (R290). -/
structure Bent where
  launch : Nat
  order : Nat
  upper : List Nat
  cluster : Nat
  c0 : Nat
  blocks : Tab Block
  state : BentState
  request : Option Nat
  asked : Bool
  full : Bool
  placement : Nat
  control : Option Nat
  restore : Option (Quarter × List Segment)
  stamp : Nat
  pairCut : Bool
  room : Option (Nat × Nat)
  deriving DecidableEq, Repr

/-- A kick queue: KQCFG, KQDOOR and the dispatcher's ageing (R67, R68, R75). -/
structure KickQueue where
  ring : Nat
  logd : Nat
  prio : Nat
  en : Bool
  lasterr : Nat
  nref : Nat
  head : Nat
  tail : Nat
  bonus : Nat
  readySince : Option Nat
  cur : Option Nat
  deriving DecidableEq, Repr

/-- The error queue of an enclave: EQCFG, EQDOOR and the record number (R288, R289). -/
structure ErrQueue where
  ring : Nat
  logd : Nat
  en : Bool
  lost : Nat
  tail : Nat
  head : Nat
  seq : Nat
  deriving DecidableEq, Repr

/-- A line of an L1 or fused cache: its tag of physical address and key slot, its four sectors' bytes, which sectors are filled,
the bytes that each core's stores have dirtied, and its mark (R189, R190, R192, R231). A dirty byte is dirty in one bay's copy
alone. -/
structure L1Line where
  cache : Nat
  bay : Nat
  line : Nat
  key : Nat
  data : BitVec 1024
  filled : BitVec 4
  dirty : Tab (BitVec 128)
  mark : Option Word
  deriving DecidableEq, Repr

/-- A line kept for read stability, with the sectors it holds (R193). -/
structure Retained where
  cache : Nat
  bay : Nat
  line : Nat
  key : Nat
  data : BitVec 1024
  valid : BitVec 4
  mark : Word
  page : Option Nat
  deriving DecidableEq, Repr

/-- Form of a line in an L2 slice: whole, or one of the encodings of R196. -/
inductive LineEnc where
  | whole | zero | base32 | base64
  deriving DecidableEq, Repr

/-- A line held in an L2 slice: its tag with key slot, filler and encoding (R189, R195, R196, R331). The list's order is
recency, newest first. Its bytes are those of `State.mem`. -/
structure L2Line where
  slice : Nat
  line : Nat
  key : Nat
  way : Nat
  filler : Nat
  enc : LineEnc
  dirty : Bool
  deriving DecidableEq, Repr

/-- A sealed line held in a memory-side cache slice, with the content it stands for (R198, R199). -/
structure MsLine where
  slice : Nat
  line : Nat
  way : Nat
  dirty : Bool
  data : BitVec 1024
  deriving DecidableEq, Repr

/-- Side-band of a line: update counter, merge tag, and the code it was poisoned with, 0 for none (R141, R173, R287); and what has befallen its
sealed form in DRAM since it was written: the symbols that differ, by place among its 146, and whether it was replaced by one whose MAC
does not match (R286; log entry 20). -/
structure Side where
  upd : BitVec 8
  next : BitVec 8
  count : BitVec 8
  poison : Nat
  flips : Tab Byte
  forged : Bool
  deriving DecidableEq, Repr

/-- Side-band of a line as a zero-fill leaves it (R219). -/
def Side.clean : Side := { upd := 0, next := 0, count := 0, poison := 0, flips := [], forged := false }

/-- What a read of a line from a DRAM array finds (R286). -/
inductive Finding where
  | clean | corrected | uncorrectable | macDiffers
  deriving DecidableEq, Repr

/-- The unit recorded by the scope checker (R244). -/
inductive UnitId where
  | core (n : Nat)
  | control (q : Nat)
  | sill (h : Nat)
  | io
  deriving DecidableEq, Repr

/-- A sector held in a core's instruction cache (R223). -/
structure ICell where
  core : Nat
  addr : Nat
  data : BitVec 256
  deriving DecidableEq, Repr

/-- An entry of a scope checker (R244). -/
structure ScopeEntry where
  line : Nat
  enclave : Nat
  scope : Scope
  unit : UnitId
  ticket : Nat
  placement : BitVec 8
  deriving DecidableEq, Repr

/-- A page ownership entry (R217). -/
structure Pot where
  owner : Nat
  slot : Nat
  type : Nat
  rstr : Bool
  deriving DecidableEq, Repr

/-- A cached translation of a core, or of a cluster's L2 TLB: its tags of enclave, page size and ownership, and the leaf (R215). -/
structure TlbEntry where
  core : Nat
  enclave : Nat
  page : Nat
  big : Bool
  pot : Pot
  entry : DWord
  deriving DecidableEq, Repr

/-- A non-leaf entry in a cluster's walk cache: the level it was read at, the address bits that led to it, and the table it
names (R215). -/
structure WalkEntry where
  cluster : Nat
  enclave : Nat
  level : Nat
  pre : Nat
  pot : Pot
  next : Nat
  deriving DecidableEq, Repr

/-- A tenon request on its way to a slice, or queued there (R259-R264): with the unit and placement it was issued from (R244), and the
bundle issue it belongs to. -/
structure TenonReq where
  slice : Nat
  thread : Nat
  lineVa : DWord
  linePa : Nat
  slotVa : DWord
  slotPa : Nat
  slot : Nat
  args : List Word
  enclave : Nat
  ticket : Nat
  ctxt : DWord
  gen : Word
  post : Bool
  sync : Bool
  sc : Scope
  part : Nat
  core : Nat
  unit : UnitId
  placement : BitVec 8
  seq : Nat
  issued : Nat
  bundle : Nat
  queued : Bool
  deriving DecidableEq, Repr

/-- A tenon's answer on its way to its thread (R259, R275). -/
structure TenonAns where
  thread : Nat
  post : Bool
  words : List Word
  fault : Option Kept
  seq : Nat
  deriving DecidableEq, Repr

/-- A routine held by a slice, with its first bad op if it is invalid (R271). -/
structure Routine where
  slice : Nat
  enclave : Nat
  slotPa : Nat
  gen : Word
  ops : List Word
  bad : Option Nat
  deriving DecidableEq, Repr

/-- Generation of a context (R271, R272). -/
structure Context where
  enclave : Nat
  ctxt : DWord
  gen : Word
  deriving DecidableEq, Repr

/-- An entry of the slice fault log (R510). -/
structure FaultRec where
  paddr : Nat
  code : Nat
  enclave : Nat
  ticket : Nat
  slot : Nat
  seq : Nat
  deriving DecidableEq, Repr

/-- Registers and log of an L2 slice (R199, R330, R344, R510); `fixed` counts its corrected errors (R286). -/
structure SliceRegs where
  fill : Tab (BitVec 16)
  comp : Tab Bool
  gate : BitVec 16
  log : Tab FaultRec
  logN : Nat
  served : Nat
  fixed : Nat
  deriving DecidableEq, Repr

/-- A bundle of contexts at one PC (R46, R79). -/
structure Bundle where
  pc : DWord
  members : List Who
  last : Nat
  deriving DecidableEq, Repr

/-- Issue state of a bay (R79-R81, R357). `hold` is one more than the number of the last power window in which the controller
held the bay, 0 for none (R30). -/
structure Bay where
  bundles : List Bundle
  forced : List Who
  issued : Nat
  hold : Nat
  deriving DecidableEq, Repr

/-- Registers and power state of a cluster (R30, R31, R194, R345). -/
structure Cluster where
  budget : Nat
  inForce : Nat
  credit : Int
  fused : Bool
  qsvc : BitVec 4
  csvc : BitVec 16
  deriving DecidableEq, Repr

/-- A SYSC request at a service ring (R346, R350); `sent` says that the bytes it moves out of the package have passed their
governor (R314). -/
structure SyscReq where
  die : Nat
  io : Nat
  thread : Nat
  svc : Nat
  vb : Word
  args : List (DWord × Nat × Bool)
  taken : Bool
  sent : Bool
  deriving DecidableEq, Repr

/-- A sealed save record (R291): what it holds, for a mapped save the register ranges of each thread's live-map entry (first, count, class),
and the bytes that the root wrote for it, at an address of its save region. -/
structure SaveRec where
  enclave : Nat
  ticket : Nat
  counter : Nat
  full : Bool
  size : Nat
  bent : Bent
  threads : Tab Thread
  ranges : Tab (List (Nat × Nat × Nat))
  cmds : Tab CopyCmd
  quarter : Option Quarter
  segs : List Segment
  place : Nat
  image : List (BitVec 8)
  deriving DecidableEq, Repr

/-- What a migration sends on its stream: a line with its address, the pages mapped (true) and freed in a round, and at the end the save
records with their launches and queues, the number of free frames, and the restricted pages that are not sent (R335, R336). -/
inductive MigItem where
  | line (va : Nat) (data : List Byte)
  | pages (changes : List (Bool × Nat))
  | records (rs : List SaveRec) (launches : Tab Launch) (queues : Tab KickQueue) (free : Nat) (restricted : List Nat)
  deriving DecidableEq, Repr

/-- MIGCTL of an enclave, and the round under way (R333-R336): its stage (0 not begun, 1 visiting lines, 2 its list sent, 3 the records
sent), the address of the next line, the item whose bytes have not all left, and the pages mapped (true) and freed since the last list,
in order. -/
structure MigCtl where
  dirty : Nat
  round : Nat
  busy : Bool
  final : Bool
  en : Bool
  stage : Nat
  cursor : Nat
  out : Option MigItem
  changes : List (Bool × Nat)
  deriving DecidableEq, Repr

/-- An enclave (R294-R302, R312, R337). `awaiting` lists the restricted pages that it was moved without;
`awaitAll` says that all its bents wait for them, after a restore, and not those alone whose launches name them (R336, R339). -/
structure Enclave where
  kickVa : Nat
  root : Nat
  partmask : BitVec 256
  debug : Bool
  pways : List Nat
  imgroot : BitVec 256
  slot : Option Nat
  wrapped : Option Nat
  stack : List Nat
  kq : Tab KickQueue
  eq : ErrQueue
  svcfg : DWord
  saveCounter : Nat
  blobs : List (BitVec 256)
  cap : Option Nat
  mig : MigCtl
  awaiting : List Nat
  awaitAll : Bool
  ckpt : Option (Nat × Nat)
  deriving DecidableEq, Repr

/-- A checkpoint image of an enclave on the file store: its pages by frame, the entries of its page tables (level, address, entry),
its save records and its queues; and the sealed bytes that stand for them, with their tag (R337, R338). -/
structure Image where
  enclave : Nat
  epoch : Nat
  pages : List (Nat × List Host.Cell)
  tables : List (Nat × Nat × Nat)
  saves : List SaveRec
  launches : Tab Launch
  queues : Tab KickQueue
  sealed : List (BitVec 8)
  tag : BitVec 128
  deriving DecidableEq, Repr

/-- A record of the access log (R317). -/
structure LogRec where
  seq : Nat
  kind : Nat
  enclave : Nat
  actor : Nat
  prev : BitVec 256
  body : List Byte
  deriving DecidableEq, Repr

/-- An egress register with its window's remaining budget (R315, R316). -/
structure Egress where
  budget : Nat
  win : Nat
  stalls : Nat
  remaining : Nat
  bytes : Nat
  stalled : Bool
  waiting : List Nat
  next : Option (Nat × Nat)
  deriving DecidableEq, Repr

/-- A trace record that has passed the trace fabric: its world id and what it says (R324). -/
structure TraceRec where
  world : Nat
  content : Word
  deriving DecidableEq, Repr

/-- A Dreush stream, the port that carries it, its SM4-GCM key, the IMGROOT that the peer's enclave was reported with, the numbers of
frames sent and received on it, and its frames of data as they left: the address at the peer, the sealed bytes and the tag (R17, R307, R321,
R333, R351). -/
structure Stream where
  port : Nat
  enclave : Nat
  peer : Nat
  peerEnclave : Nat
  peerImg : BitVec 256
  key : Nat
  sent : Nat
  got : Nat
  failures : Nat
  frames : List (Nat × List (BitVec 8) × BitVec 128) := []
  deriving DecidableEq, Repr

/-- A frame of a migration as it left on its stream: what it says, and its sealed bytes and tag (R307, R335). -/
structure SentItem where
  stream : Nat
  item : MigItem
  sealed : List (BitVec 8)
  tag : BitVec 128
  deriving DecidableEq, Repr

/-- Privilege modes of a hart (R340). -/
inductive HMode where
  | m | hs | s | vs | vu | u
  deriving DecidableEq, Repr

/-- Registers a hart keeps outside enclave mode (R399). -/
structure Outside where
  pc : DWord
  mode : HMode
  x : Tab DWord
  f : Tab DWord
  fcsr : Word
  rd : BitVec 5
  save : DWord
  deriving DecidableEq, Repr

/-- A sill-core hart (R306, R340-R343, R399). `prev` holds MPP and MPV of mstatus as a mode, `epc`, `cause`, `tval` and `tvec` the trap
registers of M mode, `mtip` the timer interrupt, `msi` and `msiM` the identities pending in its S-level and M-level interrupt files; `csr` holds every other CSR by number.
`len` is the length in bytes of the instruction at hand (log entries 9, 14). -/
structure Hart where
  pc : DWord
  mode : HMode
  prev : HMode
  csr : Tab DWord
  x : Tab DWord
  f : Tab DWord
  fcsr : Word
  enclave : Option Nat
  outside : Option Outside
  len : Nat
  epc : DWord
  cause : DWord
  tval : DWord
  tvec : DWord
  mtimecmp : DWord
  mtip : Bool
  msi : List Nat
  msiM : List Nat
  deriving DecidableEq, Repr

/-- The reservation of a hart's last LR: its line, and the address and size that the SC must name; it goes when the line is written at
its home (R340; log entry 9). -/
structure Reservation where
  hart : Nat
  line : Nat
  addr : Nat
  size : Nat
  deriving DecidableEq, Repr

/-- Thermal status of a die (R358). -/
structure Tstat where
  temp : Nat
  throt : Bool
  trip : Bool
  deriving DecidableEq, Repr

/-- The IDE stream of a device interface: its SM4-GCM key, and the frames the interface and the port have sent on it (R307, R322). -/
structure Ide where
  key : Nat
  got : Nat
  sent : Nat
  deriving DecidableEq, Repr

/-- The SPDM responder, and the root as a requester: the enclave whose report the open session has given, how far the mutual
authentication of a session has come (0 not asked for, 1 asked for, 2 the peer's chain is wanted, 3 done), the requests that the root itself
has sent, the secrets of its own sessions with the roots of other packages, and the IDE streams of device interfaces (R319-R322,
R337). -/
structure Spdm where
  report : Option Nat
  peerAuth : Nat
  asked : List Nat
  peers : Tab Nat
  ide : Tab Ide
  version : Bool
  caps : Bool
  algs : Bool
  session : Nat
  replies : List (Nat × List Byte)
  deriving DecidableEq, Repr

/-- Package-wide management state (R354-R358, R511). `writing` says that a checkpoint's images are leaving the package (R314, R337);
`answers` holds what the ports were answered, with none for an error reply (R354). -/
structure Mgmt where
  state : Nat
  lastrst : Nat
  resetKind : Nat
  semOwner : Nat
  semLast : Nat
  pkid : Nat
  plumb : Nat
  unacked : List SnapUnit
  triggers : Nat
  dropped : Nat
  fired : Nat
  ckpt : Bool
  semTick : Option Nat
  pkgSnap : Nat
  snaps : Tab (Nat × Nat)
  counts : Tab Nat
  writing : Bool
  answers : List (Nat × Option Nat)
  deriving DecidableEq, Repr

/-- A dirty map of a tracked page, one bit a line (R334). -/
structure DirtyPage where
  enclave : Nat
  frame : Nat
  map : BitVec 512
  deriving DecidableEq, Repr

/-- The Thoxiby root's own state (R292, R301, R304, R317, R318). -/
structure Root where
  keys : Tab Nat
  drawn : Nat
  versions : List (Nat × Nat × Nat)
  saves : List (Nat × Nat)
  held : List Nat
  log : List LogRec
  seq : Nat
  head : BitVec 256
  epoch : Nat
  deriving DecidableEq, Repr

/-- Registers and power state of a cluster at reset (R31, R194, R345). -/
def Cluster.reset : Cluster := { budget := 0x16, inForce := 0x16, credit := 64 * 1024 * 0x16, fused := false, qsvc := 0xF, csvc := 0xFFFF }

/-- The whole package. -/
structure State where
  -- the model's own: what acts next, the events that wait, and counters of free values and names (log entries 1, 2)
  pending : List Instr
  waits : List Instr
  issue : List (List Who)
  cur : Option Who
  turn : List (Nat × DWord)
  draws : Nat
  launchSeq : Nat
  threadSeq : Nat
  cmdSeq : Nat
  -- time and memory
  time : Nat
  lag : Tab Nat
  mem : List Host.Cell
  cxl : List Host.Cell
  side : Tab Side
  pot : Tab Pot
  tlb : List TlbEntry
  tlb2 : List TlbEntry
  walks : List WalkEntry
  l1 : List L1Line
  icache : List ICell
  retained : List Retained
  phases : Tab Word
  l2 : List L2Line
  ms : List MsLine
  hbm : Tab (BitVec 1024)
  reservations : List Reservation
  monitors : List (Nat × Nat)
  scopes : List ScopeEntry
  dirtyMaps : List DirtyPage
  -- work
  launches : Tab Launch
  bents : Tab Bent
  threads : Tab Thread
  bays : Tab Bay
  tickets : Nat
  lastServed : List (Nat × Nat × Nat)
  lastPlaced : Nat
  placings : Nat
  cmds : Tab CopyCmd
  engineLast : Tab Nat
  tenons : List TenonReq
  answers : List TenonAns
  routines : List Routine
  contexts : List Context
  quarters : Tab Quarter
  segments : List Segment
  cancelled : List Nat
  requests : List SyscReq
  saved : List SaveRec
  rejected : List (Nat × Nat × Nat)
  images : List Image
  migrated : List SentItem
  trace : List TraceRec
  -- registers
  clusters : Tab Cluster
  colown : Tab Nat
  pcfg : Tab (Nat × Bool)
  sliceRegs : Tab SliceRegs
  msGate : Tab (BitVec 16)
  egress : Tab Egress
  tstat : Tab Tstat
  irq : Tab (Nat × Nat)
  mailbox : List Host.Cell
  mgmt : Mgmt
  -- trust
  enclaves : Tab Enclave
  root : Root
  spdm : Spdm
  streams : Tab Stream
  tdisp : Tab (Nat × Tdisp)
  -- sill cores
  harts : Tab Hart
  deriving DecidableEq, Repr

/-- Why the machine stops with a fault. -/
inductive Fault where
  /-- Raised by an instruction's meaning when no live context executes it (`State.cur` names none). Safe: no run
  reaches it, because a step executes an instruction only for a context it has found. -/
  | noContext
  deriving DecidableEq, Repr

/-- Why the machine has no meaning for what it is asked to run. -/
inductive Refusal where
  /-- Raised by an arm of `exec` that has no meaning yet. Safe. -/
  | notModelled (mnemonic : String)
  deriving DecidableEq, Repr

/-- A thread's hand state outside hand mode. -/
def HandCtx.none : HandCtx := { no := 0, h := [], iter := .none, buf := [], gather := 0, phase := 0, half := .none }

/-- `tdst` with NONE = 1 (R277). -/
def tdstNone : Word := 0x403FF

/-- MGSTAT and its companions right after power-on: STATE is ROOTBOOT (R354, R356). -/
def Mgmt.reset : Mgmt :=
  { state := 0, lastrst := 0, resetKind := 0, semOwner := 0, semLast := 0, pkid := 0, plumb := 0, unacked := [],
    triggers := 0, dropped := 0, fired := 0, ckpt := false, semTick := none, pkgSnap := 0, snaps := [], counts := [], writing := false, answers := [] }

/-- The root before any record: no key drawn, the log at its start (log entry 5). -/
def Root.reset : Root :=
  { keys := [], drawn := 0, versions := [], saves := [], held := [], log := [], seq := 0, head := 0, epoch := 0 }

/-- The package right after cold reset: every register at the value of its map, nothing resident, every counter zero
(R6, R29, R325, R356; the values the spec does not give are those of log entries 1 to 6). -/
def State.reset : State :=
  { pending := [], waits := [], issue := [], cur := none, turn := [], draws := 0, launchSeq := 0, threadSeq := 0, cmdSeq := 0,
    time := 0, lag := [], mem := [], cxl := [], side := [], pot := [], tlb := [], tlb2 := [], walks := [], l1 := [], icache := [], retained := [], phases := [],
    l2 := [], ms := [], hbm := [], reservations := [],
    monitors := [], scopes := [], dirtyMaps := [],
    launches := [], bents := [], threads := [], bays := [], tickets := 0, lastServed := [], lastPlaced := 0, placings := 0, cmds := [], engineLast := [],
    tenons := [], answers := [], routines := [], contexts := [], quarters := [], segments := [], cancelled := [], requests := [],
    saved := [], rejected := [], images := [], migrated := [], trace := [],
    clusters := [], colown := [], pcfg := [], sliceRegs := [], msGate := [], egress := [], tstat := [], irq := [], mailbox := [],
    mgmt := Mgmt.reset,
    enclaves := [], root := Root.reset,
    spdm := { report := none, peerAuth := 0, asked := [], peers := [], ide := [], version := false, caps := false, algs := false, session := 0, replies := [] },
    streams := [], tdisp := [], harts := [] }

end Sys2Proof.Machine
end

