-- ==== Sys2Proof/Machine/Store.lean ====
section
/-! DEFINITION. Sparse tables and byte-addressed storage in one canonical form, and the byte order of wider accesses
(R3). -/

namespace Sys2Proof.Machine

/-- The value a table holds at a key. -/
def Tab.get? {α : Type} : Tab α → Nat → Option α
  | [], _ => none
  | (k', v) :: t, k => if k' = k then some v else Tab.get? t k

/-- The value at a key, or what an absent key reads as. -/
def Tab.getD {α : Type} (t : Tab α) (k : Nat) (d : α) : α := (Tab.get? t k).getD d

/-- The table with a key set. -/
def Tab.set {α : Type} : Tab α → Nat → α → Tab α
  | [], k, v => [(k, v)]
  | (k', v') :: t, k, v =>
    if k < k' then (k, v) :: (k', v') :: t else if k' = k then (k, v) :: t else (k', v') :: Tab.set t k v

/-- The table without a key. -/
def Tab.erase {α : Type} (t : Tab α) (k : Nat) : Tab α := t.filter fun e => e.1 != k

/-- The table with the value at a key, if any, changed. -/
def Tab.modify {α : Type} (t : Tab α) (k : Nat) (f : α → α) : Tab α :=
  t.map fun e => if e.1 = k then (e.1, f e.2) else e

/-- The table with the value at a key, or its default, changed. -/
def Tab.update {α : Type} (t : Tab α) (k : Nat) (d : α) (f : α → α) : Tab α := Tab.set t k (f (Tab.getD t k d))

def Tab.keys {α : Type} (t : Tab α) : List Nat := t.map (·.1)
def Tab.values {α : Type} (t : Tab α) : List α := t.map (·.2)

/-! ### Bytes -/

/-- Byte-addressed storage: addresses strictly rise and no listed byte is zero, what an unlisted byte reads as (log
entry 4). -/
abbrev Memory := List Host.Cell

/-- One byte; an unlisted one reads zero (log entry 4). -/
def Memory.read : Memory → Nat → Byte
  | [], _ => 0
  | (k, v) :: m, a => if k = a then v else Memory.read m a

/-- One byte written. -/
def Memory.write (m : Memory) (a : Nat) (b : Byte) : Memory :=
  if b = 0 then m.filter fun e => e.1 != a else Tab.set m a b

/-- Keys that rise strictly from a bound. -/
def Memory.sortedFrom : Nat → Memory → Bool
  | _, [] => true
  | n, (k, v) :: m => n ≤ k && v != 0 && Memory.sortedFrom (k + 1) m

/-- The canonical form. -/
def Memory.wf (m : Memory) : Bool := Memory.sortedFrom 0 m

/-- n bytes from an address upward. -/
def Memory.bytes (m : Memory) (a : Nat) : Nat → List Byte
  | 0 => []
  | n + 1 => Memory.read m a :: Memory.bytes m (a + 1) n

/-- Bytes written from an address upward. -/
def Memory.writeBytes (m : Memory) (a : Nat) : List Byte → Memory
  | [] => m
  | b :: bs => Memory.writeBytes (Memory.write m a b) (a + 1) bs

/-- Bytes as a little-endian number (R3). -/
def ofBytes : List Byte → Nat
  | [] => 0
  | b :: bs => b.toNat + 256 * ofBytes bs

/-- The n little-endian bytes of a number (R3). -/
def toBytes : Nat → Nat → List Byte
  | 0, _ => []
  | n + 1, x => BitVec.ofNat 8 x :: toBytes n (x / 256)

/-- An n-byte little-endian number in memory. -/
def Memory.num (m : Memory) (a n : Nat) : Nat := ofBytes (Memory.bytes m a n)

/-- n bytes set to zero. -/
def Memory.zero (m : Memory) (a n : Nat) : Memory := m.filter fun e => e.1 < a || a + n ≤ e.1

/-- The listed bytes of a range, with addresses counted from its start. -/
def Memory.range (m : Memory) (a n : Nat) : Memory :=
  (m.filter fun e => a ≤ e.1 && e.1 < a + n).map fun e => (e.1 - a, e.2)

/-- Replaces a range by listed bytes counted from its start. -/
def Memory.setRange (m : Memory) (a n : Nat) (r : Memory) : Memory :=
  r.foldl (fun m e => if e.1 < n then Memory.write m (a + e.1) e.2 else m) (Memory.zero m a n)

/-- The words of a byte list. -/
def wordsOfBytes : List Byte → List Word
  | a :: b :: c :: d :: r => BitVec.ofNat 32 (ofBytes [a, b, c, d]) :: wordsOfBytes r
  | _ => []

/-- `count` consecutive numbers from a start. -/
def upFrom (a : Nat) : Nat → List Nat
  | 0 => []
  | n + 1 => a :: upFrom (a + 1) n

/-- Values sorted by a key, stably. -/
def insertBy {α : Type} (key : α → Nat) (x : α) : List α → List α
  | [] => [x]
  | y :: ys => if key x < key y then x :: y :: ys else y :: insertBy key x ys

def sortBy {α : Type} (key : α → Nat) (l : List α) : List α := l.foldl (fun acc x => insertBy key x acc) []

/-- Lowest of some numbers. -/
def least : List Nat → Option Nat
  | [] => none
  | x :: xs => some (xs.foldl min x)

end Sys2Proof.Machine
end

