-- ==== Sys2Proof/Machine/Geometry.lean ====
section
/-! DEFINITION. Where things are: units and their numbers, mesh stops, the home-slice map, the memory map and the transit
of packets (R17-R27, R43). -/

namespace Sys2Proof.Machine

/-- A core, 0 to 639, by die, cluster and core number (R18, R19). -/
def coreId (die cluster core : Nat) : Nat := (die * 10 + cluster) * 16 + core
/-- `die` of a core (R19). -/
def dieOf (core : Nat) : Nat := core / 160
/-- `cluster` of a core, within its die (R19). -/
def clusterOf (core : Nat) : Nat := core / 16 % 10
/-- Cluster of a core, 0 to 39. -/
def pkgCluster (core : Nat) : Nat := core / 16
/-- A bay, 0 to 2,559, by its core and number. -/
def bayId (core bay : Nat) : Nat := core * 4 + bay
/-- A matrix quarter, 0 to 159, by its cluster and number; it is also the number of the partition column (R19, R326). -/
def quarterId (cluster q : Nat) : Nat := cluster * 4 + q

/-- The L2 slice that is the point of coherence of a granule (R26). -/
def homeSlice (pa : Nat) : Nat :=
  let a := pa / 2 ^ 12 % 2 ^ 36
  let q := a / 768
  (a + (q ^^^ (q / 128)) * 389 % 768) % 768

/-- Compute die of a slice (R26). -/
def sliceDie (n : Nat) : Nat := n / 192
/-- Mesh stop of a slice (R26). -/
def sliceStop (n : Nat) : Nat := n % 192 / 2
/-- Side of a slice at its stop (R26). -/
def sliceSide (n : Nat) : Nat := n % 2

/-- The HBM stack, channel and position that store a granule (R27). -/
def stackOf (pa : Nat) : Nat :=
  let g := bits pa 38 12
  bits g 2 0 ^^^ bits g 10 8 ^^^ bits g 13 11
def chanOf (pa : Nat) : Nat :=
  let g := bits pa 38 12
  bits g 7 3 ^^^ bits g 18 14 ^^^ bits g 23 19
def posOf (pa : Nat) : Nat := bits (bits pa 38 12) 26 8
/-- The memory-side cache slice of an address, 32 to a stack (R27). -/
def msSlice (pa : Nat) : Nat := stackOf pa * 32 + chanOf pa
/-- Pseudo-channel within a granule (R27). -/
def pseudoChan (pa : Nat) : Nat := bits pa 10 10

/-- Column and row of a mesh stop (R22). -/
def stopCol (s : Nat) : Nat := s % 12
def stopRow (s : Nat) : Nat := s / 12

/-- Column and row of a cluster's stop at an offset (R23). -/
def clusterStop (k j : Nat) : Nat × Nat := (1 + 2 * (k % 5) + j % 2, 4 * (k / 5) + j / 2)
/-- Stop of a core: cores 2j and 2j+1 share one (R23). -/
def coreStop (core : Nat) : Nat × Nat := clusterStop (clusterOf core) (core % 16 / 2)
/-- Stop of a quarter and its control core: that of cores 4q and 4q+1 (R23). -/
def quarterStop (qid : Nat) : Nat × Nat := clusterStop (qid / 4 % 10) (2 * (qid % 4))
/-- Entry stop of a memory-side cache slice (R27). -/
def msStop (pa : Nat) : Nat × Nat := (2 + 4 * (stackOf pa % 2) + chanOf pa % 4, chanOf pa / 4)

/-- Absolute difference. -/
def dist (a b : Nat) : Nat := (a - b) + (b - a)

/-- Fabric cycles of mesh transit between two stops of one die: one a hop (R24). -/
def transitOnDie (a b : Nat × Nat) : Nat := dist a.1 b.1 + dist a.2 b.2

/-- Fabric cycles of transit between stops of two dies: express travel along the source's row, then the column. Each die
is 12 columns wide, so the columns passed count across dies (R24). That they are rounded up once over the whole path, and that the step over
a boundary counts as one column, is the model's choice (log entry 61). -/
def transit (d1 : Nat) (a : Nat × Nat) (d2 : Nat) (b : Nat × Nat) : Nat :=
  if d1 = d2 then transitOnDie a b
  else (dist (12 * d1 + a.1) (12 * d2 + b.1) + 3) / 4 + 6 * dist d1 d2 + dist a.2 b.2

/-- Whether an address lies in the cacheable range (R25). -/
def cacheable (pa : Nat) : Bool := pa < Config.hbmBytes

/-- Line and sector of an address (R187). -/
def lineOf (pa : Nat) : Nat := pa / 128
def sectorOf (pa : Nat) : Nat := pa / 32
/-- 64 KiB frame of an address. -/
def frameOf (pa : Nat) : Nat := pa / 65536

/-- Clusters on which a pair's two bents may stand (R43). -/
def adjacentClusters (k k' : Nat) : Bool :=
  k / 10 == k' / 10 && ((k % 10 / 5 == k' % 10 / 5 && dist k k' == 1) || dist k k' == 5)

/-- Units that count for themselves (R29, R158, R342): cores, slices, governors, sill dies and matrix control cores. -/
def sliceUnit (n : Nat) : Nat := Config.cores + n
def governorUnit (g : Nat) : Nat := Config.cores + Config.slices + g
def sillUnit (d : Nat) : Nat := Config.cores + Config.slices + 2 + d
def controlUnit (q : Nat) : Nat := Config.cores + Config.slices + 6 + q

/-- How far a unit's counter lags the package's time: in fabric cycles for a slice, in arithmetic cycles for every other unit, whose
ticks are counted from what is left (R29; log entry 3). -/
def lagOf (s : State) (unit : Nat) : Nat := Tab.getD s.lag unit 0

/-- Arithmetic cycles on a unit's counter: a core's, or by `controlUnit` a matrix control core's (R29, R158; log entry 3). -/
def arithCycles (s : State) (unit : Nat) : Nat := (s.time - lagOf s unit) % 2 ^ 64
/-- Fabric cycles on a slice's counter: two to an arithmetic cycle (R28, R29). -/
def fabricCycles (s : State) (slice : Nat) : Nat := (2 * s.time - lagOf s (sliceUnit slice)) % 2 ^ 64
/-- Ticks of an egress governor, at 100 MHz (R5, R29). -/
def governorTicks (s : State) (g : Nat) : Nat := (s.time - lagOf s (governorUnit g)) / 8
/-- Whether a governor's window of 2^win ticks starts at this cycle of its own counter (R5, R316). -/
def windowStarts (s : State) (g win : Nat) : Bool := (s.time - lagOf s (governorUnit g)) % (8 * 2 ^ win) = 0
/-- The 100 MHz counter of a sill die, `time` and `mtime` of its harts (R342). -/
def sillTicks (s : State) (die : Nat) : Nat := (s.time - lagOf s (sillUnit die)) / 8

/-! ### Where units stand (R17, R23, R27) -/

/-- Compute or sill die of an HBM stack, and whether it stands on the north edge (R17). -/
def stackDie (stack : Nat) : Nat := stack / 2
def stackNorth (stack : Nat) : Bool := stack % 2 == 0
/-- Sill die of the memory-side cache slice of an address, and the compute die whose mesh it enters (R27). -/
def msDie (pa : Nat) : Nat := stackDie (stackOf pa)
/-- I/O die of an Ethernet port 0-3, a PCIe port 0-1, a Dreush port 0-17, a governor and a management port (R17). -/
def ethernetDie (port : Nat) : Nat := port / 2
def pcieDie (port : Nat) : Nat := port
def dreushDie (port : Nat) : Nat := port / 9
/-- Position of a die from the west: I/O die 0, the compute dies, I/O die 1 (R17). -/
def ioDiePos (io : Nat) : Nat := if io = 0 then 0 else 5
def computeDiePos (die : Nat) : Nat := die + 1
/-- Sill die of a hart, and its stop on the mesh above: column 0 or 11 (R23, R340). -/
def hartDie (h : Nat) : Nat := h / 32
def hartStop (h : Nat) : Nat × Nat := (if h % 32 < 16 then 0 else 11, h % 16 / 2)
/-- Whether a stop holds a die-to-die bridge: the 16 stops of columns 0 and 11 (R23). -/
def hasBridge (stop : Nat × Nat) : Bool := (stop.1 == 0 || stop.1 == 11) && decide (stop.2 < 8)
/-- Harts at a stop of a die, two at each edge stop and none elsewhere (R23). -/
def hartsAt (die : Nat) (stop : Nat × Nat) : List Nat :=
  if hasBridge stop then
    let i := 2 * stop.2 + if stop.1 = 0 then 0 else 16
    [32 * die + i, 32 * die + i + 1]
  else []

end Sys2Proof.Machine
end

