-- ==== Sys2Proof/Machine/Numbers.lean ====
section
/-! DEFINITION. Number formats, exact values, rounding, conversions and the stochastic hash (R133-R145). -/

namespace Sys2Proof.Machine

/-- Floating-point flags in the layout of `fpsr` (R98). -/
abbrev Flags := BitVec 5
def fNV : Flags := 16
def fDZ : Flags := 8
def fOF : Flags := 4
def fUF : Flags := 2
def fNX : Flags := 1

/-- A flag when a condition holds. -/
def flagIf (b : Bool) (f : Flags) : Flags := if b then f else 0

/-- A float format: exponent and fraction widths, bias, the largest finite magnitude code, and the codes of infinity and
of the canonical NaN where it has them (R133, R134). -/
structure Fmt where
  ebits : Nat
  mbits : Nat
  bias : Nat
  maxCode : Nat
  inf : Option Nat
  nan : Option Nat
  deriving DecidableEq, Repr

def Fmt.f32 : Fmt := { ebits := 8, mbits := 23, bias := 127, maxCode := 0x7F7FFFFF, inf := some 0x7F800000, nan := some 0x7FC00000 }
def Fmt.bf16 : Fmt := { ebits := 8, mbits := 7, bias := 127, maxCode := 0x7F7F, inf := some 0x7F80, nan := some 0x7FC0 }
def Fmt.e4m3 : Fmt := { ebits := 4, mbits := 3, bias := 7, maxCode := 0x7E, inf := none, nan := some 0x7F }
def Fmt.e5m2 : Fmt := { ebits := 5, mbits := 2, bias := 15, maxCode := 0x7B, inf := some 0x7C, nan := some 0x7E }
def Fmt.e3m2 : Fmt := { ebits := 3, mbits := 2, bias := 3, maxCode := 0x1F, inf := none, nan := none }
def Fmt.e2m3 : Fmt := { ebits := 2, mbits := 3, bias := 1, maxCode := 0x1F, inf := none, nan := none }
def Fmt.e2m1 : Fmt := { ebits := 2, mbits := 1, bias := 1, maxCode := 0x7, inf := none, nan := none }

/-- The float format of a type code; e4m3p values are decoded as e4m3 (R137), any other type has none of its own. -/
def fmtOf : Ty → Fmt
  | .bf16 => .bf16
  | .e4m3 | .e4m3p => .e4m3
  | .e5m2 => .e5m2
  | .e3m2 => .e3m2
  | .e2m3 => .e2m3
  | .e2m1 => .e2m1
  | _ => .f32

/-- Bit that holds the sign. -/
def Fmt.signBit (f : Fmt) : Nat := 2 ^ (f.ebits + f.mbits)
/-- Exponent of the format's smallest spacing. -/
def Fmt.qmin (f : Fmt) : Int := 1 - (f.bias : Int) - (f.mbits : Int)

/-- An exact value: ± mag · 2^exp, an infinity, or a NaN that may be signalling. -/
inductive FVal where
  | num (neg : Bool) (mag : Nat) (exp : Int)
  | inf (neg : Bool)
  | nan (signalling : Bool)
  deriving DecidableEq, Repr

/-- The value a pattern denotes (R133, R134). -/
def Fmt.decode (f : Fmt) (x : Nat) : FVal :=
  let neg := x / f.signBit % 2 == 1
  let code := x % f.signBit
  if code ≤ f.maxCode then
    let e := code / 2 ^ f.mbits
    let m := code % 2 ^ f.mbits
    if e = 0 then .num neg m f.qmin else .num neg (2 ^ f.mbits + m) (f.qmin + e - 1)
  else if f.inf = some code then .inf neg
  else .nan (f.ebits == 8 && code / 2 ^ (f.mbits - 1) % 2 == 0)

/-- `fp_value` of R12; x8 by R137, an integer type exactly (R395). -/
def fpValue (t : Ty) (x : Nat) : FVal :=
  match t with
  | .x8 => if x % 256 = 255 then .nan false else .num false 1 ((x % 256 : Nat) - 127)
  | .b32 => .num (sext x 32 < 0) (sext x 32).natAbs 0
  | .s64 => .num (sext x 64 < 0) (sext x 64).natAbs 0
  | .s8 => .num (sext x 8 < 0) (sext x 8).natAbs 0
  | .s16 => .num (sext x 16 < 0) (sext x 16).natAbs 0
  | .z32 => .num false (x % 2 ^ 32) 0
  | .z64 => .num false (x % 2 ^ 64) 0
  | .z8 => .num false (x % 2 ^ 8) 0
  | .z16 => .num false (x % 2 ^ 16) 0
  | _ => (fmtOf t).decode x

def FVal.neg : FVal → FVal
  | .num n m e => .num (!n) m e
  | .inf n => .inf (!n)
  | .nan s => .nan s

def FVal.signalling : FVal → Bool
  | .nan s => s
  | _ => false

def FVal.isNan : FVal → Bool
  | .nan _ => true
  | _ => false

/-! ### Rounding (R138-R140) -/

/-- Whether the upper neighbour is taken: s is the lower significand, rem/2^d the distance above it, r the stochastic
width and h the hash (R138, R139). -/
def roundUp (mode : Rnd) (neg : Bool) (r h s rem d : Nat) : Bool :=
  match mode with
  | .dflt => 2 ^ d < 2 * rem || (2 ^ d == 2 * rem && s % 2 == 1)
  | .rna => 2 ^ d ≤ 2 * rem
  | .rtz => false
  | .rdn => neg && rem != 0
  | .rup => !neg && rem != 0
  | .sr => 2 ^ r ≤ rem * 2 ^ r / 2 ^ d + h % 2 ^ r

/-- Stochastic width of a format (R139). -/
def Fmt.srWidth (f : Fmt) : Nat := if f.mbits = 23 then 32 else 16

/-- The chosen magnitude as a code that may run past the largest finite one, and whether it is inexact. A magnitude more
than 40 places below the smallest spacing rounds as the value 40 places below does. -/
def Fmt.magnitude (f : Fmt) (mode : Rnd) (h : Nat) (neg : Bool) (mag : Nat) (exp : Int) : Nat × Bool :=
  let top := exp + Nat.log2 mag
  let (mag, exp) := if top < f.qmin - 40 then (1, f.qmin - 40) else (mag, exp)
  let q := max f.qmin (exp + Nat.log2 mag - f.mbits)
  let d := (q - exp).toNat
  let s := if q ≤ exp then mag * 2 ^ (exp - q).toNat else mag / 2 ^ d
  let rem := if q ≤ exp then 0 else mag % 2 ^ d
  let s' := if rem != 0 && roundUp mode neg f.srWidth h s rem d then s + 1 else s
  ((q - f.qmin).toNat * 2 ^ f.mbits + s', rem != 0)

/-- Whether overflow gives infinity under a mode, in a format that has one (R138). -/
def overflowsToInf (mode : Rnd) (neg : Bool) : Bool :=
  match mode with
  | .dflt | .rna | .sr => true
  | .rtz => false
  | .rdn => neg
  | .rup => !neg

/-- `round_to` of a nonzero or zero number: pattern and flags (R138). With `sat`, overflow gives the largest finite value
(R142). -/
def Fmt.roundNum (f : Fmt) (mode : Rnd) (h : Nat) (sat : Bool) (neg : Bool) (mag : Nat) (exp : Int) : Nat × Flags :=
  let sign := if neg then f.signBit else 0
  if mag = 0 then (sign, 0)
  else
    let (code, inexact) := f.magnitude mode h neg mag exp
    if f.maxCode < code then
      let c := match f.inf with
        | some i => if !sat && overflowsToInf mode neg then i else f.maxCode
        | none => f.maxCode
      (sign + c, fOF ||| fNX)
    else (sign + code, flagIf inexact fNX ||| flagIf (inexact && code < 2 ^ f.mbits) fUF)

/-- `round_to` with the conversions of specials (R134, R138, R142, R143). -/
def Fmt.round (f : Fmt) (mode : Rnd) (h : Nat) (sat : Bool) (v : FVal) : Nat × Flags :=
  match v with
  | .num neg mag exp => f.roundNum mode h sat neg mag exp
  | .inf neg =>
    let sign := if neg then f.signBit else 0
    match f.inf with
    | some i => if sat then (sign + f.maxCode, fNV) else (sign + i, 0)
    | none => (sign + f.maxCode, fNV)
  | .nan s =>
    match f.nan with
    | some n => (n, flagIf s fNV)
    | none => (0, fNV)

/-- The stochastic hash (R140). -/
def srHash (a w c s : Nat) : Nat :=
  let x := a ^^^ (w * 2 ^ 41) ^^^ (c * 2 ^ 56) ^^^ s
  let x := (x * 0xA3B19C572E6D4F0B) % 2 ^ 64
  let x := x ^^^ (x / 2 ^ 29)
  let x := (x * 0x5C8F21D3B7E49A61) % 2 ^ 64
  let x := x ^^^ (x / 2 ^ 32)
  x % 2 ^ 32

/-! ### Exact arithmetic (R143, R404) -/

/-- A signed integer at a scale. -/
def scaled (neg : Bool) (mag : Nat) (exp base : Int) : Int :=
  let m : Int := (mag * 2 ^ (exp - base).toNat : Nat)
  if neg then -m else m

/-- The exact sum, and NV where it is invalid or an operand signals; `rdn` decides the sign of an exact zero. -/
def FVal.add (rdn : Bool) (x y : FVal) : FVal × Flags :=
  match x, y with
  | .nan s, y => (.nan false, flagIf (s || y.signalling) fNV)
  | _, .nan s => (.nan false, flagIf s fNV)
  | .inf a, .inf b => if a = b then (.inf a, 0) else (.nan false, fNV)
  | .inf a, _ => (.inf a, 0)
  | _, .inf b => (.inf b, 0)
  | .num a m e, .num b n f =>
    let base := min e f
    let v := scaled a m e base + scaled b n f base
    if v = 0 then (.num (if a = b then a else rdn) 0 0, 0) else (.num (v < 0) v.natAbs base, 0)

/-- The exact product. -/
def FVal.mul (x y : FVal) : FVal × Flags :=
  match x, y with
  | .nan s, y => (.nan false, flagIf (s || y.signalling) fNV)
  | _, .nan s => (.nan false, flagIf s fNV)
  | .inf a, .inf b => (.inf (a != b), 0)
  | .inf a, .num b n _ => if n = 0 then (.nan false, fNV) else (.inf (a != b), 0)
  | .num a m _, .inf b => if m = 0 then (.nan false, fNV) else (.inf (a != b), 0)
  | .num a m e, .num b n f => (.num (a != b) (m * n) (e + f), 0)

/-- The exact product plus an addend. -/
def FVal.fma (rdn : Bool) (x y z : FVal) : FVal × Flags :=
  let (p, f) := FVal.mul x y
  let (r, g) := FVal.add rdn p z
  (r, f ||| g)

/-- Order of two numbers or infinities; −0 equals +0. -/
def FVal.lt (x y : FVal) : Bool :=
  match x, y with
  | .nan _, _ | _, .nan _ => false
  | .inf a, .inf b => a && !b
  | .inf a, _ => a
  | _, .inf b => !b
  | .num a m e, .num b n f => scaled a m e (min e f) < scaled b n f (min e f)

def FVal.eq (x y : FVal) : Bool :=
  match x, y with
  | .nan _, _ | _, .nan _ => false
  | x, y => !FVal.lt x y && !FVal.lt y x

def FVal.isNeg : FVal → Bool
  | .num n _ _ | .inf n => n
  | .nan _ => false

/-- FMIN and FMAX on patterns (R405). -/
def fminmax (f : Fmt) (max : Bool) (a b : Nat) : Nat × Flags :=
  let x := f.decode a
  let y := f.decode b
  let canon := f.nan.getD 0
  if x.signalling || y.signalling then (canon, fNV)
  else if x.isNan && y.isNan then (canon, 0)
  else if x.isNan then (b % (2 * f.signBit), 0)
  else if y.isNan then (a % (2 * f.signBit), 0)
  else
    let less := FVal.lt x y || (FVal.eq x y && x.isNeg)
    ((if less != max then a else b) % (2 * f.signBit), 0)

/-- The conditions of R113 on two values, NaN false but for `.ne` and `.un`. -/
def fcond (c : Cond) (x y : FVal) : Bool :=
  match c with
  | .eq => FVal.eq x y
  | .ne => !FVal.eq x y
  | .lt => FVal.lt x y
  | .le => FVal.lt x y || FVal.eq x y
  | .gt => FVal.lt y x
  | .ge => FVal.lt y x || FVal.eq x y
  | .un => x.isNan || y.isNan
  | .ord => !(x.isNan || y.isNan)

/-- The conditions of R113 on two integers. -/
def icond (c : Cond) (x y : Int) : Bool :=
  match c with
  | .eq => x == y
  | .ne => x != y
  | .lt => x < y
  | .le => x ≤ y
  | .gt => y < x
  | .ge => y ≤ x
  | .un | .ord => false

/-! ### Integers and scale formats (R142) -/

/-- The integer a mode chooses, and whether it is inexact. -/
def roundInt (mode : Rnd) (neg : Bool) (mag : Nat) (exp : Int) : Nat × Bool :=
  if 0 ≤ exp then (mag * 2 ^ exp.toNat, false)
  else
    let d := (-exp).toNat
    let s := mag / 2 ^ d
    let rem := mag % 2 ^ d
    (if rem != 0 && roundUp mode neg 16 0 s rem d then s + 1 else s, rem != 0)

/-- Bits of an integer type. -/
def Ty.bits : Ty → Nat
  | .s8 | .z8 => 8
  | .s16 | .z16 | .bf16 => 16
  | .s64 | .z64 => 64
  | _ => 32

/-- Least and greatest value of an integer type. -/
def Ty.lo (t : Ty) : Int := if t.signed then -(2 ^ (Ty.bits t - 1) : Nat) else 0
def Ty.hi (t : Ty) : Int := if t.signed then (2 ^ (Ty.bits t - 1) : Nat) - 1 else (2 ^ Ty.bits t : Nat) - 1

/-- A value converted to an integer type: the integer and its flags (R142). -/
def toInt (t : Ty) (mode : Rnd) (v : FVal) : Int × Flags :=
  match v with
  | .nan _ => (0, fNV)
  | .inf neg => (if neg then Ty.lo t else Ty.hi t, fNV)
  | .num neg mag exp =>
    let (m, inexact) := roundInt mode neg mag exp
    let i : Int := if neg then -(m : Int) else m
    if i < Ty.lo t then (Ty.lo t, fNV) else if Ty.hi t < i then (Ty.hi t, fNV) else (i, flagIf inexact fNX)

/-- Conversion to x8 (R142). -/
def toX8 (mode : Rnd) (h : Nat) (v : FVal) : Nat × Flags :=
  match v with
  | .nan _ => (0xFF, fNV)
  | .inf neg => if neg then (0xFF, fNV) else (0xFE, fNV)
  | .num neg mag exp =>
    if neg || mag == 0 then (0xFF, fNV)
    else
      let n := Nat.log2 mag
      let k : Int := exp + n
      let rem := mag - 2 ^ n
      if k < -127 then (0, fUF ||| fNX)
      else if 127 < k || (k == 127 && rem != 0) then (0xFE, fOF ||| fNX)
      else
        let code := (k + 127).toNat
        (if rem != 0 && roundUp mode false 16 h code rem n then code + 1 else code, flagIf (rem != 0) fNX)

/-- Conversion to e4m3p (R142). -/
def toE4m3p (mode : Rnd) (h : Nat) (sat : Bool) (v : FVal) : Nat × Flags :=
  match v with
  | .nan _ => (0x7F, fNV)
  | .inf neg => if neg then (0x7F, fNV) else Fmt.e4m3.round mode h sat (.inf false)
  | .num neg mag exp =>
    if mag = 0 then (0, 0) else if neg then (0x7F, fNV) else Fmt.e4m3.roundNum mode h sat false mag exp

/-- An integer as bits of a register or pair, extended by R8 (R394). -/
def intBits (t : Ty) (i : Int) : Nat := wrap (if t.is64 then 64 else 32) i

/-- Whether a type is an integer one. -/
def Ty.isInt : Ty → Bool
  | .b32 | .z32 | .s64 | .z64 | .s8 | .z8 | .s16 | .z16 => true
  | _ => false

/-- A value converted to a type: the bits written and the flags (R142, R395). -/
def convert (t : Ty) (mode : Rnd) (h : Nat) (sat : Bool) (v : FVal) : Nat × Flags :=
  if Ty.isInt t then let (i, f) := toInt t mode v; (intBits t i, f)
  else match t with
    | .x8 => toX8 mode h v
    | .e4m3p => toE4m3p mode h sat v
    | t => (fmtOf t).round mode h sat v

/-- An integer converted to another integer type (R395). -/
def convertInt (t : Ty) (sat : Bool) (i : Int) : Nat :=
  if Ty.lo t ≤ i ∧ i ≤ Ty.hi t then intBits t i
  else if sat then intBits t (if i < Ty.lo t then Ty.lo t else Ty.hi t)
  else
    let r := wrap (Ty.bits t) i
    if t.signed then intBits t (sext r (Ty.bits t)) else r

/-! ### Decoded elements (R135, R147, R148) -/

/-- Width of a narrow element's field in storage. -/
def Ty.elemBits : Ty → Nat
  | .e2m1 | .cb4 => 4
  | _ => 8

/-- The significant bits of a narrow element's field (R135). -/
def Ty.narrowMask : Ty → Nat
  | .e2m1 | .cb4 => 16
  | .e3m2 | .e2m3 => 64
  | _ => 256

/-- The decoded value of an element under a block scale, as a bf16 pattern (R148). -/
def decodeElem (e : FVal) (scale : Option FVal) : Nat :=
  match e, scale with
  | .nan _, _ => 0x7FC0
  | _, some (.nan _) => 0x7FC0
  | e, none => (Fmt.bf16.round .dflt 0 false e).1
  | e, some s => (Fmt.bf16.round .dflt 0 false (FVal.mul e s).1).1

end Sys2Proof.Machine
end

