-- ==== Sys2Proof/Machine/Translate.lean ====
section
/-! DEFINITION. Translation of global addresses: table walk, checks of R214, page ownership, device space and decoded
views (R146-R150, R185, R212-R218, R345, R509). -/

namespace Sys2Proof.Machine

/-- Kinds of access that translation tells apart (R214). -/
inductive Access where
  | read | write | fetch
  deriving DecidableEq, Repr

/-- What an access to memory comes to: a value, a trap, a demand-zero page to fill first (R220), or a poisoned line
(R287). -/
inductive Got (α : Type) where
  | ok (x : α)
  | trap (k : Kept)
  | fill (va : Nat)
  | poison (line : Nat)
  deriving DecidableEq, Repr

def Got.bind {α β : Type} (g : Got α) (f : α → Got β) : Got β :=
  match g with
  | .ok x => f x
  | .trap k => .trap k
  | .fill va => .fill va
  | .poison l => .poison l

def Got.map {α β : Type} (g : Got α) (f : α → β) : Got β := g.bind fun x => .ok (f x)

/-- A trap with a number as its `tinfo`. -/
def kept (c : TrapCode) (info : Nat) : Kept := { code := c, info := BitVec.ofNat 64 info }

/-- The rules of R146 on a format attribute. -/
def fmtOk (f : Nat) : Bool :=
  bits f 2 0 != 7 && bits f 6 5 != 3 && (bits f 2 0 != 0 || f == 0) && (bits f 6 5 != 0 || bits f 25 13 == 0) &&
    (bits f 2 0 == 6 || bits f 12 7 == 0)

/-- Bits 63:57 repeat bit 56 (R185). -/
def canonicalVa (va : Nat) : Bool := bits va 63 57 == (if bit va 56 then 127 else 0)

/-- Table levels with the address bits that index them (R212). -/
def tableLevels : List (Nat × Nat × Nat) := [(3, 56, 45), (2, 44, 33), (1, 32, 21), (0, 20, 16)]

/-- One step of a walk: level, entry address, entry. -/
structure WalkStep where
  level : Nat
  addr : Nat
  entry : Nat
  deriving DecidableEq, Repr

def WalkStep.valid (w : WalkStep) : Bool := bit w.entry 0
def WalkStep.isLeaf (w : WalkStep) : Bool := w.level == 0 || (w.level == 1 && bit w.entry 1)
def WalkStep.demandZero (w : WalkStep) : Bool := w.level == 0 && !bit w.entry 0 && bit w.entry 5

/-- Physical base of the frame a leaf names (R213). -/
def leafFrame (e : Nat) : Nat := bits e 37 6 * 2 ^ 16
/-- Physical address of the table a non-leaf entry names (R213). -/
def nextTable (e : Nat) : Nat := bits e 45 6 * 2 ^ 8

/-- Check 3 of R214 on an entry: reserved bits, LEAF for its level, alignment of FRAME or NEXT. -/
def WalkStep.malformed (w : WalkStep) : Bool :=
  if w.isLeaf then !bit w.entry 1 || bit w.entry 4 || (w.level == 1 && bits w.entry 10 6 != 0)
  else bit w.entry 1 || bits w.entry 63 46 != 0 || bits w.entry 5 2 != 0 ||
    (2 ≤ w.level && nextTable w.entry % 2 ^ 15 != 0)

/-- The entries a walk reads, from a table down; it ends at a leaf, an invalid entry, or a table outside the cacheable
range, whose entry is not read. -/
def walk (mem : Memory) (va : Nat) : List (Nat × Nat × Nat) → Nat → List WalkStep
  | [], _ => []
  | (l, hi, lo) :: ls, table =>
    let addr := table + 8 * bits va hi lo
    if !cacheable addr then [{ level := l, addr := addr, entry := 1 }]
    else
      let w : WalkStep := { level := l, addr := addr, entry := Memory.num mem addr 8 }
      if !w.valid || w.isLeaf || bit w.entry 1 then [w] else w :: walk mem va ls (nextTable w.entry)

/-- The page ownership entry of an address's frame (R217); an unlisted one is unassigned. -/
def potOf (s : State) (pa : Nat) : Pot := Tab.getD s.pot (frameOf pa) { owner := 0, slot := 0, type := 0, rstr := false }

/-- A table page's ownership (R218). -/
def tableOwned (s : State) (enclave : Nat) (addr : Nat) : Bool :=
  cacheable addr && (potOf s addr).owner == enclave && (potOf s addr).type == 2

/-- A data frame's ownership (R218). -/
def frameOwned (s : State) (enclave : Nat) (slot : Option Nat) (pa : Nat) : Bool :=
  let p := potOf s pa
  cacheable pa && p.owner == enclave && p.type == 1 && slot == some p.slot

/-- Base of device space and of an enclave's kick page (R25, R344). -/
def deviceBase : Nat := 0x008000000000
def kickPage (enclave : Nat) : Nat := deviceBase + 65536 * enclave

/-- The ownership check on a leaf's frames, device space included (R218). -/
def leafOwned (s : State) (enclave : Nat) (slot : Option Nat) (big : Bool) (e : Nat) : Bool :=
  let pa := leafFrame e
  if cacheable pa then (upFrom 0 (if big then 32 else 1)).all fun i => frameOwned s enclave slot (pa + 65536 * i)
  else !big && pa == kickPage enclave && bit e 2 && !bit e 3 && bits e 63 38 == 0

/-- Checks 5 and 7 of R214 on a leaf. -/
def leafCheck (a : Access) (e : Nat) (va : Nat) : Option Kept :=
  let fmt := bits e 63 38
  if (a == .write && !bit e 2 && fmt == 0) || (a == .fetch && !bit e 3) || (fmt != 0 && (bit e 2 || bit e 3)) || !fmtOk fmt
  then some (kept .pageProt va) else none

/-- The page a leaf maps around an address. -/
def leafPage (big : Bool) (e va : Nat) : Page :=
  let size := if big then 2 ^ 21 else 2 ^ 16
  { va := va / size * size, pa := leafFrame e, size := size, fmt := bits e 63 38 }

/-- Address bits that lead to a non-leaf entry of a level, 1 to 3 (R212). -/
def walkPre (level va : Nat) : Nat := bits va 56 (9 + 12 * level)

/-- The deepest non-leaf entry that a cluster's walk cache holds for an address (R215). -/
def walkHit (s : State) (cluster enclave va : Nat) : Option WalkEntry :=
  let hit (l : Nat) : Option WalkEntry :=
    s.walks.find? fun w => w.cluster == cluster && w.enclave == enclave && w.level == l && w.pre == walkPre l va
  (hit 1).or ((hit 2).or (hit 3))

/-- The entries a core's walk reads: those below the walk cache's hit, or all four levels (R212, R215). -/
def coreWalk (s : State) (core enclave : Nat) (e : Enclave) (va : Nat) : List WalkStep :=
  match walkHit s (pkgCluster core) enclave va with
  | some w => walk s.mem va (tableLevels.drop (4 - w.level)) w.next
  | none => walk s.mem va tableLevels e.root

/-- Side-band of a line; unlisted, all zero. -/
def sideOf (s : State) (line : Nat) : Side := Tab.getD s.side line Side.clean

/-- What a read of a line from a DRAM array finds: the code corrects up to four symbols, and takes more for uncorrectable or miscorrects them,
which the MAC shows (R286; log entry 20). -/
def Side.finding (d : Side) : Finding :=
  if 4 < d.flips.length then (if Config.miscorrects d.flips then .macDiffers else .uncorrectable)
  else if d.forged then .macDiffers else if d.flips.isEmpty then .clean else .corrected

/-- The code with which a line halts its reader's bent, 0 for none: the one it was poisoned with, or that of the finding that poisons it now
(R286, R287). -/
def Side.code (d : Side) : Nat :=
  if d.poison ≠ 0 then d.poison
  else match d.finding with
    | .uncorrectable => 0x28
    | .macDiffers => 0x29
    | _ => 0

/-- Whether a read of a line halts its reader's bent (R287). -/
def poisoned (s : State) (pa : Nat) : Bool := (sideOf s (lineOf pa)).code != 0

/-- The outcome of a walk's entries under checks 2 to 6 of R214. An entry on a poisoned line ends the walk (R287). -/
def stepsOutcome (s : State) (enclave : Nat) (e : Enclave) (a : Access) (va : Nat) (ws : List WalkStep) : Got (Page × Nat × Bool) :=
  match ws.find? fun w => cacheable w.addr && poisoned s w.addr with
  | some w => .poison (lineOf w.addr)
  | none => match ws.getLast? with
  | none => .trap (kept .pageNotPresent va)
  | some l =>
    if !l.valid && !l.demandZero then .trap (kept .pageNotPresent va)
    else if ws.any fun w => cacheable w.addr && w.malformed then .trap (kept .pageProt va)
    else if l.demandZero && e.stack.isEmpty then .trap (kept .freePageEmpty va)
    else
      match if l.demandZero || !cacheable l.addr then none else leafCheck a l.entry va with
      | some k => .trap k
      | none =>
        if ws.any fun w => !tableOwned s enclave w.addr then .trap (kept .potViolation va)
        else if l.demandZero then .fill va
        else if !leafOwned s enclave e.slot (l.level == 1) l.entry then .trap (kept .potViolation va)
        else .ok (leafPage (l.level == 1) l.entry va, l.entry, l.level == 1)

/-- A core's walk, through its cluster's walk cache. -/
def walkOutcome (s : State) (core enclave : Nat) (e : Enclave) (a : Access) (va : Nat) : Got (Page × Nat × Bool) :=
  stepsOutcome s enclave e a va (coreWalk s core enclave e va)

/-- Whether a cached translation is of an address. -/
def TlbEntry.covers (t : TlbEntry) (enclave va : Nat) : Bool :=
  t.enclave == enclave && t.page == (if t.big then va / 2 ^ 21 else va / 2 ^ 16)

/-- A translation held for an address in a core's TLB, or in the L2 TLB of its cluster (R215). -/
def tlbLookup (s : State) (core enclave va : Nat) : Option TlbEntry :=
  (s.tlb.find? fun t => t.core == core && t.covers enclave va).or
    (s.tlb2.find? fun t => t.core == pkgCluster core && t.covers enclave va)

/-- `translate` of R12 for an enclave: the page reached, after checks 1 to 7 of R214. -/
def translate (s : State) (core enclave : Nat) (a : Access) (va : Nat) : Got Page :=
  if !canonicalVa va then .trap (kept .pageProt va)
  else
    match Tab.get? s.enclaves enclave with
    | none => .trap (kept .pageNotPresent va)
    | some e =>
      let g : Got Page :=
        match tlbLookup s core enclave va with
        | some t =>
          match leafCheck a t.entry.toNat va with
          | some k => .trap k
          | none => .ok (leafPage t.big t.entry.toNat va)
        | none => (walkOutcome s core enclave e a va).map (·.1)
      g.bind fun p => if a == .write && p.fmt != 0 then .trap (kept .fmtStore va) else .ok p

/-- Physical address of a virtual address within its page. -/
def Page.at (p : Page) (va : Nat) : Nat := p.pa + (va - p.va)

/-- Whether a page lies in device space. -/
def Page.device (p : Page) : Bool := !cacheable p.pa

/-- A translation put into a core's TLB of 128, newest first (R215). -/
def fillTlb1 (s : State) (t : TlbEntry) : State :=
  { s with tlb := (t :: s.tlb.filter (·.core == t.core)).take Config.l1Tlb ++ s.tlb.filter (·.core != t.core) }

/-- A translation put into a cluster's L2 TLB: 8 ways a set, newest first (R215). -/
def fillTlb2 (s : State) (t : TlbEntry) : State :=
  let mine (x : TlbEntry) : Bool := x.core == t.core && Config.tlbSet x.page % Config.l2TlbSets == Config.tlbSet t.page % Config.l2TlbSets
  { s with tlb2 := (t :: s.tlb2.filter mine).take Config.l2TlbWays ++ s.tlb2.filter fun x => !mine x }

/-- The non-leaf entries of a walk put into a cluster's cache of 256 (R215). -/
def fillWalks (s : State) (cluster enclave va : Nat) (ws : List WalkStep) : State :=
  let es : List WalkEntry := (ws.filter fun w => !w.isLeaf).map fun w =>
    { cluster := cluster, enclave := enclave, level := w.level, pre := walkPre w.level va, pot := potOf s w.addr, next := nextTable w.entry }
  { s with walks := (es ++ s.walks.filter fun w => w.cluster == cluster && !es.contains w).take Config.walkCache ++
      s.walks.filter (·.cluster != cluster) }

/-- Invalidation of an enclave's translations that overlap a range, in every TLB and walk cache of the package (R216). -/
def invalidateRange (s : State) (enclave va size : Nat) : State :=
  let clear (t : TlbEntry) : Bool :=
    let psize := if t.big then 2 ^ 21 else 2 ^ 16
    !(t.enclave == enclave && t.page * psize < va + size && va < (t.page + 1) * psize)
  { s with tlb := s.tlb.filter clear, tlb2 := s.tlb2.filter clear, walks := s.walks.filter fun w => w.enclave != enclave }

/-- Invalidation of every translation of an enclave. -/
def invalidateEnclave (s : State) (enclave : Nat) : State :=
  { s with tlb := s.tlb.filter fun t => t.enclave != enclave, tlb2 := s.tlb2.filter fun t => t.enclave != enclave,
           walks := s.walks.filter fun w => w.enclave != enclave }

/-! ### Decoded views (R147-R150) -/

/-- Element format of a format attribute (R146). -/
def viewTy (fmt : Nat) : Ty :=
  match bits fmt 2 0 with
  | 1 => .e4m3
  | 2 => .e5m2
  | 3 => .e3m2
  | 4 => .e2m3
  | 5 => .e2m1
  | _ => .cb4

/-- Bytes read at the home, unless a line they lie in is poisoned. -/
def readHome (s : State) (pa n : Nat) : Got (List Byte) :=
  match (upFrom pa n).find? (poisoned s) with
  | some a => .poison (lineOf a)
  | none => .ok (Memory.bytes s.mem pa n)

/-- How a decode translates the addresses it reads (R147, R168). -/
abbrev Look := Nat → Got Page

/-- An entry of a launch's codebook: the page is that of CTXT (R136, R457, R512). That an entry on the kick page is PAGE_PROT with the
entry's address, and one on a decoded view is read as the frame's raw bytes, is the model's choice (log entry 61). -/
def codebookBy (s : State) (look : Look) (ctxt c k : Nat) : Got Nat :=
  let va := (ctxt + 0x2000 + 32 * c + 2 * k) % 2 ^ 64
  if ctxt = 0 then .trap (kept .pageProt va)
  else (look va).bind fun p =>
    if p.device then .trap (kept .pageProt va)
    else (readHome s (p.at va) 2).map ofBytes

/-- An entry of a launch's codebook, read by a core. -/
def codebookEntry (s : State) (core enclave ctxt c k : Nat) : Got Nat :=
  codebookBy s (translate s core enclave .read) ctxt c k

/-- The scale byte at a virtual address (R147). -/
def scaleByte (s : State) (look : Look) (va : Nat) : Got Nat :=
  (look va).bind fun p =>
    if p.fmt != 0 || p.device then .trap (kept .fmtScale va)
    else (readHome s (p.at va) 1).map ofBytes

/-- Address of the scale byte of a view's element (R147). -/
def scaleVa (p : Page) (i : Nat) : Nat :=
  wrap 64 (p.va + 4096 * sext (bits p.fmt 25 13) 13 + (i / (16 * 2 ^ bits p.fmt 4 3) : Nat))

/-- The bf16 pattern of element i of a view page (R147, R148). -/
def viewElem (s : State) (look : Look) (ctxt : Nat) (p : Page) (i : Nat) : Got Nat :=
  let t := viewTy p.fmt
  let four := Ty.elemBits t == 4
  (readHome s (p.pa + if four then i / 2 else i) 1).bind fun bs =>
    let raw := ofBytes bs
    let e := (if four then raw / 16 ^ (i % 2) else raw) % Ty.narrowMask t
    let elem : Got FVal := if t == .cb4 then (codebookBy s look ctxt (bits p.fmt 12 7) e).map Fmt.bf16.decode
      else .ok (fpValue t e)
    elem.bind fun v =>
      match bits p.fmt 6 5 with
      | 0 => .ok (decodeElem v none)
      | 1 => (scaleByte s look (scaleVa p i)).map fun b => decodeElem v (some (fpValue .x8 b))
      | _ => (scaleByte s look (scaleVa p i)).bind fun b =>
        if 128 ≤ b then .trap (kept .fmtScale (scaleVa p i)) else .ok (decodeElem v (some (fpValue .e4m3p b)))

/-- Frame byte that holds the view element at a virtual address (R135, R147). -/
def viewByte (p : Page) (va : Nat) : Nat :=
  let i := (va - p.va) / 2
  p.pa + if Ty.elemBits (viewTy p.fmt) = 4 then i / 2 else i

/-- Virtual addresses that decoding some bytes of a view looks up: the first and the last scale, and for cb4 the codebook's (R147). -/
def viewVas (ctxt : Nat) (p : Page) (off n : Nat) : List Nat :=
  (if bits p.fmt 6 5 = 0 then [] else [scaleVa p (off / 2), scaleVa p ((off + n - 1) / 2)]) ++
    if viewTy p.fmt = .cb4 && ctxt ≠ 0 then [wrap 64 (ctxt + 0x2000 + 32 * bits p.fmt 12 7 : Nat)] else []

/-- Physical lines that decoding some bytes of a view reads: the raw elements', their scales' and, for cb4, the codebook
line's (R147, R149). -/
def viewLines (s : State) (core enclave ctxt : Nat) (p : Page) (off n : Nat) : List Nat :=
  [lineOf (viewByte p (p.va + off)), lineOf (viewByte p (p.va + off + n - 1))] ++ (viewVas ctxt p off n).flatMap fun va =>
    match translate s core enclave .read va with
    | .ok q => if q.device then [] else [lineOf (q.at va)]
    | _ => []

/-- n bytes of a decoded view from an offset of the page. -/
def viewBytes (s : State) (core enclave ctxt : Nat) (p : Page) (o : Nat) : Nat → Got (List Byte)
  | 0 => .ok []
  | n + 1 => (viewElem s (translate s core enclave .read) ctxt p (o / 2)).bind fun e =>
    (viewBytes s core enclave ctxt p (o + 1) n).map fun r => BitVec.ofNat 8 (e / 256 ^ (o % 2)) :: r

end Sys2Proof.Machine
end

