-- ==== Sys2Proof/Machine/Cache.lean ====
section
/-! DEFINITION. The caches and the home: L1 and fused caches, retention, the L2's lines, monitors, write-backs, release
and acquire, and the scope checker (R189-R197, R229-R245, R331). -/

namespace Sys2Proof.Machine

/-- A cluster's registers; an unwritten one holds its reset values. -/
def clusterOfPkg (s : State) (k : Nat) : Cluster := Tab.getD s.clusters k Cluster.reset

/-- Whether a core's cluster is in fused mode (R194). -/
def fusedAt (s : State) (core : Nat) : Bool := (clusterOfPkg s (pkgCluster core)).fused

/-- The coherent store a core loads through: its L1, or its cluster's fused cache (R194, R230, R231). -/
def cacheOf (s : State) (core : Nat) : Nat := if fusedAt s core then Config.cores + pkgCluster core else core

/-- Phase count of a store (R192). -/
def phaseOf (s : State) (cache : Nat) : Word := Tab.getD s.phases cache 0

/-- a at or above b in a window of 2^31 (R192). -/
def atOrAbove (a b : Word) : Bool := (a - b).toNat < 2 ^ 31

/-- Core a block of a bent resides on, if it is placed. -/
def blockOf (s : State) (bent block : Nat) : Option Block := (Tab.get? s.bents bent).bind fun b => Tab.get? b.blocks block

/-- Core a thread resides on: its block's, or the stop of its quarter for a matrix thread (R23, R41). -/
def threadCore (s : State) (t : Thread) : Nat :=
  if t.control then
    match Tab.get? s.bents t.bent with
    | some b => match b.control with
      | some q => q / 4 * 16 + 4 * (q % 4)
      | none => 0
    | none => 0
  else match blockOf s t.bent t.block with
    | some b => b.core
    | none => 0

/-- Bay of a thread's block. -/
def threadBay (s : State) (t : Thread) : Nat :=
  if t.control then 0 else match blockOf s t.bent t.block with
    | some b => b.bay
    | none => 0

/-- Whether a store's mark is live: at or above the phase start of some thread or hand resident on it (R192). -/
def markLive (s : State) (cache : Nat) (mark : Word) : Bool :=
  (Tab.values s.threads).any fun t =>
    !t.control && t.status != .exited && cacheOf s (threadCore s t) == cache &&
      (atOrAbove mark t.phaseStart || match t.raise with
        | some r => r.hands.any fun h => atOrAbove mark h.ctx.phase
        | none => false)

/-! ### L2 lines and write-backs -/

/-- Registers of a slice, at reset where unwritten (R330, R344). -/
def sliceOf (s : State) (n : Nat) : SliceRegs :=
  Tab.getD s.sliceRegs n { fill := [], comp := [], gate := 0, log := [], logN := 0, served := 0, fixed := 0 }

/-- Mask of some ways. -/
def wayMask (ws : List Nat) : Nat := ws.foldl (fun m w => m ||| 2 ^ w) 0

/-- Ways protected for some enclave, the same in every slice (R308). -/
def protectedWays (s : State) : Nat := wayMask ((Tab.values s.enclaves).flatMap (·.pways))

/-- A partition's fill mask less the gated and the protected ways, its effective mask (R195, R199, R308, R330). -/
def effective (s : State) (slice fill : Nat) : Nat :=
  (fill &&& (0xFFFF ^^^ (sliceOf s slice).gate.toNat)) &&& (0xFFFF ^^^ (protectedWays s &&& 0xFFFF))

/-- Fill mask of a partition in a slice. -/
def fillMask (s : State) (slice part : Nat) : Nat := effective s slice (Tab.getD (sliceOf s slice).fill part 0xFFFF).toNat

/-- The protected ways of the enclave that owns a line, none for most. -/
def ownWays (s : State) (line : Nat) : List Nat :=
  ((Tab.get? s.enclaves (potOf s (line * 128)).owner).map (·.pways)).getD []

/-- Key slot of a line's frame, the tag its cached copies carry (R189, R217). -/
def keyOf (s : State) (line : Nat) : Nat := (potOf s (line * 128)).slot

/-- The numbers of n bytes each that a list of bytes holds, k of them. -/
def numsOf (bs : List Byte) (n k : Nat) : List Nat := (upFrom 0 k).map fun i => ofBytes ((bs.drop (n * i)).take n)

/-- The first encoding of R196 that holds 128 bytes exactly. That its differences are taken modulo the word's size is the model's choice
(log entry 61). -/
def encBytes (bs : List Byte) : LineEnc :=
  let ws := numsOf bs 4 32
  let ds := numsOf bs 8 16
  let near (w n base x : Nat) : Bool :=
    let d := wrap w ((x : Int) - base + 2 ^ (n - 1))
    d < 2 ^ n
  if ws.all (· == 0) then .zero
  else if ws.all (near 32 12 (ws.headD 0)) then .base32
  else if ds.all (near 64 16 (ds.headD 0)) then .base64
  else .whole

/-- The encoding of a line. -/
def encOf (s : State) (line : Nat) : LineEnc := encBytes (Memory.bytes s.mem (line * 128) 128)

/-- Half-way units of a line (R331). -/
def L2Line.units (l : L2Line) : Nat := if l.enc = .whole then 2 else 1

/-- Half-ways a set's lines take in a way. -/
def wayUse (ls : List L2Line) (way : Nat) : Nat := (ls.filter (·.way == way)).foldl (fun n l => n + l.units) 0

/-- The line a fill takes out of a mask: the least recently used lying outside its own filler's effective mask, else the
least recently used (R332). -/
def victim (s : State) (slice mask : Nat) (inSet : List L2Line) : Option L2Line :=
  let here := inSet.filter fun x => bit mask x.way
  match (here.filter fun x => !bit (fillMask s slice x.filler) x.way).getLast? with
  | some x => some x
  | none => here.getLast?

/-- A line placed in a way of the mask with room, or in the room made by taking lines out; what was taken out is the second
part (R195, R332). -/
def placeLine (s : State) (mask need : Nat) (l : L2Line) : Nat → List L2Line → List L2Line → List L2Line × List L2Line
  | 0, inSet, out => (inSet, out)
  | fuel + 1, inSet, out =>
    match (upFrom 0 16).find? fun w => bit mask w && wayUse inSet w + need ≤ 2 with
    | some w => ({ l with way := w } :: inSet, out)
    | none =>
      match victim s l.slice mask inSet with
      | some old => placeLine s mask need l fuel (inSet.erase old) (old :: out)
      | none => (inSet, out)

/-! ### The memory-side cache (R198, R199) -/

/-- A line's bytes at its home, and those that HBM holds of it: an unlisted line's are the same (R198, R335). -/
def homeData (s : State) (line : Nat) : BitVec 1024 := BitVec.ofNat 1024 (Memory.num s.mem (line * 128) 128)
def hbmData (s : State) (line : Nat) : BitVec 1024 := (Tab.get? s.hbm line).getD (homeData s line)

/-- What HBM holds of a line noted ahead of a write at the line's home, which does not reach it yet (R198, R335). -/
def keepHbm (s : State) (line : Nat) : State :=
  if (Tab.get? s.hbm line).isSome then s else { s with hbm := Tab.set s.hbm line (homeData s line) }

/-- A line's bit in its page's dirty map set (R198, R334). -/
def markDirty (s : State) (line : Nat) : State :=
  { s with dirtyMaps := s.dirtyMaps.map fun d =>
      if d.frame == line / 512 then { d with map := d.map ||| BitVec.twoPow 512 (line % 512) } else d }

/-- A line's bytes written back to HBM, which sets its dirty-map bit (R198, R334, R335). -/
def toHbm (s : State) (line : Nat) (d : BitVec 1024) : State :=
  { markDirty s line with hbm := if d = homeData s line then Tab.erase s.hbm line else Tab.set s.hbm line d }

/-- Ways of a memory-side cache slice that are not gated (R199). -/
def msWays (s : State) (slice : Nat) : List Nat := (upFrom 0 16).filter fun w => !(Tab.getD s.msGate slice 0).getLsbD w

/-- A failure that no bent's access consumes: the line is poisoned, and its record of class 0x06 follows (R287). -/
def noteFailure (s : State) (line : Nat) : State :=
  let d := sideOf s line
  if d.poison ≠ 0 || d.code = 0 then s
  else
    { s with side := Tab.set s.side line { d with poison := d.code, flips := [], forged := false },
             pending := s.pending ++ [.integrityHalt none line (d.code == 0x29)] }

/-- A read of a line from a DRAM array, of HBM or of the memory-side cache's layers: a correction is counted by the line's home slice
(R198, R286). -/
def dramRead (s : State) (line : Nat) : State :=
  if (sideOf s line).finding = .corrected then
    let slice := homeSlice (line * 128)
    { s with sliceRegs := Tab.set s.sliceRegs slice { sliceOf s slice with fixed := (sliceOf s slice).fixed + 1 } }
  else s

/-- A line's symbols as they were written. -/
def unflip (s : State) (line : Nat) (forged : Bool) : State :=
  if (sideOf s line).flips.isEmpty then s else { s with side := Tab.set s.side line { sideOf s line with flips := [], forged := forged } }

/-- A dirty line of the memory-side cache written back to HBM: it is read from its DRAM layer and corrected, an uncorrectable one is a failure
that no bent consumes, and one miscorrected has a MAC that differs from then on (R198, R286, R287). -/
def msOut (s : State) (m : MsLine) : State :=
  let s := toHbm (dramRead s m.line) m.line m.data
  match (sideOf s m.line).finding with
  | .corrected => unflip s m.line false
  | .macDiffers => unflip s m.line true
  | .uncorrectable => noteFailure s m.line
  | .clean => s

/-- The memory-side cache after an access to a line by an L2 slice: a miss takes a way of its set by a free choice, and the
dirty line that leaves is written back to HBM. With every way gated a write goes to HBM itself (R198, R199; log entry 2). -/
def msTouch (s : State) (line : Nat) (write : Bool) : State :=
  let slice := msSlice (line * 128)
  match s.ms.find? fun m => m.line == line with
  | some m => if write then { s with ms := { m with dirty := true, data := homeData s line } :: s.ms.erase m } else s
  | none =>
    let set := Config.msSet line % Config.msSets
    match msWays s slice with
    | [] => if write then toHbm s line (homeData s line) else s
    | w :: ws =>
      let way := (w :: ws).getD (Config.msWay s.draws line % (ws.length + 1)) w
      let old := s.ms.filter fun m => m.slice == slice && m.way == way && Config.msSet m.line % Config.msSets == set
      let s := (old.filter (·.dirty)).foldl msOut s
      { s with ms := { slice := slice, line := line, way := way, dirty := write, data := if write then homeData s line else hbmData s line } ::
                 s.ms.filter fun m => !old.contains m }

/-- Memory-side lines removed, dirty ones written back to HBM (R198, R199). -/
def msDrop (s : State) (sel : MsLine → Bool) : State :=
  let s := (s.ms.filter fun m => sel m && m.dirty).foldl msOut s
  { s with ms := s.ms.filter fun m => !sel m }

/-- Memory-side lines written back to HBM and kept clean. -/
def msClean (s : State) (sel : MsLine → Bool) : State :=
  let s := (s.ms.filter fun m => sel m && m.dirty).foldl msOut s
  { s with ms := s.ms.map fun m => if sel m then { m with dirty := false } else m }

/-! ### Lines of an L2 slice -/

/-- A dirty line of an L2 slice written back to the memory-side cache, which sets its dirty-map bit (R198, R334). -/
def writeBackL2 (s : State) (l : L2Line) : State := if l.dirty then msTouch (markDirty s l.line) l.line true else s

/-- Lines of the L2 removed, dirty ones written back. -/
def dropL2 (s : State) (sel : L2Line → Bool) : State :=
  let s := (s.l2.filter sel).foldl writeBackL2 s
  { s with l2 := s.l2.filter fun l => !sel l }

/-- Lines of the L2 written back and kept clean. -/
def cleanL2 (s : State) (sel : L2Line → Bool) : State :=
  let s := (s.l2.filter sel).foldl writeBackL2 s
  { s with l2 := s.l2.map fun l => if sel l then { l with dirty := false } else l }

/-- A line filled into its set. A line of an enclave with protected ways goes into one of them, and what it replaces there
moves to a shared way (R308). Lines taken out are written back, and so is the written line itself where no way takes it. -/
def fillLineL2 (s : State) (l : L2Line) : State :=
  let set := Config.l2Set l.line % 64
  let mine (x : L2Line) : Bool := x.slice == l.slice && Config.l2Set x.line % 64 == set
  let inSet := s.l2.filter mine
  let others := s.l2.filter fun x => !mine x
  let finish (here gone : List L2Line) : State :=
    { (if here.any (·.line == l.line) then gone else l :: gone).foldl writeBackL2 s with l2 := here ++ others }
  match ownWays s l.line with
  | [] =>
    let (here, out) := placeLine s (fillMask s l.slice l.filler) l.units l 40 inSet []
    finish here out
  | ws =>
    let (here, out) := placeLine s (wayMask ws) l.units l 40 inSet []
    let (here, gone) := out.foldl (fun (p : List L2Line × List L2Line) x =>
      let (h, o) := placeLine s (fillMask s x.slice x.filler) x.units x 40 p.1 []
      (h, o ++ p.2)) (here, [])
    finish here gone

/-- Whether a line's copy in the L2 is sealed: its enclave has protected ways, and it lies in another. Elsewhere in the L2 it is plaintext,
and in the memory-side cache and HBM every line is sealed under its key slot (R307). -/
def L2Line.isSealed (s : State) (l : L2Line) : Bool := !(ownWays s l.line).isEmpty && !(ownWays s l.line).contains l.way

/-- Whether an access may hit a line where it lies: not in another enclave's protected way (R308, R331). -/
def mayHit (s : State) (l : L2Line) : Bool :=
  l.key == keyOf s l.line && (!bit (protectedWays s) l.way || (ownWays s l.line).contains l.way)

/-- The L2 after an access to a line by a partition: a hit in any way becomes the newest, a miss fills within the
partition's mask from the memory-side cache. A compressed line that a write leaves without an encoding moves to a whole way
(R195, R196, R198, R331). -/
def accessL2 (s : State) (part line : Nat) (write : Bool) : State :=
  let slice := homeSlice (line * 128)
  let s := { s with sliceRegs := Tab.set s.sliceRegs slice { sliceOf s slice with served := (sliceOf s slice).served + 1 } }
  match s.l2.find? fun l => l.line == line && mayHit s l with
  | some l =>
    let enc := if l.enc = .whole || !write then l.enc else encOf s line
    let keep : L2Line := { l with dirty := l.dirty || write, enc := enc }
    let s := { s with l2 := s.l2.filter (·.line != line) }
    if keep.units = l.units && ((ownWays s line).isEmpty || (ownWays s line).contains l.way) then { s with l2 := keep :: s.l2 }
    else fillLineL2 s keep
  | none =>
    let s := msTouch (dramRead (dropL2 s fun l => l.line == line) line) line false
    let enc := if Tab.getD (sliceOf s slice).comp part false then encOf s line else .whole
    fillLineL2 s { slice := slice, line := line, key := keyOf s line, way := 0, filler := part, enc := enc, dirty := write }

/-- The machine after an access to a line at its slice: caches, what HBM holds, the slice's registers and the errors that write-backs meet
change, and nothing else does. -/
def touchL2 (s : State) (part line : Nat) (write : Bool) : State :=
  let t := accessL2 s part line write
  { s with l2 := t.l2, ms := t.ms, hbm := t.hbm, dirtyMaps := t.dirtyMaps, sliceRegs := t.sliceRegs, side := t.side, pending := t.pending }

/-- Every monitor entry of a line removed and its cores woken (R197). -/
def wakeMonitors (s : State) (line : Nat) : State :=
  { s with monitors := s.monitors.filter (·.1 != line),
           pending := s.pending ++ (s.monitors.filter (·.1 == line)).map fun m => Instr.monitorWake m.2 line }

/-- A line's chunk count cleared, as every write but a merge or MZERO does (R173). -/
def clearCount (s : State) (line : Nat) : State :=
  if (sideOf s line).count = 0 then s else { s with side := Tab.set s.side line { sideOf s line with count := 0 } }

/-- The reservations of harts on a line, gone once it is written (R340; log entry 9). -/
def unreserve (s : State) (line : Nat) : State := { s with reservations := s.reservations.filter (·.line != line) }

/-- What every write that changes a line at its home brings with it. -/
def homeWritten (s : State) (part line : Nat) : State := wakeMonitors (touchL2 (unreserve s line) part line true) line

/-- A line written in part: the rest of it comes from DRAM, corrected, or is a failure that no bent's access consumes (R286, R287). -/
def partWritten (s : State) (line : Nat) : State := unflip (noteFailure s line) line (sideOf s line).forged

/-- The same for a write that is no merge and no MZERO (R173). -/
def lineWritten (s : State) (part line : Nat) : State := homeWritten (clearCount s line) part line

/-- A line written whole: its update counter and poison go (R141, R287). -/
def clearSide (s : State) (line : Nat) : State :=
  { s with side := Tab.erase s.side line }

/-- Bytes written at the home, all within one line, of a write that is to cover the line. -/
def writeOver (s : State) (part pa : Nat) (bs : List Byte) : State :=
  lineWritten { keepHbm s (lineOf pa) with mem := Memory.writeBytes s.mem pa bs } part (lineOf pa)

/-- Bytes written at the home, all within one line (R235). -/
def writeHome (s : State) (part pa : Nat) (bs : List Byte) : State := partWritten (writeOver s part pa bs) (lineOf pa)

/-- Listed bytes of one line written at the home (a byte-masked write-back, R190). -/
def writeHomeCells (s : State) (part line : Nat) (cs : List Host.Cell) : State :=
  if cs.isEmpty then s
  else partWritten (lineWritten { keepHbm s line with mem := cs.foldl (fun m c => Memory.write m c.1 c.2) s.mem } part line) line

/-- The translation of an access's page kept in the core's TLB and its cluster's, and the entries that its walk reads filled at
their homes, under a partition's fill mask, whatever the walk comes to (R215, R331). -/
def fillTlb (s : State) (part core enclave va : Nat) : State :=
  match s.tlb.find? fun t => t.core == core && t.covers enclave va with
  | some _ => s
  | none => match s.tlb2.find? fun t => t.core == pkgCluster core && t.covers enclave va with
    | some t => fillTlb1 s { t with core := core }
    | none => match Tab.get? s.enclaves enclave with
      | none => s
      | some e =>
        let ws := coreWalk s core enclave e va
        let got := if canonicalVa va then walkOutcome s core enclave e .read va else .trap (kept .pageProt va)
        let s := if canonicalVa va then (ws.filter fun w => cacheable w.addr).foldl (fun s w => touchL2 s part (lineOf w.addr) false) s else s
        match got with
        | .ok (p, entry, big) =>
          let t : TlbEntry := { core := core, enclave := enclave, page := p.va / p.size, big := big, pot := potOf s p.pa, entry := BitVec.ofNat 64 entry }
          fillWalks (fillTlb1 (fillTlb2 s { t with core := pkgCluster core }) t) (pkgCluster core) enclave va ws
        | _ => s

/-- `fillTlb` for every page that decoding some bytes of a view looks up: scales and codebook entries (R147, R215, R331). -/
def fillViewTlb (s : State) (part core enclave ctxt : Nat) (p : Page) (off n : Nat) : State :=
  (viewVas ctxt p off n).foldl (fun s va => fillTlb s part core enclave va) s

/-! ### Lines of an L1 or fused cache (R189, R190) -/

/-- Mask of n bytes from an offset of a line. -/
def byteMask (off n : Nat) : BitVec 128 := BitVec.ofNat 128 ((2 ^ n - 1) * 2 ^ off)

/-- Bytes of a line's data. -/
def dataBytes (d : BitVec 1024) (off n : Nat) : List Byte := toBytes n (d.toNat / 2 ^ (8 * off))

/-- Bytes of a line's data from an offset replaced. -/
def patchData (d : BitVec 1024) (off : Nat) (bs : List Byte) : BitVec 1024 :=
  (d &&& ~~~BitVec.ofNat 1024 ((2 ^ (8 * bs.length) - 1) * 2 ^ (8 * off))) ||| BitVec.ofNat 1024 (ofBytes bs * 2 ^ (8 * off))

/-- Bytes of a line that some core's stores have dirtied. -/
def L1Line.written (x : L1Line) : BitVec 128 := x.dirty.foldl (fun m e => m ||| e.2) 0

/-- Bytes of a line's chosen sectors. -/
def sectorMask (sel : Nat → Bool) : BitVec 128 :=
  (upFrom 0 4).foldl (fun m k => if sel k then m ||| byteMask (32 * k) 32 else m) 0

/-- Whether a copy is of a line of a store: the tag is the physical address and the key slot (R189). -/
def L1Line.holds (x : L1Line) (s : State) (cache line : Nat) : Bool := x.cache == cache && x.line == line && x.key == keyOf s line

/-- Whether a copy's sector of an address is filled. -/
def L1Line.has (x : L1Line) (pa : Nat) : Bool := x.filled.getLsbD (pa % 128 / 32)

/-- Partition that owns the column of a store's bay, whose fills it makes (R327, R330). -/
def cachePart (s : State) (cache bay : Nat) : Nat :=
  let cluster := if cache < Config.cores then pkgCluster cache else cache - Config.cores
  Tab.getD s.colown (quarterId cluster bay) 0 / 256 % 256

/-- The partition that owns a quarter's column, whose fills it makes (R327, R330). -/
def quarterPart (s : State) (q : Nat) : Nat := Tab.getD s.colown q 0 / 256 % 256

/-- The partition that owns the bay column of a thread, whose fills it makes (R327, R330). -/
def columnPart (s : State) (core bay : Nat) : Nat := Tab.getD s.colown (quarterId (pkgCluster core) bay) 0 / 256 % 256

/-- Bytes of a line from an offset, with what chosen cores have dirtied in any part of a store over them (R190, R231, R233). -/
def overDirty (s : State) (cache : Nat) (own : Nat → Bool) (pa : Nat) (bs : List Byte) : List Byte :=
  let parts := s.l1.filter fun x => x.holds s cache (lineOf pa) && x.dirty.any fun e => own e.1
  if parts.isEmpty then bs
  else ((upFrom (pa % 128) bs.length).zip bs).map fun (i, b) =>
    match parts.find? fun x => x.dirty.any fun e => own e.1 && e.2.getLsbD i with
    | some x => x.data.extractLsb' (8 * i) 8
    | none => b

/-- A filled copy of an address's sector in any part of a store: the parts act as one (R231; log entry 32). -/
def partCopy (s : State) (cache pa : Nat) : Option L1Line := s.l1.find? fun x => x.holds s cache (lineOf pa) && x.has pa

/-- The 32 bytes that fill a sector: those of another part that holds it, else the home's with every part's dirty bytes over
them (R190, R231). -/
def fillData (s : State) (cache pa : Nat) : List Byte :=
  let a := pa / 32 * 32
  match partCopy s cache pa with
  | some x => dataBytes x.data (a % 128) 32
  | none => overDirty s cache (fun _ => true) a (Memory.bytes s.mem a 32)

/-- A copy with the sector of an address filled. -/
def L1Line.fill (x : L1Line) (pa : Nat) (bs : List Byte) : L1Line :=
  { x with data := patchData x.data (pa % 128 / 32 * 32) bs, filled := x.filled ||| BitVec.twoPow 4 (pa % 128 / 32) }

/-- A store's copies of a line changed; one that is left with no valid byte goes. -/
def mapL1 (s : State) (f : L1Line → L1Line) : State :=
  { s with l1 := (s.l1.map f).filter fun x => x.filled != 0 || !x.dirty.isEmpty }

/-- The sector of an address filled into a bay's ways, with a mark to set if the fill is a load's (R189, R192). -/
def fillSector (s : State) (core bay pa : Nat) (mark : Option Word) : State :=
  let cache := cacheOf s core
  let bs := fillData s cache pa
  let s := if (partCopy s cache pa).isSome then s else touchL2 s (columnPart s core bay) (lineOf pa) false
  match s.l1.find? fun x => x.holds s cache (lineOf pa) && x.bay == bay with
  | some x => { s with l1 := s.l1.map fun y => if y == x then { x.fill pa bs with mark := mark.or x.mark } else y }
  | none =>
    let x : L1Line := { cache := cache, bay := bay, line := lineOf pa, key := keyOf s (lineOf pa), data := 0, filled := 0, dirty := [], mark := mark }
    { s with l1 := x.fill pa bs :: s.l1 }

/-- A load through the L1 or the fused cache (R190-R193, R226): its bytes and the store after it. It marks the line with the
present phase. -/
def readL1 (s : State) (core bay : Nat) (start : Word) (pa n : Nat) : Got (List Byte × State) :=
  let cache := cacheOf s core
  match s.retained.find? fun r => r.cache == cache && r.bay == bay && r.line == lineOf pa && r.key == keyOf s (lineOf pa) &&
      r.valid.getLsbD (pa % 128 / 32) && atOrAbove r.mark start with
  | some r => .ok (dataBytes r.data (pa % 128) n, s)
  | none =>
    let mark := some (phaseOf s cache)
    match s.l1.find? fun x => x.holds s cache (lineOf pa) && x.bay == bay && x.has pa with
    | some x => .ok (dataBytes x.data (pa % 128) n, if x.mark = mark then s else
        { s with l1 := s.l1.map fun y => if y == x then { x with mark := mark } else y })
    | none =>
      if (partCopy s cache pa).isNone && poisoned s pa then .poison (lineOf pa)
      else .ok ((fillData s cache pa).drop (pa % 32) |>.take n, fillSector s core bay pa mark)

/-- Retained copies of a store kept equal to its own later writes (R225). -/
def patchRetained (s : State) (cache pa : Nat) (bs : List Byte) : State :=
  { s with retained := s.retained.map fun r =>
      if r.cache == cache && r.line == lineOf pa then { r with data := patchData r.data (pa % 128) bs } else r }

/-- Dirty marks with some bytes taken out. -/
def dropDirty (d : Tab (BitVec 128)) (m : BitVec 128) : Tab (BitVec 128) :=
  (d.map fun e => (e.1, e.2 &&& ~~~m)).filter fun e => e.2 != 0

/-- A store performed in the L1 or the fused cache: every valid copy is updated, a line not held is allocated without a fill,
and the bytes are dirty in the storing bay's copy alone, where every core that dirtied them stays named (R190, R231). -/
def writeL1 (s : State) (core bay pa : Nat) (bs : List Byte) : State :=
  let cache := cacheOf s core
  let m := byteMask (pa % 128) bs.length
  let mine (x : L1Line) : Bool := x.holds s cache (lineOf pa)
  let before := (s.l1.filter mine).flatMap (·.dirty)
  let add (d : Tab (BitVec 128)) : Tab (BitVec 128) :=
    before.foldl (fun d e => if e.2 &&& m = 0 then d else Tab.update d e.1 0 (· ||| (e.2 &&& m))) (Tab.update d core 0 (· ||| m))
  let s1 := if s.l1.any fun x => mine x && x.bay == bay then s else
    { s with l1 := { cache := cache, bay := bay, line := lineOf pa, key := keyOf s (lineOf pa), data := 0, filled := 0, dirty := [], mark := none } :: s.l1 }
  patchRetained (mapL1 s1 fun x =>
    if mine x then { x with data := patchData x.data (pa % 128) bs,
                            dirty := if x.bay == bay then add x.dirty else dropDirty x.dirty m }
    else x) cache pa bs

/-- A store written through to the home: valid copies in the core's store are updated without being left dirty (R483). -/
def writeThrough (s : State) (core bay pa : Nat) (bs : List Byte) : State :=
  let cache := cacheOf s core
  let s := writeHome s (columnPart s core bay) pa bs
  patchRetained (mapL1 s fun x =>
    if x.holds s cache (lineOf pa) then
      { x with data := patchData x.data (pa % 128) bs, dirty := dropDirty x.dirty (byteMask (pa % 128) bs.length) }
    else x) cache pa bs

/-- The bytes of a copy under a mask, with their addresses. -/
def L1Line.cells (x : L1Line) (m : BitVec 128) : List Host.Cell :=
  ((upFrom 0 128).filter fun i => m.getLsbD i).map fun i => (x.line * 128 + i, x.data.extractLsb' (8 * i) 8)

/-- The dirty bytes under each copy's mask written back, charged to the partition of the copy's column; a copy left with no
valid byte goes (R190). -/
def writeBack (s : State) (sel : L1Line → BitVec 128) : State :=
  let out := s.l1.filter fun x => x.written &&& sel x != 0
  if out.isEmpty then s
  else out.foldl (fun s x => writeHomeCells s (cachePart s x.cache x.bay) x.line (x.cells (x.written &&& sel x)))
    (mapL1 s fun x => { x with dirty := dropDirty x.dirty (sel x) })

/-- All of a copy, if it is chosen. -/
def allOf (sel : L1Line → Bool) (x : L1Line) : BitVec 128 := if sel x then BitVec.allOnes 128 else 0

/-- The retention entries of the machine replaced; a retention page that holds none any more returns to its enclave's stack
(R193). -/
def setRetained (s : State) (live : List Retained) : State :=
  let freed := ((s.retained.filterMap (·.page)).filter fun f => !(live.any fun r => r.page == some f)).eraseDups
  if freed.isEmpty then { s with retained := live }
  else { s with retained := live,
                enclaves := s.enclaves.map fun (k, e) =>
                  (k, { e with stack := (freed.filter fun f => (potOf s (f * 65536)).owner == k) ++ e.stack }) }

/-- A line's data put in the retention store under its mark, if that is live (R193). -/
def retain (s : State) (x : L1Line) : State :=
  match x.mark with
  | some m => if x.filled != 0 && markLive s x.cache m then
      { s with retained := s.retained ++ [{ cache := x.cache, bay := x.bay, line := x.line, key := x.key, data := x.data, valid := x.filled, mark := m, page := none }] }
    else s
  | none => s

/-- Chosen lines removed, dirty bytes lost; live marks go to retention (R193, R222). -/
def discard (s : State) (sel : L1Line → Bool) : State :=
  let s := (s.l1.filter sel).foldl retain s
  { s with l1 := s.l1.filter fun x => !sel x }

/-- Chosen lines removed, their dirty bytes written back first (R193). -/
def flushL1 (s : State) (sel : L1Line → Bool) : State := discard (writeBack s (allOf sel)) sel

/-- The set of a line in its bay's ways: 128 on a core, and in a fused cache those of the core R194 names. The index within the
128 is not given (R189; log entry 2). -/
def l1SetOf (cache line : Nat) : Nat :=
  (if cache < Config.cores then 0 else bits line 3 0 ^^^ bits line 7 4) * 128 + Config.l1Set line % 128

/-- Room for a line in its bay's 4 ways of its set: when other lines hold them all, one leaves, by a free choice; its dirty bytes
are written back, and a live mark takes it to retention (R189, R193). -/
def makeRoom (s : State) (core bay line : Nat) : State :=
  let cache := cacheOf s core
  let held := (s.l1.filter fun x => x.cache == cache && x.bay == bay && l1SetOf cache x.line == l1SetOf cache line).map (·.line)
  if held.contains line || held.length < 4 then s
  else
    let out := held.getD (Config.l1Victim s.draws line % held.length) 0
    flushL1 s fun x => x.cache == cache && x.bay == bay && x.line == out

/-- Whether a range of bytes reaches a sector of a line. -/
def sectorHit (line pa n k : Nat) : Bool := line * 128 + 32 * k < pa + n && pa < line * 128 + 32 * k + 32

/-- A core's own dirty bytes of a range sent to their home, ahead of an access of its own that acts there (R225). -/
def flushOwn (s : State) (core pa n : Nat) : State :=
  let cache := cacheOf s core
  writeBack s fun x => if x.cache == cache then sectorMask fun k => sectorHit x.line pa n k else 0

/-- Sectors and retained copies of a core's store that a write of its own beyond the L1 made stale: dirty bytes are written
back first (R191). -/
def removeStale (s : State) (core pa n : Nat) : State :=
  let cache := cacheOf s core
  let s := flushOwn s core pa n
  let keep (line : Nat) (m : BitVec 4) : BitVec 4 := (upFrom 0 4).foldl (fun m k => if sectorHit line pa n k then m &&& ~~~BitVec.twoPow 4 k else m) m
  let s := mapL1 s fun x => if x.cache == cache then { x with filled := keep x.line x.filled } else x
  if s.retained.any fun r => r.cache == cache && keep r.line r.valid != r.valid then
    setRetained s ((s.retained.map fun r => if r.cache == cache then { r with valid := keep r.line r.valid } else r).filter (·.valid != 0))
  else s

/-! ### Release, acquire and phases -/

/-- Step 2 of R232 at `.dv` and `.sy`: the dirty sectors of the core's L1, or those of the fused cache that name the core. -/
def releaseHome (s : State) (core : Nat) : State :=
  let cache := cacheOf s core
  writeBack s fun x => if x.cache == cache then
      let own := Tab.getD x.dirty core 0
      sectorMask fun k => own &&& byteMask (32 * k) 32 != 0
    else 0

/-- Clean bytes of chosen lines discarded: a line with a live mark is written back and goes to retention, another keeps its
dirty bytes alone (R193, R233). -/
def discardClean (s : State) (sel : L1Line → Bool) : State :=
  let s := flushL1 s fun x => sel x && x.filled != 0 && (x.mark.map fun m => markLive s x.cache m).getD false
  mapL1 s fun x => if sel x then { x with filled := 0 } else x

/-- The discard of R233 at `.dv` and `.sy`. -/
def acquireHome (s : State) (core : Nat) : State := discardClean s fun x => x.cache == cacheOf s core

/-- Whether an operation of a scope acts at the home for a unit of a core (R163, R229, R230). -/
def atHome (s : State) (control : Bool) (core : Nat) (sc : Scope) : Bool :=
  control || match sc with
    | .cr => false
    | .cl => !fusedAt s core
    | .dv | .sy => true

/-- R232 at a scope. -/
def releaseAt (s : State) (control : Bool) (core : Nat) (sc : Scope) : State :=
  if !control && atHome s control core sc then releaseHome s core else s

/-- R233 at a scope. -/
def acquireAt (s : State) (control : Bool) (core : Nat) (sc : Scope) : State :=
  if !control && atHome s control core sc then acquireHome s core else s

/-- Retained copies whose marks are no longer live dropped (R193). -/
def pruneRetained (s : State) : State :=
  if s.retained.isEmpty then s else setRetained s (s.retained.filter fun r => markLive s r.cache r.mark)

/-- Marks a phase boundary passed on a core: the store's count advances; the new count is the thread's phase start
(R192, R224). -/
def boundary (s : State) (core : Nat) : State × Word :=
  let cache := cacheOf s core
  let p := phaseOf s cache + 1
  ({ s with phases := Tab.set s.phases cache p }, p)

/-! ### Scope checker -/

/-- Whether unit b lies in scope sc of unit a (R229). -/
def inScope (s : State) (a b : UnitId) (sc : Scope) : Bool :=
  match sc with
  | .sy => true
  | .dv => match b with
    | .core _ | .control _ => true
    | _ => false
  | .cl => match a, b with
    | .core x, .core y => pkgCluster x == pkgCluster y && fusedAt s x
    | _, _ => false
  | .cr => match a, b with
    | .core x, .core y => x == y
    | _, _ => false

/-- The scope as recorded: `.cl` acts as `.dv` in an unfused cluster, and every scope below on a control core (R163, R229). -/
def effectiveScope (s : State) (u : UnitId) (sc : Scope) : Scope :=
  match u, sc with
  | .core x, .cl => if fusedAt s x then .cl else .dv
  | .control _, .cr | .control _, .cl => .dv
  | _, sc => sc

/-- A tracked operation at a line's home: whether it raises SCOPE_MISMATCH, and the checker after it (R244, R245). -/
def track (s : State) (line : Nat) (e : ScopeEntry) : Bool × State :=
  let sc := effectiveScope s e.unit e.scope
  let e := { e with scope := sc }
  let slice := homeSlice (line * 128)
  let mine := s.scopes.filter fun x => homeSlice (x.line * 128) == slice && x.line != line
  let others := s.scopes.filter fun x => homeSlice (x.line * 128) != slice
  let replaced := { s with scopes := (e :: mine).take Config.scopeEntries ++ others }
  match s.scopes.find? fun x => x.line == line with
  | none => (false, replaced)
  | some old =>
    let stale := old.ticket == e.ticket && old.ticket != 0 && old.placement != e.placement
    let outside := match old.unit with
      | .sill _ | .io => sc == .sy
      | _ => false
    let fromOutside := match e.unit with
      | .sill _ | .io => true
      | _ => false
    if stale || outside || fromOutside || old.enclave != e.enclave then (false, replaced)
    else if inScope s e.unit old.unit sc && inScope s old.unit e.unit old.scope then (false, replaced)
    else (true, s)

/-! ### Monitors -/

/-- A monitor entry for (line, core), unless it exists or the slice's table is full (R197). -/
def addMonitor (s : State) (line core : Nat) : State :=
  let slice := homeSlice (line * 128)
  if s.monitors.contains (line, core) then s
  else if Config.monitorEntries ≤ (s.monitors.filter fun m => homeSlice (m.1 * 128) == slice).length then s
  else { s with monitors := s.monitors ++ [(line, core)] }

end Sys2Proof.Machine
end

