-- ==== Sys2Proof/Machine/Kick.lean ====
section
/-! DEFINITION. The kick page: kick queues, the error queue and the save region register (R67, R68, R288, R290). -/

namespace Sys2Proof.Machine

/-- A kick queue nothing has written (R67). -/
def KickQueue.reset : KickQueue :=
  { ring := 0, logd := 0, prio := 0, en := false, lasterr := 0, nref := 0, head := 0, tail := 0, bonus := 0,
    readySince := none, cur := none }

/-- An error queue nothing has written (R288). -/
def ErrQueue.reset : ErrQueue := { ring := 0, logd := 0, en := false, lost := 0, tail := 0, head := 0, seq := 0 }

def KickQueue.cfg (k : KickQueue) : Nat := pack [(1, ofBool k.en), (5, 0), (2, k.prio), (4, k.logd), (52, k.ring)]
def KickQueue.door (k : KickQueue) : Nat := pack [(16, k.tail), (16, k.head), (8, k.nref), (8, k.lasterr)]
def ErrQueue.cfg (k : ErrQueue) : Nat := pack [(1, ofBool k.en), (7, 0), (4, k.logd), (52, k.ring)]
def ErrQueue.door (k : ErrQueue) : Nat := pack [(16, k.head), (16, k.tail), (16, k.lost)]

/-- Headers or records between HEAD and TAIL. -/
def used (tail head : Nat) : Nat := wrap 16 ((tail : Int) - head)

/-- A write of KQCFG (R68). -/
def KickQueue.writeCfg (k : KickQueue) (v : Nat) : KickQueue :=
  if 8 < bits v 11 8 || (k.en && k.head != k.tail) then k
  else
    let k' := { k with ring := bits v 63 12, logd := bits v 11 8, prio := bits v 7 6, en := bit v 0 }
    if bit v 0 && !k.en then { k' with head := 0, tail := 0 } else k'

/-- A write of KQDOOR's TAIL (R68). -/
def KickQueue.writeTail (k : KickQueue) (v : Nat) : KickQueue :=
  if !k.en || 2 ^ k.logd < used (bits v 15 0) k.head then k else { k with tail := bits v 15 0 }

/-- A write of EQCFG (R288). -/
def ErrQueue.writeCfg (k : ErrQueue) (v : Nat) : ErrQueue :=
  if 8 < bits v 11 8 || (k.en && k.head != k.tail) then k
  else
    let k' := { k with ring := bits v 63 12, logd := bits v 11 8, en := bit v 0 }
    if bit v 0 && !k.en then { k' with head := 0, tail := 0 } else k'

/-- A write of EQDOOR's HEAD, ignored beyond TAIL (R288). -/
def ErrQueue.writeHead (k : ErrQueue) (v : Nat) : ErrQueue :=
  if used k.tail k.head < used (bits v 15 0) k.head then k else { k with head := bits v 15 0 }

def enclaveOf (s : State) (id : Nat) : Option Enclave := Tab.get? s.enclaves id

/-- An enclave changed. -/
def setEnclave (s : State) (id : Nat) (f : Enclave → Enclave) : State := { s with enclaves := Tab.modify s.enclaves id f }

def Enclave.queue (e : Enclave) (q : Nat) : KickQueue := Tab.getD e.kq q KickQueue.reset

/-- A kick queue changed. -/
def setQueue (s : State) (id q : Nat) (f : KickQueue → KickQueue) : State :=
  setEnclave s id fun e => { e with kq := Tab.update e.kq q KickQueue.reset f }

/-- A read of a kick page: aligned 64-bit reads of its registers; everything else reads zero (R67). -/
def kickRead (s : State) (id off size : Nat) : Nat :=
  if size ≠ 8 || off % 8 ≠ 0 then 0
  else match enclaveOf s id with
    | none => 0
    | some e =>
      if off < 1024 then
        let k := e.queue (off / 16)
        if off % 16 = 0 then k.cfg else k.door
      else if off = 0x400 then e.eq.cfg
      else if off = 0x408 then e.eq.door
      else if off = 0x410 then e.svcfg.toNat
      else 0

/-- A write of a kick page; one of SVCFG names a region in which no rejected record stands (log entry 12): aligned 64-bit writes of its registers; everything else is ignored (R67). -/
def kickWrite (s : State) (id off size v : Nat) : State :=
  if size ≠ 8 || off % 8 ≠ 0 then s
  else if off < 1024 then
    setQueue s id (off / 16) fun k => if off % 16 = 0 then k.writeCfg v else k.writeTail v
  else if off = 0x400 then setEnclave s id fun e => { e with eq := e.eq.writeCfg v }
  else if off = 0x408 then setEnclave s id fun e => { e with eq := e.eq.writeHead v }
  else if off = 0x410 then setEnclave { s with rejected := s.rejected.filter (·.1 != id) } id fun e => { e with svcfg := BitVec.ofNat 64 v }
  else s

end Sys2Proof.Machine
end

