-- ==== Sys2Proof/Machine/Access.lean ====
section
/-! DEFINITION. Pages taken and given back, scratchpads, and the copy engine's commands (R186, R187, R200-R209,
R219-R221, R251). -/

namespace Sys2Proof.Machine

/-! ### Frames -/

/-- Every byte of a frame zero, in HBM too, its lines' side-band at zero (R141, R219). -/
def zeroFrame (s : State) (frame : Nat) : State :=
  { s with mem := Memory.zero s.mem (frame * 65536) 65536,
           hbm := s.hbm.filter fun e => !(e.1 / 512 == frame),
           reservations := s.reservations.filter fun r => !(r.line / 512 == frame),
           side := s.side.filter fun e => !(e.1 / 512 == frame) }

/-- A frame given contents by the root: bytes beyond those given are zero. -/
def putFrame (s : State) (frame : Nat) (bs : List Byte) : State :=
  let s := zeroFrame s frame
  { s with mem := Memory.writeBytes s.mem (frame * 65536) (bs.take 65536) }

/-- A page mapped (true) or freed in a tracked enclave, noted for the list at the round's end (R335). -/
def pageChange (s : State) (enclave va : Nat) (mapped : Bool) : State :=
  setEnclave s enclave fun e => if e.mig.en then { e with mig := { e.mig with changes := e.mig.changes ++ [(mapped, va)] } } else e

/-- A tracked enclave's page, mapped at an address, gets a dirty map with every line marked (R334). -/
def trackPage (s : State) (enclave va frame : Nat) : State :=
  match enclaveOf s enclave with
  | some e => if e.mig.en then
      { pageChange s enclave va true with dirtyMaps := { enclave := enclave, frame := frame, map := BitVec.allOnes 512 } :: s.dirtyMaps.filter (·.frame != frame) }
    else s
  | none => s

/-- A leaf entry as the root writes it for a fresh page: W = 1, X = 0, FMT = 0 (R220, R221). -/
def freshLeaf (frame : Nat) : Nat := frame * 64 + 7

/-- A table entry written by the root, at its home (R196, R218). -/
def writeEntry (s : State) (addr v : Nat) : State := writeHome s 0 addr (toBytes 8 v)

/-- A frame from the stack mapped, zeroed, at a level-0 entry (R219, R220). -/
def mapFresh (s : State) (enclave : Nat) (e : Enclave) (va addr frame : Nat) (rest : List Nat) : State :=
  let s := setEnclave (zeroFrame s frame) enclave fun e => { e with stack := rest }
  let s := { s with pot := Tab.set s.pot frame { owner := enclave, slot := e.slot.getD 0, type := 1, rstr := false } }
  trackPage (writeEntry s addr (freshLeaf frame)) enclave (va / 65536 * 65536) frame

/-- First touch of a demand-zero page (R220); nothing where the page is no longer one or the stack is empty. -/
def demandZero (s : State) (enclave va : Nat) : State :=
  match enclaveOf s enclave with
  | none => s
  | some e =>
    match (walk s.mem va tableLevels e.root).getLast?, e.stack with
    | some w, f :: rest => if w.demandZero then mapFresh s enclave e va w.addr f rest else s
    | _, _ => s

/-- A translation that fills a demand-zero page on the way (R220), with its TLB entry kept, for an access charged to a
partition. -/
def touchFor (s : State) (part core enclave : Nat) (a : Access) (va : Nat) : State × Got Page :=
  let s := match translate s core enclave a va with
    | .fill _ => demandZero (fillTlb s part core enclave va) enclave va
    | _ => s
  (fillTlb s part core enclave va, translate s core enclave a va)

/-- The same for an access of no bent: of the dispatcher, the root, a hart or a service core. -/
def touch (s : State) (core enclave : Nat) (a : Access) (va : Nat) : State × Got Page := touchFor s 0 core enclave a va

/-! ### Scratchpads -/

def launchOf (s : State) (b : Bent) : Option Launch := Tab.get? s.launches b.launch

/-- SCRATCH of a bent's launch (R69). -/
def scratchSize (s : State) (ticket : Nat) : Nat :=
  match (Tab.get? s.bents ticket).bind (launchOf s) with
  | some l => l.hdr.scratch
  | none => 0

/-- Blocks of a bent: e_1 (R36). -/
def blockCount (s : State) (ticket : Nat) : Nat :=
  match (Tab.get? s.bents ticket).bind (launchOf s) with
  | some l => l.hdr.extents.getD 1 1
  | none => 0

def scratchRead (s : State) (ticket block off n : Nat) : List Byte :=
  match blockOf s ticket block with
  | some b => Memory.bytes b.scratch off n
  | none => (upFrom 0 n).map fun _ => 0

def scratchWrite (s : State) (ticket block off : Nat) (bs : List Byte) : State :=
  { s with bents := Tab.modify s.bents ticket fun t =>
      { t with blocks := Tab.modify t.blocks block fun b => { b with scratch := Memory.writeBytes b.scratch off bs } } }

/-! ### Copy commands -/

/-- Who a command works for. -/
structure Client where
  core : Nat
  bay : Nat
  enclave : Nat
  ctxt : Nat
  ticket : Nat
  block : Nat
  deriving DecidableEq, Repr

/-- A read through a decoded view at the homes; demand-zero scale or codebook pages are filled on the way (R147, R220). -/
def copyView (c : Client) (p : Page) (off n : Nat) : Nat → State → State × Got (List Byte)
  | 0, s => (s, viewBytes s c.core c.enclave c.ctxt p off n)
  | fuel + 1, s =>
    match viewBytes s c.core c.enclave c.ctxt p off n with
    | .fill v => copyView c p off n fuel (demandZero (fillTlb s (columnPart s c.core c.bay) c.core c.enclave v) c.enclave v)
    | g =>
      let s := fillViewTlb s (columnPart s c.core c.bay) c.core c.enclave c.ctxt p off n
      ((viewLines s c.core c.enclave c.ctxt p off n).eraseDups.foldl (fun s l => touchL2 s (columnPart s c.core c.bay) l false) s, g)

/-- A piece of global memory within one 16-byte unit, read at the homes (R203). -/
def copyPiece (s : State) (c : Client) (va n : Nat) : State × Got (List Byte) :=
  let (s, g) := touchFor s (columnPart s c.core c.bay) c.core c.enclave .read va
  match g with
  | .ok p =>
    if p.device then (s, .trap (kept .pageProt va))
    else if p.fmt = 0 then (touchL2 s (columnPart s c.core c.bay) (lineOf (p.at va)) false, readHome s (p.at va) n)
    else copyView c p (va - p.va) n 40 s
  | .trap k => (s, .trap k)
  | .fill v => (s, .fill v)
  | .poison l => (s, .poison l)

/-- A command's outcome: the state after it, the fault it stopped on, and a poisoned line it met (R203-R205, R287). -/
structure CopyResult where
  state : State
  fault : Option Kept := none
  poison : Option Nat := none

/-- A piece written to global memory at its home; `whole` says that the command covers its line. A line of which the command has written
every byte loses its side-band, and its page's dirty map marks it (R141, R203, R334). A poisoned line of its walk stops the command
(R287). -/
def copyPut (s : State) (c : Client) (whole : Bool) (first va : Nat) (bs : List Byte) : CopyResult :=
  let a := wrap 64 (va : Nat)
  let (s, g) := touchFor s (columnPart s c.core c.bay) c.core c.enclave .write a
  match g with
  | .ok p =>
    if p.device then { state := s, fault := some (kept .pageProt a) }
    else
      let s := (if whole then writeOver else writeHome) s (columnPart s c.core c.bay) (p.at a) bs
      { state := if (va + bs.length) % 128 = 0 && first + 128 ≤ va + bs.length then markDirty (clearSide s (lineOf (p.at a))) (lineOf (p.at a)) else s }
  | .trap k => { state := s, fault := some k }
  | .poison l => { state := s, poison := some l }
  | .fill _ => { state := s }

/-- Fields of a remote scratchpad address (R187). -/
def remoteRank (a : Nat) : Nat := bits a 31 24
def remoteOff (a : Nat) : Nat := bits a 16 0

/-- A read's bytes put where the command takes them; a fault or a poisoned line stops it. -/
def CopyResult.ofRead (r : State × Got (List Byte)) (f : State → List Byte → CopyResult) : CopyResult :=
  match r with
  | (s, .ok bs) => f s bs
  | (s, .trap k) => { state := s, fault := some k }
  | (s, .poison l) => { state := s, poison := some l }
  | (s, .fill _) => { state := s }

/-- Ranks that a command writes: its own, the one of its address, or those of its mask (R201, R204). -/
def CopyCmd.targets (c : Client) (k : CopyCmd) : List Nat :=
  match k.what with
  | .cpy .glToSp (some m) | .cpy .spToRm (some m) => (upFrom 0 64).filter fun r => m.getLsbD r
  | .cpy .spToRm none => [remoteRank k.dst.toNat]
  | _ => [c.block]

/-- One piece of a command moved: n bytes at an offset, within one unit of 16 or one gathered element (R201-R205). Every byte from
the offset `since` to this one has been moved. -/
def copyStep (s : State) (c : Client) (k : CopyCmd) (since off n : Nat) : CopyResult :=
  let dst := k.dst.toNat
  let src := k.src.toNat
  let toRanks (s : State) (at' : Nat) (bs : List Byte) : CopyResult :=
    { state := (k.targets c).foldl (fun s r => scratchWrite s c.ticket r at' bs) s }
  match k.what with
  | .cpy .glToSp _ => .ofRead (copyPiece s c (wrap 64 (src + off : Nat)) n) fun s bs => toRanks s (dst + off) bs
  | .cpy .spToRm mask => toRanks s ((if mask.isSome then dst else remoteOff dst) + off) (scratchRead s c.ticket c.block (src + off) n)
  | .cpy .spToGl _ =>
    let line := (dst + off) / 128 * 128
    copyPut s c (dst ≤ line && line + 128 ≤ dst + k.len) (dst + since) (dst + off) (scratchRead s c.ticket c.block (src + off) n)
  | .cpy .rmToSp _ => toRanks s (dst + off) (scratchRead s c.ticket (remoteRank src) (remoteOff src + off) n)
  | .gather size list =>
    let j := ofBytes (scratchRead s c.ticket c.block (list + 4 * (off / size)) 4)
    .ofRead (copyPiece s c (wrap 64 (src + j * size + off % size : Nat)) n) fun s bs => toRanks s (dst + off) bs

/-- Bytes a command moves from each source. -/
def CopyCmd.total (k : CopyCmd) : Nat :=
  match k.what with
  | .cpy .. => k.len
  | .gather size _ => k.len * size

/-- Largest piece that one read or write of a command moves. -/
def CopyCmd.unit (k : CopyCmd) : Nat :=
  match k.what with
  | .cpy .. => 16
  | .gather size _ => size

/-- A command moved on from its progress up to an offset, piece by piece; a fault stops it (R203). -/
def copyUpTo (c : Client) (k : CopyCmd) (stop : Nat) : Nat → Nat → State → CopyResult
  | 0, _, s => { state := s }
  | fuel + 1, off, s =>
    if stop ≤ off then { state := s }
    else
      let n := min (k.unit - off % k.unit) (stop - off)
      let r := copyStep s c k 0 off n
      if r.fault.isSome || r.poison.isSome then r else copyUpTo c k stop fuel (off + n) r.state

/-- Where a command's next move may stop: any byte, but not within a decoded element, which is read as one value (R149, R203). -/
def copyStop (s : State) (c : Client) (k : CopyCmd) (n : Nat) : Nat :=
  let stop := min k.total (k.moved + n)
  let odd := k.src.toNat + stop
  let decoded := match k.what with
    | .cpy .glToSp _ | .gather _ _ => match translate s c.core c.enclave .read (match k.what with
        | .gather size list => wrap 64 (k.src.toNat + ofBytes (scratchRead s c.ticket c.block (list + 4 * (stop / size)) 4) * size : Nat)
        | _ => wrap 64 (odd : Nat)) with
      | .ok p => p.fmt != 0
      | _ => false
    | _ => false
  if decoded then stop + stop % 2 else stop

/-- A command moved on by about n bytes (R201-R205). -/
def runCopy (s : State) (c : Client) (k : CopyCmd) (n : Nat) : CopyResult :=
  copyUpTo c k (copyStop s c k n) k.total k.moved s

/-- Addresses at which the pages of a run of bytes begin, the run's first among them, with the bytes that follow in the page. -/
def pagePieces : Nat → Nat → Nat → List (Nat × Nat)
  | 0, _, _ => []
  | fuel + 1, va, n =>
    let m := 65536 - va % 65536
    if n = 0 then [] else (wrap 64 (va : Nat), min n m) :: pagePieces fuel (va + m) (n - m)

/-- Frames of global memory whose translations the bytes of a command from its progress up to an offset use, those of a decoded view's
scales and codebook among them (R216). -/
def copyFrames (s : State) (c : Client) (k : CopyCmd) (stop : Nat) : List Nat :=
  let (from', n) := (k.moved, stop - k.moved)
  let pieces := match k.what with
    | .cpy .glToSp _ => pagePieces (n / 65536 + 2) (k.src.toNat + from') n
    | .cpy .spToGl _ => pagePieces (n / 65536 + 2) (k.dst.toNat + from') n
    | .gather size list => (upFrom (from' / size) ((stop + size - 1) / size - from' / size)).map fun i =>
        (wrap 64 (k.src.toNat + ofBytes (scratchRead s c.ticket c.block (list + 4 * i) 4) * size : Nat), size)
    | _ => []
  (pieces.flatMap fun (va, n) => match translate s c.core c.enclave .read va with
    | .ok p =>
      if p.device then []
      else if p.fmt = 0 then [frameOf (p.at va)]
      else (viewLines s c.core c.enclave c.ctxt p (va - p.va) n).map (· / 512)
    | _ => []).eraseDups

/-- Bytes a command writes, each multicast target counted (R207). -/
def CopyCmd.bytes (k : CopyCmd) : Nat :=
  match k.what with
  | .cpy _ (some m) => k.len * ((upFrom 0 64).filter fun r => m.getLsbD r).length
  | _ => k.total

/-- Those still unwritten (R207). -/
def CopyCmd.unwritten (k : CopyCmd) : Nat :=
  match k.what with
  | .cpy _ (some m) => (k.len - k.moved) * ((upFrom 0 64).filter fun r => m.getLsbD r).length
  | _ => k.total - k.moved

end Sys2Proof.Machine
end

