-- ==== Sys2Proof/Machine/Bents.lean ====
section
/-! DEFINITION. Threads in their blocks, bents and launches: barriers, meet release, ends, halts and error records (R44,
R48, R182, R287-R289, R293, R371, R486). -/

namespace Sys2Proof.Machine

/-! ### Lookups -/

def threadOf (s : State) (t : Nat) : Option Thread := Tab.get? s.threads t
def setThread (s : State) (t : Nat) (v : Thread) : State := { s with threads := Tab.set s.threads t v }
def mapThreads (s : State) (f : Nat → Thread → Thread) : State := { s with threads := s.threads.map fun (k, v) => (k, f k v) }
def bentOf (s : State) (ticket : Nat) : Option Bent := Tab.get? s.bents ticket
def launchOfBent (s : State) (ticket : Nat) : Option Launch := (bentOf s ticket).bind (launchOf s)
def headerOf (s : State) (v : Thread) : Option Header := (launchOfBent s v.bent).map (·.hdr)
/-- The enclave a thread runs for. -/
def threadEnclave (s : State) (v : Thread) : Nat := ((launchOfBent s v.bent).map (·.enclave)).getD 0

/-- Total of the bents of a launch: e_2·e_3·e_4·e_5 (R36). -/
def Header.bentCount (h : Header) : Nat := h.extents.getD 2 1 * h.extents.getD 3 1 * h.extents.getD 4 1 * h.extents.getD 5 1

/-- Bit offset of a field of `wid` (R35). -/
def fieldOffset (widths : List Nat) (i : Nat) : Nat := (widths.take i).foldl (· + ·) 0

/-- `wid` of a thread; a matrix thread's has fields 0 and 1 zero (R35, R161). -/
def widOf (s : State) (v : Thread) : Nat :=
  let ws := ((headerOf s v).map (·.widths)).getD []
  (upFrom 0 6).foldl (fun n i => n + (if v.control && i < 2 then 0 else v.fields.getD i 0) * 2 ^ fieldOffset ws i) 0

/-- `tix` (R36). -/
def Thread.tix (v : Thread) : Nat := v.fields.getD 0 0
/-- Team of a thread in its block, and its position (R40). -/
def Thread.team (v : Thread) : Nat := v.tix / 64
def Thread.tpos (v : Thread) : Nat := v.tix % 64

/-- Vector threads of a block. -/
def inBlock (ticket block : Nat) (v : Thread) : Bool := !v.control && v.bent == ticket && v.block == block
/-- Vector threads of one team. -/
def sameTeam (a b : Thread) : Bool := inBlock a.bent a.block b && a.team == b.team

/-- The client that a thread's copy commands work for. -/
def clientOf (s : State) (v : Thread) : Client :=
  { core := threadCore s v, bay := threadBay s v, enclave := threadEnclave s v,
    ctxt := ((headerOf s v).map (·.ctxt.toNat)).getD 0, ticket := v.bent, block := v.block }

/-- The scope checker's name of the unit a thread runs on (R244). -/
def unitOf (s : State) (v : Thread) : UnitId :=
  if v.control then .control (((bentOf s v.bent).bind (·.control)).getD 0) else .core (threadCore s v)

/-- Partition whose fill mask a thread's accesses use (R327, R330). -/
def partOf (s : State) (v : Thread) : Nat :=
  if v.control then quarterPart s (((bentOf s v.bent).bind (·.control)).getD 0) else columnPart s (threadCore s v) (threadBay s v)

/-- First touch of a demand-zero page by a thread, whose partition the walk is charged to (R220, R331). -/
def fillPage (s : State) (v : Thread) (va : Nat) : State :=
  demandZero (fillTlb s (partOf s v) (threadCore s v) (threadEnclave s v) va) (threadEnclave s v) va

/-! ### Barriers and meet addresses -/

/-- Length of the extended forms without a literal (R101). -/
def extLen : Nat := 12

/-- Threads chosen by a test become runnable after the instruction they are parked at, with its release behind them, in a new phase. -/
def resumeAll (s : State) (sel : Thread → Bool) : State :=
  s.threads.foldl (fun s (k, v) =>
    if sel v then
      let (s, p) := boundary s (threadCore s v)
      setThread s k { v with status := .running, pc := v.pc + BitVec.ofNat 64 extLen, phaseStart := p, late := [] }
    else s) s

/-- Whether a thread is parked at BAR. -/
def atBar (v : Thread) : Bool := match v.status with
  | .bar _ => true
  | _ => false

/-- A block's barrier completes when every thread of it that has not exited has arrived (R371). -/
def barComplete (s : State) (ticket block : Nat) : State :=
  let live := (Tab.values s.threads).filter fun v => inBlock ticket block v && v.status != .exited
  if !live.isEmpty && live.all atBar then resumeAll s fun v => inBlock ticket block v && atBar v
  else s

/-- Participants of a truss barrier of a level, seen from a thread (R485). -/
def tbarMember (s : State) (l : Level) (a v : Thread) : Bool :=
  !v.control && match l with
    | .bent => v.bent == a.bent
    | .pkg => ((bentOf s v.bent).map (·.launch)) == (bentOf s a.bent).map (·.launch)
    | .die => ((bentOf s v.bent).map (·.launch)) == (bentOf s a.bent).map (·.launch) &&
        dieOf (threadCore s v) == dieOf (threadCore s a)

/-- Whether a barrier of a level waits for a saved bent of its launch, whose threads take part though they are off the machine: it
can complete only when they have been restored with their arrivals (R485, R486). -/
def tbarWaits (s : State) (l : Level) (a : Thread) : Bool :=
  l != .bent && s.saved.any fun r => some r.bent.launch == (bentOf s a.bent).map (·.launch)

/-- A truss barrier completes when every participant that has not exited has arrived: the matching acquire, then every arrived
thread goes on in a new phase, in one step (R224, R486). -/
def tbarComplete (s : State) (l : Level) (a : Thread) : State :=
  let live := (Tab.values s.threads).filter fun v => tbarMember s l a v && v.status != .exited
  if !live.isEmpty && !tbarWaits s l a && live.all fun v => v.status == .tbar l then
    let cores := (live.map fun v => threadCore s v).eraseDups
    let s := if l = .bent then cores.foldl (fun s c => acquireAt s false c .cl) s
      else cores.foldl (fun s c => acquireAt s false c .dv) s
    resumeAll s fun v => tbarMember s l a v && v.status == .tbar l
  else s

/-- Every barrier a thread's end may complete (R371, R486). -/
def settleBarriers (s : State) (v : Thread) : State :=
  tbarComplete (tbarComplete (tbarComplete (barComplete s v.bent v.block) .bent v) .die v) .pkg v

/-- Release of the threads of a team held at an address, when every other live member that names it is held there
(R48). -/
def meetRelease (s : State) (a : Thread) : State :=
  let team := (Tab.values s.threads).filter fun v => sameTeam a v && v.status != .exited
  let ready := ((team.filter (·.status == .held)).map (·.pc)).filter fun A =>
    team.all fun v => v.meet != some A || (v.status == .held && v.pc == A)
  mapThreads s fun _ v =>
    if sameTeam a v && v.status == .held && ready.contains v.pc then { v with status := .running, meet := none } else v

/-! ### Error records -/

/-- A core number that holds no translations: accesses of the dispatcher and the root walk afresh. -/
def noCore : Nat := 100000

/-- UNIT of an error record (R289). -/
def unitCode (kind die cluster core bay : Nat) : Nat := pack [(2, bay), (4, core), (4, cluster), (2, die), (2, kind)]

/-- The page of an error queue's slot under checks 1 to 6 of R214 as a write: the seventh is not made, so a slot in a decoded view
is a slot of its frame (R288). -/
def slotPage (s : State) (enclave va : Nat) : State × Got Page :=
  match touch s noCore enclave .write va with
  | (s', .trap k) => if k.code = .fmtStore then touch s' noCore enclave .read va else (s', .trap k)
  | r => r

/-- An error record written to an enclave's queue, or dropped (R288, R289). That the management ports' count of an enclave's records of a
class includes the dropped ones is the model's choice (log entry 61). -/
def errorRecord (s : State) (enclave cls code queue ticket pc info unit : Nat) : State :=
  match enclaveOf s enclave with
  | none => s
  | some e =>
    let s := { s with mgmt := { s.mgmt with counts := Tab.update s.mgmt.counts (enclave * 256 + cls) 0 (· + 1) } }
    let q := e.eq
    let va := q.ring * 4096 + 64 * (q.tail % 2 ^ q.logd)
    let drop := setEnclave s enclave fun e => { e with eq := { e.eq with lost := min 0xFFFF (e.eq.lost + 1) } }
    if !q.en || 2 ^ q.logd ≤ used q.tail q.head then drop
    else
      match slotPage s enclave va with
      | (s', .ok p) =>
        if p.device then drop
        else
          let rec0 := pack [(8, cls), (8, code), (16, queue), (32, ticket)]
          let bs := toBytes 8 rec0 ++ toBytes 8 pc ++ toBytes 8 info ++ toBytes 4 unit ++ toBytes 4 q.seq ++ toBytes 32 0
          setEnclave (writeHome s' 0 (p.at va) bs) enclave fun e =>
            { e with eq := { e.eq with tail := (q.tail + 1) % 65536, seq := (q.seq + 1) % 2 ^ 32 } }
      | _ => drop

/-! ### Ends -/

/-- A quarter that nothing has bound (R159). -/
def Quarter.reset : Quarter :=
  { bound := none, active := none, ops := [], issued := none, feed := [], pushes := [], order := false, pairFailed := false,
    errs := [], more := 0, deferred := none, dead := false, accepted := 0 }

def quarterOf (s : State) (q : Nat) : Quarter := Tab.getD s.quarters q Quarter.reset
def setQuarter (s : State) (q : Nat) (f : Quarter → Quarter) : State :=
  { s with quarters := Tab.set s.quarters q (f (quarterOf s q)) }

/-- Whether a quarter has nothing queued, streaming or on its way to a home (R176). -/
def quarterIdle (s : State) (q : Nat) : Bool :=
  (quarterOf s q).ops.isEmpty && !(s.segments.any fun g => g.quarter == q)

/-- A bit of a tile's status word set, under a partition's fill mask (R174, R182). -/
def setTileStatus (s : State) (part desc bit' : Nat) : State :=
  let w := Memory.num s.mem (desc * 128) 4
  writeHome s part (desc * 128) (toBytes 4 (w ||| 2 ^ bit'))

/-- Tiles named by the incomplete `.pair` MROWs of a quarter. -/
def pairTiles (ops : List MatOp) (segs : List Segment) : List Nat :=
  ((ops.filter fun o => o.kind == .rows && o.pair).map (·.desc) ++ (segs.filter (·.pair)).map (·.desc)).eraseDups

/-- Tiles cancelled on behalf of a bent of a launch: poisoned, nothing of them merges any more, and PAIR_FAILED is set in every
quarter that names them, in some others and in the partner's. A bent that has no quarter, one that is saved included, finds it on binding
one (R182, R293). The words of the rows that a cancelled MROW had still to take stay in the feed queue, which is the model's choice (log
entry 62). -/
def cancelTiles (s : State) (tiles : List Nat) (launch order part : Nat) (also : List Nat) : State :=
  let sides := (s.quarters.filter fun (k, x) =>
    x.ops.any (fun o => o.pair && tiles.contains o.desc) || s.segments.any fun g => g.quarter == k && g.pair && tiles.contains g.desc).map (·.1)
  let other (x : Bent) : Bool := x.launch == launch && x.order == (if order % 2 = 0 then order + 1 else order - 1)
  let partner := ((Tab.values s.bents).filter other).filterMap (·.control)
  let names (k : Option (Quarter × List Segment)) : Bool := k.any fun (k, gs) => (pairTiles k.ops gs).any tiles.contains
  if tiles.isEmpty then s
  else
    let s := tiles.foldl (fun s d => setTileStatus s part d 0) s
    let s := { s with
      cancelled := (tiles ++ s.cancelled).eraseDups
      segments := s.segments.filter fun g => !tiles.contains g.desc
      bents := s.bents.map fun (t, x) => (t, if x.control.isNone && (other x || names x.restore) then { x with pairCut := true } else x)
      saved := s.saved.map fun r => if other r.bent || names (r.quarter.map fun k => (k, r.segs)) then { r with bent := { r.bent with pairCut := true } } else r
      quarters := s.quarters.map fun (k, x) => (k, { x with ops := x.ops.filter fun o => !(o.pair && tiles.contains o.desc) }) }
    (also ++ sides ++ partner).eraseDups.foldl (fun s k => setQuarter s k fun x => { x with pairFailed := true }) s

/-- Every tile named by an incomplete `.pair` MROW of a quarter cancelled (R182). -/
def pairCancel (s : State) (q : Nat) : State :=
  match (quarterOf s q).bound.bind (bentOf s) with
  | some b => cancelTiles s (pairTiles (quarterOf s q).ops (s.segments.filter (·.quarter == q))) b.launch b.order (quarterPart s q) [q]
  | none => s

/-- A quarter unbound: what it held is gone, pushes on their way with it; its count of rows accepted is the unit's own (R164, R171,
R357). -/
def unbindQuarter (s : State) (q : Nat) : State :=
  (quarterOf s q).pushes.foldl (fun s p => { s with threads := Tab.modify s.threads p.thread fun v => { v with tl := v.tl - 1 } })
    (setQuarter s q fun k => { Quarter.reset with accepted := k.accepted })

/-- A bent taken off the machine: its threads, blocks, hands and quarter; its launch counts it ended (R44). The core of a block that a halt
ends releases at `.dv` for it first (R255). That a returning TNX still in
flight when its bent is halted is kept, and performed, is the model's choice (R261; log entry 61). -/
def removeBent (s : State) (ticket : Nat) (halted : Bool) : State :=
  match bentOf s ticket with
  | none => s
  | some b =>
    let s := (Tab.values b.blocks).foldl (fun s k => if k.ended then s else releaseHome s k.core) s
    let s := match b.control with
      | some q => unbindQuarter s q
      | none => s
    { s with
      threads := s.threads.filter fun e => e.2.bent != ticket
      bents := Tab.erase s.bents ticket
      launches := Tab.modify s.launches b.launch fun l => { l with ended := l.ended + 1, halted := l.halted || halted } }

/-- The bytes that a command has still to move, each moved or not by a free choice; a fault ends it. All bytes from `since` up to
here have been moved (R141, R203, R293). -/
def copySome (c : Client) (k : CopyCmd) : Nat → Nat → Nat → State → State
  | 0, _, _, s => s
  | fuel + 1, since, off, s =>
    if k.total ≤ off then s
    else
      let n := copyStop s c { k with moved := off } 1 - off
      let s := { s with draws := s.draws + 1 }
      if Config.choose s.draws then
        let r := copyStep s c k since off n
        if r.fault.isSome || r.poison.isSome then r.state else copySome c k fuel since (off + n) r.state
      else copySome c k fuel (off + n) (off + n) s

/-- A copy command that a halted bent leaves behind: one not begun is lost, and each byte of a begun one holds its old or its new
value (R203, R293). -/
def abandonCopy (s : State) (c : Client) (k : CopyCmd) : State :=
  if k.state = .begun then copySome c k k.total 0 k.moved s else s

/-- UNIT of a matrix control core (R289). -/
def quarterUnit (q : Nat) : Nat := unitCode 1 (q / 40) (q / 4 % 10) (q % 4) 0

/-- Truss barriers of a launch that a bent's end may complete (R486). -/
def settleLaunch (s : State) (launch : Nat) : State :=
  s.threads.foldl (fun s' (_, v) => match v.status with
    | .tbar l => if ((bentOf s v.bent).map (·.launch)) == some launch then tbarComplete s' l v else s'
    | _ => s') s

/-- The cancel of a bent's pair: of the tiles its quarter names, or those in the state a resumed bent brings to the quarter it still
waits for (R182, R184, R293). -/
def bentCancel (s : State) (b : Bent) (l : Launch) : State :=
  match b.control, b.restore with
  | some q, _ => pairCancel s q
  | none, some (k, gs) => cancelTiles s (pairTiles k.ops gs) b.launch b.order l.hdr.part []
  | none, none => s

/-- A fatal error halts a bent (R287, R293): its pair is cancelled, its record is written, and it ends at once. -/
def haltBentAs (s : State) (v : Thread) (dest cls code pc info unit : Nat) : State :=
  match bentOf s v.bent, launchOfBent s v.bent with
  | some b, some l =>
    let s := bentCancel s b l
    let s := errorRecord s dest cls code l.queue v.bent pc info unit
    let mine := s.cmds.filter fun (_, k) => (threadOf s k.thread).any fun t => t.bent == v.bent
    let s := mine.foldl (fun s (_, k) => match threadOf s k.thread with
      | some t => abandonCopy s (clientOf s t) k
      | none => s) s
    let s := { s with cmds := s.cmds.filter fun (k, _) => !(mine.any (·.1 == k)), segments := match b.control with
      | some q => s.segments.filter fun g => g.quarter != q
      | none => s.segments }
    settleLaunch (removeBent s v.bent true) b.launch
  | _, _ => s

/-- A fatal error of a thread; the record holds the thread's `tpc` register, 0 before its first trap, and names the unit it runs on
(R289; log entry 56). -/
def haltBentTo (s : State) (v : Thread) (dest cls code info : Nat) : State :=
  let core := threadCore s v
  let unit := match v.control, (bentOf s v.bent).bind (·.control) with
    | true, some q => quarterUnit q
    | _, _ => unitCode 0 (dieOf core) (clusterOf core) (core % 16) (threadBay s v)
  haltBentAs s v dest cls code v.tpc.toNat info unit

/-- A halt whose record goes to the bent's own enclave. -/
def haltBent (s : State) (v : Thread) (cls code info : Nat) : State :=
  haltBentTo s v (threadEnclave s v) cls code info

/-- A bent ends when all its blocks have ended, its matrix thread has stopped and its quarter's operations are complete, those
that a resumed bent brings to the quarter it still waits for included. The matrix thread stops at an instruction boundary, after the second
half of a 128-bit access under way (R44, R164, R184, R228). -/
def finishBent (s : State) (ticket : Nat) : State :=
  match bentOf s ticket with
  | none => s
  | some b =>
    let halfway := (Tab.values s.threads).any fun v => v.control && v.bent == ticket && v.hctx.half.isSome
    if (Tab.values b.blocks).all (·.ended) && !halfway then
      let s := mapThreads s fun _ v => if v.control && v.bent == ticket then { v with status := .exited } else v
      match b.control with
      | some q => if quarterIdle s q then removeBent s ticket false else s
      | none => if b.restore.any fun r => !r.1.ops.isEmpty || !r.2.isEmpty then s else removeBent s ticket false
    else s

/-- A block ends when its last thread has exited: the core releases at `.dv` for it and its resources return (R44, R78,
R255). -/
def finishBlock (s : State) (ticket block : Nat) : State :=
  if (Tab.values s.threads).any fun v => inBlock ticket block v && v.status != .exited then s
  else match blockOf s ticket block with
    | none => s
    | some b =>
      if b.ended then s
      else
        let s := releaseHome s b.core
        let s := { s with
          bents := Tab.modify s.bents ticket fun t =>
            { t with blocks := Tab.modify t.blocks block fun b => { b with ended := true, scratch := [], banks := [] } }
          threads := s.threads.filter fun e => !inBlock ticket block e.2 }
        finishBent s ticket

/-- A line found uncorrectable or forged, which reads as poisoned from then on. -/
def poisonLine (s : State) (line code : Nat) : State :=
  { s with side := Tab.set s.side line { sideOf s line with poison := code, flips := [], forged := false } }

/-- An uncorrectable or forged line halts its reader's bent, tells the frame's owner and poisons the line (R286, R287);
with no reader the record is a latent one. The record's UNIT has kind 2 and the die of the slice, and bits 9:0 zero, which is the model's
choice (R289; log entry 62). -/
def integrityHalt (s : State) (consumer : Option Thread) (line : Nat) (mac : Bool) : State :=
  let code := if mac then 0x29 else 0x28
  let s := poisonLine s line code
  let owner := (potOf s (line * 128)).owner
  let slice := homeSlice (line * 128)
  match consumer with
  | none => errorRecord s owner 0x06 code 0xFFFF 0 0 (line * 128) (unitCode 2 (sliceDie slice) 0 0 0)
  | some v => haltBentTo s v owner 0x01 code (line * 128)

end Sys2Proof.Machine
end

