-- ==== Sys2Proof/Machine/Ops.lean ====
section
/-! DEFINITION. What every instruction shares: the executing context, registers, queues, predication, taking a trap and
returning from one, hand faults, and the fetch of instruction words (R13, R38, R58-R60, R93-R103, R123, R276-R285). -/

namespace Sys2Proof.Machine

abbrev Result := Host.Outcome State Fault Refusal

/-! ### The executing context -/

/-- The state a context executes with. A thread, hand 0 included, is itself; another hand is its foreman with the hand's own
PC, h registers, queues, loads and place (R58, R424). -/
def viewOf (s : State) : Who → Option Thread
  | .thread t => threadOf s t
  | .hand t h =>
    match threadOf s t with
    | none => none
    | some v => match v.raise with
      | none => none
      | some r => match r.hands.find? fun x => x.ctx.no == h with
        | none => none
        | some x => some { v with
            pc := x.pc, hctx := x.ctx, queues := x.queues, loads := x.loads, handMode := true,
            trapBank := false, phaseStart := x.ctx.phase, status := .running, fetched := [], tnx := none, sysc := none,
            meet := none, slice := x.slice, lane := x.lane, slot := x.slot, age := x.age }
  | .hart _ => none

/-- A hand's part of its view kept in its foreman's record; flags and the record's sets are the foreman's (R58). -/
def putHand (f v : Thread) (h : Nat) : Thread :=
  { f with fpsr := v.fpsr,
           raise := v.raise.map fun r => { r with hands := r.hands.map fun x =>
             if x.ctx.no == h then { x with ctx := { v.hctx with phase := v.phaseStart }, pc := v.pc, queues := v.queues, loads := v.loads } else x } }

/-- A view put back. -/
def putView (s : State) (w : Who) (v : Thread) : State :=
  match w with
  | .thread t => setThread s t v
  | .hand t h => match threadOf s t with
    | some f => setThread s t (putHand f v h)
    | none => s
  | .hart _ => s

/-! ### Registers -/

def vzero : Nat := 1023

/-- One 32-bit register of v0-v767 or h0-h15 (R93). -/
def regVal (v : Thread) (n : Nat) : Word :=
  if n < 768 then Tab.getD v.regs n 0 else if 784 ≤ n ∧ n < 800 then Tab.getD v.hctx.h (n - 784) 0 else 0

/-- w consecutive registers as one number, the lowest first (R3, R94); vz reads zero. -/
def regNum (v : Thread) (n w : Nat) : Nat :=
  if n = vzero then 0 else ((upFrom n w).map fun k => (regVal v k).toNat).foldr (fun x r => x + 2 ^ 32 * r) 0

/-- One register written; other fields are discarded. -/
def setReg (v : Thread) (n : Nat) (x : Word) : Thread :=
  if n < 768 then { v with regs := Tab.set v.regs n x }
  else if 784 ≤ n ∧ n < 800 then { v with hctx := { v.hctx with h := Tab.set v.hctx.h (n - 784) x } }
  else v

/-- A number written to w consecutive registers (R94); a write to vz is discarded. -/
def setRegs (v : Thread) (n : Nat) : Nat → Nat → Thread
  | 0, _ => v
  | w + 1, x => if n = vzero then v else setRegs (setReg v n (BitVec.ofNat 32 x)) (n + 1) w (x / 2 ^ 32)

/-- The queue of the current bank (R100). -/
def queueKey (v : Thread) (k : Nat) : Nat := (if v.trapBank then 4 else 0) + k

/-- The head of a result queue removed, when it has arrived (R93, R95). -/
def popQueue (v : Thread) (k : Nat) : Option (Word × Flags × Thread) :=
  match Tab.getD v.queues (queueKey v k) [] with
  | e :: rest => if e.arrived then some (e.value, e.flags, { v with queues := Tab.set v.queues (queueKey v k) rest }) else none
  | [] => none

/-- A source operand: a register of a width, an immediate, or none. -/
inductive Src where
  | reg (w : Nat) (f : Reg)
  | imm (x : Nat)
  | no
  deriving DecidableEq, Repr

/-- A source read, popping a queue; none while its queue is empty. -/
def readSrc (v : Thread) : Src → Option (Nat × Flags × Thread)
  | .reg w f =>
    if 768 ≤ f.toNat ∧ f.toNat < 772 then (popQueue v (f.toNat - 768)).map fun (x, fl, v) => (x.toNat, fl, v)
    else some (regNum v f.toNat w, 0, v)
  | .imm x => some (x, 0, v)
  | .no => some (0, 0, v)

/-- The three sources in the order va, vb, vc (R95), with the flags of the entries popped. -/
def readSrcs (v : Thread) (a b c : Src) : Option (Nat × Nat × Nat × Flags × Thread) :=
  match readSrc v a with
  | none => none
  | some (x, f, v) => match readSrc v b with
    | none => none
    | some (y, g, v) => match readSrc v c with
      | none => none
      | some (z, h, v) => some (x, y, z, f ||| g ||| h, v)

/-- The thread's bit of a mask; m0 reads all-ones (R96). -/
def maskBit (v : Thread) (m : Nat) : Bool := m == 0 || v.masks.getLsbD m

/-- The thread's bit of a mask set. -/
def setMask (v : Thread) (m : Nat) (b : Bool) : Thread :=
  { v with masks := if b then v.masks ||| BitVec.twoPow 16 m else v.masks &&& ~~~BitVec.twoPow 16 m }

end Sys2Proof.Machine

namespace Sys2Proof

/-! ### What an instruction's fields say -/

/-- Bytes of an instruction (R101). -/
def Instr.len (i : Instr) : Nat := 4 * (encode i).length

/-- First word of an instruction, the `tinfo` of ILLEGAL_INSN (R280). -/
def Instr.word0 (i : Instr) : Word := (encode i).headD 0

/-- Predicate mask, inversion and zeroing. -/
def Instr.pred (i : Instr) : Nat × Bool × Bool :=
  let ofPfx (p : Option Pfx) : Nat × Bool × Bool := match p with
    | some p => (p.mask.toNat, false, p.z)
    | none => (0, false, false)
  match i with
  | .iaddB3 x | .isubB3 x | .imulB3 x | .iminB3 x | .imaxB3 x | .andB3 x | .orB3 x | .xorB3 x | .shlB3 x | .shrB3 x
  | .sarB3 x | .movB3 x | .faddB3 x | .fsubB3 x | .fmulB3 x | .fminB3 x | .fmaxB3 x | .ffmaB3 x => ofPfx x.pfx
  | .iaddBI x | .andBI x | .orBI x | .xorBI x | .shlBI x | .shrBI x | .sarBI x | .ldB32 x | .ldB64 x | .stB32 x
  | .stB64 x | .ldsB32 x | .stsB32 x | .ldsB64 x | .stsB64 x => ofPfx x.pfx
  | .moviB x => ofPfx x.pfx
  | .braBB m inv _ => (m.toNat, inv, false)
  | i => match i.form? with
    | some (_, x) => (x.mask.toNat, x.inv, x.z)
    | none => (0, false, false)

/-- The destination field of an instruction and how many registers it writes, none where it writes none (R277). -/
def Instr.dest (i : Instr) : Option (Nat × Reg) :=
  match i.operands.head? with
  | some (.dst w _, f) | some (.run w _, f) => some (w, f)
  | some (.queue, f) | some (.hand, f) => some (1, f)
  | _ => none

/-- The mask an instruction writes. -/
def Instr.maskDest : Instr → Option Nat
  | .icmp _ true md _ _ | .fcmp _ true md _ _ => some md.toNat
  | .mlog _ md _ _ _ => some md.toNat
  | .mmov true m _ => some m.toNat
  | _ => none

/-- `tdst` of an instruction (R277). -/
def Instr.tdst (i : Instr) : Word :=
  match i.dest with
  | some (w, f) => BitVec.ofNat 32 (f.toNat + (w - 1) * 2 ^ 16)
  | none => Machine.tdstNone

/-- Instructions of the matrix class (R121). -/
def Instr.matrix : Instr → Bool
  | .mdesc .. | .mldb .. | .mrow .. | .mzero .. | .msync .. | .mstat .. => true
  | _ => false

/-- Instructions a matrix control core executes (R162). -/
def Instr.onControl : Instr → Bool
  | .iaddB3 .. | .isubB3 .. | .imulB3 .. | .iminB3 .. | .imaxB3 .. | .andB3 .. | .orB3 .. | .xorB3 .. | .shlB3 ..
  | .shrB3 .. | .sarB3 .. | .movB3 .. | .iaddBI .. | .andBI .. | .orBI .. | .xorBI .. | .shlBI .. | .shrBI .. | .sarBI ..
  | .moviB .. | .ldB32 .. | .ldB64 .. | .stB32 .. | .stB64 .. | .braBB .. | .callBB .. | .waitB .. | .nopB
  | .iaddExt .. | .isubExt .. | .imulExt .. | .imulhi .. | .imad .. | .iminExt .. | .imaxExt .. | .icmp .. | .andExt ..
  | .orExt .. | .xorExt .. | .not .. | .andn .. | .shlExt .. | .shrExt .. | .sarExt .. | .bfx .. | .bfi .. | .popc ..
  | .clz .. | .brev .. | .sel .. | .movExt .. | .moviExt .. | .lea .. | .mlog .. | .mmov ..
  | .ldExt .. | .stExt .. | .fence .. | .braExt .. | .jmp .. | .callExt .. | .calli .. | .ret .. | .exit .. | .nopExt ..
  | .waitExt .. | .sreg .. | .trap .. | .rte .. | .rteSkip .. | .rteSub .. | .brk .. => true
  | i => i.matrix

/-- Instructions admitted in hand mode (R59, R362 and the entries). -/
def Instr.inHand : Instr → Bool
  | .atom .. | .red .. | .tnx .. | .tnsync .. | .callBB .. | .callExt .. | .calli .. | .ret .. | .raise .. | .bar ..
  | .tbar .. | .waitc .. | .sysc .. | .launch .. | .exit .. | .cpy .. | .cpyg .. | .cbseal .. | .cbwait .. | .gopen ..
  | .gset .. | .shfl .. | .vote .. | .tred .. | .tscan .. | .str .. | .pgalloc .. | .pgfree .. | .plumb .. | .sleepc ..
  | .meet .. | .sset .. | .trap .. | .brk .. | .rte .. | .rteSkip .. | .rteSub .. | .qsave .. | .qrst .. => false
  | .qcnt q _ => q.toNat < 4
  | i => !i.matrix

/-- Instructions that run in hand mode alone (R417, R428). -/
def Instr.handOnly : Instr → Bool
  | .hred .. | .itnext .. | .itend .. => true
  | _ => false

/-- Whether an instruction may run in a context (R15, R123 step 3). -/
def Instr.admitted (i : Instr) (v : Machine.Thread) : Bool :=
  if v.control then i.onControl else if v.handMode then i.inHand else !i.matrix && !i.handOnly

end Sys2Proof

namespace Sys2Proof.Machine

/-- `predicated()` of R12. -/
def predicated (i : Instr) (v : Thread) : Bool := maskBit v i.pred.1 != i.pred.2.1

/-- Whether an operand's class is wrong in a context: h outside hand mode, queues on a control core, feed pushes in hand
mode, and v destinations in hand mode but for JOINH's (R58, R93, R424, R449). -/
def badClass (i : Instr) (v : Thread) (o : Role × Reg) : Bool :=
  let n := o.2.toNat
  let join := match i with
    | .joinh .. => true
    | _ => false
  (784 ≤ n && n < 800 && !v.handMode) || (768 ≤ n && n < 776 && v.control) || (772 ≤ n && n < 776 && v.handMode) ||
    (v.handMode && o.1.writes && n < 768 && !join)

/-- What a context that may not execute an instruction raises: ILLEGAL_INSN, and SOFT for TRAP and BRK in hand mode, whose
hand fault is recorded with code 0x3F (R123, R379, R487). -/
def notAdmitted (i : Instr) (v : Thread) : Kept :=
  match v.handMode, i with
  | true, .trap _ | true, .brk _ => kept .soft 0
  | _, _ => kept .illegalInsn i.word0.toNat

/-- The checks of R123 that depend on the running context: steps 3, 5 and 6. -/
def contextCheck (i : Instr) (v : Thread) : Option Kept :=
  let illegal := some (kept .illegalInsn i.word0.toNat)
  if !i.admitted v then some (notAdmitted i v)
  else if i.operands.any (badClass i v) || (v.handMode && i.maskDest.isSome) then illegal
  else
    match i.operands.find? fun o => o.2.toNat < 768 && v.n < o.2.toNat + o.1.width with
    | some o => some (kept .regRange o.2.toNat)
    | none => none

/-! ### Taking a trap, and the return from one -/

def TrapCode.num : TrapCode → Nat
  | .illegalInsn => 0x01 | .regRange => 0x02 | .brAlign => 0x03 | .retEmpty => 0x04 | .rstackSpill => 0x05
  | .rstackFill => 0x06 | .pageNotPresent => 0x10 | .pageProt => 0x11 | .potViolation => 0x12 | .fmtStore => 0x13
  | .misalign => 0x14 | .scopeMismatch => 0x15 | .bentTicket => 0x16 | .syscArgSpace => 0x17 | .promiseMissed => 0x18
  | .tenonFault => 0x19 | .tenonInvalid => 0x1A | .handFault => 0x1B | .matrixShape => 0x1C | .teamopMismatch => 0x1D
  | .freePageEmpty => 0x1E | .fmtScale => 0x1F | .fpInvalid => 0x20 | .fpDivzero => 0x21 | .fpOverflow => 0x22
  | .fpUnderflow => 0x23 | .fpInexact => 0x24 | .eccUncorr => 0x28 | .macFail => 0x29 | .soft => 0x3F

/-- A hand fault in a hand's view: the open iteration is abandoned and recorded, and the hand starts over (R59). -/
def handFault (v : Thread) (k : Kept) : Thread :=
  match v.raise with
  | none => v
  | some r =>
    { v with
      pc := r.entry
      hctx := { v.hctx with iter := none, buf := [], gather := 0, half := none }
      fetched := []
      raise := some { r with faulted := match v.hctx.iter with
        | some i => (i, k, v.pc) :: r.faulted
        | none => r.faulted } }

/-- How a trap is raised, beside its code and info. -/
structure TrapAt where
  pc : DWord
  len : Nat
  tdst : Word
  deferred : Bool := false
  ownOnly : Bool := false

/-- Positions of a thread's team that trapped at the same issue, by a trap of any code or kind, its own included; a deferred trap's own
mask is of its thread alone (R278). -/
def issueMask (s : State) (v : Thread) (a : TrapAt) : DWord :=
  if v.control then 1
  else
    let own := BitVec.twoPow 64 v.tpos
    if a.deferred || a.ownOnly then own
    else s.turn.foldl (fun m (t, pc) => match threadOf s t with
      | some u => if pc == a.pc && sameTeam u v then m ||| BitVec.twoPow 64 u.tpos else m
      | none => m) own

/-- The trap state a thread enters its handler with (R276, R277). Results owed to the normal bank arrive first (R100). -/
def enterTrap (v : Thread) (handler : DWord) (k : Kept) (a : TrapAt) (mask : DWord) : Thread :=
  { v with
    queues := v.queues.map fun (q, es) => (q, if q < 4 then es.map fun e => { e with arrived := true } else es)
    tcause := BitVec.ofNat 32 (k.code.num + if a.deferred then 256 else 0)
    tpc := a.pc, tinfo := k.info, tdst := a.tdst, tmask := mask, tlen := a.len
    trapActive := true, trapBank := true, fetched := [], pc := handler, status := .running,
    hctx := { v.hctx with half := none } }

/-- The walk whose outcome a trap is has filled the lines that it read (R214, R331). -/
def faultFills (s : State) (v : Thread) (k : Kept) (a : TrapAt) : State :=
  let (core, enclave) := (threadCore s v, threadEnclave s v)
  if !a.deferred && [Access.read, .write, .fetch].any fun x => translate s core enclave x k.info.toNat == .trap k then
    fillTlb s (partOf s v) core enclave k.info.toNat
  else s

/-- Taking a trap (R276): a hand fault in hand mode, a halt of the bent without a handler or within one, otherwise the
handler. A matrix thread's trap fails its pair (R182). -/
def takeTrap (s : State) (w : Who) (v : Thread) (k : Kept) (a : TrapAt) : State :=
  let s := faultFills s v k a
  if v.handMode then putView s w (handFault { v with pc := a.pc } k)
  else
    let s := match v.control, (bentOf s v.bent).bind (·.control) with
      | true, some q => pairCancel s q
      | _, _ => s
    match headerOf s v with
    | none => s
    | some h =>
      if h.handler = 0 then haltBent s v 0x02 k.code.num k.info.toNat
      else if v.trapActive then haltBent s v 0x03 k.code.num k.info.toNat
      else
        let mask := issueMask s v a
        match w with
        | .thread t =>
          let s := if a.ownOnly || v.control then s
            else mapThreads { s with turn := (t, a.pc) :: s.turn } fun k u =>
              if u.trapActive && !u.tcause.getLsbD 8 && u.tpc == a.pc && sameTeam u v && s.turn.contains (k, a.pc) then
                { u with tmask := u.tmask ||| BitVec.twoPow 64 v.tpos } else u
          setThread s t (enterTrap v h.handler k a mask)
        | _ => s

/-- The trap of an instruction at the thread's PC. -/
def trapHere (i : Instr) (v : Thread) : TrapAt := { pc := v.pc, len := i.len, tdst := i.tdst }

/-! ### Running one instruction -/

/-- What an instruction's own effect comes to: a state with everything done, a trap, or a stall in which it changes
nothing. -/
inductive Eff where
  | done (s : State)
  | trap (k : Kept)
  | deferred (k : Kept) (s : State)
  | stall

/-- The PC after an instruction. -/
def Thread.next (v : Thread) (i : Instr) : DWord := v.pc + BitVec.ofNat 64 i.len

/-- An instruction that is not predicated: zeroing writes zero to its destination, merge keeps it (R13). -/
def skipped (i : Instr) (v : Thread) : Thread :=
  let v := if i.pred.2.2 then
      let v := match i.dest, i.operands.head? with
        | some (w, f), some (.queue, _) => if f.toNat < 768 then setRegs v f.toNat w 0 else v
        | some (w, f), _ => setRegs v f.toNat w 0
        | none, _ => v
      match i.maskDest with
      | some m => setMask v m false
      | none => v
    else v
  { v with pc := v.next i }

/-- Whether a release or a fence must wait: an earlier load of the context has not returned its data (R232 step 1, R234). -/
def loadsOut (v : Thread) : Bool := !v.loads.isEmpty

/-- A thread after a release point, where `rel` says that it is one: its earlier stores have been performed at their site, and none comes
late there (R232). -/
def Thread.released (v : Thread) (rel : Bool) : Thread := if rel then { v with late := [] } else v

/-- The outcome of an effect. -/
def settleEff (i : Instr) (s : State) (w : Who) (v : Thread) : Eff → Result
  | .done s' => .next s'
  | .trap k => .next (takeTrap s w v k (trapHere i v))
  | .deferred k s' => .next (takeTrap s' w ((viewOf s' w).getD v) k { trapHere i v with deferred := true })
  | .stall => .next s

/-- An instruction in the executing context, whatever its predicate: context checks, then its effect. -/
def runAny (i : Instr) (s : State) (body : Who → Thread → Eff) : Result :=
  match s.cur with
  | none => .fault .noContext
  | some w => match viewOf s w with
    | none => .fault .noContext
    | some v => match contextCheck i v with
      | some k => .next (takeTrap s w v k (trapHere i v))
      | none => settleEff i s w v (body w v)

/-- An instruction in the executing context: context checks, predication, then its effect (R13, R123). -/
def run (i : Instr) (s : State) (body : Who → Thread → Eff) : Result :=
  runAny i s fun w v => if predicated i v then body w v else .done (putView s w (skipped i v))

/-- An effect on the thread alone; its PC moves past the instruction. -/
def local' (i : Instr) (s : State) (w : Who) (v : Thread) : Eff := .done (putView s w { v with pc := v.next i })

/-- An access tried again each time it meets a demand-zero page, which is filled first (R220): the state with the pages filled and
what the access comes to there. -/
def retry {α : Type} (v : Thread) : Nat → State → (State → Got α) → State × Got α
  | 0, s, g => (s, g s)
  | n + 1, s, g => match g s with
    | .fill va => retry v n (fillPage s v va) g
    | r => (s, r)

/-- Most demand-zero pages that one execution fills; one that meets more of them goes on at its next issue. -/
def retryPages : Nat := 64

/-- An access's outcome as an effect: what follows it, in the state with its demand-zero pages filled, a trap, or the halt of a
poisoned line's reader. -/
def onGot {α : Type} (s : State) (v : Thread) (g : State → Got α) (f : State → α → Eff) : Eff :=
  match retry v retryPages s g with
  | (s', .ok x) => f s' x
  | (_, .trap k) => .trap k
  | (s', .fill _) => .done s'
  | (s', .poison l) => .done (integrityHalt s' (some v) l ((sideOf s' l).code == 0x29))

/-! ### Iterations of a hand (R58, R60) -/

/-- An entry added to the open iteration's buffer; a 33rd abandons the iteration to the unfinished set (R60). That flags popped with the
value of that 33rd store are raised outside the abandoned iteration, by the completion that follows, is the model's choice (log entry
61). -/
def bufferStore (v : Thread) (e : BufEntry) : Thread :=
  if v.hctx.buf.length < 32 then { v with hctx := { v.hctx with buf := v.hctx.buf ++ [e] } }
  else
    { v with
      hctx := { v.hctx with iter := none, buf := [], gather := 0 }
      raise := v.raise.map fun r => { r with unfinished := match v.hctx.iter with
        | some i => i :: r.unfinished
        | none => r.unfinished } }

/-! ### Instruction fetch (R103, R223) -/

/-- One instruction word: from the thread's prefetched words, the core's instruction cache, or the home. -/
def fetchWord (s : State) (v : Thread) (va : Nat) : Got Word :=
  let core := threadCore s v
  (translate s core (threadEnclave s v) .fetch va).bind fun p =>
    match Tab.get? v.fetched va with
    | some w => .ok w
    | none =>
      let pa := p.at va
      match s.icache.find? fun c => c.core == core && c.addr == sectorOf pa with
      | some c => .ok (c.data.extractLsb' (8 * (pa % 32)) 32)
      | none => (readHome s pa 4).map fun bs => BitVec.ofNat 32 (ofBytes bs)

/-- n words from an address upward. -/
def fetchWords (s : State) (v : Thread) (va : Nat) : Nat → Got (List Word)
  | 0 => .ok []
  | n + 1 => (fetchWord s v va).bind fun w => (fetchWords s v (wrap 64 (va + 4 : Nat)) n).map fun ws => w :: ws

/-- The words of the instruction at an address (R101). -/
def fetchInsn (s : State) (v : Thread) (va : Nat) : Got (List Word) :=
  (fetchWord s v va).bind fun w => (fetchWords s v (wrap 64 (va + 4 : Nat)) (lengthOf w - 1)).map fun ws => w :: ws

/-- The line at whose home a fetched word is read, none for one that the thread has prefetched or its core's instruction cache holds. -/
def fetchedLine (s : State) (v : Thread) (va : Nat) : Option Nat :=
  match Tab.get? v.fetched va, translate s (threadCore s v) (threadEnclave s v) .fetch va with
  | none, .ok p => if s.icache.any fun c => c.core == threadCore s v && c.addr == sectorOf (p.at va) then none else some (lineOf (p.at va))
  | _, _ => none

/-- What the fetch of the n words at a thread's PC leaves behind: the translations of its pages, and L2 fills for the thread's partition
(R215, R331). -/
def fetchTouch (s : State) (v : Thread) (n : Nat) : State :=
  let vas := (upFrom 0 n).map fun k => wrap 64 (v.pc.toNat + 4 * k : Nat)
  let s := [vas.headD 0, vas.getLastD 0].foldl (fun s va => fillTlb s (partOf s v) (threadCore s v) (threadEnclave s v) va) s
  (vas.filterMap (fetchedLine s v)).eraseDups.foldl (fun s line => touchL2 s (partOf s v) line false) s

end Sys2Proof.Machine
end

