-- ==== Sys2Proof/Machine/Flags.lean ====
section
/-! DEFINITION. `set_flags` and the floating-point traps that follow a completed instruction (R98, R281, R58). -/

namespace Sys2Proof.Machine

/-- The trap of the lowest code among enabled flags (R281). -/
def fpCode (f : Flags) : TrapCode :=
  if f.getLsbD 4 then .fpInvalid else if f.getLsbD 3 then .fpDivzero else if f.getLsbD 2 then .fpOverflow
  else if f.getLsbD 1 then .fpUnderflow else .fpInexact

/-- Flags ORed into `fpsr`, or gathered with a hand's open iteration (R58, R98). -/
def setFlags (v : Thread) (f : Flags) : Thread :=
  if v.handMode && v.hctx.iter.isSome then { v with hctx := { v.hctx with gather := v.hctx.gather ||| f } }
  else { v with fpsr := v.fpsr ||| f }

/-- Flags of an instruction that trap: enabled and not already set (R281). -/
def trapFlags (v : Thread) (f : Flags) : Flags := f &&& v.fpen &&& ~~~v.fpsr

/-- An instruction completes with its flags: the thread is put back, and then an enabled flag traps (R281). `v` is the thread
before, `v'` after with its PC moved on. -/
def completeAt (late : Bool) (i : Instr) (s : State) (w : Who) (v v' : Thread) (f : Flags) : State :=
  let v' := setFlags v' f
  let s := putView s w v'
  if trapFlags v f = 0 then s else takeTrap s w v' (kept (fpCode (trapFlags v f)) f.toNat) { trapHere i v with ownOnly := late }

/-- Completion within the instruction's own issue. -/
def complete (i : Instr) (s : State) (w : Who) (v v' : Thread) (f : Flags) : State := completeAt false i s w v v' f

end Sys2Proof.Machine
end

