-- ==== Sys2Proof/Machine/Operands.lean ====
section
/-! DEFINITION. Operand forms: source operands of every format, destinations with feed pushes, and the shared shape of the
instructions that read sources and write one destination (R93-R95, R105-R110, R171, R359, R508). -/

namespace Sys2Proof.Machine

/-- Sources of a B3 word (R105, R106). -/
def b3a (x : B3) : Src := .reg x.t.regs x.va
def b3b (x : B3) : Src := .reg x.t.regs x.vb
/-- Sources of a float B3 word. -/
def b3fa (x : B3) : Src := .reg 1 x.va
def b3fb (x : B3) : Src := .reg 1 x.vb
def b3fc (x : B3) : Src := .reg 1 x.vc
/-- Sources of a BI word: imm9 sign-extended to 32 bits (R106). -/
def bia (x : BI) : Src := .reg 1 x.va
def biImm (x : BI) : Src := .imm (wrap 32 (sext x.imm.toNat 9))

/-- The immediate of an extended form, or its literal, at a width of w bits (R110, R359). -/
def extImm (x : Ext) (w : Nat) : Nat :=
  match x.lit with
  | some l => l.toNat % 2 ^ w
  | none => wrap w (sext x.imm.toNat 13)

/-- Bits of an operand of a type: 64 for the 64-bit ones, else 32. -/
def Ty.width (t : Ty) : Nat := if t.is64 then 64 else 32

def exta (t : Ty) (x : Ext) : Src := .reg t.regs x.va
/-- The second source of the instructions that admit an immediate (R110). -/
def extb (t : Ty) (x : Ext) : Src := if x.vb = 1023 then .imm (extImm x (Ty.width t)) else .reg t.regs x.vb
def extc (t : Ty) (x : Ext) : Src := .reg t.regs x.vc
/-- The second source of the float instructions: vb or a literal pattern (R110). -/
def extf (x : Ext) : Src :=
  match x.lit with
  | some l => .imm (l.toNat % 2 ^ 32)
  | none => .reg 1 x.vb
def ext1 (f : Reg) : Src := .reg 1 f

/-- Type of a B3 word's t field for the integer instructions and for the float ones (R106). -/
def B3Ty.int : B3Ty → Ty
  | .w32 => .b32
  | .z32bf => .z32
  | .w64 => .s64
def B3Ty.flt : B3Ty → Ty
  | .z32bf => .bf16
  | _ => .f32

/-- The feed queue a destination field pushes into (R93). -/
def feedOf (f : Reg) : Option Nat := if 772 ≤ f.toNat ∧ f.toNat < 776 then some (f.toNat - 772) else none

/-- The package quarter of a thread's cluster by number. -/
def threadQuarter (s : State) (v : Thread) (q : Nat) : Nat := quarterId (pkgCluster (threadCore s v)) q

/-- What a push may do now: go ahead, trap, or stall (R93, R171, R210). -/
inductive PushCheck where
  | free | unbound | full
  deriving DecidableEq, Repr

def pushCheck (s : State) (v : Thread) (q : Nat) : PushCheck :=
  let k := quarterOf s (threadQuarter s v q)
  if k.bound != some v.bent then .unbound
  else if Config.feedWords ≤ k.feed.length + k.pushes.length || v.tl == 15 then .full
  else .free

/-- The thread's own number, which a push bears; a hand never pushes (R424). -/
def Who.threadNo : Who → Nat
  | .thread t | .hand t _ => t
  | .hart _ => 0

/-- A result written to a destination field of w registers: a register, or a push toward a feed queue (R93, R171) by an instruction that found
its thread so and goes on at an address. -/
def writeDest (s : State) (w : Who) (was : Thread) (next : DWord) (v : Thread) (width : Nat) (f : Reg) (r : Nat) : State × Thread :=
  match feedOf f with
  | some q =>
    (setQuarter s (threadQuarter s v q) fun k => { k with
       pushes := k.pushes ++ [{ thread := Who.threadNo w, word := BitVec.ofNat 32 r, was := was, next := next }] },
     { v with tl := v.tl + 1 })
  | none => (s, setRegs v f.toNat width r)

/-- The hash of a register write: element position to hash (R140). -/
def regHash (s : State) (v : Thread) (i : Instr) (pos : Nat) : Nat :=
  srHash (widOf s v) (16 * ((i.dest.map (·.2.toNat)).getD 0) + pos) 0 v.seed.toNat

/-- The shape of the instructions that read up to three sources and write one destination: pops and pushes take effect
only as the instruction completes (R95). `f` gives the result and its flags, or a trap. -/
def aluM (i : Instr) (a b c : Src) (f : State → Thread → Nat → Nat → Nat → Got (Nat × Flags)) (s : State) : Result :=
  run i s fun w v =>
    let dest := (i.dest.map (·.2)).getD 1023
    match (match feedOf dest with
      | some q => pushCheck s v q
      | none => .free) with
    | .unbound => .trap (kept .bentTicket ((feedOf dest).getD 0))
    | .full => .stall
    | .free =>
      match readSrcs v a b c with
      | none => .stall
      | some (x, y, z, g, v') =>
        onGot s v (fun s => f s v x y z) fun s (r, fl) =>
          let (s', v'') := writeDest s w v (v.next i) v' ((i.dest.map (·.1)).getD 0) dest r
          .done (complete i s' w v { v'' with pc := v.next i } (g ||| fl))

/-- The same, for a result that cannot trap. -/
def alu (i : Instr) (a b c : Src) (f : Nat → Nat → Nat → Nat) (s : State) : Result :=
  aluM i a b c (fun _ _ x y z => .ok (f x y z, 0)) s

/-- The same, for a result with floating-point flags; `h` is the hash of the register write. -/
def aluF (i : Instr) (a b c : Src) (f : (Nat → Nat) → Nat → Nat → Nat → Nat × Flags) (s : State) : Result :=
  aluM i a b c (fun s v x y z => .ok (f (regHash s v i) x y z)) s

/-- The shape of the instructions that write one bit of a mask, or all-ones or zero to a register (R409, R421). -/
def compareOp (i : Instr) (toMask : Bool) (md : BitVec 4) (a b : Src) (f : Nat → Nat → Bool × Flags) (s : State) : Result :=
  if toMask then
    run i s fun w v =>
      match readSrcs v a b .no with
      | none => .stall
      | some (x, y, _, g, v') =>
        let (q, fl) := f x y
        .done (complete i s w v { setMask v' md.toNat q with pc := v.next i } (g ||| fl))
  else aluF i a b .no (fun _ x y _ => let (q, fl) := f x y; (if q then 2 ^ 32 - 1 else 0, fl)) s

end Sys2Proof.Machine
end

