-- ==== Sys2Proof/Machine/Control.lean ====
section
/-! DEFINITION. Control instructions: branches, calls, meets, barriers, exits and waits (R44, R48, R84, R104, R164,
R209-R211, R284, R371, R376, R382, R402, R429, R443, R451, R472, R479, R486, R490, R493). -/

namespace Sys2Proof.Machine

/-! ### Branches -/

/-- A thread that continues at a target, its prefetched words gone (R223). -/
def jump (v : Thread) (target : DWord) : Thread := { v with pc := target, fetched := [] }

/-- Address of a PC-relative base word's target: offset18 in 16-byte units from the boundary at or below it (R106). -/
def baseTarget (pc : DWord) (off : BitVec 18) : DWord :=
  BitVec.ofNat 64 (wrap 64 ((pc.toNat / 16 * 16 : Nat) + 16 * sext off.toNat 18))

/-- Address of an extended form's target: its literal from the instruction itself. -/
def litTarget (pc : DWord) (x : Ext) : DWord := pc + x.lit.getD 0

/-- Bits 3:0 of an instruction address are zero (R104). -/
def aligned16 (a : DWord) : Bool := a.toNat % 16 == 0

/-- A taken branch: BR_ALIGN or the target (R376). -/
def branchTo (s : State) (w : Who) (v : Thread) (target : DWord) : Eff :=
  if aligned16 target then .done (putView s w (jump v target)) else .trap (kept .brAlign target.toNat)

def execBraBB (mask : BitVec 4) (inv : Bool) (off : BitVec 18) (s : State) : Result :=
  run (.braBB mask inv off) s fun w v => branchTo s w v (baseTarget v.pc off)
def execBraExt (x : Ext) (s : State) : Result :=
  run (.braExt x) s fun w v => branchTo s w v (litTarget v.pc x)
def execJmp (x : Ext) (s : State) : Result :=
  run (.jmp x) s fun w v => branchTo s w v (BitVec.ofNat 64 (regNum v x.va.toNat 2))

/-! ### The return stack (R284, R285). The list's head is the newest entry. -/

/-- A trap that changes the spill count on entry, which `tdst` then holds (R277, R284, R285). -/
def spillTrap (i : Instr) (s : State) (w : Who) (v : Thread) (k : Kept) : State :=
  takeTrap s w v k { trapHere i v with tdst := v.spill }

/-- CALL and CALLI to a target (R382). -/
def callTo (i : Instr) (s : State) (w : Who) (v : Thread) (target : DWord) : Eff :=
  if !aligned16 target then .trap (kept .brAlign target.toNat)
  else if 16 ≤ v.stack.length then
    .done (spillTrap i s w { v with stack := v.stack.dropLast, spill := v.spill + 1 }
      (kept .rstackSpill (v.stack.getLastD 0).toNat))
  else .done (putView s w (jump { v with stack := v.next i :: v.stack } target))

def execCallBB (ign : BitVec 5) (off : BitVec 18) (s : State) : Result :=
  run (.callBB ign off) s fun w v => callTo (.callBB ign off) s w v (baseTarget v.pc off)
def execCallExt (x : Ext) (s : State) : Result :=
  run (.callExt x) s fun w v => callTo (.callExt x) s w v (litTarget v.pc x)
def execCalli (x : Ext) (s : State) : Result :=
  run (.calli x) s fun w v => callTo (.calli x) s w v (BitVec.ofNat 64 (regNum v x.va.toNat 2))

/-- RET (R472). -/
def execRet (x : Ext) (s : State) : Result :=
  run (.ret x) s fun w v =>
    match v.stack with
    | t :: rest => if aligned16 t then .done (putView s w (jump { v with stack := rest } t)) else .trap (kept .brAlign t.toNat)
    | [] =>
      if v.spill = 0 then .trap (kept .retEmpty 0)
      else .done (spillTrap (.ret x) s w { v with spill := v.spill - 1 } (kept .rstackFill 0))

/-! ### Meet holding (R48, R443) -/

def execMeet (x : Ext) (s : State) : Result :=
  run (.meet x) s fun w v =>
    let m := litTarget v.pc x
    if aligned16 m then .done (meetRelease (putView s w { v with meet := some m, pc := v.next (.meet x) }) v)
    else .trap (kept .brAlign m.toNat)

/-- Whether a thread is about to execute at its valid meet address (R48). -/
def atMeet (v : Thread) : Bool := v.status == .running && v.meet == some v.pc

/-- A thread that reaches its meet address is held there (R48). -/
def execMeetHold (t : Nat) (s : State) : Result :=
  match threadOf s t with
  | some v => if atMeet v then .next (meetRelease (setThread s t { v with status := .held }) v) else .next s
  | none => .next s

/-! ### Barriers and pre-emption points -/

/-- Whether a request to stop is pending for a thread's bent (R84). -/
def requested (s : State) (v : Thread) : Bool := ((bentOf s v.bent).bind (·.request)).isSome

/-- A stop at a pre-emption point, which is not executed (R84). -/
def stopAtPoint (s : State) (w : Who) (v : Thread) (idx : Nat) : State := putView s w { v with status := .stopped (some idx) }

/-- BAR (R371): under a request a point, otherwise an arrival. -/
def execBar (x : Ext) (s : State) : Result :=
  run (.bar x) s fun w v =>
    if requested s v then .done (stopAtPoint s w v x.imm.toNat)
    else if loadsOut v then .stall
    else .done (barComplete (putView s w { v with status := .bar x.imm.toNat }) v.bent v.block)

/-- TBAR (R486): the release of its level, the arrival, and the completion it may bring. -/
def execTbar (l : Level) (x : Ext) (s : State) : Result :=
  run (.tbar l x) s fun w v =>
    if l ≠ .bent ∧ !((headerOf s v).any (·.coop)) then .trap (kept .illegalInsn (Instr.word0 (.tbar l x)).toNat)
    else if loadsOut v then .stall
    else
      let s := releaseAt s false (threadCore s v) (if l = .bent then .cl else .dv)
      .done (tbarComplete (putView s w { v with status := .tbar l }) l v)

/-- YPT (R493): a point in a thread and in hand 0 between iterations. -/
def execYpt (x : Ext) (s : State) : Result :=
  run (.ypt x) s fun w v =>
    match w with
    | .thread _ => if requested s v && v.hctx.iter.isNone then .done (stopAtPoint s w v x.imm.toNat) else local' (.ypt x) s w v
    | _ => local' (.ypt x) s w v

/-! ### NOP, SLEEPC and WAIT -/

def execNopB (s : State) : Result := run .nopB s (local' .nopB s)
def execNopExt (x : Ext) (s : State) : Result := run (.nopExt x) s (local' (.nopExt x) s)

/-- SLEEPC (R479): done, or parked until the core's counter is there. -/
def execSleepc (x : Ext) (s : State) : Result :=
  run (.sleepc x) s fun w v =>
    let target := regNum v x.va.toNat 2
    if target ≤ arithCycles s (threadCore s v) then local' (.sleepc x) s w v else .done (putView s w { v with status := .sleep target })

/-- A sleeper whose cycle has come goes on after its SLEEPC (R479). -/
def execSleepcWake (t : Nat) (s : State) : Result :=
  match threadOf s t with
  | some v => match v.status with
    | .sleep target => if target ≤ arithCycles s (threadCore s v) then
        .next (setThread s t { v with status := .running, pc := v.pc + BitVec.ofNat 64 extLen })
      else .next s
    | _ => .next s
  | none => .next s

/-- Copy commands of a thread. -/
def cmdsOf (s : State) (t : Nat) : Tab CopyCmd := s.cmds.filter fun e => e.2.thread == t

/-- The cp counter: incomplete sealed batches, and one while unsealed commands exist (R209). -/
def cpCount (s : State) (t : Nat) (v : Thread) : Nat :=
  v.batches.length + (if (cmdsOf s t).any fun e => e.2.batch.isNone then 1 else 0)

/-- Whether the counters lie at or below WAIT's fields; a hand waits for its own loads (R490). -/
def countsWithin (s : State) (w : Who) (v : Thread) (ld st cp tl : Nat) : Bool :=
  v.loads.length ≤ ld && (v.handMode || (v.stores ≤ st && cpCount s (Who.threadNo w) v ≤ cp && v.tl ≤ tl))

/-- WAIT (R490): a stall until the counters are within the fields; with tl at zero the kept tenon fault follows (R275). -/
def waitOp (i : Instr) (s : State) (ld st cp tl : Nat) : Result :=
  run i s fun w v =>
    if !countsWithin s w v ld st cp tl then .stall
    else
      match if tl = 0 ∧ !v.handMode then v.kept else none with
      | some k => .deferred k (putView s w { v with kept := none })
      | none => local' i s w v

def execWaitB (ld st : BitVec 6) (cp tl : BitVec 4) (s : State) : Result :=
  waitOp (.waitB ld st cp tl) s ld.toNat st.toNat cp.toNat tl.toNat
def execWaitExt (ld st : BitVec 6) (cp : BitVec 4) (x : Ext) (s : State) : Result :=
  waitOp (.waitExt ld st cp x) s ld.toNat st.toNat cp.toNat (x.imm.toNat % 16)

/-! ### EXIT (R402, R164) -/

/-- The first fault in issue order of a thread's finished copies, with its command; its batch's later ones go with it
(R208, R402). -/
def firstCopyFault (s : State) (t : Nat) : Option (Kept × State) :=
  match (cmdsOf s t).find? fun e => e.2.fault.isSome with
  | some (_, c) => c.fault.map fun k =>
      (k, { s with cmds := s.cmds.filter fun e => !(e.2.thread == t && e.2.batch == c.batch) })
  | none => none

/-- A thread's end: what its exit completes for its team, its block and its launch (R44, R48, R50, R371, R486). Team
operations are settled by `settleTeam`. -/
def endThread (settleTeam : State → Thread → State) (s : State) (t : Nat) (v : Thread) : State :=
  let s := setThread s t { v with status := .exited, raise := none, handMode := false, hctx := HandCtx.none }
  let s := { s with cmds := s.cmds.filter fun e => e.2.thread != t }
  finishBlock (settleBarriers (settleTeam (meetRelease s v) v) v) v.bent v.block

/-- EXIT of a matrix thread (R164): its operations complete, its deferred fault is raised, and the quarter is free. -/
def exitControl (s : State) (t : Nat) (v : Thread) (q : Nat) : Eff :=
  if !quarterIdle s q then .stall
  else match (quarterOf s q).deferred with
    | some k => .deferred k (setQuarter s q fun x => { x with deferred := none })
    | none =>
      let s := setThread (unbindQuarter s q) t { v with status := .exited }
      .done (finishBent { s with bents := Tab.modify s.bents v.bent fun b => { b with control := none } } v.bent)

end Sys2Proof.Machine
end

