-- ==== Sys2Proof/Machine/Mem.lean ====
section
/-! DEFINITION. Loads, stores and prefetches of every space, and the steps that complete them (R58, R149, R163,
R185-R187, R190-R193, R210-R211, R225-R234, R244-R245, R435-R439, R463, R481-R483, R509). -/

namespace Sys2Proof.Machine

/-! ### Addresses and values -/

/-- Offset of a BM word: imm9 in units of the access size (R106). -/
def bmOff (x : BI) (size : Nat) : Int := sext x.imm.toNat 9 * size
/-- Offset of an extended form: imm13 in units of the access size, or the literal in bytes (R435). -/
def extOff (x : Ext) (size : Nat) : Int :=
  match x.lit with
  | some l => sext l.toNat 64
  | none => sext x.imm.toNat 13 * size

/-- Registers an access of a size moves (R436). -/
def memRegs (size : Nat) : Nat := if size = 16 then 4 else if size = 8 then 2 else 1

/-- The register words a load of a type writes (R436). -/
def loadWords (t : Ty) (bs : List Byte) : List Word :=
  let x := ofBytes bs
  match t with
  | .s8 => [BitVec.ofNat 32 (wrap 32 (sext x 8))]
  | .s16 => [BitVec.ofNat 32 (wrap 32 (sext x 16))]
  | t => (upFrom 0 (memRegs t.size)).map fun k => BitVec.ofNat 32 (x / 2 ^ (32 * k))

/-- Register writes of a destination field; vz discards. -/
def destWrites (d : Reg) (ws : List Word) : List (Nat × Word) :=
  if d = 1023 then [] else (upFrom d.toNat ws.length).zip ws

/-! ### Translation fills, partitions and the scope checker -/

/-- The checker's entry for a thread's operation on a line (R244). -/
def scopeEntryOf (s : State) (v : Thread) (line : Nat) (sc : Scope) : ScopeEntry :=
  { line := line, enclave := threadEnclave s v, scope := sc, unit := unitOf s v, ticket := v.bent,
    placement := BitVec.ofNat 8 (((bentOf s v.bent).map (·.placement)).getD 0) }

/-- A tracked operation at a line (R244, R245): SCOPE_MISMATCH, or the state with its record. -/
def tracked (s : State) (v : Thread) (on : Bool) (ea pa : Nat) (sc : Scope) : Got State :=
  if on then
    match track s (lineOf pa) (scopeEntryOf s v (lineOf pa) sc) with
    | (true, _) => .trap (kept .scopeMismatch ea)
    | (false, s) => .ok s
  else .ok s

/-! ### Retention overflow (R193) -/

/-- On-chip entries of a retention store. -/
def onChip (s : State) (cache bay : Nat) : List Retained :=
  s.retained.filter fun r => r.cache == cache && r.bay == bay && r.page.isNone

/-- Lines a retention store holds on chip: 64, and in a fused cluster the 16 cores' stores as one (R192, R193). -/
def chipLines (cache : Nat) : Nat := if cache < Config.cores then 64 else 16 * 64

/-- Lines a retention store holds beyond its on-chip room. -/
def excess (s : State) (cache bay : Nat) : Nat := (onChip s cache bay).length - chipLines cache

/-- Whether a retention store holds more than its on-chip lines. -/
def overfull (s : State) (cache bay : Nat) : Bool := 0 < excess s cache bay

/-- An entry moved to a retention page. -/
def toPage (s : State) (r : Retained) (f : Nat) : State :=
  { s with retained := s.retained.map fun x => if x == r then { x with page := some f } else x }

/-- The oldest entries of a store moved to retention pages: ones it has with room, or frames from the enclave's stack; none when
the stack is empty (R193, R219). That a page of 64 KiB holds 512 lines is the model's choice (log entry 62). -/
def overflowTo (cache bay enclave : Nat) : Nat → State → Option State
  | 0, s => some s
  | n + 1, s => match onChip s cache bay with
    | [] => some s
    | r :: _ =>
      let mine := s.retained.filter fun x => x.cache == cache && x.bay == bay
      match (mine.filterMap (·.page)).find? fun f => (mine.filter (·.page == some f)).length < 512 with
      | some f => overflowTo cache bay enclave n (toPage s r f)
      | none => match (enclaveOf s enclave).map (·.stack) with
        | some (f :: rest) => overflowTo cache bay enclave n (toPage (setEnclave (zeroFrame s f) enclave fun e => { e with stack := rest }) r f)
        | _ => none

/-- Live-marked lines past the on-chip store take pages from the stack (R193). -/
def execRetentionOverflow (core bay : Nat) (s : State) : Result :=
  let cache := cacheOf s core
  if overfull s cache bay then
    let owner := (((onChip s cache bay).head?).map fun r => (potOf s (r.line * 128)).owner).getD 0
    .next ((overflowTo cache bay owner (excess s cache bay) s).getD s)
  else .next s

/-! ### Global loads -/

/-- Whether a load would find its sector in the retention store or filled in its bay's ways. -/
def l1Hit (s : State) (cache bay : Nat) (start : Word) (pa : Nat) : Bool :=
  (s.retained.any fun r => r.cache == cache && r.bay == bay && r.line == lineOf pa && r.key == keyOf s (lineOf pa) &&
      r.valid.getLsbD (pa % 128 / 32) && atOrAbove r.mark start) ||
    s.l1.any fun x => x.holds s cache (lineOf pa) && x.bay == bay && x.has pa

/-- A load through the L1 or the fused cache; a miss first makes room in its set, and in a retention store that this or an
earlier removal has overfilled (R189, R193). -/
def loadL1 (s : State) (v : Thread) (ea pa n : Nat) : Got (List Byte × State) :=
  let core := threadCore s v
  let bay := threadBay s v
  let cache := cacheOf s core
  if l1Hit s cache bay v.phaseStart pa then readL1 s core bay v.phaseStart pa n
  else
    let s := makeRoom s core bay (lineOf pa)
    match overflowTo cache bay (threadEnclave s v) (excess s cache bay) s with
    | some s => readL1 s core bay v.phaseStart pa n
    | none => .trap (kept .freePageEmpty ea)

/-- The bytes at the home with those that a core's own stores have dirtied in its coherent store over them (R233). -/
def homeMerged (s : State) (core pa n : Nat) : List Byte :=
  overDirty s (cacheOf s core) (· == core) pa (Memory.bytes s.mem pa n)

/-- CTXT of a thread's launch, 0 for none. -/
def ctxtNum (s : State) (v : Thread) : Nat := ((headerOf s v).map (·.ctxt.toNat)).getD 0

/-- A load through a decoded view: the raw lines are read at their homes, ahead of which the core's own dirty bytes of them go
there (R149, R225, R233). -/
def loadView (s : State) (v : Thread) (p : Page) (off n : Nat) : Got (List Byte × State) :=
  let core := threadCore s v
  let enclave := threadEnclave s v
  let s := fillViewTlb s (partOf s v) core enclave (ctxtNum s v) p off n
  let lines := (viewLines s core enclave (ctxtNum s v) p off n).eraseDups
  let s := lines.foldl (fun s l => touchL2 (if v.control then s else flushOwn s core (l * 128) 128) (partOf s v) l false) s
  (viewBytes s core enclave (ctxtNum s v) p off n).map fun bs => (bs, s)

/-- The page a load's address leads to, after checks 1 to 7 of R214 and the scope checker (R437-R439). -/
def loadTarget (s : State) (v : Thread) (ea : Nat) (on : Bool) (sc : Scope) : Got (Page × State) :=
  let core := threadCore s v
  let enclave := threadEnclave s v
  (translate s core enclave .read ea).bind fun p =>
    let s := fillTlb s (partOf s v) core enclave ea
    if p.device then .ok (p, s)
    else (tracked s v on ea (if p.fmt = 0 then p.at ea else viewByte p ea) sc).map fun s => (p, s)

/-- n bytes at an offset of a global load of a size, from the page its address leads to: device space, a decoded view, the home, or the
L1 or fused cache (R149, R191, R226, R233, R509). The bytes are taken as the load issues (log entry 34). -/
def loadFrom (s : State) (v : Thread) (p : Page) (size ea off n : Nat) (o : Ord) (sc : Scope) : Got (List Byte × State) :=
  let core := threadCore s v
  let pa := p.at (ea + off)
  if p.device then .ok (toBytes n (kickRead s (threadEnclave s v) (pa - kickPage (threadEnclave s v)) size), s)
  else if p.fmt ≠ 0 then loadView s v p (ea + off - p.va) n
  else if v.control then (readHome s pa n).map fun bs => (bs, touchL2 s (partOf s v) (lineOf pa) false)
  else if o == .acq && atHome s v.control core sc then
    if poisoned s pa then .poison (lineOf pa) else .ok (homeMerged s core pa n, touchL2 s (partOf s v) (lineOf pa) false)
  else loadL1 s v ea pa n

/-- A global load of n bytes, whole. -/
def loadGlobal (s : State) (v : Thread) (ea n : Nat) (o : Ord) (sc : Scope) (sync : Bool) : Got (List Byte × State) :=
  (loadTarget s v ea (o == .acq || sync) sc).bind fun (p, s) => loadFrom s v p n ea 0 n o sc

/-- An ordering's boundary passed by a context: a new phase unless the ordering is none (R224). -/
def phaseIf (on : Bool) (s : State) (v : Thread) : State × Thread :=
  if on then
    let (s, p) := boundary s (threadCore s v)
    (s, { v with phaseStart := p })
  else (s, v)

/-! ### 128-bit accesses, two halves of 8 bytes (R228) -/

/-- The half of a 128-bit access that the present issue performs first: all threads of a bundle the same one (R228, R482; log entry 2). -/
def firstNo (s : State) : Nat := ofBool (Config.highFirst s.time s.issue.length)

/-- Half a of what a 128-bit store writes. -/
def halfBytes (bs : List Byte) (no : Nat) : List Byte := (bs.drop (8 * no)).take 8

/-- What a load has read, from the half read first and the other. -/
def Half.join (h : Half) (bs : List Byte) : List Byte := if h.no = 0 then h.data ++ bs else bs ++ h.data

/-- A page where no translation is made: that of a scratchpad access. -/
def Page.none : Page := { va := 0, pa := 0, size := 0, fmt := 0 }

/-- An access of which the first half has been performed: all its checks are made, and its other half follows at the context's next
issue (R228, R361). -/
def halfway (s : State) (w : Who) (v : Thread) (i : Instr) (no : Nat) (at' : HalfAt) (p : Page) (ea rank : Nat) (bs : List Byte) : State :=
  let h : Half := { insn := i, no := no, at' := at', page := p, ea := ea, rank := rank, data := bs, issue := (s.time, s.issue.length), seq := s.draws, made := false }
  putView { s with draws := s.draws + 1 } w { v with hctx := { v.hctx with half := some h } }

/-- No half outstanding. -/
def Thread.whole (v : Thread) : Thread := { v with hctx := { v.hctx with half := none } }

/-- A load issued: its words are on their way to their registers (R210, R211). -/
def loadIssued (i : Instr) (s : State) (w : Who) (v v' : Thread) (g : Flags) (writes : List (Nat × Word)) : Eff :=
  .done (complete i s w v { v' with loads := v'.loads ++ [{ writes := writes }], pc := v.next i } g)

/-- A global load whose bytes have been read: the acquire and the boundary of its ordering, and its words on their way (R233, R439). -/
def loadDone (i : Instr) (t : Ty) (d : Reg) (o : Ord) (sc : Scope) (s : State) (w : Who) (v : Thread) (bs : List Byte) : Eff :=
  let s := if o = .acq then acquireAt s v.control (threadCore s v) sc else s
  let (s, v') := phaseIf (o = .acq) s v.whole
  loadIssued i s w v v' 0 (destWrites d (loadWords t bs))

/-- LD at an address (R437-R439). A 128-bit one reads one half as it issues and the other, from the page already checked, next. -/
def ldOp (i : Instr) (t : Ty) (d : Reg) (base : Reg) (off : Int) (o : Ord) (sc : Scope) (sync : Bool) (s : State) : Result :=
  run i s fun w v =>
    match v.hctx.half with
    | some h => onGot s v (fun s => loadFrom s v h.page 16 h.ea (8 * (1 - h.no)) 8 o sc) fun _ (bs, s') =>
        loadDone i t d o sc s' w v (h.join bs)
    | none =>
      let ea := wrap 64 ((regNum v base.toNat 2 : Nat) + off)
      if ea % t.size ≠ 0 then .trap (kept .misalign ea)
      else onGot s v (fun s => loadTarget s v ea (o == .acq || sync) sc) fun _ (p, s') =>
        if 63 ≤ v.loads.length then .stall
        else if t.size = 16 then
          let no := firstNo s
          onGot s' v (fun s => loadFrom s v p 16 ea (8 * no) 8 o sc) fun _ (bs, s'') => .done (halfway s'' w v i no .load p ea 0 bs)
        else onGot s' v (fun s => loadFrom s v p t.size ea 0 t.size o sc) fun _ (bs, s'') => loadDone i t d o sc s'' w v bs

def execLdB32 (x : BI) (s : State) : Result := ldOp (.ldB32 x) .b32 x.vd x.va (bmOff x 4) .none .cr false s
def execLdB64 (x : BI) (s : State) : Result := ldOp (.ldB64 x) .z64 x.vd x.va (bmOff x 8) .none .cr false s
def execLdExt (o : Ord) (sc : Scope) (sync : Bool) (ty : Ty) (x : Ext) (s : State) : Result :=
  ldOp (.ldExt o sc sync ty x) ty x.vd x.va (extOff x ty.size) o sc sync s

/-! ### Global stores -/

/-- A store performed at the site of its scope (R230, R483). -/
def storeAt (s : State) (v : Thread) (sc : Scope) (pa : Nat) (bs : List Byte) : State :=
  let core := threadCore s v
  if v.control then writeHome s (partOf s v) pa bs
  else if atHome s v.control core sc then writeThrough s core (threadBay s v) pa bs
  else writeL1 (makeRoom s core (threadBay s v) (lineOf pa)) core (threadBay s v) pa bs

/-- An address a store may write, after checks 1 to 7 of R214, the demand-zero fill and the scope checker (R482). -/
def storeTarget (s : State) (v : Thread) (ea : Nat) (on : Bool) (sc : Scope) : Got (Page × State) :=
  let core := threadCore s v
  let enclave := threadEnclave s v
  (translate s core enclave .write ea).bind fun p =>
    let s := fillTlb s (partOf s v) core enclave ea
    if p.device then .ok (p, s) else (tracked s v on ea (p.at ea) sc).map fun s => (p, s)

/-- Bytes stored at a physical address, of an access of a size: a register of the kick page, or memory at the site of the
scope. -/
def performStore (s : State) (v : Thread) (sc : Scope) (size pa : Nat) (bs : List Byte) : State :=
  if cacheable pa then storeAt s v sc pa bs
  else kickWrite s (threadEnclave s v) (pa - kickPage (threadEnclave s v)) size (ofBytes bs)

/-- Whether a buffered instruction of hand mode finds no iteration open (R58, R59). -/
def noIteration (v : Thread) : Bool := v.handMode && v.hctx.iter.isNone

/-- One half of a 128-bit store performed where it acts. -/
def storeHalf (s : State) (v : Thread) (h : Half) (no : Nat) : State :=
  match h.at' with
  | .load => s
  | .global sc => performStore s v sc 16 (h.page.at h.ea + 8 * no) (halfBytes h.data no)
  | .scratch b => scratchWrite s v.bent b (h.ea + 8 * no) (halfBytes h.data no)

/-- Threads that have performed one half of a store of an issue and come before a place in it, the earliest first, less those whose
other half has been performed for them. -/
def halvesBefore (s : State) (issue : Nat × Nat) (seq : Nat) : List (Nat × Thread × Half) :=
  sortBy (fun x => x.2.2.seq) (s.threads.filterMap fun (k, u) => u.hctx.half.bind fun h =>
    if h.at' != .load && h.issue == issue && h.seq < seq && !h.made then some (k, u, h) else none)

/-- The other half of a 128-bit store performed, after those of the threads of lower `wid` of its issue, so that each byte holds what
the highest `wid` wrote (R482). -/
def secondHalf (s : State) (v : Thread) (h : Half) : State :=
  if h.made then s
  else
    let s := (halvesBefore s h.issue h.seq).foldl (fun s (k, u, g) =>
      storeHalf (setThread s k { u with hctx := { u.hctx with half := some { g with made := true } } }) u g (1 - g.no)) s
    storeHalf s v h (1 - h.no)

/-- A store performed: it counts in st until its site accepts it (R210, R483), as a range of global memory where it writes there. -/
def storeDone (i : Instr) (s : State) (w : Who) (v v' : Thread) (g : Flags) (range : List (Nat × Nat)) : Eff :=
  .done (complete i s w v { v'.whole with stores := v'.stores + 1, late := v'.late ++ range, pc := v.next i } g)

/-- ST at an address (R482, R483); in a hand it is checked and buffered, and orders as its buffer is performed (R58, R232). The
store's value is read after its address (R95; log entry 29), and its bytes are written as it issues (log entry 34), those of a 128-bit
one half by half. -/
def stOp (i : Instr) (t : Ty) (d : Reg) (base : Reg) (off : Int) (o : Ord) (sc : Scope) (sync : Bool) (s : State) : Result :=
  run i s fun w v =>
    match readSrc v (.reg (memRegs t.size) d) with
    | none => .stall
    | some (x, g, v') =>
      match v.hctx.half with
      | some h =>
        let (s, v') := phaseIf (o = .rel) (secondHalf s v h) v'
        storeDone i s w v (v'.released (o = .rel)) g (if h.page.device then [] else [(h.page.at h.ea, 16)])
      | none =>
        let ea := wrap 64 ((regNum v base.toNat 2 : Nat) + off)
        let bs := toBytes t.size x
        if noIteration v then .trap (kept .illegalInsn i.word0.toNat)
        else if ea % t.size ≠ 0 then .trap (kept .misalign ea)
        else onGot s v (fun s => storeTarget s v ea (o == .rel || sync) sc) fun _ (p, s') =>
          if (63 ≤ v.stores && !v.handMode) || (o = .rel && loadsOut v) then .stall
          else if v.handMode then
            let (s', v') := phaseIf (o = .rel) s' v'
            .done (complete i s' w v (bufferStore { v' with pc := v.next i }
              { scratch := false, addr := p.at ea, data := bs, sc := sc, rel := o = .rel }) g)
          else
            let s' := if o = .rel then releaseAt s' v.control (threadCore s v) sc else s'
            if t.size = 16 then
              let no := firstNo s
              .done (halfway (performStore s' v sc 16 (p.at ea + 8 * no) (halfBytes bs no)) w (v.released (o = .rel)) i no (.global sc) p ea 0 bs)
            else
              let (s', v') := phaseIf (o = .rel) (performStore s' v sc t.size (p.at ea) bs) v'
              storeDone i s' w v (v'.released (o = .rel)) g (if p.device then [] else [(p.at ea, t.size)])

def execStB32 (x : BI) (s : State) : Result := stOp (.stB32 x) .b32 x.vd x.va (bmOff x 4) .none .cr false s
def execStB64 (x : BI) (s : State) : Result := stOp (.stB64 x) .z64 x.vd x.va (bmOff x 8) .none .cr false s
def execStExt (o : Ord) (sc : Scope) (sync : Bool) (ty : Ty) (x : Ext) (s : State) : Result :=
  stOp (.stExt o sc sync ty x) ty x.vd x.va (extOff x ty.size) o sc sync s

/-! ### Scratchpad loads and stores -/

/-- A scratchpad range of the executing block (R186): its block, or PAGE_PROT. -/
def scratchCheck (s : State) (v : Thread) (ea n : Nat) : Option Kept :=
  if scratchSize s v.bent < ea + n then some (kept .pageProt ea) else none

/-- The checks of R187 on a rank and an offset. -/
def remoteCheck (s : State) (v : Thread) (rank ea n : Nat) : Option Kept :=
  if blockCount s v.bent ≤ rank then some (kept .bentTicket rank)
  else if scratchSize s v.bent < ea + n then some (kept .pageProt ea)
  else match blockOf s v.bent rank with
    | some b => if b.ended then some (kept .bentTicket rank) else none
    | none => some (kept .bentTicket rank)

/-- The rank operand of LDR and STR. -/
def rankSrc (rank : Option Reg) : Src := match rank with
  | some r => .reg 1 r
  | none => .no

/-- LDS and LDR: `rank` is LDR's (R437). -/
def ldsOp (i : Instr) (t : Ty) (d base : Reg) (rank : Option Reg) (off : Int) (s : State) : Result :=
  run i s fun w v =>
    match readSrcs v (.reg 1 base) (rankSrc rank) .no with
    | none => .stall
    | some (a, b, _, g, v') =>
      match v.hctx.half with
      | some h => loadIssued i s w v v'.whole g (destWrites d (loadWords t (h.join (scratchRead s v.bent h.rank (h.ea + 8 * (1 - h.no)) 8))))
      | none =>
        let ea := wrap 32 ((a : Nat) + off)
        let block := if rank.isSome then b else v.block
        if ea % t.size ≠ 0 then .trap (kept .misalign ea)
        else match if rank.isSome then remoteCheck s v b ea t.size else scratchCheck s v ea t.size with
          | some k => .trap k
          | none =>
            if 63 ≤ v.loads.length then .stall
            else if t.size = 16 then .done (halfway s w v i (firstNo s) .load .none ea block (scratchRead s v.bent block (ea + 8 * firstNo s) 8))
            else loadIssued i s w v v' g (destWrites d (loadWords t (scratchRead s v.bent block ea t.size)))

def execLdsB32 (x : BI) (s : State) : Result := ldsOp (.ldsB32 x) .b32 x.vd x.va none (bmOff x 4) s
def execLdsB64 (x : BI) (s : State) : Result := ldsOp (.ldsB64 x) .z64 x.vd x.va none (bmOff x 8) s
def execLdsExt (ty : Ty) (x : Ext) (s : State) : Result := ldsOp (.ldsExt ty x) ty x.vd x.va none (extOff x ty.size) s
def execLdr (ty : Ty) (x : Ext) (s : State) : Result := ldsOp (.ldr ty x) ty x.vd x.va (some x.vb) (extOff x ty.size) s

/-- STS and STR (R482); STS in a hand is buffered (R58). The value in vd is read after va and vb (R95; log entry 29). -/
def stsOp (i : Instr) (t : Ty) (d base : Reg) (rank : Option Reg) (off : Int) (s : State) : Result :=
  run i s fun w v =>
    match readSrcs v (.reg 1 base) (rankSrc rank) (.reg (memRegs t.size) d) with
    | none => .stall
    | some (a, b, x, g, v') =>
      match v.hctx.half with
      | some h => storeDone i (secondHalf s v h) w v v' g []
      | none =>
        let ea := wrap 32 ((a : Nat) + off)
        let block := if rank.isSome then b else v.block
        let bs := toBytes t.size x
        if noIteration v then .trap (kept .illegalInsn i.word0.toNat)
        else if ea % t.size ≠ 0 then .trap (kept .misalign ea)
        else match if rank.isSome then remoteCheck s v b ea t.size else scratchCheck s v ea t.size with
          | some k => .trap k
          | none =>
            if v.handMode then
              .done (complete i s w v (bufferStore { v' with pc := v.next i } { scratch := true, addr := ea, data := bs, sc := .cr, rel := false }) g)
            else if 63 ≤ v.stores then .stall
            else if t.size = 16 then
              .done (halfway (scratchWrite s v.bent block (ea + 8 * firstNo s) (halfBytes bs (firstNo s))) w v i (firstNo s) (.scratch block) .none ea block bs)
            else storeDone i (scratchWrite s v.bent block ea bs) w v v' g []

def execStsB32 (x : BI) (s : State) : Result := stsOp (.stsB32 x) .b32 x.vd x.va none (bmOff x 4) s
def execStsB64 (x : BI) (s : State) : Result := stsOp (.stsB64 x) .z64 x.vd x.va none (bmOff x 8) s
def execStsExt (ty : Ty) (x : Ext) (s : State) : Result := stsOp (.stsExt ty x) ty x.vd x.va none (extOff x ty.size) s
def execStr (ty : Ty) (x : Ext) (s : State) : Result := stsOp (.str ty x) ty x.vd x.va (some x.vb) (extOff x ty.size) s

/-! ### PREF (R463) -/

/-- The sectors of a line that a bay's ways do not hold filled into them, without a mark. -/
def fillLine (s : State) (core bay line : Nat) : State :=
  (upFrom 0 4).foldl (fun s k =>
    let pa := line * 128 + 32 * k
    if s.l1.any fun x => x.holds s (cacheOf s core) line && x.bay == bay && x.has pa then s else fillSector s core bay pa none)
    (makeRoom s core bay line)

/-- What a prefetch brings in; nothing where it is abandoned, through a decoded view by its scale's translation too. A line that fails is
found with no bent that consumes it (R287). -/
def prefetch (s : State) (v : Thread) (l2 : Bool) (ea : Nat) : State :=
  let core := threadCore s v
  let enclave := threadEnclave s v
  let part := partOf s v
  match translate s core enclave .read ea with
  | .ok p =>
    let s1 := fillTlb s part core enclave ea
    if p.device then s
    else if p.fmt = 0 then
      if poisoned s (p.at ea) then noteFailure s1 (lineOf (p.at ea))
      else if l2 then touchL2 s1 part (lineOf (p.at ea)) false else fillLine s1 core (threadBay s v) (lineOf (p.at ea))
    else
      let s2 := touchL2 s1 part (lineOf (viewByte p ea)) false
      if poisoned s (viewByte p ea) then noteFailure s1 (lineOf (viewByte p ea))
      else if bits p.fmt 6 5 = 0 then s2
      else
        let va := scaleVa p ((ea - p.va) / 2)
        match translate s core enclave .read va with
        | .ok q => if q.device || q.fmt != 0 then s
            else if poisoned s (q.at va) then noteFailure s2 (lineOf (q.at va))
            else touchL2 (fillTlb s2 part core enclave va) part (lineOf (q.at va)) false
        | _ => fillTlb s1 part core enclave va
  | _ => fillTlb s part core enclave ea

def execPref (l2 : Bool) (x : Ext) (s : State) : Result :=
  run (.pref l2 x) s fun w v =>
    let ea := wrap 64 ((regNum v x.va.toNat 2 : Nat) + extOff x 4)
    if 63 ≤ v.loads.length then .stall
    else loadIssued (.pref l2 x) (prefetch s v l2 ea) w v v 0 []

/-! ### Completions (R210, R211) -/

/-- A load's data reaches its registers: the k-th of the context's outstanding loads, in any order. -/
def execLoadDataReturn (w : Who) (k : Nat) (s : State) : Result :=
  match viewOf s w with
  | none => .next s
  | some v => match v.loads[k]? with
    | none => .next s
    | some l =>
      let v' := l.writes.foldl (fun v (n, x) => setReg v n x) { v with loads := v.loads.eraseIdx k }
      .next (putView s w v')

/-- A store is accepted at its site, by a free choice one of those outstanding (R210; log entry 2). -/
def execStoreAccepted (w : Who) (s : State) : Result :=
  match viewOf s w with
  | none => .next s
  | some v => .next (putView { s with draws := s.draws + 1 } w
      { v with stores := v.stores - 1, late := v.late.eraseIdx (Config.pick s.draws % max 1 v.stores) })

end Sys2Proof.Machine
end

