-- ==== Sys2Proof/Machine/Float.lean ====
section
/-! DEFINITION. Floating-point and conversion instructions (R393-R396, R403-R409, R412-R414, R455-R458). -/

namespace Sys2Proof.Machine

/-- An arithmetic result rounded once, with the flags of the operation and of the rounding (R404). -/
def fresult (t : Ty) (mode : Rnd) (h : Nat) (v : FVal × Flags) : Nat × Flags :=
  let (r, f) := (fmtOf t).round mode h false v.1
  (r, v.2 ||| f)

def fval (t : Ty) (x : Nat) : FVal := (fmtOf t).decode x

def faddOp (t : Ty) (mode : Rnd) (h x y : Nat) : Nat × Flags :=
  fresult t mode h (FVal.add (mode == .rdn) (fval t x) (fval t y))
def fsubOp (t : Ty) (mode : Rnd) (h x y : Nat) : Nat × Flags :=
  fresult t mode h (FVal.add (mode == .rdn) (fval t x) (FVal.neg (fval t y)))
def fmulOp (t : Ty) (mode : Rnd) (h x y : Nat) : Nat × Flags := fresult t mode h (FVal.mul (fval t x) (fval t y))
def ffmaOp (t : Ty) (mode : Rnd) (h x y z : Nat) : Nat × Flags :=
  fresult t mode h (FVal.fma (mode == .rdn) (fval t x) (fval t y) (fval t z))

/-- FCMP: the condition, with NV for a signalling operand and, for the ordered conditions, any NaN (R409). -/
def fcmpOp (c : Cond) (t : Ty) (x y : Nat) : Bool × Flags :=
  let a := fval t x
  let b := fval t y
  let ordered := c == .lt || c == .le || c == .gt || c == .ge
  (fcond c a b, flagIf (a.signalling || b.signalling || (ordered && (a.isNan || b.isNan))) fNV)

/-- FCLASS (R407). -/
def fclassOp (t : Ty) (x : Nat) : Nat :=
  let f := fmtOf t
  let code := x % f.signBit
  let neg := x / f.signBit % 2 == 1
  match f.decode x with
  | .nan s => if s then 2 ^ 8 else 2 ^ 9
  | .inf n => if n then 1 else 2 ^ 7
  | .num _ _ _ =>
    if code = 0 then (if neg then 2 ^ 3 else 2 ^ 4)
    else if code < 2 ^ f.mbits then (if neg then 2 ^ 2 else 2 ^ 5)
    else if neg then 2 else 2 ^ 6

/-- FRND (R413). -/
def frndOp (t : Ty) (mode : Rnd) (x : Nat) : Nat × Flags :=
  match fval t x with
  | .nan s => (((fmtOf t).nan).getD 0, flagIf s fNV)
  | .inf n => ((fmtOf t).round .dflt 0 false (.inf n)).1 |> fun r => (r, 0)
  | .num n m e => (((fmtOf t).roundNum .dflt 0 false n (roundInt mode n m e).1 0).1, 0)

/-- FSGN (R414). -/
def fsgnOp (fn : SgnFn) (t : Ty) (x y : Nat) : Nat :=
  let sb := (fmtOf t).signBit
  let mag := x % sb
  let sx := x / sb % 2 == 1
  let sy := y / sb % 2 == 1
  let sign := match fn with
    | .copy => sy
    | .neg => !sy
    | .xor => sx != sy
    | .abs => false
  mag + if sign then sb else 0

/-- FLDX (R412). -/
def fldxOp (t : Ty) (mode : Rnd) (x y : Nat) : Nat × Flags :=
  match fval t x with
  | .nan s => (((fmtOf t).nan).getD 0, flagIf s fNV)
  | .inf n => (fmtOf t).round mode 0 false (.inf n)
  | .num n m e => (fmtOf t).roundNum mode 0 false n m (if m = 0 then 0 else e + sext (y % 2 ^ 32) 32)

/-- CVT of one value: bits and flags (R395). -/
def cvtOp (t src : Ty) (sat : Bool) (mode : Rnd) (h x : Nat) : Nat × Flags :=
  let x := match src with
    | .bf16 | .s16 | .z16 => x % 2 ^ 16
    | .s8 | .z8 | .e4m3 | .e5m2 | .x8 | .e4m3p => x % 2 ^ 8
    | .e3m2 | .e2m3 => x % 2 ^ 6
    | .e2m1 => x % 2 ^ 4
    | _ => x
  if Ty.isInt src && Ty.isInt t then
    (convertInt t sat (if src.signed then sext x (Ty.bits src) else (x : Int)), 0)
  else convert t mode h sat (fpValue src x)

/-- Bit offset of an element position (R135). -/
def elemShift (n : Ty) (pos : Nat) : Nat := 2 ^ (Ty.elemBits n * pos)

/-- PACK: the new value of vd (R456). -/
def packOp (n t : Ty) (pos : Nat) (sat : Bool) (mode : Rnd) (h : Nat) (scaled : Bool) (old x y : Nat) : Nat × Flags :=
  let (v, f) := if scaled then FVal.mul (fval t x) (fval .f32 y) else (fval t x, 0)
  let (e, g) := convert n mode h sat v
  let sh := elemShift n pos
  let field := 2 ^ Ty.elemBits n
  (old - old / sh % field * sh + e % field * sh, f ||| g)

/-- The element of a packed word (R457). -/
def unpkElem (n : Ty) (pos x : Nat) : Nat := x / elemShift n pos % Ty.narrowMask n

def execFaddB3 (x : B3) (s : State) : Result :=
  aluF (.faddB3 x) (b3fa x) (b3fb x) .no
    (fun h a b _ => faddOp (B3Ty.flt x.t) ((x.pfx.map (·.rnd)).getD .dflt) (h 0) a b) s
def execFsubB3 (x : B3) (s : State) : Result :=
  aluF (.fsubB3 x) (b3fa x) (b3fb x) .no
    (fun h a b _ => fsubOp (B3Ty.flt x.t) ((x.pfx.map (·.rnd)).getD .dflt) (h 0) a b) s
def execFmulB3 (x : B3) (s : State) : Result :=
  aluF (.fmulB3 x) (b3fa x) (b3fb x) .no
    (fun h a b _ => fmulOp (B3Ty.flt x.t) ((x.pfx.map (·.rnd)).getD .dflt) (h 0) a b) s
def execFfmaB3 (x : B3) (s : State) : Result :=
  aluF (.ffmaB3 x) (b3fa x) (b3fb x) (b3fc x)
    (fun h a b c => ffmaOp (B3Ty.flt x.t) ((x.pfx.map (·.rnd)).getD .dflt) (h 0) a b c) s
def execFminB3 (x : B3) (s : State) : Result :=
  aluF (.fminB3 x) (b3fa x) (b3fb x) .no (fun _ a b _ => fminmax (fmtOf (B3Ty.flt x.t)) false a b) s
def execFmaxB3 (x : B3) (s : State) : Result :=
  aluF (.fmaxB3 x) (b3fa x) (b3fb x) .no (fun _ a b _ => fminmax (fmtOf (B3Ty.flt x.t)) true a b) s

def execFaddExt (ty : Ty) (x : Ext) (s : State) : Result :=
  aluF (.faddExt ty x) (ext1 x.va) (extf x) .no (fun h a b _ => faddOp ty x.rnd (h 0) a b) s
def execFsubExt (ty : Ty) (x : Ext) (s : State) : Result :=
  aluF (.fsubExt ty x) (ext1 x.va) (extf x) .no (fun h a b _ => fsubOp ty x.rnd (h 0) a b) s
def execFmulExt (ty : Ty) (x : Ext) (s : State) : Result :=
  aluF (.fmulExt ty x) (ext1 x.va) (extf x) .no (fun h a b _ => fmulOp ty x.rnd (h 0) a b) s
def execFfmaExt (ty : Ty) (x : Ext) (s : State) : Result :=
  aluF (.ffmaExt ty x) (ext1 x.va) (extf x) (ext1 x.vc) (fun h a b c => ffmaOp ty x.rnd (h 0) a b c) s
def execFminExt (ty : Ty) (x : Ext) (s : State) : Result :=
  aluF (.fminExt ty x) (ext1 x.va) (extf x) .no (fun _ a b _ => fminmax (fmtOf ty) false a b) s
def execFmaxExt (ty : Ty) (x : Ext) (s : State) : Result :=
  aluF (.fmaxExt ty x) (ext1 x.va) (extf x) .no (fun _ a b _ => fminmax (fmtOf ty) true a b) s
def execFcmp (c : Cond) (toMask : Bool) (md : BitVec 4) (ty : Ty) (x : Ext) (s : State) : Result :=
  compareOp (.fcmp c toMask md ty x) toMask md (ext1 x.va) (extf x) (fcmpOp c ty) s
def execFclass (ty : Ty) (x : Ext) (s : State) : Result :=
  alu (.fclass ty x) (ext1 x.va) .no .no (fun a _ _ => fclassOp ty a) s
def execFrnd (ty : Ty) (x : Ext) (s : State) : Result :=
  aluF (.frnd ty x) (ext1 x.va) .no .no (fun _ a _ _ => frndOp ty x.rnd a) s
def execFsgn (fn : SgnFn) (ty : Ty) (x : Ext) (s : State) : Result :=
  alu (.fsgn fn ty x) (ext1 x.va) (if fn = .abs then .no else ext1 x.vb) .no (fun a b _ => fsgnOp fn ty a b) s
def execFldx (ty : Ty) (x : Ext) (s : State) : Result :=
  aluF (.fldx ty x) (ext1 x.va) (extb .b32 x) .no (fun _ a b _ => fldxOp ty x.rnd a b) s
/-- R395, R396. -/
def execCvt (src : Ty) (sat : Bool) (ty : Ty) (x : Ext) (s : State) : Result :=
  aluM (.cvt src sat ty x) (exta src x) .no .no
    (fun s v a _ _ =>
      if src = .e4m3p ∧ bit a 7 then .trap (kept .fmtScale a)
      else .ok (cvtOp ty src sat x.rnd (regHash s v (.cvt src sat ty x) 0) a)) s
/-- R456. -/
def execPack (n : Ty) (pos : BitVec 4) (sat : Bool) (ty : Ty) (x : Ext) (s : State) : Result :=
  aluM (.pack n pos sat ty x) (ext1 x.va) (ext1 x.vb) .no
    (fun s v a b _ => .ok (packOp n ty pos.toNat sat x.rnd (regHash s v (.pack n pos sat ty x) pos.toNat) (x.vb != 1023)
      (regNum v x.vd.toNat 1) a b)) s
/-- R457: an element times UNPK's scale.  A scale that is a NaN, quiet or signalling, sets NV. -/
def scaledBy (x y : FVal) : FVal × Flags :=
  let (p, f) := FVal.mul x y
  (p, f ||| flagIf y.isNan fNV)

/-- R457: the codebook of cb4 is that of the thread's launch. -/
def execUnpk (n : Ty) (pos : BitVec 4) (ty : Ty) (x : Ext) (s : State) : Result :=
  aluM (.unpk n pos ty x) (ext1 x.va) (ext1 x.vb) .no
    (fun s v a b _ =>
      let e := unpkElem n pos.toNat a
      let val : Got (FVal × Flags) :=
        if n = .cb4 then
          (codebookEntry s (threadCore s v) (threadEnclave s v) (((headerOf s v).map (·.ctxt.toNat)).getD 0)
            (if x.vb = 1023 then 0 else b % 64) e).map fun p => (Fmt.bf16.decode p, 0)
        else if n = .e4m3p ∧ bit e 7 then .trap (kept .fmtScale a)
        else if x.vb = 1023 then .ok (fpValue n e, 0)
        else .ok (scaledBy (fpValue n e) (fval .f32 b))
      val.map fun (w, f) =>
        let (r, g) := (fmtOf ty).round x.rnd 0 false w
        (r, f ||| g)) s

end Sys2Proof.Machine
end

