-- ==== Sys2Proof/Machine/Integer.lean ====
section
/-! DEFINITION. Integer and logic instructions (R363-R364, R373-R374, R377-R378, R418-R421, R440, R447-R454, R462,
R473-R474). -/

namespace Sys2Proof.Machine

/-- A value read as the integer its type says (R8, R419). -/
def asInt (t : Ty) (x : Nat) : Int := if t.signed then sext x (Ty.width t) else (x : Int)

/-- An exact result under `.sat` or modulo 2^w (R419). -/
def intResult (sat : Bool) (t : Ty) (v : Int) : Nat :=
  let w := Ty.width t
  if sat then
    let lo : Int := if t.signed then -(2 ^ (w - 1) : Nat) else 0
    let hi : Int := if t.signed then (2 ^ (w - 1) : Nat) - 1 else (2 ^ w : Nat) - 1
    wrap w (min (max v lo) hi)
  else wrap w v

def addOp (sat : Bool) (t : Ty) (x y : Nat) : Nat := intResult sat t (asInt t x + asInt t y)
def subOp (sat : Bool) (t : Ty) (x y : Nat) : Nat := intResult sat t (asInt t x - asInt t y)
def mulOp (t : Ty) (x y : Nat) : Nat := intResult false t (asInt t x * asInt t y)
/-- IMULHI: the upper w bits of the product (R419). -/
def mulhiOp (t : Ty) (x y : Nat) : Nat := wrap (2 * Ty.width t) (asInt t x * asInt t y) / 2 ^ Ty.width t
def madOp (sat : Bool) (t : Ty) (x y z : Nat) : Nat := intResult sat t (asInt t x * asInt t y + asInt t z)
def minOp (t : Ty) (x y : Nat) : Nat := wrap (Ty.width t) (min (asInt t x) (asInt t y))
def maxOp (t : Ty) (x y : Nat) : Nat := wrap (Ty.width t) (max (asInt t x) (asInt t y))
def andOp (x y : Nat) : Nat := x &&& y
def orOp (x y : Nat) : Nat := x ||| y
def xorOp (x y : Nat) : Nat := x ^^^ y
/-- a and not b at width w (R364). -/
def andnOp (t : Ty) (x y : Nat) : Nat := x &&& (2 ^ Ty.width t - 1 - y)
def notOp (t : Ty) (x : Nat) : Nat := 2 ^ Ty.width t - 1 - x
/-- Shifts by the amount modulo the width (R473). -/
def shlOp (t : Ty) (x k : Nat) : Nat := x * 2 ^ (k % Ty.width t) % 2 ^ Ty.width t
def shrOp (t : Ty) (x k : Nat) : Nat := x / 2 ^ (k % Ty.width t)
def sarOp (t : Ty) (x k : Nat) : Nat := wrap (Ty.width t) (sext x (Ty.width t) / (2 ^ (k % Ty.width t) : Nat))
def bfxOp (t : Ty) (pos len x : Nat) : Nat :=
  let f := bits x (pos + len - 1) pos
  if t.signed then wrap 32 (sext f len) else f
def bfiOp (pos len x y : Nat) : Nat :=
  let m := (2 ^ len - 1) * 2 ^ pos
  (x &&& (2 ^ 32 - 1 - m)) ||| (y * 2 ^ pos &&& m)
def popcOp (t : Ty) (x : Nat) : Nat := (upFrom 0 (Ty.width t)).foldl (fun n i => n + ofBool (bit x i)) 0
def clzOp (t : Ty) (x : Nat) : Nat := if x = 0 then Ty.width t else Ty.width t - 1 - Nat.log2 x
def brevOp (t : Ty) (x : Nat) : Nat :=
  (upFrom 0 (Ty.width t)).foldl (fun n i => n + ofBool (bit x i) * 2 ^ (Ty.width t - 1 - i)) 0
/-- Bits moved: bf16 keeps 15:0 (R449, R474). -/
def moveOp (t : Ty) (x : Nat) : Nat := if t = .bf16 then x % 2 ^ 16 else x
/-- LEA (R440). -/
def leaOp (t : Ty) (sh base y k : Nat) : Nat := wrap 64 (base + (if t.signed then sext y 32 else (y : Int)) * (2 ^ sh : Nat) + k)

/-! Base words (R106). -/

def execIaddB3 (x : B3) (s : State) : Result :=
  alu (.iaddB3 x) (b3a x) (b3b x) .no (fun a b _ => addOp false (B3Ty.int x.t) a b) s
def execIsubB3 (x : B3) (s : State) : Result :=
  alu (.isubB3 x) (b3a x) (b3b x) .no (fun a b _ => subOp false (B3Ty.int x.t) a b) s
def execImulB3 (x : B3) (s : State) : Result :=
  alu (.imulB3 x) (b3a x) (b3b x) .no (fun a b _ => mulOp (B3Ty.int x.t) a b) s
def execIminB3 (x : B3) (s : State) : Result :=
  alu (.iminB3 x) (b3a x) (b3b x) .no (fun a b _ => minOp (B3Ty.int x.t) a b) s
def execImaxB3 (x : B3) (s : State) : Result :=
  alu (.imaxB3 x) (b3a x) (b3b x) .no (fun a b _ => maxOp (B3Ty.int x.t) a b) s
def execAndB3 (x : B3) (s : State) : Result := alu (.andB3 x) (b3a x) (b3b x) .no (fun a b _ => andOp a b) s
def execOrB3 (x : B3) (s : State) : Result := alu (.orB3 x) (b3a x) (b3b x) .no (fun a b _ => orOp a b) s
def execXorB3 (x : B3) (s : State) : Result := alu (.xorB3 x) (b3a x) (b3b x) .no (fun a b _ => xorOp a b) s
def execShlB3 (x : B3) (s : State) : Result :=
  alu (.shlB3 x) (b3a x) (b3b x) .no (fun a b _ => shlOp (B3Ty.int x.t) a b) s
def execShrB3 (x : B3) (s : State) : Result :=
  alu (.shrB3 x) (b3a x) (b3b x) .no (fun a b _ => shrOp (B3Ty.int x.t) a b) s
def execSarB3 (x : B3) (s : State) : Result :=
  alu (.sarB3 x) (b3a x) (b3b x) .no (fun a b _ => sarOp (B3Ty.int x.t) a b) s
def execMovB3 (x : B3) (s : State) : Result := alu (.movB3 x) (b3a x) .no .no (fun a _ _ => a) s
def execIaddBI (x : BI) (s : State) : Result := alu (.iaddBI x) (bia x) (biImm x) .no (fun a b _ => addOp false .b32 a b) s
def execAndBI (x : BI) (s : State) : Result := alu (.andBI x) (bia x) (biImm x) .no (fun a b _ => andOp a b) s
def execOrBI (x : BI) (s : State) : Result := alu (.orBI x) (bia x) (biImm x) .no (fun a b _ => orOp a b) s
def execXorBI (x : BI) (s : State) : Result := alu (.xorBI x) (bia x) (biImm x) .no (fun a b _ => xorOp a b) s
def execShlBI (x : BI) (s : State) : Result := alu (.shlBI x) (bia x) (biImm x) .no (fun a b _ => shlOp .b32 a b) s
def execShrBI (x : BI) (s : State) : Result := alu (.shrBI x) (bia x) (biImm x) .no (fun a b _ => shrOp .b32 a b) s
def execSarBI (x : BI) (s : State) : Result := alu (.sarBI x) (bia x) (biImm x) .no (fun a b _ => sarOp .b32 a b) s
/-- imm16 sign-extended (R450). -/
def execMoviB (x : BMovi) (s : State) : Result :=
  alu (.moviB x) (.imm (wrap 32 (sext x.imm.toNat 16))) .no .no (fun a _ _ => a) s

/-! Extended forms (R116). -/

def execIaddExt (sat : Bool) (ty : Ty) (x : Ext) (s : State) : Result :=
  alu (.iaddExt sat ty x) (exta ty x) (extb ty x) .no (fun a b _ => addOp sat ty a b) s
def execIsubExt (sat : Bool) (ty : Ty) (x : Ext) (s : State) : Result :=
  alu (.isubExt sat ty x) (exta ty x) (extb ty x) .no (fun a b _ => subOp sat ty a b) s
def execImulExt (ty : Ty) (x : Ext) (s : State) : Result :=
  alu (.imulExt ty x) (exta ty x) (extb ty x) .no (fun a b _ => mulOp ty a b) s
def execImulhi (ty : Ty) (x : Ext) (s : State) : Result :=
  alu (.imulhi ty x) (exta ty x) (extb ty x) .no (fun a b _ => mulhiOp ty a b) s
def execImad (sat : Bool) (ty : Ty) (x : Ext) (s : State) : Result :=
  alu (.imad sat ty x) (exta ty x) (.reg ty.regs x.vb) (extc ty x) (madOp sat ty) s
def execIminExt (ty : Ty) (x : Ext) (s : State) : Result :=
  alu (.iminExt ty x) (exta ty x) (extb ty x) .no (fun a b _ => minOp ty a b) s
def execImaxExt (ty : Ty) (x : Ext) (s : State) : Result :=
  alu (.imaxExt ty x) (exta ty x) (extb ty x) .no (fun a b _ => maxOp ty a b) s
def execIcmp (c : Cond) (toMask : Bool) (md : BitVec 4) (ty : Ty) (x : Ext) (s : State) : Result :=
  compareOp (.icmp c toMask md ty x) toMask md (exta ty x) (extb ty x) (fun a b => (icond c (asInt ty a) (asInt ty b), 0)) s
def execAndExt (ty : Ty) (x : Ext) (s : State) : Result :=
  alu (.andExt ty x) (exta ty x) (extb ty x) .no (fun a b _ => andOp a b) s
def execOrExt (ty : Ty) (x : Ext) (s : State) : Result :=
  alu (.orExt ty x) (exta ty x) (extb ty x) .no (fun a b _ => orOp a b) s
def execXorExt (ty : Ty) (x : Ext) (s : State) : Result :=
  alu (.xorExt ty x) (exta ty x) (extb ty x) .no (fun a b _ => xorOp a b) s
def execNot (ty : Ty) (x : Ext) (s : State) : Result := alu (.not ty x) (exta ty x) .no .no (fun a _ _ => notOp ty a) s
def execAndn (ty : Ty) (x : Ext) (s : State) : Result :=
  alu (.andn ty x) (exta ty x) (extb ty x) .no (fun a b _ => andnOp ty a b) s
def execShlExt (ty : Ty) (x : Ext) (s : State) : Result :=
  alu (.shlExt ty x) (exta ty x) (extb ty x) .no (fun a b _ => shlOp ty a b) s
def execShrExt (ty : Ty) (x : Ext) (s : State) : Result :=
  alu (.shrExt ty x) (exta ty x) (extb ty x) .no (fun a b _ => shrOp ty a b) s
def execSarExt (ty : Ty) (x : Ext) (s : State) : Result :=
  alu (.sarExt ty x) (exta ty x) (extb ty x) .no (fun a b _ => sarOp ty a b) s
def execBfx (pos : BitVec 5) (len : BitVec 6) (ty : Ty) (x : Ext) (s : State) : Result :=
  alu (.bfx pos len ty x) (ext1 x.va) .no .no (fun a _ _ => bfxOp ty pos.toNat len.toNat a) s
def execBfi (pos : BitVec 5) (len : BitVec 6) (ty : Ty) (x : Ext) (s : State) : Result :=
  alu (.bfi pos len ty x) (ext1 x.va) (ext1 x.vb) .no (fun a b _ => bfiOp pos.toNat len.toNat a b) s
def execPopc (ty : Ty) (x : Ext) (s : State) : Result := alu (.popc ty x) (exta ty x) .no .no (fun a _ _ => popcOp ty a) s
def execClz (ty : Ty) (x : Ext) (s : State) : Result := alu (.clz ty x) (exta ty x) .no .no (fun a _ _ => clzOp ty a) s
def execBrev (ty : Ty) (x : Ext) (s : State) : Result := alu (.brev ty x) (exta ty x) .no .no (fun a _ _ => brevOp ty a) s
/-- R474. Both sources are read, whichever is selected. -/
def execSel (inv : Bool) (ms : BitVec 4) (ty : Ty) (x : Ext) (s : State) : Result :=
  aluM (.sel inv ms ty x) (exta ty x) (extb ty x) .no
    (fun _ v a b _ => .ok (moveOp ty (if maskBit v ms.toNat != inv then a else b), 0)) s
def execMovExt (ty : Ty) (x : Ext) (s : State) : Result := alu (.movExt ty x) (exta ty x) .no .no (fun a _ _ => moveOp ty a) s
def execMoviExt (ty : Ty) (x : Ext) (s : State) : Result :=
  alu (.moviExt ty x) (.imm (extImm x (Ty.width ty))) .no .no (fun a _ _ => a) s
def execLea (sh : BitVec 2) (ty : Ty) (x : Ext) (s : State) : Result :=
  alu (.lea sh ty x) (.reg 2 x.va) (ext1 x.vb) .no
    (fun a b _ => leaOp ty sh.toNat a b (if x.vb = 1023 then extImm x 64 else 0)) s
/-- R447. -/
def execMlog (fn : MlogFn) (md ma mb : BitVec 4) (x : Ext) (s : State) : Result :=
  run (.mlog fn md ma mb x) s fun w v =>
    let a := maskBit v ma.toNat
    let b := maskBit v mb.toNat
    let r := match fn with
      | .and => a && b
      | .or => a || b
      | .xor => a != b
      | .andn => a && !b
      | .not => !a
      | .copy => a
    .done (putView s w { setMask v md.toNat r with pc := v.next (.mlog fn md ma mb x) })
/-- R448. -/
def execMmov (toMask : Bool) (m : BitVec 4) (x : Ext) (s : State) : Result :=
  if toMask then
    run (.mmov toMask m x) s fun w v =>
      match readSrc v (ext1 x.va) with
      | none => .stall
      | some (a, f, v') =>
        .done (complete (.mmov toMask m x) s w v { setMask v' m.toNat (bit a 0) with pc := v.next (.mmov toMask m x) } f)
  else aluM (.mmov toMask m x) .no .no .no (fun _ v _ _ _ => .ok (ofBool (maskBit v m.toNat), 0)) s

end Sys2Proof.Machine
end

