-- ==== Sys2Proof/Machine/Team.lean ====
section
/-! DEFINITION. Team operations: arrival, mismatch, completion and results (R40, R50-R53, R477-R478, R488-R489), and
EXIT, which may complete them (R402). -/

namespace Sys2Proof.Machine

/-- An arrived thread, by its name and position. -/
structure Member where
  id : Nat
  v : Thread
  a : Arrival
  deriving DecidableEq, Repr

/-- Threads of a thread's team that wait at a team operation, in order of position. -/
def waiting (s : State) (t : Thread) : List Member :=
  sortBy (fun m => m.v.tpos) (s.threads.filterMap fun (k, v) => match v.status with
    | .team a => if sameTeam t v then some { id := k, v := v, a := a } else none
    | _ => none)

/-- Members of one operation: those at one PC with one mask (R50). -/
def sameOp (x y : Member) : Bool := x.v.pc == y.v.pc && x.a.mask == y.a.mask

/-- Whether a member's mask names a thread. -/
def Member.names (m : Member) (v : Thread) : Bool := m.a.mask.getLsbD v.tpos

/-- The trap of a waiting thread at its own team operation (R51, R278). -/
def teamTrap (s : State) (m : Member) (info : DWord) : State :=
  takeTrap s (.thread m.id) { m.v with status := .running } { code := .teamopMismatch, info := info }
    { trapHere m.a.insn m.v with ownOnly := m.a.since != s.time }

/-- TEAMOP_MISMATCH in every waiting thread whose mask names a thread that waits at another operation (R51). Of several other
operations, the one that `tinfo` names is that of the lowest position, which is the model's choice (log entry 10). -/
def teamMismatch (s : State) (t : Thread) : State :=
  let ms := waiting s t
  ms.foldl (fun s m => match ms.find? fun o => !sameOp m o && m.names o.v with
    | some o => if (threadOf s m.id).isSome then teamTrap s m o.v.pc else s
    | none => s) s

/-! ### Results -/

/-- Identity of a reduction (R52). -/
def redIdentity (op : RedOp) (t : Ty) : Nat :=
  if t.flt then
    let inf := ((fmtOf t).inf).getD 0
    match op with
    | .min => inf
    | .max => (fmtOf t).signBit + inf
    | _ => (fmtOf t).signBit
  else match op with
    | .and => 2 ^ Ty.width t - 1
    | .min => wrap (Ty.width t) (Ty.hi t)
    | .max => wrap (Ty.width t) (Ty.lo t)
    | _ => 0

/-- One step of a reduction (R53). -/
def redStep (op : RedOp) (t : Ty) (x y : Nat) : Nat × Flags :=
  if t.flt then match op with
    | .min => fminmax (fmtOf t) false x y
    | .max => fminmax (fmtOf t) true x y
    | _ => faddOp t .dflt 0 x y
  else match op with
    | .add => (addOp false t x y, 0)
    | .min => (minOp t x y, 0)
    | .max => (maxOp t x y, 0)
    | .and => (andOp x y, 0)
    | .or => (orOp x y, 0)
    | .xor => (xorOp x y, 0)

/-- One level of the tree: neighbours combined (R53). -/
def treeLevel (step : Nat → Nat → Nat × Flags) : List Nat → List Nat × Flags
  | x :: y :: r =>
    let (z, f) := step x y
    let (zs, g) := treeLevel step r
    (z :: zs, f ||| g)
  | l => (l, 0)

/-- The full binary tree over a list whose length is a power of two, level by level (R53, R63). -/
def treeFold (step : Nat → Nat → Nat × Flags) : Nat → List Nat → List Nat × Flags
  | 0, l => (l, 0)
  | n + 1, l =>
    let (l, f) := treeLevel step l
    let (l, g) := treeFold step n l
    (l, f ||| g)

/-- TSCAN from left to right, exclusive unless `inc`; the last position of an exclusive scan makes no step (R53). -/
def scanFold (step : Nat → Nat → Nat × Flags) (inc : Bool) : Nat → List Nat → List Nat × Flags
  | _, [] => ([], 0)
  | acc, [x] => if inc then let (r, f) := step acc x; ([r], f) else ([acc], 0)
  | acc, x :: r =>
    let (y, f) := step acc x
    let (ys, g) := scanFold step inc y r
    ((if inc then y else acc) :: ys, f ||| g)

/-- The 64 position values of a group, an identity where no predicated member stands. -/
def positions (ms : List Member) (identity : Nat) : List Nat :=
  (upFrom 0 64).map fun p => match ms.find? fun m => m.v.tpos == p && m.a.pred with
    | some m => m.a.val.toNat
    | none => identity

/-- Source position of SHFL (R478). -/
def shflSource (mode : ShflMode) (tpos b : Nat) : Option Nat :=
  match mode with
  | .idx => some (b % 64)
  | .up => if b ≤ tpos then some (tpos - b) else none
  | .down => if tpos + b < 64 then some (tpos + b) else none
  | .xor => some (tpos ^^^ (b % 64))

/-- What a predicated member of a complete group receives (R478, R488, R489). -/
def teamResult (ms : List Member) (m : Member) : Nat × Flags :=
  match m.a.insn with
  | .shfl _ mode ty _ =>
    let src := (shflSource mode m.v.tpos m.a.b.toNat).bind fun p => ms.find? fun o => o.v.tpos == p && o.a.pred
    (moveOp ty (src.getD m).a.val.toNat, 0)
  | .vote _ kind _ =>
    let votes := ms.filter (·.a.pred)
    let yes (o : Member) : Bool := o.a.val != 0
    (match kind with
      | .ballot => votes.foldl (fun n o => n + ofBool (yes o) * 2 ^ o.v.tpos) 0
      | .any => if votes.any yes then 2 ^ 32 - 1 else 0
      | .all => if votes.all yes then 2 ^ 32 - 1 else 0, 0)
  | .tred _ op ty _ =>
    let (r, f) := treeFold (redStep op ty) 6 (positions ms (redIdentity op ty))
    (r.headD 0, f)
  | .tscan _ op inc ty _ =>
    let (r, f) := scanFold (redStep op ty) inc (redIdentity op ty) (positions ms (redIdentity op ty))
    (r.getD m.v.tpos 0, f)
  | _ => (0, 0)

/-- Sources of a team operation, read again as it completes so that its pops take effect then (R95). -/
def teamSources : Instr → Src × Src
  | .shfl _ _ ty x => (exta ty x, if x.vb = 1023 then .imm (extImm x 32) else .reg 1 x.vb)
  | .vote _ _ x => (ext1 x.va, .no)
  | .tred _ _ ty x | .tscan _ _ _ ty x => (exta ty x, .no)
  | _ => (.no, .no)

/-- A member completes: its result, its new phase, its flags and the traps they bring (R50, R224, R281). -/
def completeMember (ms : List Member) (s : State) (m : Member) : State :=
  match threadOf s m.id with
  | none => s
  | some _ =>
    let (s, p) := boundary s (threadCore s m.v)
    let v := { m.v with status := .running, phaseStart := p, late := [] }
    if m.a.pred then
      let (a, b) := teamSources m.a.insn
      match readSrcs v a b .no with
      | none => s
      | some (_, _, _, g, v') =>
        let (r, f) := teamResult ms m
        let v'' := match m.a.insn.dest with
          | some (w, d) => setRegs v' d.toNat w r
          | none => v'
        completeAt (m.a.since != s.time) m.a.insn s (.thread m.id) v { v'' with pc := v.next m.a.insn } (g ||| f)
    else setThread s m.id (skipped m.a.insn v)

/-- Whether every member an operation names that has not exited has arrived at it (R40, R50). -/
def teamReady (s : State) (ms : List Member) (m : Member) : Bool :=
  (Tab.values s.threads).all fun v =>
    !(sameTeam m.v v) || v.status == .exited || !m.names v || ms.any fun o => o.v.tpos == v.tpos && sameOp m o

/-- The first complete operation of a team receives its results; `fuel` bounds the number of operations. -/
def teamComplete (t : Thread) : Nat → State → State
  | 0, s => s
  | n + 1, s =>
    let ms := waiting s t
    match ms.find? (teamReady s ms) with
    | some m => teamComplete t n ((ms.filter (sameOp m)).foldl (completeMember (ms.filter (sameOp m))) s)
    | none => s

/-- Mismatches first, then completions. -/
def settleTeam (s : State) (t : Thread) : State := teamComplete t 64 (teamMismatch s t)

/-- Whether other threads of the team still have to issue at this PC in the bundle under way: their arrivals count as
simultaneous with this one (R46, R51; log entry 10). -/
def moreArrivals (s : State) (v : Thread) : Bool :=
  ((s.issue.head?).getD []).any fun
    | .thread u => (threadOf s u).any fun o => sameTeam v o && o.pc == v.pc && o.status == .running
    | _ => false

/-- Arrival at a team operation (R50): a thread its own mask leaves out traps at once. -/
def teamArrive (i : Instr) (all : Bool) (x : Ext) (s : State) : Result :=
  runAny i s fun w v =>
    let mask : DWord := if all then BitVec.allOnes 64 else BitVec.ofNat 64 (regNum v x.vc.toNat 2)
    if loadsOut v then .stall
    else if !mask.getLsbD v.tpos then .trap { code := .teamopMismatch, info := mask }
    else
      let pred := predicated i v
      match if pred then readSrcs v (teamSources i).1 (teamSources i).2 .no else some (0, 0, 0, 0, v) with
      | none => .stall
      | some (a, b, _, _, _) =>
        let arr : Arrival := { insn := i, mask := mask, val := BitVec.ofNat 64 a, b := BitVec.ofNat 32 b, pred := pred, since := s.time }
        let s' := putView s w { v with status := .team arr }
        .done (if moreArrivals s v then s' else settleTeam s' v)

def execShfl (all : Bool) (mode : ShflMode) (ty : Ty) (x : Ext) (s : State) : Result :=
  teamArrive (.shfl all mode ty x) all x s
def execVote (all : Bool) (kind : VoteKind) (x : Ext) (s : State) : Result :=
  teamArrive (.vote all kind x) all x s
def execTred (all : Bool) (op : RedOp) (ty : Ty) (x : Ext) (s : State) : Result :=
  teamArrive (.tred all op ty x) all x s
def execTscan (all : Bool) (op : RedOp) (inc : Bool) (ty : Ty) (x : Ext) (s : State) : Result :=
  teamArrive (.tscan all op inc ty x) all x s

/-- Every team settled, as the bundle under way ends (R51; log entry 10). -/
def settleTeams (s : State) : State :=
  (Tab.values s.threads).foldl (fun s v => match v.status with
    | .team _ => settleTeam s v
    | _ => s) s

/-- EXIT: it waits, and delivers the faults still kept one by one, but exits at once in a trap handler (R402, R164). -/
def execExit (x : Ext) (s : State) : Result :=
  run (.exit x) s fun w v =>
    let t := Who.threadNo w
    if v.control then
      match (bentOf s v.bent).bind (·.control) with
      | some q => exitControl s t v q
      | none => .done (setThread s t { v with status := .exited })
    else if !v.loads.isEmpty || v.stores ≠ 0 || v.tl ≠ 0 || (cmdsOf s t).any fun e => e.2.state != .done then .stall
    else if v.trapActive then .done (endThread settleTeam s t v)
    else match firstCopyFault s t with
      | some (k, s) => .deferred k s
      | none => match v.kept with
        | some k => .deferred k (setThread s t { v with kept := none })
        | none => .done (endThread settleTeam s t v)

end Sys2Proof.Machine
end

