-- ==== Sys2Proof/Machine/Atomics.lean ====
section
/-! DEFINITION. Atomics, fences and waits on memory (R54, R66, R140-R141, R156, R191, R197, R232-R234, R240-R245, R249,
R365-R369, R410-R411, R470-R471, R491-R492). -/

namespace Sys2Proof.Machine

/-! ### The new value of an atomic (R366, R367) -/

/-- Order of f32 values for min and max: -0 below +0, quiet NaNs give way (R367). -/
def f32Pick (max : Bool) (x y : Nat) : Nat :=
  let a := Fmt.f32.decode x
  let b := Fmt.f32.decode y
  let canon := 0x7FC00000
  if a.signalling || b.signalling || (a.isNan && b.isNan) then canon
  else if a.isNan then y
  else if b.isNan then x
  else
    let xLess := FVal.lt a b || (FVal.eq a b && a.isNeg && !b.isNeg)
    if xLess == max then y else x

/-- The new value of an atomic other than cas; `h` is the hash of its stochastic rounding (R156, R366). -/
def atomNew (op : AtomOp) (t : Ty) (rne : Bool) (h old x : Nat) : Nat :=
  match op with
  | .add => if t = .f32 then (faddOp .f32 (if rne then .dflt else .sr) h old x).1 else addOp false t old x
  | .min => if t = .f32 then f32Pick false old x else minOp t old x
  | .max => if t = .f32 then f32Pick true old x else maxOp t old x
  | .and => andOp old x
  | .or => orOp old x
  | .xor => xorOp old x
  | .xchg | .cas => x

/-- Whether an atomic rounds stochastically (R156). -/
def srAdd (op : AtomOp) (t : Ty) (rne : Bool) : Bool := op == .add && t == .f32 && !rne

/-- Hash of a memory-side add: line, word of the line, counter, seed (R140). -/
def atomHash (pa c : Nat) (seed : Word) : Nat := srHash (lineOf pa) (bits pa 6 2) c seed.toNat

/-- What an atomic writes: nothing for a cas that fails (R367). -/
def atomWrite (op : AtomOp) (t : Ty) (rne : Bool) (h old x z : Nat) : Option Nat :=
  if op = .cas then (if old = x then some z else none) else some (atomNew op t rne h old x)

/-- An atomic at the L2 home: dirty bytes of the core's own copy go first, and a stochastic add takes the line's counter
(R141, R191, R240). -/
def atomHome (s : State) (v : Thread) (op : AtomOp) (t : Ty) (rne : Bool) (pa x z : Nat) : Got (Nat × State) :=
  let s := removeStale s (threadCore s v) pa t.size
  (readHome s pa t.size).map fun bs =>
    let old := ofBytes bs
    let side := sideOf s (lineOf pa)
    let h := atomHash pa side.upd.toNat v.seed
    let s := match atomWrite op t rne h old x z with
      | some r => writeHome s (partOf s v) pa (toBytes t.size r)
      | none => s
    (old, if srAdd op t rne then
        { s with side := Tab.set s.side (lineOf pa) { sideOf s (lineOf pa) with upd := side.upd + 1 } }
      else s)

/-- An atomic at the L1 or the fused cache, on the newest copy there (R231, R240). -/
def atomL1 (s : State) (v : Thread) (op : AtomOp) (t : Ty) (rne : Bool) (pa x z : Nat) : Got (Nat × State) :=
  let core := threadCore s v
  let s := makeRoom s core (threadBay s v) (lineOf pa)
  (readL1 { s with retained := [] } core (threadBay s v) v.phaseStart pa t.size).map fun (bs, s') =>
    let s' := { s' with retained := s.retained }
    let old := ofBytes bs
    (old, match atomWrite op t rne (atomHash pa 0 v.seed) old x z with
      | some r => writeL1 s' core (threadBay s v) pa (toBytes t.size r)
      | none => s')

/-- Whether an ordering acquires, and whether it releases (R113). -/
def Ord.acquires (o : Ord) : Bool := o == .acq || o == .ar
def Ord.releases (o : Ord) : Bool := o == .rel || o == .ar

/-- ATOM and RED at their site, with their ordering (R232, R233, R242, R367, R368). -/
def atomAt (s : State) (v : Thread) (op : AtomOp) (t : Ty) (o : Ord) (sc : Scope) (sync rne : Bool) (ea x z : Nat) : Got (Nat × State × Thread) :=
  let core := threadCore s v
  if ea % t.size ≠ 0 then .trap (kept .misalign ea)
  else (translate s core (threadEnclave s v) .write ea).bind fun p =>
    let s := fillTlb s (partOf s v) core (threadEnclave s v) ea
    let pa := p.at ea
    if p.device then .trap (kept .pageProt ea)
    else (tracked s v sync ea pa sc).bind fun s =>
      let s := if Ord.releases o then releaseAt s v.control core sc else s
      (if atHome s v.control core sc then atomHome s v op t rne pa x z else atomL1 s v op t rne pa x z).map fun (old, s) =>
        let s := if Ord.acquires o then acquireAt s v.control core sc else s
        let (s, v) := phaseIf (o != .none) s v
        (old, s, v)

def execAtom (op : AtomOp) (o : Ord) (sc : Scope) (sync rne : Bool) (ty : Ty) (x : Ext) (s : State) : Result :=
  let i := Instr.atom op o sc sync rne ty x
  run i s fun w v =>
    match readSrcs v (.reg 2 x.va) (.reg ty.regs x.vb) (if op = .cas then .reg ty.regs x.vc else .no) with
    | none => .stall
    | some (a, b, c, g, v') =>
      let ea := wrap 64 ((a : Nat) + extOff x ty.size)
      onGot s v (fun s => atomAt s v op ty o sc sync rne ea b c) fun _ (old, s', u) =>
        if 63 ≤ v.loads.length || (Ord.releases o && loadsOut v) then .stall
        else loadIssued i s' w v { v'.released (Ord.releases o) with phaseStart := u.phaseStart } g (destWrites x.vd (loadWords ty (toBytes ty.size old)))

def execRed (op : AtomOp) (o : Ord) (sc : Scope) (sync rne : Bool) (ty : Ty) (x : Ext) (s : State) : Result :=
  let i := Instr.red op o sc sync rne ty x
  run i s fun w v =>
    match readSrcs v (.reg 2 x.va) (.reg ty.regs x.vb) .no with
    | none => .stall
    | some (a, b, _, g, v') =>
      let ea := wrap 64 ((a : Nat) + extOff x ty.size)
      onGot s v (fun s => atomAt s v op ty o sc sync rne ea b 0) fun _ (_, s', u) =>
        if 63 ≤ v.stores || (Ord.releases o && loadsOut v) then .stall
        else .done (complete i s' w v { v'.released (Ord.releases o) with phaseStart := u.phaseStart, stores := v'.stores + 1, pc := v.next i } g)

/-! ### FENCE (R234, R411) -/

def execFence (o : Ord) (sc : Scope) (x : Ext) (s : State) : Result :=
  run (.fence o sc x) s fun w v =>
    let core := threadCore s v
    if loadsOut v then .stall else
    let s := if Ord.releases o then releaseAt s v.control core sc else s
    let s := if Ord.acquires o then acquireAt s v.control core sc else s
    let (s, v') := phaseIf true s v
    .done (putView s w { v'.released (Ord.releases o) with pc := v.next (.fence o sc x) })

/-! ### WAITC (R66, R197, R249, R492, R509) -/

/-- The condition of R113 on integers of a type. -/
def waitHolds (c : Cond) (t : Ty) (x : Nat) (b : DWord) : Bool := icond c (asInt t x) (asInt t (b.toNat % 2 ^ Ty.width t))

/-- Where a WAITC reads: its address is translated for each read, so that a page freed meanwhile raises its trap there
(R216, R221). -/
def waitTarget (s : State) (v : Thread) (ea : Nat) : Got (Page × State) :=
  (translate s (threadCore s v) (threadEnclave s v) .read ea).bind fun p =>
    if p.fmt ≠ 0 then .trap (kept .pageProt ea)
    else .ok (p, fillTlb s (partOf s v) (threadCore s v) (threadEnclave s v) ea)

/-- The read of a WAITC at the site of its scope, in a new phase: device space, the home with the core's dirty bytes, or
the L1 or fused cache (R249). -/
def waitRead (s : State) (v : Thread) (w : Watch) : Got (Nat × State × Thread) :=
  let core := threadCore s v
  let (s, v) := phaseIf true s v
  let n := w.ty.size
  if !cacheable w.pa then .ok (kickRead s (threadEnclave s v) (w.pa - kickPage (threadEnclave s v)) n, s, v)
  else if atHome s v.control core w.sc then
    if poisoned s w.pa then .poison (lineOf w.pa)
    else .ok (ofBytes (homeMerged s core w.pa n), touchL2 s (partOf s v) (lineOf w.pa) false, v)
  else (loadL1 s v w.ea.toNat w.pa n).map fun (bs, s) => (ofBytes bs, s, v)

/-- The value WAITC compares with, read again as it completes so that its pop takes effect then (R95). -/
def waitSource : Instr → Src
  | .waitc _ _ _ _ ty x => .reg ty.regs x.vb
  | _ => .no

/-- A WAITC whose condition holds completes; another parks with its monitor, or re-checks by itself where the slice's table is full
(R66, R492). -/
def waitStep (late : Bool) (s : State) (t : Nat) (v : Thread) (w : Watch) : Got State :=
  (waitRead s v w).map fun (x, s, v) =>
    if waitHolds w.c w.ty x w.b then
      let s := if w.o = .acq then acquireAt s v.control (threadCore s v) w.sc else s
      let v := { v with status := .running }
      match readSrc v (waitSource w.insn) with
      | none => setThread s t v
      | some (_, g, v') => completeAt late w.insn s (.thread t) v { setRegs v' w.dest.toNat w.ty.regs x with pc := v.next w.insn } g
    else
      let s := if cacheable w.pa then addMonitor s (lineOf w.pa) (threadCore s v) else s
      let full := cacheable w.pa && !s.monitors.contains (lineOf w.pa, threadCore s v)
      setThread s t { v with status := .waitc { w with since := s.time, full := full } }

def execWaitc (c : Cond) (o : Ord) (sc : Scope) (sync : Bool) (ty : Ty) (x : Ext) (s : State) : Result :=
  let i := Instr.waitc c o sc sync ty x
  run i s fun w v =>
    match readSrcs v (.reg 2 x.va) (.reg ty.regs x.vb) .no with
    | none => .stall
    | some (a, b, _, _, _) =>
      let ea := wrap 64 ((a : Nat) + extOff x ty.size)
      if ea % ty.size ≠ 0 then .trap (kept .misalign ea)
      else onGot s v (fun s => (waitTarget s v ea).bind fun (p, s) =>
            let watch : Watch := { ea := BitVec.ofNat 64 ea, pa := p.at ea, ty := ty, c := c, b := BitVec.ofNat 64 b, o := o, sc := sc,
                                   dest := x.vd, insn := i, since := s.time, full := false }
            (tracked s v (!p.device) ea (p.at ea) sc).bind fun s => waitStep false s (Who.threadNo w) v watch)
        fun _ s' => .done s'

/-- A parked thread re-tests its condition at its address (R197); a poisoned line halts its bent (R287). -/
def retest (s : State) (t : Nat) : State :=
  match threadOf s t with
  | none => s
  | some v => match v.status with
    | .waitc w => match retry v retryPages s fun s =>
        (waitTarget s v w.ea.toNat).bind fun (p, s) => waitStep true s t v { w with pa := p.at w.ea.toNat } with
      | (_, .ok s) => s
      | (s, .poison l) => integrityHalt s (some v) l ((sideOf s l).code == 0x29)
      | (s, .trap k) => takeTrap s (.thread t) { v with status := .running } k { trapHere w.insn v with ownOnly := true }
      | (s, .fill _) => s
    | _ => s

/-- Clean bytes of a line discarded below the home in a core's coherent store (R492). -/
def discardLine (s : State) (core line : Nat) : State := discardClean s fun x => x.cache == cacheOf s core && x.line == line

/-- Threads of a core parked on a line. -/
def parkedOn (s : State) (core line : Nat) : List Nat :=
  (s.threads.filter fun (_, v) => match v.status with
    | .waitc w => threadCore s v == core && cacheable w.pa && lineOf w.pa == line
    | _ => false).map (·.1)

/-- A wake from the home: every thread of the core parked on the line re-tests, and registers again if it must (R197). -/
def execMonitorWake (core line : Nat) (s : State) : Result :=
  .next ((parkedOn s core line).foldl retest (discardLine s core line))

/-- The re-check of a thread that a full monitor table refused, or that watches device space (R66, R509). -/
def execWaitcRecheck (t : Nat) (s : State) : Result :=
  match threadOf s t with
  | some v => match v.status with
    | .waitc w => .next (retest (discardLine s (threadCore s v) (lineOf w.pa)) t)
    | _ => .next s
  | none => .next s

end Sys2Proof.Machine
end

