-- ==== Sys2Proof/Machine/Log.lean ====
section
/-! DEFINITION. The root's access log (R317, R318). -/

namespace Sys2Proof.Machine

/-- A digest as bytes. -/
def digestBytes (d : BitVec 256) : List Byte := toBytes 32 d.toNat

/-- A list cut or padded with zeros to a length. -/
def fitBytes (n : Nat) (bs : List Byte) : List Byte := (bs ++ (upFrom 0 n).map fun _ => (0 : Byte)).take n

/-- The 128 bytes of a record (R317). -/
def LogRec.bytes (r : LogRec) : List Byte :=
  toBytes 8 r.seq ++ toBytes 2 r.kind ++ toBytes 2 r.enclave ++ toBytes 4 r.actor ++ digestBytes r.prev ++ fitBytes 80 r.body

/-- Entries of the log ring: 64 MiB of 128-byte records. -/
def logRing : Nat := 524288

/-- One record appended; the new head is its digest, and the ring keeps the latest. -/
def logOne (s : State) (kind enclave actor : Nat) (body : List Byte) : State :=
  let r : LogRec := { seq := s.root.seq, kind := kind, enclave := enclave, actor := actor, prev := s.root.head, body := fitBytes 80 body }
  let log := s.root.log ++ [r]
  { s with root := { s.root with seq := r.seq + 1, head := Config.sm3 r.bytes, log := log.drop (log.length - logRing) } }

/-- A record appended, with the signature record that falls due after it (R318). -/
def logAppend (s : State) (kind enclave actor : Nat) (body : List Byte) : State :=
  let s := logOne s kind enclave actor body
  if s.root.seq % 256 = 255 then
    logOne s 0x0F 0 0 (toBytes 64 (Config.sm2Sign 0 (toBytes 8 s.root.seq ++ digestBytes s.root.head)).toNat)
  else s

/-- A body of 64-bit words; the spec names the contents of a body and not their places (log entry 13). -/
def bodyWords (ws : List Nat) : List Byte := ws.flatMap (toBytes 8)

end Sys2Proof.Machine
end

