-- ==== Sys2Proof/Machine/System.lean ====
section
/-! DEFINITION. The system class: special registers, traps and returns, services, launches from device code, plumb and
breakpoints (R97-R99, R161, R276-R285, R323, R346-R351, R357, R379-R380, R432-R434, R461, R480, R484, R487). -/

namespace Sys2Proof.Machine

/-! ### Special registers -/

/-- The counter of the core that executes for a thread: a matrix control core's own, or its core's (R29, R99, R158, R161). -/
def clockOf (s : State) (v : Thread) : Nat :=
  arithCycles s (if v.control then controlUnit (((bentOf s v.bent).bind (·.control)).getD 0) else threadCore s v)

/-- The value SREG reads at an index (R97, R99, R161). -/
def sregValue (s : State) (v : Thread) (idx : Nat) : Nat :=
  let core := threadCore s v
  let ones := 2 ^ 32 - 1
  match idx with
  | 0x00 => widOf s v
  | 0x01 | 0x02 => if v.control then ones else v.fields.getD (idx - 1) 0
  | 0x03 | 0x04 | 0x05 | 0x06 => v.fields.getD (idx - 1) 0
  | 0x08 => if v.control then ones else v.tix
  | 0x09 => if v.control then ones else v.tpos
  | 0x0A => if v.control then (((bentOf s v.bent).bind (·.control)).getD 0) % 4 else threadBay s v
  | 0x0B => if v.control then ones else core % 16
  | 0x0C => clusterOf core
  | 0x0D => dieOf core
  | 0x0E => s.mgmt.pkid
  | 0x10 => clockOf s v
  | 0x18 => v.seed.toNat
  | 0x20 => v.tcause.toNat
  | 0x21 => v.tpc.toNat
  | 0x22 => v.tmask.toNat
  | 0x23 => v.tinfo.toNat
  | 0x24 => v.fpsr.toNat
  | 0x25 => v.fpen.toNat
  | 0x26 => v.stack.length
  | 0x27 => v.tdst.toNat
  | _ => 0

def execSreg (idx : BitVec 8) (x : Ext) (s : State) : Result :=
  aluM (.sreg idx x) .no .no .no (fun s v _ _ _ => .ok (sregValue s v idx.toNat, 0)) s

/-- A special register replaced; reserved bits are ignored (R6, R480). -/
def ssetValue (v : Thread) (idx x : Nat) : Thread :=
  match idx with
  | 0x18 => { v with seed := BitVec.ofNat 32 x }
  | 0x24 => { v with fpsr := BitVec.ofNat 5 x }
  | 0x25 => { v with fpen := BitVec.ofNat 5 x }
  | _ => v

/-- SSET raises no trap for the flags it sets; a flag popped with its source is set first (R480, R281). -/
def execSset (idx : BitVec 8) (x : Ext) (s : State) : Result :=
  let i := Instr.sset idx x
  run i s fun w v =>
    match readSrc v (.reg 1 x.va) with
    | none => .stall
    | some (a, g, v') =>
      let s' := putView s w { ssetValue (setFlags v' g) idx.toNat a with pc := v.next i }
      if trapFlags v g = 0 then .done s'
      else .done (takeTrap s' w ((viewOf s' w).getD v) (kept (fpCode (trapFlags v g)) g.toNat) (trapHere i v))

/-! ### TRAP, BRK and their like -/

/-- `tinfo` of TRAP, and of BRK where it raises SOFT (R280). -/
def trapInfo (imm : BitVec 13) : Nat := wrap 64 (sext imm.toNat 13)
def brkInfo (imm : BitVec 13) : Nat := 2 ^ 63 + imm.toNat

def execTrap (x : Ext) (s : State) : Result :=
  run (.trap x) s fun _ _ => .trap (kept .soft (trapInfo x.imm))

/-- Whether a partition is debug-enabled (R329). -/
def partDebug (s : State) (p : Nat) : Bool := (Tab.getD s.pcfg p (0, false)).2
/-- Whether a thread's partition is debug-enabled. -/
def threadDebug (s : State) (v : Thread) : Bool := (headerOf s v).any fun h => partDebug s h.part

/-- An attempt at debugging, logged whether allowed or refused (R317, R323). -/
def logDebug (s : State) (actor : Nat) (v : Thread) (allowed : Bool) : State :=
  logAppend s 0x06 (threadEnclave s v) actor (bodyWords [((headerOf s v).map (·.part)).getD 0, ofBool allowed])

def execBrk (x : Ext) (s : State) : Result :=
  run (.brk x) s fun w v =>
    let s' := logDebug s 4 v (threadDebug s v)
    if threadDebug s v then .done (putView s' w { v with status := .debugStop, pc := v.next (.brk x) })
    else .done (takeTrap s' w v (kept .soft (brkInfo x.imm)) (trapHere (.brk x) v))

/-- `tdst` of words that decode to no instruction: the destination that a known operation's fields name, when a later check
refuses them, otherwise none (R123, R277; log entry 50). -/
def wordsDst (s : State) (v : Thread) : Word :=
  match fetchInsn s v v.pc.toNat with
  | .ok ws => match decodeFields ws with
    | .ok i => i.tdst
    | .error _ => tdstNone
  | _ => tdstNone

/-- What words that decode to no instruction raise: ILLEGAL_INSN with the first of them, but in hand mode the hand fault of a TRAP or BRK,
whose xop is assigned and which step 3 refuses ahead of every check of its fields (R7, R123, R379, R487). -/
def wordsTrap (v : Thread) (word0 : Word) : Kept :=
  let x := bits word0.toNat 29 21
  if v.handMode && bit word0.toNat 31 && (x == 0x1C2 || x == 0x1C7) then kept .soft 0 else kept .illegalInsn word0.toNat

/-- A word that no instruction holds: ILLEGAL_INSN with the word in `tinfo` (R7, R123). -/
def execUnassignedEncoding (word0 : Word) (s : State) : Result :=
  match s.cur with
  | none => .fault .noContext
  | some w => match viewOf s w with
    | none => .fault .noContext
    | some v => .next (takeTrap s w v (wordsTrap v word0) { pc := v.pc, len := 4 * lengthOf word0, tdst := wordsDst s v })

/-- A debugger releases a thread from debug stop, or moves the PC of one stopped there (R323, R380). -/
def execDebuggerCommand (port t : Nat) (c : DebugCmd) (s : State) : Result :=
  match threadOf s t with
  | none => .next s
  | some v =>
    let s := logDebug s (1 + port) v (threadDebug s v)
    if v.status == .debugStop && threadDebug s v then
      .next (setThread s t (match c with
        | .release => { v with status := .running, fetched := [] }
        | .writePc pc => { v with pc := pc, fetched := [] }))
    else .next s

/-! ### Returning from a trap (R282, R285) -/

/-- The thread after a return: the normal bank, no trap, at a PC. -/
def leaveTrap (v : Thread) (pc : DWord) : Thread :=
  { v with trapActive := false, trapBank := false, fetched := [], pc := pc }

/-- PC after the trapping instruction. -/
def pastTrap (v : Thread) : DWord := v.tpc + BitVec.ofNat 64 v.tlen

/-- The shape of RTE: outside a trap ILLEGAL_INSN, delivered normally. -/
def rteOp (i : Instr) (f : State → Who → Thread → Eff) (s : State) : Result :=
  run i s fun w v => if v.trapActive then f s w v else .trap (kept .illegalInsn i.word0.toNat)

def execRte (x : Ext) (s : State) : Result :=
  rteOp (.rte x) (fun s w v => .done (putView s w (leaveTrap v v.tpc))) s
def execRteSkip (x : Ext) (s : State) : Result :=
  rteOp (.rteSkip x) (fun s w v => .done (putView s w (leaveTrap v (pastTrap v)))) s

/-- FIELD, CNT and NONE of `tdst` (R277). -/
def tdstField (v : Thread) : Nat := bits v.tdst.toNat 9 0
def tdstCnt (v : Thread) : Nat := bits v.tdst.toNat 17 16
def tdstNoneBit (v : Thread) : Bool := bit v.tdst.toNat 18

/-- Values written to the trapping instruction's destination: registers, a result entry of the normal bank for q0-q3, a push for
q4-q7, which stalls while its feed is full and raises BENT_TICKET while its quarter is not bound, as that of any other instruction
does (R93, R171, R282, R508; log entry 21). -/
def writeTdst (s : State) (w : Who) (v : Thread) (r : Nat) (f : State × Thread → Eff) : Eff :=
  let n := tdstField v
  if 768 ≤ n ∧ n < 772 then
    let e : QEntry := { value := BitVec.ofNat 32 r, flags := 0, arrived := true }
    f (s, { v with queues := Tab.set v.queues (n - 768) (Tab.getD v.queues (n - 768) [] ++ [e]) })
  else if 772 ≤ n ∧ n < 776 then
    match pushCheck s v (n - 772) with
    | .free => f (writeDest s w v v.pc v 1 (BitVec.ofNat 10 n) r)
    | .full => .stall
    | .unbound => .trap (kept .bentTicket (n - 772))
  else f (s, setRegs v n (tdstCnt v + 1) r)

/-- Registers RTE.sub reads from va upward. -/
def subWidth (v : Thread) : Nat :=
  if bits v.tcause.toNat 7 0 = 0x06 then 2 else if tdstNoneBit v then 1 else tdstCnt v + 1

/-- The checks of RTE.sub's source run against R38 and R94. That a run of four, after TNX as well, starts at a multiple of 4, and that vz
is admitted and reads zeros, is the model's choice (R282; log entry 61). -/
def subCheck (i : Instr) (v : Thread) (va : Reg) : Option Kept :=
  let k := subWidth v
  let n := va.toNat
  if k = 1 || n = 1023 then none
  else if 768 ≤ n || (k = 2 && n % 2 ≠ 0) || (k = 4 && n % 4 ≠ 0) then some (kept .illegalInsn i.word0.toNat)
  else if v.n < n + k then some (kept .regRange n)
  else none

/-- BR_ALIGN at a RET whose filled address is misaligned, raised once the trap is left (R278, R285). -/
def fillMisaligned (s : State) (w : Who) (v : Thread) (target : Nat) : State :=
  let v' := leaveTrap v v.tpc
  takeTrap (putView s w v') w v' (kept .brAlign target) { pc := v.tpc, len := extLen, tdst := tdstNone, ownOnly := true }

def execRteSub (x : Ext) (s : State) : Result :=
  let i := Instr.rteSub x
  rteOp i (fun s w v =>
    match subCheck i v x.va with
    | some k => .trap k
    | none =>
      match if 1 < subWidth v then some (regNum v x.va.toNat (subWidth v), 0, v)
        else if tdstNoneBit v then some (0, 0, v) else readSrc v (.reg 1 x.va) with
      | none => .stall
      | some (a, g, v') =>
        if bits v.tcause.toNat 7 0 = 0x06 then
          .done (if a % 16 = 0 then putView s w (leaveTrap v' (BitVec.ofNat 64 a)) else fillMisaligned s w v' a)
        else
          let leave (p : State × Thread) : Eff := .done (complete i p.1 w v (leaveTrap p.2 (pastTrap v)) g)
          if tdstNoneBit v then leave (s, v') else writeTdst s w v' a leave) s

/-! ### SYSC (R347-R351) -/

/-- A range that a service core may be given: its first failing page's trap, or an unreachable page (R348, R349). -/
def argPages (s : State) (v : Thread) (out : Bool) : Nat → Nat → Nat → Got Bool
  | 0, _, _ => .ok true
  | fuel + 1, va, n =>
    if n = 0 then .ok true
    else (translate s (threadCore s v) (threadEnclave s v) (if out then .write else .read) va).bind fun p =>
      let m := min n (65536 - va % 65536)
      (argPages s v out fuel (wrap 64 (va + m : Nat)) (n - m)).map fun ok =>
        ok && p.fmt == 0 && !p.device && (potOf s (p.at va)).type == 1 && !(potOf s (p.at va)).rstr

/-- Threads of a launch. -/
def Header.threads (h : Header) : Nat := h.extents.getD 0 1 * h.extents.getD 1 1 * h.bentCount

/-- Whether a range meets the private spill areas of a launch (R70, R348). -/
def meetsSpill (h : Header) (addr n : Nat) : Bool :=
  let a := h.priv * 4096
  let m := 16 * h.privsz * h.threads
  m != 0 && addr < a + m && a < addr + n

/-- A descriptor of a request block: address, length, OUT. -/
abbrev Arg := DWord × Nat × Bool

/-- The descriptors from number i, checked in order (R348). -/
def argCheck (s : State) (v : Thread) (h : Header) (block : Nat) (bs : List Byte) : Nat → Nat → Got (List Arg)
  | _, 0 => .ok []
  | i, n + 1 =>
    let d := bs.drop (16 + 16 * i)
    let addr := ofBytes (d.take 8)
    let len := ofBytes ((d.drop 8).take 4)
    let flags := ofBytes ((d.drop 12).take 4)
    let out := bit flags 2
    let space := kept .syscArgSpace (block + 16 + 16 * i)
    if len = 0 then (argCheck s v h block bs (i + 1) n).map fun r => ((0, 0, false) : Arg) :: r
    else if bits flags 1 0 ≠ 0 || 16777216 < len || bits flags 31 3 ≠ 0 || meetsSpill h addr len then .trap space
    else (argPages s v out 300 addr len).bind fun ok =>
      if !ok then .trap space
      else (argCheck s v h block bs (i + 1) n).map fun r => (BitVec.ofNat 64 addr, len, out) :: r

/-- A request block read and checked (R348). -/
def syscCheck (s : State) (v : Thread) (block : Nat) : Got (List Arg) :=
  if block % 64 ≠ 0 then .trap (kept .misalign block)
  else (translate s (threadCore s v) (threadEnclave s v) .read block).bind fun p =>
    let space := kept .syscArgSpace block
    let pot := potOf s (p.at block)
    if p.device || p.fmt ≠ 0 || pot.type ≠ 1 || pot.rstr then .trap space
    else if poisoned s (p.at block) then .poison (lineOf (p.at block))
    else
      let bs := homeMerged s (threadCore s v) (p.at block) 32 ++ homeMerged s (threadCore s v) (p.at block + 32) 32
      if ofBytes (bs.take 8) / 4 ≠ 0 || ofBytes ((bs.drop 8).take 8) ≠ 0 then .trap space
      else match headerOf s v with
        | some h => argCheck s v h block bs 0 (ofBytes (bs.take 8) % 4)
        | none => .ok []

/-- Whether a thread at the address of another's instruction is to execute it too: it runs, is not held at its meet address there, passes
the context checks and is predicated (R48, R123, R361). -/
def willExecute (i : Instr) (s : State) (v o : Thread) : Bool :=
  o.pc == v.pc && o.status == .running && !atMeet o && (contextCheck i o).isNone && predicated i o && !((bentOf s o.bent).any (·.full))

/-- Whether some thread of a context's bundle has a property. -/
def bundleMate (s : State) (w : Who) (p : Thread → Bool) : Bool :=
  (Tab.values s.bays).any fun b => b.bundles.any fun k => k.members.contains w && k.members.any fun
    | .thread u => (threadOf s u).any p
    | _ => false

/-- Whether a thread still has its request to post, its SYSC at most released. -/
def unposted (o : Thread) : Bool := match o.sysc with
  | none | some (.released ..) => true
  | _ => false

/-- Whether a thread of lower `wid` still has to post its request of this SYSC: one of the same bundle, or one of the same team that left
the bundle with its SYSC under way, its loads out or its ring full (R484; log entry 39). -/
def syscBefore (i : Instr) (s : State) (w : Who) (v : Thread) : Bool :=
  let first (o : Thread) : Bool := willExecute i s v o && unposted o && widOf s o < widOf s v
  bundleMate s w first || (Tab.values s.threads).any fun o => sameTeam v o && first o && (o.sysc.isSome || loadsOut o)

/-- Requests of a ring that its service cores have not taken (R346). -/
def ringLoad (s : State) (die io : Nat) : Nat := (s.requests.filter fun r => r.die == die && r.io == io && !r.taken).length

/-- A released SYSC posts its request, or stalls while its ring is full or, so `wait` says, a thread before it has not posted its own (R346, R350,
R484). -/
def syscPost (wait : Bool) (s : State) (w : Who) (v : Thread) (i : Instr) (svc : Nat) (vb : Word) (args : List Arg) : State :=
  let die := dieOf (threadCore s v)
  if Config.ringEntries ≤ ringLoad s die (svc / 128) || wait then putView s w { v with sysc := some (.released i vb args) }
  else
    let req : SyscReq := { die := die, io := svc / 128, thread := Who.threadNo w, svc := svc, vb := vb, args := args, taken := false, sent := false }
    putView { s with requests := s.requests ++ [req] } w { v with sysc := some (.posted i) }

/-- SYSC (R350): its checks, a release at `.sy` and the post, which stalls while the ring is full; then it waits, runnable, for its
reply. -/
def execSysc (svc : BitVec 8) (x : Ext) (s : State) : Result :=
  let i := Instr.sysc svc x
  run i s fun w v =>
    match v.sysc with
    | some (.released _ vb args) => .done (syscPost (syscBefore i s w v) s w v i svc.toNat vb args)
    | some _ => .stall
    | none => match readSrcs v (.reg 2 x.va) (.reg 1 x.vb) .no with
      | none => .stall
      | some (block, vb, _, _, _) =>
        onGot s v (fun s => syscCheck s v block) fun s args =>
          if loadsOut v then .stall
          else
            let wait := syscBefore i s w v
            let s := releaseAt s v.control (threadCore s v) .sy
            let (s, v') := phaseIf true s (v.released true)
            .done (syscPost wait s w v' i svc.toNat (BitVec.ofNat 32 vb) args)

/-- The oldest request of a ring is taken (R346, R350). -/
def execSyscRequestTaken (die iodie : Nat) (s : State) : Result :=
  match s.requests.find? fun r => r.die == die && r.io == iodie && !r.taken with
  | none => .next s
  | some r => match threadOf s r.thread with
    | none => .next { s with requests := s.requests.filter fun q => q != r }
    | some v =>
      let s := { s with requests := s.requests.map fun q => if q == r then { q with taken := true } else q }
      .next (setThread s r.thread { v with sysc := match v.sysc with
        | some (.posted i) => some (.taken i)
        | o => o })

/-- The checker's entry for a write by a unit outside the compute dies, at `.sy` (R244, R245). -/
def outsideEntry (u : UnitId) (enclave line : Nat) : ScopeEntry :=
  { line := line, enclave := enclave, scope := .sy, unit := u, ticket := 0, placement := 0 }

/-- Bytes a service writes to a range of its enclave, translated again, line by line; the scope checker records each (R244,
R350). -/
def serviceWrite (s : State) (enclave : Nat) : Nat → Nat → List Byte → State × Bool
  | 0, _, _ => (s, true)
  | fuel + 1, va, bs =>
    if bs.isEmpty then (s, true)
    else match touch s noCore enclave .write va with
      | (s, .ok p) =>
        if p.device then (s, false)
        else
          let n := 128 - va % 128
          let s := (track s (lineOf (p.at va)) (outsideEntry .io enclave (lineOf (p.at va)))).2
          serviceWrite (writeHome s 0 (p.at va) (bs.take n)) enclave fuel (wrap 64 (va + n : Nat)) (bs.drop n)
      | (s, _) => (s, false)

/-- Whether a service, translating a range again, reaches every page of it; demand-zero pages are filled (R220, R349, R350). -/
def serviceReach (s : State) (enclave : Nat) (out : Bool) : Nat → Nat → Nat → State × Bool
  | 0, _, _ => (s, true)
  | fuel + 1, va, n =>
    if n = 0 then (s, true)
    else match touch s noCore enclave (if out then .write else .read) va with
      | (s, .ok p) =>
        let m := min n (65536 - va % 65536)
        if p.fmt == 0 && !p.device && (potOf s (p.at va)).type == 1 && !(potOf s (p.at va)).rstr then
          serviceReach s enclave out fuel (wrap 64 (va + m : Nat)) (n - m)
        else (s, false)
      | (s, _) => (s, false)

/-- Every range that a service reads, reached again. -/
def serviceArgs (s : State) (enclave : Nat) (args : List Arg) : State × Bool :=
  args.foldl (fun (s, ok) (addr, len, out) =>
    if out || !ok then (s, ok) else serviceReach s enclave false 300 addr.toNat len) (s, true)

/-- Replies to descriptors marked OUT, within their lengths. -/
def serviceOut (s : State) (enclave : Nat) (args : List Arg) : List (Nat × List Byte) → State × Bool
  | [] => (s, true)
  | (k, bs) :: rest =>
    let (s, ok) := match args[k]? with
      | some (addr, len, true) => serviceWrite s enclave (len / 128 + 2) addr.toNat (bs.take len)
      | _ => (s, true)
    let (s, ok') := serviceOut s enclave args rest
    (s, ok && ok')

/-- Bytes that a request moves out of the package: FWRITE, DPUT and NSEND send descriptor 0 (R314, R351). -/
def SyscReq.leaves (r : SyscReq) : Nat :=
  if r.svc = 2 || r.svc = 3 || r.svc = 5 then ((r.args.head?).map (·.2.1)).getD 0 else 0

/-- Whether a request has no stream to move on: DPUT and DGET use Dreush stream vb, which must be open for the enclave; its root
refuses them otherwise (R321, R351). -/
def SyscReq.streamless (s : State) (enclave : Nat) (r : SyscReq) : Bool :=
  (r.svc == 3 || r.svc == 4) && !((Tab.get? s.streams r.vb.toNat).any fun t => t.enclave == enclave)

/-! ### LAUNCH and PLUMB -/

/-- The page of a LAUNCH's header: checks 1 to 6 of R214 as a read (R433, R509). -/
def launchPage (s : State) (v : Thread) (h : Nat) : Got Page :=
  (translate s (threadCore s v) (threadEnclave s v) .read h).bind fun p => if p.device then .trap (kept .pageProt h) else .ok p

/-- The 128 bytes of a header, read at `.dv` (R433). -/
def launchHeader (s : State) (v : Thread) (h : Nat) : Got (List Byte × State) :=
  (launchPage s v h).bind fun p =>
    if p.fmt ≠ 0 then loadView s v p (h - p.va) 128
    else (readHome s (p.at h) 128).map fun bs => (bs, touchL2 s (partOf s v) (lineOf (p.at h)) false)

/-- What LAUNCH finds at its queue: a status that ends it, or the page and address of the slot it appends to (R433). -/
def launchSlot (s : State) (v : Thread) (q : Nat) : State × Except Nat (Page × Nat) :=
  let enclave := threadEnclave s v
  match enclaveOf s enclave with
  | none => (s, .error 1)
  | some e =>
    let k := e.queue q
    if !k.en then (s, .error 1)
    else if used k.tail k.head = 2 ^ k.logd then (s, .error 2)
    else
      let slot := k.ring * 4096 + 128 * (k.tail % 2 ^ k.logd)
      match touchFor s (partOf s v) (threadCore s v) enclave .write slot with
      | (s, .ok p) => (s, if p.device then .error 3 else .ok (p, slot))
      | (s, _) => (s, .error 3)

/-- The header copied into its slot, and the queue's TAIL moved on (R433). -/
def launchAppend (s : State) (v : Thread) (q : Nat) (p : Page) (slot : Nat) (bs : List Byte) : Nat × State :=
  let enclave := threadEnclave s v
  let tail := ((enclaveOf s enclave).map fun e => (e.queue q).tail).getD 0
  (2 ^ 16 * tail, setQueue (writeHome s (partOf s v) (p.at slot) bs) enclave q fun k => { k with tail := (k.tail + 1) % 65536 })

/-- Whether a thread of lower `wid` of the same bundle still has to execute this LAUNCH: it appends first (R433). -/
def launchBefore (i : Instr) (s : State) (w : Who) (v : Thread) : Bool :=
  bundleMate s w fun o => willExecute i s v o && widOf s o < widOf s v

/-- LAUNCH: the header is translated, the thread releases at `.sy`, and at the queue, after the threads of its bundle that come before
it, the header is read only to be appended (R433). -/
def execLaunch (q : BitVec 6) (x : Ext) (s : State) : Result :=
  let i := Instr.launch q x
  run i s fun w v =>
    let h := regNum v x.va.toNat 2
    if h % 128 ≠ 0 then .trap (kept .misalign h)
    else onGot s v (fun s => launchPage s v h) fun s _ =>
      if loadsOut v || launchBefore i s w v then .stall
      else
        let s := releaseAt s v.control (threadCore s v) .sy
        let (s, v') := phaseIf true s (v.released true)
        match launchSlot s v q.toNat with
        | (s, .error r) => .done (putView s w { setRegs v' x.vd.toNat 1 r with pc := v.next i })
        | (s, .ok (p, slot)) => onGot s v (fun s => launchHeader s v h) fun _ (bs, s) =>
          let (r, s) := launchAppend s v q.toNat p slot bs
          .done (putView s w { setRegs v' x.vd.toNat 1 r with pc := v.next i })

/-- A plumb trigger on its way to the controller (R357). -/
def fireTrigger (s : State) : State := { s with mgmt := { s.mgmt with triggers := s.mgmt.triggers + 1 } }

/-- Whether another thread of the bundle under way still has to execute this PLUMB: one issue fires one trigger (R461). -/
def laterPlumb (i : Instr) (s : State) (v : Thread) : Bool :=
  ((s.issue.head?).getD []).any fun
    | .thread u => (threadOf s u).any fun o => willExecute i s v o && threadDebug s o
    | _ => false

def execPlumb (x : Ext) (s : State) : Result :=
  let i := Instr.plumb x
  run i s fun w v =>
    let s' := logDebug s 4 v (threadDebug s v)
    let s' := if threadDebug s v && !laterPlumb i s v then fireTrigger s' else s'
    .done (putView s' w { v with pc := v.next i })

end Sys2Proof.Machine
end

