-- ==== Sys2Proof/Machine/Matrix.lean ====
section
/-! DEFINITION. Matrix quarters: shape records, the arithmetic of a pass, the command queue, the merge at the homes, errors
and pairing (R151-R184, R441, R444-R446). -/

namespace Sys2Proof.Machine

/-! ### Arithmetic of a pass (R151-R155) -/

/-- A bf16 element as the quarter multiplies it: a subnormal is a zero of its sign (R152). -/
def cimValue (x : Nat) : FVal :=
  match Fmt.bf16.decode x with
  | .num neg m e => .num neg (if m < 128 then 0 else m) e
  | v => v

/-- A rounding to f32 under RNE. -/
def toF32 (v : FVal) : Nat := (Fmt.f32.round .dflt 0 false v).1

/-- floor(log2 |p|) of a nonzero product. -/
def leading : FVal → Option Int
  | .num _ m e => if m = 0 then none else some (e + Nat.log2 m)
  | _ => none

/-- floor(p / 2^u) of a finite product (R153). -/
def truncTo (u : Int) : FVal → Int
  | .num neg m e =>
    let n : Int := if neg then -(m : Int) else m
    if u ≤ e then n * (2 ^ (e - u).toNat : Nat) else Int.fdiv n (2 ^ (u - e).toNat : Nat)
  | _ => 0

/-- Greatest of some exponents. -/
def greatest : List Int → Option Int
  | [] => none
  | x :: xs => some (xs.foldl max x)

/-- Result of one group of products (R153, R155). -/
def groupSum (ps : List FVal) : Nat :=
  if ps.any FVal.isNan then 0x7FC00000
  else
    let infs := ps.filterMap fun p => match p with
      | .inf n => some n
      | _ => none
    match infs with
    | n :: rest => if rest.any (· != n) then 0x7FC00000 else toF32 (.inf n)
    | [] => match greatest (ps.filterMap leading) with
      | none => 0
      | some e =>
        let v := ps.foldl (fun a p => a + truncTo (e - 48) p) 0
        if v = 0 then 0 else toF32 (.num (v < 0) v.natAbs (e - 48))

/-- The first n items of a list and the rest, as the groups of a pass. -/
def groupsOf (n : Nat) : Nat → List FVal → List (List FVal)
  | 0, _ => []
  | fuel + 1, ps => if ps.isEmpty then [] else ps.take n :: groupsOf n fuel (ps.drop n)

/-- An f32 sum under RNE (R138, R143). -/
def addF32 (x y : Nat) : Nat := toF32 (FVal.add false (Fmt.f32.decode x) (Fmt.f32.decode y)).1

/-- The partial of one column: group results added in ascending order (R154). -/
def partial' (a b : List Nat) : Nat :=
  let ps := (a.zip b).map fun (x, y) => (FVal.mul (cimValue x) (cimValue y)).1
  match (groupsOf 32 (ps.length + 1) ps).map groupSum with
  | [] => 0
  | g :: gs => gs.foldl addF32 g

/-! ### Shape records (R165, R166) -/

structure Shape where
  base : Nat
  stride : Nat
  type : Nat
  rsv : Nat
  cols : Nat
  rows : Nat
  deriving DecidableEq, Repr

def shapeOf (d : BitVec 128) : Shape :=
  let x := d.toNat
  { base := bits x 127 64, stride := bits x 63 40, type := bits x 39 35, rsv := bits x 34 28, cols := bits x 27 16,
    rows := bits x 15 0 }

def Thread.shape (v : Thread) (r : BitVec 4) : BitVec 128 := Tab.getD v.recs r.toNat 0

/-- Uses of a record. -/
inductive Use where
  | a | b | acc
  deriving DecidableEq, Repr

/-- Reasons 0x01 to 0x03 on a record (R166). -/
def Shape.bad (d : Shape) (u : Use) : Nat → Bool
  | 1 => d.type != (if u == .acc then 4 else 5) || d.rsv != 0
  | 2 => d.rows == 0 || d.cols == 0 || (match u with
      | .a => 1024 < d.cols
      | .b => 1024 < d.rows || 256 < d.cols
      | .acc => false)
  | _ =>
    let es := if u == .acc then 4 else 2
    d.stride < d.cols * es || d.stride % es != 0 || d.base % es != 0 ||
      (u == .acc && (d.base % 128 != 0 || d.stride % 128 != 0))

/-- MATRIX_SHAPE on a record for a reason. -/
def shapeTrap (r : BitVec 4) (reason : Nat) : Kept := kept .matrixShape (r.toNat + 256 * reason)

/-- The first failing check of a list of (fails, record, reason). -/
def firstShape (l : List (Bool × BitVec 4 × Nat)) : Option Kept :=
  (l.find? (·.1)).map fun (_, r, n) => shapeTrap r n

/-! ### The quarter of a matrix thread -/

/-- The quarter a matrix thread drives. -/
def controlQuarter (s : State) (v : Thread) : Option Nat := (bentOf s v.bent).bind (·.control)

/-- An instruction of the matrix class in a matrix thread with its quarter. -/
def matrixRun (i : Instr) (s : State) (body : Who → Thread → Nat → Eff) : Result :=
  run i s fun w v => match controlQuarter s v with
    | some q => body w v q
    | none => .stall

/-- The deferred fault is raised before the instruction's own effect (R180, R446). -/
def afterDeferred (s : State) (q : Nat) (body : Eff) : Eff :=
  match (quarterOf s q).deferred with
  | some k => .deferred k (setQuarter s q fun x => { x with deferred := none })
  | none => body

def execMdesc (r : BitVec 4) (x : Ext) (s : State) : Result :=
  matrixRun (.mdesc r x) s fun w v _ =>
    let base := regNum v x.va.toNat 2
    let b := regNum v x.vb.toNat 1
    let c := regNum v x.vc.toNat 1
    let d := Sys2Proof.pack [(16, bits b 15 0), (12, bits b 27 16), (4, bits b 31 28), (3, bits c 7 5), (5, bits c 4 0), (24, bits c 31 8), (64, base)]
    .done (putView s w { v with recs := Tab.set v.recs r.toNat (BitVec.ofNat 128 d), pc := v.next (.mdesc r x) })

/-! ### Translation at issue (R168) -/

/-- The addresses at which a range first meets each page it may lie in. -/
def pagePoints (va len : Nat) : List Nat :=
  let last := va + len - 1
  if va / 65536 = last / 65536 then [wrap 64 va] else [wrap 64 va, wrap 64 (last / 65536 * 65536 : Nat)]

/-- A page of a list that holds an address. -/
def pageFor (ps : List Page) (va : Nat) : Option Page := ps.find? fun p => p.va ≤ va && va < p.va + p.size

/-- The page of an address added to those captured; `raw` says that a decoded view there raises FMT_SCALE. -/
def capture (s : State) (core enclave : Nat) (a : Access) (scale : Bool) (ps : List Page) (va : Nat) : Got (List Page) :=
  let check (p : Page) : Got (List Page) :=
    if scale && (p.fmt != 0 || p.device) then .trap (kept .fmtScale va)
    else if p.device then .trap (kept .pageProt va)
    else .ok (if ps.contains p then ps else p :: ps)
  match pageFor ps va with
  | some p => check p
  | none => (translate s core enclave a va).bind check

/-- Pages of several addresses. -/
def captureAll (s : State) (core enclave : Nat) (a : Access) (scale : Bool) : List Nat → List Page → Got (List Page)
  | [], ps => .ok ps
  | va :: vas, ps => (capture s core enclave a scale ps va).bind fun ps => captureAll s core enclave a scale vas ps

/-- Pages one row of B touches from an address: its elements', their scales' and their codebook line's. -/
def captureView (s : State) (core enclave ctxt : Nat) (va len : Nat) (ps : List Page) : Got (List Page) :=
  match pageFor ps va with
  | none => .ok ps
  | some p =>
    if p.fmt = 0 then .ok ps
    else
      let first := (va - p.va) / 2
      let last := (min (va + len) (p.va + p.size) - 1 - p.va) / 2
      let sc := scaleVa p first
      let g := if bits p.fmt 6 5 = 0 then .ok ps
        else captureAll s core enclave .read true (pagePoints sc (scaleVa p last - sc + 1)) ps
      g.bind fun ps =>
        if viewTy p.fmt != .cb4 then .ok ps
        else
          let line := wrap 64 (ctxt + 0x2000 + 32 * bits p.fmt 12 7 : Nat)
          if ctxt = 0 then .trap (kept .pageProt line) else captureAll s core enclave .read false [line] ps

/-- Pages an MLDB touches, row by row (R168). -/
def captureB (s : State) (core enclave ctxt : Nat) (d : Shape) : List Nat → List Page → Got (List Page)
  | [], ps => .ok ps
  | k :: ks, ps =>
    let va := wrap 64 (d.base + k * d.stride : Nat)
    let n := 2 * d.cols
    (captureAll s core enclave .read false (pagePoints va n) ps).bind fun ps =>
      ((pagePoints va n).foldl (fun g a => Got.bind g (captureView s core enclave ctxt a (va + n - a))) (Got.ok ps)).bind
        (captureB s core enclave ctxt d ks)

/-- Pages of accumulator rows, and of the tile's descriptor line (R168). -/
def captureAcc (s : State) (core enclave : Nat) (d : Shape) (rows : List Nat) : Got (List Page) :=
  captureAll s core enclave .write false
    ((rows.map fun m => pagePoints (wrap 64 (d.base + m * d.stride : Nat)) (4 * d.cols)).flatten ++ [wrap 64 ((d.base : Int) - 128)]) []

/-- The pages that an operation has translated, filled as a walk's: its entries and TLBs, under the partition of the quarter's column (R168,
R215, R331). -/
def fillPages (s : State) (v : Thread) (ps : List Page) : State :=
  ps.foldl (fun s p => fillTlb s (partOf s v) (threadCore s v) (threadEnclave s v) p.va) s

/-- Physical address through captured pages. -/
def paOf (ps : List Page) (va : Nat) : Nat := ((pageFor ps va).map (·.at va)).getD 0

/-- The physical line of a tile's descriptor. -/
def descLine (ps : List Page) (d : Shape) : Nat := lineOf (paOf ps (wrap 64 ((d.base : Int) - 128)))

/-- An operation with nothing said. -/
def MatOp.plain : MatOp :=
  { kind := .fill, seq := 0, a := 0, c := 0, row := 0, left := 0, feed := false, ord := false, pair := false, chunk := 0, rank := 0,
    desc := 0, pages := [], loaded := none }

/-- An operation entering a quarter's command queue, which has 8 places (R158, R167). -/
def enqueue (s : State) (q : Nat) (o : MatOp) : State :=
  setQuarter { s with cmdSeq := s.cmdSeq + 1 } q fun k => { k with ops := k.ops ++ [{ o with seq := s.cmdSeq }] }

/-- Whether a quarter's command queue has no place left. The operation in progress takes its place until it has completed, which is the
model's choice (R167; log entry 62). -/
def queueFull (s : State) (q : Nat) : Bool := Config.commandQueue ≤ (quarterOf s q).ops.length

def execMldb (r : BitVec 4) (x : Ext) (s : State) : Result :=
  matrixRun (.mldb r x) s fun w v q => afterDeferred s q <|
    let d := shapeOf (v.shape r)
    match firstShape [(d.bad .b 1, r, 1), (d.bad .b 2, r, 2), (d.bad .b 3, r, 3)] with
    | some k => .trap k
    | none => onGot s v (fun s => captureB s (threadCore s v) (threadEnclave s v) (ctxtNum s v) d (upFrom 0 d.rows) []) fun s ps =>
      if queueFull s q then .stall
      else
        let s := enqueue (fillPages s v ps) q { MatOp.plain with kind := .fill, a := v.shape r, pages := ps }
        let s := setQuarter s q fun k => { k with issued := some (d.rows, d.cols), dead := false }
        .done (putView s w { v with pc := v.next (.mldb r x) })

/-- SCRATCH and block count of a thread's launch. -/
def launchScratch (s : State) (v : Thread) : Nat := ((headerOf s v).map (·.scratch)).getD 0

/-- The checks of an MROW in the order of R166. -/
def rowsCheck (s : State) (v : Thread) (q : Nat) (a c : BitVec 4) (feed ord pair : Bool) (noRank : Bool) (rows rank chunk : Nat) :
    Option Kept :=
  let A := shapeOf (v.shape a)
  let C := shapeOf (v.shape c)
  let row0 := bits rows 31 16
  let count := bits rows 15 0
  let bank := (quarterOf s q).issued
  firstShape
    [(A.bad .a 1, a, 1), (C.bad .acc 1, c, 1), (A.bad .a 2, a, 2), (C.bad .acc 2, c, 2), (A.bad .a 3, a, 3), (C.bad .acc 3, c, 3),
     (bank.any (fun b => A.cols != b.1), a, 4), (bank.any (fun b => C.cols != b.2) || C.cols % 32 != 0, c, 5),
     (count == 0 || A.rows < row0 + count, a, 6), (C.rows < row0 + count, c, 6),
     (if feed then !noRank
       else blockCount s v.bent ≤ rank || launchScratch s v < A.base + (row0 + count - 1) * A.stride + 2 * A.cols, a, 7),
     (256 ≤ chunk || (chunk != 0 && !ord), a, 8),
     (pair && !((headerOf s v).any (·.paired)), a, 9),
     (bank.isNone, a, 10)]

/-- MROW (R170, R445). One to a cancelled tile completes at once, unless an MZERO that begins the tile anew stands before it in the queue
(R173, R182). -/
def execMrow (a c : BitVec 4) (feed ord pair : Bool) (x : Ext) (s : State) : Result :=
  let i := Instr.mrow a c feed ord pair x
  matrixRun i s fun w v q => afterDeferred s q <|
    let rows := regNum v x.va.toNat 1
    let rank := regNum v x.vb.toNat 1
    let chunk := regNum v x.vc.toNat 1
    match rowsCheck s v q a c feed ord pair (x.vb.toNat == vzero) rows rank chunk with
    | some k => .trap k
    | none =>
      let C := shapeOf (v.shape c)
      let row0 := bits rows 31 16
      let count := bits rows 15 0
      onGot s v (fun s => captureAcc s (threadCore s v) (threadEnclave s v) C (upFrom row0 count)) fun s ps =>
        let v' := { v with pc := v.next i }
        let desc := descLine ps C
        let zeroed := (quarterOf s q).ops.any fun o => o.kind == .zero && o.desc == desc
        if (quarterOf s q).dead || (pair && s.cancelled.contains desc && !zeroed) then .done (putView s w v')
        else if queueFull s q then .stall
        else
          .done (putView (enqueue (fillPages s v ps) q { MatOp.plain with
            kind := .rows, a := v.shape a, c := v.shape c, row := row0, left := count, feed := feed, ord := ord, pair := pair,
            chunk := chunk, rank := rank, desc := desc, pages := ps }) w v')

def execMzero (r : BitVec 4) (x : Ext) (s : State) : Result :=
  matrixRun (.mzero r x) s fun w v q =>
    let d := shapeOf (v.shape r)
    let n := regNum v x.va.toNat 1
    match firstShape [(d.bad .acc 1, r, 1), (d.bad .acc 2, r, 2), (d.bad .acc 3, r, 3), (255 < n, r, 8)] with
    | some k => .trap k
    | none => onGot s v (fun s => captureAcc s (threadCore s v) (threadEnclave s v) d (upFrom 0 d.rows)) fun s ps =>
      if queueFull s q then .stall
      else
        .done (putView (enqueue (fillPages s v ps) q { MatOp.plain with kind := .zero, c := v.shape r, chunk := n, desc := descLine ps d, pages := ps }) w
          { v with pc := v.next (.mzero r x) })

/-- MSYNC status (R176). -/
def Quarter.status (k : Quarter) : Nat := Sys2Proof.pack [(1, ofBool k.pairFailed), (1, ofBool k.order), (1, ofBool (!k.errs.isEmpty))]

def execMsync (x : Ext) (s : State) : Result :=
  matrixRun (.msync x) s fun w v q => afterDeferred s q <|
    if !quarterIdle s q then .stall
    else
      let k := quarterOf s q
      .done (putView (setQuarter s q fun k => { k with order := false, pairFailed := false }) w
        { setRegs v x.vd.toNat 1 k.status with pc := v.next (.msync x) })

/-- The oldest error record as MSTAT reads it, and the quarter without it (R178). -/
def takeError (k : Quarter) : Nat × Quarter :=
  match k.errs with
  | [] => (0, k)
  | e :: rest => (e.toNat + k.more * 2 ^ 56, { k with errs := rest, more := if rest.isEmpty then 0 else k.more })

def execMstat (x : Ext) (s : State) : Result :=
  matrixRun (.mstat x) s fun w v q =>
    let (r, _) := takeError (quarterOf s q)
    .done (putView (setQuarter s q fun k => (takeError k).2) w { setRegs v x.vd.toNat 2 r with pc := v.next (.mstat x) })

/-! ### Binding (R159, R160) -/

/-- A bent's matrix thread that waits for its quarter. -/
def awaits (q : Nat) (b : Bent) : Bool :=
  b.control.isNone && match Tab.get? b.blocks 0 with
    | some k => quarterId (pkgCluster k.core) k.bay == q
    | none => false

/-- The matrix thread of a bent that has not ended, or one whose resumed bent still brings operations to complete (R164, R184). -/
def matrixThread (s : State) (ticket : Nat) : Option (Nat × Thread) :=
  s.threads.find? fun e => e.2.control && e.2.bent == ticket && (e.2.status != .exited || ((bentOf s ticket).bind (·.restore)).isSome)

/-- The bent that takes a free quarter next: dispatch order (R159). -/
def nextBinder (s : State) (q : Nat) : Option Nat :=
  ((sortBy (fun e : Nat × Bent => e.2.stamp) (s.bents.filter fun e => awaits q e.2 && (matrixThread s e.1).isSome)).head?).map (·.1)

/-- Whether a quarter is in service (R33, R345). -/
def inService (s : State) (q : Nat) : Bool := (clusterOfPkg s (q / 4)).qsvc.getLsbD (q % 4)

/-- A trap that a matrix thread meets whenever it is about to run at its unusable entry (R160). -/
def entryTrap (s : State) (t : Nat) (v : Thread) : Option State :=
  match v.control && v.status != .exited, v.trapActive, v.mxtrap with
  | true, false, some k => some (takeTrap s (.thread t) v k { pc := v.pc, len := 0, tdst := tdstNone })
  | _, _, _ => none

/-- A bent of a quarter out of service halts; the notice names the quarter (R159, R289). -/
def haltUnserved (s : State) (v : Thread) (q : Nat) : State :=
  haltBentAs s v (threadEnclave s v) 0x04 0 0 0 (quarterUnit q)

/-- An operation of a resumed bent with its addresses translated again: its fill reads through the tables as they now stand
(R184). -/
def recapture (s : State) (v : Thread) (o : MatOp) : Got MatOp :=
  let core := threadCore s v
  let enclave := threadEnclave s v
  match o.kind with
  | .fill => (captureB s core enclave (ctxtNum s v) (shapeOf o.a) (upFrom 0 (shapeOf o.a).rows) []).map fun ps => { o with pages := ps }
  | .rows => (captureAcc s core enclave (shapeOf o.c) (upFrom o.row o.left)).map fun ps => { o with pages := ps, desc := descLine ps (shapeOf o.c) }
  | .zero => (captureAcc s core enclave (shapeOf o.c) (upFrom 0 (shapeOf o.c).rows)).map fun ps =>
      { o with pages := ps, desc := descLine ps (shapeOf o.c) }

/-- A held segment of a resumed bent, at its line as the tables now map it (R184). -/
def resend (s : State) (v : Thread) (q : Nat) (g : Segment) : Got Segment :=
  let at' (va : Nat) : Got Nat := (translate s (threadCore s v) (threadEnclave s v) .write va).bind fun p =>
    if p.device then .trap (kept .pageProt va) else .ok (lineOf (p.at va))
  (at' g.va).bind fun l => (at' g.descVa).map fun d => { g with quarter := q, held := false, refused := false, line := l, desc := d }

/-- What a translation made again on resume comes to, demand-zero pages filled: a value, a fault that the quarter defers, or a
poisoned line, which halts the bent. -/
def again {α : Type} (s : State) (v : Thread) (g : State → Got α) : State × Except (Kept ⊕ Nat) α :=
  match retry v retryPages s g with
  | (s, .ok x) => (s, .ok x)
  | (s, .trap k) => (fillTlb s (partOf s v) (threadCore s v) (threadEnclave s v) k.info.toNat, .error (.inl k))
  | (s, .fill va) => (s, .error (.inl (kept .pageNotPresent va)))
  | (s, .poison l) => (s, .error (.inr l))

/-- The operations of a list translated again; the first one that fails ends it with its fault. -/
def recaptureAll (v : Thread) : List MatOp → State → State × List MatOp × Option (Kept ⊕ Nat)
  | [], s => (s, [], none)
  | o :: os, s => match again s v fun s => recapture s v o with
    | (s, .ok o') =>
      let (s, os', k) := recaptureAll v os (fillPages s v o'.pages)
      (s, o' :: os', k)
    | (s, .error k) => (s, [], some k)

/-- The held segments of a list sent again; one whose tile was cancelled meanwhile is gone (R182, R184). -/
def resendAll (v : Thread) (q : Nat) : List Segment → State → State × List Segment × Option (Kept ⊕ Nat)
  | [], s => (s, [], none)
  | g :: gs, s => match again s v fun s => resend s v q g with
    | (s, .ok g') =>
      let (s, gs', k) := resendAll v q gs ([g.va, g.descVa].foldl (fun s va => fillTlb s (partOf s v) (threadCore s v) (threadEnclave s v) va) s)
      (s, if s.cancelled.contains g'.desc then gs' else g' :: gs', k)
    | (s, .error k) => (s, [], some k)

/-- MROWs after a failed fill, up to the next one. -/
def dropRows : List MatOp → List MatOp
  | [] => []
  | o :: os => if o.kind == .rows then dropRows os else if o.kind == .fill then o :: os else o :: dropRows os

/-- The number of the last MLDB of a queue. -/
def lastFill (ops : List MatOp) : Option Nat := ((ops.filter (·.kind == .fill)).getLast?).map (·.seq)

/-- A bent takes its quarter: a new one as it comes up, or with what its save record kept, whose translations are made again; one
that fails there is deferred as a fill fault is. The MROWs that would use a bank that cannot be loaded any more are discarded with it
(R159, R179, R184; log entry 57). -/
def bindQuarter (s : State) (q b : Nat) (v : Thread) : State :=
  let cut := ((bentOf s b).map (·.pairCut)).getD false
  let rows := (quarterOf s q).accepted
  let back := (bentOf s b).bind (·.restore)
  let s := { s with bents := Tab.modify s.bents b fun x => { x with control := some q, restore := none, pairCut := false } }
  match back with
  | none => setQuarter s q fun _ => { Quarter.reset with bound := some b, pairFailed := cut, accepted := rows }
  | some (k, segs) =>
    let (s, active, f1) := recaptureAll v k.active.toList s
    let (s, ops, f2) := recaptureAll v k.ops s
    let (s, segs, f3) := resendAll v q segs s
    let fault := f1.or (f2.or f3)
    let ops := if f1.isSome then dropRows ops else ops
    let lost := match lastFill k.ops with
      | some n => lastFill ops != some n
      | none => f1.isSome
    let deferred := k.deferred.or (fault.bind fun f => f.getLeft?)
    let s := setQuarter { s with segments := s.segments ++ segs } q fun _ =>
      { k with
        bound := some b, active := active.head?, ops := ops, deferred := deferred, pairFailed := k.pairFailed || cut, dead := k.dead || lost
        accepted := rows }
    match fault with
    | some (.inr l) => integrityHalt s (some v) l ((sideOf s l).code == 0x29)
    | _ => s

/-- Completion of a bent that had only its quarter left (R44, R164). -/
def settleQuarter (s : State) (q : Nat) : State :=
  match (quarterOf s q).bound with
  | some b => finishBent s b
  | none => s

def execQuarterBind (q : Nat) (s : State) : Result :=
  if (quarterOf s q).bound.isSome then .next s
  else match nextBinder s q with
    | none => .next s
    | some b => match matrixThread s b with
      | none => .next s
      | some (t, v) =>
        if !inService s q then .next (haltUnserved s v q)
        else
          let s := settleQuarter (bindQuarter s q b v) q
          .next (((threadOf s t).bind (entryTrap s t)).getD s)

/-! ### Fills and swaps (R169, R178, R179) -/

/-- Enclave and context of the bent that holds a quarter. -/
def quarterClient (s : State) (q : Nat) : Nat × Nat :=
  match (quarterOf s q).bound.bind (launchOfBent s) with
  | some l => (l.enclave, l.hdr.ctxt.toNat)
  | none => (0, 0)

/-- Element (k, n) of B as the loader reads it (R148, R169), through the pages captured at issue (R168). -/
def loadElem (s : State) (ctxt : Nat) (o : MatOp) (d : Shape) (k n : Nat) : Got Nat :=
  let va := wrap 64 (d.base + k * d.stride + 2 * n : Nat)
  let look (a : Nat) : Got Page := match pageFor o.pages a with
    | some p => .ok p
    | none => .trap (kept .pageNotPresent a)
  (look va).bind fun p =>
    if p.fmt = 0 then (readHome s (p.at va) 2).map ofBytes else viewElem s look ctxt p ((va - p.va) / 2)

/-- Elements of B by position 256·k + n, those not zero listed. -/
def loadElems (s : State) (ctxt : Nat) (o : MatOp) (d : Shape) : List Nat → Got (Tab (BitVec 16))
  | [] => .ok []
  | i :: is => (loadElem s ctxt o d (i / d.cols) (i % d.cols)).bind fun e =>
    (loadElems s ctxt o d is).map fun t => if e = 0 then t else (256 * (i / d.cols) + i % d.cols, BitVec.ofNat 16 e) :: t

/-- The tile of an MLDB. -/
def loadTile (s : State) (q : Nat) (o : MatOp) : Got BTile :=
  let d := shapeOf o.a
  (loadElems s (quarterClient s q).2 o d (upFrom 0 (d.rows * d.cols))).map fun t => { k := d.rows, n := d.cols, data := t }

/-- Physical lines that loading a tile reads: those of its rows, raw or through a view (R169, R331). -/
def tileLines (s : State) (q : Nat) (o : MatOp) : List Nat :=
  let d := shapeOf o.a
  let (enclave, ctxt) := quarterClient s q
  ((upFrom 0 d.rows).flatMap fun k =>
    let va := wrap 64 (d.base + k * d.stride : Nat)
    (upFrom 0 ((2 * d.cols + 127) / 128 + 1)).flatMap fun j =>
      let a := if j = 0 then va else wrap 64 (va / 128 * 128 + 128 * j : Nat)
      if va + 2 * d.cols ≤ a then []
      else match pageFor o.pages a with
        | some p => if p.fmt = 0 then [lineOf (p.at a)]
          else viewLines s noCore enclave ctxt p (a - p.va) (min (va + 2 * d.cols - a) (128 - a % 128))
        | none => []).eraseDups

/-- The lines of a tile read at their homes, under the partition of the quarter's column (R195, R331). -/
def touchTile (s : State) (q : Nat) (o : MatOp) : State :=
  (tileLines s q o).foldl (fun s l => touchL2 s (quarterPart s q) l false) s

/-- An MSTAT record; MORE is set when it is read (R178). -/
def errRecord (q : Nat) (a : Bool) (row k n : Nat) : DWord :=
  BitVec.ofNat 64 (Sys2Proof.pack [(8, n), (8, 0), (10, k), (6, 0), (16, row), (2, q % 4), (12, 0), (1, ofBool a), (1, 1)])

/-- An element error recorded, or counted once eight records are held (R178). -/
def Quarter.note (k : Quarter) (e : DWord) : Quarter :=
  if k.errs.length < 8 then { k with errs := k.errs ++ [e] } else { k with more := min 63 (k.more + 1) }

/-- The first fill of the queue, when it may run: only MROWs stand before it (R167, R169). -/
def nextFill (k : Quarter) : Option MatOp :=
  match k.active with
  | some o => if o.loaded.isNone then some o else rest
  | none => rest
where
  rest : Option MatOp := match k.ops.find? fun o => o.kind != .rows with
    | some o => if o.kind == .fill then some o else none
    | none => none

/-- A fill finishing early, its tile in the shadow bank; a failed or poisoned one waits for its own event. -/
def fillShadow (s : State) (q : Nat) : State :=
  match nextFill (quarterOf s q) with
  | none => s
  | some o =>
    if o.loaded.isSome then s
    else match loadTile s q o with
      | .ok t => setQuarter (touchTile s q o) q fun k => { k with
          active := k.active.map fun x => if x.seq == o.seq then { x with loaded := some t } else x
          ops := k.ops.map fun x => if x.seq == o.seq then { x with loaded := some t } else x }
      | _ => s

/-- Uncorrectable elements of a newly loaded bank: each reads +0 and is recorded once (R178). -/
def spoil (q : Nat) (bad : List (Nat × Nat)) (k : Quarter) : Quarter :=
  match k.active.bind (·.loaded) with
  | none => k
  | some t =>
    let here := bad.filter fun (r, c) => r < t.k && c < t.n
    let k := { k with active := k.active.map fun o => { o with loaded := some { t with
      data := t.data.filter fun e => !(here.any fun (r, c) => 256 * r + c == e.1) } } }
    here.foldl (fun k (r, c) => k.note (errRecord q false 0 r c)) k

/-- Whether a quarter streams: its bent is not asked to stop (R183). -/
def quarterLive (s : State) (q : Nat) : Bool :=
  match (quarterOf s q).bound.bind (bentOf s) with
  | some b => b.request.isNone
  | none => false

/-- The fill completes and the banks swap, when it is the queue's head: every MROW issued before it has streamed (R169). A
bank restored on resume loads in place (R184). `bad` lists the elements found uncorrectable (R178). -/
def execBankSwap (q : Nat) (bad : List (Nat × Nat)) (s : State) : Result :=
  match nextFill (quarterOf s q) with
  | none => .next s
  | some o =>
    let restored := ((quarterOf s q).active.map (·.seq)) == some o.seq
    if !quarterLive s q then .next s
    else if !restored && ((quarterOf s q).ops.head?.map (·.seq)) != some o.seq then .next s
    else
      let g : Got BTile := match o.loaded with
        | some t => .ok t
        | none => loadTile s q o
      match g with
      | .ok t => .next (settleQuarter (setQuarter (if o.loaded.isNone then touchTile s q o else s) q fun k => spoil q bad { k with
          active := some { o with loaded := some t }, ops := k.ops.filter (·.seq != o.seq) }) q)
      | .poison l => .next (integrityHalt s (((quarterOf s q).bound.bind (matrixThread s)).map (·.2)) l ((sideOf s l).code == 0x29))
      | _ => .next s

/-- A quarter whose fill failed with a fault: the fill and the MROWs that would use its tile are gone, the fault is
deferred (R179). That a fault found while an earlier one still waits to be raised is dropped (R180), and that a discarded MROW counts as
complete, so that the trap cancels nothing for it (R182), are the model's choices (log entry 62). -/
def failFill (x : Quarter) (seq : Nat) (f : Kept) : Quarter :=
  let before := x.ops.takeWhile (·.seq != seq)
  let after := (x.ops.dropWhile (·.seq != seq)).drop 1
  let ops := if before.length = x.ops.length then dropRows x.ops else before ++ dropRows after
  { x with
    active := if (x.active.map (·.seq)) == some seq then none else x.active
    ops := ops
    dead := !(ops.any (·.kind == .fill))
    deferred := match x.deferred with
      | some d => some d
      | none => some f }

/-- A fill whose data is found faulty on arrival: no swap, the MROWs that would use its tile are discarded, and the fault
is deferred (R179). -/
def execFillFault (q : Nat) (s : State) : Result :=
  match nextFill (quarterOf s q) with
  | none => .next s
  | some o => match o.loaded, loadTile s q o with
    | none, .trap k => .next (settleQuarter (setQuarter s q fun x => failFill x o.seq k) q)
    | _, _ => .next s

/-! ### Rows (R170-R172) -/

/-- The K elements of A row m, and the feed words left; none while the feed queue is short (R170). The scratchpad of a block that has ended
reads zero, which is the model's choice (log entry 62). -/
def rowData (s : State) (q : Nat) (o : MatOp) : Option (List Nat × List Word) :=
  let k := quarterOf s q
  let d := shapeOf o.a
  if o.feed then
    let n := (d.cols + 1) / 2
    if k.feed.length < n then none
    else
      let ws := (k.feed.take n).map fun w => [bits w.toNat 15 0, bits w.toNat 31 16]
      some (ws.flatten.take d.cols, k.feed.drop n)
  else
    let bs := scratchRead s (k.bound.getD 0) o.rank (d.base + o.row * d.stride) (2 * d.cols)
    some ((wordsOfBytes (bs ++ [0, 0])).flatMap (fun w => [bits w.toNat 15 0, bits w.toNat 31 16]) |>.take d.cols, k.feed)

/-- Column n of a bank. -/
def BTile.column (t : BTile) (n : Nat) : List Nat := (upFrom 0 t.k).map fun k => (Tab.getD t.data (256 * k + n) 0).toNat

/-- The segments of one row (R172). -/
def rowSegments (q : Nat) (ticket : Nat) (o : MatOp) (t : BTile) (a : List Nat) : List Segment :=
  let c := shapeOf o.c
  (upFrom 0 (t.n / 32)).map fun j =>
    { line := lineOf (paOf o.pages (wrap 64 (c.base + o.row * c.stride + 128 * j : Nat))), desc := o.desc, ord := o.ord, chunk := o.chunk,
      pair := o.pair, data := (upFrom (32 * j) 32).map (fun n => BitVec.ofNat 32 (partial' a (t.column n))), quarter := q,
      ticket := ticket, op := o.seq, held := false, refused := false, va := wrap 64 (c.base + o.row * c.stride + 128 * j : Nat),
      descVa := wrap 64 ((c.base : Int) - 128) }

/-- The active bank accepts the next row of the MROW at the queue's head; `bad` lists the A elements found uncorrectable,
each read as +0 and recorded once (R178). The row debits the cluster's power credit (R30). A refused segment of the quarter holds it
back (R175); the row of a cancelled tile is not sent (R182). -/
def execRowAccept (q : Nat) (bad : List Nat) (s : State) : Result :=
  let k := quarterOf s q
  match k.ops.head?, k.active.bind (·.loaded) with
  | some o, some t =>
    if o.kind != .rows || o.left = 0 || !quarterLive s q || s.segments.any (fun g => g.quarter == q && g.refused) then .next s
    else match rowData s q o with
      | none => .next s
      | some (a, feed) =>
        let here := bad.filter (· < a.length)
        let a := (upFrom 0 a.length).zip a |>.map fun (i, x) => if here.contains i then 0 else x
        let s := setQuarter s q fun k => { k with
          feed := feed, accepted := k.accepted + 1
          ops := if o.left = 1 then k.ops.drop 1 else { o with row := o.row + 1, left := o.left - 1 } :: k.ops.drop 1 }
        let s := setQuarter s q fun k => here.foldl (fun k i => k.note (errRecord q true o.row i 0)) k
        let s := { s with clusters := Tab.update s.clusters (q / 4) Cluster.reset fun c => { c with credit := c.credit - 40960 } }
        .next { s with segments := s.segments ++ if s.cancelled.contains o.desc then [] else rowSegments q (k.bound.getD 0) o t a }
  | _, _ => .next s

/-! ### The merge (R173-R175) -/

/-- One segment merged into its line; a merge leaves the chunk count (R154, R173). -/
def mergeSegment (s : State) (g : Segment) : State :=
  let old := (upFrom 0 32).map fun i => Memory.num s.mem (g.line * 128 + 4 * i) 4
  let new := (old.zip g.data).flatMap fun (x, p) => toBytes 4 (addF32 x p.toNat)
  let s := { keepHbm s g.line with mem := Memory.writeBytes s.mem (g.line * 128) new }
  let s := if g.ord then { s with side := Tab.set s.side g.line { sideOf s g.line with next := (sideOf s g.line).next + 1 } } else s
  partWritten (homeWritten s (quarterPart s g.quarter) g.line) g.line

/-- A segment discarded under R175: ORDER in the tile's status and in the quarter's. -/
def discardSegment (s : State) (g : Segment) : State :=
  setQuarter (setTileStatus s (quarterPart s g.quarter) g.desc 1) g.quarter fun k => { k with order := true }

/-- Held segments of a line after a merge: those whose turn has come merge, and those now behind are duplicates. -/
def mergeHeld (line : Nat) : Nat → State → State
  | 0, s => s
  | n + 1, s =>
    match s.segments.find? fun g => g.held && g.line == line && g.chunk ≤ (sideOf s line).next.toNat with
    | none => s
    | some g =>
      let s' := { s with segments := s.segments.erase g }
      mergeHeld line n (if g.chunk = (sideOf s line).next.toNat then mergeSegment s' g else discardSegment s' g)

/-- Segments held in a slice's merge buffer (R175). -/
def heldIn (s : State) (slice : Nat) : Nat := (s.segments.filter fun g => g.held && homeSlice (g.line * 128) == slice).length

/-- A segment on its way, by its place among those not held, reaches its home (R175). -/
def execSegmentArrive (k : Nat) (s : State) : Result :=
  match (s.segments.filter fun g => !g.held)[k]? with
  | none => .next s
  | some g =>
    let gone := { s with segments := s.segments.erase g }
    if poisoned s (g.line * 128) then
      .next (integrityHalt gone ((s.threads.find? fun e => e.2.control && e.2.bent == g.ticket).map (·.2)) g.line ((sideOf s g.line).code == 0x29))
    else
      let x := (sideOf s g.line).next.toNat
      let c := (sideOf s g.line).count.toNat
      if !g.ord then .next (settleQuarter (mergeSegment gone g) g.quarter)
      else if c = 0 || c ≤ g.chunk || g.chunk < x then .next (settleQuarter (discardSegment gone g) g.quarter)
      else if g.chunk = x then .next (settleQuarter (mergeHeld g.line s.segments.length (mergeSegment gone g)) g.quarter)
      else if heldIn s (homeSlice (g.line * 128)) < Config.mergeSegments then
        .next { gone with segments := gone.segments ++ [{ g with held := true, refused := false }] }
      else .next { gone with segments := gone.segments ++ [{ g with refused := true }] }

/-- A line of an accumulator as MZERO leaves it: the columns named are zero, the merge tag is set and the update counter
is reset (R173); a line it covers whole loses its poison and its errors (R287). -/
def zeroLine (s : State) (part count pa n : Nat) : State :=
  let line := lineOf pa
  let s := { keepHbm s line with mem := Memory.zero s.mem pa n }
  let old := if n = 128 then Side.clean else sideOf s line
  let s := { s with side := Tab.set s.side line { old with upd := 0, next := 0, count := BitVec.ofNat 8 count } }
  partWritten (homeWritten s part line) line

/-- MZERO at the queue's head writes its rows and its tile's descriptor line (R173, R174). -/
def execMzeroComplete (q : Nat) (s : State) : Result :=
  match (quarterOf s q).ops.head? with
  | none => .next s
  | some o =>
    if o.kind != .zero || !quarterLive s q then .next s
    else
      let c := shapeOf o.c
      let row (s : State) (m : Nat) : State := (upFrom 0 ((c.cols + 31) / 32)).foldl (fun s j =>
        zeroLine s (quarterPart s q) o.chunk (paOf o.pages (wrap 64 (c.base + m * c.stride + 128 * j : Nat))) (min 128 (4 * c.cols - 128 * j))) s
      let s := (upFrom 0 c.rows).foldl row s
      let s := clearSide (writeHome s (quarterPart s q) (o.desc * 128) (toBytes 4 0 ++ toBytes 4 o.chunk ++ toBytes 120 0)) o.desc
      let s := setQuarter { s with cancelled := s.cancelled.filter (· != o.desc) } q fun k => { k with ops := k.ops.drop 1 }
      .next (settleQuarter s q)

/-- The oldest push on its way to a quarter enters its feed queue (R171, R210). -/
def execFeedPushAccepted (q : Nat) (s : State) : Result :=
  let k := quarterOf s q
  match k.pushes with
  | [] => .next s
  | p :: rest =>
    if Config.feedWords ≤ k.feed.length then .next s
    else
      let s := setQuarter s q fun k => { k with pushes := rest, feed := k.feed ++ [p.word] }
      .next { s with threads := Tab.modify s.threads p.thread fun v => { v with tl := v.tl - 1 } }

end Sys2Proof.Machine
end

