-- ==== Sys2Proof/Machine/Points.lean ====
section
/-! DEFINITION. Pre-emption points: live-map entries, and whether a bent has come to rest for its save (R61, R84-R87). -/

namespace Sys2Proof.Machine

/-- Hands of a thread's record that are live, hand 0 not counted. -/
def liveHands (v : Thread) : List Hand := (v.raise.map (·.hands)).getD []

/-! ### Live-map entries (R85) -/

/-- A live-map entry: register ranges (first, count, class), masks, scratchpad ranges (offset, length) in bytes. -/
structure LiveEntry where
  ranges : List (Nat × Nat × Nat)
  masks : Nat
  pads : List (Nat × Nat)
  deriving DecidableEq, Repr

def readEntry (bs : List Byte) : LiveEntry :=
  let num (off n : Nat) : Nat := ofBytes ((bs.drop off).take n)
  { ranges := ((upFrom 0 12).map fun i => let w := num (4 * i) 4; (bits w 31 22, bits w 21 12, bits w 11 10)).filter fun r => r.2.1 != 0
    masks := num 48 2
    pads := ((upFrom 0 3).map fun i => let w := num (52 + 4 * i) 4; (64 * bits w 31 21, 64 * bits w 20 9)).filter fun r => r.2 != 0 }

/-- Whether the fields of an entry are valid for n registers and a scratchpad size (R85). -/
def entryOk (bs : List Byte) (n scratch : Nat) : Bool :=
  let num (off k : Nat) : Nat := ofBytes ((bs.drop off).take k)
  let e := readEntry bs
  (upFrom 0 12).all (fun i => let w := num (4 * i) 4; bits w 9 0 == 0 && bits w 11 10 != 3) &&
    e.ranges.all (fun (f, c, _) => f + c ≤ n) && num 50 2 == 0 &&
    (upFrom 0 3).all (fun i => bits (num (52 + 4 * i) 4) 8 0 == 0) && e.pads.all fun (o, l) => o + l ≤ scratch

/-- The entry a thread's point names, none where it is invalid (R85). The model's choice (log entry 58): an entry on a poisoned line is
invalid, and one in a demand-zero page is all zero and takes no frame. -/
def liveEntry (s : State) (l : Launch) (idx : Nat) : Option LiveEntry :=
  let va := wrap 64 (l.hdr.livemap * 4096 + 64 * idx : Nat)
  if l.hdr.livecnt < idx then none
  else match translate s noCore l.enclave .read va with
    | .ok p =>
      if p.device || p.fmt != 0 then none
      else match readHome s (p.at va) 64 with
        | .ok bs => if entryOk bs l.hdr.regs l.hdr.scratch then some (readEntry bs) else none
        | _ => none
    | .fill _ => some { ranges := [], masks := 0, pads := [] }
    | _ => none

/-- The point a thread has stopped at. -/
def stopPoint (v : Thread) : Option Nat := match v.status with
  | .stopped i => i
  | _ => none

/-- Vector threads of a bent that have not exited. -/
def liveThreads (s : State) (ticket : Nat) : List Thread :=
  (Tab.values s.threads).filter fun v => !v.control && v.bent == ticket && v.status != .exited

/-- Whether every thread of a bent has stopped at a point whose entry is valid (R86). -/
def allAtPoints (s : State) (l : Launch) (ticket : Nat) : Bool :=
  (liveThreads s ticket).all fun v => match stopPoint v with
    | some i => (liveEntry s l i).isSome
    | none => false

/-! ### A bent at rest (R61, R86, R87) -/

/-- Whether a bent's full save has begun (R86). -/
def fullBegun (s : State) (ticket : Nat) : Bool := (bentOf s ticket).any (·.full)

/-- Whether the threads of a bent have stopped for its save: all at their points, or, when its full save has begun, none of them running.
From then on its hands issue nothing and its copy engines begin none of its commands, so that what R87 lists first is complete before its
hands are released. -/
def stoppedForSave (s : State) (ticket : Nat) : Bool :=
  match bentOf s ticket, launchOfBent s ticket with
  | some b, some l => b.request.isSome && (if b.full then (liveThreads s ticket).all (·.status != .running) else allAtPoints s l ticket)
  | _, _ => false

/-- What comes before a bent's hands are released for a save: no outstanding load, store or tenon of its threads and hands, and no begun
copy (R87 steps 1 and 2). -/
def memorySettled (s : State) (ticket : Nat) : Bool :=
  (s.threads.all fun (_, v) => v.bent != ticket ||
    (v.loads.isEmpty && v.stores == 0 && v.tl == 0 && v.tnx.isNone && v.hctx.half.isNone &&
      (liveHands v).all fun h => h.loads.isEmpty && h.ctx.half.isNone)) &&
    !s.cmds.any fun (_, k) => k.state == .begun && (threadOf s k.thread).any fun v => v.bent == ticket

end Sys2Proof.Machine
end

