-- ==== Sys2Proof/Machine/Raise.lean ====
section
/-! DEFINITION. Raising: hands on idle lanes, iterations, the fold, and forced release (R55-R64, R254, R417, R426-R428,
R430-R431, R467-R469, R502-R503). -/

namespace Sys2Proof.Machine

/-! ### Lanes and budgets (R56) -/

/-- A lane of a bay: slice and lane number. -/
abbrev Lane := Nat × Nat

/-- Whether two threads' blocks lie in one bay. -/
def sameBay (s : State) (a b : Thread) : Bool := threadCore s a == threadCore s b && threadBay s a == threadBay s b

/-- A runnable thread (R45). -/
def runnable (v : Thread) : Bool := v.status == .running

/-- Context slots taken on a lane of a foreman's bay, by threads and hands. -/
def slotsTaken (s : State) (f : Thread) (l : Lane) : List Nat :=
  (Tab.values s.threads).flatMap fun v =>
    if v.control || !sameBay s f v then []
    else (if v.slice == l.1 && v.lane == l.2 then [v.slot] else []) ++
      ((liveHands v).filter fun h => h.slice == l.1 && h.lane == l.2).map (·.slot)

/-- Whether a lane may take a hand of a foreman's (R56). -/
def eligible (s : State) (f : Thread) (l : Lane) : Bool :=
  let mine := (Tab.values s.threads).filter fun v => !v.control && sameBay s f v
  (slotsTaken s f l).length < 8 &&
    !(mine.any fun v => (liveHands v).any fun h => h.slice == l.1 && h.lane == l.2) &&
    (mine.filter fun v => v.slice == l.1 && v.lane == l.2).all fun v => v.bent == f.bent && !runnable v

/-- Eligible lanes in ascending order of slice and lane (R468). -/
def eligibleLanes (s : State) (f : Thread) : List Lane :=
  ((upFrom 0 32).flatMap fun sl => (upFrom 0 4).map fun ln => (sl, ln)).filter (eligible s f)

/-- Hands live for a selection of threads. -/
def handsLive (s : State) (sel : Thread → Bool) : Nat :=
  (Tab.values s.threads).foldl (fun n v => if sel v then n + (liveHands v).length else n) 0

/-- HANDS of a partition (R329). -/
def partHands (s : State) (part : Nat) : Nat := (Tab.getD s.pcfg part (0, false)).1

/-- What is left of the block's and the partition's hand budgets (R56). -/
def handBudget (s : State) (f : Thread) : Nat :=
  match headerOf s f with
  | none => 0
  | some h =>
    let part (v : Thread) : Nat := ((headerOf s v).map (·.part)).getD 0
    min (h.hands - handsLive s fun v => inBlock f.bent f.block v)
      (partHands s h.part - handsLive s fun v => part v == h.part)

/-! ### RAISE -/

/-- The checks of R469 beyond decode. -/
def raiseCheck (s : State) (v : Thread) (n req : Nat) (red : Option Nat) (list : Nat) : Option Kept :=
  let size := scratchSize s v.bent
  let area (o : Nat) : Option Kept := if size < o + 4 * n then some (kept .pageProt o) else none
  let align (o : Nat) : Option Kept := if o % 4 ≠ 0 then some (kept .misalign o) else none
  ([if 1 ≤ n ∧ n ≤ 4096 then none else some (kept .misalign n), if 64 < req then some (kept .misalign req) else none,
    red.bind align, align list, red.bind area, area list].filterMap id).head?

/-- A hand at its start (R57, R58). -/
def newHand (no : Nat) (entry : DWord) (phase : Word) (l : Lane) (slot : Nat) : Hand :=
  { ctx := { HandCtx.none with no := no, phase := phase }, pc := entry, queues := [], loads := [], slice := l.1, lane := l.2, slot := slot,
    age := 0 }

/-- The lowest free context slot of a lane. -/
def freeSlot (s : State) (f : Thread) (l : Lane) : Nat :=
  ((upFrom 0 8).find? fun k => !(slotsTaken s f l).contains k).getD 0

/-- Address of the hand entry (R467). -/
def handEntry (pc : DWord) (x : Ext) : DWord := BitVec.ofNat 64 (wrap 64 ((pc.toNat / 16 * 16 : Nat) + 16 * sext x.imm.toNat 13))

def execRaise (red : Bool) (x : Ext) (s : State) : Result :=
  let i := Instr.raise red x
  run i s fun w v =>
    if v.raise.isSome then .trap (kept .illegalInsn i.word0.toNat)
    else if loadsOut v then .stall
    else match readSrcs v (.reg 2 x.va) (if red then .reg 1 x.vb else .no) (.reg 1 x.vc) with
      | none => .stall
      | some (a, buf, list, g, v') =>
        let n := a % 2 ^ 32
        let req := a / 2 ^ 32
        let buffer := if red then some buf else none
        match raiseCheck s v n req buffer list with
        | some k => .trap k
        | none =>
          let lanes := eligibleLanes s v
          let grant := min (min req (n - 1)) (min lanes.length (handBudget s v))
          let entry := handEntry v.pc x
          let (s, p) := boundary s (threadCore s v)
          let hands := ((upFrom 1 grant).zip lanes).map fun (k, l) => newHand k entry p l (freeSlot s v l)
          let v' := { setRegs v' x.vd.toNat 1 grant with
            phaseStart := p, late := [], pc := v.next i, handMode := true, hctx := { HandCtx.none with phase := p }
            raise := some { n := n, red := buffer, list := list, entry := entry, pool := upFrom 0 n, committed := [],
                            unfinished := [], faulted := [], hands := hands } }
          .done (complete i s w v v' g)

/-! ### Iterations -/

/-- The lowest index of a pool. -/
def lowest : List Nat → Option Nat
  | [] => none
  | a :: l => some (l.foldl min a)

/-- Where a hand continues when the pool is empty: past the instruction at next, or at next where that cannot be fetched
(R427). -/
def skipNext (s : State) (v : Thread) (next : DWord) : DWord :=
  match fetchWord s v next.toNat with
  | .ok w => next + BitVec.ofNat 64 (4 * lengthOf w)
  | _ => next

def execItnext (x : Ext) (s : State) : Result :=
  let i := Instr.itnext x
  run i s fun w v =>
    match v.raise with
    | none => .trap (kept .illegalInsn i.word0.toNat)
    | some r =>
      if v.hctx.iter.isSome then .trap (kept .illegalInsn i.word0.toNat)
      else match lowest r.pool with
        | none => .done (putView s w { setRegs v x.vd.toNat 1 (2 ^ 32 - 1) with pc := skipNext s v (v.next i) })
        | some k =>
          let v' := { v with raise := some { r with pool := r.pool.erase k }, hctx := { v.hctx with iter := some k, buf := [], gather := 0, half := none } }
          .done (putView s w { setRegs v' x.vd.toNat 1 k with pc := v.next i })

/-- A buffer entry performed; one of ST.rel releases at its scope ahead of its own write (R232, R483). -/
def performEntry (s : State) (v : Thread) (e : BufEntry) : State :=
  let s := if e.rel then releaseAt s v.control (threadCore s v) e.sc else s
  if e.scratch then scratchWrite s v.bent v.block e.addr e.data else performStore s v e.sc e.data.length e.addr e.data

/-- Buffer entries performed in order as one group (R254, R428). -/
def performGroup (s : State) (v : Thread) : State := v.hctx.buf.foldl (fun s e => performEntry s v e) s

/-- Whether a context of a core has read one half of a 128-bit load and has still to read the other (R228). -/
def readsHalfway (s : State) (core : Nat) : Bool :=
  let reads (c : HandCtx) : Bool := c.half.any fun h => h.at' == .load
  (Tab.values s.threads).any fun v => !v.control && threadCore s v == core && (reads v.hctx || (liveHands v).any fun h => reads h.ctx)

/-- ITEND: the buffered writes are performed as one group, and not between the halves of a load of the core, which would read one write of
the group without another: until such a load is over the ITEND stalls (R254, R428). -/
def execItend (x : Ext) (s : State) : Result :=
  let i := Instr.itend x
  run i s fun w v =>
    match v.hctx.iter with
    | none => .trap (kept .illegalInsn i.word0.toNat)
    | some k =>
      if readsHalfway s (threadCore s v) then .stall else
      let (s, v') := phaseIf true (performGroup s v) v
      .done (putView s w { v' with
        raise := v.raise.map fun r => { r with committed := k :: r.committed }
        fpsr := v.fpsr ||| v.hctx.gather
        hctx := { v.hctx with iter := none, buf := [], gather := 0, half := none }
        pc := v.next i })

def execHred (x : Ext) (s : State) : Result :=
  let i := Instr.hred x
  run i s fun w v =>
    match readSrc v (.reg 1 x.va) with
    | none => .stall
    | some (a, g, v') =>
      match v.raise.bind (·.red), v.hctx.iter with
      | some base, some k =>
        .done (complete i s w v (bufferStore { v' with pc := v.next i } { scratch := true, addr := base + 4 * k, data := toBytes 4 a, sc := .cr, rel := false }) g)
      | _, _ => .trap (kept .illegalInsn i.word0.toNat)

/-! ### JOINH and forced release -/

/-- The fold of a reduction buffer: padded with -0.0 to a power of two and added by the tree of R53 (R63). -/
def foldBuffer (s : State) (v : Thread) (r : RaiseRec) : Nat × Flags :=
  match r.red with
  | none => (0x80000000, 0)
  | some base =>
    let k := Nat.log2 (2 * r.n - 1)
    let xs := (upFrom 0 (2 ^ k)).map fun j => if j < r.n then ofBytes (scratchRead s v.bent v.block (base + 4 * j) 4) else 0x80000000
    let (l, f) := treeFold (fun x y => faddOp .f32 .dflt 0 x y) k xs
    (l.headD 0, f)

/-- The fold written to vc and the record closed, with the flags of its additions (R431). -/
def closeFold (i : Instr) (late fold : Bool) (x : Ext) (s : State) (w : Who) (v v' : Thread) (r : RaiseRec) : State :=
  let (y, f) := if fold then foldBuffer s v r else (0, 0)
  let v' := if fold then setRegs v' x.vc.toNat 1 y else v'
  completeAt late i s w v { v' with raise := none, pc := v.next i } f

/-- JOINH of hand 0 when no other hand is live (R62): the list, the counts, then HAND_FAULT, the fold or the open record.
`late` says that it had parked. -/
def joinDone (i : Instr) (late : Bool) (s : State) (t : Nat) (v : Thread) : State :=
  match v.raise, i with
  | some r, .joinh fold x =>
    let (s, v) := phaseIf true s { v with handMode := false, hctx := HandCtx.none, status := .running }
    let unfinished := r.unfinished ++ r.pool
    let list := sortBy id (unfinished ++ r.faulted.map (·.1))
    let s := scratchWrite s v.bent v.block r.list (list.flatMap fun k => toBytes 4 k)
    let v' := setRegs v x.vd.toNat 2 (unfinished.length + 2 ^ 32 * r.faulted.length)
    let r' := { r with pool := [], unfinished := list, faulted := [], hands := [] }
    match lowest (r.faulted.map (·.1)) with
    | some k => takeTrap s (.thread t) { v' with raise := some r' } (kept .handFault k) { trapHere i v with ownOnly := late }
    | none =>
      if unfinished.isEmpty then closeFold i late fold x s (.thread t) v v' r
      else setThread s t { v' with raise := some r', pc := v.next i }
  | _, _ => s

/-- A foreman parked at JOINH goes on once no other hand of its record is live. -/
def joinIfAlone (s : State) (t : Nat) : State :=
  match threadOf s t with
  | none => s
  | some v => match v.status with
    | .joinh i => if (liveHands v).isEmpty then joinDone i true s t v else s
    | _ => s

/-- A hand leaves its record and its context is freed. -/
def endHand (s : State) (t h : Nat) : State :=
  match threadOf s t with
  | none => s
  | some v => joinIfAlone (setThread s t { v with
      raise := v.raise.map fun r => { r with hands := r.hands.filter fun x => x.ctx.no != h } }) t

/-- JOINH (R431). -/
def execJoinh (fold : Bool) (x : Ext) (s : State) : Result :=
  let i := Instr.joinh fold x
  run i s fun w v =>
    match v.raise with
    | none => .trap (kept .illegalInsn i.word0.toNat)
    | some r =>
      if v.handMode then
        if v.hctx.iter.isSome then .trap (kept .illegalInsn i.word0.toNat)
        else match w with
          | .thread t =>
            if r.hands.isEmpty then .done (joinDone i false s t v)
            else .done (setThread s t { v with status := .joinh i })
          | .hand t h => .done (endHand s t h)
          | .hart _ => .stall
      else .done (let (s, v1) := phaseIf true s v; closeFold i false fold x s w v (setRegs v1 x.vd.toNat 2 0) r)

/-- Whether a hand is released at its instruction boundary: its lane has a runnable thread bound to it, or its bent is stopped for a save
and what comes before this has completed (R61, R87 step 3). -/
def mustRelease (s : State) (f : Thread) (h : Hand) : Bool :=
  h.ctx.half.isNone && ((stoppedForSave s f.bent && memorySettled s f.bent) || (Tab.values s.threads).any fun v =>
    !v.control && sameBay s f v && v.slice == h.slice && v.lane == h.lane && runnable v)

/-- A hand force-released: its iteration returns to the pool and its context is freed (R61). -/
def releaseHand (s : State) (t h : Nat) : State :=
  match threadOf s t with
  | none => s
  | some v =>
    let back := (((liveHands v).find? fun x => x.ctx.no == h).bind fun x => x.ctx.iter).toList
    endHand (setThread s t { v with raise := v.raise.map fun r => { r with pool := back ++ r.pool } }) t h

def execHandForceRelease (t h : Nat) (s : State) : Result :=
  match threadOf s t with
  | none => .next s
  | some v => match (liveHands v).find? fun x => x.ctx.no == h with
    | some x => if mustRelease s v x then .next (releaseHand s t h) else .next s
    | none => .next s

end Sys2Proof.Machine
end

