-- ==== Sys2Proof/Machine/Issue.lean ====
section
/-! DEFINITION. The planer, the issue unit and the power controller (R30, R45-R47, R79-R81, R91). -/

namespace Sys2Proof.Machine

/-- A context that may issue, with its place and the launch it belongs to. -/
structure Ctx where
  who : Who
  pc : DWord
  launch : Nat
  slice : Nat
  lane : Nat
  slot : Nat
  age : Nat
  wid : Nat
  deriving DecidableEq, Repr

/-- Where a thread's bay is: its core and bay, none on a control core. -/
def bayOf (s : State) (v : Thread) : Option Nat := if v.control then none else some (bayId (threadCore s v) (threadBay s v))

/-- The contexts of a thread: itself, and the hands of its open record. -/
def contextsOf (s : State) (t : Nat) (v : Thread) : List Ctx :=
  let launch := ((bentOf s v.bent).map (·.launch)).getD 0
  let base : Ctx := { who := .thread t, pc := v.pc, launch := launch, slice := v.slice, lane := v.lane, slot := v.slot, age := v.age,
                      wid := widOf s v }
  (if runnable v then [base] else []) ++ (liveHands v).map fun h =>
    { base with who := .hand t h.ctx.no, pc := h.pc, slice := h.slice, lane := h.lane, slot := h.slot, age := h.age }

/-- Runnable contexts of a bay (R45). -/
def runnableIn (s : State) (bay : Nat) : List Ctx :=
  s.threads.flatMap fun (t, v) => if bayOf s v == some bay then contextsOf s t v else []

/-- The issue set of a slice at a PC and launch: on each lane the candidate in the lowest slot, the forced context before
any other (R46, R81). -/
def issueSet (forced : List Who) (cs : List Ctx) (pc : DWord) (launch : Nat) : List Ctx :=
  let here := cs.filter fun c => c.pc == pc && c.launch == launch
  (upFrom 0 4).filterMap fun l =>
    match (here.filter fun c => c.lane == l && forced.contains c.who).head? with
    | some c => some c
    | none => (sortBy (·.slot) (here.filter (·.lane == l))).head?

/-- A slice's issue PC, launch and issue set; none when it is free or idle (R46, R81, R91). -/
def sliceIssue (forced : List Who) (cs : List Ctx) (slice : Nat) : Option (DWord × Nat × List Ctx) :=
  let here := cs.filter (·.slice == slice)
  let lead := match here.find? fun c => forced.contains c.who with
    | some c => some c
    | none => (sortBy (fun c : Ctx => c.pc.toNat * 32 + c.slot * 4 + c.lane) here).head?
  lead.map fun c => (c.pc, c.launch, issueSet forced here c.pc c.launch)

/-- Slices of one issue PC and launch, at most 16 a bundle, in ascending slice order (R79). -/
def splitGroup (last : Nat) (pc : DWord) : Nat → List (List Ctx) → List Bundle
  | 0, _ => []
  | fuel + 1, sets =>
    if sets.isEmpty then []
    else { pc := pc, members := (sets.take 16).flatten.map (·.who), last := last } :: splitGroup last pc fuel (sets.drop 16)

/-- When the contexts of a new bundle last issued: the earliest of the last issues of the bundles they came from, 0 for none, which is the
model's choice (R80; log entry 60). -/
def lastIssue (old : List Bundle) (who : List Who) : Nat :=
  (least ((old.filter fun b => b.members.any fun m => who.contains m).map (·.last))).getD 0

/-- The bundles of a bay (R79). One formed anew counts as last issued when the earliest of those its contexts came from did (R80; log
entry 60). -/
def formBundles (old : List Bundle) (forced : List Who) (cs : List Ctx) : List Bundle :=
  let sets := (upFrom 0 32).filterMap (sliceIssue forced cs)
  let keys := (sets.map fun x => (x.1, x.2.1)).eraseDups
  keys.flatMap fun (pc, l) =>
    let mine := (sets.filter fun x => x.1 == pc && x.2.1 == l).map (·.2.2)
    splitGroup (lastIssue old (mine.flatten.map (·.who))) pc 33 mine

def bayState (s : State) (bay : Nat) : Bay := Tab.getD s.bays bay { bundles := [], forced := [], issued := 0, hold := 0 }
def setBay (s : State) (bay : Nat) (b : Bay) : State := { s with bays := Tab.set s.bays bay b }

/-- The planer forms bundles at each multiple of 4 of the core's counter (R79). -/
def execPlanerRegroup (bay : Nat) (s : State) : Result :=
  let b := bayState s bay
  let cs := runnableIn s bay
  if arithCycles s (bay / 4) % 4 ≠ 0 then .next s
  else .next (setBay s bay { b with bundles := formBundles b.bundles b.forced cs, forced := b.forced.filter fun w => cs.any (·.who == w) })

/-- A bundle between regroupings: its contexts that are still runnable; after a branch, one bundle for each new issue PC
(R79). -/
def refresh (cs : List Ctx) (b : Bundle) : List Bundle :=
  let live := cs.filter fun c => b.members.contains c.who
  let sets := (upFrom 0 32).filterMap fun sl =>
    let here := live.filter (·.slice == sl)
    (least (here.map (·.pc.toNat))).map fun pc => (pc, here.filter (·.pc.toNat == pc))
  ((sets.map (·.1)).eraseDups).map fun pc =>
    { pc := BitVec.ofNat 64 pc, members := ((sets.filter (·.1 == pc)).flatMap (·.2)).map (·.who), last := b.last }

/-- Whether a bundle holds a forced slice (R80, R81). -/
def isForced (b : Bay) (x : Bundle) : Bool := x.members.any fun m => b.forced.contains m

/-- Lowest slice of a bundle. -/
def firstSlice (cs : List Ctx) (x : Bundle) : Nat := (least ((cs.filter fun c => x.members.contains c.who).map (·.slice))).getD 0

/-- The order of R80: forced first, then longest waiting, then lowest first slice. -/
def issueOrder (b : Bay) (cs : List Ctx) (xs : List Bundle) : List Bundle :=
  sortBy (fun x => (if isForced b x then 0 else 2 ^ 80) + x.last * 64 + firstSlice cs x) xs

/-- The bundles a bay issues in one opportunity, with the credit at hand; none when the controller holds the bay (R21, R30,
R80). -/
def chosen (credit : Int) : List Bundle → List Bundle
  | [] => []
  | x :: xs =>
    if credit < x.members.length then []
    else match xs with
      | [] => [x]
      | y :: _ => if x.members.length + y.members.length ≤ 128 ∧ (x.members.length + y.members.length : Nat) ≤ credit then [x, y] else [x]

/-- The members of a bundle in ascending `wid` order (R54, R171). -/
def inWidOrder (cs : List Ctx) (x : Bundle) : List Who :=
  (sortBy (·.wid) (cs.filter fun c => x.members.contains c.who)).map (·.who)

/-- Starvation ages after an opportunity: zero for what issued, one more for what was runnable and did not (R81). -/
def ageContexts (s : State) (cs : List Ctx) (issued : List Who) : State :=
  let age (w : Who) (a : Nat) : Nat := if issued.contains w then 0 else if cs.any (·.who == w) then a + 1 else a
  mapThreads s fun t v => { v with
    age := age (.thread t) v.age
    raise := v.raise.map fun r => { r with hands := r.hands.map fun h => { h with age := age (.hand t h.ctx.no) h.age } } }

/-- The window of the power controllers that the clock stands in (R30; log entry 60). -/
def powerWindow (s : State) : Nat := s.time / 64

/-- Whether the credit is below the active lanes of the next bundle of an order (R30). -/
def exhausted (credit : Int) : List Bundle → Bool
  | [] => false
  | x :: _ => credit < x.members.length

/-- Whether the controller holds a bay: since an earlier cycle of the window, or from this one (R30). -/
def bayHeld (s : State) (bay : Nat) (order : List Bundle) : Bool :=
  (bayState s bay).hold == powerWindow s + 1 || exhausted (clusterOfPkg s (bay / 64)).credit order

/-- One issue opportunity of a bay: at most two bundles go to issue, each context's next instruction in one (R21, R80). A bay
that the controller holds issues nothing until the next window, and its contexts do not age (R30, R81). A context that is selected has
issued, whether its instruction then stalls or not: its age starts anew, its bundle's last issue is this one and the credit is debited, which
is the model's choice (R45, R81; log entry 62). -/
def execIssueSelect (bay : Nat) (s : State) : Result :=
  let b := bayState s bay
  let cs := runnableIn s bay
  let xs := b.bundles.flatMap (refresh cs)
  let cluster := bay / 64
  let out := chosen (clusterOfPkg s cluster).credit (issueOrder b cs xs)
  let issued := out.flatMap (·.members)
  let b' : Bay := { b with
    bundles := xs.map fun x => if out.contains x then { x with last := s.time + 1 } else x
    forced := b.forced.filter fun w => !issued.contains w
    issued := b.issued + out.length }
  if bayHeld s bay (issueOrder b cs xs) then .next (setBay s bay { b with bundles := xs, hold := powerWindow s + 1 })
  else
    let s := ageContexts (setBay s bay b') cs issued
    let s := { s with clusters := Tab.update s.clusters cluster Cluster.reset fun c => { c with credit := c.credit - (issued.length : Nat) } }
    .next { s with issue := s.issue ++ out.map (inWidOrder cs) }

/-- Slices whose oldest runnable context has reached age 128 become forced (R81). That of several equally old ones the first in the order
of the thread table is forced is the model's choice (log entry 61). -/
def execStarvationForce (bay : Nat) (s : State) : Result :=
  let b := bayState s bay
  let old := (runnableIn s bay).filter fun c => 128 ≤ c.age
  let pick (sl : Nat) : Option Who := ((sortBy (fun c : Ctx => 2 ^ 64 - c.age) (old.filter (·.slice == sl))).head?).map (·.who)
  .next (setBay s bay { b with forced := (b.forced ++ (upFrom 0 32).filterMap pick).eraseDups })

/-- The budget a cluster meters with: 20 while its die throttles (R30, R358). -/
def budgetOf (s : State) (cluster : Nat) : Nat :=
  if (Tab.getD s.tstat (cluster / 10) { temp := 0, throt := false, trip := false }).throt then 20 else (clusterOfPkg s cluster).budget

/-- A new power window: the credit is set, less what the last window overdrew (R30, R31). The windows begin at the multiples of 64 of the
package's time since reset, which is the model's choice: the spec gives their length alone (log entry 60). -/
def execPowerWindow (cluster : Nat) (s : State) : Result :=
  let n := budgetOf s cluster
  if s.time % 64 ≠ 0 then .next s
  else .next { s with clusters := Tab.update s.clusters cluster Cluster.reset fun c =>
    { c with inForce := n, credit := (64 * 1024 * n : Nat) + min 0 c.credit } }

end Sys2Proof.Machine
end

