-- ==== Sys2Proof/Machine/Place.lean ====
section
/-! DEFINITION. The dispatcher: kick queues, header checks, tokens, priorities, placement and retirement (R20, R35-R43,
R67-R78, R309, R495, R512). -/

namespace Sys2Proof.Machine

/-! ### Registers, slots and banks of a bay (R20, R78) -/

/-- Blocks that hold resources: those of resident bents that have not ended, and those of a plan. -/
def residents (s : State) (plan : List Block) : List Block :=
  (Tab.values s.bents).flatMap (fun b => (Tab.values b.blocks).filter fun k => !k.ended) ++ plan

/-- Quads placed in a bay. -/
def bayQuads (bs : List Block) (core bay : Nat) : List Quad :=
  (bs.filter fun b => b.core == core && b.bay == bay).flatMap (·.quads)

/-- Runs taken in a slice's bank: its own quads', and those of its companion's wide ones. -/
def runsOf (qs : List Quad) (slice : Nat) : List (Nat × Nat) :=
  (qs.filter (·.slice == slice)).map (fun q => (q.base, q.size)) ++
    (qs.filter fun q => q.slice == slice ^^^ 1 && q.csize != 0).map fun q => (q.cbase, q.csize)

/-- Registers of a bank that no run takes. -/
def bankFree (rs : List (Nat × Nat)) : Nat := 2048 - rs.foldl (fun n r => n + r.2) 0

/-- The lowest contiguous run of a size in a bank. -/
def firstRun (rs : List (Nat × Nat)) (size : Nat) : Option Nat :=
  (sortBy id (0 :: rs.map fun r => r.1 + r.2)).find? fun a =>
    a + size ≤ 2048 && rs.all fun r => a + size ≤ r.1 || r.1 + r.2 ≤ a

/-- Slots of a slice that hands hold. -/
def handSlots (s : State) (core bay slice : Nat) : List Nat :=
  (Tab.values s.threads).flatMap fun v =>
    if bayOf s v == some (bayId core bay) then ((liveHands v).filter (·.slice == slice)).map (·.slot) else []

/-- The lowest context slot free on all four lanes of a slice. -/
def freeSlotOf (s : State) (core bay : Nat) (qs : List Quad) (slice : Nat) : Option Nat :=
  (upFrom 0 8).find? fun k => !(qs.any fun q => q.slice == slice && q.slot == k) && !(handSlots s core bay slice).contains k

/-- 4·n rounded up to a multiple of 64. -/
def runSize (n : Nat) : Nat := (4 * n + 63) / 64 * 64

/-- A quad of n registers a thread on a slice, when it fits (R78). -/
def quadOn (s : State) (core bay : Nat) (qs : List Quad) (n slice : Nat) : Option Quad :=
  (freeSlotOf s core bay qs slice).bind fun slot =>
    if n ≤ 512 then (firstRun (runsOf qs slice) (runSize n)).map fun b =>
      { slice := slice, slot := slot, base := b, size := runSize n, cbase := 0, csize := 0 }
    else if bankFree (runsOf qs slice) = 2048 then (firstRun (runsOf qs (slice ^^^ 1)) (runSize (n - 512))).map fun c =>
      { slice := slice, slot := slot, base := 0, size := 2048, cbase := c, csize := runSize (n - 512) }
    else none

/-- The quad's slice: most free bank registers, then lowest number, among those that fit (R78). -/
def placeQuad (s : State) (core bay : Nat) (qs : List Quad) (n : Nat) : Option Quad :=
  (sortBy (fun q : Quad => 4096 - bankFree (runsOf qs q.slice)) ((upFrom 0 32).filterMap (quadOn s core bay qs n))).head?

/-- Quads of a block in ascending order; none when one does not fit. -/
def placeQuads (s : State) (core bay n : Nat) : Nat → List Quad → Option (List Quad)
  | 0, _ => some []
  | k + 1, qs => match placeQuad s core bay qs n with
    | none => none
    | some q => (placeQuads s core bay n k (q :: qs)).map fun r => q :: r

/-! ### Partitions (R77, R327) -/

/-- Whether a partition owns a bay column. -/
def ownsColumn (s : State) (part col : Nat) : Bool :=
  let v := Tab.getD s.colown col 0
  bit v 0 && bits v 15 8 == part

/-- Bays of a cluster that a partition owns. -/
def partBays (s : State) (part cluster : Nat) : List Nat := (upFrom 0 4).filter fun q => ownsColumn s part (quarterId cluster q)

/-- Whether a core is in service (R33, R345). -/
def coreServes (s : State) (core : Nat) : Bool := (clusterOfPkg s (pkgCluster core)).csvc.getLsbD (core % 16)

/-- Free registers of a bay. -/
def bayFree (bs : List Block) (core bay : Nat) : Nat :=
  (upFrom 0 32).foldl (fun n sl => n + bankFree (runsOf (bayQuads bs core bay) sl)) 0

/-- Free scratchpad banks of a partition on a core, ascending (R78, R327). -/
def freeBanks (s : State) (bs : List Block) (part core : Nat) : List Nat :=
  let taken := (bs.filter (·.core == core)).flatMap (·.banks)
  ((partBays s part (pkgCluster core)).flatMap fun q => upFrom (8 * q) 8).filter fun b => !taken.contains b

/-- Banks of a block (R78). -/
def Header.bankCount (h : Header) : Nat := (h.scratch + 16383) / 16384
/-- Threads of a block and blocks of a bent (R36). -/
def Header.blockSize (h : Header) : Nat := h.extents.getD 0 1
def Header.blockCount (h : Header) : Nat := h.extents.getD 1 1
/-- Cores of a bent (R77). -/
def Header.coreCount (h : Header) : Nat := min h.blockCount 16

/-- The bay of a partition on a core that a block goes to: the most free registers, then the lowest number (R77). -/
def chooseBay (s : State) (bs : List Block) (part core : Nat) : Option Nat :=
  (sortBy (fun q => 65536 - bayFree bs core q) (partBays s part (pkgCluster core))).head?

/-- One block placed on a core, when it fits there. -/
def placeBlock (s : State) (h : Header) (plan : List Block) (core : Nat) : Option Block :=
  let bs := residents s plan
  (chooseBay s bs h.part core).bind fun bay =>
    (placeQuads s core bay h.regs (h.blockSize / 4) (bayQuads bs core bay)).bind fun qs =>
      let banks := (freeBanks s bs h.part core).take h.bankCount
      if banks.length < h.bankCount then none
      else some { core := core, bay := bay, quads := qs, banks := banks, scratch := [], ended := false }

/-- The blocks of a bent from a core upward. -/
def planBlocks (s : State) (h : Header) (core0 : Nat) : Nat → List Block → Option (List Block)
  | 0, plan => some plan
  | n + 1, plan =>
    let core := core0 + (h.blockCount - (n + 1)) % h.coreCount
    match placeBlock s h plan core with
    | none => none
    | some b => planBlocks s h core0 n (plan ++ [b])

/-- HANDS reserved in a partition by the resident blocks (R77, R329). -/
def reserved (s : State) (part : Nat) : Nat :=
  (Tab.values s.bents).foldl (fun n b => match launchOf s b with
    | some l => if l.hdr.part = part then n + l.hdr.hands * ((Tab.values b.blocks).filter fun k => !k.ended).length else n
    | none => n) 0

/-- A bent's placement at a core of a cluster, when it fits (R77). -/
def planAt (s : State) (h : Header) (cluster c0 : Nat) : Option (List Block) :=
  if !((upFrom (16 * cluster + c0) h.coreCount).all (coreServes s)) then none
  else planBlocks s h (16 * cluster + c0) h.blockCount []

/-- The order among clusters: empty bays, free registers, free banks, then lowest number (R77). -/
def clusterRank (s : State) (part cluster : Nat) : Nat :=
  let bs := residents s []
  let cores := upFrom (16 * cluster) 16
  let bays := cores.flatMap fun c => (partBays s part cluster).map fun q => (c, q)
  let empty := (bays.filter fun (c, q) => !(bs.any fun b => b.core == c && b.bay == q)).length
  let regs := bays.foldl (fun n (c, q) => n + bayFree bs c q) 0
  let banks := cores.foldl (fun n c => n + (freeBanks s bs part c).length) 0
  empty * 2 ^ 40 + regs * 2 ^ 12 + banks

/-- Clusters on which a launch may stand, the best first (R77, R194). -/
def clustersFor (s : State) (h : Header) : List Nat :=
  sortBy (fun k => 2 ^ 60 - clusterRank s h.part k)
    ((upFrom 0 40).filter fun k => !(partBays s h.part k).isEmpty && (!h.fused || (clusterOfPkg s k).fused))

/-- A bent's place: cluster, first core and blocks. -/
structure Plan where
  cluster : Nat
  c0 : Nat
  blocks : List Block
  deriving DecidableEq, Repr

/-- A bent's place on one cluster: the lowest first core that fits. -/
def planCluster (s : State) (h : Header) (cluster : Nat) : Option Plan :=
  ((upFrom 0 (17 - h.coreCount)).filterMap fun c0 => (planAt s h cluster c0).map fun bs => { cluster := cluster, c0 := c0, blocks := bs }).head?

/-- Places of a bent, the best first. -/
def plansFor (s : State) (h : Header) : List Plan :=
  if partHands s h.part < reserved s h.part + h.hands * h.blockCount then []
  else (clustersFor s h).filterMap (planCluster s h)

/-- A bent that only holds its place, for planning the bents after it. -/
def sketch (s : State) (launch n : Nat) (p : Plan) : State :=
  let b : Bent := {
    launch := launch, order := n, upper := [], cluster := p.cluster, c0 := p.c0, blocks := (upFrom 0 p.blocks.length).zip p.blocks,
    state := .running, request := none, asked := false, full := false, placement := 0, control := none, restore := none, stamp := s.placings,
    pairCut := false, room := none }
  { s with bents := Tab.set s.bents (2 ^ 40 + n) b }

/-- Places of several bents of a launch together, in dispatch order; a pair goes on adjacent clusters, and a bent whose partner has
ended or halted goes alone (R43, R76, R89, R293). -/
def planAll (s : State) (launch : Nat) (h : Header) : List Nat → Option (List Plan)
  | [] => some []
  | [n] => (plansFor s h).head?.map fun p => [p]
  | n :: m :: ns =>
    if h.paired && n / 2 == m / 2 then
      let pairs := (plansFor s h).filterMap fun p =>
        ((plansFor (sketch s launch n p) h).find? fun q => adjacentClusters p.cluster q.cluster).map fun q => (p, q)
      pairs.head?.bind fun (p, q) =>
        (planAll (sketch (sketch s launch n p) launch m q) launch h ns).map fun r => p :: q :: r
    else (plansFor s h).head?.bind fun p => (planAll (sketch s launch n p) launch h (m :: ns)).map fun r => p :: r

/-! ### Header checks (R69, R71, R512) -/

/-- A launch header read from its 128 bytes (R69). -/
def readHeader (bs : List Byte) : Header :=
  let num (off n : Nat) : Nat := ofBytes ((bs.drop off).take n)
  { entry := BitVec.ofNat 64 (num 0 8), handler := BitVec.ofNat 64 (num 8 8)
    widths := (upFrom 0 6).map fun i => num (0x10 + i) 1 % 64
    part := num 0x17 1, fused := bit (num 0x16 1) 2, paired := bit (num 0x16 1) 1, coop := bit (num 0x16 1) 0
    extents := (upFrom 0 6).map fun i => num (0x18 + 4 * i) 4 + 1
    regs := num 0x30 2, hands := num 0x32 2, scratch := num 0x34 4
    livemap := num 0x38 8 / 4096, livecnt := num 0x38 8 % 4096
    ctxt := BitVec.ofNat 64 (num 0x40 8), seed := BitVec.ofNat 32 (num 0x48 4), grace := BitVec.ofNat 32 (num 0x4C 4)
    waita := BitVec.ofNat 64 (num 0x50 8), vala := BitVec.ofNat 64 (num 0x58 8), waitb := BitVec.ofNat 64 (num 0x60 8)
    valb := BitVec.ofNat 64 (num 0x68 8), signal := BitVec.ofNat 64 (num 0x70 8), priv := num 0x78 8 / 4096, privsz := num 0x78 8 % 4096 }

/-- Reserved bits of a header (R69). -/
def reservedSet (bs : List Byte) : Bool :=
  (upFrom 0 6).any (fun i => 64 ≤ ((bs.drop (0x10 + i)).headD 0).toNat) || bits ((bs.drop 0x16).headD 0).toNat 7 3 != 0

/-- The limits of R35 and R36 on widths and extents. -/
def gridOk (h : Header) : Bool :=
  (h.widths.zip h.extents).all (fun (w, e) => w ≤ 32 && e ≤ 2 ^ w) && h.widths.foldl (· + ·) 0 ≤ 64 &&
    h.blockSize ≤ 1024 && h.blockSize % 4 == 0 && h.blockCount ≤ 64

/-- Checks 1 to 6 of R214 and ownership of the page an address names, for the dispatcher (R71). A demand-zero page is filled with X = 0, so
it is no page to fetch from (R220). -/
def pageGood (s : State) (enclave : Nat) (a : Access) (va : Nat) : Bool :=
  canonicalVa va && match enclaveOf s enclave with
    | none => false
    | some e => match walkOutcome s noCore enclave e a va with
      | .ok (p, _) => !p.device
      | .fill _ => a != .fetch
      | _ => false

/-- Pages a header names; a zero address names none (R71, R512). -/
def pagesGood (s : State) (enclave : Nat) (h : Header) : Bool :=
  let opt (a : Access) (x : DWord) : Bool := x == 0 || pageGood s enclave a x.toNat
  pageGood s enclave .fetch h.entry.toNat && opt .read h.ctxt && opt .read h.waita && opt .read h.waitb && opt .write h.signal

/-- The machine as it would be with a partition empty (R71). -/
def emptied (s : State) (part : Nat) : State :=
  let gone (b : Bent) : Bool := (launchOf s b).any fun l => l.hdr.part == part
  { s with bents := s.bents.filter fun e => !gone e.2, threads := s.threads.filter fun e => !((bentOf s e.2.bent).any gone) }

/-- Whether a partition holds two adjacent clusters (R71). -/
def adjacentPair (s : State) (part : Nat) : Bool :=
  let ks := (upFrom 0 40).filter fun k => !(partBays s part k).isEmpty
  ks.any fun k => ks.any fun k' => adjacentClusters k k'

/-- Whether a paired launch has no pairs to place (R71). -/
def unpairable (s : State) (h : Header) : Bool := h.bentCount % 2 == 1 || !adjacentPair s h.part

/-- The refusal code of a header whose slot was read, 0 for none (R71). -/
def headerCode (s : State) (enclave : Nat) (e : Enclave) (bs : List Byte) : Nat :=
  let h := readHeader bs
  let l : Launch := { enclave := enclave, queue := 0, hdr := h, next := 0, ended := 0, halted := false }
  let empty := { emptied s h.part with launches := Tab.set s.launches s.launchSeq l }
  if reservedSet bs || !gridOk h then 1
  else if h.regs = 0 || 768 < h.regs || 64 < h.hands || 131072 < h.scratch then 2
  else if h.entry.toNat % 16 != 0 || h.handler.toNat % 16 != 0 || h.ctxt.toNat % 4096 != 0 || h.waita.toNat % 8 != 0 ||
    h.waitb.toNat % 8 != 0 || h.signal.toNat % 8 != 0 then 3
  else if !pagesGood s enclave h then 4
  else if !e.partmask.getLsbD h.part then 5
  else if (plansFor empty h).isEmpty then 6
  else if h.coop && (planAll empty s.launchSeq (if unpairable s h then { h with paired := false } else h) (upFrom 0 h.bentCount)).isNone then 7
  else if h.paired && unpairable s h then 8
  else 0

/-- Whether a queue has a header to check: enabled, not empty, its last launch wholly placed. -/
def headerDue (k : KickQueue) : Bool := k.en && k.head != k.tail && k.cur.isNone

/-- The 128 bytes of the header at a queue's head, none when its slot fails (R71). What a slot in a decoded view or on a poisoned
line does is the model's choice: the raw bytes of the frame are read, and a poisoned slot fails (log entry 58). -/
def headSlot (s : State) (enclave : Nat) (k : KickQueue) : State × Option (List Byte) :=
  let va := wrap 64 (k.ring * 4096 + 128 * (k.head % 2 ^ k.logd) : Nat)
  match touch s noCore enclave .read va with
  | (s, .ok p) => if p.device then (s, none) else match readHome s (p.at va) 128 with
    | .ok bs => (s, some bs)
    | _ => (s, none)
  | (s, _) => (s, none)

/-- The header at a queue's head is read and checked: refused, or accepted as a launch (R68, R71). -/
def execHeaderCheck (enclave q : Nat) (s : State) : Result :=
  match enclaveOf s enclave with
  | none => .next s
  | some e =>
    let k := e.queue q
    if !headerDue k then .next s
    else
      let refuse (s : State) (code : Nat) : State := setQueue s enclave q fun k =>
        { k with lasterr := code, nref := (k.nref + 1) % 256, head := (k.head + 1) % 65536 }
      match headSlot s enclave k with
      | (s, none) => .next (refuse s 4)
      | (s, some bs) =>
        let code := headerCode s enclave e bs
        if code ≠ 0 then .next (refuse s code)
        else
          let l : Launch := { enclave := enclave, queue := q, hdr := readHeader bs, next := 0, ended := 0, halted := false }
          .next (setQueue { s with launches := Tab.set s.launches s.launchSeq l, launchSeq := s.launchSeq + 1 } enclave q fun k =>
            { k with head := (k.head + 1) % 65536, cur := some s.launchSeq, bonus := 0, readySince := none })

def execKqcfgWrite (enclave q : Nat) (v : DWord) (s : State) : Result := .next (kickWrite s enclave (16 * (q % 64)) 8 v.toNat)

def execKqdoorTailWrite (enclave q : Nat) (v : DWord) (s : State) : Result := .next (kickWrite s enclave (16 * (q % 64) + 8) 8 v.toNat)

/-! ### Tokens and priorities (R73, R75) -/

/-- A token's value at the homes (R73); a page not yet touched holds zeros. The model's choice (log entry 58): a word in a decoded
view or on a poisoned line is read raw, and one whose translation fails after acceptance reads 0. -/
def tokenValue (s : State) (enclave va : Nat) : Nat :=
  match translate s noCore enclave .read va with
  | .ok p =>
    if p.device then kickRead s enclave (p.at va - kickPage enclave) 8
    else Memory.num s.mem (p.at va) 8
  | _ => 0

/-- Whether a launch's tokens have reached their values (R73). -/
def launchReady (s : State) (l : Launch) : Bool :=
  let ok (a v : DWord) : Bool := a == 0 || v.toNat ≤ tokenValue s l.enclave a.toNat
  ok l.hdr.waita l.hdr.vala && ok l.hdr.waitb l.hdr.valb

/-- The dispatcher's fabric cycle, two to an arithmetic cycle (R28). -/
def dispatchCycle (s : State) : Nat := 2 * s.time

/-- A launch at its queue's head becomes ready, or is found no longer ready (R73). One that is no longer ready loses the priority that
it had risen by, which is the model's choice (log entry 59). -/
def execTokenReady (l : Nat) (s : State) : Result :=
  match Tab.get? s.launches l with
  | none => .next s
  | some x => .next (setQueue s x.enclave x.queue fun k =>
      if k.cur != some l then k
      else if launchReady s x then { k with readySince := match k.readySince with
        | some t => some t
        | none => some (dispatchCycle s) }
      else { k with readySince := none, bonus := 0 })

/-- Effective priority (R75). -/
def KickQueue.effective (k : KickQueue) : Nat := min 3 (k.prio + k.bonus)

/-- The priority rises by one for each 2^16 fabric cycles ready and unserved (R75). -/
def execPriorityAge (enclave q : Nat) (s : State) : Result :=
  .next (setQueue s enclave q fun k => match k.readySince with
    | some t => if k.effective < 3 && t + 65536 * (k.bonus + 1) ≤ dispatchCycle s then { k with bonus := k.bonus + 1 } else k
    | none => k)

/-! ### Placing bents -/

/-- A ticket that is live: a resident or a saved bent holds it (R42). -/
def liveTicket (s : State) (t : Nat) : Bool := (Tab.get? s.bents t).isSome || s.saved.any (·.ticket == t)

/-- The next bent ticket: the 32-bit counter, skipping 0 and every live ticket (R309). -/
def drawTicket (s : State) : Nat → Nat → Nat
  | 0, t => t
  | fuel + 1, t => if t % 2 ^ 32 = 0 || liveTicket s (t % 2 ^ 32) then drawTicket s fuel (t + 1) else t % 2 ^ 32

/-- f_2 to f_5 of a bent (R36). -/
def upperFields (h : Header) (order : Nat) : List Nat :=
  let e (i : Nat) : Nat := h.extents.getD i 1
  [order % e 2, order / e 2 % e 3, order / (e 2 * e 3) % e 4, order / (e 2 * e 3 * e 4) % e 5]

/-- A thread at its start (R37, R276, R277). -/
def newThread (bent block : Nat) (fields : List Nat) (n : Nat) (pc : DWord) (seed : Word) (phase : Word) : Thread :=
  { control := false, bent := bent, block := block, fields := fields, slice := 0, lane := 0, slot := 0, n := n, pc := pc, meet := none,
    stack := [], spill := 0, regs := [], masks := 1, queues := [], trapBank := false, guards := [], fpsr := 0, fpen := 0, seed := seed,
    loads := [], stores := 0, late := [], tl := 0, batchCount := 0, batches := [], trapActive := false, tcause := 0, tpc := 0, tinfo := 0, tmask := 0,
    tdst := tdstNone, tlen := 0, status := .running, age := 0, phaseStart := phase, fetched := [], mxtrap := none, kept := none, keptSeq := 0, tnx := none,
    sysc := none, handMode := false, hctx := HandCtx.none, raise := none, recs := [] }

/-- Threads added under fresh numbers. -/
def addThreads (s : State) (vs : List Thread) : State :=
  vs.foldl (fun s v => { s with threads := Tab.set s.threads s.threadSeq v, threadSeq := s.threadSeq + 1 }) s

/-- The threads of one block (R36, R39). -/
def blockThreads (h : Header) (ticket block : Nat) (upper : List Nat) (k : Block) (phase : Word) : List Thread :=
  (upFrom 0 h.blockSize).map fun tix =>
    let q := k.quads.getD (tix / 4) { slice := 0, slot := 0, base := 0, size := 0, cbase := 0, csize := 0 }
    { newThread ticket block (tix :: block :: upper) h.regs h.entry h.seed phase with slice := q.slice, lane := tix % 4, slot := q.slot }

/-- What the dispatcher finds at MXENTRY (R159, R160). -/
inductive Mx where
  | none
  | entry (pc : Nat)
  | fault (k : Kept)
  | poison (line : Nat)
  deriving DecidableEq, Repr

/-- MXENTRY as the dispatcher reads it; one whose page is the kick page is taken as zero, which is the model's choice (log entry
58). -/
def readMx (s : State) (enclave : Nat) (h : Header) : State × Mx :=
  let va := wrap 64 (h.ctxt.toNat + 0x3000 : Nat)
  if h.ctxt = 0 then (s, .none)
  else match touch s noCore enclave .read va with
    | (s, .ok p) =>
      if p.device then (s, .none)
      else match readHome s (p.at va) 8 with
        | .ok bs => (s, if ofBytes bs = 0 then .none else .entry (ofBytes bs))
        | .poison l => (s, .poison l)
        | _ => (s, .none)
    | (s, .trap k) => (s, .fault k)
    | (s, _) => (s, .none)

/-- The matrix thread of a bent, waiting for its quarter; `mxtrap` holds what it meets at an unusable entry (R160). -/
def addControl (s : State) (h : Header) (ticket : Nat) (upper : List Nat) (pc : Nat) (k : Option Kept) : State :=
  let v := { newThread ticket 0 (0 :: 0 :: upper) 256 (BitVec.ofNat 64 pc) h.seed 0 with control := true, mxtrap := k }
  addThreads s [v]

/-- The matrix side of a placed bent: its thread, or the halt of a bent whose quarter is out of service (R159). -/
def startMatrix (s : State) (enclave : Nat) (h : Header) (ticket : Nat) (upper : List Nat) (p : Plan) : State :=
  let q := quarterId p.cluster ((p.blocks.head?.map (·.bay)).getD 0)
  let go (s : State) (pc : Nat) (k : Option Kept) : State :=
    let s := addControl s h ticket upper pc k
    if inService s q then s
    else match matrixThread s ticket with
      | some (_, v) => haltUnserved s v q
      | none => s
  match readMx s enclave h with
  | (s, .none) => s
  | (s, .entry pc) => go s pc (if pc % 16 = 0 then none else some (kept .brAlign pc))
  | (s, .fault k) => go s 0 (some k)
  | (s, .poison l) => match (Tab.values s.threads).find? fun v => v.bent == ticket with
    | some v => integrityHalt s (some v) l ((sideOf s l).code == 0x29)
    | none => s

/-- One new bent of a launch at its place (R42, R77, R78). Its cores discard their clean lines, so that its threads see what the
launch released (R434). -/
def placeBent (s : State) (launch : Nat) (l : Launch) (order : Nat) (p : Plan) : State :=
  let ticket := drawTicket s (2 * s.bents.length + s.saved.length + 2) s.tickets
  let upper := upperFields l.hdr order
  let blocks := (upFrom 0 p.blocks.length).zip p.blocks
  let b : Bent := {
    launch := launch, order := order, upper := upper, cluster := p.cluster, c0 := p.c0, blocks := blocks, state := .running,
    request := none, asked := false, full := false, placement := 0, control := none, restore := none, stamp := s.placings,
    pairCut := false, room := none }
  let s := { s with bents := Tab.set s.bents ticket b, tickets := (ticket + 1) % 2 ^ 32, placings := s.placings + 1 }
  let s := blocks.foldl (fun s (i, k) =>
    let (s, ph) := boundary (acquireHome s k.core) k.core
    addThreads s (blockThreads l.hdr ticket i upper k ph)) s
  startMatrix s l.enclave l.hdr ticket upper p

/-- Whether a page of an enclave is mapped and restricted (R313). -/
def restrictedAt (s : State) (enclave : Nat) (e : Enclave) (va : Nat) : Bool :=
  match (walk s.mem va tableLevels e.root).getLast? with
  | some w => w.valid && w.isLeaf && cacheable (leafFrame w.entry) && (potOf s (leafFrame w.entry)).owner == enclave && (potOf s (leafFrame w.entry)).rstr
  | none => false

/-- What a queue offers next: saved bents of it, ahead of every unplaced one, or the next bents of its head launch (R43, R72,
R76, R89). -/
inductive Group where
  | resume (l : Nat) (tickets : List Nat)
  | fresh (l : Nat) (orders : List Nat)
  deriving DecidableEq, Repr

/-- Saved bents that are placed again together with one of them (R83). -/
def resumeSet (s : State) (r : SaveRec) : List SaveRec :=
  match Tab.get? s.launches r.bent.launch with
  | none => [r]
  | some l => s.saved.filter fun x => x.bent.launch == r.bent.launch &&
      (x.ticket == r.ticket || l.hdr.coop || (l.hdr.paired && x.bent.order / 2 == r.bent.order / 2))

/-- Ranges of addresses that a launch names (R69, R70, R85). -/
def Header.ranges (h : Header) : List (Nat × Nat) :=
  [(h.entry.toNat, 4), (h.handler.toNat, 4), (h.livemap * 4096, 64 * (h.livecnt + 1)), (h.ctxt.toNat, 0x3008), (h.waita.toNat, 8),
   (h.waitb.toNat, 8), (h.signal.toNat, 8), (h.priv * 4096, 16 * h.privsz * h.threads)].filter fun r => r.1 != 0 && r.2 != 0

/-- Whether a launch waits for restricted pages that its enclave was moved without and that have not been unsealed: after a restore for
all of them, after a migration for those that it names (R312, R336, R339). -/
def awaitsPages (s : State) (enclave : Nat) (l : Launch) : Bool :=
  (enclaveOf s enclave).any fun e => e.awaiting.any fun va =>
    !restrictedAt s enclave e va && (e.awaitAll || l.hdr.ranges.any fun (a, n) => a < va + 65536 && va < a + n)

/-- Whether a saved bent may be placed again: no bent that was stopped with it is still resident, and its launch waits for no restricted
page (R65, R83, R336, R339). -/
def mayResume (s : State) (r : SaveRec) : Bool :=
  match Tab.get? s.launches r.bent.launch with
  | none => true
  | some l =>
    !((Tab.values s.bents).any fun b => b.launch == r.bent.launch &&
      (l.hdr.coop || (l.hdr.paired && b.order / 2 == r.bent.order / 2))) && !awaitsPages s r.enclave l

/-- The group that a queue offers. That of several saved bents the first one, in the order of saving, that may be placed again is tried,
and no other while it cannot be placed, is the model's choice (R89; log entry 61). -/
def queueGroup (s : State) (enclave q : Nat) (k : KickQueue) : Option Group :=
  let mine := s.saved.filter fun r => (Tab.get? s.launches r.bent.launch).any fun l => l.enclave == enclave && l.queue == q
  match mine.find? (mayResume s) with
  | some r => some (.resume r.bent.launch ((resumeSet s r).map (·.ticket)))
  | none => if !mine.isEmpty then none else k.cur.bind fun l => (Tab.get? s.launches l).bind fun x =>
    if !launchReady s x || x.hdr.bentCount ≤ x.next || awaitsPages s enclave x then none
    else some (.fresh l (upFrom x.next (if x.hdr.coop then x.hdr.bentCount - x.next else if x.hdr.paired then 2 else 1)))

/-- Places for a group, none when it cannot be placed now. -/
def planGroup (s : State) : Group → Option (List Plan)
  | .resume l ts => (Tab.get? s.launches l).bind fun x =>
    planAll s l x.hdr (sortBy id ((s.saved.filter fun r => ts.contains r.ticket).map (·.bent.order)))
  | .fresh l os => (Tab.get? s.launches l).bind fun x => planAll s l x.hdr os

/-- Queues with something to place now: effective priority, enclave, queue, group and places. A checkpoint and a final
migration round stop dispatch (R336, R337). -/
def servable (s : State) : List (Nat × Nat × Nat × Group × List Plan) :=
  if s.mgmt.ckpt then [] else s.enclaves.flatMap fun (id, e) => if e.mig.final then [] else e.kq.filterMap fun (q, k) =>
    (queueGroup s id q k).bind fun g => (planGroup s g).map fun ps => (k.effective, id, q, g, ps)

/-- Round-robin position of a queue at a priority: those after the queue served last come first (R75). -/
def turnKey (s : State) (prio enclave q : Nat) : Nat :=
  let key := enclave * 64 + q
  match s.lastServed.find? fun x => x.1 == prio with
  | some (_, e, k) => if key ≤ e * 64 + k then key + 2 ^ 30 else key
  | none => key

/-- One dispatch decision, at most one placement per 8 fabric cycles (R75, R76). -/
def execDispatchDecision (s : State) : Result :=
  if dispatchCycle s < s.lastPlaced then .next s
  else
    match (sortBy (fun x : Nat × Nat × Nat × Group × List Plan => (3 - x.1) * 2 ^ 40 + turnKey s x.1 x.2.1 x.2.2.1) (servable s)).head? with
    | none => .next s
    | some (prio, id, q, g, ps) =>
      let s := { s with
        lastPlaced := dispatchCycle s + 8
        lastServed := (prio, id, q) :: s.lastServed.filter (·.1 != prio) }
      let s := setQueue s id q fun k => { k with bonus := 0, readySince := k.readySince.map fun _ => dispatchCycle s }
      match g with
      | .resume _ ts => .next { s with pending := (ts.head?.map Instr.bentResume).toList ++ s.pending }
      | .fresh n os => match Tab.get? s.launches n with
        | none => .next s
        | some l =>
          let s := (os.zip ps).foldl (fun s (o, p) => placeBent s n l o p) s
          let s := { s with launches := Tab.modify s.launches n fun l => { l with next := l.next + os.length } }
          .next (if l.hdr.bentCount ≤ l.next + os.length then setQueue s id q fun k => { k with cur := none, readySince := none } else s)

/-! ### Retirement (R74, R495) -/

/-- The atomic add of 1 to SIGNAL at `.sy` (R74). Where SIGNAL no longer translates, or lies in a decoded view, there is no add,
which is the model's choice (log entry 58). -/
def signalAdd (s : State) (l : Launch) : State :=
  if l.hdr.signal = 0 then s
  else match touch s noCore l.enclave .write l.hdr.signal.toNat with
    | (s, .ok p) =>
      let pa := p.at l.hdr.signal.toNat
      if p.device then s
      else
        let e : ScopeEntry := { line := lineOf pa, enclave := l.enclave, scope := .sy, unit := .io, ticket := 0, placement := 0 }
        writeHome (track s (lineOf pa) e).2 l.hdr.part pa (toBytes 8 (Memory.num s.mem pa 8 + 1))
    | (s, _) => s

/-- Whether work of a launch is outstanding: threads, copy commands or posted tenons (R74). -/
def launchBusy (s : State) (n : Nat) : Bool :=
  (Tab.values s.bents).any (·.launch == n) || s.saved.any (·.bent.launch == n)

/-- A launch retires when every bent has ended (R74). A launch with a halted bent retires without the add. -/
def execLaunchRetire (l : Nat) (s : State) : Result :=
  match Tab.get? s.launches l with
  | none => .next s
  | some x =>
    if x.ended < x.hdr.bentCount || launchBusy s l then .next s
    else .next { (if x.halted then s else signalAdd s x) with launches := Tab.erase s.launches l }

end Sys2Proof.Machine
end

