-- ==== Sys2Proof/Machine/Record.lean ====
section
/-! DEFINITION. What a save record seals, as bytes, and the room it needs (R86, R88, R184, R290, R291). The spec names the contents of a
record and gives it no format: the order and the sizes are the model's (log entry 11). -/

namespace Sys2Proof.Machine

/-! ### Parts -/

/-- A number that may be absent, after a byte that says so. -/
def optBytes (n : Nat) (x : Option Nat) : List Byte := toBytes 1 (ofBool x.isSome) ++ toBytes n (x.getD 0)

/-- A list, after its length. -/
def listBytes {α : Type} (f : α → List Byte) (l : List α) : List Byte := toBytes 2 l.length ++ l.flatMap f

/-- An instruction's words. -/
def insnBytes (i : Instr) : List Byte := listBytes (fun w => toBytes 4 w.toNat) (encode i)

/-- A trap that is kept. -/
def keptBytes (k : Option Kept) : List Byte := optBytes 1 (k.map (·.code.num)) ++ toBytes 8 ((k.map (·.info.toNat)).getD 0)

/-- Both banks of result queues (R86, R100). -/
def queuesBytes (v : Thread) : List Byte :=
  (upFrom 0 8).flatMap fun k => listBytes (fun e => toBytes 4 e.value.toNat ++ toBytes 1 e.flags.toNat) (Tab.getD v.queues k [])

/-- Number of a barrier's level. -/
def Level.num : Level → Nat
  | .bent => 0 | .die => 1 | .pkg => 2

/-- A thread's parking condition (R86, R90). -/
def parkBytes : Status → List Byte
  | .running => toBytes 1 0
  | .held => toBytes 1 1
  | .bar i => toBytes 1 2 ++ toBytes 2 i
  | .tbar l => toBytes 1 3 ++ toBytes 1 (Level.num l)
  | .waitc w => toBytes 1 4 ++ toBytes 8 w.ea.toNat ++ toBytes 8 w.b.toNat ++ insnBytes w.insn
  | .sleep n => toBytes 1 5 ++ toBytes 8 n
  | .cbwait b i => toBytes 1 6 ++ toBytes 4 b.toNat ++ insnBytes i
  | .joinh i => toBytes 1 7 ++ insnBytes i
  | .team a => toBytes 1 8 ++ toBytes 8 a.mask.toNat ++ toBytes 8 a.val.toNat ++ toBytes 4 a.b.toNat ++ toBytes 1 (ofBool a.pred) ++ insnBytes a.insn
  | .stopped p => toBytes 1 9 ++ optBytes 2 p
  | .debugStop => toBytes 1 10
  | .exited => toBytes 1 11

/-- A raise record with its sets (R57, R86). -/
def raiseBytes (r : RaiseRec) : List Byte :=
  let set (l : List Nat) : List Byte := listBytes (toBytes 2) l
  toBytes 2 r.n ++ optBytes 4 r.red ++ toBytes 4 r.list ++ toBytes 8 r.entry.toNat ++ set r.pool ++ set r.committed ++ set r.unfinished ++
    listBytes (fun (i, k, pc) => toBytes 2 i ++ toBytes 1 k.code.num ++ toBytes 8 pc.toNat) r.faulted

/-- Sealed batches that are not complete (R89, R209). -/
def batchBytes (b : Batch) : List Byte :=
  toBytes 4 b.num.toNat ++ toBytes 8 b.promise.toNat ++ toBytes 8 b.sealed.toNat ++ toBytes 1 (ofBool b.armed)

/-- The state of a thread but its registers: PC, trap state, bank, spill count, kept fault, masks, `fpsr`, `fpen`, `seed`, meet register,
return stack, h registers, both queue banks, guard slots, parking condition, batches and raise record (R86, R291); of a matrix thread
d0-d15 and the trap of its entry too (R160, R184). -/
def threadState (v : Thread) : List Byte :=
  toBytes 8 v.pc.toNat ++ toBytes 1 (ofBool v.trapActive) ++ toBytes 4 v.tcause.toNat ++ toBytes 8 v.tpc.toNat ++ toBytes 8 v.tinfo.toNat ++
    toBytes 8 v.tmask.toNat ++ toBytes 4 v.tdst.toNat ++ toBytes 1 (ofBool v.trapBank) ++ toBytes 4 v.tlen ++ toBytes 4 v.spill.toNat ++
    keptBytes v.kept ++ toBytes 2 v.masks.toNat ++ toBytes 1 v.fpsr.toNat ++
    toBytes 1 v.fpen.toNat ++ toBytes 4 v.seed.toNat ++ optBytes 8 (v.meet.map (·.toNat)) ++ listBytes (fun x => toBytes 8 x.toNat) v.stack ++
    toBytes 1 (ofBool v.handMode) ++ (upFrom 0 16).flatMap (fun k => toBytes 4 (Tab.getD v.hctx.h k 0).toNat) ++ queuesBytes v ++
    (upFrom 0 8).flatMap (fun g => optBytes 1 ((Tab.get? v.guards g).map ofBool)) ++ parkBytes v.status ++
    toBytes 4 v.batchCount.toNat ++ listBytes batchBytes v.batches ++ listBytes raiseBytes v.raise.toList ++
    if v.control then (upFrom 0 16).flatMap (fun k => toBytes 16 (Tab.getD v.recs k 0).toNat) ++ keptBytes v.mxtrap else []

/-- Bytes that a record holds of a thread's register: all four under a full save and of a matrix thread, and under a mapped save those of
the widest class that lists it, none of a thread that has exited (R85, R86). -/
def SaveRec.width (r : SaveRec) (t : Nat) (v : Thread) (k : Nat) : Nat :=
  if r.full || v.control then 4
  else (((Tab.get? r.ranges t).getD []).filter fun (f, c, _) => f ≤ k && k < f + c).foldl (fun m (_, _, cls) =>
    max m (if cls = 0 then 4 else if cls = 1 then 2 else 1)) 0

/-- The state of a thread in a record, its n registers last: all 256 of a matrix thread (R162, R184). -/
def SaveRec.threadImage (r : SaveRec) (n t : Nat) (v : Thread) : List Byte :=
  threadState v ++ (upFrom 0 (if v.control then 256 else n)).flatMap fun k => toBytes (r.width t v k) (Tab.getD v.regs k 0).toNat

/-- A copy command record (R87, R89). -/
def cmdBytes (k : CopyCmd) : List Byte :=
  let what := match k.what with
    | .cpy kind m => toBytes 1 (match kind with
        | .glToSp => 0 | .spToGl => 1 | .spToRm => 2 | .rmToSp => 3) ++ optBytes 8 (m.map (·.toNat))
    | .gather size list => toBytes 1 4 ++ toBytes 1 size ++ toBytes 4 list
  toBytes 4 k.thread ++ what ++ toBytes 8 k.dst.toNat ++ toBytes 8 k.src.toNat ++ toBytes 4 k.len ++ optBytes 1 k.guard ++
    optBytes 4 (k.batch.map (·.toNat)) ++ toBytes 1 (ofBool (k.state == .done)) ++ keptBytes k.fault

/-- The commands that a record names: those not begun, and of each batch the first fault; of the others of unsealed batches a thread's
record holds the bytes alone (R87, R207, R208). -/
def keptCmds (cs : Tab CopyCmd) : List CopyCmd :=
  (Tab.values cs).foldl (fun l k =>
    if k.state != .done || (k.fault.isSome && !l.any fun x => x.thread == k.thread && x.batch == k.batch && x.fault.isSome) then l ++ [k] else l) []

/-- Bytes that a thread's finished commands of its unsealed batch have moved. -/
def doneBytes (cs : Tab CopyCmd) (t : Nat) : Nat :=
  (Tab.values cs).foldl (fun n k => if k.thread == t && k.state == .done && k.batch.isNone then n + k.bytes else n) 0

/-- A queued matrix operation, or the record of a bank (R184). -/
def opBytes (o : MatOp) : List Byte :=
  toBytes 1 (match o.kind with
      | .fill => 0 | .rows => 1 | .zero => 2) ++ toBytes 16 o.a.toNat ++ toBytes 16 o.c.toNat ++ toBytes 4 o.row ++ toBytes 4 o.left ++
    toBytes 1 (ofBool o.feed + 2 * ofBool o.ord + 4 * ofBool o.pair) ++ toBytes 2 o.chunk ++ toBytes 4 o.rank

/-- The state of a quarter (R184). -/
def quarterBytes (k : Quarter) : List Byte :=
  listBytes opBytes k.active.toList ++ listBytes opBytes k.ops ++ optBytes 4 (k.issued.map fun x => x.1 + 2 ^ 16 * x.2) ++
    listBytes (fun w => toBytes 4 w.toNat) k.feed ++ toBytes 1 (ofBool k.order + 2 * ofBool k.pairFailed + 4 * ofBool k.dead) ++
    listBytes (fun e => toBytes 8 e.toNat) k.errs ++ toBytes 1 k.more ++ keptBytes k.deferred

/-- A removed held segment (R184). -/
def segBytes (g : Segment) : List Byte :=
  toBytes 8 g.va ++ toBytes 8 g.descVa ++ toBytes 1 (ofBool g.ord + 2 * ofBool g.pair) ++ toBytes 1 g.chunk ++ g.data.flatMap fun w => toBytes 4 w.toNat

/-! ### The record -/

/-- The copy command records and the quarter's state in a record. -/
def SaveRec.unitsBytes (r : SaveRec) : List Byte :=
  listBytes cmdBytes (keptCmds r.cmds) ++ listBytes quarterBytes r.quarter.toList ++ toBytes 4 r.segs.length ++ r.segs.flatMap segBytes

/-- The state that a record seals: every thread, every block's scratchpad banks, the copy command records and the quarter's state. -/
def SaveRec.plain (r : SaveRec) (h : Header) : List Byte :=
  r.threads.flatMap (fun (t, v) => r.threadImage h.regs t v ++ toBytes 8 (doneBytes r.cmds t)) ++
    (Tab.values r.bent.blocks).flatMap (fun k => if k.ended then [] else Memory.bytes k.scratch 0 (16384 * h.bankCount)) ++ r.unitsBytes

/-- Room for a thread's state but its registers: a raise record has up to 4,096 iterations, each at most 11 bytes. -/
def stateRoom : Nat := 4096 + 11 * 4096

/-- Room for the commands that a core's engine holds. -/
def engineRoom : Nat := 64 * Config.engineCommands

/-- Room for a matrix thread and its quarter. -/
def quarterRoom : Nat := 8192

/-- Segments of a bent that its record would hold: none is added once it is asked to stop (R183). -/
def segmentsOf (s : State) (b : Bent) : Nat :=
  (match b.control with
    | some q => (s.segments.filter fun g => g.quarter == q).length
    | none => 0) + ((b.restore.map (·.2.length)).getD 0)

/-- Bytes of a bent's full save: header and tag, every thread's registers and other state, every scratchpad bank, the copy command
records, and the quarter's state with its segments. -/
def saveSize (s : State) (b : Bent) (h : Header) : Nat :=
  96 + h.blockCount * (h.blockSize * (4 * h.regs + stateRoom) + h.bankCount * 16384) + h.coreCount * engineRoom +
    (if h.ctxt = 0 then 0 else quarterRoom) + 160 * segmentsOf s b

end Sys2Proof.Machine
end

