-- ==== Sys2Proof/Machine/Preempt.lean ====
section
/-! DEFINITION. Pre-emption: requests, mapped and full saves, sealed records and resume (R61, R83-R89, R183-R184, R255,
R290-R292). -/

namespace Sys2Proof.Machine

/-! ### Requests (R83, R84, R290) -/

/-- Bents stopped together with one: its pair, and for a cooperative launch every bent of the launch (R83). -/
def stopGroup (s : State) (ticket : Nat) : List Nat :=
  match bentOf s ticket with
  | none => []
  | some b => match launchOf s b with
    | none => [ticket]
    | some l => (s.bents.filter fun (t, x) => x.launch == b.launch &&
        (t == ticket || l.hdr.coop || (l.hdr.paired && x.order / 2 == b.order / 2))).map (·.1)

/-- The save region that SVCFG names: where it begins and where it ends (R290). -/
def Enclave.region (e : Enclave) : Nat × Nat :=
  let base := e.svcfg.toNat / 65536 * 65536
  (base, base + (bits e.svcfg.toNat 15 0 + 1) * 65536)

/-- Places of an enclave's save region that records take, those kept after a rejection included, and those kept for the records of bents
asked to stop, one bent apart (R290, R292). -/
def placesTaken (s : State) (enclave apart : Nat) : List (Nat × Nat) :=
  (s.saved.filter (·.enclave == enclave)).map (fun r => (r.place, r.size)) ++ (s.rejected.filter (·.1 == enclave)).map (·.2) ++
    s.bents.filterMap fun (t, b) => if t != apart && (launchOf s b).any (·.enclave == enclave) then b.room else none

/-- Whether a record at a place lies in a region and meets no other. -/
def placeFits (taken : List (Nat × Nat)) (r : Nat × Nat) (place size : Nat) : Bool :=
  r.1 ≤ place && place + size ≤ r.2 && taken.all fun x => place + size ≤ x.1 || x.1 + x.2 ≤ place

/-- The lowest place of a region for a record, among the region's base and the ends of the records, none where it has no room. -/
def freePlace (taken : List (Nat × Nat)) (r : Nat × Nat) (size : Nat) : Option Nat :=
  (sortBy id (r.1 :: taken.map fun x => x.1 + x.2)).find? fun a => placeFits taken r a size

/-- A bent's place kept for the record of its full save; none where its enclave's save region has no room for it (R290). -/
def keepRoom (s : State) (ticket : Nat) : Option State :=
  match bentOf s ticket, (launchOfBent s ticket).bind fun l => (enclaveOf s l.enclave).map fun e => (l, e) with
  | some b, some (l, e) =>
    if b.room.isSome then some s
    else
      let n := saveSize s b l.hdr
      (freePlace (placesTaken s l.enclave ticket) e.region n).map fun p =>
        { s with bents := Tab.modify s.bents ticket fun b => { b with room := some (p, n) } }
  | _, _ => none

/-- The places kept for the bents that stop with one. -/
def keepRooms (s : State) (ticket : Nat) : Option State := (stopGroup s ticket).foldlM keepRoom s

/-- Whether a request may reach a bent: its enclave has room for its full save, and for those of the bents stopped with it (R290). -/
def mayStop (s : State) (ticket : Nat) : Bool := (keepRooms s ticket).isSome

/-- A request reaches one bent: arrivals at BAR are withdrawn, and the matrix thread stops, after the second half of a 128-bit access
under way (R84, R183, R228). -/
def requestBent (s : State) (ticket : Nat) : State :=
  let s := { s with bents := Tab.modify s.bents ticket fun b =>
    if b.request.isNone then { b with request := some s.time, state := .draining, asked := false } else b }
  mapThreads s fun _ v =>
    if v.bent != ticket then v
    else match v.control, v.status with
      | true, .running => if v.hctx.half.isSome then v else { v with status := .stopped none }
      | false, .bar i => { v with status := .stopped (some i) }
      | _, _ => v

/-- A bent asked to stop, with those that stop with it; without room the request waits (R83, R290). -/
def askStop (s : State) (ticket : Nat) : State :=
  match bentOf s ticket with
  | none => s
  | some b =>
    if b.request.isSome then s
    else match keepRooms s ticket with
      | some s => (stopGroup s ticket).foldl requestBent s
      | none => { s with bents := Tab.modify s.bents ticket fun b => { b with asked := true } }

/-- A request from the dispatcher or from system software (R83, R290). -/
def execPreemptRequest (ticket : Nat) (s : State) : Result := .next (askStop s ticket)

/-! ### The full save's beginning (R86) -/

/-- A thread parked where it does not hold up the full save, debug stop included (R86, R380). -/
def parkedForSave (v : Thread) : Bool := match v.status with
  | .waitc _ | .sleep _ | .cbwait _ _ | .tbar _ | .debugStop => true
  | _ => false

/-- Whether a bent's full save has begun or begins now (R86). -/
def fullDue (s : State) (l : Launch) (ticket : Nat) (b : Bent) : Bool :=
  b.full || match b.request with
    | none => false
    | some t => !allAtPoints s l ticket &&
        (t + 50000 ≤ s.time || (liveThreads s ticket).all fun v => (stopPoint v).isSome || parkedForSave v)

/-! ### Draining (R87, R183) -/

/-- Whether a service has a thread's request in hand (R350). -/
def sysTaken (v : Thread) : Bool := match v.sysc with
  | some (.taken _) => true
  | _ => false

/-- A segment that its home would take now (R175). -/
def segmentMoves (s : State) (g : Segment) : Bool :=
  let d := sideOf s g.line
  !g.ord || d.count.toNat ≤ g.chunk || g.chunk ≤ d.next.toNat || heldIn s (homeSlice (g.line * 128)) < Config.mergeSegments

/-- Whether all that R87 and R183 name has completed for a bent. -/
def drained (s : State) (ticket : Nat) (b : Bent) : Bool :=
  (s.threads.filter fun (_, v) => v.bent == ticket).all (fun (t, v) =>
    v.loads.isEmpty && v.stores == 0 && v.tl == 0 && v.hctx.half.isNone && v.tnx.isNone && !sysTaken v && (liveHands v).isEmpty &&
      !((cmdsOf s t).any fun c => c.2.state == .begun)) &&
    match b.control with
    | none => true
    | some q => (quarterOf s q).pushes.isEmpty && !(s.segments.any fun g => g.quarter == q && !g.held && segmentMoves s g)

/-! ### What a save keeps (R85, R86, R89) -/

/-- Saved bits of a register under an entry: by class, the union over the ranges that list it. -/
def savedMask (e : LiveEntry) (n : Nat) : Nat :=
  (e.ranges.filter fun (f, c, _) => f ≤ n && n < f + c).foldl (fun m (_, _, k) =>
    m ||| (match k with
      | 0 => 0xFFFFFFFF
      | 1 => 0xFFFF
      | _ => 0xFF)) 0

/-- A thread as a mapped save keeps it. -/
def mappedThread (v : Thread) (e : LiveEntry) : Thread :=
  { v with
    regs := (v.regs.map fun (n, x) => (n, x &&& BitVec.ofNat 32 (savedMask e n))).filter fun r => savedMask e r.1 != 0
    masks := (v.masks &&& BitVec.ofNat 16 e.masks) ||| 1 }

/-- Scratchpad bytes inside the ranges of some entries. -/
def mappedScratch (es : List LiveEntry) (m : List Host.Cell) : List Host.Cell :=
  m.filter fun c => es.any fun e => e.pads.any fun (o, l) => o ≤ c.1 && c.1 < o + l

/-- What a stop leaves of a thread: results owed arrive, a posted request is withdrawn, prefetched words go, and a sleeper keeps the wait
that is left on its core's counter (R87, R350, R479). -/
def quiet (v : Thread) (now : Nat) : Thread :=
  { v with
    status := match v.status with
      | .sleep target => .sleep (target - now)
      | o => o
    queues := v.queues.map (fun (k, es) => (k, es.map fun e => { e with arrived := true })), sysc := none, fetched := [] }

/-- A bent's entries by thread, for a mapped save. -/
def entriesOf (s : State) (l : Launch) (ts : Tab Thread) (block : Nat) : List LiveEntry :=
  (Tab.values ts).filterMap fun v => if !v.control && v.block == block then (stopPoint v).bind (liveEntry s l) else none

/-! ### The sealed record (R88, R291, R307) -/

/-- Bytes of an enclave's memory as the root reads them; those it cannot read are zero. -/
def regionBytes (s : State) (enclave : Nat) : Nat → Nat → Nat → List Byte
  | 0, _, _ => []
  | fuel + 1, va, n =>
    if n = 0 then []
    else
      let m := min n (128 - va % 128)
      (match translate s noCore enclave .read va with
        | .ok p => if p.device || poisoned s (p.at va) then toBytes m 0 else Memory.bytes s.mem (p.at va) m
        | _ => toBytes m 0) ++ regionBytes s enclave fuel (wrap 64 (va + m : Nat)) (n - m)

/-- The 64 bytes of a record's header: its fields in the order of R291, a 64-bit word each (log entry 16). -/
def SaveRec.header (r : SaveRec) (len : Nat) : List Byte :=
  fitBytes 64 (bodyWords [r.enclave, r.ticket, r.counter, len, ofBool r.full, r.bent.placement])

/-- Nonce of a record: the counter, then the ticket (R291). -/
def SaveRec.nonce (r : SaveRec) : Nat := r.counter * 2 ^ 32 + r.ticket

/-- The key of an enclave, resident or wrapped. -/
def enclaveKey (s : State) (e : Enclave) : Nat :=
  match e.slot with
  | some k => Tab.getD s.root.keys k 0
  | none => e.wrapped.getD 0

/-- Bytes written to an enclave's memory by the root, line by line, where its pages allow. -/
def rootWrite (enclave : Nat) : Nat → Nat → List Byte → State → State
  | 0, _, _, s => s
  | fuel + 1, va, bs, s =>
    if bs.isEmpty then s
    else
      let n := 128 - va % 128
      let s := match touch s noCore enclave .write va with
        | (s, .ok p) => if p.device then s else writeHome s 0 (p.at va) (bs.take n)
        | (s, _) => s
      rootWrite enclave fuel (wrap 64 (va + n : Nat)) (bs.drop n) s

/-- A record sealed under its enclave's key, written to the enclave's save region and entered in the root's table: at the place kept for it, or
at the lowest that is free. One for which the region has no room is not written (R88, R290, R291, R292; log entry 12). -/
def storeRecord (s : State) (r : SaveRec) (h : Header) : State :=
  match enclaveOf s r.enclave with
  | none => s
  | some e =>
    let plain := r.plain h
    let hdr := r.header plain.length
    let sealed := Config.gcmSeal (enclaveKey s e) r.nonce hdr plain
    let image := hdr ++ sealed.1 ++ toBytes 16 sealed.2.toNat
    let taken := placesTaken s r.enclave r.ticket
    let place := if placeFits taken e.region r.place r.size then some r.place else freePlace taken e.region r.size
    let s := match place with
      | some p => rootWrite r.enclave (image.length / 128 + 2) p image s
      | none => s
    { s with saved := s.saved ++ [{ r with place := place.getD 0, size := if place.isSome then r.size else 0, image := image }],
             root := { s.root with saves := s.root.saves ++ [(r.ticket, r.counter)] } }

/-- Whether a bent's record has a place: the one kept for it, where SVCFG still names it, or another (R290). -/
def hasPlace (s : State) (ticket : Nat) (b : Bent) (l : Launch) : Bool :=
  (enclaveOf s l.enclave).any fun e =>
    let taken := placesTaken s l.enclave ticket
    (b.room.any fun (p, n) => placeFits taken e.region p n) || (freePlace taken e.region (saveSize s b l.hdr)).isSome

/-- The quarter as it is saved: an unfinished fill is abandoned, and the active bank is kept by its record (R183, R184). -/
def savedQuarter (k : Quarter) : Quarter :=
  { k with bound := none, active := k.active.map (fun o => { o with loaded := none }), ops := k.ops.map fun o => { o with loaded := none } }

/-- Monitors of a bent's parked threads dropped, where no other thread of the core is parked on the line (R87). -/
def dropMonitors (s : State) (ticket : Nat) : State :=
  let other (core line : Nat) : Bool := (parkedOn s core line).any fun t => (threadOf s t).any fun v => v.bent != ticket
  { s with monitors := s.monitors.filter fun (line, core) => (parkedOn s core line).isEmpty || other core line }

/-- The stop of a bent passes a phase boundary on each of its cores, with a release at `.dv` (R224, R232). -/
def stopCores (s : State) (b : Bent) : State :=
  (Tab.values b.blocks).foldl (fun s k => if k.ended then s else (boundary (releaseHome s k.core) k.core).1) s

/-- Segments that a bent's record keeps (R184). -/
def bentSegments (s : State) (b : Bent) : List Segment :=
  match b.control with
  | some q => s.segments.filter fun g => g.quarter == q
  | none => []

/-- The record of a bent that a save seals, from the machine before and after its release: the live map is read before it (R87, R88,
R255, R291). -/
def bentRecord (s0 s : State) (ticket : Nat) (b : Bent) (l : Launch) (full : Bool) : SaveRec :=
  let ts := (s.threads.filter fun (_, v) => v.bent == ticket).map fun (t, v) => (t, quiet v (arithCycles s (threadCore s v)))
  let es (i : Nat) : List LiveEntry := entriesOf s0 l ts i
  let saved : Tab Thread := if full then ts
    else ts.map fun (t, v) => match (stopPoint v).bind (liveEntry s0 l) with
      | some e => (t, if v.control then v else mappedThread v e)
      | none => (t, v)
  let blocks := b.blocks.map fun (i, k) => (i, { k with scratch := if full then k.scratch else mappedScratch (es i) k.scratch })
  { enclave := l.enclave, ticket := ticket, counter := (((enclaveOf s l.enclave).map (·.saveCounter)).getD 0 + 1) % 2 ^ 64, full := full
    size := saveSize s b l.hdr, bent := { b with blocks := blocks }, threads := saved
    ranges := if full then [] else ts.filterMap fun (t, v) => ((stopPoint v).bind (liveEntry s0 l)).map fun e => (t, e.ranges)
    cmds := s.cmds.filter fun (_, c) => ts.any fun (t, _) => c.thread == t
    quarter := match b.control with
      | some q => some (savedQuarter (quarterOf s q))
      | none => b.restore.map (·.1)
    segs := bentSegments s b ++ (b.restore.map (·.2)).getD [], place := (b.room.map (·.1)).getD 0, image := [] }

/-- The machine without a bent that has been saved (R87). -/
def takeOff (s : State) (b : Bent) (r : SaveRec) : State :=
  let s := setEnclave (dropMonitors s r.ticket) r.enclave fun e => { e with saveCounter := r.counter }
  let s := match b.control with
    | some q => unbindQuarter s q
    | none => s
  { s with
    bents := Tab.erase s.bents r.ticket
    threads := s.threads.filter fun (_, v) => v.bent != r.ticket
    cmds := s.cmds.filter fun (k, _) => !(r.cmds.any (·.1 == k))
    requests := s.requests.filter fun q => !(r.threads.any fun (t, _) => q.thread == t)
    segments := s.segments.filter fun g => !(r.segs.contains g) }

/-- A bent drained, released, sealed and taken off the machine (R87, R88, R292). -/
def sealBent (s : State) (ticket : Nat) (b : Bent) (l : Launch) (full : Bool) : State :=
  let s1 := stopCores s b
  let r := bentRecord s s1 ticket b l full
  storeRecord (takeOff s1 b r) r l.hdr

/-- Whether the root's save table has room (R292). -/
def saveTableRoom (s : State) : Bool := s.root.saves.length < Config.saveEntries

/-- The mapped save of a bent whose threads have all stopped at valid points (R86). -/
def execMappedSave (ticket : Nat) (s : State) : Result :=
  match bentOf s ticket, launchOfBent s ticket with
  | some b, some l =>
    if b.request.isSome && !b.full && allAtPoints s l ticket && drained s ticket b && saveTableRoom s && hasPlace s ticket b l then
      .next (sealBent s ticket b l false)
    else .next s
  | _, _ => .next s

/-- A running thread stops at its next instruction boundary for a full save, which does not lie between the halves of a 128-bit access
(R228); a foreman in hand mode, one held at its meet address included, resumes at the hand entry, and its open iteration goes back
to the pool (R61, R86). One whose SYSC a service has taken goes on waiting (R350). -/
def stopForFull (v : Thread) : Thread :=
  if !(v.status == .running || (v.status == .held && v.handMode)) || v.hctx.half.isSome || sysTaken v || v.tnx.isSome then v
  else
    let v := { v with status := .stopped none }
    match v.handMode, v.raise with
    | true, some r =>
      { v with
        pc := r.entry
        hctx := { v.hctx with iter := none, buf := [], gather := 0, half := none }
        raise := some { r with pool := v.hctx.iter.toList ++ r.pool } }
    | _, _ => v

/-- Whether a thread still stands where a push of its left it: it has completed no instruction since, whatever has returned to it. -/
def Push.undone (p : Push) (v : Thread) : Bool :=
  let own (x : Thread) : Tab Word := x.regs.filter fun r => !(p.was.loads.any fun l => l.writes.any fun y => y.1 == r.1)
  v.pc == p.next && own v == own p.was && { p.was with
    pc := v.pc, regs := v.regs, queues := v.queues, fpsr := v.fpsr, tl := v.tl, loads := v.loads, stores := v.stores, late := v.late
    guards := v.guards, batches := v.batches, kept := v.kept, keptSeq := v.keptSeq, status := v.status, age := v.age
    phaseStart := v.phaseStart, fetched := v.fetched } == v

/-- The last push of a stopped thread withdrawn where it has not entered its feed queue, the thread set back before the instruction that
pushed. One that the thread has gone on from cannot be, and enters (R183; log entry 57). -/
def withdrawPush (s : State) (t : Nat) : State :=
  let find (f : Push → Thread → Bool) : Option (Nat × Push) := s.quarters.findSome? fun (q, k) =>
    ((k.pushes.reverse.find? fun p => p.thread == t).bind fun p => (threadOf s t).bind fun v => if f p v then some (q, p) else none)
  match find Push.undone with
  | some (q, p) =>
    setThread (setQuarter s q fun k => { k with pushes := (k.pushes.reverse.erase p).reverse }) t
      (((threadOf s t).map fun v => { v with pc := p.was.pc, queues := p.was.queues, fpsr := p.was.fpsr, tl := v.tl - 1 }).getD p.was)
  | none => s

/-- Every push that can be withdrawn of the threads of a bent that have stopped at an instruction boundary, a thread's newest first. A thread
has up to 15 on their way (R210). -/
def withdrawPushes (s : State) (ticket : Nat) : State :=
  (s.threads.filter fun (_, v) => v.bent == ticket && v.tl != 0 && v.status == .stopped none).foldl
    (fun s e => (upFrom 0 15).foldl (fun s _ => withdrawPush s e.1) s) s

/-- The full save: threads stop, what is outstanding completes, and the bent is saved (R86, R87). -/
def execFullSave (ticket : Nat) (s : State) : Result :=
  match bentOf s ticket, launchOfBent s ticket with
  | some b, some l =>
    if !fullDue s l ticket b then .next s
    else
      let s := withdrawPushes (mapThreads s fun _ v => if v.bent == ticket then stopForFull v else v) ticket
      let s := { s with bents := Tab.modify s.bents ticket fun b => { b with full := true } }
      let still := (liveThreads s ticket).all fun v => v.status != .running
      if still && drained s ticket b && saveTableRoom s && hasPlace s ticket b l then
        .next (sealBent s ticket { b with full := true } l true)
      else .next s
  | _, _ => .next s

/-! ### Resume (R89, R292) -/

/-- Whether the root accepts a record: its counter is the table's entry, and its tag verifies. The bytes that the root wrote verify;
others in their place are opened as they are (R291, R292; log entry 12). -/
def acceptRecord (s : State) (r : SaveRec) : Bool :=
  let here := regionBytes s r.enclave (r.image.length / 128 + 2) r.place r.image.length
  let hdr := here.take 64
  let n := here.length - 80
  s.root.saves.contains (r.ticket, r.counter) && (here == r.image ||
    (enclaveOf s r.enclave).any fun e =>
      hdr == r.image.take 64 && (Config.gcmOpen (enclaveKey s e) r.nonce hdr ((here.drop 64).take n) (BitVec.ofNat 128 (ofBytes (here.drop (64 + n))))).isSome)

/-- A rejected record ends its bent: the record stays in the save region, its pair is cancelled, and the peers that waited for it go
on (R182, R292, R293). Its error record has UNIT 0, which is the model's choice (R289; log entry 62). -/
def rejectRecord (s : State) (r : SaveRec) (l : Launch) : State :=
  let s := { s with
    saved := s.saved.erase r
    rejected := s.rejected ++ [(r.enclave, r.place, r.size)]
    root := { s.root with saves := s.root.saves.filter fun e => e.1 != r.ticket }
    launches := Tab.modify s.launches r.bent.launch fun l => { l with ended := l.ended + 1, halted := true } }
  let s := cancelTiles s (pairTiles ((r.quarter.map (·.ops)).getD []) r.segs) r.bent.launch r.bent.order l.hdr.part []
  settleLaunch (errorRecord s r.enclave 0x05 0 l.queue r.ticket 0 0 0) r.bent.launch

/-- A thread as it resumes at its new place (R89): stopped threads run again, sleepers wait out what was left, promises move to the
new counter (R479). -/
def resumedThread (v : Thread) (k : Option Block) (now : Nat) (phase : Word) : Thread :=
  let q := (k.bind fun b => b.quads[v.tix / 4]?)
  { v with
    slice := (q.map (·.slice)).getD 0, slot := (q.map (·.slot)).getD 0
    status := match v.status with
      | .stopped _ => .running
      | .sleep left => .sleep (now + left)
      | o => o
    age := 0, phaseStart := phase
    batches := v.batches.map fun b => { b with
      promise := BitVec.ofNat 64 now + b.promise - b.sealed, sealed := BitVec.ofNat 64 now } }

/-- A bent's saved state restored at a place (R89, R255). -/
def restoreBent (s : State) (r : SaveRec) (p : Plan) : State :=
  let blocks := (r.bent.blocks.zip p.blocks).map fun ((i, old), new) =>
    (i, if old.ended then { new with quads := [], banks := [], ended := true } else { new with scratch := old.scratch })
  let b : Bent := { r.bent with
    cluster := p.cluster, c0 := p.c0, blocks := blocks, state := .running, request := none, asked := false, full := false
    room := none, stamp := s.placings, placement := r.bent.placement + 1, control := none, restore := r.quarter.map fun q => (q, r.segs) }
  let s := { s with
    saved := s.saved.erase r
    root := { s.root with saves := s.root.saves.filter fun e => e.1 != r.ticket }
    bents := Tab.set s.bents r.ticket b, placings := s.placings + 1 }
  let s := blocks.foldl (fun s (i, k) =>
    if k.ended then s
    else
      let (s, ph) := boundary (acquireHome s k.core) k.core
      let mine := r.threads.filter fun (_, v) => !v.control && v.block == i
      mine.foldl (fun s (t, v) => setThread s t (resumedThread v (some k) (arithCycles s k.core) ph)) s) s
  let s := (r.threads.filter fun (_, v) => v.control).foldl (fun s (t, v) => setThread s t (resumedThread v none 0 0)) s
  let s := r.cmds.foldl (fun s (_, c) =>
    let core := ((threadOf s c.thread).map (threadCore s)).getD 0
    { s with cmds := Tab.set s.cmds s.cmdSeq { c with core := core }, cmdSeq := s.cmdSeq + 1 }) s
  r.threads.foldl (fun s (t, _) => retest s t) s

/-- Saved bents placed again together once all of them are saved, each with its record checked; those whose records are rejected
end after the others have taken their places, and a truss barrier whose arrivals are all back completes (R65, R83, R89, R292, R486). -/
def execBentResume (ticket : Nat) (s : State) : Result :=
  match s.saved.find? fun r => r.ticket == ticket with
  | none => .next s
  | some r => match Tab.get? s.launches r.bent.launch with
    | none => .next s
    | some l =>
      let rs := sortBy (fun x : SaveRec => x.bent.order) (resumeSet s r)
      if !mayResume s r then .next s
      else match planAll s r.bent.launch l.hdr (rs.map (·.bent.order)) with
        | none => .next s
        | some ps =>
          let good := (rs.zip ps).filter fun x => acceptRecord s x.1
          let bad := rs.filter fun x => !acceptRecord s x
          .next (settleLaunch (bad.foldl (fun s x => rejectRecord s x l) (good.foldl (fun s x => restoreBent s x.1 x.2) s)) r.bent.launch)

end Sys2Proof.Machine
end

