-- ==== Sys2Proof/Machine/Privilege.lean ====
section
/-! DEFINITION. The privileged state of a hart: its control and status registers, how it takes a trap and returns from one, and which
interrupt it takes (R340, R342; RISC-V's own rules by log entry 9). -/

namespace Sys2Proof.Machine

/-! ### Registers -/

/-- A hart's CSR as stored, by number; an unwritten one is zero (log entry 6). -/
def Hart.csrOf (h : Hart) (c : Nat) : Nat := (Tab.getD h.csr c 0).toNat
/-- A CSR stored; one that holds the value stays as it is. -/
def Hart.setCsr (h : Hart) (c v : Nat) : Hart :=
  if h.csrOf c = v % 2 ^ 64 then h else { h with csr := Tab.set h.csr c (BitVec.ofNat 64 v) }

/-- Some bits of a number replaced: w of them from i up. -/
def putBits (x i w v : Nat) : Nat := x - bits x (i + w - 1) i * 2 ^ i + v % 2 ^ w * 2 ^ i

/-- Numbers of the CSRs that the machine's own rules name. -/
def csrMstatus : Nat := 0x300
def csrMisa : Nat := 0x301
def csrMedeleg : Nat := 0x302
def csrMideleg : Nat := 0x303
def csrMie : Nat := 0x304
def csrMip : Nat := 0x344
def csrMtinst : Nat := 0x34A
def csrMtval2 : Nat := 0x34B
def csrMenvcfg : Nat := 0x30A
def csrSenvcfg : Nat := 0x10A
def csrHenvcfg : Nat := 0x60A
def csrStvec : Nat := 0x105
def csrSepc : Nat := 0x141
def csrScause : Nat := 0x142
def csrStval : Nat := 0x143
def csrSatp : Nat := 0x180
def csrVsstatus : Nat := 0x200
def csrVstvec : Nat := 0x205
def csrVsepc : Nat := 0x241
def csrVscause : Nat := 0x242
def csrVstval : Nat := 0x243
def csrVsatp : Nat := 0x280
def csrHstatus : Nat := 0x600
def csrHedeleg : Nat := 0x602
def csrHideleg : Nat := 0x603
def csrHvip : Nat := 0x645
def csrHtval : Nat := 0x643
def csrHtinst : Nat := 0x64A
def csrHgatp : Nat := 0x680
def csrMinstret : Nat := 0xB02
def csrHvictl : Nat := 0x609

/-- misa at reset: 64-bit, with A, C, D, F, H, I, M, S and U (R340). -/
def misaReset : DWord := 0x80000000001411AD

/-- Whether the H extension is on: with it, supervisor mode outside virtual machines is HS mode, without it S mode. -/
def Hart.hyper (h : Hart) : Bool := (Tab.getD h.csr csrMisa misaReset).getLsbD 7

/-! ### Modes -/

/-- Whether a mode is one of a virtual machine, and its level: 0 user, 1 supervisor, 3 machine. -/
def HMode.virt : HMode → Bool
  | .vs | .vu => true
  | _ => false
def HMode.level : HMode → Nat
  | .m => 3
  | .hs | .s | .vs => 1
  | .u | .vu => 0

/-- Supervisor mode outside virtual machines. -/
def Hart.super (h : Hart) : HMode := if h.hyper then .hs else .s

/-- MPP and MPV of mstatus for a mode. -/
def mppOf (m : HMode) : Nat × Bool := (m.level, m.virt)

/-- The mode that a level and a virtual bit name; none for the reserved code of MPP. -/
def modeOf (h : Hart) (mpp : Nat) (mpv : Bool) : Option HMode :=
  match mpp, mpv && h.hyper with
  | 0, false => some .u
  | 0, true => some .vu
  | 1, true => some .vs
  | 1, false => some h.super
  | 3, _ => some .m
  | _, _ => none

/-- Bits of mstatus, sstatus and hstatus. -/
def bSIE : Nat := 1
def bMIE : Nat := 3
def bSPIE : Nat := 5
def bMPIE : Nat := 7
def bSPP : Nat := 8
def bFS : Nat := 13
def bMPRV : Nat := 17
def bSUM : Nat := 18
def bMXR : Nat := 19
def bTVM : Nat := 20
def bTW : Nat := 21
def bTSR : Nat := 22
def bGVA : Nat := 38
def bHGVA : Nat := 6
def bSPV : Nat := 7
def bSPVP : Nat := 8
def bHU : Nat := 9

/-- A CSR with some of its bits replaced. -/
def Hart.putCsr (h : Hart) (c i w v : Nat) : Hart := h.setCsr c (putBits (h.csrOf c) i w v)

/-- Bits of the status registers that hold a field of their own, as mstatus shows them: the floating-point state. -/
def Hart.fs (h : Hart) : Nat := bits (h.csrOf csrMstatus) (bFS + 1) bFS
def Hart.vfs (h : Hart) : Nat := bits (h.csrOf csrVsstatus) (bFS + 1) bFS

/-- Whether floating-point instructions run: FS is not off, nor that of the virtual machine (log entry 9). -/
def Hart.floats (h : Hart) : Bool := h.fs != 0 && (!h.mode.virt || h.vfs != 0)

/-- The floating-point state marked dirty. -/
def Hart.dirtyFs (h : Hart) : Hart :=
  let h := h.putCsr csrMstatus bFS 2 3
  if h.mode.virt then h.putCsr csrVsstatus bFS 2 3 else h

/-! ### Exceptions -/

/-- Causes of the RISC-V privileged architecture (log entries 9, 14). -/
def causeFetch : DWord := 1
def causeIllegal : DWord := 2
def causeBreak : DWord := 3
def causeLoadAlign : DWord := 4
def causeLoad : DWord := 5
def causeStoreAlign : DWord := 6
def causeStore : DWord := 7
def causeFetchPage : DWord := 12
def causeLoadPage : DWord := 13
def causeStorePage : DWord := 15
def causeFetchGuest : DWord := 20
def causeLoadGuest : DWord := 21
def causeVirtual : DWord := 22
def causeStoreGuest : DWord := 23
/-- ECALL's cause, by the mode it is executed in. -/
def causeCall : HMode → DWord
  | .u | .vu => 8
  | .s | .hs => 9
  | .vs => 10
  | .m => 11

/-- An exception of a hart: its cause and value, whether the value is an address of a virtual machine, the guest-physical address it
failed at, shifted as htval holds it, and the instruction that mtinst or htinst shows: zero, or the pseudoinstruction of a page-table
read that the guest stage refused. -/
structure Xcpt where
  cause : DWord
  tval : DWord
  gva : Bool
  gpa : Nat
  pseudo : Nat
  deriving DecidableEq, Repr

/-- The pseudoinstruction of a 64-bit read of a page table of the virtual machine. -/
def pteRead : Nat := 0x3000

/-- An exception with no address of a virtual machine. -/
def xcpt (cause tval : DWord) : Xcpt := { cause := cause, tval := tval, gva := false, gpa := 0, pseudo := 0 }

/-- Where a trap goes: the base of a vector register, or for an interrupt under vectoring the entry of its code. -/
def vectorAt (tvec : Nat) (cause : DWord) : DWord :=
  BitVec.ofNat 64 (tvec / 4 * 4 + if bit tvec 0 && bit cause.toNat 63 then 4 * (cause.toNat % 2 ^ 63) else 0)

/-- A trap to M mode. -/
def Hart.trapM (h : Hart) (e : Xcpt) : Hart :=
  let st := h.csrOf csrMstatus
  let h' := (((h.setCsr csrMstatus (putBits (putBits (putBits st bMPIE 1 (st / 2 ^ bMIE)) bMIE 1 0) bGVA 1 (ofBool e.gva))).setCsr csrMtval2 e.gpa).setCsr csrMtinst e.pseudo)
  { h' with epc := h.pc, cause := e.cause, tval := e.tval, prev := h.mode, mode := .m, pc := vectorAt h.tvec.toNat e.cause }

/-- A trap to supervisor mode outside virtual machines. -/
def Hart.trapS (h : Hart) (e : Xcpt) : Hart :=
  let st := h.csrOf csrMstatus
  let h1 := ((h.setCsr csrSepc h.pc.toNat).setCsr csrScause e.cause.toNat).setCsr csrStval e.tval.toNat
  let h2 := h1.setCsr csrMstatus (putBits (putBits (putBits st bSPIE 1 (st / 2 ^ bSIE)) bSIE 1 0) bSPP 1 h.mode.level)
  let hs := putBits (putBits (h.csrOf csrHstatus) bSPV 1 (ofBool h.mode.virt)) bHGVA 1 (ofBool e.gva)
  let h3 := if h.hyper then
      ((h2.setCsr csrHstatus (if h.mode.virt then putBits hs bSPVP 1 h.mode.level else hs)).setCsr csrHtval e.gpa).setCsr csrHtinst e.pseudo
    else h2
  { h3 with mode := h.super, pc := vectorAt (h.csrOf csrStvec) e.cause }

/-- A trap to VS mode; an interrupt of a virtual machine has its supervisor's code there. -/
def Hart.trapVs (h : Hart) (e : Xcpt) : Hart :=
  let st := h.csrOf csrVsstatus
  let c := if bit e.cause.toNat 63 then e.cause - 1 else e.cause
  let h1 := ((h.setCsr csrVsepc h.pc.toNat).setCsr csrVscause c.toNat).setCsr csrVstval e.tval.toNat
  let h2 := h1.setCsr csrVsstatus (putBits (putBits (putBits st bSPIE 1 (st / 2 ^ bSIE)) bSIE 1 0) bSPP 1 h.mode.level)
  { h2 with mode := .vs, pc := vectorAt (h.csrOf csrVstvec) c }

/-- Interrupts of virtual machines, which are always delegated to HS mode. -/
def vsBits : Nat := 0x444

/-- mideleg as it reads: with H, the interrupts of virtual machines stand delegated. -/
def Hart.mideleg (h : Hart) : Nat := h.csrOf csrMideleg ||| if h.hyper then vsBits else 0

/-- Cause of the interrupt that hvictl, and no pending bit, gives the virtual machine: its number under a bit that no cause of RISC-V has,
which `Hart.trap` takes away. -/
def causeInjected (iid : Nat) : DWord := BitVec.ofNat 64 (2 ^ 63 + 2 ^ 62 + iid)

/-- A trap of a hart outside enclave mode: to M mode, or where M mode delegates it to supervisor mode, or where that delegates it to the
virtual machine it comes from. -/
def Hart.trap (h : Hart) (e : Xcpt) : Hart :=
  let code := e.cause.toNat % 2 ^ 63
  let int := bit e.cause.toNat 63
  if int && bit code 62 && h.mode.virt then h.trapVs { e with cause := BitVec.ofNat 64 (2 ^ 63 + code % 2 ^ 62 + 1) }
  else if h.mode == .m || !bit (if int then h.mideleg else h.csrOf csrMedeleg) code then h.trapM e
  else if h.mode.virt && h.hyper && bit (h.csrOf (if int then csrHideleg else csrHedeleg)) code then h.trapVs e
  else h.trapS e

/-- A trap of a cause and value (log entry 14). -/
def Hart.take (h : Hart) (cause tval : DWord) : Hart := h.trap (xcpt cause tval)

/-! ### Returns -/

/-- MRET. -/
def Hart.mret (h : Hart) : Hart :=
  let st := h.csrOf csrMstatus
  let st := putBits (putBits st bMIE 1 (st / 2 ^ bMPIE)) bMPIE 1 1
  let h' := h.setCsr csrMstatus (if h.prev == .m then st else putBits st bMPRV 1 0)
  { h' with pc := h.epc, mode := h.prev, prev := .u }

/-- SRET outside virtual machines. -/
def Hart.sretS (h : Hart) : Hart :=
  let st := h.csrOf csrMstatus
  let hs := h.csrOf csrHstatus
  let st' := putBits (putBits (putBits (putBits st bSIE 1 (st / 2 ^ bSPIE)) bSPIE 1 1) bSPP 1 0) bMPRV 1 0
  { (h.setCsr csrMstatus st').setCsr csrHstatus (putBits hs bSPV 1 0) with
    pc := BitVec.ofNat 64 (h.csrOf csrSepc), mode := (modeOf h (bits st bSPP bSPP) (bit hs bSPV)).getD .u }

/-- SRET in VS mode. -/
def Hart.sretVs (h : Hart) : Hart :=
  let st := h.csrOf csrVsstatus
  { h.setCsr csrVsstatus (putBits (putBits (putBits st bSIE 1 (st / 2 ^ bSPIE)) bSPIE 1 1) bSPP 1 0) with
    pc := BitVec.ofNat 64 (h.csrOf csrVsepc), mode := if bit st bSPP then .vs else .vu }

/-! ### Interrupts (R342) -/

/-- Places of a hart's interrupt files among its CSRs: the registers that siselect and sireg reach, and with `m` those that miselect and
mireg reach (log entry 14). -/
def fileReg (m : Bool) (sel : Nat) : Nat := (if m then 0x1100 else 0x1000) + sel
def selDelivery : Nat := 0x70
def selThreshold : Nat := 0x72
def selPending : Nat := 0x80
def selEnable : Nat := 0xC0

/-- The identities pending in an interrupt file, that of M level or that of supervisor level. -/
def Hart.msis (h : Hart) (m : Bool) : List Nat := if m then h.msiM else h.msi
def Hart.setMsis (h : Hart) (m : Bool) (ids : List Nat) : Hart := if m then { h with msiM := ids } else { h with msi := ids }

/-- Whether an interrupt file has an identity enabled. -/
def Hart.fileEnabled (h : Hart) (m : Bool) (id : Nat) : Bool := bit (h.csrOf (fileReg m (selEnable + id / 64 * 2))) (id % 64)

/-- The interrupt that a file presents: the least identity pending, enabled and below the threshold. -/
def Hart.topMsi (h : Hart) (m : Bool) : Option Nat :=
  let t := h.csrOf (fileReg m selThreshold)
  least ((h.msis m).filter fun id => id != 0 && h.fileEnabled m id && (t == 0 || decide (id < t)))

/-- Whether a file delivers an external interrupt to the hart. -/
def Hart.fileDelivers (h : Hart) (m : Bool) : Bool := bit (h.csrOf (fileReg m selDelivery)) 0 && (h.topMsi m).isSome

/-- mip: the timer, the interrupt files' external interrupts, what software has set, and the interrupts of virtual machines. -/
def Hart.mip (h : Hart) : Nat :=
  (h.csrOf csrMip &&& 0x222) ||| (2 ^ 7 * ofBool h.mtip) |||
    (2 ^ 9 * ofBool (h.fileDelivers false)) ||| (2 ^ 11 * ofBool (h.fileDelivers true)) |||
    if h.hyper then h.csrOf csrHvip &&& vsBits else 0

/-- Interrupts from the first taken to the last. -/
def intOrder : List Nat := [11, 3, 7, 9, 1, 5, 12, 10, 2, 6]

/-- Interrupts that are pending and enabled. -/
def Hart.on (h : Hart) : Nat := h.mip &&& h.csrOf csrMie

/-- Those of them that go to a virtual machine, by its own numbers: HS mode delegates them. -/
def Hart.onVs (h : Hart) : Nat := (h.on &&& h.csrOf csrHideleg &&& vsBits) / 2

/-- Whether hvictl names the interrupt that a virtual machine has beside the external one (VTI). -/
def Hart.injects (h : Hart) : Bool := bit (h.csrOf csrHvictl) 30

/-- The external interrupt of a virtual machine, and its priority: IPRIO of hvictl where that names it, otherwise the lowest. There is no
guest interrupt file (log entry 14). -/
def Hart.vsExternal (h : Hart) : Option (Nat × Nat) :=
  let c := h.csrOf csrHvictl
  if bit h.onVs 9 then some (9, if bits c 27 16 = 9 && bits c 7 0 ≠ 0 then bits c 7 0 else 256) else none

/-- The other interrupt of a virtual machine, and its priority: the one that hvictl injects, where an IPRIO of 0 leaves it to DPR whether it
comes ahead of an external one; otherwise the first pending, behind it. -/
def Hart.vsOther (h : Hart) : Option (Nat × Nat) :=
  let c := h.csrOf csrHvictl
  let iid := bits c 27 16
  if h.injects then
    if iid = 9 || iid = 0 then none else some (iid, if bits c 7 0 ≠ 0 then bits c 7 0 else if bit c 9 then 257 else 0)
  else ([1, 5].find? (bit h.onVs)).map fun i => (i, 257)

/-- The interrupt that a virtual machine has, as vstopi shows it: of two the one with the lesser priority number, of equal ones that which
DPR says (log entry 14). -/
def Hart.vsTop (h : Hart) : Option (Nat × Nat) :=
  match h.vsExternal, h.vsOther with
  | some e, some o => if o.2 < e.2 || (o.2 = e.2 && !bit (h.csrOf csrHvictl) 9) then some o else some e
  | e, o => e.or o

/-- The interrupt that a hart takes before its next instruction: the first that is pending, enabled, and enabled at the level it goes
to, those for M mode ahead of those that it delegates, and a virtual machine's last. In enclave mode a hart is in user mode. -/
def Hart.interrupt (h : Hart) : Option DWord :=
  let st := h.csrOf csrMstatus
  let cause (i : Nat) : DWord := BitVec.ofNat 64 (2 ^ 63 + i)
  let toM (i : Nat) : Bool := bit h.on i && !bit h.mideleg i && (h.mode != .m || bit st bMIE)
  let toS (i : Nat) : Bool := bit h.on i && bit h.mideleg i && h.mode != .m && (h.mode.virt || h.mode == .u || bit st bSIE) &&
    !(bit (h.csrOf csrHideleg) i && h.hyper && bit vsBits i)
  let toVs : Option DWord :=
    if h.mode == .vu || (h.mode == .vs && bit (h.csrOf csrVsstatus) bSIE) then
      h.vsTop.map fun (i, _) => if i = 9 || !h.injects then cause (i + 1) else causeInjected i
    else none
  (((intOrder.find? toM).or (intOrder.find? toS)).map cause).or toVs

end Sys2Proof.Machine
end

