-- ==== Sys2Proof/Machine/Hart.lean ====
section
/-! DEFINITION. The root's access log, and what a hart is: its registers, its exceptions, enclave mode and its accesses to
memory (R306, R317, R318, R340-R343, R399). -/

namespace Sys2Proof.Machine

/-! ### Harts -/

def hartOf (s : State) (h : Nat) : Option Hart := Tab.get? s.harts h
def setHart (s : State) (h : Nat) (f : Hart → Hart) : State := { s with harts := Tab.modify s.harts h f }

/-- An integer register; x0 reads zero. -/
def Hart.getX (h : Hart) (r : BitVec 5) : DWord := if r = 0 then 0 else Tab.getD h.x r.toNat 0
/-- An integer register written; a write to x0 is discarded (R397). -/
def Hart.setX (h : Hart) (r : BitVec 5) (v : DWord) : Hart := if r = 0 then h else { h with x := Tab.set h.x r.toNat v }

/-- A hart out of reset: M mode at address 0, a0 holding mhartid (R343; other registers by log entry 6). -/
def Hart.start (id : Nat) : Hart :=
  { pc := 0, mode := .m, prev := .u, csr := [], x := [(10, BitVec.ofNat 64 id)], f := [], fcsr := 0, enclave := none, outside := none, len := 4, epc := 0, cause := 0,
    tval := 0, tvec := 0, mtimecmp := 0, mtip := false, msi := [], msiM := [] }

/-- Interrupt sources of the package: the two host ports, the management doorbell, the thermal status, and the mailboxes of the service
cores of each I/O die (R342; their numbers by log entry 14). -/
def sourceHost (p : Nat) : Nat := p
def sourceDoorbell : Nat := 2
def sourceThermal : Nat := 3
def sourceMailbox (io : Nat) : Nat := 4 + io

/-- A source's interrupt: an MSI of its data to its target, when system software has set them (R342). -/
def raiseSource (s : State) (k : Nat) : State :=
  match Tab.get? s.irq k with
  | some (target, data) => { s with pending := s.pending ++ [.deviceMsi target data] }
  | none => s

/-- mhartid of hart i of sill die d (R340). -/
def hartId (die i : Nat) : Nat := 32 * die + i

/-- A hart at an address, one more instruction retired, where those are counted (log entry 9). -/
def Hart.goto (h : Hart) (pc : DWord) : Hart :=
  let h := { h with pc := pc }
  if bit (h.csrOf 0x320) 2 then h else h.setCsr csrMinstret (h.csrOf csrMinstret + 1)

/-- A hart past the instruction at hand. -/
def Hart.step (h : Hart) : Hart := h.goto (h.pc + BitVec.ofNat 64 h.len)

/-- A hart leaves enclave mode at the ENC.ENTER, its outside registers back and the enclave's gone (R306, R399). -/
def Hart.leave (h : Hart) : Hart :=
  match h.outside with
  | some o => { h with pc := o.pc, mode := o.mode, x := o.x, f := o.f, fcsr := o.fcsr, enclave := none, outside := none }
  | none => h

/-- The 576 bytes of a save area with RESUME set (R399). -/
def Hart.saveArea (h : Hart) : List Byte :=
  toBytes 8 1 ++ toBytes 8 h.pc.toNat ++ (upFrom 1 31).flatMap (fun i => toBytes 8 (Tab.getD h.x i 0).toNat) ++
    (upFrom 0 32).flatMap (fun j => toBytes 8 (Tab.getD h.f j 0).toNat) ++ toBytes 8 h.fcsr.toNat ++ toBytes 48 0

/-- Bytes of an enclave's memory written by a hart or an I/O agent at `.sy`, as far as its pages allow; the checker records
it (R245, R250, R341). -/
def agentWriteVa (s : State) (u : UnitId) (enclave : Nat) : Nat → List Byte → State × Bool
  | _, [] => (s, true)
  | va, b :: bs =>
    match touch s noCore enclave .write va with
    | (s, .ok p) =>
      if p.device then (s, false)
      else
        let pa := p.at va
        let e : ScopeEntry := { line := lineOf pa, enclave := enclave, scope := .sy, unit := u, ticket := 0, placement := 0 }
        agentWriteVa (writeHome (track s (lineOf pa) e).2 0 pa [b]) u enclave (wrap 64 (va + 1 : Nat)) bs
    | (s, _) => (s, false)

/-- Bytes of an enclave's memory read by a hart; none where a page fails, is a decoded view or poisoned. -/
def agentReadVa (s : State) (enclave : Nat) : Nat → Nat → Option (List Byte)
  | _, 0 => some []
  | va, n + 1 => match translate s noCore enclave .read va with
    | .ok p =>
      if p.device || p.fmt != 0 || poisoned s (p.at va) then none
      else (agentReadVa s enclave (wrap 64 (va + 1 : Nat)) n).map fun r => Memory.read s.mem (p.at va) :: r
    | .fill _ => (agentReadVa s enclave (wrap 64 (va + 1 : Nat)) n).map fun r => 0 :: r
    | _ => none

/-- An exception or interrupt of a hart. Outside enclave mode it is a trap; in enclave mode an asynchronous exit: the save area is stored
with RESUME set, and the event is taken outside enclave mode at the ENC.ENTER (R306, R399). -/
def hartTrap (s : State) (n : Nat) (h : Hart) (e : Xcpt) : State :=
  match h.enclave, h.outside with
  | some id, some o =>
    let s := (agentWriteVa s (.sill n) id o.save.toNat h.saveArea).1
    setHart s n fun h => h.leave.trap e
  | _, _ => setHart s n fun h => h.trap e

/-- The same by cause and value. -/
def asyncExit (s : State) (n : Nat) (h : Hart) (cause tval : DWord) : State := hartTrap s n h (xcpt cause tval)

def execEnclaveAsyncExit (hart : Nat) (cause : DWord) (s : State) : Result :=
  match hartOf s hart with
  | none => .next s
  | some h => if h.enclave.isSome then .next (asyncExit s hart h cause 0) else .next s

/-- The hart that a step executes. -/
def curHart (s : State) : Option (Nat × Hart) :=
  match s.cur with
  | some (.hart n) => (hartOf s n).map fun h => (n, h)
  | _ => none

/-- An enclave instruction on the hart that executes it: its admission, then its effect (R295). Its word is the trap value
of the illegal-instruction exception. -/
def rootRun (i : Instr) (s : State) (allow : Hart → Bool) (body : Nat → Hart → State) : Result :=
  match curHart s with
  | none => .fault .noContext
  | some (n, h) =>
    if allow h then .next (body n h) else .next (asyncExit s n h causeIllegal (BitVec.ofNat 64 i.word0.toNat))

/-- HS or S mode outside enclave mode (R295). -/
def outsideMode (h : Hart) : Bool := h.enclave.isNone && (h.mode == .hs || h.mode == .s)

/-- A status written to rd, and the hart past the instruction (R296). -/
def answer (s : State) (n : Nat) (rd : BitVec 5) (v : Nat) : State :=
  setHart s n fun h => (h.setX rd (BitVec.ofNat 64 v)).step

/-- Physical bytes written to the homes, line by line. -/
def writePhys (s : State) (pa : Nat) (bs : List Byte) : State :=
  (upFrom 0 ((pa % 128 + bs.length + 127) / 128)).foldl (fun s i =>
    let a := if i = 0 then pa else (pa / 128 + i) * 128
    let off := a - pa
    writeHome s 0 a ((bs.drop off).take (128 - a % 128))) s

/-- The lines of a physical range recorded by the checker as a unit's write at `.sy` for enclave 0 (R244, R245). -/
def trackSy (s : State) (u : UnitId) (pa n : Nat) : State :=
  (upFrom (lineOf pa) ((pa % 128 + n + 127) / 128)).foldl (fun s line =>
    (track s line { line := line, enclave := 0, scope := .sy, unit := u, ticket := 0, placement := 0 }).2) s

/-- Whether a physical range lies in OWNER-0 memory that the root does not hold (R295, R341). -/
def deviceOwned (s : State) (pa n : Nat) : Bool :=
  pa + n ≤ Config.hbmBytes && (upFrom (frameOf pa) ((pa % 65536 + n + 65535) / 65536)).all fun f =>
    (Tab.getD s.pot f { owner := 0, slot := 0, type := 0, rstr := false }).owner == 0 && !s.root.held.contains f

end Sys2Proof.Machine
end

