-- ==== Sys2Proof/Machine/Pages.lean ====
section
/-! DEFINITION. Cache control, instruction fence, page allocation and the translation steps (R193, R215-R216, R219-R223,
R246, R388-R389, R425, R459-R460, R506-R507). -/

namespace Sys2Proof.Machine

/-! ### CCTL (R222, R389) -/

/-- Bytes of frames an action covers, as physical ranges (start, length). -/
abbrev Ranges := List (Nat × Nat)

/-- Lines of a range, whole. -/
def inLines (rs : Ranges) (addr n : Nat) : Bool :=
  rs.any fun (a, m) => m != 0 && addr < ((a + m - 1) / 128 + 1) * 128 && a / 128 * 128 < addr + n

/-- Addresses of the scale bytes of a view that some of its bytes use (R147, R389). -/
def scaleVas (p : Page) (off n : Nat) : List Nat :=
  let blk := 16 * 2 ^ bits p.fmt 4 3
  let j0 := off / 2 / blk
  let j1 := (off + n - 1) / 2 / blk
  if p.fmt = 0 || bits p.fmt 6 5 = 0 then [] else (upFrom j0 (j1 + 1 - j0)).map fun j => scaleVa p (j * blk)

/-- Ranges of a page that hold the bytes from an offset: the bytes themselves, or the raw elements and their scale bytes
(R389). -/
def pageRanges (s : State) (core enclave : Nat) (p : Page) (off n : Nat) : Ranges :=
  if p.device then []
  else if p.fmt = 0 then [(p.pa + off, n)]
  else
    let four := Ty.elemBits (viewTy p.fmt) = 4
    let lo := if four then off / 4 else off / 2
    let hi := if four then (off + n - 1) / 4 else (off + n - 1) / 2
    let scales : Ranges := (scaleVas p off n).filterMap fun va => match translate s core enclave .read va with
      | .ok q => if q.device then none else some (q.at va, 1)
      | _ => none
    (p.pa + lo, hi + 1 - lo) :: scales

/-- Bytes of a line of a store that a write-back misses, since the stores that write them have not been accepted: the threads of the
store's cores may have issued them before, yet each reaches its site before or after this write-back by a free choice (R210, R507; log
entry 2). -/
def lateMask (s : State) (cache line : Nat) : BitVec 128 :=
  (Tab.values s.threads).foldl (fun m v =>
    if v.control || cacheOf s (threadCore s v) != cache then m
    else v.late.foldl (fun m r => if lineOf r.1 = line && Config.choose (s.draws + r.1) then m ||| byteMask (r.1 % 128) r.2 else m) m) 0

/-- One page's action (R222). -/
def cctlAct (s : State) (op : CctlOp) (sc : Scope) (core bay : Nat) (rs : Ranges) : State :=
  let cache := cacheOf s core
  let acts := sc == .dv || sc == .sy || (sc == .cl && !fusedAt s core)
  let part (x : L1Line) : Bool := x.cache == cache && inLines rs (x.line * 128) 128
  match op with
  | .iinv => { s with icache := s.icache.filter fun c => !inLines rs (c.addr * 32) 32 }
  | .wb => if acts then
      writeBack { s with draws := s.draws + 1 } fun x => allOf (fun x => part x && (fusedAt s core || x.bay == bay)) x &&& ~~~lateMask s cache x.line
    else s
  | .inv => if acts then discard s part else s
  | .wbinv => if acts then flushL1 s part else s

/-- The pages of a range in ascending order; a failing one ends it with the lines before it acted on, and a demand-zero one is
filled first (R220, R222). -/
def cctlPages (op : CctlOp) (sc : Scope) (core bay part enclave : Nat) : Nat → Nat → Nat → State → State × Got Unit
  | 0, _, _, s => (s, .ok ())
  | fuel + 1, va, n, s =>
    if n = 0 then (s, .ok ())
    else match touchFor s part core enclave .read va with
      | (s, .ok p) =>
        let off := va - p.va
        let m := min n (p.size - off)
        let s := (scaleVas p off m).foldl (fun s va => fillTlb s part core enclave va) s
        cctlPages op sc core bay part enclave fuel (wrap 64 (va + m : Nat)) (n - m) (cctlAct s op sc core bay (pageRanges s core enclave p off m))
      | (s, .trap k) => (s, .trap k)
      | (s, .fill v) => (s, .fill v)
      | (s, .poison l) => (s, .poison l)

def execCctl (op : CctlOp) (sc : Scope) (x : Ext) (s : State) : Result :=
  let i := Instr.cctl op sc x
  run i s fun w v =>
    match readSrcs v (.reg 2 x.va) (.reg 1 x.vb) .no with
    | none => .stall
    | some (a, n, _, g, v') =>
      if sc = .cr then .done (complete i s w v { v' with pc := v.next i } g)
      else match cctlPages op sc (threadCore s v) (threadBay s v) (partOf s v) (threadEnclave s v) (n / 65536 + 2) a n s with
        | (s', .ok _) => .done (complete i s' w v { v' with pc := v.next i } g)
        | (s', .trap k) => .done (takeTrap s' w v k (trapHere i v))
        | (s', .fill _) => .done s'
        | (s', .poison l) => .done (integrityHalt s' (some v) l ((sideOf s' l).code == 0x29))

/-- IFENCE: the prefetched words are discarded (R223, R425). -/
def execIfence (x : Ext) (s : State) : Result :=
  run (.ifence x) s fun w v => .done (putView s w { v with fetched := [], pc := v.next (.ifence x) })

/-! ### PGALLOC and PGFREE (R221, R460) -/

/-- The line of the first poisoned entry that a walk from an enclave's root reads (R287). -/
def walkPoison (s : State) (enclave va : Nat) : Option Nat :=
  match enclaveOf s enclave with
  | none => none
  | some e => ((walk s.mem va tableLevels e.root).find? fun w => cacheable w.addr && poisoned s w.addr).map fun w => lineOf w.addr

/-- What PGALLOC does at a page: a status and the state after it. -/
def pgalloc (s : State) (enclave va : Nat) : Nat × State :=
  match enclaveOf s enclave with
  | none => (3, s)
  | some e => match (walk s.mem va tableLevels e.root).getLast? with
    | none => (3, s)
    | some w =>
      if w.valid then (2, s)
      else if w.level ≠ 0 then (3, s)
      else match e.stack with
        | [] => (1, s)
        | f :: rest => (0, mapFresh s enclave e va w.addr f rest)

/-- Whether a physical range meets a page. -/
def Page.meets (p : Page) (pa n : Nat) : Bool := p.pa < pa + n && pa < p.pa + p.size

/-- Whether a matrix operation uses a physical range through the translations it captured (R168). -/
def MatOp.uses (o : MatOp) (pa n : Nat) : Bool := o.pages.any fun p => p.meets pa n

/-- Whether an operation that has translated its addresses still uses a physical range: a matrix operation queued, streaming or
reloading its bank, a segment on its way, a queued tenon, a copy command that is not done, a hand's buffered store, or the second half of a
128-bit access (R168, R184, R216, R228, R428). -/
def rangeInUse (s : State) (pa n : Nat) : Bool :=
  let line (l : Nat) : Bool := l * 128 < pa + n && pa < l * 128 + 128
  (Tab.values s.quarters).any (fun q => (q.ops.any fun o => o.uses pa n) || q.active.any fun o => o.loaded.isNone && o.uses pa n) ||
    (s.segments.any fun g => line g.line || line g.desc) ||
    (s.tenons.any fun r => line (lineOf r.linePa) || line (lineOf r.slotPa)) ||
    ((Tab.values s.cmds).any fun k => k.frames.any fun f => f * 65536 < pa + n && pa < f * 65536 + 65536) ||
    (Tab.values s.threads).any fun v =>
      let used (c : HandCtx) : Bool := (c.buf.any fun b => !b.scratch && b.addr < pa + n && pa < b.addr + b.data.length) ||
        c.half.any fun h => h.page.meets pa n
      used v.hctx || v.raise.any fun r => r.hands.any fun h => used h.ctx

/-- Whether a frame is in use. -/
def frameInUse (s : State) (frame : Nat) : Bool := rangeInUse s (frame * 65536) 65536

/-- Every cached copy of a frame's lines discarded, dirty data included (R221). -/
def dropFrame (s : State) (frame : Nat) : State :=
  let s := setRetained s (s.retained.filter fun r => r.line / 512 != frame)
  { s with
    l1 := s.l1.filter fun x => x.line / 512 != frame
    icache := s.icache.filter fun c => frameOf (c.addr * 32) != frame
    l2 := s.l2.filter fun l => l.line / 512 != frame
    ms := s.ms.filter fun l => l.line / 512 != frame
    hbm := s.hbm.filter fun e => !(e.1 / 512 == frame) }

/-- Every cached copy of a frame's lines written back to HBM and removed (R304, R334). -/
def flushFrame (s : State) (frame : Nat) : State :=
  let s := flushL1 s fun x => x.line / 512 == frame
  dropFrame (msDrop (dropL2 s fun l => l.line / 512 == frame) fun l => l.line / 512 == frame) frame

/-- A frame that is no page of its enclave any more has no dirty map (R334). -/
def dropMap (s : State) (frame : Nat) : State := { s with dirtyMaps := s.dirtyMaps.filter fun d => d.frame != frame }

/-- A freed frame: its cached lines and checker entries go, its lines lose their poison, and it has no dirty map any more (R221,
R246, R287, R334). -/
def discardFrame (s : State) (frame : Nat) : State :=
  let s := dropMap (dropFrame s frame) frame
  { s with
    scopes := s.scopes.filter fun e => e.line / 512 != frame
    side := s.side.map fun e => if e.1 / 512 == frame then (e.1, { e.2 with poison := 0, flips := [], forged := false }) else e }

/-- A page unmapped, its translations and cached lines gone, its frame pushed (R221). -/
def freePage (s : State) (enclave va frame entryAddr : Nat) : State :=
  let s := pageChange (discardFrame (invalidateRange (writeEntry s entryAddr 0) enclave va 65536) frame) enclave va false
  let slot := ((enclaveOf s enclave).bind (·.slot)).getD 0
  setEnclave { s with pot := Tab.set s.pot frame { owner := enclave, slot := slot, type := 3, rstr := false } } enclave
    fun e => { e with stack := frame :: e.stack }

/-- What PGFREE does at a page; none while an operation still uses the translation. -/
def pgfree (s : State) (enclave va : Nat) : Option (Nat × State) :=
  match enclaveOf s enclave with
  | none => some (3, s)
  | some e => match (walk s.mem va tableLevels e.root).getLast? with
    | none => some (3, s)
    | some w =>
      if w.level ≠ 0 then some (if w.valid then 4 else 3, s)
      else if !w.valid then some (2, s)
      else
        let pa := leafFrame w.entry
        if bits w.entry 63 38 ≠ 0 || !frameOwned s enclave e.slot pa || (potOf s pa).rstr then some (4, s)
        else if Config.freeStack ≤ e.stack.length then some (1, s)
        else if frameInUse s (frameOf pa) then none
        else some (0, freePage s enclave va (frameOf pa) w.addr)

/-- The checks both share: alignment and the sign of the address (R221). -/
def pageArg (va : Nat) : Option Kept :=
  if va % 65536 ≠ 0 then some (kept .misalign va) else if !canonicalVa va then some (kept .pageProt va) else none

/-- PGALLOC and PGFREE: the shared checks, the halt that a poisoned table entry brings, and the lines of the walk filled under the
thread's partition (R221, R287, R331). -/
def onPage (s : State) (v : Thread) (va : Nat) (f : State → Eff) : Eff :=
  match pageArg va with
  | some k => .trap k
  | none => match walkPoison s (threadEnclave s v) va with
    | some l => .done (integrityHalt s (some v) l ((sideOf s l).code == 0x29))
    | none => f (fillTlb s (partOf s v) (threadCore s v) (threadEnclave s v) va)

def execPgalloc (x : Ext) (s : State) : Result :=
  run (.pgalloc x) s fun w v =>
    let va := regNum v x.va.toNat 2
    onPage s v va fun s =>
      let (r, s') := pgalloc s (threadEnclave s v) va
      .done (putView s' w { setRegs v x.vd.toNat 1 r with pc := v.next (.pgalloc x) })

def execPgfree (x : Ext) (s : State) : Result :=
  run (.pgfree x) s fun w v =>
    let va := regNum v x.va.toNat 2
    onPage s v va fun s => match pgfree s (threadEnclave s v) va with
      | none => .stall
      | some (r, s') => .done (putView s' w { setRegs v x.vd.toNat 1 r with pc := v.next (.pgfree x) })

/-! ### Translation steps -/

/-- The partition that a core's walk for an enclave is charged to: that of the column of a thread of the enclave on it (R327, R331). -/
def walkPart (s : State) (core enclave : Nat) : Nat :=
  match (Tab.values s.threads).find? fun v => threadCore s v == core && threadEnclave s v == enclave with
  | some v => partOf s v
  | none => 0

/-- A walk that fills a core's TLB (R215, R331). -/
def execTlbMissWalk (core enclave : Nat) (va : DWord) (s : State) : Result :=
  .next (fillTlb s (walkPart s core enclave) core enclave va.toNat)

/-- Whether an operation still uses a translation of an enclave's address: one it captured for the page, or a frame that some TLB
or the tables give it (R168, R216). -/
def translationInUse (s : State) (enclave va : Nat) : Bool :=
  let cached := ((s.tlb ++ s.tlb2).filter fun t => t.covers enclave va).map fun t => leafPage t.big t.entry.toNat va
  let walked := match translate s noCore enclave .read va with
    | .ok p => [p]
    | _ => []
  let captured := (s.quarters.flatMap fun (_, q) =>
    if (q.bound.bind (launchOfBent s)).any (·.enclave == enclave) then (q.active.toList ++ q.ops).flatMap (·.pages) else []).filter
      fun p => p.va ≤ va && va < p.va + p.size
  (cached ++ walked ++ captured).any fun p => rangeInUse s p.pa p.size

/-- An event that cannot complete yet: it is tried again at the next cycle. -/
def waitEvent (s : State) (i : Instr) : State := { s with waits := s.waits ++ [i] }

/-- An invalidation of the translations of one page (R216). It waits for the operations that use the page. -/
def execTlbInvalidate (enclave : Nat) (va : DWord) (s : State) : Result :=
  if translationInUse s enclave va.toNat then .next (waitEvent s (.tlbInvalidate enclave va))
  else .next (invalidateRange s enclave (va.toNat / 65536 * 65536) 65536)

/-- First touch of a demand-zero page (R220). -/
def execDemandZeroFill (enclave : Nat) (va : DWord) (s : State) : Result := .next (demandZero s enclave va.toNat)

end Sys2Proof.Machine
end

