-- ==== Sys2Proof/Machine/Tenon.lean ====
section
/-! DEFINITION. Tenons: invocation, the slice-op language, routines, execution at the home slice, faults (R252,
R256-R275, R510). -/

namespace Sys2Proof.Machine

/-! ### The slice-op language (R267-R270) -/

/-- Fields of a slice-op word (R267). -/
def sOp (w : Word) : Nat := bits w.toNat 31 27
def sD (w : Word) : Nat := bits w.toNat 26 21
def sA (w : Word) : Nat := bits w.toNat 20 15
def sB (w : Word) : Nat := bits w.toNat 14 9
def sImm (w : Word) : Nat := bits w.toNat 8 0

/-- Which of d, a, b and imm9 an op uses (R268); none for an invalid op code. -/
def sFields (op : Nat) : Option (Bool × Bool × Bool × Bool) :=
  if op = 4 || op = 13 then some (true, true, true, true)
  else if op ≤ 14 then some (true, true, true, false)
  else match op with
    | 15 => some (true, true, false, false)
    | 16 => some (false, true, true, false)
    | 17 => some (true, false, false, true)
    | 18 => some (true, true, false, true)
    | 31 => some (false, false, false, true)
    | _ => none

/-- Whether an op's immediate is admitted (R268, R269). -/
def sImmOk (op imm : Nat) : Bool :=
  match op with
  | 4 => imm < 2
  | 13 => bits imm 8 6 == 0 && bits imm 5 4 != 3 && bits imm 3 0 < 8 && (bits imm 3 0 < 6 || bits imm 5 4 == 2)
  | 31 => imm < 16 && bits imm 2 0 ≤ (if bit imm 3 then 3 else 4)
  | _ => true

/-- Whether an op word before or at the first END is valid (R271). -/
def sValid (w : Word) : Bool :=
  match sFields (sOp w) with
  | none => false
  | some (d, a, b, i) =>
    (if d then sD w < 48 && !(32 ≤ sD w && sD w < 40) else sD w == 0) && (if a then sA w < 48 else sA w == 0) &&
      (if b then sB w < 48 else sB w == 0) && (i || sImm w == 0) && sImmOk (sOp w) (sImm w)

/-- First invalid op of a routine, or 32 when no END was found; none when it is valid (R271, R274). -/
def firstBad : Nat → List Word → Option Nat
  | _, [] => some 32
  | i, w :: ws => if !sValid w then some i else if sOp w = 31 then none else firstBad (i + 1) ws

/-- What a routine runs on: the line's words, the arguments, the temporaries and the flags so far. -/
structure Shadow where
  w : List Word
  a : List Word
  x : List Word
  flags : Flags
  deriving DecidableEq, Repr

def Shadow.get (h : Shadow) (n : Nat) : Word :=
  if n < 32 then h.w.getD n 0 else if n < 40 then h.a.getD (n - 32) 0 else h.x.getD (n - 40) 0
def Shadow.set (h : Shadow) (n : Nat) (v : Word) : Shadow :=
  if n < 32 then { h with w := h.w.set n v } else if 40 ≤ n then { h with x := h.x.set (n - 40) v } else h

/-- Conditions by code (R113). -/
def condOf : Nat → Cond
  | 0 => .eq
  | 1 => .ne
  | 2 => .lt
  | 3 => .le
  | 4 => .gt
  | 5 => .ge
  | 6 => .un
  | _ => .ord

/-- Whether an op takes its operands as f32 (R268). -/
def sFloat (w : Word) : Bool := (10 ≤ sOp w && sOp w ≤ 12) || (sOp w == 13 && bits (sImm w) 5 4 == 2)

/-- Whether a float op meets a signalling NaN, which is a fault (R270). -/
def sFaults (w : Word) (h : Shadow) : Bool :=
  sFloat w && ((Fmt.f32.decode (h.get (sA w)).toNat).signalling || (Fmt.f32.decode (h.get (sB w)).toNat).signalling)

/-- One op (R268). A CMP.f32 of order, lt to ge, with a quiet NaN sets NV as FCMP does, which is the model's choice (R270, R409; log entry
62). -/
def sStep (w : Word) (h : Shadow) : Shadow :=
  let a := (h.get (sA w)).toNat
  let b := (h.get (sB w)).toNat
  let put (n : Nat) : Shadow := h.set (sD w) (BitVec.ofNat 32 n)
  let imm := sImm w
  match sOp w with
  | 0 => put (addOp false .z32 a b)
  | 1 => put (subOp false .z32 a b)
  | 2 => put (minOp .b32 a b)
  | 3 => put (minOp .z32 a b)
  | 4 => put (if bit imm 0 then maxOp .z32 a b else maxOp .b32 a b)
  | 5 => put (andOp a b)
  | 6 => put (orOp a b)
  | 7 => put (xorOp a b)
  | 8 => put (shlOp .z32 a b)
  | 9 => put (shrOp .z32 a b)
  | 10 =>
    let (r, f) := faddOp .f32 .dflt 0 a b
    { put r with flags := h.flags ||| f }
  | 11 => put (f32Pick false a b)
  | 12 => put (f32Pick true a b)
  | 13 =>
    let c := condOf (bits imm 3 0)
    if bits imm 5 4 = 2 then
      let (q, f) := fcmpOp c .f32 a b
      { put (if q then 2 ^ 32 - 1 else 0) with flags := h.flags ||| f }
    else
      let t : Ty := if bits imm 5 4 = 0 then .b32 else .z32
      put (if icond c (asInt t a) (asInt t b) then 2 ^ 32 - 1 else 0)
  | 14 =>
    let m := (h.get (sD w)).toNat
    put (orOp (andOp a m) (andnOp .z32 b m))
  | 15 => put (h.w.getD (a % 32) 0).toNat
  | 16 => { h with w := h.w.set (a % 32) (h.get (sB w)) }
  | 17 => put (wrap 32 (sext imm 9))
  | 18 => put (wrap 32 ((a : Int) + sext imm 9))
  | _ => h

/-- Words END returns: x0 upward, then the flag word (R269). -/
def endWords (imm : Nat) (h : Shadow) : List Word :=
  h.x.take (bits imm 2 0) ++ if bit imm 3 then [h.flags.zeroExtend 32] else []

/-- A routine run: the shadow and the returned words, or the op at which it faults. -/
def runOps : Nat → List Word → Shadow → Except Nat (Shadow × List Word)
  | i, [], _ => .error i
  | i, w :: ws, h =>
    if sOp w = 31 then .ok (h, endWords (sImm w) h)
    else if sFaults w h then .error i
    else runOps (i + 1) ws (sStep w h)

/-! ### Contexts and the routine cache (R271, R272) -/

/-- Generation of a context. -/
def genOf (s : State) (enclave : Nat) (ctxt : DWord) : Word :=
  match s.contexts.find? fun c => c.enclave == enclave && c.ctxt == ctxt with
  | some c => c.gen
  | none => 0

/-- CTXT of a thread's launch. -/
def ctxtOf (s : State) (v : Thread) : DWord := ((headerOf s v).map (·.ctxt)).getD 0

def execTnsync (x : Ext) (s : State) : Result :=
  run (.tnsync x) s fun w v =>
    if loadsOut v then .stall else
    let s := releaseAt s v.control (threadCore s v) .dv
    let (s, v') := phaseIf true s v
    let enclave := threadEnclave s v
    let c : Context := { enclave := enclave, ctxt := ctxtOf s v, gen := genOf s enclave (ctxtOf s v) + 1 }
    let s := { s with
      contexts := c :: s.contexts.filter fun d => !(d.enclave == enclave && d.ctxt == c.ctxt)
      routines := s.routines.filter fun r => r.enclave != enclave }
    .done (putView s w { v'.released true with pc := v.next (.tnsync x) })

/-- A routine loaded into a slice's cache of 16, newest first, by an ordinary read of its slot's line at its home (R271). A slot in
a decoded view is read as its frame's own bytes, which is the model's choice (R149; log entry 62). -/
def loadRoutine (s : State) (q : TenonReq) : Routine × State :=
  let s := touchL2 s q.part (lineOf q.slotPa) false
  let ws := wordsOfBytes (Memory.bytes s.mem q.slotPa 128)
  let r : Routine := { slice := q.slice, enclave := q.enclave, slotPa := q.slotPa, gen := q.gen, ops := ws, bad := firstBad 0 ws }
  (r, { s with routines := (r :: s.routines.filter (·.slice == q.slice)).take Config.routineCache ++
      s.routines.filter (·.slice != q.slice) })

/-- The routine of a request: cached, or read from its home and validated. -/
def routineOf (s : State) (q : TenonReq) : Routine × State :=
  match s.routines.find? fun r => r.slice == q.slice && r.enclave == q.enclave && r.slotPa == q.slotPa && r.gen == q.gen with
  | some r => (r, { s with routines := r :: s.routines.erase r })
  | none => loadRoutine s q

/-! ### TNX at its thread (R256-R260) -/

/-- Scopes of a tenon: those below `.dv` act and are recorded as `.dv` (R260). -/
def tenonScope : Scope → Scope
  | .sy => .sy
  | _ => .dv

/-- Pages of a tenon's line and slot (R258). A slot address on the kick page raises nothing here: the request ends at the slice, where its
frame fails, which is the model's choice (R509; log entry 62). -/
def tenonPages (s : State) (v : Thread) (line slot : Nat) : Got (Page × Page) :=
  let core := threadCore s v
  let enclave := threadEnclave s v
  if line % 128 ≠ 0 then .trap (kept .misalign line)
  else (translate s core enclave .write line).bind fun p =>
    if p.device then .trap (kept .pageProt line)
    else if ctxtOf s v = 0 then .trap (kept .pageProt slot)
    else (translate s core enclave .read slot).map fun q => (p, q)

/-- TNX (R256-R260): its checks, its release, and its request on its way. That the issuing core's dirty bytes of the line go home at
issue for a posted one that does not release, too, is the model's choice (R225, R252; log entry 61). -/
def execTnx (o : Ord) (sc : Scope) (sync post : Bool) (slot : BitVec 6) (args : BitVec 4) (x : Ext) (s : State) : Result :=
  let i := Instr.tnx o sc sync post slot args x
  run i s fun w v =>
    if v.tnx.isSome then .stall
    else
      let line := regNum v x.va.toNat 2
      let slotVa := wrap 64 ((ctxtOf s v).toNat + 128 * slot.toNat : Nat)
      onGot s v (fun s => tenonPages s v line slotVa) fun s (p, q) =>
        let core := threadCore s v
        let enclave := threadEnclave s v
        if (post && v.tl == 15) || (Ord.releases o && loadsOut v) then .stall
        else
          let s := fillTlb (fillTlb s (partOf s v) core enclave line) (partOf s v) core enclave slotVa
          let s := if Ord.releases o then releaseAt s v.control core (tenonScope sc) else s
          let s := flushOwn s core (p.at line) 128
          let (s, v') := phaseIf (Ord.releases o) s (v.released (Ord.releases o))
          let req : TenonReq := {
            slice := homeSlice (p.at line), thread := Who.threadNo w, lineVa := BitVec.ofNat 64 line, linePa := p.at line,
            slotVa := BitVec.ofNat 64 slotVa, slotPa := q.at slotVa, slot := slot.toNat,
            args := (upFrom 0 args.toNat).map (fun k => regVal v (x.vb.toNat + k)), enclave := enclave, ticket := v.bent,
            ctxt := ctxtOf s v, gen := genOf s enclave (ctxtOf s v), post := post, sync := sync, sc := tenonScope sc,
            part := partOf s v, core := core, unit := unitOf s v, placement := (scopeEntryOf s v 0 sc).placement,
            seq := s.cmdSeq, issued := s.time, bundle := s.issue.length, queued := false }
          let s := { s with tenons := s.tenons ++ [req], cmdSeq := s.cmdSeq + 1 }
          .done (putView s w (if post then { v' with tl := v'.tl + 1, pc := v.next i } else { v' with tnx := some i }))

/-! ### Execution at the home slice (R261-R266, R274) -/

/-- A tenon's end: an answer to its thread, or its bent halted by a poisoned line. -/
inductive TenonEnd where
  | answer (s : State) (words : List Word)
  | fault (s : State) (k : Kept) (paddr : Nat)
  | poison (s : State) (line : Nat)

/-- Whether the checker refuses a tracked tenon, as an operation of the unit, bent and placement that issued it (R244, R245). -/
def tenonTrack (s : State) (q : TenonReq) : Bool × State :=
  if q.sync then track s (lineOf q.linePa) { line := lineOf q.linePa, enclave := q.enclave, scope := q.sc, unit := q.unit, ticket := q.ticket, placement := q.placement }
  else (false, s)

/-- The shadow written back as one write of the line (R266), after which the issuing core's copies of it go (R191); an unchanged line
wakes no one. A line that no longer fits half a way moves to a whole one as the L2 takes the write (R265). -/
def tenonWrite (s : State) (q : TenonReq) (old new : List Word) : State :=
  if old = new then clearCount (touchL2 s q.part (lineOf q.linePa) true) (lineOf q.linePa)
  else removeStale (writeHome s q.part q.linePa (new.flatMap fun w => toBytes 4 w.toNat)) q.core q.linePa 128

/-- Steps 1 to 7 of R261. PADDR of a routine without an END is the slot's physical address and 128, as its `tinfo` counts, which is the
model's choice (R510; log entry 61). -/
def tenonRun (s : State) (q : TenonReq) : TenonEnd :=
  let info (k n : Nat) : Nat := q.lineVa.toNat + k * 32 + n
  let pinfo (k n : Nat) : Nat := q.linePa + k * 32 + n
  let slotPot := potOf s q.slotPa
  if !(cacheable q.slotPa && slotPot.owner == q.enclave && slotPot.type == 1) then .fault s (kept .tenonFault (info 3 0)) (pinfo 3 0)
  else if poisoned s q.slotPa then .poison s (lineOf q.slotPa)
  else
    let (r, s) := routineOf s q
    match r.bad with
    | some i => .fault s (kept .tenonInvalid (q.slotVa.toNat + 4 * i)) (q.slotPa + 4 * i)
    | none =>
      let s := touchL2 s q.part (lineOf q.linePa) false
      if !frameOwned s q.enclave ((enclaveOf s q.enclave).bind (·.slot)) q.linePa then .fault s (kept .tenonFault (info 2 0)) (pinfo 2 0)
      else if poisoned s q.linePa then .poison s (lineOf q.linePa)
      else match tenonTrack s q with
        | (true, s) => .fault s (kept .scopeMismatch q.lineVa.toNat) q.linePa
        | (false, s) =>
          let ws := wordsOfBytes (Memory.bytes s.mem q.linePa 128)
          match runOps 0 r.ops { w := ws, a := q.args, x := (upFrom 0 8).map fun _ => 0, flags := 0 } with
          | .error i => .fault s (kept .tenonFault (info 1 i)) (pinfo 1 i)
          | .ok (h, words) => .answer (tenonWrite s q ws h.w) words

/-- A posted tenon's fault in the slice fault log (R275, R510). -/
def logFault (s : State) (q : TenonReq) (k : Kept) (paddr : Nat) : State :=
  let r := sliceOf s q.slice
  let n := r.logN + 1
  let e : FaultRec := { paddr := paddr, code := k.code.num, enclave := q.enclave, ticket := q.ticket, slot := q.slot, seq := n % 2 ^ 32 }
  { s with sliceRegs := Tab.set s.sliceRegs q.slice { r with log := Tab.set r.log (n % 64) e, logN := n } }

/-- One request served. -/
def tenonServe (s : State) (q : TenonReq) : State :=
  let ans (s : State) (ws : List Word) (k : Option Kept) : State :=
    { s with answers := s.answers ++ [{ thread := q.thread, post := q.post, words := ws, fault := k, seq := q.seq }] }
  match tenonRun s q with
  | .answer s ws => ans s ws none
  | .fault s k p => ans (if q.post then logFault s q k p else s) [] (some k)
  | .poison s l => match threadOf s q.thread with
    | some v => integrityHalt s (some v) l ((sideOf s l).code == 0x29)
    | none => s

/-- Whether two requests come from one issue of one bundle and name one line: those, at most 64, reach their home together, in
ascending `wid` order (R80, R259). -/
def TenonReq.together (a b : TenonReq) : Bool := a.linePa == b.linePa && a.issued == b.issued && a.bundle == b.bundle && a.core == b.core

/-- Whether a request has waited so long that it is served before any other: every one is served in finite time (R264). -/
def TenonReq.overdue (s : State) (q : TenonReq) : Bool := q.issued + Config.patience ≤ s.time

/-- The request on its way to a slice that arrives next: an overdue one, or by a free choice the oldest of some thread. -/
def arriving (s : State) (slice : Nat) : Option TenonReq :=
  let way := s.tenons.filter fun q => q.slice == slice && !q.queued
  match way.find? (TenonReq.overdue s) with
  | some q => some q
  | none =>
    let ts := (way.map (·.thread)).eraseDups
    (ts[Config.pick s.draws % ts.length]?).bind fun t => way.find? (·.thread == t)

/-- A request arrives at its slice with those that go together with it; while the queue of 64 has no room for them it refuses them,
and their senders send them again (R259, R264). -/
def tenonArrive (s : State) (slice : Nat) : State :=
  match arriving s slice with
  | none => s
  | some q =>
    let s := { s with draws := s.draws + 1 }
    let group := s.tenons.filter fun r => !r.queued && q.together r
    let queue := s.tenons.filter fun r => r.queued && r.slice == slice
    if Config.tenonQueue < queue.length + group.length then s
    else { s with tenons := s.tenons.filter (fun r => !group.contains r) ++ group.map fun r => { r with queued := true } }

/-- The requests at the head of a slice's queue that it runs one after another (R259). -/
def lineRun : List TenonReq → List TenonReq
  | [] => []
  | q :: qs => q :: qs.filter q.together

/-- A slice takes in a request, and serves those for one line at its queue's head, one after another (R259, R261, R263, R264). -/
def execTenonExecute (slice : Nat) (s : State) : Result :=
  let s := tenonArrive s slice
  let mine := lineRun (s.tenons.filter fun q => q.slice == slice && q.queued)
  .next (mine.foldl tenonServe { s with tenons := s.tenons.filter fun q => !mine.contains q })

/-- An answer reaches its thread: a returning TNX completes or traps precisely; a posted one lowers tl and leaves its fault
with the thread (R259, R269, R274, R275). -/
def tenonAnswer (s : State) (t : Nat) (v : Thread) (a : TenonAns) : State :=
  if a.post then
    let v := { v with tl := v.tl - 1 }
    setThread s t (match a.fault with
      | some k => if v.kept.isNone || a.seq < v.keptSeq then { v with kept := some k, keptSeq := a.seq } else v
      | none => v)
  else match v.tnx with
    | some (.tnx o sc sync post slot args x) =>
      let i := Instr.tnx o sc sync post slot args x
      let v := { v with tnx := none }
      match a.fault with
      | some k => takeTrap s (.thread t) v k { trapHere i v with ownOnly := true }
      | none =>
        let s := if Ord.acquires o then acquireAt s v.control (threadCore s v) (tenonScope sc) else s
        let (s, v') := phaseIf (Ord.acquires o) s v
        let v' := if x.vd = 1023 then v' else ((upFrom x.vd.toNat a.words.length).zip a.words).foldl (fun v (n, y) => setReg v n y) v'
        setThread s t { v' with pc := v.next i }
    | _ => s

def execTenonDone (t : Nat) (s : State) : Result :=
  match s.answers.find? (·.thread == t) with
  | none => .next s
  | some a =>
    let s := { s with answers := s.answers.erase a }
    match threadOf s t with
    | some v => .next (tenonAnswer s t v a)
    | none => .next s

end Sys2Proof.Machine
end

