-- ==== Sys2Proof/Machine/Root.lean ====
section
/-! DEFINITION. The Thoxiby root's enclave instructions: creation and measurement, pages, key slots, sealing, entry and
destruction (R294-R313, R326, R397-R400). -/

namespace Sys2Proof.Machine

/-! ### Slots, ids and ways (R299, R301, R302, R308) -/

/-- Key slots that hold a resident enclave's key. -/
def busySlots (s : State) : List Nat := (Tab.values s.enclaves).filterMap (·.slot)

/-- The lowest slot in 1 to 1023 that holds no resident key (R299). -/
def freeSlotKey (s : State) : Option Nat := (upFrom 1 1023).find? fun k => !(busySlots s).contains k

/-- The lowest free enclave id (R299). -/
def freeId (s : State) : Option Nat := (upFrom 1 65535).find? fun i => (enclaveOf s i).isNone

/-- A new key for a slot (R301). -/
def bindKey (s : State) (slot : Nat) : State :=
  { s with root := { s.root with keys := Tab.set s.root.keys slot (Config.randomKey s.root.drawn), drawn := s.root.drawn + 1 } }

/-- The ways a new enclave's protected ways take: the highest free, at most 8 in all (R308). -/
def takeWays (s : State) (n : Nat) : Option (List Nat) :=
  let taken := (Tab.values s.enclaves).flatMap (·.pways)
  if 8 < taken.length + n then none
  else some (((upFrom 0 16).reverse.filter fun w => !taken.contains w).take n)

/-- KIND 0x08: slot, and 0 bind, 1 release, 2 transfer (R317). -/
def logSlot (s : State) (enclave slot what : Nat) : State := logAppend s 0x08 enclave 0 (bodyWords [slot, what])

/-- Frames the page ownership table gives an enclave. -/
def ownedFrames (s : State) (enclave : Nat) : List Nat := (s.pot.filter fun (_, p) => p.owner == enclave).map (·.1)

/-- An enclave with no frame of TYPE 01, 10 or 11 left: its keys are wrapped and its slot is freed (R302). -/
def releaseSlot (s : State) (enclave : Nat) : State :=
  match enclaveOf s enclave with
  | none => s
  | some e => match e.slot with
    | none => s
    | some k =>
      if (Tab.values s.pot).any fun p => p.owner == enclave && p.type != 0 then s
      else
        let s := setEnclave s enclave fun e => { e with slot := none, wrapped := some (Tab.getD s.root.keys k 0) }
        logSlot { s with root := { s.root with keys := Tab.erase s.root.keys k } } enclave k 1

/-- A slot bound again for an enclave whose keys are wrapped (R302); none when no slot is free. -/
def rebind (s : State) (enclave : Nat) (e : Enclave) : Option (Nat × State) :=
  match e.slot with
  | some k => some (k, s)
  | none => (freeSlotKey s).map fun k =>
    let s := { s with root := { s.root with keys := Tab.set s.root.keys k (e.wrapped.getD 0) } }
    (k, logSlot (setEnclave s enclave fun e => { e with slot := some k, wrapped := none }) enclave k 0)

/-! ### Tables (R212, R213, R298) -/

/-- A leaf found in a table: mapped address, frame address, W, X, format attribute, 2 MiB. -/
structure Leaf where
  va : Nat
  pa : Nat
  w : Bool
  x : Bool
  fmt : Nat
  big : Bool
  deriving DecidableEq, Repr

/-- What a scan of tables finds: tables, leaves, and whether every valid entry was well formed. -/
structure Scan where
  tables : List Nat
  leaves : List Leaf
  ok : Bool
  deriving DecidableEq, Repr

/-- An address with bits 63:57 equal to bit 56. -/
def canonical (va : Nat) : Nat := if bit va 56 then va % 2 ^ 57 + 127 * 2 ^ 57 else va % 2 ^ 57

/-- Places of a table at which some byte is listed: every other entry reads zero, which is no entry. -/
def listedEntries (mem : Memory) (table n : Nat) : List Nat := ((Memory.range mem table (8 * n)).map (·.1 / 8)).eraseDups

/-- Tables and leaves below a table: the levels still to go, from the table's own down (R212, R213). -/
def scanTable (mem : Memory) : List (Nat × Nat × Nat) → Nat → Nat → Scan
  | [], _, _ => { tables := [], leaves := [], ok := true }
  | (l, hi, lo) :: ls, table, base =>
    (listedEntries mem table (2 ^ (hi + 1 - lo))).foldl (fun sc i =>
      let addr := table + 8 * i
      let e := if cacheable addr then Memory.num mem addr 8 else 0
      let va := base + i * 2 ^ lo
      let w : WalkStep := { level := l, addr := addr, entry := e }
      if !w.valid then sc
      else if w.isLeaf then
        { sc with
          leaves := { va := canonical va, pa := leafFrame e, w := bit e 2, x := bit e 3, fmt := bits e 63 38, big := l == 1 } :: sc.leaves
          ok := sc.ok && !w.malformed }
      else
        let below := scanTable mem ls (nextTable e) va
        { tables := nextTable e :: below.tables ++ sc.tables, leaves := below.leaves ++ sc.leaves, ok := sc.ok && !w.malformed && below.ok })
      { tables := [], leaves := [], ok := true }

/-- Everything reached from an enclave's root table. -/
def scanRoot (mem : Memory) (root : Nat) : Scan :=
  let sc := scanTable mem tableLevels root 0
  { sc with tables := root :: sc.tables }

/-- The 64 KiB pieces of a leaf: address and frame address. -/
def Leaf.pieces (l : Leaf) : List (Nat × Nat) :=
  (upFrom 0 (if l.big then 32 else 1)).map fun i => (l.va + 65536 * i, l.pa + 65536 * i)

/-- Whether a walk from an enclave's root meets an uncorrectable line of its tables (R287, R296). -/
def walkBad (s : State) (root va : Nat) : Bool := (walk s.mem va tableLevels root).any fun w => cacheable w.addr && poisoned s w.addr

/-- The level-0 entry of a canonical address, when tables that can be read lead to one: its address and contents. -/
def level0 (s : State) (root va : Nat) : Option (Nat × Nat) :=
  match (walk s.mem va tableLevels root).getLast? with
  | some w => if w.level = 0 && cacheable w.addr && canonicalVa va && !walkBad s root va then some (w.addr, w.entry) else none
  | none => none

/-- Whether a physical range holds an uncorrectable line (R296). -/
def lineBad (s : State) (pa n : Nat) : Bool := n != 0 && (upFrom (lineOf pa) (lineOf (pa + n - 1) + 1 - lineOf pa)).any fun l => poisoned s (l * 128)

/-! ### ENC.CREATE (R297-R300) -/

/-- An entry of the page list (R298). -/
structure PageEntry where
  frame : Nat
  va : Nat
  table : Bool
  w : Bool
  x : Bool
  deriving DecidableEq, Repr

/-- A page-list entry; none where it breaks R298's form. A frame beyond HBM is no frame of the kind required, which the list's own checks
say. -/
def readPageEntry (s : State) (a : Nat) : Option PageEntry :=
  let d0 := Memory.num s.mem a 8
  let d1 := Memory.num s.mem (a + 8) 8
  if d0 % 65536 != 0 || bit d1 3 || bits d1 15 4 != 0 || (bit d1 2 && d1 / 65536 != 0) then none
  else some { frame := d0 / 65536, va := d1 / 65536 * 65536, table := bit d1 2, w := bit d1 1, x := bit d1 0 }

/-- Consecutive entries of a page list. -/
def readPageList (s : State) (a : Nat) : Nat → Option (List PageEntry)
  | 0 => some []
  | n + 1 => (readPageEntry s a).bind fun e => (readPageList s (a + 16) n).map fun r => e :: r

/-- A creation descriptor (R297). -/
structure CreateDesc where
  pways : Nat
  debug : Bool
  partmask : BitVec 256
  root : Nat
  list : Nat
  count : Nat
  kickVa : Nat
  attr : List Byte
  deriving DecidableEq, Repr

/-- The creation descriptor at a physical address; none where BAD_DESC is due for it (R295, R297). -/
def readCreate (s : State) (a : Nat) : Option CreateDesc :=
  if a % 128 != 0 || !deviceOwned s a 128 then none
  else
    let q (off : Nat) : Nat := Memory.num s.mem (a + off) 8
    let d0 := q 0
    let kick := q 0x40
    let rsv := d0 / 16 != 0 || 4 < bits d0 3 1 || bits (q 0x28) 14 0 != 0 || bits (q 0x28) 63 48 != 0 || bits (q 0x30) 3 0 != 0 ||
      bits (q 0x30) 63 48 != 0 || bits (q 0x38) 63 32 != 0 || bits kick 15 0 != 0 || !canonicalVa kick ||
      (upFrom 0 7).any fun i => q (0x48 + 8 * i) != 0
    let count := bits (q 0x38) 31 0
    if rsv || count = 0 || 65536 < count || !deviceOwned s (q 0x30) (16 * count) then none
    else some { pways := bits d0 3 1, debug := bit d0 0, partmask := BitVec.ofNat 256 (Memory.num s.mem (a + 8) 32), root := q 0x28,
                list := q 0x30, count := count, kickVa := kick, attr := Memory.bytes s.mem a 8 }

/-- Whether the frames and tables of a list agree with one another (R298). -/
def listOk (s : State) (d : CreateDesc) (ps : List PageEntry) : Bool :=
  let sc := scanRoot s.mem d.root
  let tables := (ps.filter (·.table)).map (·.frame)
  let data := ps.filter fun p => !p.table
  let pieces := sc.leaves.flatMap fun l => l.pieces.map fun (va, pa) => (l, va, pa)
  (ps.map (·.frame)).eraseDups.length == ps.length &&
    ps.all (fun p => p.frame < Config.frames && (Tab.getD s.pot p.frame { owner := 0, slot := 0, type := 0, rstr := false }) == { owner := 0, slot := 0, type := 0, rstr := false } &&
      !s.root.held.contains p.frame) &&
    sc.ok && sc.tables.all (fun t => tables.contains (frameOf t)) && tables.all (fun f => sc.tables.any fun t => frameOf t == f) &&
    pieces.all (fun (l, va, pa) => l.fmt == 0 && data.any fun p => p.frame == frameOf pa && p.va == va && p.w == l.w && p.x == l.x) &&
    data.all (fun p => pieces.any fun (_, va, pa) => p.frame == frameOf pa && p.va == va) &&
    match level0 s d.root d.kickVa with
    | some (a, e) => tables.contains (frameOf a) && !bit e 0 && !bit e 5
    | none => false

/-- Rows of a hash tree, bottom up, until one node is left (R300). -/
def hashUp : Nat → List (BitVec 256) → BitVec 256
  | 0, l => l.headD 0
  | n + 1, l => if l.length ≤ 1 then l.headD 0 else hashUp n (pairUp l)
where
  pairUp : List (BitVec 256) → List (BitVec 256)
    | a :: b :: r => Config.sm3 (digestBytes a ++ digestBytes b) :: pairUp r
    | [a] => [Config.sm3 (digestBytes a ++ digestBytes 0)]
    | [] => []

/-- A row padded with zero leaves to the next power of two. -/
def padRow (l : List (BitVec 256)) : List (BitVec 256) :=
  let n := 2 ^ (Nat.log2 (2 * l.length - 1))
  l ++ (upFrom 0 (n - l.length)).map fun _ => 0

/-- IMGROOT (R300). -/
def imageRoot (s : State) (d : CreateDesc) (ps : List PageEntry) : BitVec 256 :=
  let attr := Config.sm3 (d.attr ++ toBytes 32 d.partmask.toNat)
  let page (p : PageEntry) : BitVec 256 :=
    Config.sm3 (toBytes 8 (bits p.va 56 16) ++ toBytes 8 (2 * ofBool p.w + ofBool p.x) ++
      digestBytes (Config.sm3 (Memory.bytes s.mem (p.frame * 65536) 65536)))
  let row := attr :: (sortBy (fun p : PageEntry => p.va % 2 ^ 57) (ps.filter fun p => !p.table)).map page
  hashUp 20 (padRow row)

/-- A kick page's leaf: W = 1, X = 0, FMT = 0 (R67). -/
def kickLeaf (id : Nat) : Nat := kickPage id / 65536 * 64 + 7

/-- Partitions named by a mask. -/
def partsOf (m : BitVec 256) : List Nat := (upFrom 0 256).filter fun p => m.getLsbD p

/-- A new enclave's record. -/
def newEnclave (d : CreateDesc) (ways : List Nat) (img : BitVec 256) (slot : Nat) : Enclave :=
  { kickVa := d.kickVa, root := d.root, partmask := d.partmask, debug := d.debug, pways := ways, imgroot := img, slot := some slot,
    wrapped := none, stack := [], kq := [], eq := ErrQueue.reset, svcfg := 0, saveCounter := 0, blobs := [], cap := none,
    mig := { dirty := 0, round := 0, busy := false, final := false, en := false, stage := 0, cursor := 0, out := none, changes := [] }, awaiting := [],
    awaitAll := false, ckpt := none }

/-- ENC.CREATE performed: the status of a failure, or the id and the state after it (R299). -/
def create (s : State) (a : Nat) : Except Nat (Nat × State) :=
  match readCreate s a with
  | none => .error 2
  | some d =>
    if (Tab.values s.enclaves).any fun e => (partsOf (e.partmask &&& d.partmask)) != [] then .error 2
    else match readPageList s d.list d.count with
      | none => .error 2
      | some ps =>
        if !listOk s d ps then .error 3
        else match freeId s, takeWays s d.pways with
          | some id, some ways => match freeSlotKey s with
            | none => .error 1
            | some k =>
              if lineBad s a 128 || lineBad s d.list (16 * d.count) || ps.any (fun p => lineBad s (p.frame * 65536) 65536) then .error 3
              else
                let img := imageRoot s d ps
                let s := bindKey s k
                let s := ps.foldl (fun s p => { s with pot := Tab.set s.pot p.frame { owner := id, slot := k, type := if p.table then 2 else 1, rstr := false } }) s
                let s := match level0 s d.root d.kickVa with
                  | some (e, _) => writeEntry s e (kickLeaf id)
                  | none => s
                let s := { s with enclaves := Tab.set s.enclaves id (newEnclave d ways img k) }
                let s := if d.debug then s
                  else { s with pcfg := s.pcfg.map fun (p, n, dbg) => (p, n, dbg && !d.partmask.getLsbD p) }
                let s := logSlot s id k 0
                .ok (id, logAppend s 0x01 id 3 (digestBytes img ++ bodyWords [ofBool d.debug, d.pways, k]))
          | _, _ => .error 5

def execEncCreate (rd rs1 : BitVec 5) (s : State) : Result :=
  rootRun (.encCreate rd rs1) s outsideMode fun n h =>
    match create s (h.getX rs1).toNat with
    | .ok (id, s) => answer s n rd id
    | .error st => answer s n rd (2 ^ 63 + st)

/-! ### ENC.ADDPG (R303, R305) -/

/-- Entries a frame adds to the page-version table; the spec gives no number (log entry 15). -/
def versionsPerFrame : Nat := 4096

/-- Whether a frame is unassigned and free for an enclave (R303). -/
def frameFree (s : State) (f : Nat) : Bool :=
  let p := Tab.getD s.pot f { owner := 0, slot := 0, type := 0, rstr := false }
  f < Config.frames && p.owner == 0 && p.type == 0 && !s.root.held.contains f

/-- The header of a page record: its fields in order, one 64-bit word each; the spec gives no offsets (log entry 16). -/
def recordHeader (enclave va : Nat) (w x : Bool) (counter : Nat) : List Byte :=
  fitBytes 64 (bodyWords [enclave, va, 2 * ofBool w + ofBool x, counter])

/-- Nonce of a page record: the counter and bits 47:16 of the address (R304). -/
def pageNonce (counter va : Nat) : Nat := counter * 2 ^ 32 + bits va 47 16

/-- A sealed page record restored into a frame (R305). -/
def restorePage (s : State) (enclave slot : Nat) (e : Enclave) (frame src : Nat) : Except Nat State :=
  let hdr := Memory.bytes s.mem src 64
  let num (i : Nat) : Nat := ofBytes ((hdr.drop (8 * i)).take 8)
  let va := num 1
  let tag : BitVec 128 := BitVec.ofNat 128 (Memory.num s.mem (src + 64 + 65536) 16)
  if lineBad s src 65664 then .error 3
  else match Config.gcmOpen (enclaveKey s e) (pageNonce (num 3) va) hdr (Memory.bytes s.mem (src + 64) 65536) tag with
  | none => .error 6
  | some page =>
    if num 0 != enclave || !s.root.versions.contains (enclave, va, num 3) then .error 6
    else match level0 s e.root va with
      | none => .error 3
      | some (addr, old) =>
        if bit old 0 then .error 3
        else
          let s := putFrame s frame page
          let s := { s with
            pot := Tab.set s.pot frame { owner := enclave, slot := slot, type := 1, rstr := false }
            root := { s.root with versions := s.root.versions.erase (enclave, va, num 3) } }
          .ok (trackPage (writeEntry s addr (frame * 64 + 3 + 4 * ofBool (bit (num 2) 1) + 8 * ofBool (bit (num 2) 0))) enclave (bits va 63 16 * 65536) frame)

/-- A frame added as a table where the walk of an address meets its first missing entry (R303); an uncorrectable line of the tables on the
way is BAD_FRAME (R296). -/
def addTable (s : State) (enclave slot : Nat) (e : Enclave) (frame va : Nat) : Except Nat State :=
  match (walk s.mem va tableLevels e.root).getLast? with
  | some w =>
    if walkBad s e.root va then .error 3
    else if w.valid || w.level = 0 then .error 2
    else
      let s := { zeroFrame s frame with pot := Tab.set s.pot frame { owner := enclave, slot := slot, type := 2, rstr := false } }
      .ok (writeEntry s w.addr (frame * 65536 / 256 * 64 + 1))
  | none => .error 3

/-- ENC.ADDPG performed: the status of a failure or the state after it (R303). -/
def addPage (s : State) (id a : Nat) : Except Nat State :=
  match enclaveOf s id with
  | none => .error 4
  | some e =>
    let q (i : Nat) : Nat := Memory.num s.mem (a + 8 * i) 8
    if a % 32 != 0 || !deviceOwned s a 32 || q 0 / 4 != 0 || q 1 % 65536 != 0 then .error 2
    else if lineBad s a 32 then .error 3
    else
      let frame := q 1 / 65536
      if !frameFree s frame then .error 3
      else if q 0 = 3 then
        .ok { s with root := { s.root with held := frame :: s.root.held } }
      else match rebind s id e with
        | none => .error 1
        | some (slot, s') => match q 0 with
          | 0 =>
            if Config.freeStack ≤ e.stack.length then .error 5
            else .ok { setEnclave s' id (fun e => { e with stack := frame :: e.stack }) with
                pot := Tab.set s.pot frame { owner := id, slot := slot, type := 3, rstr := false } }
          | 1 => addTable s' id slot e frame (q 2)
          | _ =>
            if q 3 % 128 != 0 || !deviceOwned s (q 3) 65664 then .error 2
            else restorePage s' id slot e frame (q 3)

def execEncAddpg (rd rs1 rs2 : BitVec 5) (s : State) : Result :=
  rootRun (.encAddpg rd rs1 rs2) s outsideMode fun n h =>
    match addPage s (h.getX rs1).toNat (h.getX rs2).toNat with
    | .ok s => answer s n rd 0
    | .error st => answer s n rd st

/-! ### ENC.SEAL (R304) -/

/-- Whether an entry of the page-version table is of a page: a page has one (R304). -/
def sameVersion (id va : Nat) (v : Nat × Nat × Nat) : Bool := v.1 == id && v.2.1 == va

/-- ENC.SEAL performed; none while an operation still uses the page (R216). -/
def sealPage (s : State) (id a : Nat) : Option (Except Nat State) :=
  match enclaveOf s id with
  | none => some (.error 4)
  | some e =>
    let q (i : Nat) : Nat := Memory.num s.mem (a + 8 * i) 8
    let va := q 0
    let dst := q 1
    if a % 32 != 0 || !deviceOwned s a 32 || q 2 != 0 || q 3 != 0 || va % 65536 != 0 || dst % 128 != 0 || !deviceOwned s dst 65664 then
      some (.error 2)
    else if lineBad s a 32 then some (.error 3)
    else match level0 s e.root va with
      | none => some (.error 3)
      | some (addr, leaf) =>
        let frame := leafFrame leaf / 65536
        let p := potOf s (leafFrame leaf)
        if !bit leaf 0 || !cacheable (leafFrame leaf) then some (.error 3)
        else if p.rstr || bits leaf 63 38 != 0 || p.type != 1 || p.owner != id then some (.error 6)
        else if !(s.root.versions.any (sameVersion id va)) && s.root.held.length * versionsPerFrame ≤ s.root.versions.length then some (.error 5)
        else if lineBad s (frame * 65536) 65536 then some (.error 3)
        else if frameInUse s frame then none
        else
          let s := pageChange (dropMap (flushFrame (invalidateRange (writeEntry s addr 0) id va 65536) frame) frame) id va false
          let counter := (e.saveCounter + 1) % 2 ^ 64
          let hdr := recordHeader id va (bit leaf 2) (bit leaf 3) counter
          let (body, tag) := Config.gcmSeal (enclaveKey s e) (pageNonce counter va) hdr (Memory.bytes s.mem (frame * 65536) 65536)
          let s := setEnclave s id fun e => { e with saveCounter := counter }
          let s := writePhys s dst (hdr ++ fitBytes 65536 body ++ toBytes 16 tag.toNat ++ toBytes 48 0)
          let s := { zeroFrame s frame with
            pot := Tab.erase s.pot frame
            root := { s.root with versions := (id, va, counter) :: s.root.versions.filter fun v => !sameVersion id va v } }
          some (.ok (releaseSlot s id))

def execEncSeal (rd rs1 rs2 : BitVec 5) (s : State) : Result :=
  rootRun (.encSeal rd rs1 rs2) s outsideMode fun n h =>
    match sealPage s (h.getX rs1).toNat (h.getX rs2).toNat with
    | some (.ok s) => answer s n rd 0
    | some (.error st) => answer s n rd st
    | none => s

/-! ### ENC.UNSEAL (R311, R312) -/

/-- A blob's pages mapped: the raw view at one address, and the decoded view at another when one is named (R312). -/
def mapBlob (s : State) (e : Enclave) (raw view fmt : Nat) : List Nat → Option State
  | [] => some s
  | f :: fs =>
    let put (s : State) (va leaf : Nat) : Option State := match level0 s e.root va with
      | some (addr, old) => if bit old 0 then none else some (writeEntry s addr leaf)
      | none => none
    (put s raw (f * 64 + 3)).bind fun s =>
      (if view = 0 then some s else put s view (f * 64 + 3 + fmt * 2 ^ 38)).bind fun s =>
        mapBlob s e (raw + 65536) (if view = 0 then 0 else view + 65536) fmt fs

/-- Least of two ceilings. -/
def minCap (a : Option Nat) (b : Nat) : Option Nat := some (match a with
  | some x => min x b
  | none => b)

/-- Checks 1 to 4 of R312 on a blob: its payload. -/
def openBlob (s : State) (e : Enclave) (blob : Nat) : Option (List Byte) :=
  let p := Memory.num s.mem (blob + 0x30) 8
  (Config.sm2Open (Memory.bytes s.mem (blob + 0x40) 128)).bind fun key =>
    if BitVec.ofNat 256 (Memory.num s.mem (blob + 8) 32) != e.imgroot then none
    else if e.debug && !bit (Memory.num s.mem (blob + 4) 4) 0 then none
    else if p % 65536 != 0 then none
    else Config.gcmOpen key.toNat (Memory.num s.mem (blob + 0xC0) 16) (Memory.bytes s.mem blob 64) (Memory.bytes s.mem (blob + 0xD0) p)
      (BitVec.ofNat 128 (Memory.num s.mem (blob + 0xD0 + p) 16))

/-- ENC.UNSEAL performed with the four words of its descriptor (R312). -/
def unsealBlob (s : State) (id : Nat) (e : Enclave) (blob raw view fmt : Nat) : Except Nat State :=
  let ok := raw % 65536 == 0 && canonicalVa raw && view % 65536 == 0 && canonicalVa view && bits fmt 63 26 == 0 &&
    (if view = 0 then fmt == 0 else bits fmt 2 0 != 0 && fmtOk fmt) && cacheable blob
  if !ok then .error 2
  else if lineBad s blob 0xD0 || lineBad s (blob + 0xD0) (Memory.num s.mem (blob + 0x30) 8 + 16) then .error 3
  else match openBlob s e blob with
    | none => .error 6
    | some payload =>
      let p := Memory.num s.mem (blob + 0x30) 8
      let n := p / 65536
      if e.stack.length < n then .error 5
      else
        let fs := e.stack.take n
        let cap := Memory.num s.mem (blob + 0x28) 8
        let digest := Config.sm3 (Memory.bytes s.mem blob (0xD0 + p + 16))
        let filled := (fs.zip (upFrom 0 n)).foldl (fun s (f, i) =>
          let s := putFrame s f (payload.drop (65536 * i))
          { s with
            pot := Tab.set s.pot f { owner := id, slot := e.slot.getD 0, type := 1, rstr := true } }) s
        match mapBlob filled e raw view fmt fs with
        | none => .error 3
        | some s =>
          let s := invalidateRange (invalidateRange s id raw p) id view p
          let s := setEnclave s id fun e => { e with stack := e.stack.drop n, blobs := e.blobs ++ [digest], cap := minCap e.cap cap }
          let actor := if (curHart s).any fun (_, h) => h.enclave.isSome then 4 else 3
          .ok (logAppend s 0x04 id actor (digestBytes digest ++ bodyWords [cap, n]))

/-- The four words of an unseal descriptor: physical, or virtual in enclave mode (R398); the status where it is misaligned, may not lie
there, or lies in an uncorrectable line (R296). -/
def unsealWords (s : State) (h : Hart) (a : Nat) : Except Nat (List Nat) :=
  let words (bs : List Byte) : List Nat := (upFrom 0 4).map fun i => ofBytes ((bs.drop (8 * i)).take 8)
  if a % 32 != 0 then .error 2
  else match h.enclave with
    | some id => match translate s noCore id .read a, agentReadVa s id a 32 with
      | .ok p, got => if !p.device && poisoned s (p.at a) then .error 3 else (got.map fun bs => Except.ok (words bs)).getD (.error 2)
      | .poison _, _ => .error 3
      | _, got => (got.map fun bs => Except.ok (words bs)).getD (.error 2)
    | none =>
      if !deviceOwned s a 32 then .error 2
      else if lineBad s a 32 then .error 3
      else .ok (words (Memory.bytes s.mem a 32))

def execEncUnseal (rd rs1 rs2 : BitVec 5) (s : State) : Result :=
  rootRun (.encUnseal rd rs1 rs2) s (fun h => (h.enclave.isNone && h.mode == .s) || h.enclave == some (h.getX rs1).toNat) fun n h =>
    let id := (h.getX rs1).toNat
    match enclaveOf s id with
    | none => answer s n rd 4
    | some e => match unsealWords s h (h.getX rs2).toNat with
      | .ok [blob, raw, view, fmt] => match unsealBlob s id e blob raw view fmt with
        | .ok s => answer s n rd 0
        | .error st => answer s n rd st
      | .ok _ => answer s n rd 2
      | .error st => answer s n rd st

/-! ### ENC.ENTER and ENC.EXIT (R306, R399) -/

/-- Registers of a save area. -/
def areaRegs (bs : List Byte) : DWord × Tab DWord × Tab DWord × Word :=
  let num (off n : Nat) : Nat := ofBytes ((bs.drop off).take n)
  (BitVec.ofNat 64 (num 8 8), (upFrom 1 31).map (fun i => (i, BitVec.ofNat 64 (num (0x10 + 8 * (i - 1)) 8))),
    (upFrom 0 32).map (fun j => (j, BitVec.ofNat 64 (num (0x108 + 8 * j) 8))), BitVec.ofNat 32 (num 0x208 4))

/-- Whether an agent could write a byte of an enclave's memory. -/
def agentMayWrite (s : State) (enclave va : Nat) : Bool :=
  match translate s noCore enclave .write va with
  | .ok p => !p.device
  | .fill _ => true
  | _ => false

/-- ENC.ENTER performed: the status of a failure, or the state after it. A save area whose pages cannot be read and written is refused
with status 3 (log entry 46). -/
def enter (s : State) (n : Nat) (h : Hart) (rd : BitVec 5) (id a : Nat) : Except Nat State :=
  match enclaveOf s id with
  | none => .error 4
  | some _ =>
    let q (i : Nat) : Nat := Memory.num s.mem (a + 8 * i) 8
    if a % 64 != 0 || !deviceOwned s a 64 || q 0 % 2 != 0 || q 2 % 64 != 0 || (upFrom 3 5).any fun i => q i != 0 then .error 2
    else if lineBad s a 64 || !agentMayWrite s id (q 2) || !agentMayWrite s id (wrap 64 (q 2 + 575 : Nat)) then .error 3
    else
      let o : Outside := { pc := h.pc, mode := h.mode, x := h.x, f := h.f, fcsr := h.fcsr, rd := rd, save := BitVec.ofNat 64 (q 2) }
      match agentReadVa s id (q 2) 576 with
      | none => .error 3
      | some area =>
        let go (s : State) (pc : DWord) (x f : Tab DWord) (fcsr : Word) : State :=
          setHart s n fun h => { h with pc := pc, mode := .u, x := x, f := f, fcsr := fcsr, enclave := some id, outside := some o }
        if bit (ofBytes (area.take 8)) 0 then
          let (pc, x, f, c) := areaRegs area
          .ok (go (agentWriteVa s (.sill n) id (q 2) [((area.headD 0) &&& 0xFE)]).1 pc x f c)
        else .ok (go s (BitVec.ofNat 64 (q 0)) [(2, BitVec.ofNat 64 (q 1))] [] 0)

def execEncEnter (rd rs1 rs2 : BitVec 5) (s : State) : Result :=
  rootRun (.encEnter rd rs1 rs2) s outsideMode fun n h =>
    match enter s n h rd (h.getX rs1).toNat (h.getX rs2).toNat with
    | .ok s => s
    | .error st => answer s n rd st

def execEncExit (s : State) : Result :=
  rootRun .encExit s (fun h => h.enclave.isSome) fun n h =>
    let rd := (h.outside.map (·.rd)).getD 0
    setHart s n fun h => (h.leave.setX rd 0).goto (h.leave.pc + 4)

/-! ### ENC.DESTROY (R326) -/

/-- Bents of an enclave halted without error records, its metered transfers abandoned, and what its engines had begun
completed (R326). -/
def haltEnclave (s : State) (id : Nat) : State :=
  let mine := (s.bents.filter fun (_, b) => (launchOf s b).any fun l => l.enclave == id).map (·.1)
  let s := s.cmds.foldl (fun s (k, c) => match threadOf s c.thread with
    | some v => if mine.contains v.bent then
        let s := if c.state = .begun then (runCopy s (clientOf s v) c c.total).state else s
        { s with cmds := Tab.erase s.cmds k }
      else s
    | none => s) s
  let s := (s.tenons.filter (·.enclave == id)).foldl tenonServe { s with tenons := s.tenons.filter (·.enclave != id) }
  let s := mine.foldl (fun s t => match bentOf s t with
    | some b => match b.control with
      | some q => removeBent { s with segments := s.segments.filter fun g => g.quarter != q } t true
      | none => removeBent s t true
    | none => s) s
  { s with
    launches := s.launches.filter fun (_, l) => l.enclave != id
    egress := s.egress.map fun (k, e) => (k, if k % 65536 = id then { e with waiting := [] } else e)
    saved := s.saved.filter fun r => r.enclave != id
    rejected := s.rejected.filter fun r => r.1 != id
    requests := s.requests.filter fun r => (threadOf s r.thread).isSome
    answers := s.answers.filter fun a => (threadOf s a.thread).isSome }

/-- Everything an enclave held, gone (R326). -/
def destroy (s : State) (id : Nat) : State :=
  let tickets := (s.saved.filter (·.enclave == id)).map (·.ticket)
  let s := s.harts.foldl (fun s (n, h) => if h.enclave == some id then
      setHart (agentWriteVa s (.sill n) id ((h.outside.map (·.save.toNat)).getD 0) h.saveArea).1 n Hart.leave else s) s
  let slot := ((enclaveOf s id).bind (·.slot))
  let s := invalidateEnclave (haltEnclave s id) id
  let fs := ownedFrames s id
  let s := fs.foldl (fun s f => zeroFrame (discardFrame s f) f) s
  let s := { s with
    pot := s.pot.filter fun (_, p) => p.owner != id
    scopes := s.scopes.filter fun e => e.enclave != id
    contexts := s.contexts.filter fun c => c.enclave != id
    routines := s.routines.filter fun r => r.enclave != id
    dirtyMaps := s.dirtyMaps.filter fun d => d.enclave != id
    enclaves := Tab.erase s.enclaves id
    root := { s.root with
      saves := s.root.saves.filter fun e => !tickets.contains e.1
      versions := s.root.versions.filter fun v => v.1 != id
      keys := match slot with
        | some k => Tab.erase s.root.keys k
        | none => s.root.keys } }
  let s := match slot with
    | some k => logSlot s id k 1
    | none => s
  logAppend s 0x02 id 3 (bodyWords [fs.length])

def execEncDestroy (rd rs1 : BitVec 5) (s : State) : Result :=
  rootRun (.encDestroy rd rs1) s outsideMode fun n h =>
    let id := (h.getX rs1).toNat
    match enclaveOf s id with
    | none => answer s n rd 4
    | some _ => answer (destroy s id) n rd 0

/-- A wrapped key leaves the package root to root, over a session whose peer attests (R302). -/
def execKeyTransfer (enclave : Nat) (peerAttested : Bool) (s : State) : Result :=
  match enclaveOf s enclave with
  | none => .next s
  | some e => if peerAttested && e.wrapped.isSome then .next (logAppend s 0x08 enclave 3 (bodyWords [0, 2])) else .next s

end Sys2Proof.Machine
end

