-- ==== Sys2Proof/Machine/Reset.lean ====
section
/-! DEFINITION. Resets, bring-up, package failure and heat (R34, R293, R325, R343, R353, R356, R358). -/

namespace Sys2Proof.Machine

/-- Values of MGSTAT.STATE (R354). -/
def stRootboot : Nat := 0
def stTrain : Nat := 1
def stScrub : Nat := 2
def stLinks : Nat := 3
def stReady : Nat := 4
def stFailed : Nat := 5

/-- Kinds of reset as LASTRST names them: 0 cold, 1 warm, 2 watchdog (R354, R356). -/
def coldKind : Nat := 0
def warmKind : Nat := 1
def watchdogKind : Nat := 2

/-- The package held in reset at ROOTBOOT: what survives is the file store, the root's non-volatile store, memory until the
scrub, what is outside the package, and after a warm reset the trigger counts (R318, R356, R357). The model's own counters
of names and free choices go on (log entry 1). -/
def resetState (s : State) (kind : Nat) : State :=
  { State.reset with
    draws := s.draws, launchSeq := s.launchSeq, threadSeq := s.threadSeq, cmdSeq := s.cmdSeq
    mem := s.mem, cxl := s.cxl, images := s.images
    mgmt := { Mgmt.reset with
      lastrst := kind, resetKind := kind
      dropped := if kind = coldKind then 0 else s.mgmt.dropped
      fired := if kind = coldKind then 0 else s.mgmt.fired }
    root := { Root.reset with drawn := s.root.drawn, seq := s.root.seq, head := s.root.head, epoch := s.root.epoch } }

/-- A reset asked for: ignored while one is in progress; a failed package takes a cold one alone (R356). -/
def startReset (s : State) (kind : Nat) : State :=
  if s.mgmt.state < stReady || (s.mgmt.state == stFailed && kind != coldKind) then s else resetState s kind

/-- Power good starts a cold reset whatever came before it (R356). -/
def execPowerOn (s : State) : Result := .next (resetState s coldKind)

def execWatchdogReset (s : State) : Result := .next (startReset s watchdogKind)

def setStatus (s : State) (st : Nat) : State := { s with mgmt := { s.mgmt with state := st } }

/-- Whether the scrub of the last reset lies behind: only then is the log written, and its first record is the reset's, so a package that
failed before it has an empty ring (R318). -/
def scrubbed (s : State) : Bool := s.mgmt.state == stLinks || s.mgmt.state == stReady || (s.mgmt.state == stFailed && !s.root.log.isEmpty)

/-- Whether the ports are up: in LINKS and in READY (R325, R353, R356). -/
def linksUp (s : State) : Bool := s.mgmt.state == stLinks || s.mgmt.state == stReady

/-- The root has booted and measured: TRAIN after a cold reset, SCRUB after a warm one (R356). -/
def execRootbootDone (s : State) : Result :=
  if s.mgmt.state ≠ stRootboot then .next s
  else .next (setStatus s (if s.mgmt.resetKind = coldKind then stTrain else stScrub))

def execPhyTrainingDone (s : State) : Result :=
  if s.mgmt.state ≠ stTrain then .next s else .next (setStatus s stScrub)

/-- The scrub: every line of HBM zero, tags, poison and ownership at their reset values, caches invalid, the device key new;
the log starts over with the reset's record (R301, R318, R325). -/
def scrubState (s : State) : State :=
  let s := { s with
    mem := [], side := [], pot := [], l1 := [], l2 := [], ms := [], icache := [], retained := [], tlb := [], tlb2 := [], walks := []
    hbm := [], reservations := [], monitors := [], scopes := [], dirtyMaps := []
    root := { s.root with keys := [(0, Config.randomKey s.root.drawn)], drawn := s.root.drawn + 1, log := [] } }
  logAppend s 0x09 0 0 (toBytes 8 s.mgmt.resetKind ++ toBytes 8 s.root.seq ++ digestBytes s.root.head)

def execScrub (s : State) : Result :=
  if s.mgmt.state ≠ stScrub then .next s else .next (setStatus (scrubState s) stLinks)

/-- READY: the boot firmware stands at address 0 and every hart leaves reset (R343, R356). -/
def startHarts (s : State) : State :=
  { s with
    mem := Memory.writeBytes s.mem 0 Config.bootImage
    harts := (upFrom 0 128).map fun h => (h, Hart.start h) }

def execLinksDone (s : State) : Result :=
  if s.mgmt.state ≠ stLinks then .next s else .next (setStatus (startHarts s) stReady)

/-! ### Package failure (R34, R293, R356) -/

/-- Every enclave's queue receives the notice; then every die but the root is held in reset. The log, the counts of records
and the readings of the sensors stay. Time starts anew, and with it the count of a silent holder of MGSEM (R355). -/
def failPackage (s : State) (unit : Nat) : State :=
  let s := (Tab.keys s.enclaves).foldl (fun s id => errorRecord s id 0x07 0 0xFFFF 0 0 0 unit) s
  { resetState s coldKind with
    tstat := s.tstat
    mgmt := { s.mgmt with state := stFailed, ckpt := false, unacked := [], triggers := 0, semLast := governorTicks (resetState s coldKind) 0, semTick := none }
    root := { (resetState s coldKind).root with log := s.root.log } }

def execPackageFailure (unit : Nat) (s : State) : Result :=
  if s.mgmt.state == stFailed then .next s else .next (failPackage s unit)

/-! ### Heat (R358) -/

def tstatOf (s : State) (die : Nat) : Tstat := Tab.getD s.tstat die { temp := 0, throt := false, trip := false }

/-- A reading of a die's hottest sensor: THROT sets at 100 °C and clears below 95 °C. A change of THROT is the interrupt of the
thermal status (R342; log entry 14). -/
def readTemp (s : State) (die temp : Nat) : State :=
  let t := tstatOf s die
  let throt := 100 ≤ temp || (t.throt && 95 ≤ temp)
  let s := { s with tstat := Tab.set s.tstat die { t with temp := min 255 temp, throt := throt } }
  if throt == t.throt then s else raiseSource s sourceThermal

def execThermalThrottle (die temp : Nat) (s : State) : Result :=
  if 6 ≤ die || 115 ≤ temp then .next s else .next (readTemp s die temp)

/-- UNIT of a failure that is no core, control core or slice (R289). -/
def otherUnit (die : Nat) : Nat := unitCode 3 (die % 4) 0 0 0

/-- TRIP at 115 °C is a package failure. -/
def execThermalTrip (die temp : Nat) (s : State) : Result :=
  if 6 ≤ die || temp < 115 then .next s
  else
    let s := readTemp s die temp
    let s := { s with tstat := Tab.set s.tstat die { tstatOf s die with trip := true } }
    .next (if s.mgmt.state == stFailed then s else failPackage s (otherUnit die))

end Sys2Proof.Machine
end

