-- ==== Sys2Proof/Machine/Links.lean ====
section
/-! DEFINITION. Attestation, egress governors, Dreush streams, TDISP interfaces, I/O writes and integrity failures
(R250, R286-R287, R314-R324, R352). -/

namespace Sys2Proof.Machine

/-! ### Attestation (R319, R320) -/

/-- Request and response codes, those of the SPDM standard the spec names (log entry 17). -/
def rspError : Nat := 0x7F
def errUnexpected : Nat := 0x04
def errInvalid : Nat := 0x01
def errDecrypt : Nat := 0x06
def errUnsupported : Nat := 0x07

/-- A response of the root. -/
def reply (s : State) (code : Nat) (body : List Byte) : State :=
  { s with spdm := { s.spdm with replies := s.spdm.replies ++ [(code, body)] } }

def replyError (s : State) (e : Nat) : State := reply s rspError (toBytes 1 e)

/-- Versions answered: 1.2 and 1.3. -/
def execGetVersion (s : State) : Result :=
  .next (reply { s with spdm := { s.spdm with version := true, caps := false, algs := false, session := 0, report := none, peerAuth := 0 } } 0x04
    (toBytes 1 0x12 ++ toBytes 1 0x13))

def execGetCapabilities (s : State) : Result :=
  if !s.spdm.version then .next (replyError s errUnexpected)
  else .next (reply { s with spdm := { s.spdm with caps := true } } 0x61 [])

/-- The algorithms the root has: SM2 signatures, SM3, the key exchange on the SM2 curve, and SM4-GCM. A requester must offer them all. -/
def execNegotiateAlgorithms (sm2 : Bool) (others : Offer) (s : State) : Result :=
  if !s.spdm.caps then .next (replyError s errUnexpected)
  else if sm2 && others.sm3 && others.dhe && others.aead then .next (reply { s with spdm := { s.spdm with algs := true } } 0x63 [])
  else .next (replyError s errInvalid)

def execGetDigests (s : State) : Result :=
  if !s.spdm.algs then .next (replyError s errUnexpected)
  else .next (reply s 0x01 ((upFrom 0 2).flatMap fun k => digestBytes (Config.sm3 (Config.certificate k))))

def execGetCertificate (slot : Nat) (s : State) : Result :=
  if !s.spdm.algs then .next (replyError s errUnexpected)
  else if 2 ≤ slot then .next (replyError s errInvalid)
  else .next (reply s 0x02 (Config.certificate slot))

/-- An attestation answered is logged with the request's code and the digest of its nonce (R317). -/
def logAttest (s : State) (enclave code : Nat) (nonce : BitVec 256) : State :=
  logAppend s 0x03 enclave 0 (toBytes 8 code ++ digestBytes (Config.sm3 (digestBytes nonce)))

/-- Bytes with the signature of a slot's key over them. -/
def signed (slot : Nat) (bs : List Byte) : List Byte := bs ++ toBytes 64 (Config.sm2Sign slot bs).toNat

/-- A request whose answer is logged: there is none before the scrub that follows a reset, whose record comes first (R318; log
entry 17). -/
def afterScrub (s : State) (r : Result) : Result := if scrubbed s then r else .next s

def execChallenge (slot : Nat) (nonce : BitVec 256) (s : State) : Result :=
  afterScrub s <| if !s.spdm.algs then .next (replyError s errUnexpected)
  else if 2 ≤ slot then .next (replyError s errInvalid)
  else .next (reply (logAttest s 0 0x83 nonce) 0x03 (signed slot (digestBytes nonce)))

/-- Measurements 1 to 4; the third is that of the boot firmware (R319, R343). -/
def measurementOf (i : Nat) : BitVec 256 := if i = 3 then Config.sm3 Config.bootImage else Config.measurement i

def execGetMeasurements (index : Nat) (nonce : BitVec 256) (s : State) : Result :=
  afterScrub s <| if !s.spdm.algs then .next (replyError s errUnexpected)
  else if index = 0 || 4 < index then .next (replyError s errInvalid)
  else .next (reply (logAttest s 0 0xE0 nonce) 0x60 (signed 0 (digestBytes (measurementOf index) ++ digestBytes nonce)))

/-- Sessions: 0 none, 1 keyed and not finished, 2 open. A new one has given no report. -/
def setSession (s : State) (n : Nat) : State := { s with spdm := { s.spdm with session := n, report := none } }

def setPeerAuth (s : State) (n : Nat) : State := { s with spdm := { s.spdm with peerAuth := n } }

/-- A session keyed; the root may ask for mutual authentication in its answer (R319). -/
def keyed (s : State) (both : Bool) : State := reply (setPeerAuth (setSession s 1) (if both then 1 else 0)) 0x64 []

/-- A key exchange. Whether the root asks for mutual authentication is free (log entry 17). -/
def execKeyExchange (s : State) : Result :=
  if !s.spdm.algs then .next (replyError s errUnexpected)
  else .next (keyed { s with draws := s.draws + 1 } (Config.choose s.draws))

/-- A session is finished once the peer, where that was asked for, has been authenticated too. -/
def execFinish (ok : Bool) (s : State) : Result :=
  if s.spdm.session ≠ 1 || s.spdm.peerAuth = 1 || s.spdm.peerAuth = 2 then .next (replyError s errUnexpected)
  else if ok then .next (reply (setSession s 2) 0x65 [])
  else .next (replyError (setSession s 0) errDecrypt)

/-- A request that an open session alone may make. -/
def inSession (s : State) (f : State → State) : Result :=
  if s.spdm.session ≠ 2 then .next (replyError s errUnexpected) else .next (f s)

def execHeartbeat (s : State) : Result := inSession s fun s => reply s 0x68 []
def execKeyUpdate (s : State) : Result := inSession s fun s => reply s 0x69 []
def execEndSession (s : State) : Result := inSession s fun s => reply (setSession s 0) 0x6C []

/-- Whether an enclave holds a restricted page (R313). -/
def restricted (s : State) (id : Nat) : Bool := s.pot.any fun (_, p) => p.owner == id && p.rstr

/-- The report of an enclave; one that does not exist is marked absent (R320). -/
def report (s : State) (id : Nat) (nonce : BitVec 256) : List Byte :=
  match enclaveOf s id with
  | none => toBytes 2 id ++ toBytes 1 0 ++ digestBytes nonce
  | some e =>
    toBytes 2 id ++ toBytes 1 1 ++ digestBytes e.imgroot ++
      toBytes 4 (pack [(1, ofBool e.debug), (3, e.pways.length), (1, ofBool e.slot.isSome), (1, ofBool (restricted s id))]) ++
      digestBytes e.partmask ++ e.blobs.flatMap digestBytes ++ digestBytes nonce

/-- An open session is bound to the report of an enclave that it gives (R337; log entry 17). -/
def bindReport (s : State) (enclave : Nat) : State :=
  if s.spdm.session = 2 && (enclaveOf s enclave).isSome then { s with spdm := { s.spdm with report := some enclave } } else s

/-- A report, or the installation of a checkpoint key and its minimum epoch, over an open session bound to the enclave's report
(R320, R337, R338). -/
def execVendorDefinedRequest (enclave : Nat) (nonce : BitVec 256) (ckpt : Option (Nat × Nat)) (s : State) : Result :=
  match ckpt with
  | none => afterScrub s (.next (bindReport (reply (logAttest s enclave 0xFE nonce) 0x7E (signed 0 (report s enclave nonce))) enclave))
  | some k =>
    if s.spdm.session ≠ 2 || (enclaveOf s enclave).isNone || s.spdm.report ≠ some enclave then .next (replyError s errUnexpected)
    else .next (reply (setEnclave s enclave fun e => { e with ckpt := some k }) 0x7E [])

/-- Codes of the encapsulated exchange, by which the root asks the requester of a session in its turn (log entry 17). -/
def getEncapsulated : Nat := 0xEA
def deliverEncapsulated : Nat := 0xEB
/-- The request the root sends so: the peer's certificate chain. -/
def askCertificate : Nat := 0x82

/-- Any other request. The two of the encapsulated exchange are answered while mutual authentication is under way: the root asks for the
peer's chain, and accepts or refuses it, which is free. Every other code gets ERROR, UnsupportedRequest (R319). -/
def execUnsupportedRequest (code : Nat) (s : State) : Result :=
  if code = getEncapsulated && s.spdm.peerAuth = 1 then
    .next (reply { setPeerAuth s 2 with spdm := { (setPeerAuth s 2).spdm with asked := s.spdm.asked ++ [askCertificate] } } 0x6A (toBytes 1 askCertificate))
  else if code = deliverEncapsulated && s.spdm.peerAuth = 2 then
    let s' := { s with draws := s.draws + 1 }
    if Config.choose s.draws then .next (reply (setPeerAuth s' 3) 0x6B []) else .next (replyError (setPeerAuth s' 1) errInvalid)
  else .next (reply s rspError (toBytes 1 errUnsupported ++ toBytes 1 code))

/-! ### Egress governors (R314-R316) -/

/-- An egress register nothing has written (R315). -/
def Egress.reset : Egress :=
  { budget := 0, win := 0x14, stalls := 0, remaining := 0, bytes := 0, stalled := false, waiting := [], next := none }

/-- Key of an enclave's register at a governor. -/
def egressKey (gov enclave : Nat) : Nat := gov * 65536 + enclave
def egressOf (s : State) (gov enclave : Nat) : Egress := Tab.getD s.egress (egressKey gov enclave) Egress.reset
def setEgress (s : State) (gov enclave : Nat) (e : Egress) : State := { s with egress := Tab.set s.egress (egressKey gov enclave) e }

/-- Bytes metered for a transfer: whole units of 64 (R314). -/
def meteredBytes (n : Nat) : Nat := (n + 63) / 64 * 64

/-- Waiting transfers pass in arrival order while budget remains (R316). -/
def Egress.drain (e : Egress) : List Nat → Egress
  | [] => { e with waiting := [] }
  | n :: ns =>
    if n ≤ e.remaining then Egress.drain { e with remaining := e.remaining - n, bytes := e.bytes + n } ns
    else { e with remaining := 0, bytes := e.bytes + e.remaining, stalled := true, waiting := (n - e.remaining) :: ns }

/-- Bytes of an enclave that leave through a governor's die: those of a restricted enclave are metered, nothing else is (R314). -/
def meter (s : State) (gov enclave bytes : Nat) : State :=
  if 2 ≤ gov || !restricted s enclave then s
  else
    let e := egressOf s gov enclave
    setEgress s gov enclave (e.drain (e.waiting ++ [meteredBytes bytes]))

/-- Whether every transfer of an enclave at a governor has passed (R316). -/
def passed (s : State) (gov enclave : Nat) : Bool := (egressOf s gov enclave).waiting.isEmpty

/-- I/O die through whose ports a service's bytes leave: that of the stream's port for Dreush traffic, its own for the rest (R17, R346,
R351). -/
def SyscReq.outDie (s : State) (r : SyscReq) : Nat :=
  if r.svc = 3 then ((Tab.get? s.streams r.vb.toNat).map fun t => dreushDie t.port).getD r.io else r.io

/-- Whether a request is one whose bytes a transfer carries. -/
def SyscReq.carriedBy (s : State) (gov enclave bytes : Nat) (r : SyscReq) : Bool :=
  r.taken && !r.sent && r.outDie s == gov && r.leaves == bytes && bytes != 0 && (threadOf s r.thread).any fun v => threadEnclave s v == enclave

/-- The first of some requests that a property holds of, marked as sent. -/
def markSent (p : SyscReq → Bool) : List SyscReq → List SyscReq
  | [] => []
  | r :: rs => if p r then { r with sent := true } :: rs else r :: markSent p rs

/-- Whether an I/O agent may reach an enclave's memory: a NIC may, an interface in RUN that is assigned to it may. -/
def ioAllowed (s : State) (enclave : Nat) : Option Nat → Bool
  | none => true
  | some i => Tab.get? s.tdisp i == some (enclave, Tdisp.run)

/-- An interface's IDE stream with some more frames from either side. -/
def countIde (s : State) (i : Nat) (k : Ide) (got sent : Nat) : State :=
  { s with spdm := { s.spdm with ide := Tab.set s.spdm.ide i { k with got := k.got + got, sent := k.sent + sent } } }

/-- The frame that answers a read by an interface goes sealed on its IDE stream (R307, R322). -/
def answerIde (s : State) (ifc : Option Nat) : State :=
  match ifc.bind fun i => (Tab.get? s.spdm.ide i).map fun k => (i, k) with
  | some (i, k) => countIde s i k 0 1
  | none => s

/-- A transfer on behalf of an enclave reaches its governor: one that a device interface asks for by a read is refused outside RUN, and its
answer is a frame of the interface's stream; one that a service makes is noted at its request (R314, R322, R351). -/
def execEgressTransfer (gov : Nat) (sender : Sender) (bytes : Nat) (s : State) : Result :=
  if !ioAllowed s sender.enclave sender.ifc then .next s
  else
    let reqs := if sender.ifc.isSome then s.requests else markSent (SyscReq.carriedBy s gov sender.enclave bytes) s.requests
    .next (meter { answerIde s sender.ifc with requests := reqs } gov sender.enclave bytes)

/-- A window starts on the governor's own counter: the last one is summed up, a written configuration takes effect, and waiting transfers go on (R315,
R316). -/
def execEgressWindow (gov enclave : Nat) (s : State) : Result :=
  let e := egressOf s gov enclave
  if !windowStarts s gov e.win then .next s
  else
    let s := if e.bytes ≠ 0 || e.stalled then
        logAppend s 0x05 enclave 0 (bodyWords [gov, governorTicks s gov - 2 ^ e.win, e.bytes, ofBool e.stalled]) else s
    let (b, w) := e.next.getD (e.budget, e.win)
    let e' : Egress := {
      e with
      budget := b, win := w, next := none, remaining := b * 4096, bytes := 0, stalled := false
      stalls := if e.stalled then min (2 ^ 32 - 1) (e.stalls + 1) else e.stalls }
    .next (setEgress s gov enclave (e'.drain e'.waiting))

/-- Budget and window that a register holds or is about to hold. -/
def Egress.planned (e : Egress) : Nat × Nat := e.next.getD (e.budget, e.win)

/-- Whether two governors' budgets together pass a ceiling of bytes per second (R315). -/
def overCap (a b : Nat × Nat) (cap : Nat) : Bool :=
  cap * 2 ^ (a.2 + b.2) < (a.1 * 2 ^ b.2 + b.1 * 2 ^ a.2) * 4096 * 10 ^ 8

/-- A write of EGCFG (R315). -/
def writeEgcfg (s : State) (gov enclave v : Nat) : State :=
  let e := egressOf s gov enclave
  let new := (bits v 63 40, bits v 39 35)
  let cap := (enclaveOf s enclave).bind (·.cap)
  if new.2 < 16 then s
  else if restricted s enclave && cap.any (overCap new (egressOf s (1 - gov) enclave).planned) then s
  else setEgress s gov enclave { e with next := some new }

def Egress.value (e : Egress) : Nat := pack [(32, e.stalls), (3, 0), (5, e.win), (24, e.budget)]

/-! ### Dreush streams (R321, R353) -/

/-- The requests by which a root authenticates another and keys a session with it, as requester (R319, R321; codes by log entry 17). -/
def rootRequests : List Nat := [0x84, 0xE1, 0xE3, 0x81, 0x82, 0x83, 0xE4, 0xE5]

/-- The root's session with the root of another package, and its secret: the one it has, or a new one that it asks for. Whether the two
roots authenticate each other then is free; without that there is none (R319, R321; log entries 17, 18). -/
def peerSession (s : State) (peer : Nat) : State × Option Nat :=
  match Tab.get? s.spdm.peers peer with
  | some k => (s, some k)
  | none =>
    let k := Config.unspecified (s.draws + 1)
    let asked := { s with draws := s.draws + 2, spdm := { s.spdm with asked := s.spdm.asked ++ rootRequests } }
    if Config.choose s.draws then ({ asked with spdm := { asked.spdm with peers := Tab.set asked.spdm.peers peer k } }, some k) else (asked, none)

/-- The ends of a stream, one on each package. -/
def streamEnd (pkg enclave : Nat) : Nat := pkg * 65536 + enclave

/-- IMGROOT of the peer enclave, as its root reports it (R320, R333). -/
def peerImage (s : State) (peer enclave : Nat) : BitVec 256 :=
  if peer = s.mgmt.pkid then ((enclaveOf s enclave).map (·.imgroot)).getD 0 else Config.peerImgroot peer enclave

/-- A stream opens when both roots hold a request for it and have an authenticated session, whose secret keys it; ports are up in LINKS
and READY. The port that carries it is free (log entry 18). -/
def execDreushStreamOpen (stream enclave peer peerEnclave : Nat) (localReq peerReq : Bool) (s : State) : Result :=
  if linksUp s && localReq && peerReq && (enclaveOf s enclave).isSome && (Tab.get? s.streams stream).isNone then
    match peerSession s peer with
    | (s, none) => .next s
    | (s, some secret) =>
      let a := streamEnd s.mgmt.pkid enclave
      let b := streamEnd peer peerEnclave
      .next { s with
        draws := s.draws + 1
        streams := Tab.set s.streams stream
          { port := Config.pick s.draws % 18, enclave := enclave, peer := peer, peerEnclave := peerEnclave, peerImg := peerImage s peer peerEnclave
            key := Config.streamKey secret (min a b) (max a b), sent := 0, got := 0, failures := 0 } }
  else .next s

/-- Nonces of the next frame that a stream sends and of the next that it receives: the frame's number, and which end sends it (log entry
18). -/
def Stream.sendNonce (s : State) (t : Stream) : Nat :=
  2 * t.sent + ofBool (streamEnd t.peer t.peerEnclave < streamEnd s.mgmt.pkid t.enclave)
def Stream.getNonce (s : State) (t : Stream) : Nat :=
  2 * t.got + ofBool (streamEnd s.mgmt.pkid t.enclave < streamEnd t.peer t.peerEnclave)

/-- The authenticated bytes of a frame: what it carries, and for which address (log entry 18). -/
def frameHeader : FrameKind → List Byte
  | .data va => toBytes 1 0 ++ toBytes 8 va.toNat
  | .line va => toBytes 1 1 ++ toBytes 8 va.toNat
  | .pages => toBytes 1 2 ++ toBytes 8 0
  | .records => toBytes 1 3 ++ toBytes 8 0

/-- A frame opened under a stream's key (R307, R321). -/
def Stream.openFrame (s : State) (t : Stream) (kind : FrameKind) (sealed : List Byte) (tag : BitVec 128) : Option (List Byte) :=
  Config.gcmOpen t.key (t.getNonce s) (frameHeader kind) sealed tag

/-- A frame that fails its tag is discarded; the third in a row closes the stream with a log record (R321). -/
def badFrame (s : State) (stream : Nat) (t : Stream) : State :=
  if t.failures + 1 < 3 then { s with streams := Tab.set s.streams stream { t with failures := t.failures + 1 } }
  else logAppend { s with streams := Tab.erase s.streams stream } 0x07 t.enclave 0 (bodyWords [stream])

/-! ### TDISP interfaces and I/O writes (R250, R322, R352) -/

/-- Moves between the states of an interface: locking, starting, failing, and unlocking by whoever stops it (R322; log
entry 18). -/
def tdispMoves : Tdisp → Tdisp → Bool
  | .configUnlocked, .configLocked => true
  | .configLocked, .run => true
  | .configLocked, .configUnlocked => true
  | .run, .configUnlocked => true
  | .error, .configUnlocked => true
  | .configLocked, .error => true
  | .run, .error => true
  | _, _ => false

/-- The IDE stream of an interface: keyed from the root's session with the device as the interface is locked, and gone once it is unlocked
or has failed (R307, R322; log entry 18). -/
def ideKeys (s : State) (ifc enclave : Nat) : Tdisp → State
  | .configLocked =>
    { s with draws := s.draws + 1,
             spdm := { s.spdm with asked := s.spdm.asked ++ rootRequests, ide := Tab.set s.spdm.ide ifc { key := Config.streamKey (Config.unspecified s.draws) ifc enclave, got := 0, sent := 0 } } }
  | .run => s
  | .configUnlocked | .error => { s with spdm := { s.spdm with ide := Tab.erase s.spdm.ide ifc } }

/-- What an agent's write for an enclave carries: a NIC's plain bytes, and an interface's sealed ones with their 16-byte tag behind them,
opened under its IDE stream for their address. A frame that fails its tag is discarded and waited for again (R307, R322; log entry 18). -/
def ideOpen (s : State) (ifc : Option Nat) (va : DWord) (bs : List Byte) : State × Option (List Byte) :=
  match ifc with
  | none => (s, some bs)
  | some i => match Tab.get? s.spdm.ide i with
    | none => (s, none)
    | some k =>
      let n := bs.length - 16
      match Config.gcmOpen k.key (2 * k.got) (frameHeader (.data va)) (bs.take n) (BitVec.ofNat 128 (ofBytes (bs.drop n))) with
      | none => (s, none)
      | some plain => (countIde s i k 1 0, some plain)

/-- A sealed write of an agent to an enclave's memory; whether it has been written. -/
def ideWrite (s : State) (enclave : Nat) (ifc : Option Nat) (va : DWord) (bs : List Byte) : State × Bool :=
  match ideOpen s ifc va bs with
  | (s, some plain) => agentWriteVa s .io enclave va.toNat plain
  | (s, none) => (s, false)

def execTdispStateChange (ifc enclave : Nat) (st : Tdisp) (s : State) : Result :=
  let (e, now) := Tab.getD s.tdisp ifc (enclave, .configUnlocked)
  if !tdispMoves now st || (enclaveOf s enclave).isNone || (now != .configUnlocked && e != enclave) then .next s
  else .next { ideKeys s ifc enclave st with tdisp := Tab.set s.tdisp ifc (enclave, st) }

/-- Whether an interface has failed: in ERROR it is refused everywhere (R322). -/
def ifcFailed (s : State) (ifc : Option Nat) : Bool := ifc.any fun i => (Tab.get? s.tdisp i).any fun t => t.2 == Tdisp.error

/-- Bytes an I/O agent writes for the device itself, in OWNER-0 frames, at `.sy`; the checker records them (R244, R352). -/
def ioWritePhys (s : State) (pa : Nat) (bs : List Byte) : State × Bool :=
  if deviceOwned s pa bs.length then (writePhys (trackSy s .io pa bs.length) pa bs, true) else (s, false)

/-- A payload and then its completion record, as a release at `.sy` (R250); those of an interface to an enclave's memory come sealed on its
IDE stream. A refused payload writes no record. Until the ports are up
nothing is written (R325, R356). -/
def execIoWriteCompletion (enclave : Nat) (ifc : Option Nat) (va : DWord) (data : List Byte) (rec : DWord) (recData : List Byte)
    (s : State) : Result :=
  if !linksUp s || ifcFailed s ifc then .next s
  else if enclave = 0 then
    match ioWritePhys s va.toNat data with
    | (s, true) => .next (ioWritePhys s rec.toNat recData).1
    | (s, false) => .next s
  else if !ioAllowed s enclave ifc then .next s
  else
    match ideWrite s enclave ifc va data with
    | (s, true) => .next (ideWrite s enclave ifc rec recData).1
    | (s, false) => .next s

/-! ### Integrity (R286, R287) -/

/-- A line found uncorrectable or forged, by a thread's access or by none. A number that names no line of HBM stands for an
uncorrectable word of an SRAM array of the thread's bent, which it halts. -/
def execIntegrityHalt (consumer : Option Nat) (line : Nat) (mac : Bool) (s : State) : Result :=
  let reader := consumer.bind (threadOf s)
  if line * 128 < Config.hbmBytes then .next (integrityHalt s reader line mac)
  else match reader with
    | some v => .next (haltBent s v 0x01 0x28 0)
    | none => .next s

end Sys2Proof.Machine
end

