-- ==== Sys2Proof/Machine/Migrate.lean ====
section
/-! DEFINITION. Live migration and whole-package checkpoints (R333-R339). -/

namespace Sys2Proof.Machine

/-! ### Dirty tracking (R333, R334) -/

/-- Frames of an enclave's data pages that are not restricted (R334). -/
def trackedFrames (s : State) (id : Nat) : List Nat :=
  (s.pot.filter fun (_, p) => p.owner == id && p.type == 1 && !p.rstr).map (·.1)

/-- The 64 KiB pieces of the raw views in an enclave's tables: address and frame address, by ascending address. -/
def rawPieces (s : State) (root : Nat) : List (Nat × Nat) :=
  sortBy (·.1) (((scanRoot s.mem root).leaves.filter fun l => l.fmt == 0).flatMap (·.pieces))

/-- The pages that a migration sends: address and frame of every unrestricted data page, by ascending address (R334, R335). -/
def trackedPages (s : State) (id : Nat) (e : Enclave) : List (Nat × Nat) :=
  (rawPieces s e.root).filterMap fun (va, pa) =>
    if frameOwned s id e.slot pa && !(potOf s pa).rstr then some (va, frameOf pa) else none

/-- EN set: every line of every tracked page marked. EN cleared: the maps go (R334). -/
def setTracking (s : State) (id : Nat) (on : Bool) : State :=
  match enclaveOf s id with
  | none => s
  | some e =>
    let others := s.dirtyMaps.filter fun d => d.enclave != id
    if on && !e.mig.en then
      setEnclave { s with dirtyMaps := (trackedFrames s id).map (fun f => { enclave := id, frame := f, map := BitVec.allOnes 512 }) ++ others }
        id fun e => { e with mig := { e.mig with en := true, round := 0, changes := [] } }
    else if !on && e.mig.en then
      setEnclave { s with dirtyMaps := others } id fun e => { e with mig := { e.mig with en := false } }
    else s

/-- Bits set in a number. -/
def countBits (n w : Nat) : Nat := ((upFrom 0 w).filter fun i => bit n i).length

/-- Lines of an enclave marked. -/
def markedLines (s : State) (id : Nat) : Nat :=
  (s.dirtyMaps.filter (·.enclave == id)).foldl (fun n d => n + countBits d.map.toNat 512) 0

/-- Bents of an enclave. -/
def bentsOfEnclave (s : State) (id : Nat) : List Nat :=
  (s.bents.filter fun (_, b) => (launchOf s b).any fun l => l.enclave == id).map (·.1)

/-- Harts of an enclave leave enclave mode, their registers in their save areas (R306, R336). -/
def expelHarts (s : State) (id : Nat) : State :=
  s.harts.foldl (fun s (n, h) => if h.enclave == some id then
    setHart (agentWriteVa s (.sill n) id ((h.outside.map (·.save.toNat)).getD 0) h.saveArea).1 n Hart.leave else s) s

/-! ### Rounds (R335, R336) -/

/-- The visits of a round begin at the lowest address. -/
def beginRound (s : State) (id : Nat) : State :=
  setEnclave s id fun e => { e with mig := { e.mig with dirty := markedLines s id, stage := 1, cursor := 0 } }

/-- A round asked for. The final one stops the enclave's bents and harts first, and visits nothing before they have stopped. -/
def startRound (s : State) (id : Nat) (final : Bool) : State :=
  let s := setEnclave s id fun e => { e with mig := { e.mig with busy := true, final := final, stage := 0, out := none } }
  if final then (bentsOfEnclave s id).foldl askStop (expelHarts s id) else beginRound s id

/-- The stream that an enclave's migration uses: one to an enclave created with an equal IMGROOT (R333). -/
def streamOf (s : State) (id : Nat) (e : Enclave) : Option (Nat × Stream) := s.streams.find? fun (_, t) => t.enclave == id && t.peerImg == e.imgroot

/-- A write of MIGCTL (R333). -/
def writeMigctl (s : State) (id v : Nat) : State :=
  match enclaveOf s id with
  | none => s
  | some e =>
    let go := bit v 1 || bit v 2
    if go && (e.mig.busy || !e.mig.en || (streamOf s id e).isNone) then s
    else
      let s := setTracking s id (bit v 0)
      if go && bit v 0 then startRound s id (bit v 2) else s

def MigCtl.value (m : MigCtl) : Nat := pack [(1, ofBool m.en), (2, 0), (1, ofBool m.busy), (12, 0), (16, m.round), (32, m.dirty)]

/-- Dirty lines that a choice names written back to HBM from every cache (R336, R337). -/
def cleanHome (s : State) (sel : Nat → Bool) : State :=
  let s := writeBack s (allOf fun x => sel x.line)
  msClean (cleanL2 s fun l => sel l.line) fun m => sel m.line

/-- Dirty lines of an enclave's frames written back (R336). -/
def flushEnclave (s : State) (id : Nat) : State :=
  let fs := ownedFrames s id
  cleanHome s fun line => fs.contains (line / 512)

/-- The next marked line of a round: its address and number (R335). -/
def nextMarked (s : State) (id : Nat) (e : Enclave) : Option (Nat × Nat) :=
  (trackedPages s id e).findSome? fun (va, f) =>
    (s.dirtyMaps.find? fun d => d.enclave == id && d.frame == f).bind fun d =>
      ((upFrom 0 512).find? fun i => d.map.getLsbD i && e.mig.cursor ≤ va + 128 * i).map fun i => (va + 128 * i, f * 512 + i)

/-- Kick-queue and token state (R337). -/
def kickBytes (q : Nat) (k : KickQueue) : List Byte :=
  bodyWords [q, k.ring, k.logd, k.prio, ofBool k.en, k.lasterr, k.nref, k.head, k.tail, k.bonus]
def launchBytes (n : Nat) (l : Launch) : List Byte :=
  bodyWords [n, l.queue, l.next, l.ended, ofBool l.halted, l.hdr.waita.toNat, l.hdr.vala.toNat, l.hdr.waitb.toNat, l.hdr.valb.toNat,
    l.hdr.signal.toNat]

/-- What an item's frame carries, and its bytes; the spec gives no format (log entry 19). -/
def MigItem.kind : MigItem → FrameKind
  | .line va _ => .line (BitVec.ofNat 64 va)
  | .pages _ => .pages
  | .records .. => .records
def MigItem.bytes : MigItem → List Byte
  | .line _ d => d
  | .pages cs => cs.flatMap fun (on, va) => toBytes 8 (va + ofBool on)
  | .records rs ls qs free away =>
    rs.flatMap (·.image) ++ (ls.flatMap fun (n, l) => launchBytes n l) ++ (qs.flatMap fun (q, k) => kickBytes q k) ++ bodyWords (free :: away)

/-- An item on its way: its bytes go to the governor of the stream's port, and it is sent once they have passed (R314, R335). -/
def putItem (s : State) (id : Nat) (st : Nat × Stream) (stage : Nat) (i : MigItem) : State :=
  meter (setEnclave s id fun e => { e with mig := { e.mig with stage := stage, out := some i } }) (dreushDie st.2.port) id i.bytes.length

/-- A line visited: its bit cleared, then the line read from HBM, decrypted and sent with its address. One that fails is found with no bent that
consumes it; what is sent of it is free (R286, R287, R335; log entry 19). -/
def visitLine (s : State) (id : Nat) (st : Nat × Stream) (va line : Nat) : State :=
  let s := { s with dirtyMaps := s.dirtyMaps.map fun d =>
    if d.enclave == id && d.frame == line / 512 then { d with map := d.map &&& ~~~BitVec.twoPow 512 (line % 512) } else d }
  let s := setEnclave s id fun e => { e with mig := { e.mig with cursor := va + 128 } }
  let data := if poisoned s (line * 128) then (upFrom 0 128).map fun i => BitVec.ofNat 8 (Config.unspecified (s.draws + i)) else toBytes 128 (hbmData s line).toNat
  putItem { noteFailure (dramRead s line) line with draws := s.draws + 128 } id st 1 (.line va data)

/-- The end of a round's visits: the pages mapped and freed since the last list are listed (R335). -/
def listPages (s : State) (id : Nat) (e : Enclave) (st : Nat × Stream) : State :=
  putItem (setEnclave s id fun e => { e with mig := { e.mig with changes := [] } }) id st 2 (.pages e.mig.changes)

/-! ### The destination (R336, R338, R339) -/

/-- Addresses of an enclave's restricted pages. -/
def restrictedVas (s : State) (id : Nat) (e : Enclave) : List Nat :=
  ((rawPieces s e.root).filter fun (_, pa) => cacheable pa && (potOf s pa).owner == id && (potOf s pa).rstr).map (·.1)

/-- The ticket that a bent taken over has: its own, or a fresh one where a live bent of the package holds that (R42, R309). -/
def keepTicket (s : State) (t : Nat) : Nat × State :=
  if t != 0 && !liveTicket s t then (t, s)
  else
    let n := drawTicket s (2 * s.bents.length + s.saved.length + 2) s.tickets
    (n, { s with tickets := (n + 1) % 2 ^ 32 })

/-- A record under the names that it has where it is taken over: an enclave, a ticket, and its threads and launch moved up by the numbers
that this package has given already. -/
def SaveRec.renamed (r : SaveRec) (enclave ticket threads launches : Nat) : SaveRec :=
  { r with
    enclave := enclave, ticket := ticket, place := 0, bent := { r.bent with launch := r.bent.launch + launches }
    threads := r.threads.map fun (t, v) => (t + threads, { v with bent := ticket })
    ranges := r.ranges.map fun (t, x) => (t + threads, x)
    cmds := r.cmds.map fun (c, k) => (c, { k with thread := k.thread + threads })
    segs := r.segs.map fun g => { g with ticket := ticket } }

/-- A record taken over by an enclave and stored in its save region. -/
def takeRecord (id threads launches : Nat) (s : State) (r : SaveRec) : State :=
  let (ticket, s) := keepTicket s r.ticket
  match Tab.get? s.launches (r.bent.launch + launches) with
  | some l => storeRecord s (r.renamed id ticket threads launches) l.hdr
  | none => s

/-- Records, launches and queues taken over by an enclave under the counters they have, its bents to wait for restricted pages: all of
them after a restore, those whose launches name them after a migration (R292, R336, R338, R339; log entry 19). -/
def takeOver (s : State) (id : Nat) (rs : List SaveRec) (ls : Tab Launch) (qs : Tab KickQueue) (await : List Nat) (all : Bool) : State :=
  let (n, m) := (s.threadSeq, s.launchSeq)
  let s := setEnclave s id fun e => { e with
    kq := qs.map fun (q, k) => (q, { k with cur := k.cur.map (· + m) })
    awaiting := await, awaitAll := all, saveCounter := rs.foldl (fun n r => max n r.counter) e.saveCounter }
  let s := { s with
    launches := ls.foldl (fun t (k, l) => Tab.set t (k + m) { l with enclave := id }) s.launches
    launchSeq := (Tab.keys ls).foldl (fun a k => max a (k + m + 1)) m
    threadSeq := (rs.flatMap fun r => Tab.keys r.threads).foldl (fun a t => max a (t + n + 1)) n }
  rs.foldl (takeRecord id n m) s

/-! ### The image of a checkpoint (R337, R338) -/

/-- Every entry of a table and of those below it that is not zero: level, address and entry. -/
def tableEntries (mem : Memory) : List (Nat × Nat × Nat) → Nat → Nat → List (Nat × Nat × Nat)
  | [], _, _ => []
  | (l, hi, lo) :: ls, table, base =>
    (listedEntries mem table (2 ^ (hi + 1 - lo))).flatMap fun i =>
      let addr := table + 8 * i
      let e := if cacheable addr then Memory.num mem addr 8 else 0
      let va := base + i * 2 ^ lo
      let w : WalkStep := { level := l, addr := addr, entry := e }
      if e = 0 then []
      else (l, canonical va, e) :: if w.valid && !w.isLeaf && !w.malformed then tableEntries mem ls (nextTable e) va else []

/-- The pages of an image: every unrestricted TYPE 01 page of the enclave, by frame (R337). -/
def imagePages (s : State) (id : Nat) : List (Nat × List Host.Cell) :=
  (trackedFrames s id).map fun f => (f, Memory.range s.mem (f * 65536) 65536)

/-- Bytes in units of 128, the last one filled up with zeros. -/
def units : Nat → List Byte → List (List Byte)
  | 0, _ => []
  | fuel + 1, bs => if bs.isEmpty then [] else fitBytes 128 (bs.take 128) :: units fuel (bs.drop 128)

/-- A unit in its encoding, named first: the base and the differences from it, or the unit whole (R196, R338). -/
def unitBytes (bs : List Byte) : List Byte :=
  let ws := numsOf bs 4 32
  let ds := numsOf bs 8 16
  match encBytes bs with
  | .zero => toBytes 1 0
  | .base32 => toBytes 1 1 ++ toBytes 4 (ws.headD 0) ++ toBytes 47 (pack ((ws.drop 1).map fun (x : Nat) => (12, wrap 12 ((x : Int) - (ws.headD 0 : Nat)))))
  | .base64 => toBytes 1 2 ++ toBytes 8 (ds.headD 0) ++ toBytes 30 (pack ((ds.drop 1).map fun (x : Nat) => (16, wrap 16 ((x : Int) - (ds.headD 0 : Nat)))))
  | .whole => toBytes 1 3 ++ bs

/-- Bytes as their coded units. -/
def coded (bs : List Byte) : List Byte := (units (bs.length / 128 + 1) bs).flatMap unitBytes

/-- A register of a team at the width its threads' live-map entries save: nothing where none lists it, once with a flag when its 64
positions are equal, else every value (R85, R338). -/
def SaveRec.teamRegister (r : SaveRec) (team : Tab Thread) (k : Nat) : List Byte :=
  let w := team.foldl (fun m (t, v) => max m (r.width t v k)) 0
  let vs := team.map fun (_, v) => Tab.getD v.regs k 0
  if w = 0 then []
  else if team.length = 64 && vs.all (· == vs.headD 0) then toBytes 1 1 ++ toBytes w (vs.headD 0).toNat
  else toBytes 1 0 ++ coded (vs.flatMap fun x => toBytes w x.toNat)

/-- A record as an image holds it: threads' states, teams' registers and those of the matrix thread, which is of no team, then the
scratchpad, the copy command records and the quarter's state (R291, R337, R338). -/
def SaveRec.reduced (r : SaveRec) (n : Nat) : List Byte :=
  let vs := r.threads.filter fun (_, v) => !v.control
  let teams := (vs.map fun (_, v) => (v.block, v.team)).eraseDups
  bodyWords [r.enclave, r.ticket, r.counter, ofBool r.full, r.bent.placement] ++
    r.threads.flatMap (fun (t, v) => threadState v ++ toBytes 8 (doneBytes r.cmds t)) ++
    (teams.flatMap fun (b, t) => (upFrom 0 n).flatMap (r.teamRegister (vs.filter fun (_, v) => v.block == b && v.team == t))) ++
    ((r.threads.filter fun (_, v) => v.control).flatMap fun (_, v) =>
      coded ((upFrom 0 256).flatMap fun k => toBytes 4 (Tab.getD v.regs k 0).toNat)) ++
    ((Tab.values r.bent.blocks).flatMap fun k => k.scratch.flatMap fun c => toBytes 4 c.1 ++ [c.2]) ++ r.unitsBytes

/-- A page's contents in full. -/
def pageBytes (cs : List Host.Cell) : List Byte := Memory.bytes cs 0 65536

/-- What an image's seal covers (R337, R338). -/
def Image.plain (m : Image) : List Byte :=
  (m.saves.flatMap fun r => r.reduced (((Tab.get? m.launches r.bent.launch).map (·.hdr.regs)).getD 0)) ++
    (m.pages.flatMap fun (f, cs) => toBytes 8 f ++ coded (pageBytes cs)) ++
    (m.tables.flatMap fun (l, va, e) => bodyWords [l, va, e]) ++
    (m.queues.flatMap fun (q, k) => kickBytes q k) ++ m.launches.flatMap fun (n, l) => launchBytes n l

/-- The seal of an image under a key: the epoch is its nonce, the enclave and the epoch its authenticated bytes (R338). -/
def Image.seal (m : Image) (key : Nat) : List Byte × BitVec 128 :=
  Config.gcmSeal key m.epoch (bodyWords [m.enclave, m.epoch]) m.plain

/-- Whether an image's tag verifies under a key (R338; log entry 49). -/
def Image.verifies (m : Image) (key : Nat) : Bool := m.seal key == (m.sealed, m.tag)

/-- The image of an enclave under its checkpoint key (R337, R338). -/
def imageOf (s : State) (id : Nat) (e : Enclave) (key : Nat) : Image :=
  let m : Image :=
    { enclave := id, epoch := s.root.epoch, pages := imagePages s id, tables := tableEntries s.mem tableLevels e.root 0
      saves := s.saved.filter (·.enclave == id), launches := s.launches.filter fun (_, l) => l.enclave == id, queues := e.kq
      sealed := [], tag := 0 }
  { m with sealed := (m.seal key).1, tag := (m.seal key).2 }

/-- Every cache written back (R337). -/
def flushAll (s : State) : State := cleanHome s fun _ => true

/-- The images of a package whose bents are all saved, at the next epoch, on their way to the file store: the bytes of restricted
enclaves are metered at the die of the port they leave through, which is free (R314, R337, R338; log entry 49). -/
def takeCheckpoint (s : State) : State :=
  let s := flushAll s
  let s := { s with root := { s.root with epoch := (s.root.epoch + 1) % 2 ^ 64 } }
  let images := s.enclaves.filterMap fun (id, e) => e.ckpt.map fun (key, _) => imageOf s id e key
  let io := ethernetDie (Config.pick s.draws % 4)
  let s := { s with images := s.images ++ images, draws := s.draws + 1, mgmt := { s.mgmt with writing := true } }
  images.foldl (fun s m => meter s io m.enclave (m.sealed.length + 16)) s

/-- A checkpoint's writes: dispatch goes on when every byte has passed (R316, R337). -/
def endCheckpoint (s : State) : State :=
  if (Tab.keys s.enclaves).all fun id => passed s 0 id && passed s 1 id then
    { s with mgmt := { s.mgmt with ckpt := false, writing := false } }
  else s

/-! ### Restore (R338, R339) -/

/-- A frame taken, zeroed, from an enclave's stack for a page of its own, none when the stack is empty. -/
def takeFrame (s : State) (id : Nat) : Option (Nat × State) :=
  (enclaveOf s id).bind fun e => match e.stack with
    | [] => none
    | f :: rest =>
      let s := setEnclave (zeroFrame s f) id fun e => { e with stack := rest }
      some (f, { s with pot := Tab.set s.pot f { owner := id, slot := e.slot.getD 0, type := 1, rstr := false } })

/-- Tables added from the stack until one stands at a level on an address's walk (log entry 19). -/
def ensureTable (s : State) (id va level : Nat) : Nat → State
  | 0 => s
  | fuel + 1 =>
    match enclaveOf s id with
    | none => s
    | some e => match (walk s.mem va tableLevels e.root).getLast?, e.stack with
      | some w, f :: rest =>
        if w.valid || w.level = 0 || w.level ≤ level then s
        else match addTable (setEnclave s id fun e => { e with stack := rest }) id (e.slot.getD 0) e f va with
          | .ok s => ensureTable s id va level fuel
          | .error _ => s
      | _, _ => s

/-- The 64 KiB pieces of a leaf entry of an image: address, frame and the entry's other bits. -/
def imagePieces (t : Nat × Nat × Nat) : List (Nat × Nat × Nat) :=
  let (l, va, e) := t
  let w : WalkStep := { level := l, addr := 0, entry := e }
  if w.valid && w.isLeaf && cacheable (leafFrame e) then
    (upFrom 0 (if l = 1 then 32 else 1)).map fun i => (va + 65536 * i, frameOf (leafFrame e) + i, bits e 5 0 + bits e 63 38 * 2 ^ 38)
  else []

/-- A page of an image put back: into the frame mapped at one of its addresses, or into one from the stack. The frame it now has, if
there was one (R339; log entry 19). -/
def restoreImagePage (s : State) (id : Nat) (pieces : List (Nat × Nat × Nat)) (p : Nat × List Host.Cell) : State × Option Nat :=
  match enclaveOf s id with
  | none => (s, none)
  | some e =>
    let here := pieces.findSome? fun (va, f, _) =>
      if f != p.1 then none else match translate s noCore id .read va with
        | .ok q => if !q.device && frameOwned s id e.slot (q.at va) && !(potOf s (q.at va)).rstr then some (frameOf (q.at va)) else none
        | _ => none
    let va := ((pieces.find? fun (_, f, _) => f == p.1).map (·.1)).getD 0
    let put (s : State) (f : Nat) : State := { trackPage (zeroFrame (dropFrame s f) f) id va f with mem := Memory.setRange s.mem (f * 65536) 65536 p.2 }
    match here with
    | some f => (put s f, some f)
    | none => match takeFrame s id with
      | some (f, s) => (put s f, some f)
      | none => (s, none)

/-- A level-0 entry written where none is valid. -/
def placeEntry (s : State) (id va entry : Nat) : State :=
  let s := ensureTable s id va 0 4
  match (enclaveOf s id).bind fun e => level0 s e.root va with
  | some (addr, old) => if bit old 0 then s else writeEntry s addr entry
  | none => s

/-- An entry of an image's tables put back: a table where it names one, a leaf to the frame its page has now, a demand-zero entry as it
is (R220, R337). -/
def restoreEntry (s : State) (id : Nat) (frames : List (Nat × Nat)) (t : Nat × Nat × Nat) : State :=
  let (l, va, e) := t
  let w : WalkStep := { level := l, addr := 0, entry := e }
  if w.demandZero then placeEntry s id va e
  else if w.valid && !w.isLeaf then ensureTable s id va (l - 1) 4
  else (imagePieces t).foldl (fun s (va, f, attr) => match frames.find? fun x => x.1 == f with
    | some (_, g) => placeEntry s id va (g * 64 + attr)
    | none => s) s

/-- An image restored into its enclave: pages, tables, launches, queues, and records under their counters; the restricted pages that
its tables name are waited for (R338, R339). -/
def restoreImage (s : State) (id : Nat) (m : Image) : State :=
  let pieces := m.tables.flatMap imagePieces
  let (s, frames) := m.pages.foldl (fun (s, fs) p => match restoreImagePage s id pieces p with
    | (s, some f) => (s, (p.1, f) :: fs)
    | (s, none) => (s, fs)) (s, [])
  let s := m.tables.foldl (fun s t => restoreEntry s id frames t) s
  let s := setEnclave s id fun e => { e with ckpt := e.ckpt.map fun (k, _) => (k, (m.epoch + 1) % 2 ^ 64) }
  let away := pieces.filter fun (_, f, attr) => !(m.pages.any fun p => p.1 == f) && attr < 2 ^ 38
  takeOver s id m.saves m.launches m.queues (away.map (·.1)) true

/-- An image is accepted by the enclave whose checkpoint key verifies its tag, when its epoch is not below the minimum (R338). -/
def execCheckpointRestore (image : Nat) (s : State) : Result :=
  match s.images[image]? with
  | none => .next s
  | some m =>
    match s.enclaves.find? fun (_, e) => e.ckpt.any fun (k, low) => decide (low ≤ m.epoch) && m.verifies k with
    | none => .next s
    | some (id, _) => if (bentsOfEnclave s id).isEmpty && !(s.saved.any (·.enclave == id)) then .next (restoreImage s id m) else .next s

/-! ### What a destination receives (R321, R335, R336) -/

/-- Whether an address of an enclave has a page, or is to have one at its first touch. -/
def pageAt (s : State) (id va : Nat) : Bool :=
  match translate s noCore id .read va with
  | .ok p => !p.device
  | .fill _ => true
  | _ => false

/-- A page mapped at an address as the first touch of a demand-zero page maps it, with a frame and tables of the enclave's stack (R220; log
entry 19). -/
def mapPage (s : State) (id va : Nat) : State :=
  match takeFrame s id with
  | none => s
  | some (f, s') =>
    let s' := placeEntry s' id va (freshLeaf f)
    match (enclaveOf s' id).bind fun e => level0 s' e.root va with
    | some (_, leaf) => if leaf = freshLeaf f then trackPage s' id va f else s
    | none => s

/-- A page of an enclave freed, where it is one of its own and not restricted. -/
def unmapPage (s : State) (id va : Nat) : State :=
  match (enclaveOf s id).bind fun e => (level0 s e.root va).map fun x => (e, x) with
  | none => s
  | some (e, addr, leaf) =>
    if bit leaf 0 && frameOwned s id e.slot (leafFrame leaf) && !(potOf s (leafFrame leaf)).rstr then freePage s id va (frameOf (leafFrame leaf)) addr
    else s

/-- A line received, its page mapped where it is not. -/
def receiveLine (s : State) (id va : Nat) (d : List Byte) : State :=
  match touch (if pageAt s id va then s else mapPage s id (va / 65536 * 65536)) noCore id .read va with
  | (s, .ok p) => if p.device || p.fmt != 0 || va % 128 != 0 || d.length != 128 then s else writeHome s 0 (p.at va) d
  | (s, _) => s

/-- What an enclave's root does with an item that it receives. A page's last change in a list decides: lines of it may have come ahead of
the list (log entry 19). -/
def receiveItem (s : State) (id : Nat) : MigItem → State
  | .line va d => receiveLine s id va d
  | .pages cs => (cs.foldl (fun (t : Tab Bool) (on, va) => Tab.set t va on) []).foldl (fun s (va, on) =>
      if !on then unmapPage s id va else if pageAt s id va then s else mapPage s id va) s
  | .records rs ls qs _ away => takeOver s id rs ls qs away false

/-- The records of a frame from another package, none where its bytes are no such records. Nothing is known of it: the spec gives the
records no format (log entry 19). -/
opaque readRecords : List Byte → Option MigItem

/-- The item that a frame of a migration carries. -/
def itemOf (bs : List Byte) : FrameKind → Option MigItem
  | .data _ => none
  | .line va => some (.line va.toNat bs)
  | .pages => some (.pages ((numsOf bs 8 (bs.length / 8)).map fun x => (bit x 0, x / 2 * 2)))
  | .records => readRecords bs

/-- A verified frame acts: bytes go to the enclave's memory, and what a migration sends to an enclave with an equal IMGROOT (R321, R333). -/
def receiveFrame (s : State) (t : Stream) (kind : FrameKind) (bs : List Byte) : State :=
  match kind, itemOf bs kind with
  | .data va, _ => (agentWriteVa s .io t.enclave va.toNat bs).1
  | _, some i => if (enclaveOf s t.enclave).any (·.imgroot == t.peerImg) then receiveItem s t.enclave i else s
  | _, none => s

/-- A frame on a stream: one that its key opens acts, one whose tag fails is discarded. Without a stream it is refused (R321). -/
def execDreushFrameReceive (stream : Nat) (tag : BitVec 128) (kind : FrameKind) (sealed : List Byte) (s : State) : Result :=
  match Tab.get? s.streams stream with
  | none => .next s
  | some t => match t.openFrame s kind sealed tag with
    | none => .next (badFrame s stream t)
    | some bs => .next (receiveFrame { s with streams := Tab.set s.streams stream { t with got := t.got + 1, failures := 0 } } t kind bs)

/-! ### A round's steps (R335, R336) -/

/-- An item whose bytes have passed leaves as a sealed frame. A destination on this package receives it at once. With the records the source
enclave is destroyed (R307, R326, R336; log entry 19). -/
def sendItem (s : State) (id : Nat) (st : Nat × Stream) (i : MigItem) : State :=
  let frame := Config.gcmSeal st.2.key (st.2.sendNonce s) (frameHeader i.kind) i.bytes
  let s := { s with
    streams := Tab.set s.streams st.1 { st.2 with sent := st.2.sent + 1 }
    migrated := s.migrated ++ [{ stream := st.1, item := i, sealed := frame.1, tag := frame.2 }] }
  let s := match i with
    | .records .. => destroy s id
    | _ => setEnclave s id fun e => { e with mig := { e.mig with out := none } }
  if st.2.peer = s.mgmt.pkid && (enclaveOf s st.2.peerEnclave).isSome then receiveItem s st.2.peerEnclave i else s

/-- The records of an enclave whose final round is over (R336). -/
def finalItem (s : State) (id : Nat) (e : Enclave) : MigItem :=
  .records (s.saved.filter (·.enclave == id)) (s.launches.filter fun (_, l) => l.enclave == id) e.kq e.stack.length (restrictedVas s id e)

/-- A round's next step, with nothing on its way. -/
def roundStep (s : State) (id : Nat) (e : Enclave) (st : Nat × Stream) : State :=
  match e.mig.stage with
  | 0 => if (bentsOfEnclave s id).isEmpty then beginRound (flushEnclave s id) id else s
  | 1 => match nextMarked s id e with
    | some (va, line) => visitLine s id st va line
    | none => listPages s id e st
  | _ =>
    if e.mig.final then putItem s id st 3 (finalItem s id e)
    else setEnclave s id fun e => { e with mig := { e.mig with busy := false, stage := 0, round := (e.mig.round + 1) % 65536 } }

/-- A step of a round: an item on its way leaves once its bytes have passed the governor. While lines are marked beyond the last visited,
the next one is visited; then comes the list, and the round ends, or in a final one the records go. A final round visits its first line when
every bent has been saved and the caches are written back (R314, R335, R336). -/
def execMigrationRoundDone (enclave : Nat) (s : State) : Result :=
  match enclaveOf s enclave with
  | none => .next s
  | some e => match streamOf s enclave e with
    | none => .next s
    | some st =>
      if !e.mig.busy then .next s
      else match e.mig.out with
        | some i => .next (if passed s (dreushDie st.2.port) enclave then sendItem s enclave st i else s)
        | none => .next (roundStep s enclave e st)

end Sys2Proof.Machine
end

