-- ==== Sys2Proof/Machine/Device.lean ====
section
/-! DEFINITION. Device space: its map, its registers and who may write them, plumb snapshots, and what a sill core's
accesses do (R30-R33, R194, R199, R327-R330, R340-R345, R354-R357, R510, R511). -/

namespace Sys2Proof.Machine

/-! ### The map (R344) -/

/-- A register of device space, by the unit that holds it. -/
inductive DevReg where
  | clbudget (k : Nat) | clmode (k : Nat) | colown (col : Nat) | coresvc (k : Nat)
  | snap (u : SnapUnit) (value : Bool)
  | wmask (n p : Nat) | occ (n p : Nat) | wgate (n : Nat) | faultLog (n entry word : Nat)
  | msGate (m : Nat) | pcfg (p : Nat) | egcfg (g id : Nat) | migctl (id : Nat)
  | mgid | mgstat | mgsem | pkctl | pkid | tstat (k : Nat) | pkgSnap (value : Bool) | irq (k : Nat) (data : Bool)
  | mtimecmp (h : Nat) | log (off : Nat) | cxl (off : Nat)
  deriving DecidableEq, Repr

def clusterBlock : Nat := 0x008100000000
def sliceBlock : Nat := 0x008101000000
def msBlock : Nat := 0x008102000000
def pcfgBlock : Nat := 0x008103000000
def egcfgBlock : Nat := 0x008104000000
def migctlBlock : Nat := 0x008105000000
def packageBlock : Nat := 0x008106000000
def sillBlock : Nat := 0x008107000000
def logBlock : Nat := 0x008110000000
def cxlBlock : Nat := 0x010000000000

/-- A register of a cluster block. -/
def clusterReg (k off : Nat) : Option DevReg :=
  if off = 0 then some (.clbudget k)
  else if off = 8 then some (.clmode k)
  else if 0x10 ≤ off ∧ off < 0x30 then some (.colown (quarterId k ((off - 0x10) / 8)))
  else if off = 0x40 then some (.coresvc k)
  else if 0x800 ≤ off ∧ off < 0xC00 then some (.snap (.bay (64 * k + (off - 0x800) / 16)) (off % 16 == 8))
  else if 0xC00 ≤ off ∧ off < 0xC40 then some (.snap (.quarter (quarterId k ((off - 0xC00) / 16))) (off % 16 == 8))
  else none

/-- A register of an L2 slice block. -/
def sliceReg (n off : Nat) : Option DevReg :=
  if off < 0x800 then some (.wmask n (off / 8))
  else if off < 0x1000 then some (.occ n ((off - 0x800) / 8))
  else if off = 0x1000 then some (.wgate n)
  else if 0x2000 ≤ off ∧ off < 0x2800 then some (.faultLog n ((off - 0x2000) / 32) (off % 32 / 8))
  else if off = 0x3000 then some (.snap (.slice n) false)
  else if off = 0x3008 then some (.snap (.slice n) true)
  else none

/-- A register of the package block. The target and data of interrupt source k stand at 0x400 + 16k, a place that the spec does not give
(R342; log entry 14). -/
def packageReg (off : Nat) : Option DevReg :=
  if off = 0 then some .mgid
  else if off = 0x008 then some .mgstat
  else if off = 0x010 then some .mgsem
  else if off = 0x018 then some .pkctl
  else if off = 0x020 then some .pkid
  else if 0x100 ≤ off ∧ off < 0x130 then some (.tstat ((off - 0x100) / 8))
  else if 0x200 ≤ off ∧ off < 0x220 then some (.snap (.governor ((off - 0x200) / 16)) (off % 16 == 8))
  else if off = 0x300 then some (.pkgSnap false)
  else if off = 0x308 then some (.pkgSnap true)
  else if 0x400 ≤ off ∧ off < 0x460 then some (.irq ((off - 0x400) / 16) (off % 16 == 8))
  else none

/-- The register an aligned 64-bit address names; none where no register is assigned, and in the kick pages, which have their
own rules. -/
def devReg (a : Nat) : Option DevReg :=
  if a % 8 ≠ 0 then none
  else if a < clusterBlock then none
  else if a < clusterBlock + 40 * 65536 then clusterReg ((a - clusterBlock) / 65536) (a % 65536)
  else if sliceBlock ≤ a ∧ a < sliceBlock + 768 * 16384 then sliceReg ((a - sliceBlock) / 16384) (a % 16384)
  else if msBlock ≤ a ∧ a < msBlock + 256 * 4096 then if a % 4096 = 0 then some (.msGate ((a - msBlock) / 4096)) else none
  else if pcfgBlock ≤ a ∧ a < pcfgBlock + 2048 then some (.pcfg ((a - pcfgBlock) / 8))
  else if egcfgBlock ≤ a ∧ a < egcfgBlock + 2 * 524288 then some (.egcfg ((a - egcfgBlock) / 524288) (a % 524288 / 8))
  else if migctlBlock ≤ a ∧ a < migctlBlock + 524288 then some (.migctl (a % 524288 / 8))
  else if packageBlock ≤ a ∧ a < packageBlock + 65536 then packageReg (a % 65536)
  else if sillBlock ≤ a ∧ a < sillBlock + 4 * 65536 then
    if a % 65536 < 256 then some (.mtimecmp (hartId ((a - sillBlock) / 65536) (a % 65536 / 8))) else none
  else if logBlock ≤ a ∧ a < logBlock + 2 ^ 26 then some (.log (a - logBlock))
  else if cxlBlock ≤ a ∧ a < cxlBlock + 2 ^ 40 then some (.cxl (a - cxlBlock))
  else none

/-! ### Plumb (R357) -/

/-- Number of a unit among the units with a snapshot pair. -/
def unitKey : SnapUnit → Nat
  | .bay b => b
  | .quarter q => 4096 + q
  | .slice n => 8192 + n
  | .governor g => 16384 + g

/-- Every unit with a snapshot pair. -/
def allUnits : List SnapUnit :=
  (upFrom 0 2560).map .bay ++ (upFrom 0 160).map .quarter ++ (upFrom 0 768).map .slice ++ (upFrom 0 2).map .governor

/-- Contexts parked in a bay (R82). -/
def parkedIn (s : State) (bay : Nat) : Nat :=
  ((Tab.values s.threads).filter fun v => bayOf s v == some bay && match v.status with
    | .bar _ | .tbar _ | .waitc _ | .sleep _ | .cbwait _ _ | .joinh _ => true
    | _ => false).length

/-- A unit's own counter. -/
def unitCounter (s : State) : SnapUnit → Nat
  | .bay b => arithCycles s (b / 4)
  | .quarter q => arithCycles s (controlUnit q)
  | .slice n => fabricCycles s n
  | .governor g => governorTicks s g

/-- SNAPVAL of a unit. -/
def unitValue (s : State) : SnapUnit → Nat
  | .bay b => pack [(16, parkedIn s b), (16, (runnableIn s b).length), (32, (bayState s b).issued)]
  | .quarter q => pack [(8, (quarterOf s q).ops.length), (24, 0), (32, (quarterOf s q).accepted)]
  | .slice n => pack [(16, (s.monitors.filter fun m => homeSlice (m.1 * 128) == n).length),
      (16, (s.tenons.filter fun r => r.slice == n && r.queued).length), (32, (sliceOf s n).served)]
  | .governor g => (s.egress.filter fun (k, _) => k / 65536 == g).foldl (fun n (_, e) => n + e.waiting.length) 0

/-- SNAPCNT: the plumb number over the low 48 bits of a counter. -/
def snapCount (plumb counter : Nat) : Nat := pack [(48, counter), (16, plumb)]

/-- A trigger at the controller: numbered and sent to every unit, or dropped while the previous one is unacknowledged. -/
def execPlumbTrigger (s : State) : Result :=
  if s.mgmt.triggers = 0 then .next s
  else
    let m := { s.mgmt with triggers := s.mgmt.triggers - 1, fired := (s.mgmt.fired + 1) % 2 ^ 32 }
    let m := if m.unacked.isEmpty then { m with plumb := (m.plumb + 1) % 65536, unacked := allUnits }
      else { m with dropped := min (2 ^ 32 - 1) (m.dropped + 1) }
    .next { s with mgmt := { m with pkgSnap := snapCount m.plumb (governorTicks s 0) } }

/-- A unit latches its pair and acknowledges. -/
def execSnapshotLatch (u : SnapUnit) (s : State) : Result :=
  if !s.mgmt.unacked.contains u then .next s
  else .next { s with mgmt := { s.mgmt with
    unacked := s.mgmt.unacked.filter (· != u)
    snaps := Tab.set s.mgmt.snaps (unitKey u) (snapCount s.mgmt.plumb (unitCounter s u), unitValue s u) } }

/-- Whether the trace fabric lets a record of a world pass: not the root's, and not that of an enclave without DEBUG (R324). -/
def tracePasses (s : State) (world : Nat) : Bool := world != 0 && (enclaveOf s world).any (·.debug)

/-- A trace record that the comparator would match reaches the fabric: dropped, or it enters the trace and fires a plumb trigger (R324,
R357). -/
def traceRecord (s : State) (world : Nat) (content : Word) : State :=
  if tracePasses s world then fireTrigger { s with trace := s.trace ++ [{ world := world, content := content }] } else s

/-- World of the record that comes next, the root's or that of an enclave, and what it says: both are free (log entry 2). -/
def traceWorld (s : State) : Nat := (0 :: Tab.keys s.enclaves).getD (Config.pick s.draws % (s.enclaves.length + 1)) 0
def traceContent (s : State) : Word := BitVec.ofNat 32 (Config.unspecified s.draws)

def execTraceComparatorMatch (s : State) : Result :=
  .next (traceRecord { s with draws := s.draws + 1 } (traceWorld s) (traceContent s))

/-- Whether a bay column belongs to a partition that is not debug-enabled. -/
def hiddenColumn (s : State) (col : Nat) : Bool :=
  bit (Tab.getD s.colown col 0) 0 && !partDebug s (bits (Tab.getD s.colown col 0) 15 8)

/-- Whether a unit's snapshots read as zero (R357). -/
def snapHidden (s : State) : SnapUnit → Bool
  | .bay b => hiddenColumn s (quarterId (b / 64) (b % 4))
  | .quarter q => hiddenColumn s q
  | _ => false

/-! ### Reads (R345, R354, R510) -/

/-- A word of an entry of a slice's fault log (R510). -/
def faultWord (s : State) (n entry word : Nat) : Nat :=
  match Tab.get? (sliceOf s n).log entry with
  | none => 0
  | some f => match word with
    | 0 => f.paddr
    | 1 => pack [(8, f.code), (24, 0), (16, f.enclave)]
    | 2 => pack [(32, f.ticket), (6, f.slot)]
    | _ => pack [(32, f.seq)]

/-- Half-way units of a slice that a partition filled (R330, R331). -/
def occupancy (s : State) (n p : Nat) : Nat :=
  (s.l2.filter fun l => l.slice == n && l.filler == p).foldl (fun k l => k + l.units) 0

/-- The 8 bytes of the log ring at an offset: record r stands in entry r mod 2^19. -/
def logWord (s : State) (off : Nat) : Nat :=
  match s.root.log.find? fun r => r.seq % logRing == off / 128 with
  | some r => ofBytes ((r.bytes.drop (off % 128)).take 8)
  | none => 0

/-- What a register reads. -/
def regRead (s : State) : DevReg → Nat
  | .clbudget k => (clusterOfPkg s k).budget
  | .clmode k => ofBool (clusterOfPkg s k).fused
  | .colown c => Tab.getD s.colown c 0
  | .coresvc k => pack [(16, (clusterOfPkg s k).csvc.toNat), (4, (clusterOfPkg s k).qsvc.toNat)]
  | .snap u v =>
    let p := if snapHidden s u then (0, 0) else Tab.getD s.mgmt.snaps (unitKey u) (0, 0)
    if v then p.2 else p.1
  | .wmask n p => pack [(16, (Tab.getD (sliceOf s n).fill p 0xFFFF).toNat), (1, ofBool (Tab.getD (sliceOf s n).comp p false))]
  | .occ n p => occupancy s n p
  | .wgate n => (sliceOf s n).gate.toNat
  | .faultLog n e w => faultWord s n e w
  | .msGate m => (Tab.getD s.msGate m 0).toNat
  | .pcfg p => pack [(16, (Tab.getD s.pcfg p (0, false)).1), (1, ofBool (Tab.getD s.pcfg p (0, false)).2)]
  | .egcfg g id => (egressOf s g id).value
  | .migctl id => ((enclaveOf s id).map fun e => e.mig.value).getD 0
  | .mgid => pack [(24, 0), (8, Config.fuseStep.toNat), (16, 0x0640), (16, 0x1B7E)]
  | .mgstat => pack [(3, s.mgmt.state), (5, 0), (2, s.mgmt.lastrst)]
  | .mgsem => pack [(1, ofBool (s.mgmt.semOwner != 0)), (2, s.mgmt.semOwner)]
  | .pkctl => 0
  | .pkid => s.mgmt.pkid
  | .tstat k => pack [(8, (tstatOf s k).temp), (6, 0), (1, ofBool (tstatOf s k).throt), (1, ofBool (tstatOf s k).trip)]
  | .pkgSnap v => if v then pack [(32, s.mgmt.fired), (32, s.mgmt.dropped)] else s.mgmt.pkgSnap
  | .irq k data => let t := Tab.getD s.irq k (0, 0); if data then t.2 else t.1
  | .mtimecmp h => ((hartOf s h).map (·.mtimecmp.toNat)).getD 0
  | .log off => logWord s off
  | .cxl off => if Config.cxlPort then Memory.num s.cxl off 8 else 0

/-- Registers that answer while STATE is below READY (R354). -/
def DevReg.early : DevReg → Bool
  | .mgid | .mgstat => true
  | _ => false

/-- An aligned 64-bit read of device space outside the kick pages; an unassigned address reads zero (R345, R354). -/
def deviceRead (s : State) (a : Nat) : Nat :=
  match devReg a with
  | none => 0
  | some r => if s.mgmt.state < stReady && !r.early then 0 else regRead s r

/-! ### Writes -/

/-- Whether a bay column holds a block, or its quarter is bound (R328). -/
def columnBusy (s : State) (col : Nat) : Bool :=
  ((Tab.values s.bents).any fun b => (Tab.values b.blocks).any fun k => !k.ended && quarterId (pkgCluster k.core) k.bay == col) ||
    (quarterOf s col).bound.isSome

/-- L1 ways of a column: its bay's on every core of the cluster (R189, R328). -/
def inColumn (col : Nat) (x : L1Line) : Bool :=
  x.bay == col % 4 && (x.cache == Config.cores + col / 4 || (x.cache < Config.cores && pkgCluster x.cache == col / 4))

/-- A block without the contents of a column's banks: those of its own banks that lie among them are zero again (R78, R328). -/
def Block.loseBanks (k : Block) (col : Nat) : Block :=
  if pkgCluster k.core != col / 4 then k
  else { k with scratch := k.scratch.filter fun c => !((k.banks[c.1 / 16384]?).any fun b => b / 8 == col % 4) }

/-- The banks of a column on every core of its cluster lose their contents, whoever holds them (R328). -/
def loseBanks (s : State) (col : Nat) : State :=
  { s with bents := s.bents.map fun (t, b) => (t, { b with blocks := b.blocks.map fun (i, k) => (i, k.loseBanks col) }) }

/-- A write of COLOWN (R328). -/
def writeColown (s : State) (col v : Nat) : State :=
  let new := pack [(1, ofBool (bit v 0)), (7, 0), (8, bits v 15 8)]
  if columnBusy s col then s
  else if new = Tab.getD s.colown col 0 then s
  else { loseBanks (flushL1 s (inColumn col)) col with colown := Tab.set s.colown col new }

/-- A write of CLMODE: ignored while the cluster holds a bent; a change empties its L1s (R194). -/
def writeClmode (s : State) (k : Nat) (fused : Bool) : State :=
  if (Tab.values s.bents).any (·.cluster == k) || (clusterOfPkg s k).fused == fused then s
  else
    let s := flushL1 s fun x => x.cache == Config.cores + k || (x.cache < Config.cores && pkgCluster x.cache == k)
    { s with clusters := Tab.update s.clusters k Cluster.reset fun c => { c with fused := fused } }

/-- A write of WMASK, ignored when the effective mask would be empty (R330). -/
def writeWmask (s : State) (n p v : Nat) : State :=
  if effective s n (bits v 15 0) = 0 then s
  else
    let r := sliceOf s n
    { s with sliceRegs := Tab.set s.sliceRegs n {
        r with fill := Tab.set r.fill p (BitVec.ofNat 16 v), comp := Tab.set r.comp p (bit v 16) } }

/-- A write of WGATE: refused when a way is protected or some partition's effective mask would be empty; gated ways are
written back and hit nothing (R199, R308). -/
def writeWgate (s : State) (n v : Nat) : State :=
  let r := { sliceOf s n with gate := BitVec.ofNat 16 v }
  let s' := { s with sliceRegs := Tab.set s.sliceRegs n r }
  let masks := 0xFFFF :: (Tab.values r.fill).map (·.toNat)
  if protectedWays s &&& bits v 15 0 ≠ 0 || masks.any (fun m => effective s' n m == 0) then s
  else dropL2 s' fun l => l.slice == n && r.gate.getLsbD l.way

/-- A write of a memory-side cache slice's WGATE: the lines of gated ways are written back and leave (R199). -/
def writeMsGate (s : State) (m v : Nat) : State :=
  let gate := BitVec.ofNat 16 v
  { msDrop s (fun l => l.slice == m && gate.getLsbD l.way) with msGate := Tab.set s.msGate m gate }

/-- Whether every enclave that names a partition has the debug attribute (R323, R329). -/
def debuggable (s : State) (p : Nat) : Bool := (Tab.values s.enclaves).all fun e => !e.partmask.getLsbD p || e.debug

/-- Who acts, as the access log names it (R317). -/
def actorOf : Source → Nat
  | .port p => 1 + p
  | .hart _ => 3
  | .host _ => 0

/-- A write of PCFG (R329). One that sets DBG is an attempt at debugging, and is logged whether allowed or refused (R323). -/
def writePcfg (s : State) (src : Source) (p v : Nat) : State :=
  if !bit v 16 then { s with pcfg := Tab.set s.pcfg p (bits v 15 0, false) }
  else
    let ok := debuggable s p
    let s := logAppend s 0x06 0 (actorOf src) (bodyWords [p, ofBool ok])
    if ok then { s with pcfg := Tab.set s.pcfg p (bits v 15 0, true) } else s

/-- A write of MGSEM by a port: a take when it is free, or from port 1 within the tick it took it; a release by its holder
(R354, R355). -/
def writeMgsem (s : State) (port v : Nat) : State :=
  let m := s.mgmt
  let now := governorTicks s 0
  if bit v 0 then
    if m.semOwner = 0 ∨ (port = 0 ∧ m.semOwner = 2 ∧ m.semTick = some now) then
      { s with mgmt := { m with semOwner := port + 1, semLast := now, semTick := some now } }
    else s
  else if m.semOwner = port + 1 then { s with mgmt := { m with semOwner := 0 } }
  else s

/-- A write of PKCTL: a plumb trigger, then a reset (R355-R357). -/
def writePkctl (s : State) (v : Nat) : State :=
  let s := if bit v 2 then fireTrigger s else s
  match bits v 1 0 with
  | 1 => startReset s warmKind
  | 2 => startReset s coldKind
  | _ => s

/-- A new deadline; the interrupt is pending while the counter is at or past it (R342). -/
def Hart.deadline (h : Hart) (v now : Nat) : Hart := { h with mtimecmp := BitVec.ofNat 64 v, mtip := v % 2 ^ 64 ≤ now }

/-- What a write does at a register. Read-only registers and reserved bits ignore it (R6). -/
def regWrite (s : State) (src : Source) (v : Nat) : DevReg → State
  | .clbudget k => if 20 ≤ bits v 4 0 ∧ bits v 4 0 ≤ 28 then
      { s with clusters := Tab.update s.clusters k Cluster.reset fun c => { c with budget := bits v 4 0 } } else s
  | .clmode k => writeClmode s k (bit v 0)
  | .colown c => writeColown s c v
  | .coresvc k => { s with clusters := Tab.update s.clusters k Cluster.reset fun c =>
      { c with csvc := BitVec.ofNat 16 v, qsvc := BitVec.ofNat 4 (v / 65536) } }
  | .wmask n p => writeWmask s n p v
  | .wgate n => writeWgate s n v
  | .msGate m => writeMsGate s m v
  | .pcfg p => writePcfg s src p v
  | .egcfg g id => writeEgcfg s g id v
  | .migctl id => writeMigctl s id v
  | .pkctl => writePkctl s v
  | .pkid => { s with mgmt := { s.mgmt with pkid := bits v 15 0 } }
  | .irq k data => { s with irq := Tab.update s.irq k (0, 0) fun t => if data then (t.1, v % 2 ^ 64) else (v % 2 ^ 64, t.2) }
  | .mtimecmp h => setHart s h fun x => x.deadline v (sillTicks s (hartDie h))
  | .cxl off => if Config.cxlPort then { s with cxl := Memory.writeBytes s.cxl off (toBytes 8 v) } else s
  | _ => s

/-- Whether a hart outside enclave mode may reach device space: in HS and M modes (R345). -/
def hartReaches (s : State) (h : Nat) : Bool :=
  (hartOf s h).any fun x => x.enclave.isNone && (x.mode == .hs || x.mode == .m)

/-- A write that a failed package still takes: a cold reset (R356). -/
def failedTakes (v : Nat) : DevReg → Bool
  | .pkctl => bits v 1 0 == 2
  | _ => false

/-- Whether a register stands in the CXL window, which only harts and service cores use (R352). -/
def DevReg.inCxl : DevReg → Bool
  | .cxl _ => true
  | _ => false

/-- Whether a write takes effect: a port's while it holds MGSEM, or at MGSEM itself, a hart's in its modes, in READY; in
FAILED a cold reset alone (R345, R352, R354, R356). -/
def accepts (s : State) (src : Source) (v : Nat) (r : DevReg) : Bool :=
  (s.mgmt.state == stReady || (s.mgmt.state == stFailed && (failedTakes v r || r == .mgsem))) &&
    match src with
    | .port p => p < 2 && !r.inCxl && (r == .mgsem || s.mgmt.semOwner == p + 1)
    | .hart h => hartReaches s h && r != .mgsem
    | .host _ => false

/-- An access of a port counts for its hold of MGSEM (R355). -/
def noteAccess (s : State) (src : Source) : State :=
  match src with
  | .port p => if s.mgmt.semOwner = p + 1 then { s with mgmt := { s.mgmt with semLast := governorTicks s 0 } } else s
  | _ => s

/-- A record of the root's log, once the scrub lies behind (R318). -/
def logScrubbed (s : State) (kind enclave actor : Nat) (body : List Byte) : State := if scrubbed s then logAppend s kind enclave actor body else s

/-- A port's accepted write is logged, and counts as its access (R317, R355). -/
def noteWrite (s : State) (src : Source) (a v : Nat) : State :=
  match src with
  | .port p => noteAccess (logScrubbed s 0x07 0 (1 + p) (bodyWords [p, a, v])) src
  | _ => s

/-- What a port is answered: a value, or none for an error reply (R354). -/
def answerPort (s : State) (src : Source) (r : Option Nat) : State :=
  match src with
  | .port p => { s with mgmt := { s.mgmt with answers := s.mgmt.answers ++ [(p, r)] } }
  | _ => s

/-- Whether a PCIe port's strap makes it an endpoint; port 0 is a root port when it trains as CXL (R352). -/
def isEndpoint (p : Nat) : Bool := p < 2 && Config.pcieEndpoint p && !(p == 0 && Config.cxlPort)

/-- A host's write of its endpoint's BAR0, the mailbox of the service cores of the port's die, which is their interrupt (R342, R352). -/
def mailboxWrite (s : State) (p a v : Nat) : State :=
  if linksUp s && isEndpoint p && a + 8 ≤ 65536 then
    raiseSource { s with mailbox := Memory.writeBytes s.mailbox (p * 65536 + a) (toBytes 8 v) } (sourceMailbox (pcieDie p))
  else s

/-- Whether a port's write of an unassigned address, which does nothing, is refused too: without MGSEM, or below READY (R345, R354). -/
def refusedPort (s : State) (src : Source) : Bool :=
  match src with
  | .port p => s.mgmt.state != stReady || s.mgmt.semOwner != p + 1
  | _ => false

/-- A write of device space outside the kick pages: without effect at an unassigned address, where a port's is accepted and logged all the
same, and ignored where it is not accepted; a port's refused write gets an error reply, and is its access too (R345, R354, R355). -/
def agentWrite (s : State) (src : Source) (a v : Nat) : State :=
  match src, devReg a with
  | .host p, _ => mailboxWrite s p a v
  | src, none => if refusedPort s src then answerPort (noteAccess s src) src none else answerPort (noteWrite s src a v) src (some 0)
  | src, some r =>
    if !accepts s src v r then answerPort (noteAccess s src) src none
    else
      let s := answerPort (noteWrite s src a v) src (some 0)
      match r, src with
      | .mgsem, .port p => writeMgsem s p v
      | r, src => regWrite s src v r

/-- A read of device space by a port: always served, but in the kick pages, which a port does not reach, and in the CXL window (R345, R352,
R354). Reads by harts are their loads, and those of a host leave nothing behind. -/
def agentRead (s : State) (src : Source) (a : Nat) : State :=
  let cxl := (devReg a).any DevReg.inCxl
  answerPort (noteAccess s src) src (if a < clusterBlock || cxl then none else some (deviceRead s a))

/-! ### Rows that write registers -/

/-- A write of device space by an agent, or with no value a read (R345, R354). -/
def execRegisterWrite (src : Source) (addr : Nat) (v : Option DWord) (s : State) : Result :=
  .next (match v with
    | some v => agentWrite s src addr v.toNat
    | none => agentRead s src addr)

/-- A row's write at a unit, when the package has the unit. -/
def unitWrite (s : State) (src : Source) (has : Bool) (a : Nat) (v : DWord) : Result :=
  .next (if has then agentWrite s src a v.toNat else s)

def clusterAt (k off : Nat) : Nat := clusterBlock + 65536 * k + off

def execClbudgetWrite (src : Source) (cluster : Nat) (v : DWord) (s : State) : Result :=
  unitWrite s src (cluster < 40) (clusterAt cluster 0) v
def execClmodeWrite (src : Source) (cluster : Nat) (v : DWord) (s : State) : Result :=
  unitWrite s src (cluster < 40) (clusterAt cluster 8) v
def execColownWrite (src : Source) (col : Nat) (v : DWord) (s : State) : Result :=
  unitWrite s src (col < 160) (clusterAt (col / 4) (0x10 + 8 * (col % 4))) v
def execCoresvcWrite (src : Source) (cluster : Nat) (v : DWord) (s : State) : Result :=
  unitWrite s src (cluster < 40) (clusterAt cluster 0x40) v
def execWmaskWrite (src : Source) (slice p : Nat) (v : DWord) (s : State) : Result :=
  unitWrite s src (slice < 768 && p < 256) (sliceBlock + 16384 * slice + 8 * p) v
def execWgateWrite (src : Source) (slice : Nat) (v : DWord) (s : State) : Result :=
  unitWrite s src (slice < 768) (sliceBlock + 16384 * slice + 0x1000) v
def execPcfgWrite (src : Source) (p : Nat) (v : DWord) (s : State) : Result := unitWrite s src (p < 256) (pcfgBlock + 8 * p) v
def execEgcfgWrite (src : Source) (gov enclave : Nat) (v : DWord) (s : State) : Result :=
  unitWrite s src (gov < 2 && enclave < 65536) (egcfgBlock + 524288 * gov + 8 * enclave) v
def execPkidWrite (src : Source) (v : DWord) (s : State) : Result := unitWrite s src true (packageBlock + 0x20) v
def execMgsemWrite (port : Nat) (v : DWord) (s : State) : Result := unitWrite s (.port port) true (packageBlock + 0x10) v
def execPkctlWarmReset (src : Source) (s : State) : Result := unitWrite s src true (packageBlock + 0x18) 1
def execPkctlColdReset (src : Source) (s : State) : Result := unitWrite s src true (packageBlock + 0x18) 2
def execPkctlPlumb (src : Source) (s : State) : Result := unitWrite s src true (packageBlock + 0x18) 4

/-- A write of MIGCTL's EN with neither GO nor FINAL, and those that begin a round. -/
def migctlAt (id : Nat) : Nat := migctlBlock + 8 * id
def execMigctlEnWrite (src : Source) (enclave : Nat) (v : DWord) (s : State) : Result :=
  unitWrite s src (enclave < 65536) (migctlAt enclave) (v &&& 1)
def execMigctlGo (src : Source) (enclave : Nat) (v : DWord) (s : State) : Result :=
  unitWrite s src (enclave < 65536) (migctlAt enclave) ((v &&& 1) ||| 2)
def execMigctlFinal (src : Source) (enclave : Nat) (v : DWord) (s : State) : Result :=
  unitWrite s src (enclave < 65536) (migctlAt enclave) ((v &&& 1) ||| 4)

/-- An enclave's software writes the error queue's registers through its kick page (R288). -/
def execEqcfgWrite (enclave : Nat) (v : DWord) (s : State) : Result := .next (kickWrite s enclave 0x400 8 v.toNat)
def execEqdoorHeadWrite (enclave : Nat) (v : DWord) (s : State) : Result := .next (kickWrite s enclave 0x408 8 v.toNat)

/-- A holder that makes no access for 2^28 ticks loses MGSEM, with a log record (R355). -/
def execMgsemTimeout (s : State) : Result :=
  if s.mgmt.semOwner = 0 ∨ governorTicks s 0 < s.mgmt.semLast + 2 ^ 28 then .next s
  else
    let s' := logScrubbed s 0x07 0 0 (bodyWords [s.mgmt.semOwner - 1, packageBlock + 0x10, 0])
    .next { s' with mgmt := { s'.mgmt with semOwner := 0 } }

/-- A checkpoint: asked for through a port that may write, it stops dispatch and every bent; once every bent is saved and every
quarter and engine is quiet, the images are written (R337). -/
def execCheckpoint (src : Source) (s : State) : Result :=
  let mayAsk := match src with
    | .port p => p < 2 && s.mgmt.state == stReady && s.mgmt.semOwner == p + 1
    | _ => false
  if !s.mgmt.ckpt then
    if mayAsk then .next ((Tab.keys s.bents).foldl askStop { s with mgmt := { s.mgmt with ckpt := true } }) else .next s
  else if s.mgmt.writing then .next (endCheckpoint s)
  else if s.bents.isEmpty then .next (takeCheckpoint s)
  else .next s

/-! ### Sill cores (R149, R250, R340-R342) -/

def execMtimecmpInterrupt (hart : Nat) (s : State) : Result :=
  .next (setHart s hart fun h => if h.mtimecmp.toNat ≤ sillTicks s (hartDie hart) then { h with mtip := true } else h)

/-- An MSI reaches a hart's IMSIC (R342): the target names the hart in its low 16 bits and in bit 16 the interrupt file of M level (log
entry 14). -/
def execDeviceMsi (hart identity : Nat) (s : State) : Result :=
  let m := bit hart 16
  .next (setHart s (hart % 65536) fun h => h.setMsis m (if (h.msis m).contains identity then h.msis m else h.msis m ++ [identity]))

end Sys2Proof.Machine
end

