-- ==== Sys2Proof/Machine/Sfu.lean ====
section
/-! DEFINITION. The SFU's functions (R476): each exact value computed to far more bits than any rounding needs, an
irrational one marked by a lowest bit of 1. -/

namespace Sys2Proof.Machine.Sfu

/-- Fraction bits of the fixed-point work. -/
def prec : Nat := 448
def one : Int := (2 ^ prec : Nat)

def mulF (a b : Int) : Int := a * b / one
def divF (a b : Int) : Int := a * one / b

/-- Sum of a power series: `term` is the k-th term, multiplied by x² or x and divided as `step` says for the next. -/
def series (step : Nat → Int → Int) : Nat → Nat → Int → Int → Int
  | 0, _, _, acc => acc
  | fuel + 1, k, term, acc => series step fuel (k + 1) (step k term) (acc + term)

/-- atanh of z, |z| at most 1/3. -/
def atanh (z : Int) : Int :=
  let z2 := mulF z z
  go z2 160 0 z 0
where
  go (z2 : Int) : Nat → Nat → Int → Int → Int
    | 0, _, _, acc => acc
    | fuel + 1, k, pow, acc => go z2 fuel (k + 1) (mulF pow z2) (acc + pow / (2 * k + 1 : Nat))

/-- atan of 1/n. -/
def atanInv (n : Nat) : Int :=
  go 110 0 (one / n) 0
where
  go : Nat → Nat → Int → Int → Int
    | 0, _, _, acc => acc
    | fuel + 1, k, pow, acc =>
      go fuel (k + 1) (pow / (n * n : Nat)) (if k % 2 = 0 then acc + pow / (2 * k + 1 : Nat) else acc - pow / (2 * k + 1 : Nat))

def ln2 : Int := 2 * atanh (one / 3)
/-- π, by Machin's formula. -/
def pi : Int := 16 * atanInv 5 - 4 * atanInv 239

/-- e^r for |r| below 1. -/
def expF (r : Int) : Int := series (fun k t => mulF t r / (k + 1 : Nat)) 90 0 one 0
/-- 2^f for a fixed-point f in [0, 1). -/
def exp2F (f : Int) : Int := expF (mulF f ln2)
def sinF (r : Int) : Int :=
  let r2 := mulF r r
  series (fun k t => -(mulF t r2 / ((2 * k + 2) * (2 * k + 3) : Nat))) 50 0 r 0
def cosF (r : Int) : Int :=
  let r2 := mulF r r
  series (fun k t => -(mulF t r2 / ((2 * k + 1) * (2 * k + 2) : Nat))) 50 0 one 0

/-- Integer square root, bit by bit from the top. -/
def isqrt (n : Nat) : Nat → Nat → Nat
  | 0, r => r
  | k + 1, r => let r' := r + 2 ^ k; isqrt n k (if r' * r' ≤ n then r' else r)

/-- An inexact fixed-point value as an exact one with its lowest bit set. -/
def inexact (v : Int) : FVal := .num (v < 0) (2 * v.natAbs + 1) (-(prec : Int) - 1)

/-- A finite operand in fixed point. -/
def fixed (neg : Bool) (mag : Nat) (exp : Int) : Int := scaled neg mag exp (-(prec : Int))

/-- √(mag · 2^exp) · 2^220, rounded down, and whether it is exact. -/
def root (mag : Nat) (exp : Int) : Nat × Bool :=
  let n := mag * 2 ^ (exp + 440).toNat
  let r := isqrt n 360 0
  (r, r * r == n)

/-- A number with a sticky lowest bit. -/
def sticky (m : Nat) (exact : Bool) (exp : Int) : FVal := .num false (2 * m + ofBool (!exact)) (exp - 1)

def rcp (neg : Bool) (mag : Nat) (exp : Int) : FVal :=
  let q := 2 ^ 160 / mag
  .num neg (2 * q + ofBool (2 ^ 160 % mag != 0)) (-160 - exp - 1)

def sqrt (mag : Nat) (exp : Int) : FVal := let (r, e) := root mag exp; sticky r e (-220)

def rsqrt (mag : Nat) (exp : Int) : FVal :=
  -- 2^600 / (mag · 2^exp), its root scaled by 2^300; exact only for an even power of two
  let m := mag * 2 ^ (exp + 150).toNat
  let r := isqrt (2 ^ 750 / m) 400 0
  sticky r (r * r * m == 2 ^ 750) (-300)

def exp2 (neg : Bool) (mag : Nat) (exp : Int) : FVal :=
  if 2 ^ 10 ≤ mag * 2 ^ (exp + 149).toNat / 2 ^ 149 then .num false 1 (if neg then -1024 else 1024)
  else
    let x := fixed neg mag exp
    let n := x / one
    let f := x % one
    if f = 0 then .num false 1 n
    else .num false (2 * (exp2F f).natAbs + 1) (n - prec - 1)

def log2 (mag : Nat) (exp : Int) : FVal :=
  let k := Nat.log2 mag
  let e : Int := exp + k
  if mag = 2 ^ k then .num (e < 0) e.natAbs 0
  else
    let y : Int := scaled false mag (-(k : Int)) (-(prec : Int))
    inexact (e * one + divF (2 * atanh (divF (y - one) (y + one))) ln2)

/-- sin, or cos as the sine a quarter turn on, without reduction error. -/
def trig (quarter : Nat) (neg : Bool) (mag : Nat) (exp : Int) : FVal :=
  let x := fixed neg mag exp
  let half := pi / 2
  let q := (2 * x + half) / (2 * half)
  let r := x - q * half
  match (q + quarter) % 4 with
  | 0 => inexact (sinF r)
  | 1 => inexact (cosF r)
  | 2 => inexact (-(sinF r))
  | _ => inexact (-(cosF r))

def tanh (neg : Bool) (mag : Nat) (exp : Int) : FVal :=
  if 64 ≤ mag * 2 ^ (exp + 149).toNat / 2 ^ 149 then .num neg (2 ^ 80 - 1) (-80)
  else
    let w := divF (2 * fixed false mag exp) ln2
    let n := w / one
    let t := exp2F (one - w % one) / (2 ^ (n.toNat + 1) : Nat)
    let r := divF (one - t) (one + t)
    inexact (if neg then -r else r)

/-- The exact value of a function, with the flags of its special operands (R476). -/
def value (fn : SfuFn) (v : FVal) : FVal × Flags :=
  match v with
  | .nan s => (.nan false, flagIf s fNV)
  | .inf neg =>
    match fn with
    | .rcp => (.num neg 0 0, 0)
    | .rsqrt => if neg then (.nan false, fNV) else (.num false 0 0, 0)
    | .sqrt | .log2 => if neg then (.nan false, fNV) else (.inf false, 0)
    | .exp2 => if neg then (.num false 0 0, 0) else (.inf false, 0)
    | .sin | .cos => (.nan false, fNV)
    | .tanh => (.num neg 1 0, 0)
  | .num neg mag exp =>
    if mag = 0 then
      match fn with
      | .rcp | .rsqrt => (.inf neg, fDZ)
      | .log2 => (.inf true, fDZ)
      | .exp2 | .cos => (.num false 1 0, 0)
      | .sqrt | .sin | .tanh => (.num neg 0 0, 0)
    else
      match fn with
      | .rcp => (rcp neg mag exp, 0)
      | .rsqrt => if neg then (.nan false, fNV) else (rsqrt mag exp, 0)
      | .sqrt => if neg then (.nan false, fNV) else (sqrt mag exp, 0)
      | .log2 => if neg then (.nan false, fNV) else (log2 mag exp, 0)
      | .exp2 => (exp2 neg mag exp, 0)
      | .sin => (trig 0 neg mag exp, 0)
      | .cos => (trig 1 neg mag exp, 0)
      | .tanh => (tanh neg mag exp, 0)

/-- A function's result in a type: its bits and flags. -/
def result (fn : SfuFn) (t : Ty) (a : Nat) : Nat × Flags :=
  let (v, f) := value fn ((fmtOf t).decode a)
  let (r, g) := (fmtOf t).round .dflt 0 false v
  (r, f ||| g)

end Sys2Proof.Machine.Sfu
end

