-- ==== Sys2Proof/Machine/Engine.lean ====
section
/-! DEFINITION. The engine class: SFU and divider queues, queue saves, copy commands, batches and guards (R95, R98, R100,
R200-R209, R384-R387, R390-R392, R415-R416, R422-R424, R464-R466, R475-R476). -/

namespace Sys2Proof.Machine

/-! ### SFQ and IDIVQ -/

/-- Entries of a queue of the current bank. -/
def queueOf (v : Thread) (k : Nat) : List QEntry := Tab.getD v.queues (queueKey v k) []

/-- A result owed to a queue of the current bank (R100, R423, R475). -/
def oweResult (v : Thread) (k : Nat) (r : Nat × Flags) : Thread :=
  let e : QEntry := { value := BitVec.ofNat 32 r.1, flags := r.2, arrived := false }
  { v with queues := Tab.set v.queues (queueKey v k) (queueOf v k ++ [e]) }

/-- The shape of SFQ and IDIVQ: sources, then one owed entry of queue vd; a stall while it holds 8. -/
def queueOp (i : Instr) (d : Reg) (a b : Src) (f : Nat → Nat → Nat × Flags) (s : State) : Result :=
  run i s fun w v =>
    let k := d.toNat - 768
    if 8 ≤ (queueOf v k).length then .stall
    else match readSrcs v a b .no with
      | none => .stall
      | some (x, y, _, g, v') => .done (complete i s w v { oweResult v' k (f x y) with pc := v.next i } g)

/-- IDIVQ's quotient or remainder (R423). -/
def divide (t : Ty) (rem : Bool) (x y : Nat) : Nat × Flags :=
  if y = 0 then (if rem then x else 2 ^ 32 - 1, fDZ)
  else
    let n := (asInt t x).tdiv (asInt t y)
    (wrap 32 (if rem then asInt t x - n * asInt t y else n), 0)

def execSfq (fn : SfuFn) (ty : Ty) (x : Ext) (s : State) : Result :=
  queueOp (.sfq fn ty x) x.vd (exta ty x) .no (fun a _ => Sfu.result fn ty a) s
def execIdivq (rem : Bool) (ty : Ty) (x : Ext) (s : State) : Result :=
  queueOp (.idivq rem ty x) x.vd (exta ty x) (.reg 1 x.vb) (divide ty rem) s

/-- The oldest owed entry of a queue marked as arrived. -/
def arriveFirst : List QEntry → List QEntry
  | [] => []
  | e :: es => if e.arrived then e :: arriveFirst es else { e with arrived := true } :: es

/-- A result reaches queue q of a context, trap-bank queues counted from 4, in issue order (R423, R476). -/
def execSfuResultArrive (w : Who) (q : Nat) (s : State) : Result :=
  match viewOf s w with
  | none => .next s
  | some v => .next (putView s w { v with queues := Tab.modify v.queues q arriveFirst })

/-! ### Queue saves (R465, R466) -/

/-- Keys of a bank's queues. -/
def bankKeys (bank : Bool) : List Nat := upFrom (if bank then 4 else 0) 4

/-- Whether a result is owed to a bank. -/
def owed (v : Thread) (bank : Bool) : Bool := (bankKeys bank).any fun k => (Tab.getD v.queues k []).any fun e => !e.arrived

/-- The 72 bytes of one queue. -/
def queueBytes (es : List QEntry) : List Byte :=
  toBytes 8 es.length ++ (upFrom 0 8).flatMap fun j => match es[j]? with
    | some e => toBytes 8 (pack [(32, e.value.toNat), (5, e.flags.toNat)])
    | none => toBytes 8 0

/-- A queue read from its 72 bytes; a COUNT above 8 is 8. -/
def queueFrom (bs : List Byte) : List QEntry :=
  (upFrom 1 (min 8 (ofBytes (bs.take 8) % 16))).map fun j =>
    let w := ofBytes ((bs.drop (8 * j)).take 8)
    { value := BitVec.ofNat 32 w, flags := BitVec.ofNat 5 (w / 2 ^ 32), arrived := true }

/-- The shape of QSAVE and QRST: the area's checks, the wait for owed results, then the effect. -/
def queueArea (i : Instr) (x : Ext) (bank : Bool) (f : State → Thread → Nat → State × Thread) (s : State) : Result :=
  run i s fun w v =>
    match readSrc v (.reg 1 x.va) with
    | none => .stall
    | some (va, g, v') =>
      if va % 8 ≠ 0 then .trap (kept .misalign va)
      else if scratchSize s v.bent < va + 288 then .trap (kept .pageProt va)
      else if owed v bank then .stall
      else
        let (s', v'') := f s v' va
        .done (complete i s' w v { v'' with pc := v.next i } g)

def execQsave (bank : Bool) (x : Ext) (s : State) : Result :=
  queueArea (.qsave bank x) x bank (fun s v va =>
    (scratchWrite s v.bent v.block va ((bankKeys bank).flatMap fun k => queueBytes (Tab.getD v.queues k [])), v)) s
def execQrst (bank : Bool) (x : Ext) (s : State) : Result :=
  queueArea (.qrst bank x) x bank (fun s v va =>
    (s, { v with queues := (bankKeys bank).foldl (fun t k =>
      Tab.set t k (queueFrom (scratchRead s v.bent v.block (va + 72 * (k % 4)) 72))) v.queues })) s

/-- QCNT: entries arrived in a result queue, or free words of a feed queue (R466). -/
def queueCount (s : State) (v : Thread) (q : Nat) : Nat :=
  if q < 4 then ((queueOf v q).filter (·.arrived)).length
  else
    let k := quarterOf s (threadQuarter s v (q - 4))
    if k.bound == some v.bent then Config.feedWords - k.feed.length else 0

def execQcnt (q : BitVec 3) (x : Ext) (s : State) : Result :=
  run (.qcnt q x) s fun w v =>
    .done (putView s w { setRegs v x.vd.toNat 1 (queueCount s v q.toNat) with pc := v.next (.qcnt q x) })

/-! ### Copy commands -/

/-- A scratchpad range of a copy (R186); one of no bytes lies nowhere. -/
def spCheck (size off len : Nat) : Option Kept := if len ≠ 0 ∧ size < off + len then some (kept .pageProt off) else none

/-- A remote range of a copy, after its rank (R187 check 2): its offset lies inside SCRATCH, whatever its length. -/
def rmCheck (size word len : Nat) : Option Kept :=
  if bits word 23 17 ≠ 0 || size ≤ remoteOff word || size < remoteOff word + len then some (kept .pageProt word) else none

/-- The first trap of a list of checks. -/
def firstTrap (l : List (Option Kept)) : Option Kept := (l.filterMap id).head?

/-- A check that holds a value in `tinfo`. -/
def must (ok : Bool) (k : Kept) : Option Kept := if ok then none else some k

/-- The traps of R202, in order. -/
def cpyCheck (s : State) (v : Thread) (kind : CpyKind) (mask : Option DWord) (dst src len : Nat) : Option Kept :=
  let size := scratchSize s v.bent
  let e1 := blockCount s v.bent
  let rank (r : Nat) : Option Kept := must (r < e1) (kept .bentTicket r)
  let ranks : Option Kept := match mask with
    | some m => (((upFrom 0 64).filter fun r => m.getLsbD r && e1 ≤ r).head?).map fun r => kept .bentTicket r
    | none => match kind with
      | .spToRm => rank (remoteRank dst)
      | .rmToSp => rank (remoteRank src)
      | _ => none
  let ranges : List (Option Kept) := match kind with
    | .glToSp => [spCheck size dst len]
    | .spToGl => [spCheck size src len]
    | .spToRm => [if mask.isSome then (if 2 ^ 17 ≤ dst || size ≤ dst || size < dst + len then some (kept .pageProt dst) else none) else rmCheck size dst len, spCheck size src len]
    | .rmToSp => [spCheck size dst len, rmCheck size src len]
  firstTrap ([must (len % 16 = 0 && len ≤ 131072) (kept .misalign len), must (dst % 16 = 0) (kept .misalign dst),
    must (src % 16 = 0) (kept .misalign src), ranks] ++ ranges)

/-- The traps of CPYG, in order (R392). -/
def cpygCheck (s : State) (v : Thread) (size dst base list count : Nat) : Option Kept :=
  let sp := scratchSize s v.bent
  firstTrap [must (1 ≤ count && count ≤ 4096) (kept .misalign count), must (dst % size = 0) (kept .misalign dst),
    must (base % size = 0) (kept .misalign base), must (list % 4 = 0) (kept .misalign list),
    spCheck sp dst (count * size), spCheck sp list (4 * count)]

/-- Commands a core's engine holds (R200). -/
def engineLoad (s : State) (core : Nat) : Nat := (s.cmds.filter fun e => e.2.core == core && e.2.state != .done).length

/-- The oldest command of a thread's stream that has not begun (R200). -/
def streamHead (s : State) (t : Nat) : Option (Nat × CopyCmd) := (cmdsOf s t).find? fun e => e.2.state == .waiting

/-- A command changed. -/
def setCmd (s : State) (c : Nat) (f : CopyCmd → CopyCmd) : State := { s with cmds := Tab.modify s.cmds c f }

/-- A discarded command: complete, with nothing written (R206). -/
def CopyCmd.discarded (k : CopyCmd) : CopyCmd := { k with state := .done, len := 0, what := .cpy .glToSp none }

/-- Whether a command names nothing to move: it completes at once (R202, R204). -/
def CopyCmd.empty (k : CopyCmd) : Bool :=
  k.len == 0 || match k.what with
    | .cpy _ (some m) => m == 0
    | _ => false

/-- Guarded commands at the head of a stream whose slot is resolved are decided; one that names nothing to move is then complete at once
(R202, R204, R206). -/
def decideGuards (t : Nat) : Nat → State → State
  | 0, s => s
  | n + 1, s =>
    match streamHead s t, threadOf s t with
    | some (c, k), some v => match k.guard.bind fun g => Tab.get? v.guards g with
      | some true => decideGuards t n (setCmd s c fun k => { k with state := if k.empty then .done else .begun })
      | some false => decideGuards t n (setCmd s c CopyCmd.discarded)
      | none => s
    | _, _ => s

/-- A command appended to its thread's stream; a stall while the engine or cp is full (R200, R209, R391). -/
def appendCmd (i : Instr) (s : State) (w : Who) (v v' : Thread) (g : Flags) (k : CopyCmd) : Eff :=
  let t := Who.threadNo w
  let opens := !((cmdsOf s t).any fun e => e.2.batch.isNone)
  if Config.engineCommands ≤ engineLoad s k.core || (opens && 15 ≤ cpCount s t v) then .stall
  else
    let k := if k.empty && k.guard.isNone then { k with state := .done } else k
    let s := { s with cmds := Tab.set s.cmds s.cmdSeq k, cmdSeq := s.cmdSeq + 1 }
    .done (complete i (decideGuards t 256 (setThread s t v')) w v { v' with pc := v.next i } g)

/-- Four sources, vd's last (R93, R95). -/
def readSrcs4 (v : Thread) (a b c d : Src) : Option (Nat × Nat × Nat × Nat × Flags × Thread) :=
  match readSrcs v a b c with
  | none => none
  | some (x, y, z, f, v') => (readSrc v' d).map fun (n, g, v'') => (x, y, z, n, f ||| g, v'')

def execCpy (kind : CpyKind) (mc : Bool) (g : Option (BitVec 3)) (x : Ext) (s : State) : Result :=
  let i := Instr.cpy kind mc g x
  run i s fun w v =>
    let ra : Src := if kind = .glToSp then .reg 2 x.va else .reg 1 x.va
    match readSrcs4 v ra (.reg 1 x.vb) (if mc then .reg 2 x.vc else .no) (.reg (if kind = .spToGl then 2 else 1) x.vd) with
    | none => .stall
    | some (src, len, m, dst, fl, v') =>
      let mask : Option DWord := if mc then some (BitVec.ofNat 64 m) else none
      match cpyCheck s v kind mask dst src len with
      | some k => .trap k
      | none => appendCmd i s w v v' fl
          { thread := Who.threadNo w, core := threadCore s v, what := .cpy kind mask, dst := BitVec.ofNat 64 dst,
            src := BitVec.ofNat 64 src, len := len, guard := g.map (·.toNat), batch := none, state := .waiting, moved := 0, frames := [], fault := none,
            delivered := false }

def execCpyg (g : Option (BitVec 3)) (ty : Ty) (x : Ext) (s : State) : Result :=
  let i := Instr.cpyg g ty x
  run i s fun w v =>
    match readSrcs4 v (.reg 2 x.va) (.reg 1 x.vb) (.reg 1 x.vc) (.reg 1 x.vd) with
    | none => .stall
    | some (base, list, count, dst, fl, v') =>
      match cpygCheck s v ty.size dst base list count with
      | some k => .trap k
      | none => appendCmd i s w v v' fl
          { thread := Who.threadNo w, core := threadCore s v, what := .gather ty.size list, dst := BitVec.ofNat 64 dst,
            src := BitVec.ofNat 64 base, len := count, guard := g.map (·.toNat), batch := none, state := .waiting, moved := 0, frames := [], fault := none,
            delivered := false }

/-! ### Batches (R207, R208, R251) -/

/-- Sectors that a finished batch wrote in global memory removed from the issuing core's store (R191). -/
def staleAfter (s : State) (k : CopyCmd) : State :=
  match k.what with
  | .cpy .spToGl _ =>
    match threadOf s k.thread with
    | some v =>
      (upFrom (k.dst.toNat / 32) ((k.dst.toNat + k.len + 31) / 32 - k.dst.toNat / 32)).foldl (fun s j =>
        match translate s k.core (threadEnclave s v) .write (wrap 64 (32 * j : Nat)) with
        | .ok p => if p.device then s else removeStale s k.core (p.at (wrap 64 (32 * j : Nat))) 32
        | _ => s) s
    | none => s
  | _ => s

/-- Source of CBWAIT, read again as it completes so that its pop takes effect then (R95). -/
def cbwaitSource : Instr → Src
  | .cbwait _ x => .reg 1 x.va
  | _ => .no

/-- The thread goes on after its CBWAIT, or takes its batch's first fault there (R208, R387); completing it
is a phase boundary without ordering (R224). -/
def cbwaitDone (late : Bool) (s : State) (t : Nat) (v : Thread) (b : Word) (i : Instr) : State :=
  let v := { v with status := .running }
  match (cmdsOf s t).find? fun e => e.2.batch == some b && e.2.fault.isSome with
  | some (_, c) =>
    let s := { s with cmds := s.cmds.filter fun e => !(e.2.thread == t && e.2.batch == some b) }
    takeTrap s (.thread t) v (c.fault.getD (kept .promiseMissed 0)) { pc := v.pc, len := extLen, tdst := tdstNone, deferred := true, ownOnly := late }
  | none => match readSrc v (cbwaitSource i) with
    | none => setThread s t v
    | some (_, g, v') =>
      let (s, v') := phaseIf true s v'
      completeAt late i s (.thread t) v { v' with pc := v.pc + BitVec.ofNat 64 extLen } g

/-- A batch whose commands are all done completes: its stale sectors go, cp falls, and its first fault alone stays; a thread
parked at its CBWAIT goes on (R208, R209). -/
def settleBatch (s : State) (t : Nat) (b : Word) : State :=
  let mine := (cmdsOf s t).filter fun e => e.2.batch == some b
  match threadOf s t with
  | none => s
  | some v =>
    if !(v.batches.any fun x => x.num == b) || mine.any fun e => e.2.state != .done then s
    else
      let s := mine.foldl (fun s e => staleAfter s e.2) s
      let first := (mine.find? fun e => e.2.fault.isSome).map (·.1)
      let s := { s with cmds := s.cmds.filter fun e => !(e.2.thread == t && e.2.batch == some b) || some e.1 == first }
      let v := { v with batches := v.batches.filter fun x => x.num != b }
      match v.status with
      | .cbwait n i => if n = b then cbwaitDone true s t v b i else setThread s t v
      | _ => setThread s t v

/-- Every batch of a thread that has come to its end settled: a discarded command may have been its last (R206, R208). -/
def settleAll (s : State) (t : Nat) : State :=
  (((threadOf s t).map fun v => v.batches.map (·.num)).getD []).foldl (fun s b => settleBatch s t b) s

/-- The promised cycle of a batch (R207). -/
def promiseOf (s : State) (core : Nat) (batch : List (Nat × CopyCmd)) : Nat :=
  let sum (l : List (Nat × CopyCmd)) : Nat := l.foldl (fun n e => n + e.2.bytes) 0
  let ahead := ((s.cmds.filter fun e => e.2.core == core && e.2.state == .begun && !(batch.any (·.1 == e.1))).map (·.2.unwritten)).sum
  if batch.isEmpty then arithCycles s core else arithCycles s core + 128 + (ahead + sum batch + 63) / 64

def execCbseal (x : Ext) (s : State) : Result :=
  run (.cbseal x) s fun w v =>
    let t := Who.threadNo w
    let b := v.batchCount
    let mine := (cmdsOf s t).filter fun e => e.2.batch.isNone
    let cp := promiseOf s (threadCore s v) mine
    let v' := setRegs { v with batchCount := b + 1, pc := v.next (.cbseal x), batches := if mine.isEmpty then v.batches else
        v.batches ++ [{ num := b, promise := BitVec.ofNat 64 cp, sealed := BitVec.ofNat 64 (arithCycles s (threadCore s v)), armed := true }] } x.vd.toNat 2 (b.toNat + 2 ^ 32 * (cp % 2 ^ 32))
    let s := { s with cmds := s.cmds.map fun e => if e.2.thread == t && e.2.batch.isNone then (e.1, { e.2 with batch := some b }) else e }
    .done (settleBatch (putView s w v') t b)

def execCbwait (chk : Bool) (x : Ext) (s : State) : Result :=
  let i := Instr.cbwait chk x
  run i s fun w v =>
    match readSrc v (.reg 1 x.va) with
    | none => .stall
    | some (a, _, _) =>
      let b : Word := BitVec.ofNat 32 a
      if v.batches.any fun k => k.num == b then .done (putView s w { v with status := .cbwait b i })
      else .done (cbwaitDone false s (Who.threadNo w) v b i)

/-- A batch misses its promise while its CBWAIT.chk is parked: raised once (R208, R387). -/
def execPromiseMissed (t : Nat) (batch : Word) (s : State) : Result :=
  match threadOf s t with
  | none => .next s
  | some v =>
    let grace := ((headerOf s v).map (·.grace.toNat)).getD 0
    let parked := match v.status with
      | .cbwait n (.cbwait true _) => n == batch
      | _ => false
    if parked && v.batches.any fun b => b.num == batch && b.armed && b.promise.toNat + grace < arithCycles s (threadCore s v) then
      let v := { v with status := .running, batches := v.batches.map fun b => if b.num = batch then { b with armed := false } else b }
      .next (takeTrap s (.thread t) v (kept .promiseMissed batch.toNat) { pc := v.pc, len := extLen, tdst := tdstNone, ownOnly := true })
    else .next s

/-! ### Guards (R416) -/

def execGopen (g : BitVec 3) (x : Ext) (s : State) : Result :=
  run (.gopen g x) s fun w v => .done (putView s w { v with guards := Tab.erase v.guards g.toNat, pc := v.next (.gopen g x) })
def execGset (g : BitVec 3) (x : Ext) (s : State) : Result :=
  let i := Instr.gset g x
  run i s fun w v =>
    match readSrc v (.reg 1 x.va) with
    | none => .stall
    | some (a, fl, v') =>
      let v' := { v' with guards := Tab.set v'.guards g.toNat (bit a 0) }
      .done (settleAll (decideGuards (Who.threadNo w) 256 (complete i s w v { v' with pc := v.next i } fl)) (Who.threadNo w))

/-! ### The engine's own steps (R200, R203) -/

/-- Whether a command may begin at its stream's head: it has no guard, or a resolved one (R206), and its bent has not stopped for a save
(R87). -/
def guardReady (s : State) (k : CopyCmd) : Bool :=
  match threadOf s k.thread with
  | none => k.guard.isNone
  | some v => (k.guard.all fun g => (Tab.get? v.guards g).isSome) && !stoppedForSave s v.bent

/-- The command that a core's engine begins next: of the streams whose heads may begin, the one after the stream served last, in
the order of the streams' threads (R200). -/
def serveNext (s : State) (core : Nat) : Option Nat :=
  let streams := (((s.cmds.filter fun e => e.2.core == core).map (·.2.thread)).eraseDups).filterMap fun t =>
    (streamHead s t).bind fun (c, k) => if guardReady s k then some (t, c) else none
  let last := Tab.getD s.engineLast core 0
  ((least ((streams.map (·.1)).filter fun t => last ≤ t)).or (least (streams.map (·.1)))).bind fun t =>
    (streams.find? fun x => x.1 == t).map (·.2)

/-- The command whose turn it is at its engine begins, or is discarded by its guard; the next turn is that of a later stream (R200,
R206). -/
def execCopyCommandBegin (c : Nat) (s : State) : Result :=
  match Tab.get? s.cmds c with
  | none => .next s
  | some k =>
    if serveNext s k.core == some c then
      let s := { s with engineLast := Tab.set s.engineLast k.core (k.thread + 1) }
      let s := if k.guard.isNone then setCmd s c fun k => { k with state := .begun } else s
      .next (settleAll (decideGuards k.thread 256 s) k.thread)
    else .next s

/-- Ranks whose scratchpads a command reaches through the window. -/
def CopyCmd.ranks (k : CopyCmd) : List Nat :=
  match k.what with
  | .cpy _ (some m) => (upFrom 0 64).filter fun r => m.getLsbD r
  | .cpy .spToRm none => [remoteRank k.dst.toNat]
  | .cpy .rmToSp none => [remoteRank k.src.toNat]
  | _ => []

/-- A begun command moves on by a free number of bytes; it finishes with its last, or stops on a fault that its batch keeps (R203,
R208, R228); a poisoned source halts the bent. -/
def execCopyCommandComplete (c : Nat) (s : State) : Result :=
  match Tab.get? s.cmds c with
  | none => .next s
  | some k => match threadOf s k.thread with
    | none => .next s
    | some v =>
      if k.state ≠ .begun then .next s
      else
        let n := Config.pick s.draws % (k.total - k.moved) + 1
        let gone := k.ranks.find? fun r => match blockOf s v.bent r with
          | some b => b.ended
          | none => true
        let r : CopyResult := match gone with
          | some r => { state := s, fault := some (kept .bentTicket r) }
          | none => runCopy { s with draws := s.draws + 1 } (clientOf s v) k n
        match r.poison with
        | some l => .next (integrityHalt r.state (some v) l ((sideOf r.state l).code == 0x29))
        | none =>
          let stop := copyStop s (clientOf s v) k n
          if stop < k.total && r.fault.isNone then .next (setCmd r.state c fun k => { k with
            moved := stop, frames := (copyFrames s (clientOf s v) k stop ++ k.frames).eraseDups }) else
          let s := setCmd r.state c fun k => { k with state := .done, moved := k.total, frames := [], fault := r.fault }
          .next (match k.batch with
            | some b => settleBatch s k.thread b
            | none => s)

end Sys2Proof.Machine
end

