-- ==== Sys2Proof/Machine/Paging.lean ====
section
/-! DEFINITION. Address translation of a hart outside enclave mode: one stage by satp or vsatp, and the guest stage by hgatp (R340;
RISC-V's own rules by log entry 9). -/

namespace Sys2Proof.Machine

/-- Kinds of access of a hart. -/
inductive HAccess where
  | fetch | load | store
  deriving DecidableEq, Repr

/-- Causes of an access fault, a page fault and a guest-page fault. -/
def HAccess.fault : HAccess → DWord
  | .fetch => causeFetch
  | .load => causeLoad
  | .store => causeStore
def HAccess.page : HAccess → DWord
  | .fetch => causeFetchPage
  | .load => causeLoadPage
  | .store => causeStorePage
def HAccess.guest : HAccess → DWord
  | .fetch => causeFetchGuest
  | .load => causeLoadGuest
  | .store => causeStoreGuest

/-- On whose behalf an access is made: a level, in a virtual machine or not, and whether execute permission stands for read (HLVX). -/
structure Acc where
  level : Nat
  virt : Bool
  exec : Bool
  deriving DecidableEq, Repr

/-- A hart's own accesses: those of instructions, and those of data, which MPRV makes in the mode that MPP and MPV name. -/
def Hart.fetchAcc (h : Hart) : Acc := { level := h.mode.level, virt := h.mode.virt, exec := false }
def Hart.dataAcc (h : Hart) : Acc :=
  if h.mode == .m && bit (h.csrOf csrMstatus) bMPRV then { level := h.prev.level, virt := h.prev.virt, exec := false } else h.fetchAcc

/-- Accesses of HLV and HSV: those of the virtual machine, at the level of SPVP. -/
def Hart.guestAcc (h : Hart) (exec : Bool) : Acc := { level := bits (h.csrOf csrHstatus) bSPVP bSPVP, virt := true, exec := exec }

/-- Levels of a translation mode: Sv39, Sv48 and Sv57; none for no translation. -/
def svLevels (mode : Nat) : Nat := if mode = 8 then 3 else if mode = 9 then 4 else if mode = 10 then 5 else 0

/-- Fields of satp, vsatp and hgatp. -/
def atpMode (x : Nat) : Nat := bits x 63 60
def atpRoot (x : Nat) : Nat := bits x 43 0 * 4096

/-- A walk over page-table entries of 8 bytes, from the outermost of some levels down; the first level's index has some bits more. The
page's address, or none for a page fault. Entries that a read fails at end it with that failure. -/
def svWalk (read : Nat → Except Xcpt Nat) (allow : Nat → Bool) (fail : Xcpt) (va : Nat) : Nat → Nat → Nat → Except Xcpt Nat
  | 0, _, _ => .error fail
  | i + 1, more, table =>
    match read (table + 8 * (va / 2 ^ (12 + 9 * i) % 2 ^ (9 + more))) with
    | .error e => .error e
    | .ok pte =>
      let ppn := bits pte 53 10
      if !bit pte 0 || (bit pte 2 && !bit pte 1) || bits pte 63 54 != 0 then .error fail
      else if bit pte 1 || bit pte 3 then
        if allow pte && ppn % 2 ^ (9 * i) == 0 then .ok (ppn * 4096 + va % 2 ^ (12 + 9 * i)) else .error fail
      else if bit pte 4 || bit pte 6 || bit pte 7 then .error fail
      else svWalk read allow fail va i 0 (ppn * 4096)

/-- What a leaf must grant an access: the permission, the accessed bit, and for a store the dirty bit, which are never set by the hart
(log entry 9). -/
def leafGrants (k : HAccess) (mxr exec : Bool) (pte : Nat) : Bool :=
  bit pte 6 && match k with
    | .fetch => bit pte 3
    | .load => if exec then bit pte 3 else bit pte 1 || (mxr && bit pte 3)
    | .store => bit pte 2 && bit pte 7

/-- Eight bytes of a page table; those of memory that is not the device's, or of a poisoned line, fail the access (R341). -/
def readPte (s : State) (e : Xcpt) (pa : Nat) : Except Xcpt Nat :=
  if deviceOwned s pa 8 && !poisoned s pa then .ok (Memory.num s.mem pa 8) else .error e

/-- The guest stage: a guest-physical address of an access to an address. -/
def guestStage (s : State) (h : Hart) (k : HAccess) (exec : Bool) (va gpa : Nat) : Except Xcpt Nat :=
  let hgatp := h.csrOf csrHgatp
  let n := svLevels (atpMode hgatp)
  let fail : Xcpt := { cause := k.guest, tval := BitVec.ofNat 64 va, gva := true, gpa := gpa / 4, pseudo := 0 }
  if n = 0 then .ok gpa
  else if 2 ^ (14 + 9 * n) ≤ gpa then .error fail
  else svWalk (readPte s { fail with cause := k.fault, gpa := 0 })
    (fun pte => bit pte 4 && leafGrants k (bit (h.csrOf csrMstatus) bMXR) exec pte) fail gpa n 2 (atpRoot hgatp / 16384 * 16384)

/-- Whether an address's upper bits are those of n levels' addresses: all equal. -/
def svCanonical (n va : Nat) : Bool :=
  let top := va / 2 ^ (11 + 9 * n)
  top == 0 || top == 2 ^ (53 - 9 * n) - 1

/-- A hart's address translated for an access. -/
def hartTranslate (s : State) (h : Hart) (a : Acc) (k : HAccess) (va : Nat) : Except Xcpt Nat :=
  let status := if a.virt then h.csrOf csrVsstatus else h.csrOf csrMstatus
  let atp := h.csrOf (if a.virt then csrVsatp else csrSatp)
  let n := svLevels (atpMode atp)
  let mxr := bit (h.csrOf csrMstatus) bMXR || (a.virt && bit status bMXR)
  let fail : Xcpt := { cause := k.page, tval := BitVec.ofNat 64 va, gva := a.virt, gpa := 0, pseudo := 0 }
  let user (pte : Nat) : Bool := if a.level = 0 then bit pte 4 else !bit pte 4 || (k != .fetch && bit status bSUM)
  let stage (pa : Nat) : Except Xcpt Nat := if a.virt then guestStage s h k a.exec va pa else .ok pa
  let read (pa : Nat) : Except Xcpt Nat := match if a.virt then guestStage s h .load false va pa else .ok pa with
    | .ok pa => readPte s { fail with cause := k.fault } pa
    | .error e => .error (if e.cause = causeLoadGuest then { e with cause := k.guest, pseudo := pteRead } else { e with cause := k.fault })
  if a.level = 3 then .ok va
  else if n = 0 then stage va
  else if !svCanonical n va then .error fail
  else match svWalk read (fun pte => user pte && leafGrants k mxr a.exec pte) fail va n 0 (atpRoot atp) with
    | .ok pa => stage pa
    | .error e => .error e

end Sys2Proof.Machine
end

