-- ==== Sys2Proof/Machine/HartMemory.lean ====
section
/-! DEFINITION. What the accesses of a sill core do: in enclave mode through the enclave's tables, outside it through the hart's own
translation to the homes and to device space; and the instructions that are such accesses (R149, R250, R306, R340-R342, R345). -/

namespace Sys2Proof.Machine

/-! ### Reads -/

/-- Bytes of an enclave's memory that a hart in enclave mode reads; demand-zero pages are touched (R220, R306). A decoded view
is refused (R149). -/
def enclaveRead (s : State) (id : Nat) : Nat → Nat → State × Option (List Byte)
  | _, 0 => (s, some [])
  | va, n + 1 =>
    match touch s noCore id .read va with
    | (s, .ok p) =>
      if p.device || p.fmt != 0 then (s, none)
      else
        let b := if poisoned s (p.at va) then BitVec.ofNat 8 (Config.unspecified s.draws) else Memory.read s.mem (p.at va)
        let (s, r) := enclaveRead s id (wrap 64 (va + 1 : Nat)) n
        (s, r.map fun bs => b :: bs)
    | (s, _) => (s, none)

/-- A read of a hart in enclave mode; none for an access fault. -/
def enclaveLoad (s : State) (id a size : Nat) : State × Option Nat :=
  match translate s noCore id .read a with
  | .ok p =>
    if p.device then (s, some (kickRead s id (p.at a - kickPage id) size))
    else
      let (s, r) := enclaveRead s id a size
      ({ s with draws := s.draws + 1 }, r.map ofBytes)
  | _ =>
    let (s, r) := enclaveRead s id a size
    ({ s with draws := s.draws + 1 }, r.map ofBytes)

/-- A read at a physical address by a hart outside enclave mode; none for an access fault (R341, R345). A poisoned line's value is
free (log entry 20). -/
def physRead (s : State) (n pa size : Nat) : State × Option Nat :=
  if pa < Config.hbmBytes then
    if !deviceOwned s pa size then (s, none)
    else match readHome s pa size with
      | .ok bs => (s, some (ofBytes bs))
      | _ => ({ s with draws := s.draws + 1 }, some (Config.unspecified s.draws % 2 ^ (8 * size)))
  else if pa < clusterBlock || 2 ^ 48 ≤ pa || !hartReaches s n then (s, none)
  else (s, some (if size = 8 ∧ pa % 8 = 0 then deviceRead s pa else 0))

/-- The parts of an access that lie in one 4 KiB page each: address and size. -/
def accessParts (a size : Nat) : List (Nat × Nat) :=
  let m := min size (4096 - a % 4096)
  if m = size then [(a, size)] else [(a, m), (wrap 64 (a + m : Nat), size - m)]

/-- An access fault at an address. -/
def accessFault (k : HAccess) (acc : Acc) (a : Nat) : Xcpt := { cause := k.fault, tval := BitVec.ofNat 64 a, gva := acc.virt, gpa := 0, pseudo := 0 }

/-- A data read by a hart on someone's behalf: its value or its exception. -/
def hartReadAs (s : State) (n : Nat) (h : Hart) (acc : Acc) (a size : Nat) : State × Except Xcpt Nat :=
  match h.enclave with
  | some id => match enclaveLoad s id a size with
    | (s, some v) => (s, .ok v)
    | (s, none) => (s, .error (xcpt causeLoad (BitVec.ofNat 64 a)))
  | none =>
    let (s, r, _) := (accessParts a size).foldl (fun (p : State × Except Xcpt Nat × Nat) part =>
      match p.2.1 with
      | .error _ => p
      | .ok v => match hartTranslate p.1 h acc .load part.1 with
        | .error e => (p.1, .error e, 0)
        | .ok pa => match physRead p.1 n pa part.2 with
          | (s, some x) => (s, .ok (v + x * 2 ^ (8 * p.2.2)), p.2.2 + part.2)
          | (s, none) => (s, .error (accessFault .load acc a), 0)) (s, .ok 0, 0)
    (s, r)

/-- A hart's own data read (R341, R345). -/
def hartRead (s : State) (n : Nat) (h : Hart) (a size : Nat) : State × Except Xcpt Nat := hartReadAs s n h h.dataAcc a size

/-! ### Writes -/

/-- A write of a hart in enclave mode; none for an access fault, which writes nothing. The checker records it at `.sy` (R244, R245). -/
def enclaveStore (s : State) (n id a size v : Nat) : Option State :=
  let last := wrap 64 (a + size - 1 : Nat)
  let (s1, g) := touch s noCore id .write a
  let (s2, g') := touch s1 noCore id .write last
  match g, g' with
  | .ok p, .ok q =>
    if p.device then some (kickWrite s2 id (p.at a - kickPage id) size v)
    else if q.device then none
    else some (agentWriteVa s2 (.sill n) id a (toBytes size v)).1
  | _, _ => none

/-- Whether a hart outside enclave mode may write at a physical address (R341, R345). -/
def physWritable (s : State) (n pa size : Nat) : Bool :=
  if pa < Config.hbmBytes then deviceOwned s pa size else clusterBlock ≤ pa && pa < 2 ^ 48 && hartReaches s n

/-- Its write, where it may; the checker records every line of it (R244, R245). -/
def physWrite (s : State) (n pa size v : Nat) : State :=
  if pa < Config.hbmBytes then writePhys (trackSy s (.sill n) pa size) pa (toBytes size v)
  else if size = 8 ∧ pa % 8 = 0 then agentWrite s (.hart n) pa v
  else s

/-- A data write by a hart on someone's behalf: an exception writes nothing. -/
def hartWriteAs (s : State) (n : Nat) (h : Hart) (acc : Acc) (a size v : Nat) : Except Xcpt State :=
  match h.enclave with
  | some id => match enclaveStore s n id a size v with
    | some s => .ok s
    | none => .error (xcpt causeStore (BitVec.ofNat 64 a))
  | none =>
    let (go, _) := (accessParts a size).foldl (fun (p : Except Xcpt (State → State) × Nat) part =>
      match p.1 with
      | .error _ => p
      | .ok f => match hartTranslate s h acc .store part.1 with
        | .error e => (.error e, 0)
        | .ok pa =>
          if physWritable s n pa part.2 then (.ok fun s => physWrite (f s) n pa part.2 (v / 2 ^ (8 * p.2)), p.2 + part.2)
          else (.error (accessFault .store acc a), 0)) (.ok id, 0)
    match go with
    | .ok f => .ok (f s)
    | .error e => .error e

/-- A hart's own data write. -/
def hartWrite (s : State) (n : Nat) (h : Hart) (a size v : Nat) : Except Xcpt State := hartWriteAs s n h h.dataAcc a size v

/-! ### Cache-block operations (R340, R345) -/

/-- The exception of a cache-block operation at an address, none where it is performed: it needs what a load needs, and faults as a store.
Device space is reached as by other accesses; a decoded view is not (R149). -/
def cboFault (s : State) (n : Nat) (h : Hart) (a : Nat) : Option Xcpt :=
  match h.enclave with
  | some id => match translate s noCore id .read a with
    | .ok p => if p.fmt ≠ 0 then some (xcpt causeStore (BitVec.ofNat 64 a)) else none
    | .fill _ => none
    | _ => some (xcpt causeStore (BitVec.ofNat 64 a))
  | none => match hartTranslate s h h.dataAcc .load a with
    | .error e => some { e with cause := if e.cause = causeLoadPage then causeStorePage else if e.cause = causeLoadGuest then causeStoreGuest else causeStore }
    | .ok pa =>
      if pa < Config.hbmBytes then if deviceOwned s (pa / 128 * 128) 128 then none else some (accessFault .store h.dataAcc a)
      else if clusterBlock ≤ pa && pa < 2 ^ 48 && hartReaches s n then none
      else some (accessFault .store h.dataAcc a)

/-! ### Instructions -/

/-- A loaded value as the register takes it. -/
def extend (signed : Bool) (size v : Nat) : DWord :=
  if signed then BitVec.ofInt 64 (sext v (8 * size)) else BitVec.ofNat 64 v

/-- An ordinary instruction of a hart on memory: its loads and stores act at the homes, its fences and
cache-block operations find every cache coherent, and an encoding of no extension it has is illegal (R340, R341, R250). -/
def execSillCoreInstruction (hart : Nat) (op : SillOp) (s : State) : Result :=
  match hartOf s hart with
  | none => .next s
  | some h =>
    match op with
    | .load rd a size signed _ => match hartRead s hart h a size with
      | (s, .ok v) => .next (setHart s hart fun h => (h.setX rd (extend signed size v)).step)
      | (s, .error e) => .next (hartTrap s hart h e)
    | .store a size v _ => match hartWrite s hart h a size v.toNat with
      | .ok s => .next (setHart s hart Hart.step)
      | .error e => .next (hartTrap s hart h e)
    | .fence _ _ => .next (setHart s hart Hart.step)
    | .cbo _ a => match cboFault s hart h a with
      | some e => .next (hartTrap s hart h e)
      | none => .next (setHart s hart Hart.step)
    | .illegal w => .next (asyncExit s hart h causeIllegal (BitVec.ofNat 64 w.toNat))

end Sys2Proof.Machine
end

