-- ==== Sys2Proof/Machine/Service.lean ====
section
/-! DEFINITION. What a service does with a request that it has taken, and its reply (R350, R351). -/

namespace Sys2Proof.Machine

/-! ### DPUT and DGET (R307, R321, R351) -/

/-- Address at the peer that a DPUT or DGET names: the first 8 bytes of descriptor 1 (R351). -/
def peerAddr (s : State) (enclave : Nat) (args : List Arg) : Option Nat :=
  match args[1]? with
  | some (addr, len, _) => if 8 ≤ len then (agentReadVa s enclave addr.toNat 8).map ofBytes else none
  | none => none

/-- Whether the peer's end of a stream is an enclave of this package. -/
def Stream.here (s : State) (t : Stream) : Bool := t.peer == s.mgmt.pkid && (enclaveOf s t.peerEnclave).isSome

/-- Bytes sent on a stream as one sealed frame for an address at the peer. A peer on this package has them at once (R307, R321; log entry
18). -/
def streamPut (s : State) (n : Nat) (t : Stream) (va : Nat) (bs : List Byte) : State :=
  let frame := Config.gcmSeal t.key (t.sendNonce s) (frameHeader (.data (BitVec.ofNat 64 va))) bs
  let sent := { s with streams := Tab.set s.streams n { t with sent := t.sent + 1, frames := t.frames ++ [(va, frame.1, frame.2)] } }
  if t.here s then (agentWriteVa sent .io t.peerEnclave va bs).1 else sent

/-- Bytes that a DGET fills its descriptor 0 with: those of a frame received on the stream, which the peer has sent; a peer on this package
supplies those at the address, and none where it cannot be read (R307, R321; log entry 18). -/
def streamGet (s : State) (n : Nat) (t : Stream) (va : Nat) (out : List (Nat × List Byte)) : Option (State × List (Nat × List Byte)) :=
  let got := { s with streams := Tab.set s.streams n { t with got := t.got + 1, failures := 0 } }
  if t.here s then (agentReadVa s t.peerEnclave va ((out.head?).getD (0, [])).2.length).map fun bs => (got, [(0, bs)])
  else some (got, out)

/-- What a request moves on its stream, and what it has then to write: nothing changes but for DPUT and DGET. Those fail on an argument that
gives no address, or bytes that cannot be read (R350, R351). -/
def serviceStream (s : State) (enclave : Nat) (r : SyscReq) (out : List (Nat × List Byte)) : Option (State × List (Nat × List Byte)) :=
  if r.svc ≠ 3 && r.svc ≠ 4 then some (s, out)
  else match Tab.get? s.streams r.vb.toNat, peerAddr s enclave r.args, r.args.head? with
    | some t, some va, some (addr, len, _) =>
      if r.svc = 4 then streamGet s r.vb.toNat t va out
      else (agentReadVa s enclave addr.toNat len).map fun bs => (streamPut s r.vb.toNat t va bs, out)
    | _, _, _ => none

/-! ### Replies -/

/-- What a service does with a request that it carries out: the ranges it reads are reached again, DPUT and DGET move a frame, then the
ranges marked OUT are written; whether no argument failed (R350, R351). -/
def serviceMove (s : State) (enclave : Nat) (r : SyscReq) (out : List (Nat × List Byte)) : State × Bool :=
  match serviceArgs s enclave r.args with
  | (s, true) => match serviceStream s enclave r out with
    | some (s, out) => serviceOut s enclave r.args out
    | none => (s, false)
  | f => f

/-- Code and result of a reply: fixed for NULL and for the numbers that name no service; the others are done, fail on an argument,
or are refused (R350, R351). -/
def replyWord (svc : Nat) (refused ok : Bool) (code result : Word) : Nat :=
  if svc = 0 then 0
  else if 6 ≤ svc then 1
  else if refused || code ≠ 0 then 2 + 2 ^ 32 * result.toNat
  else if !ok then 3
  else 2 ^ 32 * result.toNat

/-- A reply arrives: the service's writes, then vd and an acquire at `.sy` (R350). -/
def execSyscReply (t : Nat) (code result : Word) (out : List (Nat × List Byte)) (s : State) : Result :=
  match threadOf s t, s.requests.find? fun r => r.thread == t && r.taken with
  | some v, some r =>
    match v.sysc with
    | some (.taken (.sysc svc x)) =>
      let i := Instr.sysc svc x
      let refused := r.streamless s (threadEnclave s v)
      let (s, ok) := if r.svc = 0 || 6 ≤ r.svc || refused || code ≠ 0 then (s, true) else serviceMove s (threadEnclave s v) r out
      let s := { s with requests := s.requests.filter fun q => q != r }
      let s := acquireAt s v.control (threadCore s v) .sy
      let (s, v') := phaseIf true s v
      match readSrc v' (.reg 1 x.vb) with
      | none => .next (setThread s t { v' with sysc := none })
      | some (_, g, v'') => .next (completeAt true i s (.thread t) v { setRegs v'' x.vd.toNat 2 (replyWord r.svc refused ok code result) with
          sysc := none, pc := v.next i } g)
    | _ => .next s
  | _, _ => .next s

end Sys2Proof.Machine
end

