-- ==== Sys2Proof/Machine/Dispatch.lean ====
section
/-! DEFINITION. One arm per instruction or step, each one direct call of its meaning. -/

namespace Sys2Proof.Machine

/-- What an instruction or step does. -/
def exec (i : Instr) (s : State) : Host.Outcome State Fault Refusal :=
  match i with
  | .iaddB3 x => Sys2Proof.Machine.execIaddB3 x s
  | .isubB3 x => Sys2Proof.Machine.execIsubB3 x s
  | .imulB3 x => Sys2Proof.Machine.execImulB3 x s
  | .iminB3 x => Sys2Proof.Machine.execIminB3 x s
  | .imaxB3 x => Sys2Proof.Machine.execImaxB3 x s
  | .andB3 x => Sys2Proof.Machine.execAndB3 x s
  | .orB3 x => Sys2Proof.Machine.execOrB3 x s
  | .xorB3 x => Sys2Proof.Machine.execXorB3 x s
  | .shlB3 x => Sys2Proof.Machine.execShlB3 x s
  | .shrB3 x => Sys2Proof.Machine.execShrB3 x s
  | .sarB3 x => Sys2Proof.Machine.execSarB3 x s
  | .movB3 x => Sys2Proof.Machine.execMovB3 x s
  | .faddB3 x => Sys2Proof.Machine.execFaddB3 x s
  | .fsubB3 x => Sys2Proof.Machine.execFsubB3 x s
  | .fmulB3 x => Sys2Proof.Machine.execFmulB3 x s
  | .fminB3 x => Sys2Proof.Machine.execFminB3 x s
  | .fmaxB3 x => Sys2Proof.Machine.execFmaxB3 x s
  | .ffmaB3 x => Sys2Proof.Machine.execFfmaB3 x s
  | .iaddBI x => Sys2Proof.Machine.execIaddBI x s
  | .andBI x => Sys2Proof.Machine.execAndBI x s
  | .orBI x => Sys2Proof.Machine.execOrBI x s
  | .xorBI x => Sys2Proof.Machine.execXorBI x s
  | .shlBI x => Sys2Proof.Machine.execShlBI x s
  | .shrBI x => Sys2Proof.Machine.execShrBI x s
  | .sarBI x => Sys2Proof.Machine.execSarBI x s
  | .moviB x => Sys2Proof.Machine.execMoviB x s
  | .ldB32 x => Sys2Proof.Machine.execLdB32 x s
  | .ldB64 x => Sys2Proof.Machine.execLdB64 x s
  | .stB32 x => Sys2Proof.Machine.execStB32 x s
  | .stB64 x => Sys2Proof.Machine.execStB64 x s
  | .ldsB32 x => Sys2Proof.Machine.execLdsB32 x s
  | .stsB32 x => Sys2Proof.Machine.execStsB32 x s
  | .ldsB64 x => Sys2Proof.Machine.execLdsB64 x s
  | .stsB64 x => Sys2Proof.Machine.execStsB64 x s
  | .braBB mask inv off => Sys2Proof.Machine.execBraBB mask inv off s
  | .callBB ign off => Sys2Proof.Machine.execCallBB ign off s
  | .waitB ld st cp tl => Sys2Proof.Machine.execWaitB ld st cp tl s
  | .iaddExt sat ty x => Sys2Proof.Machine.execIaddExt sat ty x s
  | .isubExt sat ty x => Sys2Proof.Machine.execIsubExt sat ty x s
  | .imulExt ty x => Sys2Proof.Machine.execImulExt ty x s
  | .imulhi ty x => Sys2Proof.Machine.execImulhi ty x s
  | .imad sat ty x => Sys2Proof.Machine.execImad sat ty x s
  | .iminExt ty x => Sys2Proof.Machine.execIminExt ty x s
  | .imaxExt ty x => Sys2Proof.Machine.execImaxExt ty x s
  | .icmp c toMask md ty x => Sys2Proof.Machine.execIcmp c toMask md ty x s
  | .andExt ty x => Sys2Proof.Machine.execAndExt ty x s
  | .orExt ty x => Sys2Proof.Machine.execOrExt ty x s
  | .xorExt ty x => Sys2Proof.Machine.execXorExt ty x s
  | .not ty x => Sys2Proof.Machine.execNot ty x s
  | .andn ty x => Sys2Proof.Machine.execAndn ty x s
  | .shlExt ty x => Sys2Proof.Machine.execShlExt ty x s
  | .shrExt ty x => Sys2Proof.Machine.execShrExt ty x s
  | .sarExt ty x => Sys2Proof.Machine.execSarExt ty x s
  | .bfx pos len ty x => Sys2Proof.Machine.execBfx pos len ty x s
  | .bfi pos len ty x => Sys2Proof.Machine.execBfi pos len ty x s
  | .popc ty x => Sys2Proof.Machine.execPopc ty x s
  | .clz ty x => Sys2Proof.Machine.execClz ty x s
  | .brev ty x => Sys2Proof.Machine.execBrev ty x s
  | .sel inv ms ty x => Sys2Proof.Machine.execSel inv ms ty x s
  | .movExt ty x => Sys2Proof.Machine.execMovExt ty x s
  | .moviExt ty x => Sys2Proof.Machine.execMoviExt ty x s
  | .lea sh ty x => Sys2Proof.Machine.execLea sh ty x s
  | .mlog fn md ma mb x => Sys2Proof.Machine.execMlog fn md ma mb x s
  | .mmov toMask m x => Sys2Proof.Machine.execMmov toMask m x s
  | .faddExt ty x => Sys2Proof.Machine.execFaddExt ty x s
  | .fsubExt ty x => Sys2Proof.Machine.execFsubExt ty x s
  | .fmulExt ty x => Sys2Proof.Machine.execFmulExt ty x s
  | .ffmaExt ty x => Sys2Proof.Machine.execFfmaExt ty x s
  | .fminExt ty x => Sys2Proof.Machine.execFminExt ty x s
  | .fmaxExt ty x => Sys2Proof.Machine.execFmaxExt ty x s
  | .fcmp c toMask md ty x => Sys2Proof.Machine.execFcmp c toMask md ty x s
  | .fclass ty x => Sys2Proof.Machine.execFclass ty x s
  | .frnd ty x => Sys2Proof.Machine.execFrnd ty x s
  | .fsgn fn ty x => Sys2Proof.Machine.execFsgn fn ty x s
  | .fldx ty x => Sys2Proof.Machine.execFldx ty x s
  | .cvt src sat ty x => Sys2Proof.Machine.execCvt src sat ty x s
  | .pack n pos sat ty x => Sys2Proof.Machine.execPack n pos sat ty x s
  | .unpk n pos ty x => Sys2Proof.Machine.execUnpk n pos ty x s
  | .sfq fn ty x => Sys2Proof.Machine.execSfq fn ty x s
  | .sfuResultArrive w q => Sys2Proof.Machine.execSfuResultArrive w q s
  | .idivq rem ty x => Sys2Proof.Machine.execIdivq rem ty x s
  | .qsave bank x => Sys2Proof.Machine.execQsave bank x s
  | .qrst bank x => Sys2Proof.Machine.execQrst bank x s
  | .qcnt q x => Sys2Proof.Machine.execQcnt q x s
  | .cpy kind mc g x => Sys2Proof.Machine.execCpy kind mc g x s
  | .cpyg g ty x => Sys2Proof.Machine.execCpyg g ty x s
  | .cbseal x => Sys2Proof.Machine.execCbseal x s
  | .cbwait chk x => Sys2Proof.Machine.execCbwait chk x s
  | .promiseMissed t batch => Sys2Proof.Machine.execPromiseMissed t batch s
  | .gopen g x => Sys2Proof.Machine.execGopen g x s
  | .gset g x => Sys2Proof.Machine.execGset g x s
  | .tnx o sc sync post slot args x => Sys2Proof.Machine.execTnx o sc sync post slot args x s
  | .tnsync x => Sys2Proof.Machine.execTnsync x s
  | .shfl all mode ty x => Sys2Proof.Machine.execShfl all mode ty x s
  | .vote all kind x => Sys2Proof.Machine.execVote all kind x s
  | .tred all op ty x => Sys2Proof.Machine.execTred all op ty x s
  | .tscan all op inc ty x => Sys2Proof.Machine.execTscan all op inc ty x s
  | .ldExt o sc sync ty x => Sys2Proof.Machine.execLdExt o sc sync ty x s
  | .stExt o sc sync ty x => Sys2Proof.Machine.execStExt o sc sync ty x s
  | .ldsExt ty x => Sys2Proof.Machine.execLdsExt ty x s
  | .stsExt ty x => Sys2Proof.Machine.execStsExt ty x s
  | .ldr ty x => Sys2Proof.Machine.execLdr ty x s
  | .str ty x => Sys2Proof.Machine.execStr ty x s
  | .pref l2 x => Sys2Proof.Machine.execPref l2 x s
  | .atom op o sc sync rne ty x => Sys2Proof.Machine.execAtom op o sc sync rne ty x s
  | .red op o sc sync rne ty x => Sys2Proof.Machine.execRed op o sc sync rne ty x s
  | .fence o sc x => Sys2Proof.Machine.execFence o sc x s
  | .waitc c o sc sync ty x => Sys2Proof.Machine.execWaitc c o sc sync ty x s
  | .monitorWake core line => Sys2Proof.Machine.execMonitorWake core line s
  | .waitcRecheck t => Sys2Proof.Machine.execWaitcRecheck t s
  | .cctl op sc x => Sys2Proof.Machine.execCctl op sc x s
  | .ifence x => Sys2Proof.Machine.execIfence x s
  | .pgalloc x => Sys2Proof.Machine.execPgalloc x s
  | .pgfree x => Sys2Proof.Machine.execPgfree x s
  | .braExt x => Sys2Proof.Machine.execBraExt x s
  | .jmp x => Sys2Proof.Machine.execJmp x s
  | .callExt x => Sys2Proof.Machine.execCallExt x s
  | .calli x => Sys2Proof.Machine.execCalli x s
  | .ret x => Sys2Proof.Machine.execRet x s
  | .meet x => Sys2Proof.Machine.execMeet x s
  | .meetHold t => Sys2Proof.Machine.execMeetHold t s
  | .exit x => Sys2Proof.Machine.execExit x s
  | .bar x => Sys2Proof.Machine.execBar x s
  | .tbar level x => Sys2Proof.Machine.execTbar level x s
  | .ypt x => Sys2Proof.Machine.execYpt x s
  | .nopExt x => Sys2Proof.Machine.execNopExt x s
  | .sleepc x => Sys2Proof.Machine.execSleepc x s
  | .sleepcWake t => Sys2Proof.Machine.execSleepcWake t s
  | .waitExt ld st cp x => Sys2Proof.Machine.execWaitExt ld st cp x s
  | .raise red x => Sys2Proof.Machine.execRaise red x s
  | .itnext x => Sys2Proof.Machine.execItnext x s
  | .itend x => Sys2Proof.Machine.execItend x s
  | .hred x => Sys2Proof.Machine.execHred x s
  | .joinh fold x => Sys2Proof.Machine.execJoinh fold x s
  | .handForceRelease t h => Sys2Proof.Machine.execHandForceRelease t h s
  | .mdesc r x => Sys2Proof.Machine.execMdesc r x s
  | .mldb r x => Sys2Proof.Machine.execMldb r x s
  | .mrow a c feed ord pair x => Sys2Proof.Machine.execMrow a c feed ord pair x s
  | .mzero r x => Sys2Proof.Machine.execMzero r x s
  | .msync x => Sys2Proof.Machine.execMsync x s
  | .mstat x => Sys2Proof.Machine.execMstat x s
  | .sreg idx x => Sys2Proof.Machine.execSreg idx x s
  | .sset idx x => Sys2Proof.Machine.execSset idx x s
  | .trap x => Sys2Proof.Machine.execTrap x s
  | .rte x => Sys2Proof.Machine.execRte x s
  | .rteSkip x => Sys2Proof.Machine.execRteSkip x s
  | .rteSub x => Sys2Proof.Machine.execRteSub x s
  | .sysc svc x => Sys2Proof.Machine.execSysc svc x s
  | .syscReply t code result out => Sys2Proof.Machine.execSyscReply t code result out s
  | .launch q x => Sys2Proof.Machine.execLaunch q x s
  | .plumb x => Sys2Proof.Machine.execPlumb x s
  | .brk x => Sys2Proof.Machine.execBrk x s
  | .encCreate rd rs1 => Sys2Proof.Machine.execEncCreate rd rs1 s
  | .encAddpg rd rs1 rs2 => Sys2Proof.Machine.execEncAddpg rd rs1 rs2 s
  | .encEnter rd rs1 rs2 => Sys2Proof.Machine.execEncEnter rd rs1 rs2 s
  | .encSeal rd rs1 rs2 => Sys2Proof.Machine.execEncSeal rd rs1 rs2 s
  | .encUnseal rd rs1 rs2 => Sys2Proof.Machine.execEncUnseal rd rs1 rs2 s
  | .encDestroy rd rs1 => Sys2Proof.Machine.execEncDestroy rd rs1 s
  | .keyTransfer enclave peerAttested => Sys2Proof.Machine.execKeyTransfer enclave peerAttested s
  | .enclaveAsyncExit hart cause => Sys2Proof.Machine.execEnclaveAsyncExit hart cause s
  | .kqcfgWrite enclave q v => Sys2Proof.Machine.execKqcfgWrite enclave q v s
  | .kqdoorTailWrite enclave q v => Sys2Proof.Machine.execKqdoorTailWrite enclave q v s
  | .headerCheck enclave q => Sys2Proof.Machine.execHeaderCheck enclave q s
  | .tokenReady l => Sys2Proof.Machine.execTokenReady l s
  | .priorityAge enclave q => Sys2Proof.Machine.execPriorityAge enclave q s
  | .launchRetire l => Sys2Proof.Machine.execLaunchRetire l s
  | .preemptRequest ticket => Sys2Proof.Machine.execPreemptRequest ticket s
  | .mappedSave ticket => Sys2Proof.Machine.execMappedSave ticket s
  | .fullSave ticket => Sys2Proof.Machine.execFullSave ticket s
  | .bentResume ticket => Sys2Proof.Machine.execBentResume ticket s
  | .planerRegroup bay => Sys2Proof.Machine.execPlanerRegroup bay s
  | .issueSelect bay => Sys2Proof.Machine.execIssueSelect bay s
  | .starvationForce bay => Sys2Proof.Machine.execStarvationForce bay s
  | .powerWindow cluster => Sys2Proof.Machine.execPowerWindow cluster s
  | .clbudgetWrite src cluster v => Sys2Proof.Machine.execClbudgetWrite src cluster v s
  | .copyCommandBegin c => Sys2Proof.Machine.execCopyCommandBegin c s
  | .copyCommandComplete c => Sys2Proof.Machine.execCopyCommandComplete c s
  | .tlbMissWalk core enclave va => Sys2Proof.Machine.execTlbMissWalk core enclave va s
  | .tlbInvalidate enclave va => Sys2Proof.Machine.execTlbInvalidate enclave va s
  | .demandZeroFill enclave va => Sys2Proof.Machine.execDemandZeroFill enclave va s
  | .retentionOverflow core bay => Sys2Proof.Machine.execRetentionOverflow core bay s
  | .tenonExecute slice => Sys2Proof.Machine.execTenonExecute slice s
  | .tenonDone t => Sys2Proof.Machine.execTenonDone t s
  | .quarterBind q => Sys2Proof.Machine.execQuarterBind q s
  | .bankSwap q bad => Sys2Proof.Machine.execBankSwap q bad s
  | .rowAccept q bad => Sys2Proof.Machine.execRowAccept q bad s
  | .segmentArrive k => Sys2Proof.Machine.execSegmentArrive k s
  | .mzeroComplete q => Sys2Proof.Machine.execMzeroComplete q s
  | .fillFault q => Sys2Proof.Machine.execFillFault q s
  | .integrityHalt consumer line mac => Sys2Proof.Machine.execIntegrityHalt consumer line mac s
  | .eqcfgWrite enclave v => Sys2Proof.Machine.execEqcfgWrite enclave v s
  | .eqdoorHeadWrite enclave v => Sys2Proof.Machine.execEqdoorHeadWrite enclave v s
  | .packageFailure unit => Sys2Proof.Machine.execPackageFailure unit s
  | .negotiateAlgorithms sm2 others => Sys2Proof.Machine.execNegotiateAlgorithms sm2 others s
  | .getCertificate slot => Sys2Proof.Machine.execGetCertificate slot s
  | .challenge slot nonce => Sys2Proof.Machine.execChallenge slot nonce s
  | .getMeasurements index nonce => Sys2Proof.Machine.execGetMeasurements index nonce s
  | .keyExchange => Sys2Proof.Machine.execKeyExchange s
  | .finish ok => Sys2Proof.Machine.execFinish ok s
  | .vendorDefinedRequest enclave nonce ckpt => Sys2Proof.Machine.execVendorDefinedRequest enclave nonce ckpt s
  | .unsupportedRequest code => Sys2Proof.Machine.execUnsupportedRequest code s
  | .egressTransfer gov sender bytes => Sys2Proof.Machine.execEgressTransfer gov sender bytes s
  | .egressWindow gov enclave => Sys2Proof.Machine.execEgressWindow gov enclave s
  | .egcfgWrite src gov enclave v => Sys2Proof.Machine.execEgcfgWrite src gov enclave v s
  | .dreushStreamOpen stream enclave peer peerEnclave localReq peerReq => Sys2Proof.Machine.execDreushStreamOpen stream enclave peer peerEnclave localReq peerReq s
  | .dreushFrameReceive stream tagOk va data => Sys2Proof.Machine.execDreushFrameReceive stream tagOk va data s
  | .tdispStateChange ifc enclave st => Sys2Proof.Machine.execTdispStateChange ifc enclave st s
  | .colownWrite src col v => Sys2Proof.Machine.execColownWrite src col v s
  | .pcfgWrite src p v => Sys2Proof.Machine.execPcfgWrite src p v s
  | .wmaskWrite src slice p v => Sys2Proof.Machine.execWmaskWrite src slice p v s
  | .migctlEnWrite src enclave v => Sys2Proof.Machine.execMigctlEnWrite src enclave v s
  | .migctlGo src enclave v => Sys2Proof.Machine.execMigctlGo src enclave v s
  | .migctlFinal src enclave v => Sys2Proof.Machine.execMigctlFinal src enclave v s
  | .migrationRoundDone enclave => Sys2Proof.Machine.execMigrationRoundDone enclave s
  | .checkpoint src => Sys2Proof.Machine.execCheckpoint src s
  | .checkpointRestore image => Sys2Proof.Machine.execCheckpointRestore image s
  | .clmodeWrite src cluster v => Sys2Proof.Machine.execClmodeWrite src cluster v s
  | .coresvcWrite src cluster v => Sys2Proof.Machine.execCoresvcWrite src cluster v s
  | .wgateWrite src slice v => Sys2Proof.Machine.execWgateWrite src slice v s
  | .mgsemWrite port v => Sys2Proof.Machine.execMgsemWrite port v s
  | .pkctlWarmReset src => Sys2Proof.Machine.execPkctlWarmReset src s
  | .pkctlColdReset src => Sys2Proof.Machine.execPkctlColdReset src s
  | .pkctlPlumb src => Sys2Proof.Machine.execPkctlPlumb src s
  | .pkidWrite src v => Sys2Proof.Machine.execPkidWrite src v s
  | .registerWrite src addr v => Sys2Proof.Machine.execRegisterWrite src addr v s
  | .mtimecmpInterrupt hart => Sys2Proof.Machine.execMtimecmpInterrupt hart s
  | .deviceMsi hart identity => Sys2Proof.Machine.execDeviceMsi hart identity s
  | .thermalThrottle die temp => Sys2Proof.Machine.execThermalThrottle die temp s
  | .thermalTrip die temp => Sys2Proof.Machine.execThermalTrip die temp s
  | .snapshotLatch u => Sys2Proof.Machine.execSnapshotLatch u s
  | .traceComparatorMatch => Sys2Proof.Machine.execTraceComparatorMatch s
  | .ioWriteCompletion enclave ifc va data rec recData => Sys2Proof.Machine.execIoWriteCompletion enclave ifc va data rec recData s
  | .unassignedEncoding word0 => Sys2Proof.Machine.execUnassignedEncoding word0 s
  | .sillCoreInstruction hart op => Sys2Proof.Machine.execSillCoreInstruction hart op s
  | .debuggerCommand port t c => Sys2Proof.Machine.execDebuggerCommand port t c s
  | .syscRequestTaken die iodie => Sys2Proof.Machine.execSyscRequestTaken die iodie s
  | .loadDataReturn w k => Sys2Proof.Machine.execLoadDataReturn w k s
  | .storeAccepted w => Sys2Proof.Machine.execStoreAccepted w s
  | .feedPushAccepted q => Sys2Proof.Machine.execFeedPushAccepted q s
  | .nopB => Sys2Proof.Machine.execNopB s
  | .encExit => Sys2Proof.Machine.execEncExit s
  | .dispatchDecision => Sys2Proof.Machine.execDispatchDecision s
  | .getVersion => Sys2Proof.Machine.execGetVersion s
  | .getCapabilities => Sys2Proof.Machine.execGetCapabilities s
  | .getDigests => Sys2Proof.Machine.execGetDigests s
  | .heartbeat => Sys2Proof.Machine.execHeartbeat s
  | .keyUpdate => Sys2Proof.Machine.execKeyUpdate s
  | .endSession => Sys2Proof.Machine.execEndSession s
  | .mgsemTimeout => Sys2Proof.Machine.execMgsemTimeout s
  | .powerOn => Sys2Proof.Machine.execPowerOn s
  | .watchdogReset => Sys2Proof.Machine.execWatchdogReset s
  | .phyTrainingDone => Sys2Proof.Machine.execPhyTrainingDone s
  | .scrub => Sys2Proof.Machine.execScrub s
  | .linksDone => Sys2Proof.Machine.execLinksDone s
  | .plumbTrigger => Sys2Proof.Machine.execPlumbTrigger s
  | .rootbootDone => Sys2Proof.Machine.execRootbootDone s

end Sys2Proof.Machine
end

