-- ==== Sys2Proof/Machine/Compressed.lean ====
section
/-! DEFINITION. The C extension: each 16-bit word of a hart as the 32-bit word it stands for (R340; RISC-V's own encodings by log
entry 9). -/

namespace Sys2Proof.Machine

/-- Words of the forms of RISC-V, from their fields. -/
def encI (imm rs1 f3 rd op : Nat) : Word := BitVec.ofNat 32 (pack [(7, op), (5, rd), (3, f3), (5, rs1), (12, imm)])
def encR (f7 rs2 rs1 f3 rd op : Nat) : Word := BitVec.ofNat 32 (pack [(7, op), (5, rd), (3, f3), (5, rs1), (5, rs2), (7, f7)])
def encS (imm rs2 rs1 f3 op : Nat) : Word :=
  BitVec.ofNat 32 (pack [(7, op), (5, bits imm 4 0), (3, f3), (5, rs1), (5, rs2), (7, bits imm 11 5)])
def encB (imm rs1 f3 : Nat) : Word :=
  BitVec.ofNat 32 (pack [(7, 0x63), (1, bits imm 11 11), (4, bits imm 4 1), (3, f3), (5, rs1), (5, 0), (6, bits imm 10 5), (1, bits imm 12 12)])
def encU (imm rd op : Nat) : Word := BitVec.ofNat 32 (pack [(7, op), (5, rd), (20, imm)])
def encJ (imm rd : Nat) : Word :=
  BitVec.ofNat 32 (pack [(7, 0x6F), (5, rd), (8, bits imm 19 12), (1, bits imm 11 11), (10, bits imm 10 1), (1, bits imm 20 20)])

/-- Loads and stores of a width relative to a register: offsets of words and of doublewords. -/
def cOffW (w : Nat) : Nat := pack [(2, 0), (1, bits w 6 6), (3, bits w 12 10), (1, bits w 5 5)]
def cOffD (w : Nat) : Nat := pack [(3, 0), (3, bits w 12 10), (2, bits w 6 5)]

/-- The 6-bit signed immediate. -/
def cImm (w : Nat) : Int := sext (bits w 12 12 * 32 + bits w 6 2) 6
/-- Offsets of jumps and branches. -/
def cJump (w : Nat) : Int :=
  sext (pack [(1, 0), (3, bits w 5 3), (1, bits w 11 11), (1, bits w 2 2), (1, bits w 7 7), (1, bits w 6 6), (2, bits w 10 9), (1, bits w 8 8), (1, bits w 12 12)]) 12
def cBranch (w : Nat) : Int := sext (pack [(1, 0), (2, bits w 4 3), (2, bits w 11 10), (1, bits w 2 2), (2, bits w 6 5), (1, bits w 12 12)]) 9

/-- Quadrant 0: stack addresses and the register-relative loads and stores. -/
def expand0 (w : Nat) : Option Word :=
  let rd := 8 + bits w 4 2
  let rs := 8 + bits w 9 7
  match bits w 15 13 with
  | 0 =>
    let imm := pack [(2, 0), (1, bits w 6 6), (1, bits w 5 5), (2, bits w 12 11), (4, bits w 10 7)]
    if imm = 0 then none else some (encI imm 2 0 rd 0x13)
  | 1 => some (encI (cOffD w) rs 3 rd 0x07)
  | 2 => some (encI (cOffW w) rs 2 rd 0x03)
  | 3 => some (encI (cOffD w) rs 3 rd 0x03)
  | 5 => some (encS (cOffD w) rd rs 3 0x27)
  | 6 => some (encS (cOffW w) rd rs 2 0x23)
  | 7 => some (encS (cOffD w) rd rs 3 0x23)
  | _ => none

/-- The register operations of quadrant 1. -/
def expandAlu (w : Nat) : Option Word :=
  let rd := 8 + bits w 9 7
  let rs := 8 + bits w 4 2
  let sh := bits w 12 12 * 32 + bits w 6 2
  match bits w 11 10, bits w 12 12, bits w 6 5 with
  | 0, _, _ => some (encI sh rd 5 rd 0x13)
  | 1, _, _ => some (encI (0x400 + sh) rd 5 rd 0x13)
  | 2, _, _ => some (encI (wrap 12 (cImm w)) rd 7 rd 0x13)
  | _, 0, 0 => some (encR 0x20 rs rd 0 rd 0x33)
  | _, 0, 1 => some (encR 0 rs rd 4 rd 0x33)
  | _, 0, 2 => some (encR 0 rs rd 6 rd 0x33)
  | _, 0, _ => some (encR 0 rs rd 7 rd 0x33)
  | _, _, 0 => some (encR 0x20 rs rd 0 rd 0x3B)
  | _, _, 1 => some (encR 0 rs rd 0 rd 0x3B)
  | _, _, _ => none

/-- Quadrant 1: immediates, the register operations, jumps and branches. -/
def expand1 (w : Nat) : Option Word :=
  let rd := bits w 11 7
  let imm := wrap 12 (cImm w)
  match bits w 15 13 with
  | 0 => some (encI imm rd 0 rd 0x13)
  | 1 => if rd = 0 then none else some (encI imm rd 0 rd 0x1B)
  | 2 => some (encI imm 0 0 rd 0x13)
  | 3 =>
    if cImm w = 0 then none
    else if rd = 2 then
      let x := sext (pack [(4, 0), (1, bits w 6 6), (1, bits w 2 2), (1, bits w 5 5), (2, bits w 4 3), (1, bits w 12 12)]) 10
      some (encI (wrap 12 x) 2 0 2 0x13)
    else some (encU (wrap 20 (cImm w)) rd 0x37)
  | 4 => expandAlu w
  | 5 => some (encJ (wrap 21 (cJump w)) 0)
  | 6 => some (encB (wrap 13 (cBranch w)) (8 + bits w 9 7) 0)
  | _ => some (encB (wrap 13 (cBranch w)) (8 + bits w 9 7) 1)

/-- Quadrant 2: shifts, loads and stores on the stack, jumps through registers and moves. -/
def expand2 (w : Nat) : Option Word :=
  let rd := bits w 11 7
  let rs := bits w 6 2
  let offD := pack [(3, 0), (2, bits w 6 5), (1, bits w 12 12), (3, bits w 4 2)]
  let offW := pack [(2, 0), (3, bits w 6 4), (1, bits w 12 12), (2, bits w 3 2)]
  let sdsp := pack [(3, 0), (3, bits w 12 10), (3, bits w 9 7)]
  let swsp := pack [(2, 0), (4, bits w 12 9), (2, bits w 8 7)]
  match bits w 15 13 with
  | 0 => some (encI (bits w 12 12 * 32 + rs) rd 1 rd 0x13)
  | 1 => some (encI offD 2 3 rd 0x07)
  | 2 => if rd = 0 then none else some (encI offW 2 2 rd 0x03)
  | 3 => if rd = 0 then none else some (encI offD 2 3 rd 0x03)
  | 4 => match bits w 12 12, rd, rs with
    | 0, 0, 0 => none
    | 0, r, 0 => some (encI 0 r 0 0 0x67)
    | 0, r, x => some (encR 0 x 0 0 r 0x33)
    | _, 0, 0 => some (BitVec.ofNat 32 0x00100073)
    | _, r, 0 => some (encI 0 r 0 1 0x67)
    | _, r, x => some (encR 0 x r 0 r 0x33)
  | 5 => some (encS sdsp rs 2 3 0x27)
  | 6 => some (encS swsp rs 2 2 0x23)
  | _ => some (encS sdsp rs 2 3 0x23)

/-- The word that a 16-bit one stands for, none for a reserved or illegal one. -/
def expandC (w : Nat) : Option Word :=
  match w % 4 with
  | 0 => expand0 w
  | 1 => expand1 w
  | _ => expand2 w

end Sys2Proof.Machine
end

