-- ==== Sys2Proof/Machine/RvFloat.lean ====
section
/-! DEFINITION. The F and D extensions of a hart, in exact arithmetic with one rounding at the end (R340; RISC-V's own rules by log
entry 9). -/

namespace Sys2Proof.Machine

/-! ### Values and rounding -/

/-- binary64 (binary32 is `Fmt.f32`). -/
def Fmt.f64 : Fmt :=
  { ebits := 11, mbits := 52, bias := 1023, maxCode := 0x7FEFFFFFFFFFFFFF, inf := some 0x7FF0000000000000, nan := some 0x7FF8000000000000 }

/-- The format of a width bit: 1 for double. -/
def rvFmt (d : Bool) : Fmt := if d then .f64 else .f32

/-- The value of a pattern, a NaN signalling when the top bit of its fraction is clear. -/
def rvValue (f : Fmt) (x : Nat) : FVal :=
  match f.decode x with
  | .nan _ => .nan (!bit x (f.mbits - 1))
  | v => v

/-- Rounding modes by code: to nearest even, toward zero, down, up, to nearest with ties away; none for the reserved codes. -/
def rvMode : Nat → Option Rnd
  | 0 => some .dflt
  | 1 => some .rtz
  | 2 => some .rdn
  | 3 => some .rup
  | 4 => some .rna
  | _ => none

/-- Whether a number is below the normal range once rounded with no bound on its exponent. -/
def tiny (f : Fmt) (mode : Rnd) (neg : Bool) (mag : Nat) (exp : Int) : Bool :=
  let g : Fmt := { f with bias := f.bias + 65536 }
  (g.magnitude mode 0 neg mag exp).1 < 65537 * 2 ^ f.mbits

/-- A value rounded to a format; underflow is judged after rounding. -/
def rvRound (f : Fmt) (mode : Rnd) (v : FVal) : Nat × Flags :=
  match v with
  | .num neg mag exp =>
    let (x, fl) := f.roundNum mode 0 false neg mag exp
    if mag = 0 || fl &&& fOF != 0 then (x, fl)
    else (x, flagIf (fl &&& fNX != 0) fNX ||| flagIf (fl &&& fNX != 0 && tiny f mode neg mag exp) fUF)
  | v => f.round mode 0 false v

/-- The quotient of two values, exact but for a last bit that says whether more follows. -/
def FVal.div (x y : FVal) : FVal × Flags :=
  match x, y with
  | .nan s, y => (.nan false, flagIf (s || y.signalling) fNV)
  | _, .nan s => (.nan false, flagIf s fNV)
  | .inf _, .inf _ => (.nan false, fNV)
  | .inf a, .num b _ _ => (.inf (a != b), 0)
  | .num a _ _, .inf b => (.num (a != b) 0 0, 0)
  | .num a m e, .num b n f =>
    if n = 0 then (if m = 0 then (.nan false, fNV) else (.inf (a != b), fDZ))
    else
      let k := 130 + Nat.log2 n
      let q := m * 2 ^ k / n
      (.num (a != b) (2 * q + ofBool (m * 2 ^ k % n != 0)) (e - f - k - 1), 0)

/-- The square root of a value, in the same way. -/
def FVal.sqrt (x : FVal) : FVal × Flags :=
  match x with
  | .nan s => (.nan false, flagIf s fNV)
  | .inf neg => if neg then (.nan false, fNV) else (.inf false, 0)
  | .num neg m e =>
    if m = 0 then (.num neg 0 0, 0)
    else if neg then (.nan false, fNV)
    else
      let k : Nat := if e % 2 = 0 then 140 else 141
      let n := m * 2 ^ k
      let r := Sfu.isqrt n 100 0
      (.num false (2 * r + ofBool (r * r != n)) ((e - k) / 2 - 1), 0)

/-- The smaller or greater of two patterns: a NaN gives way to a number, −0 is below +0. -/
def rvMinMax (f : Fmt) (max : Bool) (a b : Nat) : Nat × Flags :=
  let x := rvValue f a
  let y := rvValue f b
  let fl := flagIf (x.signalling || y.signalling) fNV
  if x.isNan && y.isNan then (f.nan.getD 0, fl)
  else if x.isNan then (b, fl)
  else if y.isNan then (a, fl)
  else
    let less := FVal.lt x y || (FVal.eq x y && x.isNeg)
    (if less != max then a else b, fl)

/-- Comparisons by code: at most, below, equal; only the last is quiet. -/
def rvCompare (f : Fmt) (f3 : Nat) (a b : Nat) : Nat × Flags :=
  let x := rvValue f a
  let y := rvValue f b
  let nv := flagIf (if f3 = 2 then x.signalling || y.signalling else x.isNan || y.isNan) fNV
  (ofBool (match f3 with
    | 0 => FVal.lt x y || FVal.eq x y
    | 1 => FVal.lt x y
    | _ => FVal.eq x y), nv)

/-- The class of a pattern, one bit of ten. -/
def rvClass (f : Fmt) (x : Nat) : Nat :=
  match rvValue f x with
  | .nan s => if s then 2 ^ 8 else 2 ^ 9
  | .inf neg => if neg then 1 else 2 ^ 7
  | .num neg m _ =>
    if m = 0 then (if neg then 2 ^ 3 else 2 ^ 4)
    else if m < 2 ^ f.mbits then (if neg then 2 ^ 2 else 2 ^ 5)
    else if neg then 2 else 2 ^ 6

/-- Integer types by code: signed and unsigned, of 32 and 64 bits. -/
def rvIntTy : Nat → Ty
  | 0 => .b32
  | 1 => .z32
  | 2 => .s64
  | _ => .z64

/-- A value as an integer of a type; a NaN gives the greatest. -/
def rvToInt (t : Ty) (mode : Rnd) (v : FVal) : Int × Flags :=
  match v with
  | .nan _ => (Ty.hi t, fNV)
  | v => toInt t mode v

/-- An integer register's value in a type. -/
def rvFromInt (t : Ty) (x : DWord) : FVal := fpValue t x.toNat

/-! ### Registers -/

/-- A floating-point register. -/
def Hart.getF (h : Hart) (r : BitVec 5) : DWord := Tab.getD h.f r.toNat 0
/-- One written; the floating-point state is dirty. -/
def Hart.setF (h : Hart) (r : BitVec 5) (v : DWord) : Hart := { h.dirtyFs with f := Tab.set h.f r.toNat v }

/-- A single as a register holds it: under ones. -/
def boxed (x : Nat) : DWord := BitVec.ofNat 64 (0xFFFFFFFF00000000 + x % 2 ^ 32)

/-- A register's pattern in a width; what is not boxed is the canonical NaN. -/
def Hart.pattern (h : Hart) (d : Bool) (r : BitVec 5) : Nat :=
  let x := (h.getF r).toNat
  if d then x else if x / 2 ^ 32 = 2 ^ 32 - 1 then x % 2 ^ 32 else 0x7FC00000
/-- A result of a width written. -/
def Hart.setPattern (h : Hart) (d : Bool) (r : BitVec 5) (x : Nat) : Hart := h.setF r (if d then BitVec.ofNat 64 x else boxed x)

/-- Flags raised. -/
def Hart.raiseFlags (h : Hart) (fl : Flags) : Hart := if fl = 0 then h else { h.dirtyFs with fcsr := h.fcsr ||| fl.zeroExtend 32 }

/-- The rounding mode of an instruction: its own, or frm's. -/
def Hart.rounding (h : Hart) (rm : Nat) : Option Rnd := rvMode (if rm = 7 then bits h.fcsr.toNat 7 5 else rm)

/-! ### Instructions -/

/-- Arithmetic of two operands by code: sum, difference, product, quotient. -/
def rvArith (code : Nat) (rdn : Bool) (x y : FVal) : FVal × Flags :=
  match code with
  | 0 => FVal.add rdn x y
  | 1 => FVal.add rdn x y.neg
  | 2 => FVal.mul x y
  | _ => FVal.div x y

/-- A rounded result written with its flags. -/
def Hart.result (h : Hart) (d : Bool) (rd : BitVec 5) (mode : Rnd) (v : FVal × Flags) : Hart :=
  let (x, fl) := rvRound (rvFmt d) mode v.1
  (h.setPattern d rd x).raiseFlags (v.2 ||| fl)

/-- The fused forms: x·y + z with the signs of the product and of z by code. -/
def rvFused (h : Hart) (w : Nat) : Option Hart :=
  let d := bit w 25
  let r (lo : Nat) : FVal := rvValue (rvFmt d) (h.pattern d (BitVec.ofNat 5 (w / 2 ^ lo)))
  let code := bits w 3 2
  if bits w 26 26 != 0 then none
  else (h.rounding (bits w 14 12)).map fun mode =>
    let x := if code = 2 || code = 3 then (r 15).neg else r 15
    let z := if code = 1 || code = 3 then (r 27).neg else r 27
    h.result d (BitVec.ofNat 5 (w / 2 ^ 7)) mode (FVal.fma (mode == .rdn) x (r 20) z)

/-- OP-FP: the hart after an instruction but for its PC, none where it is reserved. -/
def rvFp (h : Hart) (w : Nat) : Option Hart :=
  let f7 := bits w 31 25
  let d := bit f7 0
  let f := rvFmt d
  let rd := BitVec.ofNat 5 (bits w 11 7)
  let rs1 := BitVec.ofNat 5 (bits w 19 15)
  let rs2 := BitVec.ofNat 5 (bits w 24 20)
  let f3 := bits w 14 12
  let a := h.pattern d rs1
  let b := h.pattern d rs2
  let s := f.signBit
  match f7 / 2 with
  | 0x00 | 0x02 | 0x04 | 0x06 => (h.rounding f3).map fun mode =>
      h.result d rd mode (rvArith (f7 / 4) (mode == .rdn) (rvValue f a) (rvValue f b))
  | 0x16 => if rs2 ≠ 0 then none else (h.rounding f3).map fun mode => h.result d rd mode (rvValue f a).sqrt
  | 0x08 => match f3 with
    | 0 => some (h.setPattern d rd (a % s + b / s * s))
    | 1 => some (h.setPattern d rd (a % s + (1 - b / s) * s))
    | 2 => some (h.setPattern d rd (a % s + (a / s + b / s) % 2 * s))
    | _ => none
  | 0x0A => if 1 < f3 then none else
      let (x, fl) := rvMinMax f (f3 == 1) a b
      some ((h.setPattern d rd x).raiseFlags fl)
  | 0x28 => if 2 < f3 then none else
      let (x, fl) := rvCompare f f3 a b
      some ((h.setX rd (BitVec.ofNat 64 x)).raiseFlags fl)
  | 0x30 => if 3 < rs2.toNat then none else (h.rounding f3).map fun mode =>
      let (i, fl) := rvToInt (rvIntTy rs2.toNat) mode (rvValue f a)
      (h.setX rd (if rs2.toNat < 2 then (BitVec.ofInt 32 i).signExtend 64 else BitVec.ofInt 64 i)).raiseFlags fl
  | 0x34 => if 3 < rs2.toNat then none else (h.rounding f3).map fun mode =>
      h.result d rd mode (rvFromInt (rvIntTy rs2.toNat) (h.getX rs1), 0)
  | 0x38 => match f3, rs2.toNat with
    | 0, 0 => some (h.setX rd (if d then h.getF rs1 else ((h.getF rs1).truncate 32).signExtend 64))
    | 1, 0 => some (h.setX rd (BitVec.ofNat 64 (rvClass f a)))
    | _, _ => none
  | 0x3C => if f3 ≠ 0 || rs2 ≠ 0 then none else some (h.setPattern d rd (h.getX rs1).toNat)
  | 0x10 => if rs2.toNat ≠ 1 - ofBool d then none else (h.rounding f3).map fun mode =>
      h.result d rd mode (rvValue (rvFmt !d) (h.pattern (!d) rs1), 0)
  | _ => none

end Sys2Proof.Machine
end

