-- ==== Sys2Proof/Machine/Csr.lean ====
section
/-! DEFINITION. The control and status registers of a hart: what each reads, what a write leaves, and who may name it (R340, R342;
RISC-V's own rules by log entry 9). -/

namespace Sys2Proof.Machine

/-! ### Values -/

/-- Bits of mstatus that are stored as they are: SIE, MIE, SPIE, MPIE, SPP, FS, MPRV, SUM, MXR, TVM, TW, TSR and GVA. -/
def maskM : Nat := 0x40007E61AA
/-- Those that sstatus shows, and vsstatus has: SIE, SPIE, SPP, FS, SUM and MXR. -/
def maskS : Nat := 0xC6122

/-- UXL, and SD, which says that the floating-point state is dirty. -/
def uxl : Nat := 2 * 2 ^ 32
def sdBit (fs : Nat) : Nat := if fs = 3 then 2 ^ 63 else 0

/-- mstatus. -/
def Hart.mstatus (h : Hart) : Nat :=
  (h.csrOf csrMstatus &&& maskM) + 2 ^ 11 * (mppOf h.prev).1 + 2 ^ 39 * ofBool (mppOf h.prev).2 + uxl + 2 * 2 ^ 34 + sdBit h.fs

/-- CSRs that hold what is written in the bits of a mask and nothing else. -/
def csrPlain : Nat → Option Nat
  | 0x302 => some 0xF0B7FF
  | 0x303 => some 0x222
  | 0x304 => some 0xEEE
  | 0x306 | 0x106 | 0x606 => some 7
  | 0x320 => some 5
  | 0x340 | 0x140 | 0x240 | 0x34A | 0x34B | 0x142 | 0x143 | 0x242 | 0x243 | 0x605 | 0x643 | 0x64A => some (2 ^ 64 - 1)
  | 0x150 | 0x250 | 0x350 | 0xB02 => some (2 ^ 64 - 1)
  | 0x105 | 0x205 => some (2 ^ 64 - 3)
  | 0x141 | 0x241 => some (2 ^ 64 - 2)
  | 0x600 => some 0x7003C0
  | 0x602 => some 0xB1FF
  | 0x603 | 0x645 => some 0x444
  | 0x609 => some 0x4FFF03FF
  | 0x200 => some maskS
  | _ => none

/-- CSRs of parts that a hart may leave out, which read zero: physical memory protection, further counters, guest interrupt files. -/
def csrZero (c : Nat) : Bool :=
  (0x3A0 ≤ c && c < 0x3B0 && c % 2 == 0) || (0x3B0 ≤ c && c < 0x3F0) || (0xB03 ≤ c && c < 0xB20) || (0x323 ≤ c && c < 0x340) ||
    (0xC03 ≤ c && c < 0xC20) || [0xF15, 0x607, 0xE12, 0x308, 0x608, 0x646, 0x647].contains c

/-- CSRs that only the H extension has. -/
def csrOfH (c : Nat) : Bool := bits c 9 8 == 2 || c == 0x34A || c == 0x34B

/-- The first interrupt of a set, as mtopi and stopi show it. -/
def topInt (on : Nat) : Nat := ((intOrder.find? (bit on)).map fun i => i * 65536 + 1).getD 0

/-- What vstopi shows: an interrupt's number, and its priority number where IPRIOM of hvictl asks for it, otherwise 1. -/
def Hart.vstopi (h : Hart) : Nat :=
  (h.vsTop.map fun (i, p) => i * 65536 + if bit (h.csrOf csrHvictl) 8 then min p 255 else 1).getD 0

/-- Whether siselect, or with `m` miselect, names no register: one outside the priorities and the interrupt file, or, among those that a
64-bit hart has at even numbers alone, an odd one. An access through it is illegal (log entry 14). -/
def Hart.noFileReg (h : Hart) (m : Bool) : Bool :=
  let sel := h.csrOf (if m then 0x350 else 0x150)
  let pairs := (0x30 ≤ sel && sel < 0x40) || (selPending ≤ sel && sel < 0x100)
  if pairs then sel % 2 == 1 else !(selDelivery ≤ sel && sel < selPending)

/-- Whether an access of VS mode to a register of supervisor level is left to HS mode: the external interrupts of a virtual machine, which
has no guest interrupt file, and the pending and enabled bits while hvictl injects (log entry 14). -/
def virtualOnly (h : Hart) (num : Nat) : Bool :=
  h.mode == .vs && (num == 0x151 || num == 0x15C || ((num == 0x104 || num == 0x144) && h.injects))

/-- What sireg, and with `m` mireg, reaches: the register of its interrupt file that siselect or miselect names; priorities read zero. -/
def Hart.fileRead (h : Hart) (m : Bool) : Nat :=
  let sel := h.csrOf (if m then 0x350 else 0x150)
  if selPending ≤ sel && sel < selEnable then
    ((h.msis m).filter fun id => id / 64 * 2 == sel - selPending).foldl (fun m id => m ||| 2 ^ (id % 64)) 0
  else if sel = selDelivery || sel = selThreshold || (selEnable ≤ sel && sel < 0x100) then h.csrOf (fileReg m sel)
  else 0

/-- Its write. Identity 0 is never pending nor enabled. -/
def Hart.fileWrite (h : Hart) (m : Bool) (v : Nat) : Hart :=
  let sel := h.csrOf (if m then 0x350 else 0x150)
  if selPending ≤ sel && sel < selEnable then
    h.setMsis m ((h.msis m).filter (fun id => id / 64 * 2 != sel - selPending) ++
      (((upFrom 0 64).filter (bit v)).map fun i => (sel - selPending) / 2 * 64 + i).filter (· != 0))
  else if sel = selDelivery then h.setCsr (fileReg m sel) (v % 2)
  else if sel = selThreshold then h.setCsr (fileReg m sel) (v % 2 ^ 32)
  else if selEnable ≤ sel && sel < 0x100 then h.setCsr (fileReg m sel) (if sel = selEnable then v / 2 * 2 else v)
  else h

/-- What stopei and mtopei read: the interrupt that the file presents. -/
def Hart.topei (h : Hart) (m : Bool) : Nat := ((h.topMsi m).map fun id => id * 65536 + id).getD 0

/-- Their write: it is claimed. -/
def Hart.claim (h : Hart) (m : Bool) : Hart := h.setMsis m ((h.msis m).filter fun id => some id != h.topMsi m)

/-- What a CSR of the standard base reads; none for one that is not special. -/
def csrSpecial (s : State) (n : Nat) (h : Hart) : Nat → Option Nat
  | 0xC01 => some ((sillTicks s (hartDie n) + if h.mode.virt then h.csrOf 0x605 else 0) % 2 ^ 64)
  | 0xF14 => some n
  | 0xF11 => some (Config.hartIdent 0).toNat
  | 0xF12 => some (Config.hartIdent 1).toNat
  | 0xF13 => some (Config.hartIdent 2).toNat
  | 0x001 => some (bits h.fcsr.toNat 4 0)
  | 0x002 => some (bits h.fcsr.toNat 7 5)
  | 0x003 => some (bits h.fcsr.toNat 7 0)
  | 0x300 => some h.mstatus
  | 0x301 => some (Tab.getD h.csr csrMisa misaReset).toNat
  | 0x303 => some h.mideleg
  | 0x305 => some h.tvec.toNat
  | 0x341 => some h.epc.toNat
  | 0x342 => some h.cause.toNat
  | 0x343 => some h.tval.toNat
  | 0x344 => some h.mip
  | 0x309 => some (h.csrOf csrMip &&& 0x222)
  | 0x100 => some ((h.csrOf csrMstatus &&& maskS) + uxl + sdBit h.fs)
  | 0x104 => some (h.csrOf csrMie &&& h.mideleg &&& 0x222)
  | 0x144 => some (h.mip &&& h.mideleg &&& 0x222)
  | 0x10A | 0x30A | 0x60A => none
  | 0x200 => some ((h.csrOf csrVsstatus &&& maskS) + uxl + sdBit h.vfs)
  | 0x204 => some ((h.csrOf csrMie &&& h.csrOf csrHideleg &&& vsBits) / 2)
  | 0x244 => some ((h.mip &&& h.csrOf csrHideleg &&& vsBits) / 2)
  | 0x600 => some (h.csrOf csrHstatus + 2 * 2 ^ 32)
  | 0x604 => some (h.csrOf csrMie &&& vsBits)
  | 0x644 => some (h.mip &&& vsBits)
  | 0xB00 | 0xC00 => some (Config.unspecified s.draws % 2 ^ 64)
  | 0xC02 => some (h.csrOf csrMinstret)
  | 0x151 => if h.noFileReg false then none else some (h.fileRead false)
  | 0x15C => some (h.topei false)
  | 0x351 => if h.noFileReg true then none else some (h.fileRead true)
  | 0x35C => some (h.topei true)
  | 0xDB0 => some (topInt (h.on &&& h.mideleg &&& 0x222))
  | 0xFB0 => some (topInt (h.on &&& (0xFFFF ^^^ h.mideleg)))
  | 0xEB0 => some h.vstopi
  | _ => none

/-- What a CSR reads, none where a hart has none of the number (R340, R342). -/
def csrRead (s : State) (n : Nat) (h : Hart) (c : Nat) : Option DWord :=
  if csrOfH c && !h.hyper then none
  else match csrSpecial s n h c with
    | some v => some (BitVec.ofNat 64 v)
    | none =>
      if (csrPlain c).isSome || [0x10A, 0x30A, 0x60A, 0x180, 0x280, 0x680].contains c then some (Tab.getD h.csr c 0)
      else if csrZero c then some 0
      else none

/-! ### Writes -/

/-- A write of an environment configuration: FIOM, CBCFE, and CBIE, which holds 00 or 01: any other value leaves it (R340). -/
def writeCbie (h : Hart) (c v : Nat) : Hart :=
  let cbie := if 2 ≤ bits v 5 4 then bits (h.csrOf c) 5 4 else bits v 5 4
  h.setCsr c (pack [(1, v), (3, 0), (2, cbie), (1, v / 2 ^ 6)])

/-- A write of satp or vsatp, ignored for a mode that a hart does not have. -/
def writeAtp (h : Hart) (c v : Nat) : Hart :=
  if atpMode v = 0 || svLevels (atpMode v) != 0 then
    h.setCsr c (if c = csrHgatp then v / 2 ^ 60 * 2 ^ 60 + bits v 57 44 * 2 ^ 44 + bits v 43 2 * 4 else v)
  else h

/-- A CSR's bits of a mask replaced. -/
def Hart.mergeCsr (h : Hart) (c mask v : Nat) : Hart := h.setCsr c ((h.csrOf c &&& (2 ^ 64 - 1 ^^^ mask)) ||| (v &&& mask))

/-- A CSR written. -/
def csrWrite (h : Hart) (c : Nat) (v : DWord) : Hart :=
  let x := v.toNat
  match c with
  | 0x001 => { h.dirtyFs with fcsr := BitVec.ofNat 32 (bits h.fcsr.toNat 7 5 * 32 + bits x 4 0) }
  | 0x002 => { h.dirtyFs with fcsr := BitVec.ofNat 32 (bits x 2 0 * 32 + bits h.fcsr.toNat 4 0) }
  | 0x003 => { h.dirtyFs with fcsr := BitVec.ofNat 32 (bits x 7 0) }
  | 0x300 => { h.mergeCsr csrMstatus maskM x with prev := (modeOf h (bits x 12 11) (bit x 39)).getD h.prev }
  | 0x301 => { h with csr := Tab.set h.csr csrMisa (if bit x 7 then misaReset else misaReset - 128) }
  | 0x305 => { h with tvec := v &&& ~~~2 }
  | 0x341 => { h with epc := v &&& ~~~1 }
  | 0x342 => { h with cause := v }
  | 0x343 => { h with tval := v }
  | 0x344 => (h.mergeCsr csrMip 0x222 x).mergeCsr csrHvip 4 x
  | 0x309 => h.mergeCsr csrMip 0x222 x
  | 0x100 => h.mergeCsr csrMstatus maskS x
  | 0x104 => h.mergeCsr csrMie (h.mideleg &&& 0x222) x
  | 0x144 => h.mergeCsr csrMip (h.mideleg &&& 2) x
  | 0x204 => h.mergeCsr csrMie (h.csrOf csrHideleg &&& vsBits) (2 * x)
  | 0x244 => h.mergeCsr csrHvip (h.csrOf csrHideleg &&& 4) (2 * x)
  | 0x604 => h.mergeCsr csrMie vsBits x
  | 0x644 => h.mergeCsr csrHvip 4 x
  | 0x30A | 0x10A | 0x60A => writeCbie h c x
  | 0x180 | 0x280 | 0x680 => writeAtp h c x
  | 0x151 => h.fileWrite false x
  | 0x15C => h.claim false
  | 0x351 => h.fileWrite true x
  | 0x35C => h.claim true
  | c => match csrPlain c with
    | some mask => h.mergeCsr c mask x
    | none => h

/-! ### Access -/

/-- The CSR that a number names in VS mode: for supervisor registers with a copy of the virtual machine's own, that copy. -/
def csrInVs (c : Nat) : Nat :=
  if [0x100, 0x104, 0x105, 0x140, 0x141, 0x142, 0x143, 0x144, 0x150, 0x151, 0x15C, 0x180, 0xDB0].contains c then c + 0x100 else c

/-- Whether a counter is closed to a mode, by the enables of the modes above; the second part says that the virtual machine's is. -/
def counterClosed (h : Hart) (c : Nat) : Bool × Bool :=
  let on (r : Nat) : Bool := bit (h.csrOf r) (c % 32)
  if !(0xC00 ≤ c && c < 0xC20) || h.mode == .m then (false, false)
  else (!on 0x306 || (h.mode == .u && !on 0x106), h.mode.virt && (!on 0x606 || (h.mode == .vu && !on 0x106)))

/-- The cause of an access to a CSR that a mode may not make, none for one that it may: bits 9:8 of the number give the lowest level, and
from a virtual machine what HS mode could do raises a virtual-instruction exception. -/
def csrCause (h : Hart) (c : Nat) (write : Bool) : Option DWord :=
  let need := bits c 9 8
  let st := h.csrOf csrMstatus
  let closed := counterClosed h c
  if (write && bits c 11 10 = 3) || (c < 4 && !h.floats) then some causeIllegal
  else if h.mode == .m then none
  else if need = 3 || closed.1 then some causeIllegal
  else if closed.2 then some causeVirtual
  else match h.mode with
    | .vs => if need = 2 || (c = csrSatp && bit (h.csrOf csrHstatus) bTVM) then some causeVirtual else none
    | .vu => if need ≠ 0 then some causeVirtual else none
    | .u => if need ≠ 0 then some causeIllegal else none
    | _ => if (c = csrSatp || c = csrHgatp) && bit st bTVM then some causeIllegal else none

end Sys2Proof.Machine
end

