-- ==== Sys2Proof/Machine/Riscv.lean ====
section
/-! DEFINITION. The words of a hart: enclave words, and the instructions of RV64IMAFDC with Zicsr, Zifencei, H and Zicbom as RISC-V gives
them; every other word is illegal (R122, R340; log entry 9). -/

namespace Sys2Proof.Machine

/-- Fields of a 32-bit RISC-V word. -/
def rvOp (w : Word) : Nat := bits w.toNat 6 0
def rvRd (w : Word) : BitVec 5 := BitVec.ofNat 5 (bits w.toNat 11 7)
def rvF3 (w : Word) : Nat := bits w.toNat 14 12
def rvRs1 (w : Word) : BitVec 5 := BitVec.ofNat 5 (bits w.toNat 19 15)
def rvRs2 (w : Word) : BitVec 5 := BitVec.ofNat 5 (bits w.toNat 24 20)
def rvF7 (w : Word) : Nat := bits w.toNat 31 25

/-- Immediates of the I, S, B, U and J forms. -/
def immI (w : Word) : DWord := BitVec.ofInt 64 (sext (bits w.toNat 31 20) 12)
def immS (w : Word) : DWord := BitVec.ofInt 64 (sext (rvF7 w * 32 + bits w.toNat 11 7) 12)
def immB (w : Word) : DWord :=
  BitVec.ofInt 64 (sext (pack [(1, 0), (4, bits w.toNat 11 8), (6, bits w.toNat 30 25), (1, bits w.toNat 7 7), (1, bits w.toNat 31 31)]) 13)
def immU (w : Word) : DWord := BitVec.ofInt 64 (sext (bits w.toNat 31 12 * 4096) 32)
def immJ (w : Word) : DWord :=
  BitVec.ofInt 64 (sext (pack [(1, 0), (10, bits w.toNat 30 21), (1, bits w.toNat 20 20), (8, bits w.toNat 19 12), (1, bits w.toNat 31 31)]) 21)

/-- A 32-bit result as a register holds it. -/
def sx32 (x : BitVec 32) : DWord := x.signExtend 64

/-- Register and immediate operations of the 64-bit forms. -/
def rvAlu (f3 : Nat) (alt : Bool) (a b : DWord) : DWord :=
  match f3 with
  | 0 => if alt then a - b else a + b
  | 1 => a <<< (b.toNat % 64)
  | 2 => if a.toInt < b.toInt then 1 else 0
  | 3 => if a.toNat < b.toNat then 1 else 0
  | 4 => a ^^^ b
  | 5 => if alt then a.sshiftRight (b.toNat % 64) else a >>> (b.toNat % 64)
  | 6 => a ||| b
  | _ => a &&& b

/-- The 32-bit forms; none for a code they do not have. -/
def rvAlu32 (f3 : Nat) (alt : Bool) (a b : BitVec 32) : Option DWord :=
  match f3 with
  | 0 => some (sx32 (if alt then a - b else a + b))
  | 1 => some (sx32 (a <<< (b.toNat % 32)))
  | 5 => some (sx32 (if alt then a.sshiftRight (b.toNat % 32) else a >>> (b.toNat % 32)))
  | _ => none

/-- Multiply and divide of a width; a quotient by zero is all ones, its remainder the dividend. -/
def rvMul (n f3 : Nat) (a b : BitVec n) : BitVec n :=
  match f3 with
  | 0 => a * b
  | 1 => BitVec.ofInt n (a.toInt * b.toInt / 2 ^ n)
  | 2 => BitVec.ofInt n (a.toInt * (b.toNat : Int) / 2 ^ n)
  | 3 => BitVec.ofNat n (a.toNat * b.toNat / 2 ^ n)
  | 4 => if b = 0 then BitVec.allOnes n else a.sdiv b
  | 5 => if b = 0 then BitVec.allOnes n else a / b
  | 6 => if b = 0 then a else a.srem b
  | _ => if b = 0 then a else a % b

/-- Whether a branch is taken; none for a code of no branch. -/
def rvTaken (f3 : Nat) (a b : DWord) : Option Bool :=
  match f3 with
  | 0 => some (a == b)
  | 1 => some (a != b)
  | 4 => some (decide (a.toInt < b.toInt))
  | 5 => some (decide (b.toInt ≤ a.toInt))
  | 6 => some (decide (a.toNat < b.toNat))
  | 7 => some (decide (b.toNat ≤ a.toNat))
  | _ => none

/-- A result written, and the hart at its next instruction. -/
def Hart.wrote (h : Hart) (w : Word) (v : DWord) : Hart := (h.setX (rvRd w) v).step

/-- A jump that links: the address of the next instruction written, and the hart at its target. -/
def Hart.jump (h : Hart) (w : Word) (target : DWord) : Hart := (h.setX (rvRd w) (h.pc + BitVec.ofNat 64 h.len)).goto target

/-- What a word asks of a hart: an enclave instruction, an access of its own, a change of registers alone, an exception, an atomic
access, an access of a floating-point register, or one on behalf of a virtual machine. -/
inductive RvDo where
  | enclave (i : Instr)
  | sill (op : SillOp)
  | inside (h : Hart)
  | trap (e : Xcpt)
  | amo (f5 : Nat) (rd : BitVec 5) (addr size : Nat) (value : DWord)
  | fload (rd : BitVec 5) (addr : Nat) (double : Bool)
  | fstore (addr : Nat) (double : Bool) (value : DWord)
  | hload (rd : BitVec 5) (addr size : Nat) (signed exec : Bool)
  | hstore (addr size : Nat) (value : DWord)
  deriving DecidableEq, Repr

/-- Register operations: the base ones and those of M. -/
def rvReg (h : Hart) (w : Word) : RvDo :=
  let a := h.getX (rvRs1 w)
  let b := h.getX (rvRs2 w)
  if rvF7 w = 1 then .inside (h.wrote w (rvMul 64 (rvF3 w) a b))
  else if rvF7 w = 0 || (rvF7 w = 0x20 && (rvF3 w = 0 || rvF3 w = 5)) then .inside (h.wrote w (rvAlu (rvF3 w) (rvF7 w = 0x20) a b))
  else .sill (.illegal w)

def rvReg32 (h : Hart) (w : Word) : RvDo :=
  let a := (h.getX (rvRs1 w)).truncate 32
  let b := (h.getX (rvRs2 w)).truncate 32
  if rvF7 w = 1 && (rvF3 w = 0 || 4 ≤ rvF3 w) then .inside (h.wrote w (sx32 (rvMul 32 (rvF3 w) a b)))
  else if rvF7 w = 0 || (rvF7 w = 0x20 && rvF3 w ≠ 1) then
    match rvAlu32 (rvF3 w) (rvF7 w = 0x20) a b with
    | some v => .inside (h.wrote w v)
    | none => .sill (.illegal w)
  else .sill (.illegal w)

/-- Immediate operations; the shift amounts are 6 and 5 bits. -/
def rvImm (h : Hart) (w : Word) : RvDo :=
  let a := h.getX (rvRs1 w)
  let top := bits w.toNat 31 26
  if rvF3 w = 1 || rvF3 w = 5 then
    if top = 0 || (top = 0x10 && rvF3 w = 5) then
      .inside (h.wrote w (rvAlu (rvF3 w) (top = 0x10) a (BitVec.ofNat 64 (bits w.toNat 25 20))))
    else .sill (.illegal w)
  else .inside (h.wrote w (rvAlu (rvF3 w) false a (immI w)))

def rvImm32 (h : Hart) (w : Word) : RvDo :=
  let a := (h.getX (rvRs1 w)).truncate 32
  if rvF3 w ≠ 0 && !(rvF7 w = 0 || (rvF7 w = 0x20 && rvF3 w = 5)) then .sill (.illegal w)
  else match rvAlu32 (rvF3 w) (rvF3 w ≠ 0 && rvF7 w = 0x20) a (if rvF3 w = 0 then (immI w).truncate 32 else BitVec.ofNat 32 (bits w.toNat 24 20)) with
    | some v => .inside (h.wrote w v)
    | none => .sill (.illegal w)

/-- Loads and stores: access size and sign. -/
def rvMem (h : Hart) (w : Word) (store : Bool) : RvDo :=
  let f := rvF3 w
  let a := ((h.getX (rvRs1 w)) + (if store then immS w else immI w)).toNat
  if store then
    if 3 < f then .sill (.illegal w) else .sill (.store a (2 ^ f) (h.getX (rvRs2 w)) false)
  else if f = 7 then .sill (.illegal w)
  else .sill (.load (rvRd w) a (2 ^ (f % 4)) (decide (f < 4)) false)

/-- Loads and stores of floating-point registers, singles and doubles. -/
def rvMemFp (h : Hart) (w : Word) (store : Bool) : RvDo :=
  let a := ((h.getX (rvRs1 w)) + (if store then immS w else immI w)).toNat
  if !h.floats || (rvF3 w ≠ 2 && rvF3 w ≠ 3) then .sill (.illegal w)
  else if store then .fstore a (rvF3 w = 3) (h.getF (rvRs2 w))
  else .fload (rvRd w) a (rvF3 w = 3)

/-- The cause of a cache-block operation that the environment configurations above a mode do not enable: a field of 0 in menvcfg, and in
user mode in senvcfg; in a virtual machine also henvcfg (R340). -/
def cboCause (h : Hart) (inval : Bool) : Option DWord :=
  let off (c : Nat) : Bool := if inval then bits (h.csrOf c) 5 4 == 0 else !bit (h.csrOf c) 6
  match h.mode with
  | .m => none
  | .hs | .s => if off csrMenvcfg then some causeIllegal else none
  | .u => if off csrMenvcfg || off csrSenvcfg then some causeIllegal else none
  | .vs => if off csrMenvcfg then some causeIllegal else if off csrHenvcfg then some causeVirtual else none
  | .vu => if off csrMenvcfg then some causeIllegal else if off csrHenvcfg || off csrSenvcfg then some causeVirtual else none

/-- A cache-block operation, where it is enabled. -/
def rvCbo (h : Hart) (w : Word) (op : Cbo) : RvDo :=
  match cboCause h (op == .inval) with
  | some c => .trap (xcpt c (BitVec.ofNat 64 w.toNat))
  | none => .sill (.cbo op (h.getX (rvRs1 w)).toNat)

/-- FENCE, FENCE.I and the Zicbom operations. FENCE.I finds instruction fetch coherent with the homes. -/
def rvFence (h : Hart) (w : Word) : RvDo :=
  let imm := bits w.toNat 31 20
  match rvF3 w with
  | 0 => .sill (.fence (BitVec.ofNat 4 (bits w.toNat 27 24)) (BitVec.ofNat 4 (bits w.toNat 23 20)))
  | 1 => .sill (.fence 0 0)
  | 2 =>
    if rvRd w ≠ 0 then .sill (.illegal w)
    else match imm with
      | 0 => rvCbo h w .inval
      | 1 => rvCbo h w .clean
      | 2 => rvCbo h w .flush
      | _ => .sill (.illegal w)
  | _ => .sill (.illegal w)

/-! ### CSRs, system instructions and atomics (R340, R342; RISC-V's own rules by log entry 9) -/

/-- An exception whose value is the word. -/
def wordTrap (cause : DWord) (w : Word) : RvDo := .trap (xcpt cause (BitVec.ofNat 64 w.toNat))

/-- What a set or clear of bits starts from: the value read, but of mip's external interrupt of supervisor level the bit that software
wrote, without the interrupt file's. -/
def csrBase (h : Hart) (c : Nat) (old : DWord) : DWord :=
  if c = csrMip then BitVec.ofNat 64 (putBits old.toNat 9 1 (h.csrOf csrMip / 2 ^ 9)) else old

/-- A CSR instruction's end: the old value goes to its register. A count of instructions that it wrote does not count it. -/
def csrDone (h : Hart) (c : Nat) (v : Option DWord) (w : Word) (old : DWord) : Hart :=
  match v with
  | none => h.wrote w old
  | some v =>
    let h' := (csrWrite h c v).wrote w old
    if c = csrMinstret then h'.setCsr csrMinstret v.toNat else h'

/-- CSRRW, CSRRS, CSRRC and their immediate forms; a set or clear of nothing does not write. -/
def rvCsr (s : State) (n : Nat) (h : Hart) (w : Word) : RvDo :=
  let num := bits w.toNat 31 20
  let src : DWord := if 4 ≤ rvF3 w then BitVec.ofNat 64 (rvRs1 w).toNat else h.getX (rvRs1 w)
  let writes := rvF3 w % 4 = 1 || rvRs1 w ≠ 0
  let c := if h.mode == .vs then csrInVs num else num
  match csrRead s n h c with
  | none => if virtualOnly h num then wordTrap causeVirtual w else .sill (.illegal w)
  | some old => match csrCause h num writes with
    | some cause => wordTrap cause w
    | none =>
      let v := match rvF3 w % 4 with
        | 1 => src
        | 2 => csrBase h c old ||| src
        | _ => csrBase h c old &&& ~~~src
      if virtualOnly h num then wordTrap causeVirtual w else .inside (csrDone h c (if writes then some v else none) w old)

/-- The cause of an instruction that a mode may not execute: illegal in user mode and where a bit of mstatus forbids it in supervisor
mode; in a virtual machine it is virtual in user mode and where a bit of hstatus forbids it. -/
def superCause (h : Hart) (bitS bitVs : Nat) : Option DWord :=
  match h.mode with
  | .m => none
  | .hs | .s => if bit (h.csrOf csrMstatus) bitS then some causeIllegal else none
  | .vs => if bit (h.csrOf csrHstatus) bitVs then some causeVirtual else none
  | .u => some causeIllegal
  | .vu => some causeVirtual

/-- An instruction where its mode may execute it. -/
def allowed (w : Word) (c : Option DWord) (r : RvDo) : RvDo :=
  match c with
  | some c => wordTrap c w
  | none => r

/-- The cause of an instruction of the H extension outside the modes that have it; `user` says whether HU opens it to user mode. -/
def hyperCause (h : Hart) (user : Bool) : Option DWord :=
  if !h.hyper then some causeIllegal
  else match h.mode with
    | .vs | .vu => some causeVirtual
    | .u => if user && bit (h.csrOf csrHstatus) bHU then none else some causeIllegal
    | _ => none

/-- WFI, which may end at once: where TW or VTW forbids it, it traps. -/
def rvWfi (h : Hart) (w : Word) : RvDo :=
  if h.mode != .m && bit (h.csrOf csrMstatus) bTW then wordTrap causeIllegal w
  else if h.mode.virt && bit (h.csrOf csrHstatus) bTW then wordTrap causeVirtual w
  else .inside h.step

/-- HLV, HLVX and HSV. -/
def rvHyper (h : Hart) (w : Word) : RvDo :=
  let k := rvF7 w - 0x30
  let a := (h.getX (rvRs1 w)).toNat
  let size := 2 ^ (k / 2)
  let kind := (rvRs2 w).toNat
  if rvF7 w < 0x30 || 0x38 ≤ rvF7 w then .sill (.illegal w)
  else if k % 2 = 1 then if rvRd w ≠ 0 then .sill (.illegal w) else allowed w (hyperCause h true) (.hstore a size (h.getX (rvRs2 w)))
  else if kind = 0 || (kind = 1 && size < 8) then allowed w (hyperCause h true) (.hload (rvRd w) a size (kind == 0) false)
  else if kind = 3 && (size = 2 || size = 4) then allowed w (hyperCause h true) (.hload (rvRd w) a size false true)
  else .sill (.illegal w)

/-- ECALL, EBREAK, the returns, WFI, the fences of translation, which find nothing kept, and the CSR instructions. -/
def rvSystem (s : State) (n : Nat) (h : Hart) (w : Word) : RvDo :=
  if rvF3 w = 4 then rvHyper h w
  else if rvF3 w ≠ 0 then rvCsr s n h w
  else match w.toNat with
    | 0x00000073 => .trap (xcpt (causeCall h.mode) 0)
    | 0x00100073 => .trap { cause := causeBreak, tval := h.pc, gva := h.mode.virt, gpa := 0, pseudo := 0 }
    | 0x10500073 => rvWfi h w
    | 0x30200073 => if h.mode == .m then .inside h.mret else .sill (.illegal w)
    | 0x10200073 => allowed w (superCause h bTSR bTSR) (.inside (if h.mode == .vs then h.sretVs else h.sretS))
    | _ =>
      if rvRd w ≠ 0 then .sill (.illegal w)
      else match rvF7 w with
        | 0x09 => allowed w (superCause h bTVM bTVM) (.inside h.step)
        | 0x11 => allowed w (hyperCause h false) (.inside h.step)
        | 0x31 => allowed w ((hyperCause h false).or (superCause h bTVM bTVM)) (.inside h.step)
        | _ => .sill (.illegal w)

/-- The value an AMO stores, none for a code of none. -/
def amoNew {n : Nat} (f5 : Nat) (old x : BitVec n) : Option (BitVec n) :=
  match f5 with
  | 0x01 => some x
  | 0x00 => some (old + x)
  | 0x04 => some (old ^^^ x)
  | 0x0C => some (old &&& x)
  | 0x08 => some (old ||| x)
  | 0x10 => some (if x.toInt < old.toInt then x else old)
  | 0x14 => some (if old.toInt < x.toInt then x else old)
  | 0x18 => some (if x.toNat < old.toNat then x else old)
  | 0x1C => some (if old.toNat < x.toNat then x else old)
  | _ => none

/-- Words of the A extension. -/
def rvAtomic (h : Hart) (w : Word) : RvDo :=
  let f5 := bits w.toNat 31 27
  let size := 2 ^ rvF3 w
  let a := (h.getX (rvRs1 w)).toNat
  if rvF3 w ≠ 2 && rvF3 w ≠ 3 then .sill (.illegal w)
  else if (f5 = 2 && rvRs2 w ≠ 0) || (f5 ≠ 2 && f5 ≠ 3 && (amoNew f5 (0 : DWord) 0).isNone) then .sill (.illegal w)
  else if a % size ≠ 0 then .trap { cause := if f5 = 2 then causeLoadAlign else causeStoreAlign, tval := BitVec.ofNat 64 a, gva := h.dataAcc.virt, gpa := 0, pseudo := 0 }
  else .amo f5 (rvRd w) a size (h.getX (rvRs2 w))

/-- A load's exception as an AMO takes it: that of a store. -/
def asStore (e : Xcpt) : Xcpt :=
  { e with cause := if e.cause = causeLoadPage then causeStorePage else if e.cause = causeLoadGuest then causeStoreGuest else causeStore }

/-- The line of memory that an address of a hart names, for a read. -/
def reservedLine (s : State) (h : Hart) (a : Nat) : Option Nat :=
  match h.enclave with
  | some id => match translate s noCore id .read a with
    | .ok p => some (lineOf (p.at a))
    | _ => none
  | none => match hartTranslate s h h.dataAcc .load a with
    | .ok pa => some (lineOf pa)
    | .error _ => none

/-- A hart's reservation, and the one that an LR at an address makes in its place. -/
def reservation (s : State) (n : Nat) : Option Reservation := s.reservations.find? (·.hart == n)
def dropReservation (s : State) (n : Nat) : State := { s with reservations := s.reservations.filter (·.hart != n) }
def reserve (s : State) (n : Nat) (h : Hart) (a size : Nat) : State :=
  match reservedLine s h a with
  | some line => { s with reservations := { hart := n, line := line, addr := a, size := size } :: (dropReservation s n).reservations }
  | none => dropReservation s n

/-- LR, SC and the AMOs at the homes. An SC may fail for no reason of its own (a free choice), and fails unless the hart holds the
reservation of an LR of the same bytes, whose line nothing has written since (R340; log entry 9). -/
def rvAmo (s : State) (n : Nat) (h : Hart) (f5 : Nat) (rd : BitVec 5) (a size : Nat) (x : DWord) : State :=
  let store (s : State) (v : Nat) (f : Hart → Hart) : State := match hartWrite s n h a size v with
    | .ok s => setHart s n fun h => (f h).step
    | .error e => hartTrap s n h e
  match hartRead s n h a size with
  | (s, .error e) => hartTrap s n h (if f5 = 2 then e else asStore e)
  | (s, .ok old) =>
    if f5 = 2 then setHart (reserve s n h a size) n fun h => (h.setX rd (extend true size old)).step
    else if f5 = 3 then
      let s' := dropReservation { s with draws := s.draws + 1 } n
      let mine := (reservation s n).any fun r => some r.line == reservedLine s h a && r.addr == a && r.size == size
      if mine && Config.choose s.draws then store s' x.toNat fun h => h.setX rd 0
      else setHart s' n fun h => (h.setX rd 1).step
    else
      let v := if size = 4 then ((amoNew f5 (BitVec.ofNat 32 old) (x.truncate 32)).map (·.toNat)).getD old
        else ((amoNew f5 (BitVec.ofNat 64 old) x).map (·.toNat)).getD old
      store s v fun h => h.setX rd (extend true size old)

/-- A load whose value goes to a register by some rule. -/
def rvLoad (s : State) (n : Nat) (h : Hart) (acc : Acc) (a size : Nat) (put : Hart → Nat → Hart) : State :=
  match hartReadAs s n h acc a size with
  | (s, .ok v) => setHart s n fun h => (put h v).step
  | (s, .error e) => hartTrap s n h e

/-- A store of a value. -/
def rvStore (s : State) (n : Nat) (h : Hart) (acc : Acc) (a size v : Nat) : State :=
  match hartWriteAs s n h acc a size v with
  | .ok s => setHart s n Hart.step
  | .error e => hartTrap s n h e

/-- Floating-point operations, where the state is on. -/
def rvFloat (h : Hart) (w : Word) (r : Option Hart) : RvDo :=
  match h.floats, r with
  | true, some h' => .inside h'.step
  | _, _ => .sill (.illegal w)

/-- What a hart does with a word of 32 bits. The major codes without an arm belong to extensions that it does not have (R340). -/
def rvDecode (s : State) (n : Nat) (h : Hart) (w : Word) : RvDo :=
  match rvOp w with
  | 0x0B => match decodeEnc w with
    | some i => .enclave i
    | none => .sill (.illegal w)
  | 0x03 => rvMem h w false
  | 0x23 => rvMem h w true
  | 0x07 => rvMemFp h w false
  | 0x27 => rvMemFp h w true
  | 0x43 | 0x47 | 0x4B | 0x4F => rvFloat h w (rvFused h w.toNat)
  | 0x53 => rvFloat h w (rvFp h w.toNat)
  | 0x0F => rvFence h w
  | 0x37 => .inside (h.wrote w (immU w))
  | 0x17 => .inside (h.wrote w (h.pc + immU w))
  | 0x6F => .inside (h.jump w (h.pc + immJ w))
  | 0x67 => if rvF3 w ≠ 0 then .sill (.illegal w) else .inside (h.jump w ((h.getX (rvRs1 w) + immI w) &&& ~~~1))
  | 0x63 => match rvTaken (rvF3 w) (h.getX (rvRs1 w)) (h.getX (rvRs2 w)) with
    | some t => .inside (if t then h.goto (h.pc + immB w) else h.step)
    | none => .sill (.illegal w)
  | 0x13 => rvImm h w
  | 0x1B => rvImm32 h w
  | 0x33 => rvReg h w
  | 0x3B => rvReg32 h w
  | 0x2F => rvAtomic h w
  | 0x73 => rvSystem s n h w
  | _ => .sill (.illegal w)

/-- What a hart does with an instruction as it was fetched: a word of 32 bits, or one of 16 as the word that it stands for. Its own bits
are the value of an illegal-instruction exception. -/
def rvInstr (s : State) (n : Nat) (h : Hart) (raw : Word) : RvDo :=
  let r := if raw.toNat % 4 = 3 then rvDecode s n h raw else match expandC raw.toNat with
    | some w => rvDecode s n h w
    | none => .sill (.illegal raw)
  match r with
  | .sill (.illegal _) => .sill (.illegal raw)
  | r => r

/-! ### Fetch (R306, R341) -/

/-- The 16 bits at an address of a hart; the bits of a poisoned line are free (log entry 20). -/
def fetchParcel (s : State) (n : Nat) (h : Hart) (va : Nat) : State × Except Xcpt Nat :=
  match h.enclave with
  | some id =>
    match touch s noCore id .fetch va with
    | (s, .ok p) =>
      if p.device then (s, .error (xcpt causeFetch (BitVec.ofNat 64 va)))
      else (s, .ok (if poisoned s (p.at va) then Config.unspecified s.draws % 2 ^ 16 else Memory.num s.mem (p.at va) 2))
    | (s, _) => (s, .error (xcpt causeFetch (BitVec.ofNat 64 va)))
  | none => match hartTranslate s h h.fetchAcc .fetch va with
    | .error e => (s, .error e)
    | .ok pa =>
      if Config.hbmBytes ≤ pa then (s, .error (accessFault .fetch h.fetchAcc va))
      else match physRead s n pa 2 with
        | (s, some v) => (s, .ok v)
        | (s, none) => (s, .error (accessFault .fetch h.fetchAcc va))

/-- The instruction at a hart's PC, and its length in bytes. -/
def hartFetch (s : State) (n : Nat) (h : Hart) : State × Except Xcpt (Word × Nat) :=
  match fetchParcel s n h h.pc.toNat with
  | (s, .error e) => (s, .error e)
  | (s, .ok lo) =>
    if lo % 4 ≠ 3 then (s, .ok (BitVec.ofNat 32 lo, 2))
    else match fetchParcel s n h (h.pc + 2).toNat with
      | (s, .error e) => (s, .error e)
      | (s, .ok hi) => (s, .ok (BitVec.ofNat 32 (lo + 2 ^ 16 * hi), 4))

end Sys2Proof.Machine
end

