-- ==== Sys2Proof/Machine/Schedule.lean ====
section
/-! DEFINITION. What acts next: the next context of the bundle at issue, the event at the head of the pending list, or one
arithmetic cycle in which time passes and the agents' next steps fall due (R21, R28, R46-R48, R66, R79-R81, R103, R223).
Where the spec leaves a time or an order open, a free choice decides (log entry 2). -/

namespace Sys2Proof.Machine

/-- What a step comes to before any meaning runs: an instruction or event to execute in a state, or a state already reached. -/
inductive Action where
  | run (i : Instr) (s : State)
  | reached (s : State)

/-! ### One context of a bundle (R103, R123) -/

/-- Length recorded for a fetch that failed: that of its first word, when it could be read; else free (log entry 22). -/
def failedLen (s : State) (v : Thread) : Nat :=
  match fetchWord s v v.pc.toNat with
  | .ok w => 4 * lengthOf w
  | _ => 4 * (Config.unspecified s.draws % 6)

/-- The words at a context's PC as an instruction: one that decodes, or the event of one that does not. Enclave words are no
instruction of a thread. -/
def threadInsn (ws : List Word) : Instr :=
  match decode ws with
  | .ok i => i
  | .error _ => .unassignedEncoding (ws.headD 0)

/-- A context that is to start an instruction: it runs it, or is held at its meet address, or meets a trap in its fetch. -/
def freshAction (s : State) (w : Who) (v : Thread) : Action :=
  let t := Who.threadNo w
  match entryTrap s t v with
  | some s' => .reached s'
  | none =>
    if atMeet v then .run (.meetHold t) s
    else match fetchInsn s v v.pc.toNat with
      | .ok ws => .run (threadInsn ws) (fetchTouch s v ws.length)
      | .trap k => .reached (takeTrap s w v k { pc := v.pc, len := failedLen s v, tdst := tdstNone })
      | .fill va => .reached (fillPage s v va)
      | .poison l => .reached (integrityHalt s (some v) l ((sideOf s l).code == 0x29))

/-- Whether a context starts no instruction any more, its bent being about to stop or stopped: a matrix thread from the request on, a thread
once the full save has begun, and a hand when the threads have stopped (R86, R87, R183). -/
def stopsNow (s : State) (w : Who) (v : Thread) : Bool :=
  match v.control, w with
  | true, _ => requested s v
  | false, .hand _ _ => stoppedForSave s v.bent
  | false, _ => fullBegun s v.bent

/-- A context that the bundle at issue holds: it performs the other half of a 128-bit access under way (R228), or starts its next
instruction. One that may not run any more is passed over. -/
def contextAction (s : State) (w : Who) (v : Thread) : Action :=
  if v.status != .running || (v.control && (controlQuarter s v).isNone) then .reached s
  else match v.hctx.half with
    | some h => .run h.insn s
    | none => if stopsNow s w v then .reached s else freshAction s w v

/-- What a hart's instruction does, fetched and decoded. -/
def hartDoes (s : State) (n : Nat) (h : Hart) : RvDo → Action
  | .enclave i => .run i s
  | .sill op => .run (.sillCoreInstruction n op) s
  | .inside h' => .reached (setHart s n fun _ => h')
  | .trap e => .reached (hartTrap s n h e)
  | .amo f5 rd a size x => .reached (rvAmo s n h f5 rd a size x)
  | .fload rd a d => .reached (rvLoad s n h h.dataAcc a (if d then 8 else 4) fun h v => h.setPattern d rd v)
  | .fstore a d v => .reached (rvStore s n h h.dataAcc a (if d then 8 else 4) v.toNat)
  | .hload rd a size signed exec => .reached (rvLoad s n h (h.guestAcc exec) a size fun h v => h.setX rd (extend signed size v))
  | .hstore a size v => .reached (rvStore s n h (h.guestAcc false) a size v.toNat)

/-- A hart's next instruction, unless an interrupt comes first (R306, R340-R342). -/
def hartAction (s : State) (n : Nat) (h : Hart) : Action :=
  match h.interrupt with
  | some cause => if h.enclave.isSome then .run (.enclaveAsyncExit n cause) s else .reached (asyncExit s n h cause 0)
  | none => match hartFetch s n h with
    | (s, .error e) => .reached (hartTrap s n h e)
    | (s, .ok (raw, len)) =>
      let h := { h with len := len }
      let s := setHart s n fun _ => h
      hartDoes s n h (rvInstr s n h raw)

/-- One member of the bundle at issue. -/
def issueAction (s : State) (w : Who) : Action :=
  match w with
  | .hart n => match hartOf s n with
    | some h => hartAction s n h
    | none => .reached s
  | w => match viewOf s w with
    | some v => contextAction s w v
    | none => .reached s

/-! ### Time (R28, R29) -/

/-- Those of some candidates that free choices from a number on pick. -/
def someOf {α : Type} : Nat → List α → List α
  | _, [] => []
  | d, x :: xs => if Config.choose d then x :: someOf (d + 1) xs else someOf (d + 1) xs

/-- One of some candidates, or none of them, by a free number. -/
def oneOf {α : Type} (d : Nat) (l : List α) : Option α := l[Config.pick d % (l.length + 1)]?

/-- Every context of the machine with its view. -/
def contexts (s : State) : List (Who × Thread) :=
  s.threads.flatMap fun (t, v) =>
    (Who.thread t, v) :: (liveHands v).filterMap fun h => (viewOf s (.hand t h.ctx.no)).map fun x => (Who.hand t h.ctx.no, x)

/-- Bays that hold threads. They draw on their cluster's credit in the order in which the first thread of each was named, which is the
model's choice: the spec gives the bays of a cluster no order within a cycle (R30; log entry 60). -/
def liveBays (s : State) : List Nat := ((Tab.values s.threads).filterMap (bayOf s)).eraseDups

/-- A line's dirty bytes written back early (R190, R227). -/
def driftL1 (s : State) : State :=
  match oneOf s.draws s.l1 with
  | none => s
  | some x => writeBack s (allOf (· == x))

/-- A core's instruction cache with a sector in it, read at its home for a partition, and room made for it: it holds 64 KiB (R2, R18, R331;
log entry 2). -/
def fillIcache (s : State) (part core sec : Nat) : State :=
  let s := touchL2 s part (sec / 4) false
  let c : ICell := { core := core, addr := sec, data := BitVec.ofNat 256 (Memory.num s.mem (sec * 32) 32) }
  let mine := s.icache.filter fun x => x.core == core && x.addr != sec
  let rest := s.icache.filter fun x => x.core != core
  { s with icache := c :: mine.take (Config.icacheBytes / 32 - 1) ++ rest }

/-- A sector of instructions filled into or dropped from a core's instruction cache, and words prefetched beyond a PC: up to
64 bytes, through the walk and the L2 line that they need. Nothing is taken from a poisoned line; one that fails now is found with no bent
that consumes it (R223, R287, R331). -/
def driftFetch (s : State) : State :=
  match oneOf (s.draws + 2) s.icache with
  | some c => { s with icache := s.icache.filter (· != c) }
  | none => match oneOf (s.draws + 3) s.threads with
    | none => s
    | some (t, v) =>
      let va := v.pc.toNat + 4 * (Config.pick (s.draws + 4) % 16)
      match translate s (threadCore s v) (threadEnclave s v) .fetch va, fetchWord s v va with
      | .ok p, .ok w =>
        let s := fillTlb s (partOf s v) (threadCore s v) (threadEnclave s v) va
        if p.device then s
        else if poisoned s (p.at va) then noteFailure s (lineOf (p.at va))
        else if Config.choose (s.draws + 5) then fillIcache s (partOf s v) (threadCore s v) (sectorOf (p.at va))
        else setThread (touchL2 s (partOf s v) (lineOf (p.at va)) false) t { v with fetched := Tab.set v.fetched va w }
      | _, _ => s

/-- A routine that a slice gives up and will load again when it is asked for (R273). -/
def driftRoutine (s : State) : State :=
  match oneOf (s.draws + 40) s.routines with
  | some r => { s with routines := s.routines.filter (· != r) }
  | none => s

/-- What befalls a line in DRAM, of HBM or of a memory-side cache's layers, by free choices from a number on: some of its symbols flip, or its
sealed form is replaced by one whose MAC does not match. An error that comes while the L2 holds the line is found no sooner than one that
comes when it has left, and goes with a write-back (R286; log entry 20). -/
def driftErrors (d : Nat) (s : State) : State :=
  let line := Config.pick d % (Config.hbmBytes / 128)
  let old := sideOf s line
  let flip (f : Tab Byte) (i : Nat) : Tab Byte :=
    (Tab.update f (Config.pick (d + 4 + 2 * i) % 146) 0 (· ^^^ BitVec.ofNat 8 (Config.pick (d + 5 + 2 * i)))).filter fun e => e.2 != 0
  let new := { old with
    flips := (upFrom 0 (Config.pick (d + 1) % 10)).foldl flip old.flips
    forged := old.forged || Config.choose (d + 2) }
  if Config.choose (d + 3) && old.poison == 0 && !(s.l2.any (·.line == line)) && new != old then { s with side := Tab.set s.side line new } else s

/-- While the package is being brought up, its units do not all count from the same moment: one of them, control cores included, falls
behind by a cycle of its own (R29, R158; log entry 3). -/
def driftClocks (s : State) : State :=
  if stReady ≤ s.mgmt.state then s
  else match oneOf (s.draws + 42) (upFrom 0 (controlUnit 160)) with
    | some u => { s with lag := Tab.update s.lag u 0 (· + 1) }
    | none => s

/-- What passes on its own in a cycle: caches, fills of shadow banks, routines, dead marks, lines gone bad, bents whose quarter has come to
rest. -/
def drift (s : State) : State :=
  let m := s.draws + 64 + s.quarters.length
  let n := m + 32
  let s := driftClocks (driftErrors m (driftRoutine (driftFetch (driftL1 s))))
  let s := ((someOf (s.draws + 45) (Tab.keys s.quarters))).foldl fillShadow s
  (Tab.keys s.bents).foldl finishBent (pruneRetained { s with draws := n })

/-! ### What falls due at a cycle -/

/-- Contexts of a thread whose event comes by the counter of its core: sleepers, missed promises, re-checks every 4,096 cycles
of threads without a monitor, hands to release (R61, R66, R208, R479). -/
def threadDue (s : State) (t : Nat) (v : Thread) : List Instr :=
  (match v.status with
    | .sleep target => if target ≤ arithCycles s (threadCore s v) then [.sleepcWake t] else []
    | .cbwait b (.cbwait true _) => [.promiseMissed t b]
    | .waitc w => if (s.time - w.since) % 4096 = 0 && (w.full || !s.monitors.contains (lineOf w.pa, threadCore s v)) then [.waitcRecheck t] else []
    | _ => []) ++
    ((liveHands v).filter (mustRelease s v)).map fun h => .handForceRelease t h.ctx.no

/-- Steps of the planer and the issue unit (R79-R81). -/
def bayDue (s : State) (bay : Nat) : List Instr :=
  (if arithCycles s (bay / 4) % 4 = 0 then [.starvationForce bay, .planerRegroup bay] else []) ++ [.issueSelect bay]

/-- Kick queues with what the dispatcher counts for them. The age of a queue is that of its head launch: one whose only work is a saved
bent does not age, which is the model's choice (R73, R75; log entry 59). -/
def queueDue (s : State) : List Instr :=
  s.enclaves.flatMap fun (id, e) => e.kq.flatMap fun (q, k) =>
    (k.cur.map Instr.tokenReady).toList ++ if k.readySince.isSome then [.priorityAge id q] else []

/-- Saves under way (R86), and requests that waited for room (R290). -/
def saveDue (s : State) : List Instr :=
  s.bents.flatMap fun (t, b) =>
    if b.request.isSome then [.mappedSave t, .fullSave t] else if b.asked && mayStop s t then [.preemptRequest t] else []

/-- Events that no delay holds back. -/
def mandatory (s : State) : List Instr :=
  (if s.time % 64 = 0 then (upFrom 0 40).map .powerWindow else []) ++
    s.threads.flatMap (fun (t, v) => threadDue s t v) ++
    queueDue s ++ saveDue s ++
    (s.egress.filterMap fun (k, e) => if windowStarts s (k / 65536) e.win then some (.egressWindow (k / 65536) (k % 65536)) else none) ++
    (if s.mgmt.semOwner ≠ 0 && s.mgmt.semLast + 2 ^ 28 ≤ governorTicks s 0 then [.mgsemTimeout] else []) ++
    ((s.tenons.filter (TenonReq.overdue s)).map (·.slice)).eraseDups.map Instr.tenonExecute ++
    (liveBays s).flatMap (bayDue s)

/-! ### What may come at a cycle -/

/-- Completions of a context: a load's data, a store's acceptance, a result (R100, R210, R211). -/
def contextMay (s : State) (n : Nat) (w : Who) (v : Thread) : List Instr :=
  (if v.loads.isEmpty then [] else [.loadDataReturn w (Config.pick (s.draws + 16 + n) % v.loads.length)]) ++
    (if v.stores = 0 then [] else [.storeAccepted w]) ++
    v.queues.filterMap fun (q, es) => if es.any fun e => !e.arrived then some (.sfuResultArrive w q) else none

/-- Steps of a quarter (R159, R167-R179). -/
def quarterMay (q : Nat) (k : Quarter) : List Instr :=
  (if k.ops.isEmpty then [] else [.bankSwap q [], .rowAccept q [], .mzeroComplete q, .fillFault q]) ++
    if k.pushes.isEmpty then [] else [.feedPushAccepted q]

/-- Whether a thread is parked, not held and not at a team operation (R82). -/
def parked (v : Thread) : Bool := match v.status with
  | .bar _ | .tbar _ | .waitc _ | .sleep _ | .cbwait _ _ | .joinh _ => true
  | _ => false

/-- The launch of a group. -/
def Group.launch : Group → Nat
  | .resume l _ | .fresh l _ => l

/-- Bents below a ready launch that cannot be placed: those the dispatcher may ask to stop, with room for their saves, parked ones alone
if there are any, and the most recently placed first (R83, R290). -/
def victims (s : State) : List Nat :=
  let blocked := s.enclaves.flatMap fun (id, e) => e.kq.filterMap fun (q, k) =>
    (queueGroup s id q k).bind fun g => if (planGroup s g).isSome then none else
      (Tab.get? s.launches g.launch).map fun x => (k.effective, x.hdr.part)
  let low := s.bents.filter fun (t, b) => b.request.isNone && mayStop s t && (launchOf s b).any fun l =>
    blocked.any fun (p, part) => l.hdr.part = part &&
      (((enclaveOf s l.enclave).map fun e => (e.queue l.queue).effective).getD 0) < p
  let still := low.filter fun (t, _) => (liveThreads s t).all parked
  ((sortBy (fun x : Nat × Bent => x.2.stamp) (if still.isEmpty then low else still)).map (·.1)).reverse

/-- The next step of a service with the request of a thread (R314, R350, R351): it refuses by a free choice; what it sends out of the
package passes its governor first; then it replies with the bytes moved, of which FREAD may find fewer, and what those are is free. -/
def serviceReply (s : State) (r : SyscReq) : List Instr :=
  match threadOf s r.thread with
  | none => []
  | some v =>
    let enclave := threadEnclave s v
    let refuse := Config.pick (s.draws + 8) % 4 = 0 || r.streamless s enclave
    let len := ((r.args.head?).map (·.2.1)).getD 0
    let n := if r.svc = 1 then Config.pick (s.draws + 9) % (len + 1) else len
    let out := if r.svc = 1 || r.svc = 4 then
        [(0, (upFrom 0 n).map fun i => BitVec.ofNat 8 (Config.unspecified (s.draws + i)))] else []
    let metered := r.leaves != 0 && restricted s enclave
    if refuse then [.syscReply r.thread 2 (BitVec.ofNat 32 (Config.unspecified s.draws)) []]
    else if metered && !r.sent then [.egressTransfer (r.outDie s) { enclave := enclave, ifc := none } r.leaves]
    else if metered && !passed s (r.outDie s) enclave then []
    else [.syscReply r.thread 0 (BitVec.ofNat 32 n) out]

/-- Bring-up, resets apart (R356). -/
def bootMay (s : State) : List Instr :=
  match s.mgmt.state with
  | 0 => [.rootbootDone]
  | 1 => [.phyTrainingDone]
  | 2 => [.scrub]
  | 3 => [.linksDone]
  | _ => []

/-- The timer of a hart (R342). -/
def hartMay (s : State) (n : Nat) (h : Hart) : List Instr :=
  if h.mtimecmp.toNat ≤ sillTicks s (hartDie n) && !h.mtip then [.mtimecmpInterrupt n] else []

/-- Completions of every context. -/
def contextsMay (s : State) : List Instr :=
  ((contexts s).zip (upFrom 0 (contexts s).length)).flatMap fun (x, n) => contextMay s n x.1 x.2

/-- Steps of the copy engines: the command whose turn it is at each, and those that move (R200, R203, R206). -/
def copyMay (s : State) : List Instr :=
  ((Tab.values s.cmds).map (·.core)).eraseDups.filterMap (fun core => (serveNext s core).map Instr.copyCommandBegin) ++
    s.cmds.filterMap fun (c, k) => if k.state = .begun then some (.copyCommandComplete c) else none

/-- Quarters that a bent waits to bind (R159). -/
def bindMay (s : State) : List Instr :=
  ((s.bents.filterMap fun (_, b) => (Tab.get? b.blocks 0).map fun k => quarterId (pkgCluster k.core) k.bay).eraseDups.filter
    fun q => (quarterOf s q).bound.isNone && (nextBinder s q).isSome).map .quarterBind

/-- A partial segment that reaches its home (R172). -/
def segmentMay (s : State) : List Instr :=
  let loose := (s.segments.filter fun g => !g.held).length
  if loose = 0 then [] else [.segmentArrive (Config.pick (s.draws + 7) % loose)]

/-- Steps of the tenons and the service rings, of one service with one of its requests (R259, R350). -/
def unitMay (s : State) : List Instr :=
  ((s.tenons.map (·.slice)).eraseDups.map Instr.tenonExecute) ++ ((s.answers.map (·.thread)).eraseDups.map Instr.tenonDone) ++
    ((s.requests.filter fun r => !r.taken).map fun r => Instr.syscRequestTaken r.die r.io).eraseDups ++
    (oneOf (s.draws + 10) (s.requests.filter (·.taken))).toList.flatMap (serviceReply s)

/-- Steps of the dispatcher (R69, R74, R83). -/
def dispatchMay (s : State) : List Instr :=
  (s.enclaves.flatMap fun (id, e) => e.kq.filterMap fun (q, k) => if headerDue k then some (.headerCheck id q) else none) ++
    [.dispatchDecision] ++ ((victims s).head?.map Instr.preemptRequest).toList ++ (Tab.keys s.launches).map Instr.launchRetire

/-- Retention stores that overflow (R193). -/
def retentionMay (s : State) : List Instr :=
  (s.retained.map fun r => (r.cache, r.bay)).eraseDups.filterMap fun (c, b) =>
    if overfull s c b then some (.retentionOverflow (if c < Config.cores then c else (c - Config.cores) * 16) b) else none

/-- Interrupts of the host ports and of the management doorbell, whose causes the spec does not give (R342). -/
def sourceMay (s : State) : List Instr := s.irq.filterMap fun (k, hart, data) => if k ≤ sourceDoorbell then some (.deviceMsi hart data) else none

/-- Steps of the management, of checkpoints and of migration (R324, R334, R337, R342, R357). -/
def managementMay (s : State) : List Instr :=
  (if s.mgmt.triggers = 0 then [] else [.plumbTrigger]) ++ s.mgmt.unacked.map Instr.snapshotLatch ++ [.traceComparatorMatch] ++ sourceMay s ++
    (if s.mgmt.ckpt && s.bents.isEmpty then [.checkpoint (.port 0)] else []) ++
    s.enclaves.filterMap fun (id, e) => if e.mig.busy then some (.migrationRoundDone id) else none

/-- Events whose time the spec leaves open. -/
def optional (s : State) : List Instr :=
  bootMay s ++ contextsMay s ++ copyMay s ++ (s.quarters.flatMap fun (q, k) => quarterMay q k) ++ bindMay s ++ segmentMay s ++
    unitMay s ++ dispatchMay s ++ retentionMay s ++ (s.harts.flatMap fun (n, h) => hartMay s n h) ++ managementMay s

/-- One arithmetic cycle: the caches drift, the due events and some of the possible ones are lined up, and control cores and
some harts issue. -/
def advance (s : State) : State :=
  let s := drift { s with time := s.time + 1 }
  let may := optional s
  let d := s.draws + 64 + (contexts s).length + ((s.requests.flatMap (·.args)).map (·.2.1)).sum
  let controls := s.threads.filterMap fun (t, v) => if v.control && v.status == .running && (controlQuarter s v).isSome then some [Who.thread t] else none
  let harts := (Tab.keys s.harts).map fun h => [Who.hart h]
  { s with
    pending := s.waits ++ s.pending ++ mandatory s ++ someOf d may
    waits := []
    issue := controls ++ someOf (d + may.length) harts
    turn := []
    draws := d + may.length + harts.length }

/-- A bundle's end: its team operations are settled (R51). -/
def endBundle (s : State) (rest : List (List Who)) : State := { settleTeams { s with issue := rest } with turn := [] }

/-- What acts next: the bundle at issue runs to its end before any event comes between its members' accesses (R54); then comes the next
event that is due, and when there is none the cycle goes on. -/
def nextAction (s : State) : Action :=
  match s.issue with
  | (w :: ws) :: rest => issueAction { s with issue := ws :: rest, cur := some w } w
  | [] :: rest => .reached (endBundle s rest)
  | [] => match s.pending with
    | i :: is => .run i { s with pending := is }
    | [] => .reached (advance s)

end Sys2Proof.Machine
end

