-- ==== Sys2Proof/Machine/Placed.lean ====
section
/-! DEFINITION. A program placed by hand: the state in which the next step fetches and runs one instruction. It stands for
an enclave created, its code loaded and its launch placed (R67-R78, R159, R297-R299; log entry 23). -/

namespace Sys2Proof.Machine

/-- Where the code stands: one page, mapped to the frame of its own number. -/
def codeVa : Nat := 0x50000

/-- A table entry that names a table, and one that names the code frame with W and X. -/
def tableEntry (addr : Nat) : Nat := addr / 256 * 64 + 1
def codeEntry : Nat := 5 * 64 + 15

/-- Memory with the four tables of an enclave and its code. -/
def codeMemory (m : Memory) (bs : List Byte) : Memory :=
  let put (m : Memory) (a v : Nat) : Memory := Memory.writeBytes m a (toBytes 8 v)
  let m := put (put (put (put m 0x10000 (tableEntry 0x20000)) 0x20000 (tableEntry 0x30000)) 0x30000 (tableEntry 0x40000)) 0x40028 codeEntry
  Memory.writeBytes m codeVa bs

/-- Ownership of the tables and the code. -/
def codePot : Tab Pot :=
  let table : Pot := { owner := 1, slot := 1, type := 2, rstr := false }
  [(1, table), (2, table), (3, table), (4, table), (5, { table with type := 1 })]

def codeEnclave : Enclave :=
  { kickVa := 0x70000, root := 0x10000, partmask := 1, debug := false, pways := [], imgroot := 0, slot := some 1, wrapped := none,
    stack := [], kq := [], eq := ErrQueue.reset, svcfg := 0, saveCounter := 0, blobs := [], cap := none,
    mig := { dirty := 0, round := 0, busy := false, final := false, en := false, stage := 0, cursor := 0, out := none, changes := [] }, awaiting := [],
    awaitAll := false, ckpt := none }

/-- A launch of one bent of one block of 64 threads of 768 registers. -/
def codeHeader : Header :=
  { entry := BitVec.ofNat 64 codeVa, handler := BitVec.ofNat 64 codeVa, widths := [6, 0, 0, 0, 0, 0], part := 0, fused := false,
    paired := false, coop := true, extents := [64, 1, 1, 1, 1, 1], regs := 768, hands := 4, scratch := 131072, livemap := 0,
    livecnt := 0, ctxt := 0, seed := 0, grace := 0, waita := 0, vala := 0, waitb := 0, valb := 0, signal := 0, priv := 0, privsz := 0 }

def codeBlock : Block :=
  { core := 0, bay := 0, quads := [{ slice := 0, slot := 0, base := 0, size := 2048, cbase := 0, csize := 1024 }], banks := upFrom 0 8,
    scratch := [], ended := false }

def codeBent (control : Option Nat) : Bent :=
  { launch := 0, order := 0, upper := [0, 0, 0, 0], cluster := 0, c0 := 0, blocks := [(0, codeBlock)], state := .running, request := none,
    asked := false, full := false, placement := 0, control := control, restore := none, stamp := 0, pairCut := false, room := none }

/-- The thread that runs the instruction: on the control core for a matrix instruction, in hand mode with an open iteration for
the instructions of hands alone. -/
def codeThread (i : Option Instr) : Thread :=
  let v := newThread 1 0 [0, 0, 0, 0, 0, 0] 768 (BitVec.ofNat 64 codeVa) 0 0
  if i.any Instr.matrix then { v with control := true }
  else if i.any Instr.handOnly then
    { v with
      handMode := true
      hctx := { HandCtx.none with iter := some 0 }
      raise := some { n := 1, red := some 0, list := 0, entry := BitVec.ofNat 64 codeVa, pool := [], committed := [], unfinished := [],
                      faulted := [], hands := [] } }
  else v

/-- A hart in HS mode at an enclave word. -/
def codeHart : Hart := { Hart.start 0 with pc := BitVec.ofNat 64 codeVa, mode := .hs }

/-- The bytes of an instruction whose bits are w, zeros above, up to the longest instruction. -/
def codeBytes (w : Nat) : List Byte := toBytes 24 w

/-- A Vebalyn instruction placed for a thread. -/
def placeCode (s : State) (nbits w : Nat) : State :=
  let i := decodeTableWord nbits w
  let q := if i.any Instr.matrix then some 0 else none
  { s with
    pending := [], issue := [[Who.thread 0]], turn := []
    mem := codeMemory s.mem (codeBytes (w % 2 ^ nbits)), pot := codePot, tlb := [], icache := [], hbm := []
    mgmt := { s.mgmt with state := stReady }
    enclaves := [(1, codeEnclave)]
    launches := [(0, { enclave := 1, queue := 0, hdr := codeHeader, next := 1, ended := 0, halted := false })]
    bents := [(1, codeBent q)]
    threads := [(0, codeThread i)]
    quarters := match q with
      | some k => [(k, { Quarter.reset with bound := some 1 })]
      | none => [] }

/-- An enclave word placed for a hart. -/
def placeEnc (s : State) (w : Nat) : State :=
  { s with
    pending := [], issue := [[Who.hart 0]], turn := []
    mem := codeMemory s.mem (codeBytes w)
    hbm := []
    pot := []
    mgmt := { s.mgmt with state := stReady }
    harts := [(0, codeHart)] }

def placeWord (s : State) (nbits w : Nat) : State :=
  if nbits = 32 && (decodeEnc (BitVec.ofNat 32 w)).isSome then placeEnc s (w % 2 ^ 32) else placeCode s nbits w

end Sys2Proof.Machine
end

