-- ==== Sys2Proof/Machine/Step.lean ====
section
/-! DEFINITION. One step of the package. -/

namespace Sys2Proof.Machine

/-- One step: what acts next, and its meaning. -/
def step (s : State) : Host.Outcome State Fault Refusal :=
  match nextAction s with
  | .run i s' => exec i s'
  | .reached s' => .next s'

/-- s with an instruction where the next step fetches (log entry 23). -/
def State.withFetchWord (s : State) (nbits w : Nat) : State := placeWord s nbits w

end Sys2Proof.Machine
end

