-- ==== Sys2Proof/Safety.lean ====
section
/-! DEFINITION. What counts as a safe run, and the words the statements are written in: a context ready to execute an
instruction, what a completed instruction leaves behind, and what it leaves alone. -/

namespace Sys2Proof.Safety

open Sys2Proof.Machine

/-- A step that goes on: neither a fault nor a refusal. -/
def GoesOn (s : State) : Prop := ∃ t, step s = .next t

/-- A run of n steps that all go on. -/
def SafeFor : Nat → State → Prop
  | 0, _ => True
  | n + 1, s => ∃ t, step s = .next t ∧ SafeFor n t

/-- Memory, the CXL window and the mailboxes in canonical form: equal memories are equal data. -/
def Canonical (s : State) : Prop := Memory.wf s.mem = true ∧ Memory.wf s.cxl = true ∧ Memory.wf s.mailbox = true

/-- Every byte of memory reads as before. -/
def SameMem (s t : State) : Prop := ∀ a, Memory.read t.mem a = Memory.read s.mem a

/-- Every byte outside n bytes from an address reads as before. -/
def SameMemBut (s t : State) (pa n : Nat) : Prop :=
  ∀ a, ¬ (pa ≤ a ∧ a < pa + n) → Memory.read t.mem a = Memory.read s.mem a

/-- The context at issue may execute an instruction, and the instruction is predicated in it (R13, R123). -/
structure Ready (i : Instr) (s : State) (w : Who) (v : Thread) : Prop where
  wf : i.wellFormed = true
  cur : s.cur = some w
  view : viewOf s w = some v
  checks : contextCheck i v = none
  pred : predicated i v = true

/-- Destination field of an instruction, vz where it has none, and the registers it names. -/
def destReg (i : Instr) : Nat := ((i.dest.map Prod.snd).getD (1023 : Reg)).toNat
def destWidth (i : Instr) : Nat := (i.dest.map Prod.fst).getD 0

/-- The destination is a register or vz, no feed queue (R93). -/
def NoPush (i : Instr) : Prop := feedOf ((i.dest.map Prod.snd).getD (1023 : Reg)) = none

/-- Every register outside a run reads as before. -/
def SameRegsBut (v u : Thread) (d n : Nat) : Prop := ∀ k, ¬ (d ≤ k ∧ k < d + n) → regVal u k = regVal v k

/-- Flags that an instruction raises go to `fpsr`, or to the open iteration of a hand (R58, R98). -/
def FlagsAfter (v u : Thread) (f : Flags) : Prop :=
  if v.handMode && v.hctx.iter.isSome then u.fpsr = v.fpsr ∧ u.hctx.gather = v.hctx.gather ||| f
  else u.fpsr = v.fpsr ||| f ∧ u.hctx.gather = v.hctx.gather

/-- Outside registers, queues, flags, masks and the PC, a context's own state is as before: the return stack, the trap state,
the enables, the seed, the guards, the counters, the meet address, the copy batches. -/
def SameRest (w : Who) (v u : Thread) : Prop :=
  { u with regs := v.regs, hctx := { u.hctx with h := v.hctx.h, gather := v.hctx.gather }, queues := v.queues, pc := v.pc,
           fpsr := v.fpsr, masks := v.masks, raise := v.raise } = v ∧
    ∀ t, w = .thread t → u.raise = v.raise

/-- No other thread changes, and nothing outside the thread table. -/
def OnlyThread (w : Who) (s t : State) : Prop :=
  { t with threads := s.threads } = s ∧ ∀ k, k ≠ Who.threadNo w → threadOf t k = threadOf s k

/-- An instruction has written `r` to its destination and nothing else but flags `f`, the queues its sources popped
(`v'`), and the PC, which moves past it. -/
structure Wrote (i : Instr) (w : Who) (s t : State) (v v' u : Thread) (r : Nat) (f : Flags) : Prop where
  view : viewOf t w = some u
  result : regNum u (destReg i) (destWidth i) = if destReg i = 1023 then 0 else r
  regs : SameRegsBut v u (destReg i) (destWidth i)
  pc : u.pc = v.pc + BitVec.ofNat 64 i.len
  masks : u.masks = v.masks
  queues : u.queues = v'.queues
  flags : FlagsAfter v u f
  rest : SameRest w v u
  only : OnlyThread w s t

/-- An instruction has set bit `m` of the masks to `b` and nothing else but flags `f`, the queues its sources popped, and the
PC. -/
structure SetBit (i : Instr) (w : Who) (s t : State) (v v' u : Thread) (m : Nat) (b : Bool) (f : Flags) : Prop where
  view : viewOf t w = some u
  bit : maskBit u m = if m = 0 then true else b
  others : ∀ k, k ≠ m → maskBit u k = maskBit v k
  regs : SameRegsBut v u 0 0
  pc : u.pc = v.pc + BitVec.ofNat 64 i.len
  queues : u.queues = v'.queues
  flags : FlagsAfter v u f
  rest : SameRest w v u
  only : OnlyThread w s t

/-- An instruction has moved the PC past itself and changed nothing else. -/
structure Advanced (i : Instr) (w : Who) (s t : State) (v u : Thread) : Prop where
  view : viewOf t w = some u
  pc : u.pc = v.pc + BitVec.ofNat 64 i.len
  same : { u with pc := v.pc, raise := v.raise } = v
  only : OnlyThread w s t

end Sys2Proof.Safety
end

