-- ==== Sys2Proof/Certificates/Slice0/Obligations.lean ====
section
/-! DEFINITION. The statements for the provers, each of a rule of spec/ or of what follows from several. -/

/-! ### Integer and logic instructions -/

namespace Sys2Proof.Claims

open Sys2Proof.Machine Sys2Proof.Safety

/-- Bits of an operand of a type. -/
def wid (t : Ty) : Nat := if t.is64 then 64 else 32

/-- A value read as the integer its type says (R419). -/
def ival (t : Ty) (x : Nat) : Int := if t.signed then (BitVec.ofNat (wid t) x).toInt else (BitVec.ofNat (wid t) x).toNat

/-- An exact result modulo 2^w, or clamped to the type's bounds (R419). -/
def irep (t : Ty) (v : Int) : Nat := (BitVec.ofInt (wid t) v).toNat
def lo (t : Ty) : Int := if t.signed then (BitVec.intMin (wid t)).toInt else 0
def hi (t : Ty) : Int := if t.signed then (BitVec.intMax (wid t)).toInt else (BitVec.allOnes (wid t)).toNat
def iclamp (sat : Bool) (t : Ty) (v : Int) : Nat :=
  if sat then (if v < lo t then irep t (lo t) else if hi t < v then irep t (hi t) else irep t v) else irep t v

/-- The immediate of an extended form at its type's width (R110, R359). -/
def immVal (t : Ty) (x : Ext) : Nat :=
  match x.lit with
  | some l => (l.setWidth (wid t)).toNat
  | none => (x.imm.signExtend (wid t)).toNat

/-- The second source of an extended form: vb, or nothing to read where the immediate stands for it. -/
def srcB (t : Ty) (x : Ext) : Src := if x.vb = 1023 then .no else .reg t.regs x.vb
def valB (t : Ty) (x : Ext) (y : Nat) : Nat := if x.vb = 1023 then immVal t x else y
def srcA (t : Ty) (x : Ext) : Src := .reg t.regs x.va
/-- The immediate of a BI word. -/
def imm9 (x : BI) : Nat := (x.imm.signExtend 32).toNat

/-- What an instruction reads, and the value it writes from what it read. -/
structure Claim where
  a : Src
  b : Src
  c : Src
  val : Thread → Nat → Nat → Nat → Nat

/-- Two-source claims of the three forms. -/
def onB3 (x : B3) (f : Ty → Nat → Nat → Nat) : Claim :=
  ⟨.reg x.t.regs x.va, .reg x.t.regs x.vb, .no, fun _ a b _ => f (B3Ty.int x.t) a b⟩
def onBI (x : BI) (f : Ty → Nat → Nat → Nat) : Claim := ⟨.reg 1 x.va, .no, .no, fun _ a _ _ => f .b32 a (imm9 x)⟩
def onExt (t : Ty) (x : Ext) (f : Ty → Nat → Nat → Nat) : Claim :=
  ⟨srcA t x, srcB t x, .no, fun _ a b _ => f t a (valB t x b)⟩
def onExt1 (t : Ty) (x : Ext) (f : Ty → Nat → Nat) : Claim := ⟨srcA t x, .no, .no, fun _ a _ _ => f t a⟩

/-- The seven arithmetic instructions in all their forms (R418, R419). -/
def arith : Instr → Option Claim
  | .iaddB3 x => some (onB3 x fun t a b => irep t (ival t a + ival t b))
  | .isubB3 x => some (onB3 x fun t a b => irep t (ival t a - ival t b))
  | .imulB3 x => some (onB3 x fun t a b => irep t (ival t a * ival t b))
  | .iminB3 x => some (onB3 x fun t a b => if ival t a ≤ ival t b then a else b)
  | .imaxB3 x => some (onB3 x fun t a b => if ival t a ≤ ival t b then b else a)
  | .iaddBI x => some (onBI x fun t a b => irep t (ival t a + ival t b))
  | .iaddExt sat t x => some (onExt t x fun t a b => iclamp sat t (ival t a + ival t b))
  | .isubExt sat t x => some (onExt t x fun t a b => iclamp sat t (ival t a - ival t b))
  | .imulExt t x => some (onExt t x fun t a b => irep t (ival t a * ival t b))
  | .imulhi t x =>
    some (onExt t x fun t a b => ((BitVec.ofInt (2 * wid t) (ival t a * ival t b)).extractLsb' (wid t) (wid t)).toNat)
  | .imad sat t x =>
    some ⟨srcA t x, .reg t.regs x.vb, .reg t.regs x.vc, fun _ a b c => iclamp sat t (ival t a * ival t b + ival t c)⟩
  | .iminExt t x => some (onExt t x fun t a b => if ival t a ≤ ival t b then a else b)
  | .imaxExt t x => some (onExt t x fun t a b => if ival t a ≤ ival t b then b else a)
  | _ => none

/-- AND and ANDN (R364). -/
def andAndn : Instr → Option Claim
  | .andB3 x => some (onB3 x fun t a b => (BitVec.ofNat (wid t) a &&& BitVec.ofNat (wid t) b).toNat)
  | .andBI x => some (onBI x fun t a b => (BitVec.ofNat (wid t) a &&& BitVec.ofNat (wid t) b).toNat)
  | .andExt t x => some (onExt t x fun t a b => (BitVec.ofNat (wid t) a &&& BitVec.ofNat (wid t) b).toNat)
  | .andn t x => some (onExt t x fun t a b => (BitVec.ofNat (wid t) a &&& ~~~ BitVec.ofNat (wid t) b).toNat)
  | _ => none

/-- OR, XOR and NOT (R452, R454), and the three shifts (R473). -/
def orXorShift : Instr → Option Claim
  | .orB3 x => some (onB3 x fun t a b => (BitVec.ofNat (wid t) a ||| BitVec.ofNat (wid t) b).toNat)
  | .orBI x => some (onBI x fun t a b => (BitVec.ofNat (wid t) a ||| BitVec.ofNat (wid t) b).toNat)
  | .orExt t x => some (onExt t x fun t a b => (BitVec.ofNat (wid t) a ||| BitVec.ofNat (wid t) b).toNat)
  | .xorB3 x => some (onB3 x fun t a b => (BitVec.ofNat (wid t) a ^^^ BitVec.ofNat (wid t) b).toNat)
  | .xorBI x => some (onBI x fun t a b => (BitVec.ofNat (wid t) a ^^^ BitVec.ofNat (wid t) b).toNat)
  | .xorExt t x => some (onExt t x fun t a b => (BitVec.ofNat (wid t) a ^^^ BitVec.ofNat (wid t) b).toNat)
  | .not t x => some (onExt1 t x fun t a => (~~~ BitVec.ofNat (wid t) a).toNat)
  | .shlB3 x => some (onB3 x fun t a b => (BitVec.ofNat (wid t) a <<< (b % wid t)).toNat)
  | .shlBI x => some (onBI x fun t a b => (BitVec.ofNat (wid t) a <<< (b % wid t)).toNat)
  | .shlExt t x => some (onExt t x fun t a b => (BitVec.ofNat (wid t) a <<< (b % wid t)).toNat)
  | .shrB3 x => some (onB3 x fun t a b => (BitVec.ofNat (wid t) a >>> (b % wid t)).toNat)
  | .shrBI x => some (onBI x fun t a b => (BitVec.ofNat (wid t) a >>> (b % wid t)).toNat)
  | .shrExt t x => some (onExt t x fun t a b => (BitVec.ofNat (wid t) a >>> (b % wid t)).toNat)
  | .sarB3 x => some (onB3 x fun t a b => ((BitVec.ofNat (wid t) a).sshiftRight (b % wid t)).toNat)
  | .sarBI x => some (onBI x fun t a b => ((BitVec.ofNat (wid t) a).sshiftRight (b % wid t)).toNat)
  | .sarExt t x => some (onExt t x fun t a b => ((BitVec.ofNat (wid t) a).sshiftRight (b % wid t)).toNat)
  | _ => none

/-- BFX and BFI (R374). -/
def bitField : Instr → Option Claim
  | .bfx pos len t x =>
    some ⟨.reg 1 x.va, .no, .no, fun _ a _ _ =>
      let f := (BitVec.ofNat 32 a).extractLsb' pos.toNat len.toNat
      if t = .b32 then (f.signExtend 32).toNat else (f.setWidth 32).toNat⟩
  | .bfi pos len _ x =>
    some ⟨.reg 1 x.va, .reg 1 x.vb, .no, fun _ a b _ =>
      let m : BitVec 32 := (BitVec.allOnes len.toNat).setWidth 32 <<< pos.toNat
      ((BitVec.ofNat 32 a &&& ~~~ m) ||| ((BitVec.ofNat 32 b <<< pos.toNat) &&& m)).toNat⟩
  | _ => none

/-- BREV and CLZ (R378), and POPC (R462). -/
def bitCount : Instr → Option Claim
  | .brev t x => some (onExt1 t x fun t a => (BitVec.ofNat (wid t) a).reverse.toNat)
  | .clz t x =>
    some (onExt1 t x fun t a => ((List.range (wid t)).takeWhile fun i => !(BitVec.ofNat (wid t) a).getMsbD i).length)
  | .popc t x => some (onExt1 t x fun t a => ((List.range (wid t)).filter fun i => (BitVec.ofNat (wid t) a).getLsbD i).length)
  | _ => none

/-- MOV, MOVI, SEL and LEA (R440, R449, R450, R474). -/
def moves : Instr → Option Claim
  | .movB3 x => some ⟨.reg x.t.regs x.va, .no, .no, fun _ a _ _ => a⟩
  | .movExt t x => some (onExt1 t x fun t a => if t = .bf16 then a % 65536 else a)
  | .moviB x => some ⟨.no, .no, .no, fun _ _ _ _ => (x.imm.signExtend 32).toNat⟩
  | .moviExt t x => some ⟨.no, .no, .no, fun _ _ _ _ => immVal t x⟩
  | .sel inv m t x =>
    some ⟨srcA t x, srcB t x, .no, fun v a b _ =>
      let r := if (maskBit v m.toNat != inv) = true then a else valB t x b
      if t = .bf16 then r % 65536 else r⟩
  | .lea sh t x =>
    some ⟨.reg 2 x.va, .reg 1 x.vb, .no, fun _ a b _ =>
      let y : BitVec 64 := if t = .b32 then (BitVec.ofNat 32 b).signExtend 64 else BitVec.ofNat 64 b
      (BitVec.ofNat 64 a + (y <<< sh.toNat) + BitVec.ofNat 64 (if x.vb = 1023 then immVal .s64 x else 0)).toNat⟩
  | _ => none

/-- An instruction completes: it reads its sources, writes the value to its destination and changes nothing else, flags but
those of the queue entries it pops included. -/
def Writes (i : Instr) (k : Claim) : Prop :=
  ∀ (s : State) (w : Who) (v v' : Thread) (x y z : Nat) (g : Flags),
    Ready i s w v → NoPush i → readSrcs v k.a k.b k.c = some (x, y, z, g, v') → trapFlags v g = 0 →
      ∃ t u, exec i s = .next t ∧ Wrote i w s t v v' u (k.val v x y z) g

end Sys2Proof.Claims

open Sys2Proof Sys2Proof.Machine Sys2Proof.Safety Sys2Proof.Claims

/-- R418, R419: IADD, ISUB, IMUL, IMULHI, IMAD, IMIN and IMAX in every form write the exact result reduced modulo 2^w, or
clamped under .sat, and set no flag. -/
def Obligations.IntegerArithmeticWritesExactResult : Prop := ∀ i k, arith i = some k → Writes i k

/-- R364: AND and ANDN write `a and b` and `a and not b`, and set no flag. -/
def Obligations.AndAndnWriteResult : Prop := ∀ i k, andAndn i = some k → Writes i k

/-- R452, R454, R473: OR, XOR, NOT and the shifts write their results, and set no flag. -/
def Obligations.OrXorNotShiftsWriteResult : Prop := ∀ i k, orXorShift i = some k → Writes i k

/-- R374: BFX extracts a field, sign-extended for s32, and BFI inserts one. -/
def Obligations.BitFieldsExtractAndInsert : Prop := ∀ i k, bitField i = some k → Writes i k

/-- R378, R462: BREV reverses the bits, CLZ counts the leading zeros and POPC the ones. -/
def Obligations.BitCountsAndReversal : Prop := ∀ i k, bitCount i = some k → Writes i k

/-- R440, R449, R450, R474: MOV copies, MOVI writes its immediate, SEL chooses by a mask bit and LEA adds. -/
def Obligations.MovesSelectAndAddress : Prop := ∀ i k, moves i = some k → Writes i k

/-! ### Feed pushes, stalls, predication, masks -/

namespace Sys2Proof.Claims

/-- The integer and logic instructions that write one destination. -/
def intClaim (i : Instr) : Option Claim :=
  arith i <|> andAndn i <|> orXorShift i <|> bitField i <|> bitCount i <|> moves i

/-- A condition of R113 on two integers. -/
def holds (c : Cond) (x y : Int) : Bool :=
  match c with
  | .eq => decide (x = y)
  | .ne => decide (x ≠ y)
  | .lt => decide (x < y)
  | .le => decide (x ≤ y)
  | .gt => decide (y < x)
  | .ge => decide (y ≤ x)
  | .un | .ord => false

/-- Instructions that an unfulfilled predicate leaves without effect (R13): all but the team operations, which arrive all the
same (R50). -/
def predicable (i : Instr) : Bool :=
  match i with
  | .shfl .. | .vote .. | .tred .. | .tscan .. => false
  | .braBB .. => true
  | i => i.form?.isSome || i.baseOperands.isSome

end Sys2Proof.Claims

/-- R93, R95, R171: a result whose destination is a feed queue is pushed toward its quarter and counts in tl; an unbound
quarter traps, and a full queue stalls. While an entry a source needs has not arrived, an instruction stalls: nothing changes. -/
def Obligations.FeedQueuesAndStalls : Prop :=
  ∀ (i : Instr) (k : Claim) (s : State) (w : Who) (v : Thread), intClaim i = some k → Ready i s w v →
    (NoPush i → readSrcs v k.a k.b k.c = none → exec i s = .next s) ∧
    ∀ q, feedOf ((i.dest.map Prod.snd).getD (1023 : Reg)) = some q →
      (pushCheck s v q = .unbound → exec i s = .next (takeTrap s w v (kept .bentTicket q) (trapHere i v))) ∧
      (pushCheck s v q = .full → exec i s = .next s) ∧
      (∀ x y z g v', pushCheck s v q = .free → readSrcs v k.a k.b k.c = some (x, y, z, g, v') → trapFlags v g = 0 →
        ∃ t u, exec i s = .next t ∧ viewOf t w = some u ∧
          quarterOf t (threadQuarter s v q) =
            { quarterOf s (threadQuarter s v q) with
              pushes := (quarterOf s (threadQuarter s v q)).pushes ++
                [{ thread := Who.threadNo w, word := BitVec.ofNat 32 (k.val v x y z), was := v, next := v.pc + BitVec.ofNat 64 i.len }] } ∧
          u.tl = v.tl + 1 ∧ u.pc = v.pc + BitVec.ofNat 64 i.len ∧ SameRegsBut v u 0 0 ∧ u.masks = v.masks ∧ u.queues = v'.queues ∧
          FlagsAfter v u g ∧ { t with threads := s.threads, quarters := s.quarters } = s)

/-- R13: an instruction that is not predicated changes nothing but the PC; under zeroing it writes zero to its destination,
under merge the destination keeps its value. -/
def Obligations.UnpredicatedInstructionOnlyZeroes : Prop :=
  ∀ (i : Instr) (s : State) (w : Who) (v : Thread),
    predicable i = true → i.wellFormed = true → s.cur = some w → viewOf s w = some v → contextCheck i v = none →
      predicated i v = false →
        ∃ t u, exec i s = .next t ∧ viewOf t w = some u ∧ OnlyThread w s t ∧ u.pc = v.pc + BitVec.ofNat 64 i.len ∧
          regNum u (destReg i) (destWidth i) = (if i.pred.2.2 then 0 else regNum v (destReg i) (destWidth i)) ∧
          SameRegsBut v u (destReg i) (destWidth i) ∧
          (∀ m, m ≠ 0 → maskBit u m = if i.pred.2.2 ∧ i.maskDest = some m then false else maskBit v m) ∧
          u.queues = v.queues ∧ u.fpsr = v.fpsr ∧ SameRest w v u

/-- R421, R447, R448: ICMP, MLOG and MMOV set the thread's bit of a mask and nothing else. -/
def Obligations.IntegerMaskWriters : Prop :=
  ∀ (s : State) (w : Who) (v : Thread),
    (∀ c md ty x v' a b z g, Ready (.icmp c true md ty x) s w v →
      readSrcs v (srcA ty x) (srcB ty x) .no = some (a, b, z, g, v') → trapFlags v g = 0 →
        ∃ t u, exec (.icmp c true md ty x) s = .next t ∧
          SetBit (.icmp c true md ty x) w s t v v' u md.toNat (holds c (ival ty a) (ival ty (valB ty x b))) g) ∧
    (∀ fn md ma mb x, Ready (.mlog fn md ma mb x) s w v →
      ∃ t u, exec (.mlog fn md ma mb x) s = .next t ∧
        SetBit (.mlog fn md ma mb x) w s t v v u md.toNat
          (let a := maskBit v ma.toNat
           let b := maskBit v mb.toNat
           match fn with
            | .and => a && b
            | .or => a || b
            | .xor => a ^^ b
            | .andn => a && !b
            | .not => !a
            | .copy => a) 0) ∧
    (∀ m x v' a g, Ready (.mmov true m x) s w v → readSrc v (.reg 1 x.va) = some (a, g, v') → trapFlags v g = 0 →
      ∃ t u, exec (.mmov true m x) s = .next t ∧ SetBit (.mmov true m x) w s t v v' u m.toNat (a.testBit 0) g)

/-- R421, R448: ICMP without a mask destination writes all-ones or zero, and MMOV the bit of a mask. -/
def Obligations.IntegerCompareToRegister : Prop :=
  ∀ (i : Instr) (k : Claim),
    ((∃ c md ty x, i = .icmp c false md ty x ∧
        k = ⟨srcA ty x, srcB ty x, .no, fun _ a b _ => if holds c (ival ty a) (ival ty (valB ty x b)) then 0xFFFFFFFF else 0⟩) ∨
     (∃ m x, i = .mmov false m x ∧ k = ⟨.no, .no, .no, fun v _ _ _ => if maskBit v m.toNat then 1 else 0⟩)) →
      Writes i k

/-! ### Floating-point and conversion instructions -/

namespace Sys2Proof.Claims

/-- What a floating-point instruction reads, and the value and flags it comes to, or its trap. -/
structure FClaim where
  a : Src
  b : Src
  c : Src
  val : State → Thread → Nat → Nat → Nat → Got (Nat × Flags)

/-- An exact value and its flags, rounded once (R404). -/
def once (t : Ty) (m : Rnd) (h : Nat) (e : FVal × Flags) : Nat × Flags :=
  (((fmtOf t).round m h false e.1).1, e.2 ||| ((fmtOf t).round m h false e.1).2)

def dec (t : Ty) (x : Nat) : FVal := (fmtOf t).decode x
def addE (t : Ty) (m : Rnd) (h a b : Nat) : Nat × Flags := once t m h (FVal.add (m == .rdn) (dec t a) (dec t b))
def subE (t : Ty) (m : Rnd) (h a b : Nat) : Nat × Flags := once t m h (FVal.add (m == .rdn) (dec t a) (FVal.neg (dec t b)))
def mulE (t : Ty) (m : Rnd) (h a b : Nat) : Nat × Flags := once t m h (FVal.mul (dec t a) (dec t b))
def fmaE (t : Ty) (m : Rnd) (h a b c : Nat) : Nat × Flags :=
  once t m h ((FVal.add (m == .rdn) (FVal.mul (dec t a) (dec t b)).1 (dec t c)).1,
    (FVal.mul (dec t a) (dec t b)).2 ||| (FVal.add (m == .rdn) (FVal.mul (dec t a) (dec t b)).1 (dec t c)).2)

/-- R457: an element times its scale; a NaN scale sets NV. -/
def scaled (x y : FVal) : FVal × Flags := ((FVal.mul x y).1, (FVal.mul x y).2 ||| if y.isNan then fNV else 0)

def rndOf (x : B3) : Rnd := (x.pfx.map (·.rnd)).getD .dflt
/-- Type of a float base word: t = 00 is f32, t = 01 is bf16 (R106). -/
def fty (x : B3) : Ty := if x.t = .z32bf then .bf16 else .f32
def fB3 (x : B3) (f : State → Thread → Nat → Nat → Nat × Flags) : FClaim :=
  ⟨.reg 1 x.va, .reg 1 x.vb, .no, fun s v a b _ => .ok (f s v a b)⟩
/-- Second source of a float form: vb, or the literal's pattern (R110). -/
def srcF (x : Ext) : Src := if x.lit = none then .reg 1 x.vb else .no
def valF (x : Ext) (y : Nat) : Nat :=
  match x.lit with
  | some l => (l.setWidth 32).toNat
  | none => y
def fExt (x : Ext) (f : State → Thread → Nat → Nat → Nat × Flags) : FClaim :=
  ⟨.reg 1 x.va, srcF x, .no, fun s v a b _ => .ok (f s v a (valF x b))⟩

/-- Rounded arithmetic, minimum and maximum, rounding to integral, scaling, and the conversions (R395, R404, R405, R412, R413,
R456, R457). The last argument of the rounding is the hash of R140, taken of the instruction's own destination. -/
def fltClaim (i : Instr) : Option FClaim :=
  match i with
  | .faddB3 x => some (fB3 x fun s v a b => addE (fty x) (rndOf x) (regHash s v i 0) a b)
  | .fsubB3 x => some (fB3 x fun s v a b => subE (fty x) (rndOf x) (regHash s v i 0) a b)
  | .fmulB3 x => some (fB3 x fun s v a b => mulE (fty x) (rndOf x) (regHash s v i 0) a b)
  | .ffmaB3 x =>
    some ⟨.reg 1 x.va, .reg 1 x.vb, .reg 1 x.vc, fun s v a b c => .ok (fmaE (fty x) (rndOf x) (regHash s v i 0) a b c)⟩
  | .fminB3 x => some (fB3 x fun _ _ a b => fminmax (fmtOf (fty x)) false a b)
  | .fmaxB3 x => some (fB3 x fun _ _ a b => fminmax (fmtOf (fty x)) true a b)
  | .faddExt t x => some (fExt x fun s v a b => addE t x.rnd (regHash s v i 0) a b)
  | .fsubExt t x => some (fExt x fun s v a b => subE t x.rnd (regHash s v i 0) a b)
  | .fmulExt t x => some (fExt x fun s v a b => mulE t x.rnd (regHash s v i 0) a b)
  | .ffmaExt t x =>
    some ⟨.reg 1 x.va, srcF x, .reg 1 x.vc, fun s v a b c => .ok (fmaE t x.rnd (regHash s v i 0) a (valF x b) c)⟩
  | .fminExt t x => some (fExt x fun _ _ a b => fminmax (fmtOf t) false a b)
  | .fmaxExt t x => some (fExt x fun _ _ a b => fminmax (fmtOf t) true a b)
  | .frnd t x => some ⟨.reg 1 x.va, .no, .no, fun _ _ a _ _ => .ok (frndOp t x.rnd a)⟩
  | .fldx t x => some ⟨.reg 1 x.va, srcB .b32 x, .no, fun _ _ a b _ => .ok (fldxOp t x.rnd a (valB .b32 x b))⟩
  | .cvt src sat t x =>
    some ⟨.reg src.regs x.va, .no, .no, fun s v a _ _ =>
      if src = .e4m3p ∧ a.testBit 7 then .trap (kept .fmtScale a) else .ok (cvtOp t src sat x.rnd (regHash s v i 0) a)⟩
  | .pack n pos sat t x =>
    some ⟨.reg 1 x.va, .reg 1 x.vb, .no, fun s v a b _ =>
      .ok (packOp n t pos.toNat sat x.rnd (regHash s v i pos.toNat) (x.vb != 1023) (regNum v x.vd.toNat 1) a b)⟩
  | .unpk n pos t x =>
    some ⟨.reg 1 x.va, .reg 1 x.vb, .no, fun s v a b _ =>
      let e := unpkElem n pos.toNat a
      if n = .cb4 then
        (codebookEntry s (threadCore s v) (threadEnclave s v) (((headerOf s v).map (·.ctxt.toNat)).getD 0)
          (if x.vb = 1023 then 0 else b % 64) e).map fun p => once t x.rnd 0 (Fmt.bf16.decode p, 0)
      else if n = .e4m3p ∧ e.testBit 7 then .trap (kept .fmtScale a)
      else .ok (once t x.rnd 0 (if x.vb = 1023 then (fpValue n e, 0) else scaled (fpValue n e) (dec .f32 b)))⟩
  | _ => none

/-- A bit of the class word of FCLASS, from the sign, exponent and fraction of a pattern with `e` and `m` bits (R407). -/
def classBit (e m : Nat) (x : BitVec 32) : Nat :=
  let neg := x.getLsbD (e + m)
  let ex := x.extractLsb' m e
  let fr := x.extractLsb' 0 m
  if ex = BitVec.allOnes e then
    if fr = 0 then (if neg then 0 else 7) else if fr.getLsbD (m - 1) then 9 else 8
  else if ex = 0 then
    if fr = 0 then (if neg then 3 else 4) else (if neg then 2 else 5)
  else (if neg then 1 else 6)

/-- The sign FSGN writes (R414). -/
def signOf (fn : SgnFn) (a b : Bool) : Bool :=
  match fn with
  | .copy => b
  | .neg => !b
  | .xor => a ^^ b
  | .abs => false

end Sys2Proof.Claims

/-- R404, R405, R395, R412, R413, R456, R457: a floating-point or conversion instruction that raises no enabled flag completes:
its exact result rounded once stands in its destination, and its flags are ORed into `fpsr`. -/
def Obligations.FloatingPointResultsAndFlags : Prop :=
  ∀ (i : Instr) (k : FClaim) (s : State) (w : Who) (v v' : Thread) (x y z r : Nat) (g f : Flags),
    fltClaim i = some k → Ready i s w v → NoPush i → readSrcs v k.a k.b k.c = some (x, y, z, g, v') →
      k.val s v x y z = .ok (r, f) → trapFlags v (g ||| f) = 0 →
        ∃ t u, exec i s = .next t ∧ Wrote i w s t v v' u (r % 2 ^ (32 * destWidth i)) (g ||| f)

/-- R407, R414: FSGN copies the magnitude under a new sign, and FCLASS sets the one bit of the operand's class; neither sets a
flag. -/
def Obligations.FloatSignAndClass : Prop :=
  (∀ fn t x s w v v' a b z g, (t = .f32 ∨ t = .bf16) → Ready (.fsgn fn t x) s w v → NoPush (.fsgn fn t x) →
    readSrcs v (.reg 1 x.va) (if fn = .abs then .no else .reg 1 x.vb) .no = some (a, b, z, g, v') → trapFlags v g = 0 →
      ∃ t' u, exec (.fsgn fn t x) s = .next t' ∧
        Wrote (.fsgn fn t x) w s t' v v' u
          (let n := if t = .f32 then 31 else 15
           a % 2 ^ n + if signOf fn (a.testBit n) (b.testBit n) then 2 ^ n else 0) g) ∧
  (∀ t x s w v v' a y z g, (t = .f32 ∨ t = .bf16) → Ready (.fclass t x) s w v → NoPush (.fclass t x) →
    readSrcs v (.reg 1 x.va) .no .no = some (a, y, z, g, v') → trapFlags v g = 0 →
      ∃ t' u, exec (.fclass t x) s = .next t' ∧
        Wrote (.fclass t x) w s t' v v' u
          (2 ^ classBit 8 (if t = .f32 then 23 else 7) (BitVec.ofNat 32 a)) g)

/-- R409: FCMP sets a mask bit, or writes all-ones or zero, by the condition on its operands, and raises NV for a signalling
operand and, under an ordered condition, for any NaN. -/
def Obligations.FloatCompare : Prop :=
  ∀ c md t x s w v v' a b z g f,
    readSrcs v (.reg 1 x.va) (srcF x) .no = some (a, b, z, g, v') →
      f = (if (dec t a).signalling ∨ (dec t (valF x b)).signalling ∨
              ((c = .lt ∨ c = .le ∨ c = .gt ∨ c = .ge) ∧ ((dec t a).isNan ∨ (dec t (valF x b)).isNan))
            then (16 : Flags) else 0) →
      trapFlags v (g ||| f) = 0 →
        (Ready (.fcmp c true md t x) s w v →
          ∃ t' u, exec (.fcmp c true md t x) s = .next t' ∧
            SetBit (.fcmp c true md t x) w s t' v v' u md.toNat (fcond c (dec t a) (dec t (valF x b))) (g ||| f)) ∧
        (Ready (.fcmp c false md t x) s w v → NoPush (.fcmp c false md t x) →
          ∃ t' u, exec (.fcmp c false md t x) s = .next t' ∧
            Wrote (.fcmp c false md t x) w s t' v v' u
              (if fcond c (dec t a) (dec t (valF x b)) then 0xFFFFFFFF else 0) (g ||| f))

/-- R138: rounding a value that a format holds gives back its pattern, exactly and without a flag, in every mode. -/
def Obligations.RoundingKeepsRepresentableValues : Prop :=
  ∀ (f : Fmt) (p h : Nat) (m : Rnd) (sat : Bool),
    f ∈ [Fmt.f32, Fmt.bf16, Fmt.e4m3, Fmt.e5m2, Fmt.e3m2, Fmt.e2m3, Fmt.e2m1] →
      p < 2 ^ (1 + f.ebits + f.mbits) → p % 2 ^ (f.ebits + f.mbits) ≤ f.maxCode →
        f.round m h sat (f.decode p) = (p, 0)

/-- R281: an instruction whose own flags include an enabled one not yet set completes first, and then traps with the lowest
code among them: the result is in its register, all its flags are in `fpsr`, `tinfo` holds them, and the thread is in its
handler. -/
def Obligations.EnabledFlagTrapsAfterCompletion : Prop :=
  ∀ (i : Instr) (k : FClaim) (s : State) (n : Nat) (v v' : Thread) (x y z r : Nat) (g f : Flags) (h : Header),
    fltClaim i = some k → Ready i s (.thread n) v → NoPush i → readSrcs v k.a k.b k.c = some (x, y, z, g, v') →
      k.val s v x y z = .ok (r, f) → trapFlags v (g ||| f) ≠ 0 → v.handMode = false → v.trapActive = false →
        headerOf s v = some h → h.handler ≠ 0 →
        ∃ t u, exec i s = .next t ∧ threadOf t n = some u ∧ u.pc = h.handler ∧ u.trapActive = true ∧ u.trapBank = true ∧
          u.tcause =
            (let e := trapFlags v (g ||| f)
             if e.getLsbD 4 then 0x20 else if e.getLsbD 3 then 0x21 else if e.getLsbD 2 then 0x22
             else if e.getLsbD 1 then 0x23 else 0x24) ∧
          u.tpc = v.pc ∧ u.tlen = i.len ∧ u.tinfo = (g ||| f).setWidth 64 ∧ u.fpsr = v.fpsr ||| (g ||| f) ∧
          regNum u (destReg i) (destWidth i) = (if destReg i = 1023 then 0 else r % 2 ^ (32 * destWidth i))

/-! ### Control flow and traps -/

namespace Sys2Proof.Claims

/-- A context has moved to a target, its prefetched words gone, and nothing else has changed (R376). -/
structure Jumped (w : Who) (s t : State) (v u : Thread) (target : DWord) : Prop where
  view : viewOf t w = some u
  pc : u.pc = target
  fetched : u.fetched = []
  same : { u with pc := v.pc, fetched := v.fetched, raise := v.raise } = v
  only : OnlyThread w s t

/-- Bits 3:0 of an instruction address are zero (R104). -/
def Aligned (a : DWord) : Prop := a.extractLsb' 0 4 = 0

/-- Target of a base branch or call: 16-byte units from the boundary at or below the instruction (R376). -/
def baseTo (pc : DWord) (off : BitVec 18) : DWord := (pc &&& ~~~ 15#64) + (off.signExtend 64 <<< 4)

/-- Target of each branch, jump and call. -/
def targetOf (v : Thread) : Instr → Option DWord
  | .braBB _ _ off | .callBB _ off => some (baseTo v.pc off)
  | .braExt x | .callExt x => some (v.pc + x.lit.getD 0)
  | .jmp x | .calli x => some (BitVec.ofNat 64 (regNum v x.va.toNat 2))
  | _ => none

def isCall : Instr → Bool
  | .callBB .. | .callExt .. | .calli .. => true
  | _ => false

/-- A thread has entered its handler at an instruction of a length (R276, R277): every register, mask, guard, return-stack
entry, flag and the meet register is as the trap found it. -/
structure Entered (n : Nat) (t : State) (v u : Thread) (h : Header) (cause : Word) (info : DWord) (dst : Word) (len : Nat) : Prop where
  view : threadOf t n = some u
  pc : u.pc = h.handler
  active : u.trapActive = true
  bank : u.trapBank = true
  cause : u.tcause = cause
  tpc : u.tpc = v.pc
  tinfo : u.tinfo = info
  tdst : u.tdst = dst
  tlen : u.tlen = len
  fetched : u.fetched = []
  regs : u.regs = v.regs
  masks : u.masks = v.masks
  flags : u.fpsr = v.fpsr ∧ u.fpen = v.fpen
  rest : u.guards = v.guards ∧ u.meet = v.meet ∧ u.seed = v.seed ∧ u.loads = v.loads ∧ u.stores = v.stores ∧ u.tl = v.tl

/-- A vector thread outside hand mode and outside a trap, with a handler (R276). -/
structure MayTrap (s : State) (v : Thread) (h : Header) : Prop where
  vector : v.control = false
  noHand : v.handMode = false
  noTrap : v.trapActive = false
  header : headerOf s v = some h
  handler : h.handler ≠ 0

end Sys2Proof.Claims

/-- R104, R376, R382, R429: a predicated branch, a jump or a call whose target is aligned continues at the target; a call
pushes the address of the next instruction. A misaligned target raises BR_ALIGN with the target in `tinfo`. -/
def Obligations.BranchesJumpsAndCalls : Prop :=
  ∀ (i : Instr) (s : State) (w : Who) (v : Thread) (target : DWord), Ready i s w v → targetOf v i = some target →
    (¬ Aligned target → exec i s = .next (takeTrap s w v (kept .brAlign target.toNat) (trapHere i v))) ∧
    (Aligned target → isCall i = false → ∃ t u, exec i s = .next t ∧ Jumped w s t v u target) ∧
    (Aligned target → isCall i = true → v.stack.length < 16 →
      ∃ t u, exec i s = .next t ∧
        Jumped w s t { v with stack := (v.pc + BitVec.ofNat 64 i.len) :: v.stack } u target)

/-- R472: RET continues at the newest entry of the return stack and removes it; with no entry and no spilled one it raises
RET_EMPTY; at a misaligned entry it raises BR_ALIGN and leaves the stack unchanged. -/
def Sys2Proof.Claims.ReturnsPopTheStack : Prop :=
  ∀ (x : Ext) (s : State) (w : Who) (v : Thread), Ready (.ret x) s w v →
    (∀ a rest, v.stack = a :: rest → Aligned a →
      ∃ t u, exec (.ret x) s = .next t ∧ Jumped w s t { v with stack := rest } u a) ∧
    (∀ a rest, v.stack = a :: rest → ¬ Aligned a →
      exec (.ret x) s = .next (takeTrap s w v (kept .brAlign a.toNat) (trapHere (.ret x) v))) ∧
    (v.stack = [] → v.spill = 0 → exec (.ret x) s = .next (takeTrap s w v (kept .retEmpty 0) (trapHere (.ret x) v)))

/-- R284, R285: a call at depth 16 raises RSTACK_SPILL with the oldest entry in `tinfo`, fifteen entries left and the new
spill count in `tdst`; a return from an empty stack with entries spilled raises RSTACK_FILL with the count decremented. -/
def Sys2Proof.Claims.ReturnStackSpillsAndFills : Prop :=
  ∀ (s : State) (n : Nat) (v : Thread) (h : Header), MayTrap s v h →
    (∀ i target, Ready i s (.thread n) v → isCall i = true → targetOf v i = some target → Aligned target → v.stack.length = 16 →
      ∃ t u, exec i s = .next t ∧
        Entered n t v u h 0x05 (v.stack.getLastD 0) (v.spill + 1) i.len ∧ u.stack = v.stack.dropLast ∧ u.spill = v.spill + 1) ∧
    (∀ x, Ready (.ret x) s (.thread n) v → v.stack = [] → v.spill ≠ 0 →
      ∃ t u, exec (.ret x) s = .next t ∧ Entered n t v u h 0x06 0 (v.spill - 1) 12 ∧ u.stack = [] ∧ u.spill = v.spill - 1)

/-- R284, R285, R472: returns, and the traps that spill and fill the return stack. -/
def Obligations.ReturnStack : Prop := Sys2Proof.Claims.ReturnsPopTheStack ∧ Sys2Proof.Claims.ReturnStackSpillsAndFills

/-- R276, R277, R280, R487: TRAP raises SOFT with its sign-extended immediate: the thread enters its handler with its cause,
PC, info and destination record saved and everything else as the trap found it. -/
def Sys2Proof.Claims.TrapEntersHandler : Prop :=
  ∀ (x : Ext) (s : State) (n : Nat) (v : Thread) (h : Header), Ready (.trap x) s (.thread n) v → MayTrap s v h →
    ∃ t u, exec (.trap x) s = .next t ∧ Entered n t v u h 0x3F (x.imm.signExtend 64) 0x403FF 12 ∧ u.stack = v.stack ∧
      u.spill = v.spill ∧ u.tmask.getLsbD v.tpos = true

/-- R276, R287, R293: a trap in a thread without a handler halts its bent as an unhandled trap (class 0x02), and a trap within
a handler as a double trap (class 0x03). A halted bent is gone: no bent of its ticket and no thread of it is left. -/
def Sys2Proof.Claims.UnhandledAndDoubleTrapsHalt : Prop :=
  (∀ (x : Ext) (s : State) (n : Nat) (v : Thread) (h : Header), Ready (.trap x) s (.thread n) v → v.control = false →
    headerOf s v = some h →
      (h.handler = 0 → exec (.trap x) s = .next (haltBent s v 0x02 0x3F (x.imm.signExtend 64).toNat)) ∧
      (h.handler ≠ 0 → v.trapActive = true →
        exec (.trap x) s = .next (haltBent s v 0x03 0x3F (x.imm.signExtend 64).toNat))) ∧
  ∀ (s : State) (v : Thread) (b : Bent) (l : Launch) (cls code info : Nat),
    bentOf s v.bent = some b → launchOfBent s v.bent = some l →
      bentOf (haltBent s v cls code info) v.bent = none ∧
        ∀ k u, (k, u) ∈ (haltBent s v cls code info).threads → u.bent ≠ v.bent

/-- R276, R277, R280, R287, R293, R487: what taking a trap does. -/
def Obligations.TrapsEnterHandlersOrHalt : Prop := Sys2Proof.Claims.TrapEntersHandler ∧ Sys2Proof.Claims.UnhandledAndDoubleTrapsHalt

/-- R123, R276, R280: an instruction whose class is not admitted raises ILLEGAL_INSN, and one that names a register at or above
n raises REG_RANGE with the field in `tinfo`; neither has another effect. -/
def Obligations.ContextChecksTrap : Prop :=
  ∀ (i : Instr) (s : State) (n : Nat) (v : Thread) (h : Header) (k : Kept),
    predicable i = true → s.cur = some (.thread n) → threadOf s n = some v → MayTrap s v h → contextCheck i v = some k →
      (∃ t u, exec i s = .next t ∧ Entered n t v u h (if k.code = .regRange then 0x02 else 0x01) k.info i.tdst i.len ∧
        u.stack = v.stack) ∧
      (k.code = .regRange → ∃ o ∈ i.operands, o.2.toNat < 768 ∧ v.n < o.2.toNat + o.1.width ∧ k.info = BitVec.ofNat 64 o.2.toNat) ∧
      (k.code ≠ .regRange → k.code = .illegalInsn ∧ k.info = i.word0.setWidth 64)

/-- R282: plain RTE continues at `tpc`, RTE.skip past the instruction there; both leave the trap and return to the normal bank,
with nothing else changed. Outside a trap they raise ILLEGAL_INSN. -/
def Sys2Proof.Claims.ReturnFromTrap : Prop :=
  ∀ (x : Ext) (s : State) (w : Who) (v : Thread),
    (Ready (.rte x) s w v → v.trapActive = true →
      ∃ t u, exec (.rte x) s = .next t ∧
        Jumped w s t { v with trapActive := false, trapBank := false } u v.tpc) ∧
    (Ready (.rteSkip x) s w v → v.trapActive = true →
      ∃ t u, exec (.rteSkip x) s = .next t ∧
        Jumped w s t { v with trapActive := false, trapBank := false } u (v.tpc + BitVec.ofNat 64 v.tlen)) ∧
    (Ready (.rte x) s w v → v.trapActive = false →
      exec (.rte x) s = .next (takeTrap s w v (kept .illegalInsn 0xB8600000) (trapHere (.rte x) v))) ∧
    (Ready (.rteSkip x) s w v → v.trapActive = false →
      exec (.rteSkip x) s = .next (takeTrap s w v (kept .illegalInsn 0xB8600001) (trapHere (.rteSkip x) v)))

/-- A thread has left its trap past the instruction that trapped (R282). -/
structure Sys2Proof.Claims.Left (v u : Thread) : Prop where
  pc : u.pc = v.tpc + BitVec.ofNat 64 v.tlen
  active : u.trapActive = false
  bank : u.trapBank = false
  same : u.masks = v.masks ∧ u.stack = v.stack ∧ u.spill = v.spill ∧ u.fpen = v.fpen

/-- R282, R285: RTE.sub writes the value from va, or from va upward, to the destination the trap recorded, and continues past the
instruction; with no destination, or vz, it writes nothing; to q0-q3 it adds one result entry of the normal bank; to a feed queue it pushes the
value as another instruction's result. That such a push stalls while the queue is full and raises BENT_TICKET while its quarter is not
bound is the model's choice (log entry 21). After RSTACK_FILL it continues at the address in the pair, and takes BR_ALIGN at the RET, the trap
left, where that is misaligned. -/
def Sys2Proof.Claims.SubstitutingReturn : Prop :=
  ∀ (x : Ext) (s : State) (n : Nat) (v : Thread), Ready (.rteSub x) s (.thread n) v → v.trapActive = true →
    subCheck (.rteSub x) v x.va = none →
      (v.tcause.extractLsb' 0 8 = 0x06 → Aligned (BitVec.ofNat 64 (regNum v x.va.toNat 2)) →
        ∃ t u, exec (.rteSub x) s = .next t ∧
          Jumped (.thread n) s t { v with trapActive := false, trapBank := false } u (BitVec.ofNat 64 (regNum v x.va.toNat 2))) ∧
      (∀ h, v.tcause.extractLsb' 0 8 = 0x06 → ¬ Aligned (BitVec.ofNat 64 (regNum v x.va.toNat 2)) → v.control = false →
        v.handMode = false → headerOf s v = some h → h.handler ≠ 0 →
          ∃ t u, exec (.rteSub x) s = .next t ∧ threadOf t n = some u ∧ u.trapActive = true ∧ u.tcause = 0x03 ∧ u.tpc = v.tpc ∧
            u.tinfo = BitVec.ofNat 64 (regNum v x.va.toNat 2) ∧ u.tlen = 12 ∧ u.tdst.getLsbD 18 = true ∧
            u.tmask = BitVec.twoPow 64 v.tpos ∧ u.pc = h.handler ∧ u.regs = v.regs ∧ u.spill = v.spill ∧ u.stack = v.stack) ∧
      (v.tcause.extractLsb' 0 8 ≠ 0x06 → v.tdst.getLsbD 18 = true →
        ∃ t u, exec (.rteSub x) s = .next t ∧
          Jumped (.thread n) s t { v with trapActive := false, trapBank := false } u (v.tpc + BitVec.ofNat 64 v.tlen)) ∧
      (v.tcause.extractLsb' 0 8 ≠ 0x06 → v.tdst.getLsbD 18 = false → ∀ (field cnt : Nat) (a : Nat) (g : Flags) (v' : Thread),
        field = (v.tdst.extractLsb' 0 10).toNat → cnt = (v.tdst.extractLsb' 16 2).toNat →
        (if cnt = 0 then readSrc v (.reg 1 x.va) = some (a, g, v') else a = regNum v x.va.toNat (cnt + 1) ∧ g = 0 ∧ v' = v) →
          trapFlags v g = 0 →
            (field + cnt < 768 →
              ∃ t u, exec (.rteSub x) s = .next t ∧ threadOf t n = some u ∧ Left v u ∧ FlagsAfter v u g ∧ u.queues = v'.queues ∧
                (∀ j, j ≤ cnt → regVal u (field + j) = BitVec.ofNat 32 (a / 2 ^ (32 * j))) ∧
                SameRegsBut v u field (cnt + 1) ∧ OnlyThread (.thread n) s t) ∧
            (field = 1023 → cnt = 0 →
              ∃ t u, exec (.rteSub x) s = .next t ∧ threadOf t n = some u ∧ Left v u ∧ FlagsAfter v u g ∧ u.queues = v'.queues ∧
                u.regs = v.regs ∧ OnlyThread (.thread n) s t) ∧
            (768 ≤ field → field < 772 → cnt = 0 →
              ∃ t u, exec (.rteSub x) s = .next t ∧ threadOf t n = some u ∧ Left v u ∧ FlagsAfter v u g ∧ SameRegsBut v u 0 0 ∧
                Tab.getD u.queues (field - 768) [] =
                  Tab.getD v'.queues (field - 768) [] ++ [{ value := BitVec.ofNat 32 a, flags := 0, arrived := true }] ∧
                (∀ q, q ≠ field - 768 → Tab.getD u.queues q [] = Tab.getD v'.queues q []) ∧ OnlyThread (.thread n) s t) ∧
            (772 ≤ field → field < 776 → cnt = 0 →
              (pushCheck s v' (field - 772) = .free →
                ∃ t u, exec (.rteSub x) s = .next t ∧ threadOf t n = some u ∧ Left v u ∧ FlagsAfter v u g ∧ SameRegsBut v u 0 0 ∧
                  u.queues = v'.queues ∧ u.tl = v.tl + 1 ∧ t.mem = s.mem ∧
                  ∃ p : Push, p.thread = n ∧ p.word = BitVec.ofNat 32 a ∧ (quarterOf t (threadQuarter s v (field - 772))).pushes =
                    (quarterOf s (threadQuarter s v (field - 772))).pushes ++ [p])) ∧
            (772 ≤ field → field < 776 →
              (pushCheck s v' (field - 772) = .unbound →
                exec (.rteSub x) s = .next (takeTrap s (.thread n) v (kept .bentTicket (field - 772)) (trapHere (.rteSub x) v))) ∧
              (pushCheck s v' (field - 772) = .full → exec (.rteSub x) s = .next s))) ∧
      (v.tcause.extractLsb' 0 8 ≠ 0x06 → v.tdst.getLsbD 18 = false → (v.tdst.extractLsb' 16 2).toNat = 0 →
        readSrc v (.reg 1 x.va) = none → exec (.rteSub x) s = .next s)

/-- R282, R285: the three returns from a trap. That a push to a recorded q4-q7 stalls on a full queue and raises BENT_TICKET at an unbound
quarter is the model's choice (log entry 21). -/
def Obligations.ReturnsFromTraps : Prop := Sys2Proof.Claims.ReturnFromTrap ∧ Sys2Proof.Claims.SubstitutingReturn

/-- R48, R443: MEET sets the meet register to the aligned address and goes on, the release condition evaluated; a thread that
reaches its meet address is held. -/
def Sys2Proof.Claims.MeetHolds : Prop :=
  ∀ (s : State) (v : Thread),
    (∀ x w, Ready (.meet x) s w v → Aligned (v.pc + x.lit.getD 0) →
      exec (.meet x) s = .next (meetRelease (putView s w { v with meet := some (v.pc + x.lit.getD 0),
                                                                  pc := v.pc + BitVec.ofNat 64 (Instr.len (.meet x)) }) v)) ∧
    (∀ x w, Ready (.meet x) s w v → ¬ Aligned (v.pc + x.lit.getD 0) →
      exec (.meet x) s = .next (takeTrap s w v (kept .brAlign (v.pc + x.lit.getD 0).toNat) (trapHere (.meet x) v))) ∧
    (∀ n, threadOf s n = some v → v.status = .running → v.meet = some v.pc →
      exec (.meetHold n) s = .next (meetRelease (setThread s n { v with status := .held }) v))

/-- R48: the release frees exactly the threads of a team held at an address that no other live member of the team still has to
reach: their meet registers are invalid and they run; every other thread is as before. -/
def Sys2Proof.Claims.MeetReleaseIsExact : Prop :=
  ∀ (s : State) (a : Thread) (k : Nat) (v : Thread), Tab.get? s.threads k = some v →
    let freed : Prop := sameTeam a v = true ∧ v.status = .held ∧
      ∀ o ∈ Tab.values s.threads, sameTeam a o = true → o.status ≠ .exited → o.meet = some v.pc → o.status = .held ∧ o.pc = v.pc
    (freed → threadOf (meetRelease s a) k = some { v with status := .running, meet := none }) ∧
      (¬ freed → threadOf (meetRelease s a) k = some v)

/-- R48, R443: meeting: the hold, and a release that frees exactly the threads it names. -/
def Obligations.MeetHolding : Prop := Sys2Proof.Claims.MeetHolds ∧ Sys2Proof.Claims.MeetReleaseIsExact

/-- R371, R486, R493, R84, R232: BAR and TBAR wait for the data of every earlier load and then park the thread at its barrier, whose
completion is then settled; under a request BAR
and YPT stop the thread at the point without executing it; without one YPT does nothing. -/
def Sys2Proof.Claims.BarriersAndPoints : Prop :=
  ∀ (s : State) (w : Who) (v : Thread),
    (∀ x, Ready (.bar x) s w v → requested s v = false → v.loads ≠ [] → exec (.bar x) s = .next s) ∧
    (∀ x, Ready (.bar x) s w v → requested s v = false → v.loads = [] →
      exec (.bar x) s = .next (barComplete (putView s w { v with status := .bar x.imm.toNat }) v.bent v.block)) ∧
    (∀ x, Ready (.bar x) s w v → requested s v = true →
      ∃ t u, exec (.bar x) s = .next t ∧ viewOf t w = some u ∧ u.status = .stopped (some x.imm.toNat) ∧ u.pc = v.pc ∧
        OnlyThread w s t) ∧
    (∀ l x h, Ready (.tbar l x) s w v → headerOf s v = some h → (l = .bent ∨ h.coop = true) → v.loads ≠ [] →
      exec (.tbar l x) s = .next s) ∧
    (∀ l x h, Ready (.tbar l x) s w v → headerOf s v = some h → (l = .bent ∨ h.coop = true) → v.loads = [] →
      let s' := releaseAt s false (threadCore s v) (if l = .bent then .cl else .dv)
      exec (.tbar l x) s = .next (tbarComplete (putView s' w { v with status := .tbar l }) l v)) ∧
    (∀ x n, w = .thread n → Ready (.ypt x) s w v → requested s v = true → v.hctx.iter = none →
      ∃ t u, exec (.ypt x) s = .next t ∧ viewOf t w = some u ∧ u.status = .stopped (some x.imm.toNat) ∧ u.pc = v.pc ∧
        OnlyThread w s t) ∧
    (∀ x, Ready (.ypt x) s w v → (requested s v = false ∨ v.hctx.iter ≠ none ∨ ∃ n h, w = .hand n h) →
      ∃ t u, exec (.ypt x) s = .next t ∧ Advanced (.ypt x) w s t v u)

/-- The thread k after a barrier that resumes all threads chosen: runnable after its instruction, its earlier stores at their sites, in a phase of its own, which the
count of its store gives it as the threads are resumed in table order (R224). -/
def Sys2Proof.Claims.Resumed (s : State) (sel : Thread → Bool) (k : Nat) (v u : Thread) : Prop :=
  let cache := cacheOf s (threadCore s v)
  let upTo := s.threads.filter fun e => decide (e.1 ≤ k) && sel e.2 && cacheOf s (threadCore s e.2) == cache
  u = { v with status := .running, pc := v.pc + 12, phaseStart := phaseOf s cache + BitVec.ofNat 32 upTo.length, late := [] }

/-- R224, R371: a block's barrier completes when every live thread of the block has arrived: each becomes runnable after its BAR, in
a new phase; while one is missing nothing changes. -/
def Sys2Proof.Claims.BlockBarrierCompletes : Prop :=
  ∀ (s : State) (ticket block : Nat), (Tab.keys s.threads).Pairwise (· < ·) →
    let live := (Tab.values s.threads).filter fun v => inBlock ticket block v && v.status != .exited
    ((∃ v ∈ live, atBar v = false) → barComplete s ticket block = s) ∧
      ((∀ v ∈ live, atBar v = true) → ∀ k v, Tab.get? s.threads k = some v →
        ∃ u, threadOf (barComplete s ticket block) k = some u ∧
          (inBlock ticket block v = true → atBar v = true →
            Sys2Proof.Claims.Resumed s (fun y => inBlock ticket block y && atBar y) k v u) ∧
          (inBlock ticket block v = false ∨ atBar v = false → u = v))

/-- R224, R485, R486: a truss barrier completes when every participant of its level that has not exited has arrived: each becomes
runnable after its TBAR, in a new phase; while one is missing nothing changes. That it waits too while a bent of its launch is
saved, so that the saved threads still take part, is log entry 44's. -/
def Sys2Proof.Claims.TrussBarrierCompletes : Prop :=
  ∀ (s : State) (l : Level) (a : Thread), (Tab.keys s.threads).Pairwise (· < ·) →
    let live := (Tab.values s.threads).filter fun v => tbarMember s l a v && v.status != .exited
    (((∃ v ∈ live, v.status ≠ .tbar l) ∨ tbarWaits s l a = true) → tbarComplete s l a = s) ∧
      ((∀ v ∈ live, v.status = .tbar l) → tbarWaits s l a = false → ∀ k v, Tab.get? s.threads k = some v →
        ∃ u, threadOf (tbarComplete s l a) k = some u ∧
          (tbarMember s l a v = true → v.status = .tbar l →
            Sys2Proof.Claims.Resumed s (fun y => tbarMember s l a y && y.status == .tbar l) k v u) ∧
          (tbarMember s l a v = false ∨ v.status ≠ .tbar l → u = v))

/-- R84, R224, R371, R486, R493: barriers and pre-emption points, and the completion of a block's barrier and of a truss barrier. -/
def Obligations.BarriersAndPreemptionPoints : Prop :=
  Sys2Proof.Claims.BarriersAndPoints ∧ Sys2Proof.Claims.BlockBarrierCompletes ∧ Sys2Proof.Claims.TrussBarrierCompletes

/-- R209-R211, R451, R479, R490: NOP goes on; SLEEPC goes on once its core's counter has reached its target, parks before, and
wakes then; WAIT goes on once the counters are within its fields and stalls before. -/
def Obligations.NopSleepAndWait : Prop :=
  ∀ (s : State) (w : Who) (v : Thread),
    (Ready .nopB s w v → ∃ t u, exec .nopB s = .next t ∧ Advanced .nopB w s t v u) ∧
    (∀ x, Ready (.nopExt x) s w v → ∃ t u, exec (.nopExt x) s = .next t ∧ Advanced (.nopExt x) w s t v u) ∧
    (∀ x, Ready (.sleepc x) s w v → regNum v x.va.toNat 2 ≤ arithCycles s (threadCore s v) →
      ∃ t u, exec (.sleepc x) s = .next t ∧ Advanced (.sleepc x) w s t v u) ∧
    (∀ x n, w = .thread n → Ready (.sleepc x) s w v → arithCycles s (threadCore s v) < regNum v x.va.toNat 2 →
      exec (.sleepc x) s = .next (setThread s n { v with status := .sleep (regNum v x.va.toNat 2) })) ∧
    (∀ n target, threadOf s n = some v → v.status = .sleep target → target ≤ arithCycles s (threadCore s v) →
      exec (.sleepcWake n) s = .next (setThread s n { v with status := .running, pc := v.pc + 12 })) ∧
    (∀ ld st cp tl, Ready (.waitB ld st cp tl) s w v →
      (countsWithin s w v ld.toNat st.toNat cp.toNat tl.toNat = false → exec (.waitB ld st cp tl) s = .next s) ∧
      (countsWithin s w v ld.toNat st.toNat cp.toNat tl.toNat = true → (tl ≠ 0 ∨ v.handMode = true ∨ v.kept = none) →
        ∃ t u, exec (.waitB ld st cp tl) s = .next t ∧ Advanced (.waitB ld st cp tl) w s t v u)) ∧
    (∀ ld st cp x, Ready (.waitExt ld st cp x) s w v →
      (countsWithin s w v ld.toNat st.toNat cp.toNat (x.imm.toNat % 16) = false → exec (.waitExt ld st cp x) s = .next s) ∧
      (countsWithin s w v ld.toNat st.toNat cp.toNat (x.imm.toNat % 16) = true →
        (x.imm.toNat % 16 ≠ 0 ∨ v.handMode = true ∨ v.kept = none) →
          ∃ t u, exec (.waitExt ld st cp x) s = .next t ∧ Advanced (.waitExt ld st cp x) w s t v u))

/-! ### Memory -/

namespace Sys2Proof.Claims

/-- Offset of a base word's imm9 in units of the access size, and of an extended form: imm13 in the same units, or a literal in
bytes (R106, R435). -/
def off9 (x : BI) (n : Nat) : Int := x.imm.toInt * n
def off13 (x : Ext) (n : Nat) : Int :=
  match x.lit with
  | some l => l.toInt
  | none => x.imm.toInt * n

/-- Type, register field, base, offset, ordering, scope and `.sync` of a global load or store. -/
structure Global where
  ty : Ty
  reg : Reg
  base : Reg
  off : Int
  o : Ord
  sc : Scope
  sync : Bool

/-- Effective address: base pair plus offset, modulo 2^64 (R435). -/
def Global.ea (g : Global) (v : Thread) : Nat := (BitVec.ofInt 64 ((regNum v g.base.toNat 2 : Nat) + g.off)).toNat

def loadOf : Instr → Option Global
  | .ldB32 x => some ⟨.b32, x.vd, x.va, off9 x 4, .none, .cr, false⟩
  | .ldB64 x => some ⟨.z64, x.vd, x.va, off9 x 8, .none, .cr, false⟩
  | .ldExt o sc y t x => some ⟨t, x.vd, x.va, off13 x t.size, o, sc, y⟩
  | _ => none

def storeOf : Instr → Option Global
  | .stB32 x => some ⟨.b32, x.vd, x.va, off9 x 4, .none, .cr, false⟩
  | .stB64 x => some ⟨.z64, x.vd, x.va, off9 x 8, .none, .cr, false⟩
  | .stExt o sc y t x => some ⟨t, x.vd, x.va, off13 x t.size, o, sc, y⟩
  | _ => none

/-- Type, register field, base, rank field and offset of a scratchpad access; the rank is that of LDR and STR alone. -/
structure Local where
  ty : Ty
  reg : Reg
  base : Reg
  rank : Option Reg
  off : Int

def ldsOf : Instr → Option Local
  | .ldsB32 x => some ⟨.b32, x.vd, x.va, none, off9 x 4⟩
  | .ldsB64 x => some ⟨.z64, x.vd, x.va, none, off9 x 8⟩
  | .ldsExt t x => some ⟨t, x.vd, x.va, none, off13 x t.size⟩
  | .ldr t x => some ⟨t, x.vd, x.va, some x.vb, off13 x t.size⟩
  | _ => none

def stsOf : Instr → Option Local
  | .stsB32 x => some ⟨.b32, x.vd, x.va, none, off9 x 4⟩
  | .stsB64 x => some ⟨.z64, x.vd, x.va, none, off9 x 8⟩
  | .stsExt t x => some ⟨t, x.vd, x.va, none, off13 x t.size⟩
  | .str t x => some ⟨t, x.vd, x.va, some x.vb, off13 x t.size⟩
  | _ => none

/-- Registers an access moves. -/
def movedRegs (t : Ty) : Nat := if t.size = 16 then 4 else if t.size = 8 then 2 else 1

/-- A load has been issued: its words wait for their registers, and of the rest of its context only the PC and, where it acquires, the phase have
changed (R210, R211). -/
structure Issued (i : Instr) (w : Who) (t : State) (v v' u : Thread) (g : Flags) (d : Reg) (words : List Word) : Prop where
  view : viewOf t w = some u
  loads : u.loads = v.loads ++ [{ writes := if d = 1023 then [] else (upFrom d.toNat words.length).zip words }]
  regs : SameRegsBut v u 0 0
  pc : u.pc = v.pc + BitVec.ofNat 64 i.len
  masks : u.masks = v.masks
  queues : u.queues = v'.queues
  flags : FlagsAfter v u g
  stores : u.stores = v.stores

/-- A byte that some copy in a core's own coherent store holds dirty: an eviction may write it back at any access (R190). -/
def DirtyBelow (s : State) (core a : Nat) : Prop :=
  ∃ x ∈ s.l1, x.cache = cacheOf s core ∧ x.line = a / 128 ∧ x.written.getLsbD (a % 128) = true

/-- Every byte that the core's own store does not hold dirty reads at the home as before. -/
def SameMemButDirty (s t : State) (core : Nat) : Prop :=
  ∀ a, ¬ DirtyBelow s core a → Memory.read t.mem a = Memory.read s.mem a

/-- One half of a 128-bit access has been performed: the instruction is still to be issued for the other (R228). -/
structure HalfDone (w : Who) (t : State) (v u : Thread) (h : Half) : Prop where
  view : viewOf t w = some u
  half : u.hctx.half = some h
  pc : u.pc = v.pc
  regs : SameRegsBut v u 0 0
  rest : u.masks = v.masks ∧ u.queues = v.queues ∧ u.fpsr = v.fpsr ∧ u.loads = v.loads ∧ u.stores = v.stores

/-- Words of a load: sign-extended for s8 and s16, else the bytes as 32-bit words, the lowest first (R436). -/
def wordsFrom (t : Ty) (bs : List Byte) : List Word :=
  match t with
  | .s8 => [(BitVec.ofNat 8 (ofBytes bs)).signExtend 32]
  | .s16 => [(BitVec.ofNat 16 (ofBytes bs)).signExtend 32]
  | t => (List.range (movedRegs t)).map fun k => BitVec.ofNat 32 (ofBytes bs >>> (32 * k))

end Sys2Proof.Claims

/-- R185, R214, R436-R439: a global load of up to 8 bytes whose address is aligned and whose bytes can be read is issued with the
words its type makes of them; at a misaligned address it raises MISALIGN, and where the access traps it raises that trap. That the bytes
are taken as the load issues is log entry 34's. -/
def Sys2Proof.Claims.GlobalLoads : Prop :=
  ∀ (i : Instr) (m : Global) (s : State) (w : Who) (v : Thread), loadOf i = some m → Ready i s w v → m.ty.size ≠ 16 →
    v.hctx.half = none →
    (m.ea v % m.ty.size ≠ 0 → exec i s = .next (takeTrap s w v (kept .misalign (m.ea v)) (trapHere i v))) ∧
    (∀ k, m.ea v % m.ty.size = 0 → v.loads.length < 63 → loadGlobal s v (m.ea v) m.ty.size m.o m.sc m.sync = .trap k →
      exec i s = .next (takeTrap s w v k (trapHere i v))) ∧
    (∀ bs s1, m.ea v % m.ty.size = 0 → loadGlobal s v (m.ea v) m.ty.size m.o m.sc m.sync = .ok (bs, s1) →
      v.loads.length < 63 → ∃ t u, exec i s = .next t ∧ Issued i w t v v u 0 m.reg (wordsFrom m.ty bs))

/-- R228, R436: a 128-bit global load reads two halves of 8 bytes in two issues, the first by a free choice, both from the page that its
one translation and its one consultation of the scope checker gave, and is issued with the words of both after the second. -/
def Sys2Proof.Claims.WideLoads : Prop :=
  ∀ (i : Instr) (m : Global) (s : State) (w : Who) (v : Thread), loadOf i = some m → Ready i s w v → m.ty.size = 16 →
    (v.hctx.half = none →
      (m.ea v % 16 ≠ 0 → exec i s = .next (takeTrap s w v (kept .misalign (m.ea v)) (trapHere i v))) ∧
      (∀ k, m.ea v % 16 = 0 → loadTarget s v (m.ea v) (m.o == .acq || m.sync) m.sc = .trap k →
        exec i s = .next (takeTrap s w v k (trapHere i v))) ∧
      (∀ p s1 bs s2, m.ea v % 16 = 0 → loadTarget s v (m.ea v) (m.o == .acq || m.sync) m.sc = .ok (p, s1) → v.loads.length < 63 →
        loadFrom s1 v p 16 (m.ea v) (8 * firstNo s) 8 m.o m.sc = .ok (bs, s2) →
        ∃ t u q k, exec i s = .next t ∧
          HalfDone w t v u { insn := i, no := firstNo s, at' := .load, page := p, ea := m.ea v, rank := 0, data := bs, issue := q, seq := k,
                             made := false })) ∧
    (∀ h bs s1, v.hctx.half = some h → h.no ≤ 1 → loadFrom s v h.page 16 h.ea (8 * (1 - h.no)) 8 m.o m.sc = .ok (bs, s1) →
      ∃ t u, exec i s = .next t ∧ u.hctx.half = none ∧
        Issued i w t v v u 0 m.reg (wordsFrom m.ty (if h.no = 0 then h.data ++ bs else bs ++ h.data)))

/-- R190, R226: a plain vector load of a raw page whose line its core's store does not hold, with nothing dirty there to evict,
reads the bytes at the home, and leaves every byte of memory as it was. -/
def Sys2Proof.Claims.LoadMissReadsHome : Prop :=
  ∀ (s : State) (v : Thread) (ea n : Nat) (sc : Scope) (p : Page), v.control = false →
    translate s (threadCore s v) (threadEnclave s v) .read ea = .ok p → p.device = false → p.fmt = 0 →
      (∀ x ∈ s.l1, x.cache = cacheOf s (threadCore s v) → x.line ≠ p.at ea / 128 ∧ x.dirty = []) →
      (∀ r ∈ s.retained, r.cache ≠ cacheOf s (threadCore s v)) →
      poisoned s (p.at ea) = false → p.at ea % 32 + n ≤ 32 →
        ∃ t, loadGlobal s v ea n .none sc false = .ok (Memory.bytes s.mem (p.at ea) n, t) ∧ t.mem = s.mem ∧ t.threads = s.threads

/-- R190, R192, R193, R226: a plain vector load of a raw page whose sector its bay's ways hold reads the copy, and one whose sector a
retained copy holds with a mark at or above the thread's phase start reads that, whatever the home holds; no byte of memory changes. -/
def Sys2Proof.Claims.LoadHitReadsCopy : Prop :=
  ∀ (s : State) (v : Thread) (ea n : Nat) (sc : Scope) (p : Page), v.control = false →
    translate s (threadCore s v) (threadEnclave s v) .read ea = .ok p → p.device = false → p.fmt = 0 →
      let pa := p.at ea
      let here := s.retained.find? fun r => r.cache == cacheOf s (threadCore s v) && r.bay == threadBay s v && r.line == pa / 128 &&
        r.key == keyOf s (pa / 128) && r.valid.getLsbD (pa % 128 / 32) && atOrAbove r.mark v.phaseStart
      (∀ r, here = some r →
        ∃ t, loadGlobal s v ea n .none sc false = .ok (dataBytes r.data (pa % 128) n, t) ∧ t.mem = s.mem ∧ t.threads = s.threads) ∧
      (∀ x, here = none →
        (s.l1.find? fun x => x.holds s (cacheOf s (threadCore s v)) (pa / 128) && x.bay == threadBay s v && x.has pa) = some x →
        ∃ t, loadGlobal s v ea n .none sc false = .ok (dataBytes x.data (pa % 128) n, t) ∧ t.mem = s.mem ∧ t.threads = s.threads)

/-- R185, R190, R192, R193, R214, R226, R228, R436-R439: global loads, what a miss reads and what a hit reads. The bytes are taken as the
load issues, which is log entry 34's. -/
def Obligations.GlobalLoadsReadMemory : Prop :=
  Sys2Proof.Claims.GlobalLoads ∧ Sys2Proof.Claims.WideLoads ∧ Sys2Proof.Claims.LoadMissReadsHome ∧ Sys2Proof.Claims.LoadHitReadsCopy

/-- R190, R231: what a core's own coherent store holds of some bytes after a store acted there: the storing bay's copy has them dirty, and
every copy of the line has them. -/
def Sys2Proof.Claims.HeldBytes (s t : State) (v : Thread) (pa : Nat) (bs : List Byte) : Prop :=
  (∃ x ∈ t.l1, x.holds s (cacheOf s (threadCore s v)) (pa / 128) = true ∧ x.bay = threadBay s v ∧
    ∀ k, k < bs.length → x.written.getLsbD (pa % 128 + k) = true) ∧
  (∀ x ∈ t.l1, x.holds s (cacheOf s (threadCore s v)) (pa / 128) = true → dataBytes x.data (pa % 128) bs.length = bs)

/-- R190, R230, R231, R483: what a store of some bytes at a physical address does from a state s1. One that acts at the home leaves exactly
its bytes there; one that acts in the core's store leaves them in its copies, and changes no byte of memory but what making room there
writes back; one in device space changes no byte of memory. -/
def Sys2Proof.Claims.StoredAt (s1 t : State) (v : Thread) (sc : Scope) (pa : Nat) (bs : List Byte) : Prop :=
  (cacheable pa = true → (v.control = true ∨ atHome s1 v.control (threadCore s1 v) sc = true) →
    SameMemBut s1 t pa bs.length ∧ Memory.bytes t.mem pa bs.length = bs) ∧
  (cacheable pa = true → v.control = false → atHome s1 v.control (threadCore s1 v) sc = false →
    t.mem = (makeRoom s1 (threadCore s1 v) (threadBay s1 v) (pa / 128)).mem ∧ SameMemButDirty s1 t (threadCore s1 v) ∧
      Sys2Proof.Claims.HeldBytes s1 t v pa bs) ∧
  (cacheable pa = false → SameMem s1 t)

/-- R230-R232, R482, R483: a global store of up to 8 bytes outside hand mode performs at its site and counts as outstanding; it raises
MISALIGN at a misaligned address and the trap of its access. A releasing one waits for every earlier load, writes back what its core's store
holds dirty, and performs after that, in a new phase. That the bytes are written as the store issues is log entry 34's. -/
def Sys2Proof.Claims.NarrowStores : Prop :=
  ∀ (i : Instr) (m : Global) (s s1 : State) (w : Who) (v v' : Thread) (x : Nat) (g : Flags) (p : Page),
    storeOf i = some m → Ready i s w v → m.ty.size ≠ 16 → v.handMode = false → v.hctx.half = none →
      readSrc v (.reg (movedRegs m.ty) m.reg) = some (x, g, v') → trapFlags v g = 0 →
      let target := storeTarget s v (m.ea v) (m.o == .rel || m.sync) m.sc
      (m.ea v % m.ty.size ≠ 0 → exec i s = .next (takeTrap s w v (kept .misalign (m.ea v)) (trapHere i v))) ∧
      (∀ k, m.ea v % m.ty.size = 0 → target = .trap k → exec i s = .next (takeTrap s w v k (trapHere i v))) ∧
      (m.ea v % m.ty.size = 0 → target = .ok (p, s1) → m.o = .rel → v.loads ≠ [] → exec i s = .next s) ∧
      (m.ea v % m.ty.size = 0 → target = .ok (p, s1) → v.stores < 63 → (m.o = .rel → v.loads = []) →
        s1.mem = s.mem ∧
        ∃ t u, exec i s = .next t ∧ viewOf t w = some u ∧ u.stores = v.stores + 1 ∧ u.pc = v.pc + BitVec.ofNat 64 i.len ∧
          SameRegsBut v u 0 0 ∧ u.masks = v.masks ∧ u.queues = v'.queues ∧ FlagsAfter v u g ∧ u.loads = v.loads ∧
          (m.o = .none → StoredAt s1 t v m.sc (p.at (m.ea v)) (toBytes m.ty.size x)) ∧
          (m.o = .rel → StoredAt (releaseAt s1 v.control (threadCore s1 v) m.sc) t v m.sc (p.at (m.ea v)) (toBytes m.ty.size x) ∧
            u.phaseStart = phaseOf t (cacheOf s (threadCore s v))))

/-- R228, R482: a 128-bit global store writes two halves of 8 bytes in two issues, the first by a free choice. The second follows, with no
other check, at the page that the first was checked for, and after those of the threads of lower `wid` of its issue. -/
def Sys2Proof.Claims.WideStores : Prop :=
  ∀ (i : Instr) (m : Global) (s s1 : State) (w : Who) (v v' : Thread) (x : Nat) (g : Flags) (p : Page),
    storeOf i = some m → Ready i s w v → m.ty.size = 16 → v.handMode = false →
      readSrc v (.reg (movedRegs m.ty) m.reg) = some (x, g, v') → trapFlags v g = 0 →
      (v.hctx.half = none → m.ea v % 16 = 0 → storeTarget s v (m.ea v) (m.o == .rel || m.sync) m.sc = .ok (p, s1) → v.stores < 63 →
        (m.o = .rel → v.loads = []) →
        let no := firstNo s
        let s2 := if m.o = .rel then releaseAt s1 v.control (threadCore s1 v) m.sc else s1
        ∃ t u q k, exec i s = .next t ∧
          HalfDone w t v u { insn := i, no := no, at' := .global m.sc, page := p, ea := m.ea v, rank := 0, data := toBytes 16 x, issue := q,
                             seq := k, made := false } ∧
          StoredAt s2 t v m.sc (p.at (m.ea v) + 8 * no) (((toBytes 16 x).drop (8 * no)).take 8)) ∧
      (∀ h, v.hctx.half = some h → h.at' = .global m.sc → h.no ≤ 1 → h.page.at h.ea % 16 = 0 → h.data.length = 16 →
        ∃ t u, exec i s = .next t ∧ viewOf t w = some u ∧ u.stores = v.stores + 1 ∧ u.pc = v.pc + BitVec.ofNat 64 i.len ∧
          u.hctx.half = none ∧ SameRegsBut v u 0 0 ∧ u.queues = v'.queues ∧ u.loads = v.loads ∧
          (h.made = true → t.mem = s.mem ∧ t.l1 = s.l1) ∧
          (h.made = false → halvesBefore s h.issue h.seq = [] →
            StoredAt s t v m.sc (h.page.at h.ea + 8 * (1 - h.no)) ((h.data.drop (8 * (1 - h.no))).take 8)))

/-- R190, R228, R230-R232, R482, R483: global stores outside hand mode; the bytes are written as the store issues, which is log entry
34's. -/
def Obligations.GlobalStores : Prop := Sys2Proof.Claims.NarrowStores ∧ Sys2Proof.Claims.WideStores

/-- R58, R60, R428: a store of a hand with an iteration open, global or to its block's scratchpad, goes to the iteration's
buffer, with its ordering, and no byte of memory changes; a 33rd entry abandons the iteration, whose index goes to the unfinished set, and
the hand goes on. -/
def Obligations.HandStoresAreBuffered : Prop :=
  ∀ (i : Instr) (s : State) (w : Who) (v v' : Thread) (x it : Nat) (g : Flags) (r : RaiseRec) (e : BufEntry),
    Ready i s w v → v.handMode = true → v.hctx.iter = some it → v.hctx.half = none → v.raise = some r → trapFlags v g = 0 →
      ((∃ m p s1, storeOf i = some m ∧ (m.o = .none ∨ m.o = .rel ∧ v.loads = []) ∧
          readSrc v (.reg (movedRegs m.ty) m.reg) = some (x, g, v') ∧
          m.ea v % m.ty.size = 0 ∧ storeTarget s v (m.ea v) (m.o == .rel || m.sync) m.sc = .ok (p, s1) ∧
          e = { scratch := false, addr := p.at (m.ea v), data := toBytes m.ty.size x, sc := m.sc, rel := decide (m.o = .rel) }) ∨
        (∃ m a b, stsOf i = some m ∧ m.rank = none ∧
          readSrcs v (.reg 1 m.base) .no (.reg (movedRegs m.ty) m.reg) = some (a, b, x, g, v') ∧
          (BitVec.ofInt 32 ((a : Nat) + m.off)).toNat % m.ty.size = 0 ∧
          scratchCheck s v (BitVec.ofInt 32 ((a : Nat) + m.off)).toNat m.ty.size = none ∧
          e = { scratch := true, addr := (BitVec.ofInt 32 ((a : Nat) + m.off)).toNat, data := toBytes m.ty.size x, sc := .cr, rel := false })) →
        ∃ t u, exec i s = .next t ∧ viewOf t w = some u ∧ u.pc = v.pc + BitVec.ofNat 64 i.len ∧ t.mem = s.mem ∧
          u.stores = v.stores ∧
          (v.hctx.buf.length < 32 → u.hctx.iter = some it ∧ u.hctx.buf = v.hctx.buf ++ [e]) ∧
          (32 ≤ v.hctx.buf.length → u.hctx.iter = none ∧ u.hctx.buf = [] ∧
            u.raise.map (·.unfinished) = some (it :: r.unfinished))

/-- R186, R187, R437: a scratchpad load of up to 8 bytes reads its block's bytes, or the ranked block's; a range outside SCRATCH
and a rank that does not exist trap. -/
def Sys2Proof.Claims.ScratchpadLoads : Prop :=
  ∀ (i : Instr) (m : Local) (s : State) (w : Who) (v v' : Thread) (a b z : Nat) (g : Flags), ldsOf i = some m → Ready i s w v →
    m.ty.size ≠ 16 → v.hctx.half = none → readSrcs v (.reg 1 m.base) (m.rank.elim .no (Src.reg 1)) .no = some (a, b, z, g, v') →
      let ea := (BitVec.ofInt 32 ((a : Nat) + m.off)).toNat
      let fault := if m.rank.isSome then remoteCheck s v b ea m.ty.size else scratchCheck s v ea m.ty.size
      (ea % m.ty.size ≠ 0 → exec i s = .next (takeTrap s w v (kept .misalign ea) (trapHere i v))) ∧
      (∀ k, ea % m.ty.size = 0 → fault = some k → exec i s = .next (takeTrap s w v k (trapHere i v))) ∧
      (ea % m.ty.size = 0 → fault = none → v.loads.length < 63 → trapFlags v g = 0 →
        ∃ t u, exec i s = .next t ∧ OnlyThread w s t ∧
          Issued i w t v v' u g m.reg
            (wordsFrom m.ty (scratchRead s v.bent (if m.rank.isSome then b else v.block) ea m.ty.size)))

/-- R186, R187, R228, R437: a 128-bit scratchpad load reads two halves of 8 bytes in two issues. -/
def Sys2Proof.Claims.WideScratchpadLoads : Prop :=
  ∀ (i : Instr) (m : Local) (s : State) (w : Who) (v v' : Thread) (a b z : Nat) (g : Flags), ldsOf i = some m → Ready i s w v →
    m.ty.size = 16 → trapFlags v g = 0 →
      readSrcs v (.reg 1 m.base) (m.rank.elim .no (Src.reg 1)) .no = some (a, b, z, g, v') →
      let ea := (BitVec.ofInt 32 ((a : Nat) + m.off)).toNat
      let fault := if m.rank.isSome then remoteCheck s v b ea 16 else scratchCheck s v ea 16
      let block := if m.rank.isSome then b else v.block
      (v.hctx.half = none → ea % 16 = 0 → fault = none → v.loads.length < 63 →
        ∃ t u q k, exec i s = .next t ∧ t.mem = s.mem ∧
          HalfDone w t v u { insn := i, no := firstNo s, at' := .load, page := Page.none, ea := ea, rank := block,
                             data := scratchRead s v.bent block (ea + 8 * firstNo s) 8, issue := q, seq := k, made := false }) ∧
      (∀ h, v.hctx.half = some h → h.no ≤ 1 →
        let bs := scratchRead s v.bent h.rank (h.ea + 8 * (1 - h.no)) 8
        ∃ t u, exec i s = .next t ∧ t.mem = s.mem ∧ u.hctx.half = none ∧
          Issued i w t v v' u g m.reg (wordsFrom m.ty (if h.no = 0 then h.data ++ bs else bs ++ h.data)))

/-- A block's scratchpad with some bytes written: they read as written, every other byte of it, every other block and all of memory
as before. -/
structure Sys2Proof.Claims.ScratchPut (s t : State) (bent block off : Nat) (bs : List Byte) : Prop where
  mem : t.mem = s.mem
  inside : ∀ c, blockOf s bent block = some c → scratchRead t bent block off bs.length = bs ∧
    ∀ o, ¬ (off ≤ o ∧ o < off + bs.length) → scratchRead t bent block o 1 = scratchRead s bent block o 1
  others : ∀ tk bl, (tk, bl) ≠ (bent, block) → blockOf t tk bl = blockOf s tk bl

/-- R186, R187, R482: a scratchpad store of up to 8 bytes outside hand mode writes its bytes at its offset of its block, or of the
ranked block. -/
def Sys2Proof.Claims.ScratchpadStores : Prop :=
  ∀ (i : Instr) (m : Local) (s : State) (w : Who) (v v' : Thread) (a b x : Nat) (g : Flags), stsOf i = some m → Ready i s w v →
    m.ty.size ≠ 16 → v.handMode = false → v.hctx.half = none →
    readSrcs v (.reg 1 m.base) (m.rank.elim .no (Src.reg 1)) (.reg (movedRegs m.ty) m.reg) = some (a, b, x, g, v') →
      let ea := (BitVec.ofInt 32 ((a : Nat) + m.off)).toNat
      let fault := if m.rank.isSome then remoteCheck s v b ea m.ty.size else scratchCheck s v ea m.ty.size
      (ea % m.ty.size ≠ 0 → exec i s = .next (takeTrap s w v (kept .misalign ea) (trapHere i v))) ∧
      (∀ k, ea % m.ty.size = 0 → fault = some k → exec i s = .next (takeTrap s w v k (trapHere i v))) ∧
      (ea % m.ty.size = 0 → fault = none → v.stores < 63 → trapFlags v g = 0 →
        ∃ t u, exec i s = .next t ∧ viewOf t w = some u ∧ u.stores = v.stores + 1 ∧ u.pc = v.pc + BitVec.ofNat 64 i.len ∧
          SameRegsBut v u 0 0 ∧ u.masks = v.masks ∧ u.queues = v'.queues ∧ FlagsAfter v u g ∧
          ScratchPut s t v.bent (if m.rank.isSome then b else v.block) ea (toBytes m.ty.size x))

/-- R186, R187, R228, R482: a 128-bit scratchpad store writes two halves of 8 bytes in two issues, the second with no other check. -/
def Sys2Proof.Claims.WideScratchpadStores : Prop :=
  ∀ (i : Instr) (m : Local) (s : State) (w : Who) (v v' : Thread) (a b x : Nat) (g : Flags), stsOf i = some m → Ready i s w v →
    m.ty.size = 16 → v.handMode = false → trapFlags v g = 0 →
    readSrcs v (.reg 1 m.base) (m.rank.elim .no (Src.reg 1)) (.reg (movedRegs m.ty) m.reg) = some (a, b, x, g, v') →
      let ea := (BitVec.ofInt 32 ((a : Nat) + m.off)).toNat
      let fault := if m.rank.isSome then remoteCheck s v b ea 16 else scratchCheck s v ea 16
      let block := if m.rank.isSome then b else v.block
      (v.hctx.half = none → ea % 16 = 0 → fault = none → v.stores < 63 →
        let no := firstNo s
        ∃ t u q k, exec i s = .next t ∧
          HalfDone w t v u { insn := i, no := no, at' := .scratch block, page := Page.none, ea := ea, rank := block, data := toBytes 16 x,
                             issue := q, seq := k, made := false } ∧
          ScratchPut s t v.bent block (ea + 8 * no) (((toBytes 16 x).drop (8 * no)).take 8)) ∧
      (∀ h c, v.hctx.half = some h → h.at' = .scratch c → h.no ≤ 1 → h.data.length = 16 → h.made = false →
        halvesBefore s h.issue h.seq = [] →
        ∃ t u, exec i s = .next t ∧ viewOf t w = some u ∧ u.stores = v.stores + 1 ∧ u.pc = v.pc + BitVec.ofNat 64 i.len ∧
          u.hctx.half = none ∧ SameRegsBut v u 0 0 ∧ u.queues = v'.queues ∧
          ScratchPut s t v.bent c (h.ea + 8 * (1 - h.no)) ((h.data.drop (8 * (1 - h.no))).take 8))

/-- R186, R187, R228, R437, R482: scratchpad loads and stores. What `tinfo` holds for LDR and STR is log entry 53's, and the reading of
the value in vd after va and vb log entry 29's. -/
def Obligations.ScratchpadAccesses : Prop :=
  Sys2Proof.Claims.ScratchpadLoads ∧ Sys2Proof.Claims.WideScratchpadLoads ∧ Sys2Proof.Claims.ScratchpadStores ∧
    Sys2Proof.Claims.WideScratchpadStores

/-- R210, R211, R463: PREF issues a load with nothing to write and changes no byte of memory but what making room writes back; the data of any outstanding load
may return, and writes its registers alone; a store is accepted. -/
def Obligations.PrefetchAndCompletions : Prop :=
  ∀ (s : State) (w : Who) (v : Thread),
    (∀ l2 x, Ready (.pref l2 x) s w v → v.loads.length < 63 →
      ∃ t u, exec (.pref l2 x) s = .next t ∧ Issued (.pref l2 x) w t v v u 0 1023 [] ∧ SameMemButDirty s t (threadCore s v)) ∧
    (∀ k l, viewOf s w = some v → v.loads[k]? = some l →
      exec (.loadDataReturn w k) s =
        .next (putView s w (l.writes.foldl (fun v e => setReg v e.1 e.2) { v with loads := v.loads.eraseIdx k }))) ∧
    (viewOf s w = some v → ∃ t late, exec (.storeAccepted w) s = .next t ∧ t.mem = s.mem ∧
      viewOf t w = viewOf (putView s w { v with stores := v.stores - 1, late := late }) w)

/-- R366, R367: the new value of an atomic operation on integers; a cas writes only where the old value is the expected one. -/
def Obligations.AtomicNewValues : Prop :=
  ∀ (t : Ty) (rne : Bool) (h old x z : Nat), t.int = true → old < 2 ^ wid t → x < 2 ^ wid t →
    atomWrite .add t rne h old x z = some (irep t (ival t old + ival t x)) ∧
    atomWrite .min t rne h old x z = some (if ival t old ≤ ival t x then old else x) ∧
    atomWrite .max t rne h old x z = some (if ival t old ≤ ival t x then x else old) ∧
    atomWrite .and t rne h old x z = some (BitVec.ofNat (wid t) old &&& BitVec.ofNat (wid t) x).toNat ∧
    atomWrite .or t rne h old x z = some (BitVec.ofNat (wid t) old ||| BitVec.ofNat (wid t) x).toNat ∧
    atomWrite .xor t rne h old x z = some (BitVec.ofNat (wid t) old ^^^ BitVec.ofNat (wid t) x).toNat ∧
    atomWrite .xchg t rne h old x z = some x ∧
    atomWrite .cas t rne h old x z = (if old = x then some z else none)

/-- R240: an atomic at the home, of a core that holds no copy of the line it touches, returns the bytes before it and leaves
its new value there, all other bytes of memory unchanged. -/
def Obligations.AtomicAtHome : Prop :=
  ∀ (s : State) (v : Thread) (op : AtomOp) (t : Ty) (rne : Bool) (pa x z : Nat),
    (∀ c ∈ s.l1, ¬ (c.cache = cacheOf s (threadCore s v) ∧ c.line * 128 < pa + t.size ∧ pa < (c.line + 1) * 128)) →
    (∀ a, pa ≤ a → a < pa + t.size → poisoned s a = false) →
      let old := ofBytes (Memory.bytes s.mem pa t.size)
      ∃ s', atomHome s v op t rne pa x z = .ok (old, s') ∧ SameMemBut s s' pa t.size ∧
        (atomWrite op t rne (atomHash pa (sideOf s (lineOf pa)).upd.toNat v.seed) old x z = none → SameMem s s') ∧
        (∀ r, atomWrite op t rne (atomHash pa (sideOf s (lineOf pa)).upd.toNat v.seed) old x z = some r →
          Memory.bytes s'.mem pa t.size = toBytes t.size r)

/-- R365-R368, R470: ATOM returns the old value as a load does, RED returns nothing and counts as a store; a misaligned address
raises MISALIGN, and an access that traps raises its trap. -/
def Obligations.AtomAndRedComplete : Prop :=
  ∀ (op : AtomOp) (o : Ord) (sc : Scope) (sync rne : Bool) (ty : Ty) (x : Ext) (s : State) (w : Who) (v v' : Thread)
      (a b c : Nat) (g : Flags),
    let ea := (BitVec.ofInt 64 ((a : Nat) + off13 x ty.size)).toNat
    (Ready (.atom op o sc sync rne ty x) s w v →
      readSrcs v (.reg 2 x.va) (.reg ty.regs x.vb) (if op = .cas then .reg ty.regs x.vc else .no) = some (a, b, c, g, v') →
      (∀ k, atomAt s v op ty o sc sync rne ea b c = .trap k →
        exec (.atom op o sc sync rne ty x) s = .next (takeTrap s w v k (trapHere (.atom op o sc sync rne ty x) v))) ∧
      (∀ old s1 u1, atomAt s v op ty o sc sync rne ea b c = .ok (old, s1, u1) → v.loads.length < 63 →
        ((o = .rel ∨ o = .ar) → v.loads = []) → trapFlags v g = 0 →
        ∃ t u, exec (.atom op o sc sync rne ty x) s = .next t ∧ t.mem = s1.mem ∧
          Issued (.atom op o sc sync rne ty x) w t v v' u g x.vd (wordsFrom ty (toBytes ty.size old)))) ∧
    (Ready (.red op o sc sync rne ty x) s w v →
      readSrcs v (.reg 2 x.va) (.reg ty.regs x.vb) .no = some (a, b, c, g, v') →
      (∀ k, atomAt s v op ty o sc sync rne ea b 0 = .trap k →
        exec (.red op o sc sync rne ty x) s = .next (takeTrap s w v k (trapHere (.red op o sc sync rne ty x) v))) ∧
      (∀ old s1 u1, atomAt s v op ty o sc sync rne ea b 0 = .ok (old, s1, u1) → v.stores < 63 →
        ((o = .rel ∨ o = .ar) → v.loads = []) → trapFlags v g = 0 →
        ∃ t u, exec (.red op o sc sync rne ty x) s = .next t ∧ t.mem = s1.mem ∧ viewOf t w = some u ∧ u.stores = v.stores + 1 ∧
          u.pc = v.pc + BitVec.ofNat 64 (Instr.len (.red op o sc sync rne ty x)) ∧ SameRegsBut v u 0 0 ∧ u.masks = v.masks ∧
          u.queues = v'.queues ∧ FlagsAfter v u g)) ∧
    (ea % ty.size ≠ 0 → atomAt s v op ty o sc sync rne ea b c = .trap (kept .misalign ea))

/-- R222, R232-R234, R389, R411, R425: FENCE waits for every earlier load, writes back what its core's store holds dirty where it
releases, then discards what that store holds clean where it acquires, both at a scope that acts at the home, and starts a phase; CCTL acts page by page on its range; IFENCE discards the prefetched words. -/
def Obligations.FencesAndCacheControl : Prop :=
  ∀ (s : State) (w : Who) (v : Thread),
    (∀ o sc x, Ready (.fence o sc x) s w v → v.loads ≠ [] → exec (.fence o sc x) s = .next s) ∧
    (∀ o sc x, Ready (.fence o sc x) s w v → v.loads = [] →
      ∃ t u, exec (.fence o sc x) s = .next t ∧ viewOf t w = some u ∧
        u.pc = v.pc + BitVec.ofNat 64 (Instr.len (.fence o sc x)) ∧ SameRegsBut v u 0 0 ∧ u.masks = v.masks ∧
        u.phaseStart = phaseOf s (cacheOf s (threadCore s v)) + 1 ∧ SameMemButDirty s t (threadCore s v) ∧
        (v.control = true → t.mem = s.mem ∧ t.l1 = s.l1) ∧
        (atHome s false (threadCore s v) sc = false → t.mem = s.mem ∧ t.l1 = s.l1 ∧ t.retained = s.retained) ∧
        (v.control = false → atHome s false (threadCore s v) sc = true →
          let s1 := if o = .rel ∨ o = .ar then releaseHome s (threadCore s v) else s
          let s2 := if o = .acq ∨ o = .ar then acquireHome s1 (threadCore s v) else s1
          t.mem = s2.mem ∧ t.l1 = s2.l1 ∧ t.retained = s2.retained ∧
          ((o = .acq ∨ o = .ar) → ∀ c ∈ t.l1, c.cache = cacheOf s (threadCore s v) → c.filled = 0) ∧
          ((o = .rel ∨ o = .ar) → (∀ c ∈ s.l1, (Tab.keys c.dirty).Pairwise (· < ·)) → ∀ c ∈ t.l1, c.cache = cacheOf s (threadCore s v) → Tab.getD c.dirty (threadCore s v) 0 = 0))) ∧
    (∀ op sc x a n z g v' s1, Ready (.cctl op sc x) s w v →
      readSrcs v (.reg 2 x.va) (.reg 1 x.vb) .no = some (a, n, z, g, v') → trapFlags v g = 0 → sc ≠ .cr →
      cctlPages op sc (threadCore s v) (threadBay s v) (partOf s v) (threadEnclave s v) (n / 65536 + 2) a n s = (s1, .ok ()) →
        ∃ t u, exec (.cctl op sc x) s = .next t ∧ viewOf t w = some u ∧
          u.pc = v.pc + BitVec.ofNat 64 (Instr.len (.cctl op sc x)) ∧ SameRegsBut v u 0 0 ∧ { t with threads := s1.threads } = s1) ∧
    (∀ op x a n z g v', Ready (.cctl op .cr x) s w v → readSrcs v (.reg 2 x.va) (.reg 1 x.vb) .no = some (a, n, z, g, v') →
      trapFlags v g = 0 →
        ∃ t u, exec (.cctl op .cr x) s = .next t ∧ viewOf t w = some u ∧
          u.pc = v.pc + BitVec.ofNat 64 (Instr.len (.cctl op .cr x)) ∧ SameRegsBut v u 0 0 ∧ OnlyThread w s t) ∧
    (∀ x, Ready (.ifence x) s w v →
      ∃ t u, exec (.ifence x) s = .next t ∧ Advanced (.ifence x) w s t { v with fetched := [] } u)

/-- R66, R249, R492: a WAITC whose condition holds at its read writes the value and goes on in a new phase, its sources popped
only then; one whose condition does not hold parks at its place, with a monitor, or to be re-checked where its slice's table has no
room for one. That each read starts a phase, that of a test that fails too, is log entry 24's. -/
def Sys2Proof.Claims.WaitcCompletesOrParks : Prop :=
  ∀ (late : Bool) (s s1 : State) (n : Nat) (v v1 : Thread) (w : Watch) (x : Nat), waitRead s v w = .ok (x, s1, v1) → w.ty.int = true →
    let y := w.b.toNat % 2 ^ wid w.ty
    (∀ b g v2, holds w.c (ival w.ty x) (ival w.ty y) = true → v.handMode = false → readSrc v1 (waitSource w.insn) = some (b, g, v2) →
      trapFlags v1 g = 0 → (w.dest = 1023 ∨ w.dest.toNat + w.ty.regs ≤ 768) →
        ∃ t u, waitStep late s n v w = .ok t ∧ threadOf t n = some u ∧ u.status = .running ∧
          u.pc = v1.pc + BitVec.ofNat 64 w.insn.len ∧ u.queues = v2.queues ∧ u.fpsr = v1.fpsr ||| g ∧ (w.o ≠ .acq → t.mem = s1.mem) ∧
          u.phaseStart = phaseOf s (cacheOf s (threadCore s v)) + 1 ∧
          regNum u w.dest.toNat w.ty.regs = (if w.dest = 1023 then 0 else x % 2 ^ (32 * w.ty.regs)) ∧
          SameRegsBut v1 u w.dest.toNat w.ty.regs) ∧
    (holds w.c (ival w.ty x) (ival w.ty y) = false →
      ∃ t u full, waitStep late s n v w = .ok t ∧ threadOf t n = some u ∧ u.status = .waitc { w with since := s1.time, full := full } ∧
        u.pc = v1.pc ∧ u.regs = v1.regs ∧ u.queues = v1.queues ∧ u.phaseStart = phaseOf s (cacheOf s (threadCore s v)) + 1 ∧
        (cacheable w.pa = false → full = false ∧ t.monitors = s1.monitors) ∧
        (cacheable w.pa = true → (full = false ↔ (lineOf w.pa, threadCore s1 v1) ∈ t.monitors) ∧
          t.monitors = (addMonitor s1 (lineOf w.pa) (threadCore s1 v1)).monitors))

/-- R66, R197, R249, R491, R492: WAITC on an aligned address of a raw page tests once and completes or parks; elsewhere it traps. A
wake from the home re-tests every thread parked on the line, and the re-check one without a monitor, after the clean bytes of the
line below the home are discarded. -/
def Sys2Proof.Claims.WaitcAndItsWakes : Prop :=
  ∀ (s : State),
    (∀ c o sc sync ty x n v v' a b z g p s0 s1 s2, Ready (.waitc c o sc sync ty x) s (.thread n) v →
      readSrcs v (.reg 2 x.va) (.reg ty.regs x.vb) .no = some (a, b, z, g, v') →
      let ea := (BitVec.ofInt 64 ((a : Nat) + off13 x ty.size)).toNat
      let i := Instr.waitc c o sc sync ty x
      let watch : Watch := { ea := BitVec.ofNat 64 ea, pa := p.at ea, ty := ty, c := c, b := BitVec.ofNat 64 b, o := o, sc := sc,
                             dest := x.vd, insn := i, since := s0.time, full := false }
      (ea % ty.size ≠ 0 → exec i s = .next (takeTrap s (.thread n) v (kept .misalign ea) (trapHere i v))) ∧
      (ea % ty.size = 0 → translate s (threadCore s v) (threadEnclave s v) .read ea = .ok p → p.fmt ≠ 0 →
        exec i s = .next (takeTrap s (.thread n) v (kept .pageProt ea) (trapHere i v))) ∧
      (∀ k, ea % ty.size = 0 → translate s (threadCore s v) (threadEnclave s v) .read ea = .trap k →
        exec i s = .next (takeTrap s (.thread n) v k (trapHere i v))) ∧
      (ea % ty.size = 0 → translate s (threadCore s v) (threadEnclave s v) .read ea = .ok p → p.fmt = 0 →
        s0 = fillTlb s (partOf s v) (threadCore s v) (threadEnclave s v) ea →
        tracked s0 v (!p.device) ea (p.at ea) sc = .ok s1 → waitStep false s1 n v watch = .ok s2 → exec i s = .next s2)) ∧
    (∀ core line, exec (.monitorWake core line) s =
      .next ((parkedOn s core line).foldl retest (discardLine s core line))) ∧
    (∀ n v w, threadOf s n = some v → v.status = .waitc w →
      exec (.waitcRecheck n) s = .next (retest (discardLine s (threadCore s v) (lineOf w.pa)) n))

/-- R66, R197, R249, R491, R492: WAITC, its test, its wakes and re-checks. -/
def Obligations.WaitingOnMemory : Prop := Sys2Proof.Claims.WaitcCompletesOrParks ∧ Sys2Proof.Claims.WaitcAndItsWakes

/-- R221, R287, R460: PGALLOC maps a zeroed frame from the enclave's stack at a present-free level-0 entry and answers 0, or answers
why not; PGFREE unmaps a page of the enclave and pushes its frame; both write their status to their register, keep the
translation of the page that the walk found, and halt the bent at a poisoned table entry. That a mapped address (2) and
a missing table (3) are answered before an empty stack (1) is log entry 28's. -/
def Obligations.PageAllocation : Prop :=
  ∀ (s : State) (w : Who) (v : Thread) (x : Ext) (e : Enclave), enclaveOf s (threadEnclave s v) = some e →
    let va := regNum v x.va.toNat 2
    let en := threadEnclave s v
    let last := (walk s.mem va tableLevels e.root).getLast?
    let s0 := fillTlb s (partOf s v) (threadCore s v) en va
    (va % 65536 ≠ 0 → Ready (.pgalloc x) s w v →
      exec (.pgalloc x) s = .next (takeTrap s w v (kept .misalign va) (trapHere (.pgalloc x) v))) ∧
    (∀ line i, (i = .pgalloc x ∨ i = .pgfree x) → pageArg va = none → Ready i s w v → walkPoison s en va = some line →
      exec i s = .next (integrityHalt s (some v) line ((sideOf s line).code == 0x29))) ∧
    (pageArg va = none → walkPoison s en va = none → Ready (.pgalloc x) s w v → ∀ l, last = some l →
      ∃ t u, exec (.pgalloc x) s = .next t ∧ viewOf t w = some u ∧
        u.pc = v.pc + BitVec.ofNat 64 (Instr.len (.pgalloc x)) ∧ SameRegsBut v u x.vd.toNat 1 ∧
        (l.valid = true → regNum u x.vd.toNat 1 = (if x.vd = 1023 then 0 else 2) ∧ OnlyThread w s0 t) ∧
        (l.valid = false → l.level ≠ 0 → regNum u x.vd.toNat 1 = (if x.vd = 1023 then 0 else 3) ∧ OnlyThread w s0 t) ∧
        (l.valid = false → l.level = 0 → e.stack = [] →
          regNum u x.vd.toNat 1 = (if x.vd = 1023 then 0 else 1) ∧ OnlyThread w s0 t) ∧
        (∀ f rest, l.valid = false → l.level = 0 → e.stack = f :: rest →
          regNum u x.vd.toNat 1 = 0 ∧ (enclaveOf t en).map (·.stack) = some rest ∧ (potOf t (f * 65536)).owner = en ∧
            t.mem = Memory.writeBytes (Memory.zero s.mem (f * 65536) 65536) l.addr (toBytes 8 (f * 64 + 7)))) ∧
    (pageArg va = none → walkPoison s en va = none → Ready (.pgfree x) s w v → pgfree s0 en va = none → exec (.pgfree x) s = .next s) ∧
    (pageArg va = none → walkPoison s en va = none → Ready (.pgfree x) s w v → ∀ r s1, pgfree s0 en va = some (r, s1) →
      ∃ t u, exec (.pgfree x) s = .next t ∧ viewOf t w = some u ∧
        u.pc = v.pc + BitVec.ofNat 64 (Instr.len (.pgfree x)) ∧ SameRegsBut v u x.vd.toNat 1 ∧
        regNum u x.vd.toNat 1 = (if x.vd = 1023 then 0 else r) ∧ { t with threads := s1.threads } = s1) ∧
    (∀ l, last = some l → l.level = 0 → l.valid = true → bits l.entry 63 38 = 0 →
      frameOwned s en e.slot (leafFrame l.entry) = true → (potOf s (leafFrame l.entry)).rstr = false → e.stack.length < 65536 →
      frameInUse s (frameOf (leafFrame l.entry)) = false → (∀ r ∈ s.retained, r.line / 512 ≠ frameOf (leafFrame l.entry)) →
        ∃ s1, pgfree s en va = some (0, s1) ∧
          (enclaveOf s1 en).map (·.stack) = some (frameOf (leafFrame l.entry) :: e.stack) ∧
          s1.mem = Memory.writeBytes s.mem l.addr (toBytes 8 0))

/-! ### Engine: queues, copies, tenons -/

namespace Sys2Proof.Claims

/-- Queue field, sources, and the value and flags owed, of SFQ and IDIVQ (R423, R475, R476). -/
structure QueueClaim where
  d : Reg
  a : Src
  b : Src
  val : Nat → Nat → Nat
  flags : Nat → Nat → Flags

def queueClaim : Instr → Option QueueClaim
  | .sfq fn t x =>
    some ⟨x.vd, .reg 1 x.va, .no, fun a _ => (Sfu.result fn t a).1, fun a _ => (Sfu.result fn t a).2⟩
  | .idivq rem t x =>
    some ⟨x.vd, .reg 1 x.va, .reg 1 x.vb,
      fun a b => if b = 0 then (if rem then a else 2 ^ 32 - 1) else
        irep t (if rem then (ival t a).tmod (ival t b) else (ival t a).tdiv (ival t b)),
      fun _ b => if b = 0 then 8 else 0⟩
  | _ => none

/-- An instruction has written `r` to its destination, moved the PC, popped what its sources popped, and left the other
registers, the masks and the flags but `f` as they were; the rest of the machine may have changed as said beside it. -/
structure Put (i : Instr) (w : Who) (t : State) (v v' u : Thread) (r : Nat) (f : Flags) : Prop where
  view : viewOf t w = some u
  result : regNum u (destReg i) (destWidth i) = if destReg i = 1023 then 0 else r
  regs : SameRegsBut v u (destReg i) (destWidth i)
  pc : u.pc = v.pc + BitVec.ofNat 64 i.len
  masks : u.masks = v.masks
  queues : u.queues = v'.queues
  flags : FlagsAfter v u f

/-- A thread parked or re-checked by a step on its own table: everything of it but what is named. -/
def entry (s : State) (c : Nat) : Option CopyCmd := Tab.get? s.cmds c

end Sys2Proof.Claims

/-- R423, R466, R475, R476: SFQ and IDIVQ owe one entry to the tail of a result queue, or stall while it holds 8; the oldest owed
entry arrives first; QCNT writes the entries arrived, or the free words of a feed queue bound to its bent. -/
def Sys2Proof.Claims.ResultQueues : Prop :=
  ∀ (s : State) (w : Who) (v : Thread),
    (∀ i k, queueClaim i = some k → Ready i s w v → 8 ≤ (queueOf v (k.d.toNat - 768)).length → exec i s = .next s) ∧
    (∀ i k x y z g v', queueClaim i = some k → Ready i s w v → (queueOf v (k.d.toNat - 768)).length < 8 →
      readSrcs v k.a k.b .no = some (x, y, z, g, v') → trapFlags v g = 0 →
        ∃ t u, exec i s = .next t ∧ viewOf t w = some u ∧ OnlyThread w s t ∧
          queueOf u (k.d.toNat - 768) =
            queueOf v' (k.d.toNat - 768) ++ [{ value := BitVec.ofNat 32 (k.val x y), flags := k.flags x y, arrived := false }] ∧
          (∀ q, q ≠ queueKey v (k.d.toNat - 768) → Tab.getD u.queues q [] = Tab.getD v'.queues q []) ∧
          u.pc = v.pc + BitVec.ofNat 64 i.len ∧ SameRegsBut v u 0 0 ∧ u.masks = v.masks ∧ FlagsAfter v u g) ∧
    (∀ q, viewOf s w = some v →
      exec (.sfuResultArrive w q) s = .next (putView s w { v with queues := Tab.modify v.queues q arriveFirst })) ∧
    (∀ e pre post, (∀ x ∈ pre, x.arrived = true) → e.arrived = false →
      arriveFirst (pre ++ e :: post) = pre ++ { e with arrived := true } :: post) ∧
    (∀ q x, Ready (.qcnt q x) s w v →
      ∃ t u, exec (.qcnt q x) s = .next t ∧
        Wrote (.qcnt q x) w s t v v u
          ((if q.toNat < 4 then ((queueOf v q.toNat).filter (·.arrived)).length
            else if (quarterOf s (threadQuarter s v (q.toNat - 4))).bound = some v.bent then
              1024 - (quarterOf s (threadQuarter s v (q.toNat - 4))).feed.length
            else 0) % 2 ^ 32) 0)

/-- R464-R466: QSAVE and QRST trap on a misaligned area and on one past SCRATCH and stall while results are owed to the
bank; a save leaves the bank as it was and a restore reads it back whole, and neither changes another bank or memory. -/
def Sys2Proof.Claims.QueueSavesRoundTrip : Prop :=
  ∀ (bank : Bool) (x : Ext) (s : State) (w : Who) (v v' : Thread) (va : Nat) (g : Flags),
    readSrc v (.reg 1 x.va) = some (va, g, v') → trapFlags v g = 0 →
      (∀ i, (i = .qsave bank x ∨ i = .qrst bank x) → Ready i s w v →
        (va % 8 ≠ 0 → exec i s = .next (takeTrap s w v (kept .misalign va) (trapHere i v))) ∧
        (va % 8 = 0 → scratchSize s v.bent < va + 288 →
          exec i s = .next (takeTrap s w v (kept .pageProt va) (trapHere i v))) ∧
        (va % 8 = 0 → va + 288 ≤ scratchSize s v.bent → owed v bank = true → exec i s = .next s)) ∧
      (va % 8 = 0 → va + 288 ≤ scratchSize s v.bent → owed v bank = false →
        (Ready (.qsave bank x) s w v →
          ∃ t u, exec (.qsave bank x) s = .next t ∧ viewOf t w = some u ∧ u.queues = v'.queues ∧ t.mem = s.mem ∧
            u.pc = v.pc + BitVec.ofNat 64 (Instr.len (.qsave bank x)) ∧ SameRegsBut v u 0 0 ∧
            ((blockOf s v.bent v.block).isSome = true → ∀ k, k < 4 →
              scratchRead t v.bent v.block (va + 72 * k) 72 =
                queueBytes (Tab.getD v'.queues ((if bank then 4 else 0) + k) []))) ∧
        (Ready (.qrst bank x) s w v →
          ∃ t u, exec (.qrst bank x) s = .next t ∧ viewOf t w = some u ∧ OnlyThread w s t ∧
            u.pc = v.pc + BitVec.ofNat 64 (Instr.len (.qrst bank x)) ∧ SameRegsBut v u 0 0 ∧
            ∀ k, k < 4 →
              (∀ es, es.length ≤ 8 → (∀ e ∈ es, e.arrived = true) →
                scratchRead s v.bent v.block (va + 72 * k) 72 = queueBytes es →
                  Tab.getD u.queues ((if bank then 4 else 0) + k) [] = es) ∧
              Tab.getD u.queues ((if bank then 0 else 4) + k) [] = Tab.getD v'.queues ((if bank then 0 else 4) + k) []))

/-- R423, R464-R466, R475, R476: result queues, and their saves. -/
def Obligations.ResultQueuesAndTheirSaves : Prop := Sys2Proof.Claims.ResultQueues ∧ Sys2Proof.Claims.QueueSavesRoundTrip

/-- R200, R202, R391, R392: CPY and CPYG trap as their checks say, stall while the engine holds 256 commands or cp is full,
and otherwise append one command to their thread's stream; a command without a guard changes no other command. The order in which
cpyCheck and cpygCheck make their checks, and that vd is read after va, vb and vc, are the model's choice (log entry 29). -/
def Sys2Proof.Claims.CopiesJoinTheirStream : Prop :=
  ∀ (s : State) (t : Nat) (v v' : Thread) (x : Ext) (gd : Option (BitVec 3)) (a b c d : Nat) (g : Flags),
    let cmd (what : CopyWhat) (dst src len : Nat) : CopyCmd :=
      { thread := t, core := threadCore s v, what := what, dst := BitVec.ofNat 64 dst, src := BitVec.ofNat 64 src, len := len,
        guard := gd.map (·.toNat), batch := none, state := .waiting, moved := 0, frames := [], fault := none, delivered := false }
    let full := Config.engineCommands ≤ engineLoad s (threadCore s v) ∨
      ((∀ e ∈ cmdsOf s t, e.2.batch ≠ none) ∧ 15 ≤ cpCount s t v)
    let appended (i : Instr) (k : CopyCmd) : Prop :=
      (full → exec i s = .next s) ∧
      (¬ full → ∃ r u, exec i s = .next r ∧ threadOf r t = some u ∧ u.pc = v.pc + BitVec.ofNat 64 i.len ∧ SameRegsBut v u 0 0 ∧
        u.queues = v'.queues ∧ u.masks = v.masks ∧ r.mem = s.mem ∧ r.cmdSeq = s.cmdSeq + 1 ∧
        (gd = none → (∀ e ∈ cmdsOf s t, e.2.state = .waiting → e.2.guard = none) →
          entry r s.cmdSeq = some (if k.empty then { k with state := .done } else k) ∧
          ∀ n, n ≠ s.cmdSeq → entry r n = entry s n))
    trapFlags v g = 0 →
      (∀ kind mc, Ready (.cpy kind mc gd x) s (.thread t) v →
        readSrcs4 v (if kind = .glToSp then .reg 2 x.va else .reg 1 x.va) (.reg 1 x.vb) (if mc then .reg 2 x.vc else .no)
          (.reg (if kind = .spToGl then 2 else 1) x.vd) = some (a, b, c, d, g, v') →
        let mask : Option DWord := if mc then some (BitVec.ofNat 64 c) else none
        ((b % 16 ≠ 0 ∨ 131072 < b) → exec (.cpy kind mc gd x) s =
          .next (takeTrap s (.thread t) v (kept .misalign b) (trapHere (.cpy kind mc gd x) v))) ∧
        (∀ k, cpyCheck s v kind mask d a b = some k →
          exec (.cpy kind mc gd x) s = .next (takeTrap s (.thread t) v k (trapHere (.cpy kind mc gd x) v))) ∧
        (cpyCheck s v kind mask d a b = none → appended (.cpy kind mc gd x) (cmd (.cpy kind mask) d a b))) ∧
      (∀ ty, Ready (.cpyg gd ty x) s (.thread t) v →
        readSrcs4 v (.reg 2 x.va) (.reg 1 x.vb) (.reg 1 x.vc) (.reg 1 x.vd) = some (a, b, c, d, g, v') →
        ((c = 0 ∨ 4096 < c) → exec (.cpyg gd ty x) s =
          .next (takeTrap s (.thread t) v (kept .misalign c) (trapHere (.cpyg gd ty x) v))) ∧
        (∀ k, cpygCheck s v ty.size d a b c = some k →
          exec (.cpyg gd ty x) s = .next (takeTrap s (.thread t) v k (trapHere (.cpyg gd ty x) v))) ∧
        (cpygCheck s v ty.size d a b c = none → appended (.cpyg gd ty x) (cmd (.gather ty.size b) d a c)))

/-- R200, R202, R206, R416: GOPEN makes a slot unresolved and leaves every command as it was; GSET resolves its slot to bit 0 of its
source; the waiting command at the head of its stream then begins if its guard is true, and completes at once if it names nothing to
move, and is discarded if it is false. An engine
begins the command whose stream's turn it is, and no other. -/
def Sys2Proof.Claims.GuardsDecideCopies : Prop :=
  ∀ (s : State) (t : Nat) (v : Thread),
    (∀ gd x, Ready (.gopen gd x) s (.thread t) v →
      ∃ r u, exec (.gopen gd x) s = .next r ∧ Advanced (.gopen gd x) (.thread t) s r { v with guards := Tab.erase v.guards gd.toNat } u) ∧
    (∀ gd x a g v', Ready (.gset gd x) s (.thread t) v → readSrc v (.reg 1 x.va) = some (a, g, v') → trapFlags v g = 0 →
      (∀ b i, v.status ≠ .cbwait b i) →
        ∃ r u, exec (.gset gd x) s = .next r ∧ threadOf r t = some u ∧ u.guards = Tab.set v.guards gd.toNat (a % 2 == 1) ∧
          u.pc = v.pc + BitVec.ofNat 64 (Instr.len (.gset gd x)) ∧ SameRegsBut v u 0 0 ∧ u.masks = v.masks ∧
          (v.batches = [] → r.mem = s.mem ∧
            (∀ c k, streamHead s t = some (c, k) → k.guard = some gd.toNat → a % 2 = 1 →
              (entry r c).map (·.state) = some (if k.empty then .done else .begun)) ∧
            (∀ c k, streamHead s t = some (c, k) → k.guard = some gd.toNat → a % 2 = 0 →
              (entry r c).map (·.state) = some .done ∧ (entry r c).map (·.len) = some 0) ∧
            ∀ c, (∀ p ∈ s.cmds, p.1 = c → p.2.state ≠ .waiting) → entry r c = entry s c)) ∧
    (∀ c k, entry s c = some k → (∀ p ∈ s.cmds, p.1 = c → p.2 = k) → k.guard = none →
      (serveNext s k.core = some c → (∀ u, threadOf s k.thread = some u → u.batches = []) →
        ∃ r, exec (.copyCommandBegin c) s = .next r ∧ (entry r c).map (·.state) = some .begun ∧ r.mem = s.mem ∧
          r.threads = s.threads ∧ Tab.getD r.engineLast k.core 0 = k.thread + 1) ∧
      (serveNext s k.core ≠ some c → exec (.copyCommandBegin c) s = .next s))

/-- R200, R202, R206, R391, R392, R416: copy commands, and the guards that decide them. -/
def Obligations.CopyCommandsAndGuards : Prop := Sys2Proof.Claims.CopiesJoinTheirStream ∧ Sys2Proof.Claims.GuardsDecideCopies

/-- R203, R207-R209, R385, R387: CBSEAL numbers the batch of every unsealed command and writes its number and promised cycle;
CBWAIT parks on an incomplete batch, goes on past a complete one in a new phase (R224), and delivers its first fault once; a batch's missed
promise is raised once at the parked CBWAIT.chk. -/
def Sys2Proof.Claims.BatchesAreSealedAndAwaited : Prop :=
  ∀ (s : State) (t : Nat) (v : Thread),
    (∀ x, Ready (.cbseal x) s (.thread t) v → (∀ i, v.status ≠ .cbwait v.batchCount i) →
      let mine := (cmdsOf s t).filter fun e => e.2.batch.isNone
      ∃ r u, exec (.cbseal x) s = .next r ∧ threadOf r t = some u ∧ u.batchCount = v.batchCount + 1 ∧
        u.pc = v.pc + BitVec.ofNat 64 (Instr.len (.cbseal x)) ∧
        ((∃ e ∈ mine, e.2.state ≠ .done) → r.mem = s.mem) ∧ SameRegsBut v u x.vd.toNat 2 ∧
        (x.vd ≠ 1023 → (regVal u x.vd.toNat).toNat = v.batchCount.toNat ∧
          (mine = [] → (regVal u (x.vd.toNat + 1)).toNat = arithCycles s (threadCore s v) % 2 ^ 32) ∧
          (mine ≠ [] → (regVal u (x.vd.toNat + 1)).toNat = promiseOf s (threadCore s v) mine % 2 ^ 32)) ∧
        ∀ c k, Tab.get? r.cmds c = some k → k.thread = t → k.batch ≠ none) ∧
    (∀ chk x a g v', Ready (.cbwait chk x) s (.thread t) v → readSrc v (.reg 1 x.va) = some (a, g, v') →
      let b : Word := BitVec.ofNat 32 a
      ((∃ k ∈ v.batches, k.num = b) → exec (.cbwait chk x) s =
        .next (setThread s t { v with status := .cbwait b (.cbwait chk x) })) ∧
      ((∀ k ∈ v.batches, k.num ≠ b) → (∀ e ∈ cmdsOf s t, e.2.batch = some b → e.2.fault = none) → trapFlags v g = 0 →
        ∃ r u, exec (.cbwait chk x) s = .next r ∧ threadOf r t = some u ∧ u.status = .running ∧ u.pc = v.pc + 12 ∧
          SameRegsBut v u 0 0 ∧ u.queues = v'.queues ∧ FlagsAfter v u g ∧
          u.phaseStart = phaseOf s (cacheOf s (threadCore s v)) + 1 ∧ (∀ j, j ≠ t → threadOf r j = threadOf s j) ∧
          phaseOf r (cacheOf s (threadCore s v)) = u.phaseStart ∧ { r with threads := s.threads, phases := s.phases } = s)) ∧
    (∀ late b i e k rest h, threadOf s t = some v → MayTrap s v h →
      (cmdsOf s t).filter (fun e => e.2.batch == some b && e.2.fault.isSome) = e :: rest → e.2.fault = some k →
        ∃ u, threadOf (cbwaitDone late s t v b i) t = some u ∧ u.trapActive = true ∧ u.tpc = v.pc ∧ u.pc = h.handler ∧
          u.tcause = BitVec.ofNat 32 (k.code.num + 256) ∧ u.tinfo = k.info ∧ u.regs = v.regs ∧
          ∀ c d, Tab.get? (cbwaitDone late s t v b i).cmds c = some d → ¬ (d.thread = t ∧ d.batch = some b)) ∧
    (∀ b e x h, threadOf s t = some v → MayTrap s v h → v.status = .cbwait b (.cbwait true e) → x ∈ v.batches → x.num = b → x.armed = true →
      x.promise.toNat + h.grace.toNat < arithCycles s (threadCore s v) →
        ∃ r u, exec (.promiseMissed t b) s = .next r ∧ threadOf r t = some u ∧ u.tcause = 0x18 ∧ u.tinfo = b.setWidth 64 ∧
          u.tpc = v.pc ∧ u.pc = h.handler ∧ u.status = .running ∧ ∀ y ∈ u.batches, y.num = b → y.armed = false)

/-- A command done, with the fault it stopped on, and its batch settled where it has one. -/
def Sys2Proof.Claims.finished (s : State) (c : Nat) (k : CopyCmd) (f : Option Kept) : State :=
  let r := setCmd s c fun k' => { k' with state := .done, moved := k.total, fault := f }
  match k.batch with
  | some b => settleBatch r k.thread b
  | none => r

/-- R203, R204, R208, R287: a begun command moves on by a free number of bytes, in ascending order (log entry 35), and finishes with its
last or at a fault; one whose block at a rank it names is gone stops with BENT_TICKET, and one that reads a poisoned line halts its bent.
A multicast puts the same bytes at every rank of its mask. -/
def Sys2Proof.Claims.CommandsMoveAndFinish : Prop :=
  ∀ (s : State) (v : Thread) (c : Nat) (k : CopyCmd), entry s c = some k → threadOf s k.thread = some v → k.state = .begun →
    let n := Config.pick s.draws % (k.total - k.moved) + 1
    let stop := copyStop s (clientOf s v) k n
    let p := runCopy { s with draws := s.draws + 1 } (clientOf s v) k n
    let there (r : Nat) : Prop := ∃ b, blockOf s v.bent r = some b ∧ b.ended = false
    ((∀ r ∈ k.ranks, there r) →
      (p.poison = none → stop < k.total → p.fault = none →
        exec (.copyCommandComplete c) s = .next (setCmd p.state c fun k' => { k' with moved := stop })) ∧
      (p.poison = none → (k.total ≤ stop ∨ p.fault ≠ none) →
        exec (.copyCommandComplete c) s = .next (Sys2Proof.Claims.finished p.state c k p.fault)) ∧
      (∀ l, p.poison = some l →
        exec (.copyCommandComplete c) s = .next (integrityHalt p.state (some v) l ((sideOf p.state l).code == 0x29)))) ∧
    (∀ pre r post, k.ranks = pre ++ r :: post → (∀ x ∈ pre, there x) → ¬ there r →
      exec (.copyCommandComplete c) s = .next (Sys2Proof.Claims.finished s c k (some (kept .bentTicket r)))) ∧
    (∀ m since off len r, k.what = .cpy .spToRm (some m) → r < 64 → m.getLsbD r = true → (blockOf s (clientOf s v).ticket r).isSome →
      scratchRead (copyStep s (clientOf s v) k since off len).state (clientOf s v).ticket r (k.dst.toNat + off) len =
        scratchRead s (clientOf s v).ticket (clientOf s v).block (k.src.toNat + off) len) ∧
    (∀ m since off len r bs s1, k.what = .cpy .glToSp (some m) → r < 64 → m.getLsbD r = true →
      copyPiece s (clientOf s v) (wrap 64 (k.src.toNat + off : Nat)) len = (s1, .ok bs) → (blockOf s1 (clientOf s v).ticket r).isSome →
        scratchRead (copyStep s (clientOf s v) k since off len).state (clientOf s v).ticket r (k.dst.toNat + off) bs.length = bs)

/-- R208, R209, R251: a batch of which a command is not done stays as it is; one whose commands are all done is complete: it leaves its
thread's batches, its first fault alone stays, and a thread parked at its CBWAIT goes on in a new phase, or takes that fault there. -/
def Sys2Proof.Claims.SealedBatchesComplete : Prop :=
  ∀ (s : State) (t : Nat) (v : Thread) (b : Word), threadOf s t = some v →
    let mine := (cmdsOf s t).filter fun e => e.2.batch == some b
    let left := v.batches.filter fun x => x.num != b
    ((∃ e ∈ mine, e.2.state ≠ .done) → settleBatch s t b = s) ∧
    ((∀ e ∈ mine, e.2.state = .done) → (∃ x ∈ v.batches, x.num = b) →
      ((∀ i, v.status ≠ .cbwait b i) → threadOf (settleBatch s t b) t = some { v with batches := left } ∧
        ((Tab.keys s.cmds).Pairwise (· < ·) → ∀ c d, (c, d) ∈ (settleBatch s t b).cmds → d.thread = t → d.batch = some b →
          d.fault ≠ none ∧ (c, d) ∈ s.cmds)) ∧
      (∀ chk x a g v', v.status = .cbwait b (.cbwait chk x) → (∀ e ∈ mine, e.2.fault = none) →
        readSrc v (.reg 1 x.va) = some (a, g, v') → trapFlags v g = 0 →
          ∃ u, threadOf (settleBatch s t b) t = some u ∧ u.batches = left ∧ u.status = .running ∧ u.pc = v.pc + 12 ∧
            SameRegsBut v u 0 0 ∧ u.queues = v'.queues ∧ FlagsAfter v u g ∧
            u.phaseStart = phaseOf s (cacheOf s (threadCore s v)) + 1) ∧
      (∀ i e f h pre post, v.status = .cbwait b i → mine = pre ++ e :: post → (∀ y ∈ pre, y.2.fault = none) → e.2.fault = some f →
        MayTrap s v h →
          ∃ u, threadOf (settleBatch s t b) t = some u ∧ u.batches = left ∧ u.status = .running ∧ u.trapActive = true ∧
            u.tcause = BitVec.ofNat 32 (f.code.num + 256) ∧ u.tinfo = f.info ∧ u.tpc = v.pc ∧ u.pc = h.handler ∧ u.regs = v.regs))

/-- R203, R204, R207-R209, R385, R387: batches are sealed, their commands move and finish, and they complete. -/
def Obligations.BatchesSealAndComplete : Prop :=
  Sys2Proof.Claims.BatchesAreSealedAndAwaited ∧ Sys2Proof.Claims.CommandsMoveAndFinish ∧ Sys2Proof.Claims.SealedBatchesComplete

/-! ### Tenons, team operations, exit, hands -/

/-- R258-R260, R271-R275: TNX traps as its checks say and otherwise sends one request, a returning one stalling its thread and
a posted one counting in tl; its answer writes the returned words and goes on, or raises its fault there; a posted one's fault stays
with the thread. TNSYNC advances its context's generation and drops the cached routines of its enclave: R272 names those of the
thread's own context, and that the enclave's other contexts lose theirs too is the model's choice (log entry 38). -/
def Obligations.TenonRequestsAndAnswers : Prop :=
  ∀ (s : State) (t : Nat) (v : Thread),
    (∀ o sc sync post slot n x, Ready (.tnx o sc sync post slot n x) s (.thread t) v →
      let i := Instr.tnx o sc sync post slot n x
      let line := regNum v x.va.toNat 2
      let slotVa := ((ctxtOf s v) + BitVec.ofNat 64 (128 * slot.toNat)).toNat
      (v.tnx ≠ none → exec i s = .next s) ∧
      (v.tnx = none → line % 128 ≠ 0 → exec i s = .next (takeTrap s (.thread t) v (kept .misalign line) (trapHere i v))) ∧
      (∀ k, v.tnx = none → tenonPages s v line slotVa = .trap k →
        exec i s = .next (takeTrap s (.thread t) v k (trapHere i v))) ∧
      (∀ p q, v.tnx = none → tenonPages s v line slotVa = .ok (p, q) → (post = true → v.tl < 15) →
        ((o = .rel ∨ o = .ar) → v.loads = []) →
          ∃ r u req, exec i s = .next r ∧ threadOf r t = some u ∧ r.tenons = s.tenons ++ [req] ∧ SameRegsBut v u 0 0 ∧
            u.masks = v.masks ∧ u.queues = v.queues ∧ req.linePa = p.at line ∧ req.slotPa = q.at slotVa ∧ req.thread = t ∧
            req.post = post ∧ req.queued = false ∧ req.sync = sync ∧ req.sc = (if sc = .sy then .sy else .dv) ∧
            req.args = (List.range n.toNat).map (fun k => regVal v (x.vb.toNat + k)) ∧
            (post = true → u.pc = v.pc + BitVec.ofNat 64 i.len ∧ u.tl = v.tl + 1 ∧ u.tnx = none) ∧
            (post = false → u.pc = v.pc ∧ u.tl = v.tl ∧ u.tnx = some i))) ∧
    (∀ a o sc sync slot n x, threadOf s t = some v → s.answers.find? (fun b => b.thread == t) = some a → a.post = false →
      v.tnx = some (.tnx o sc sync false slot n x) → a.fault = none → (o = .none ∨ o = .rel) →
      (x.vd = 1023 ∨ x.vd.toNat + a.words.length ≤ 768) →
        ∃ r u, exec (.tenonDone t) s = .next r ∧ threadOf r t = some u ∧ u.tnx = none ∧
          u.pc = v.pc + BitVec.ofNat 64 (Instr.len (.tnx o sc sync false slot n x)) ∧ r.answers = s.answers.erase a ∧ r.mem = s.mem ∧
          (x.vd ≠ 1023 → ∀ k y, a.words[k]? = some y → regVal u (x.vd.toNat + k) = y) ∧
          SameRegsBut v u x.vd.toNat a.words.length) ∧
    (∀ a k o sc sync slot n x, threadOf s t = some v → s.answers.find? (fun b => b.thread == t) = some a → a.post = false →
      v.tnx = some (.tnx o sc sync false slot n x) → a.fault = some k →
        exec (.tenonDone t) s =
          .next (takeTrap { s with answers := s.answers.erase a } (.thread t) { v with tnx := none } k
            { trapHere (.tnx o sc sync false slot n x) v with ownOnly := true })) ∧
    (∀ a, threadOf s t = some v → s.answers.find? (fun b => b.thread == t) = some a → a.post = true → v.kept = none →
      ∃ r u, exec (.tenonDone t) s = .next r ∧ threadOf r t = some u ∧ u.tl = v.tl - 1 ∧ u.kept = a.fault ∧ u.pc = v.pc ∧
        u.regs = v.regs) ∧
    (∀ x, Ready (.tnsync x) s (.thread t) v → v.loads ≠ [] → exec (.tnsync x) s = .next s) ∧
    (∀ x, Ready (.tnsync x) s (.thread t) v → v.loads = [] →
      ∃ r u, exec (.tnsync x) s = .next r ∧ threadOf r t = some u ∧ u.pc = v.pc + BitVec.ofNat 64 (Instr.len (.tnsync x)) ∧
        SameRegsBut v u 0 0 ∧ genOf r (threadEnclave s v) (ctxtOf s v) = genOf s (threadEnclave s v) (ctxtOf s v) + 1 ∧
        (∀ e c, (e, c) ≠ (threadEnclave s v, ctxtOf s v) → genOf r e c = genOf s e c) ∧
        ∀ k ∈ r.routines, k.enclave ≠ threadEnclave s v)

/-- R252, R261, R266, R274: a request whose frames, routine and line pass their checks rewrites its line, and no other byte, with
what its routine leaves in the shadow; one that faults leaves every byte of memory as it was. A slice into which
no other request is arriving serves the oldest of its queue, alone where none of the same issue of its bundle names its line. -/
def Obligations.TenonsRewriteTheirLine : Prop :=
  ∀ (s s1 : State) (q : TenonReq) (r : Routine), q.sync = false → q.linePa % 128 = 0 → poisoned s q.slotPa = false →
    cacheable q.slotPa = true → (potOf s q.slotPa).owner = q.enclave → (potOf s q.slotPa).type = 1 → routineOf s q = (r, s1) →
    poisoned s q.linePa = false → frameOwned s q.enclave ((enclaveOf s q.enclave).bind (·.slot)) q.linePa = true →
    let old := wordsOfBytes (Memory.bytes s.mem q.linePa 128)
    let run := runOps 0 r.ops { w := old, a := q.args, x := List.replicate 8 0, flags := 0 }
    (∀ i, r.bad = some i → ∃ s', tenonRun s q = .fault s' (kept .tenonInvalid (q.slotVa.toNat + 4 * i)) (q.slotPa + 4 * i) ∧
      SameMem s s') ∧
    (∀ i, r.bad = none → run = .error i → ∃ s', tenonRun s q = .fault s' (kept .tenonFault (q.lineVa.toNat + 32 + i)) (q.linePa + 32 + i) ∧
      SameMem s s') ∧
    (∀ h ws, r.bad = none → run = .ok (h, ws) →
      (∀ c ∈ s.l1, ¬ (c.cache = cacheOf s q.core ∧ c.line = q.linePa / 128)) →
        ∃ s', tenonRun s q = .answer s' ws ∧ SameMemBut s s' q.linePa 128 ∧
          Memory.bytes s'.mem q.linePa 128 = h.w.flatMap (fun w => toBytes 4 w.toNat)) ∧
    (∀ slice rest, s.tenons = q :: rest → q.slice = slice → q.queued = true → (∀ p ∈ rest, p ≠ q) →
      (∀ p ∈ rest, p.slice = slice →
        p.queued = true ∧ (p.linePa ≠ q.linePa ∨ p.issued ≠ q.issued ∨ p.bundle ≠ q.bundle ∨ p.core ≠ q.core)) →
        exec (.tenonExecute slice) s = .next (tenonServe { s with tenons := rest } q))

namespace Sys2Proof.Claims

/-- Mask operand of a team operation: every position, or a pair (R477). -/
def teamMask (v : Thread) (all : Bool) (x : Ext) : DWord := if all then BitVec.allOnes 64 else BitVec.ofNat 64 (regNum v x.vc.toNat 2)

/-- The four team operations. -/
def teamOp : Instr → Option (Bool × Ext)
  | .shfl all _ _ x | .vote all _ x | .tred all _ _ x | .tscan all _ _ _ x => some (all, x)
  | _ => none

/-- Members of a group whose predicate is true, with values of a width and distinct positions. -/
structure Group (t : Ty) (ms : List Member) : Prop where
  apart : (ms.map fun m => m.v.tpos).Nodup
  small : ∀ m ∈ ms, m.v.tpos < 64
  fits : ∀ m ∈ ms, m.a.val.toNat < 2 ^ wid t

end Sys2Proof.Claims

/-- R50, R232, R477: a thread whose earlier loads have returned arrives at its team operation and waits, and the group is settled once no member of it is still to
issue at this place in the bundle (the last is log entry 10's reading of R50); a thread that its own mask leaves out raises TEAMOP_MISMATCH with the mask, and one whose operand has
not arrived stalls. -/
def Sys2Proof.Claims.TeamOperationsArrive : Prop :=
  ∀ (i : Instr) (all : Bool) (x : Ext) (s : State) (n : Nat) (v : Thread), teamOp i = some (all, x) → i.wellFormed = true →
    s.cur = some (.thread n) → threadOf s n = some v → contextCheck i v = none →
      let mask := teamMask v all x
      (v.loads ≠ [] → exec i s = .next s) ∧
      (v.loads = [] → mask.getLsbD v.tpos = false →
        exec i s = .next (takeTrap s (.thread n) v { code := .teamopMismatch, info := mask } (trapHere i v))) ∧
      (v.loads = [] → mask.getLsbD v.tpos = true → predicated i v = true → readSrcs v (teamSources i).1 (teamSources i).2 .no = none →
        exec i s = .next s) ∧
      (∀ a b c g v', v.loads = [] → mask.getLsbD v.tpos = true →
        (if predicated i v then readSrcs v (teamSources i).1 (teamSources i).2 .no else some (0, 0, 0, 0, v)) = some (a, b, c, g, v') →
          let arr : Arrival := { insn := i, mask := mask, val := BitVec.ofNat 64 a, b := BitVec.ofNat 32 b, pred := predicated i v,
                                 since := s.time }
          let s' := setThread s n { v with status := .team arr }
          (moreArrivals s v = true → exec i s = .next s') ∧ (moreArrivals s v = false → exec i s = .next (settleTeam s' v)))

/-- R50: when every live thread of a team waits at one operation at one place with one mask that names it, all go on in the
same step, and no thread outside the team changes. -/
def Sys2Proof.Claims.CompleteGroupsGoOn : Prop :=
  ∀ (s : State) (t : Thread) (i : Instr) (mask : DWord) (pc : DWord), (Tab.keys s.threads).Pairwise (· < ·) →
    (∀ k v, (k, v) ∈ s.threads → sameTeam t v = true → v.status ≠ .exited →
      ∃ a, v.status = .team a ∧ v.pc = pc ∧ a.mask = mask ∧ a.insn = i ∧ mask.getLsbD v.tpos = true ∧ v.fpen = 0 ∧
        (readSrcs v (teamSources i).1 (teamSources i).2 .no).isSome = true) →
      ∀ k v, Tab.get? s.threads k = some v →
        (sameTeam t v = true → v.status ≠ .exited →
          ∃ u, threadOf (settleTeam s t) k = some u ∧ u.status = .running ∧ u.pc = pc + BitVec.ofNat 64 i.len) ∧
        (sameTeam t v = false → threadOf (settleTeam s t) k = some v)

/-- R50, R51, R477: arrival at a team operation, and the completion of a group. -/
def Obligations.TeamOperations : Prop := Sys2Proof.Claims.TeamOperationsArrive ∧ Sys2Proof.Claims.CompleteGroupsGoOn

/-- R52, R53, R478, R488, R489: what a member of a complete group receives: SHFL the value at its source position or its own;
VOTE whether some or every vote is true, or the mask of the true ones; an integer TRED the sum, minimum or maximum of the
predicated values; an integer TSCAN.add the sum up to its own position. -/
def Obligations.TeamResults : Prop :=
  ∀ (ms : List Member) (m : Member), m ∈ ms →
    (∀ all mode ty x, m.a.insn = .shfl all mode ty x → ty.int = true → Group ty ms →
      (∀ o ∈ ms, o.a.pred = true → shflSource mode m.v.tpos m.a.b.toNat = some o.v.tpos → (teamResult ms m).1 = o.a.val.toNat) ∧
      ((∀ o ∈ ms, o.a.pred = true → shflSource mode m.v.tpos m.a.b.toNat ≠ some o.v.tpos) →
        (teamResult ms m).1 = m.a.val.toNat)) ∧
    (∀ all x, m.a.insn = .vote all .any x →
      (teamResult ms m).1 = if ∃ o ∈ ms, o.a.pred = true ∧ o.a.val ≠ 0 then 2 ^ 32 - 1 else 0) ∧
    (∀ all x, m.a.insn = .vote all .all x →
      (teamResult ms m).1 = if ∀ o ∈ ms, o.a.pred = true → o.a.val ≠ 0 then 2 ^ 32 - 1 else 0) ∧
    (∀ all x, m.a.insn = .vote all .ballot x → Group .b32 ms →
      ∀ p, (teamResult ms m).1.testBit p = true ↔ ∃ o ∈ ms, o.a.pred = true ∧ o.a.val ≠ 0 ∧ o.v.tpos = p) ∧
    (∀ all ty x, m.a.insn = .tred all .add ty x → ty.int = true → Group ty ms →
      (teamResult ms m).1 = irep ty (((ms.filter fun o => o.a.pred).map fun o => ival ty o.a.val.toNat).foldl (· + ·) 0)) ∧
    (∀ all op ty x, m.a.insn = .tred all op ty x → (op = .min ∨ op = .max) → ty.int = true → Group ty ms →
      (∀ o ∈ ms, o.a.pred = true → if op = .min then ival ty (teamResult ms m).1 ≤ ival ty o.a.val.toNat
        else ival ty o.a.val.toNat ≤ ival ty (teamResult ms m).1) ∧
      ((∃ o ∈ ms, o.a.pred = true) → ∃ o ∈ ms, o.a.pred = true ∧ (teamResult ms m).1 = o.a.val.toNat)) ∧
    (∀ all inc ty x, m.a.insn = .tscan all .add inc ty x → ty.int = true → Group ty ms →
      (teamResult ms m).1 = irep ty (((ms.filter fun o => o.a.pred && (decide (o.v.tpos < m.v.tpos) || (inc && o.v.tpos == m.v.tpos))).map
        fun o => ival ty o.a.val.toNat).foldl (· + ·) 0))

/-- R44, R164, R208, R275, R402: EXIT stalls while its thread has operations outstanding, raises each fault not yet delivered, with
DEFER, and then, or at once within a trap handler, ends the thread and drops its commands; on a control core it waits for its quarter and unbinds it. -/
def Obligations.ExitWaitsDeliversAndEnds : Prop :=
  ∀ (x : Ext) (s : State) (t : Nat) (v : Thread), Ready (.exit x) s (.thread t) v →
    let i := Instr.exit x
    let late : TrapAt := { trapHere i v with deferred := true }
    let busy : Prop := v.loads ≠ [] ∨ v.stores ≠ 0 ∨ v.tl ≠ 0 ∨ ∃ e ∈ cmdsOf s t, e.2.state ≠ .done
    (v.control = false → busy → exec i s = .next s) ∧
    (∀ c k, v.control = false → ¬ busy → v.trapActive = false → (cmdsOf s t).find? (fun e => e.2.fault.isSome) = some (c, k) →
      exec i s = .next (takeTrap { s with cmds := s.cmds.filter fun e => !(e.2.thread == t && e.2.batch == k.batch) } (.thread t) v
        (k.fault.getD (kept .soft 0)) late)) ∧
    (∀ k, v.control = false → ¬ busy → v.trapActive = false → (∀ e ∈ cmdsOf s t, e.2.fault = none) → v.kept = some k →
      exec i s = .next (takeTrap (setThread s t { v with kept := none }) (.thread t) { v with kept := none } k late)) ∧
    (v.control = false → ¬ busy → (v.trapActive = true ∨ (∀ e ∈ cmdsOf s t, e.2.fault = none) ∧ v.kept = none) →
      ∃ r, exec i s = .next r ∧ (∀ u, threadOf r t = some u → u.status = .exited ∧ u.raise = none) ∧
        ∀ c k, Tab.get? r.cmds c = some k → k.thread ≠ t) ∧
    (∀ q, v.control = true → (bentOf s v.bent).bind (·.control) = some q →
      (quarterIdle s q = false → exec i s = .next s) ∧
      (∀ k, quarterIdle s q = true → (quarterOf s q).deferred = some k →
        exec i s = .next (takeTrap (setQuarter s q fun y => { y with deferred := none }) (.thread t) v k late)) ∧
      (quarterIdle s q = true → (quarterOf s q).deferred = none →
        ∃ r, exec i s = .next r ∧ (quarterOf r q).bound = none ∧ ∀ u, threadOf r t = some u → u.status = .exited))

/-- R44, R62, R63, R431: a JOINH that closes or keeps its record. In hand mode, with no other hand live, the unfinished indices are those
left so and those of the pool; they and the faulted ones are listed in ascending order, their two counts written (to vz, nowhere),
and then HAND_FAULT is raised with the lowest faulted index, or the record stays open with its unfinished ones, or it is closed, with the
fold in vc where the form has one. Outside hand mode both counts are 0, the fold is made and the record is closed. -/
def Sys2Proof.Claims.JoinsHands : Prop :=
  ∀ (fold : Bool) (x : Ext) (s : State) (n : Nat) (v : Thread) (r : RaiseRec), Ready (.joinh fold x) s (.thread n) v →
    v.raise = some r → r.unfinished.length + r.pool.length ≤ 4096 → (x.vd = 1023 ∨ x.vd.toNat + 2 ≤ 768) → (x.vc = 1023 ∨ x.vc.toNat < 768) →
    let i := Instr.joinh fold x
    let faulted := r.faulted.map (·.1)
    let kept' (u : Thread) : Prop := ∀ k, k < 768 → ¬ (x.vd.toNat ≤ k ∧ k < x.vd.toNat + 2) → regVal u k = regVal v k
    let counted (u : Thread) (a b : Nat) : Prop := x.vd ≠ 1023 → regVal u x.vd.toNat = BitVec.ofNat 32 a ∧
      regVal u (x.vd.toNat + 1) = BitVec.ofNat 32 b
    let folded (u : Thread) : Prop := regNum u x.vc.toNat 1 = (if x.vc = 1023 then 0 else (foldBuffer s v r).1 % 2 ^ 32) ∧
      u.fpsr = v.fpsr ||| (foldBuffer s v r).2 ∧ (∀ k, k < 768 → k ≠ x.vc.toNat → ¬ (x.vd.toNat ≤ k ∧ k < x.vd.toNat + 2) →
        regVal u k = regVal v k)
    (v.handMode = true → v.hctx.iter = none → r.hands = [] →
      ∃ list : List Nat, list.Perm (r.unfinished ++ r.pool ++ faulted) ∧ list.Pairwise (· ≤ ·) ∧
        (∀ h, faulted ≠ [] → v.control = false → v.trapActive = false → headerOf s v = some h → h.handler ≠ 0 →
          ∃ t u, exec i s = .next t ∧ threadOf t n = some u ∧ u.handMode = false ∧ u.trapActive = true ∧ u.tpc = v.pc ∧ u.pc = h.handler ∧
            (∃ k ∈ faulted, (∀ j ∈ faulted, k ≤ j) ∧ u.tinfo = BitVec.ofNat 64 k) ∧ u.tcause = BitVec.ofNat 32 TrapCode.handFault.num ∧
            u.raise = some { r with pool := [], unfinished := list, faulted := [] } ∧ t.mem = s.mem ∧ kept' u ∧
            counted u (r.unfinished.length + r.pool.length) faulted.length ∧
            ((blockOf s v.bent v.block).isSome →
              scratchRead t v.bent v.block r.list (4 * list.length) = list.flatMap fun k => toBytes 4 k)) ∧
        (faulted = [] → r.unfinished ++ r.pool ≠ [] →
          ∃ t u, exec i s = .next t ∧ threadOf t n = some u ∧ u.handMode = false ∧ u.status = .running ∧
            u.pc = v.pc + BitVec.ofNat 64 i.len ∧ u.raise = some { r with pool := [], unfinished := list } ∧ t.mem = s.mem ∧ kept' u ∧
            counted u (r.unfinished.length + r.pool.length) 0 ∧
            ((blockOf s v.bent v.block).isSome →
              scratchRead t v.bent v.block r.list (4 * list.length) = list.flatMap fun k => toBytes 4 k)) ∧
        (faulted = [] → r.unfinished ++ r.pool = [] → (fold = true → trapFlags v (foldBuffer s v r).2 = 0) →
          ∃ t u, exec i s = .next t ∧ threadOf t n = some u ∧ u.handMode = false ∧ u.status = .running ∧ u.raise = none ∧
            u.pc = v.pc + BitVec.ofNat 64 i.len ∧ t.mem = s.mem ∧ (fold = false → counted u 0 0 ∧ kept' u ∧ u.fpsr = v.fpsr) ∧
            (fold = true → folded u))) ∧
    (v.handMode = false → (fold = true → trapFlags v (foldBuffer s v r).2 = 0) →
      ∃ t u, exec i s = .next t ∧ threadOf t n = some u ∧ u.raise = none ∧ u.pc = v.pc + BitVec.ofNat 64 i.len ∧ t.mem = s.mem ∧
        (fold = false → counted u 0 0 ∧ kept' u ∧ u.fpsr = v.fpsr) ∧ (fold = true → folded u))

/-- R55-R57, R59-R62, R427, R428, R431, R467-R469: RAISE opens a record with every index unclaimed and enters hand mode; ITNEXT claims
the lowest index or passes the end; ITEND commits its index, performs its buffer and opens a phase, not
between the halves of a load of its core (R254); HRED buffers its value at its index;
JOINH parks or ends a hand, and else closes or keeps the record; a hand whose lane is wanted is released, its index back in the
pool. -/
def Sys2Proof.Claims.HandsRun : Prop :=
  ∀ (s : State) (w : Who) (v : Thread),
    (∀ red x a b c g v', Ready (.raise red x) s w v → v.handMode = false →
      (v.raise ≠ none → exec (.raise red x) s =
        .next (takeTrap s w v (kept .illegalInsn (Instr.word0 (.raise red x)).toNat) (trapHere (.raise red x) v))) ∧
      (v.raise = none → v.loads ≠ [] → exec (.raise red x) s = .next s) ∧
      (v.raise = none → v.loads = [] → readSrcs v (.reg 2 x.va) (if red then .reg 1 x.vb else .no) (.reg 1 x.vc) = some (a, b, c, g, v') →
        trapFlags v g = 0 →
        let n := a % 2 ^ 32
        let req := a / 2 ^ 32
        (¬ (1 ≤ n ∧ n ≤ 4096) → exec (.raise red x) s = .next (takeTrap s w v (kept .misalign n) (trapHere (.raise red x) v))) ∧
        (1 ≤ n ∧ n ≤ 4096 → 64 < req →
          exec (.raise red x) s = .next (takeTrap s w v (kept .misalign req) (trapHere (.raise red x) v))) ∧
        (raiseCheck s v n req (if red then some b else none) c = none →
          ∃ t u r, exec (.raise red x) s = .next t ∧ viewOf t w = some u ∧ u.raise = some r ∧ u.handMode = true ∧ t.mem = s.mem ∧
            u.pc = v.pc + BitVec.ofNat 64 (Instr.len (.raise red x)) ∧ SameRegsBut { v with hctx := HandCtx.none } u x.vd.toNat 1 ∧
            r.n = n ∧ r.list = c ∧ r.red = (if red then some b else none) ∧ r.pool = List.range n ∧ r.committed = [] ∧
            r.unfinished = [] ∧ r.faulted = [] ∧ r.entry.toNat % 16 = 0 ∧
            r.hands.length = min (min req (n - 1)) (min (eligibleLanes s v).length (handBudget s v)) ∧
            regNum u x.vd.toNat 1 = r.hands.length ∧ (∀ h ∈ r.hands, h.pc = r.entry ∧ h.ctx.iter = none ∧ h.ctx.h = [])))) ∧
    (∀ x r, Ready (.itnext x) s w v → v.raise = some r → v.hctx.iter = none → (x.vd = 1023 ∨ 784 ≤ x.vd.toNat) →
      (∀ k, lowest r.pool = some k → k < 2 ^ 32 →
        ∃ t u, exec (.itnext x) s = .next t ∧ viewOf t w = some u ∧ u.hctx.iter = some k ∧ u.hctx.buf = [] ∧
          u.raise.map (·.pool) = some (r.pool.erase k) ∧ u.pc = v.pc + BitVec.ofNat 64 (Instr.len (.itnext x)) ∧
          regNum u x.vd.toNat 1 = (if x.vd = 1023 then 0 else k) ∧ SameRegsBut v u x.vd.toNat 1) ∧
      (r.pool = [] →
        ∃ t u, exec (.itnext x) s = .next t ∧ viewOf t w = some u ∧ u.hctx.iter = none ∧
          u.pc = skipNext s v (v.pc + BitVec.ofNat 64 (Instr.len (.itnext x))) ∧
          regNum u x.vd.toNat 1 = (if x.vd = 1023 then 0 else 2 ^ 32 - 1) ∧ SameRegsBut v u x.vd.toNat 1 ∧ OnlyThread w s t)) ∧
    (∀ x k, Ready (.itend x) s w v → v.hctx.iter = some k → readsHalfway s (threadCore s v) = true → exec (.itend x) s = .next s) ∧
    (∀ x r k, Ready (.itend x) s w v → v.raise = some r → v.hctx.iter = some k → readsHalfway s (threadCore s v) = false →
      ∃ t u, exec (.itend x) s = .next t ∧ viewOf t w = some u ∧ u.hctx.iter = none ∧ u.hctx.buf = [] ∧
        u.raise.map (·.committed) = some (k :: r.committed) ∧ u.fpsr = v.fpsr ||| v.hctx.gather ∧
        u.pc = v.pc + BitVec.ofNat 64 (Instr.len (.itend x)) ∧ SameRegsBut v u 0 0 ∧ t.mem = (performGroup s v).mem) ∧
    (∀ x r k base a g v', Ready (.hred x) s w v → v.raise = some r → r.red = some base → v.hctx.iter = some k →
      readSrc v (.reg 1 x.va) = some (a, g, v') → trapFlags v g = 0 → v.hctx.buf.length < 32 →
        ∃ t u, exec (.hred x) s = .next t ∧ viewOf t w = some u ∧ u.hctx.iter = some k ∧ t.mem = s.mem ∧
          u.hctx.buf = v.hctx.buf ++ [{ scratch := true, addr := base + 4 * k, data := toBytes 4 a, sc := .cr, rel := false }] ∧
          u.pc = v.pc + BitVec.ofNat 64 (Instr.len (.hred x)) ∧ SameRegsBut v u 0 0) ∧
    (∀ fold x n, Ready (.joinh fold x) s w v → w = .thread n →
      (v.raise = none → exec (.joinh fold x) s =
        .next (takeTrap s w v (kept .illegalInsn (Instr.word0 (.joinh fold x)).toNat) (trapHere (.joinh fold x) v))) ∧
      (∀ r, v.raise = some r → v.handMode = true → v.hctx.iter = none → r.hands ≠ [] →
        exec (.joinh fold x) s = .next (setThread s n { v with status := .joinh (.joinh fold x) })) ∧
      (∀ r, v.raise = some r → v.handMode = true → v.hctx.iter = none → r.hands = [] → r.pool = [] → r.unfinished = [] → r.faulted = [] →
        fold = false → x.vd.toNat < 768 →
          ∃ t u, exec (.joinh fold x) s = .next t ∧ threadOf t n = some u ∧ u.raise = none ∧ u.handMode = false ∧
            regNum u x.vd.toNat 2 = 0 ∧ u.pc = v.pc + BitVec.ofNat 64 (Instr.len (.joinh fold x)) ∧ t.mem = s.mem ∧
            ∀ k, k < 768 → ¬ (x.vd.toNat ≤ k ∧ k < x.vd.toNat + 2) → regVal u k = regVal v k) ∧
      (∀ r, v.raise = some r → v.handMode = false → fold = false → x.vd.toNat < 768 →
        ∃ t u, exec (.joinh fold x) s = .next t ∧ threadOf t n = some u ∧ u.raise = none ∧ regNum u x.vd.toNat 2 = 0 ∧
          u.pc = v.pc + BitVec.ofNat 64 (Instr.len (.joinh fold x)) ∧ t.mem = s.mem ∧ SameRegsBut v u x.vd.toNat 2)) ∧
    (∀ fold x n h, Ready (.joinh fold x) s w v → w = .hand n h → v.hctx.iter = none →
      exec (.joinh fold x) s = .next (endHand s n h)) ∧
    (∀ n h f k r, threadOf s n = some f → f.raise = some r → f.status = .running → r.hands.find? (fun y => y.ctx.no == h) = some k →
      (mustRelease s f k = false → exec (.handForceRelease n h) s = .next s) ∧
      (mustRelease s f k = true → ∃ t u, exec (.handForceRelease n h) s = .next t ∧ threadOf t n = some u ∧ t.mem = s.mem ∧
        u.raise = some { r with pool := k.ctx.iter.toList ++ r.pool, hands := r.hands.filter fun y => y.ctx.no != h } ∧
        u.regs = f.regs ∧ OnlyThread (.thread n) s t))

/-- R44, R55-R57, R59-R63, R427, R428, R431, R467-R469: hands are raised, run their iterations, end and are joined. -/
def Obligations.RaisingHands : Prop := Sys2Proof.Claims.HandsRun ∧ Sys2Proof.Claims.JoinsHands

/-! ### Matrix quarters -/

namespace Sys2Proof.Claims

/-- A matrix thread has put one operation at the tail of its quarter's queue and gone on (R167). -/
structure Queued (i : Instr) (n q : Nat) (s t : State) (v u : Thread) (o : MatOp) : Prop where
  view : threadOf t n = some u
  thread : { u with pc := v.pc } = v
  pc : u.pc = v.pc + BitVec.ofNat 64 i.len
  ops : (quarterOf t q).ops = (quarterOf s q).ops ++ [{ o with seq := s.cmdSeq }]
  rest : { t with threads := s.threads, quarters := s.quarters, cmdSeq := s.cmdSeq } = s
  others : ∀ k, k ≠ q → quarterOf t k = quarterOf s k

/-- Instructions that raise the deferred fault first (R180). -/
def raisesDeferred : Instr → Bool
  | .mldb .. | .mrow .. | .msync .. => true
  | _ => false

/-- Word i of a line's 32-bit words. -/
def lineWord (s : State) (line i : Nat) : Nat := Memory.num s.mem (line * 128 + 4 * i) 4

end Sys2Proof.Claims

/-- R165-R168, R176, R178, R180, R441, R444-R446: MDESC packs its three sources into its record; MLDB, MROW and MSYNC raise the
deferred fault; MLDB, MROW and MZERO then raise MATRIX_SHAPE, stall on a full queue, and otherwise enter it, their translations filled as a walk's (R168, R331); MSYNC waits for the quarter, returns its status
and clears bits 1 and 0; MSTAT removes the oldest error record. -/
def Obligations.MatrixInstructions : Prop :=
  ∀ (s : State) (n q : Nat) (v : Thread), controlQuarter s v = some q →
    let w := Who.thread n
    let trap (i : Instr) (k : Kept) : Prop := exec i s = .next (takeTrap s w v k (trapHere i v))
    (∀ r x, Ready (.mdesc r x) s w v →
      let a := BitVec.ofNat 64 (regNum v x.va.toNat 2)
      let b := BitVec.ofNat 32 (regNum v x.vb.toNat 1)
      let c := BitVec.ofNat 32 (regNum v x.vc.toNat 1)
      let d := a ++ c.extractLsb' 8 24 ++ c.extractLsb' 0 5 ++ c.extractLsb' 5 3 ++ b.extractLsb' 28 4 ++ b.extractLsb' 16 12 ++
        b.extractLsb' 0 16
      ∃ t u, exec (.mdesc r x) s = .next t ∧ Advanced (.mdesc r x) w s t { v with recs := Tab.set v.recs r.toNat d } u) ∧
    (∀ i k, raisesDeferred i = true → Ready i s w v → (quarterOf s q).deferred = some k →
      exec i s = .next (takeTrap (setQuarter s q fun y => { y with deferred := none }) w v k { trapHere i v with deferred := true })) ∧
    (∀ r x, Ready (.mldb r x) s w v → (quarterOf s q).deferred = none →
      let i := Instr.mldb r x
      let d := shapeOf (v.shape r)
      (d.type ≠ 5 ∨ d.rsv ≠ 0 → trap i (kept .matrixShape (r.toNat + 0x100))) ∧
      (d.bad .b 1 = false → (d.rows = 0 ∨ d.cols = 0 ∨ 1024 < d.rows ∨ 256 < d.cols) →
        trap i (kept .matrixShape (r.toNat + 0x200))) ∧
      (d.bad .b 1 = false → d.bad .b 2 = false →
        (d.stride < 2 * d.cols ∨ d.stride % 2 ≠ 0 ∨ d.base % 2 ≠ 0) → trap i (kept .matrixShape (r.toNat + 0x300))) ∧
      (∀ ps, d.bad .b 1 = false → d.bad .b 2 = false → d.bad .b 3 = false →
        captureB s (threadCore s v) (threadEnclave s v) (ctxtNum s v) d (upFrom 0 d.rows) [] = .ok ps →
          ((quarterOf s q).ops.length < 8 → ∃ t u, exec i s = .next t ∧
            Queued i n q (fillPages s v ps) t v u { MatOp.plain with kind := .fill, a := v.shape r, pages := ps } ∧
              (quarterOf t q).issued = some (d.rows, d.cols)) ∧
          (8 ≤ (quarterOf s q).ops.length → exec i s = .next s))) ∧
    (∀ a c feed ord pair x, Ready (.mrow a c feed ord pair x) s w v → (quarterOf s q).deferred = none →
      let i := Instr.mrow a c feed ord pair x
      let rows := BitVec.ofNat 32 (regNum v x.va.toNat 1)
      let C := shapeOf (v.shape c)
      let check := rowsCheck s v q a c feed ord pair (x.vb.toNat == 1023) rows.toNat (regNum v x.vb.toNat 1) (regNum v x.vc.toNat 1)
      (∀ k, check = some k → trap i k) ∧
      (∀ ps, check = none →
        captureAcc s (threadCore s v) (threadEnclave s v) C
          (upFrom (rows.extractLsb' 16 16).toNat (rows.extractLsb' 0 16).toNat) = .ok ps →
        (quarterOf s q).dead = false → s.cancelled = [] →
          ((quarterOf s q).ops.length < 8 → ∃ t u, exec i s = .next t ∧
            Queued i n q (fillPages s v ps) t v u { MatOp.plain with
              kind := .rows, a := v.shape a, c := v.shape c, row := (rows.extractLsb' 16 16).toNat,
              left := (rows.extractLsb' 0 16).toNat, feed := feed, ord := ord, pair := pair, chunk := regNum v x.vc.toNat 1,
              rank := regNum v x.vb.toNat 1, desc := descLine ps C, pages := ps }) ∧
          (8 ≤ (quarterOf s q).ops.length → exec i s = .next s))) ∧
    (∀ r x, Ready (.mzero r x) s w v →
      let i := Instr.mzero r x
      let d := shapeOf (v.shape r)
      (∀ ps, d.bad .acc 1 = false → d.bad .acc 2 = false → d.bad .acc 3 = false →
        (255 < regNum v x.va.toNat 1 → trap i (kept .matrixShape (r.toNat + 0x800))) ∧
        (regNum v x.va.toNat 1 ≤ 255 → captureAcc s (threadCore s v) (threadEnclave s v) d (upFrom 0 d.rows) = .ok ps →
          ((quarterOf s q).ops.length < 8 → ∃ t u, exec i s = .next t ∧
            Queued i n q (fillPages s v ps) t v u { MatOp.plain with
              kind := .zero, c := v.shape r, chunk := regNum v x.va.toNat 1, desc := descLine ps d, pages := ps }) ∧
          (8 ≤ (quarterOf s q).ops.length → exec i s = .next s)))) ∧
    (∀ x, Ready (.msync x) s w v → (quarterOf s q).deferred = none →
      (quarterIdle s q = false → exec (.msync x) s = .next s) ∧
      (quarterIdle s q = true → ∃ t u, exec (.msync x) s = .next t ∧
        Put (.msync x) w t v v u (ofBool (quarterOf s q).pairFailed + 2 * ofBool (quarterOf s q).order +
          4 * ofBool (!(quarterOf s q).errs.isEmpty)) 0 ∧
        quarterOf t q = { quarterOf s q with order := false, pairFailed := false } ∧
        { t with threads := s.threads, quarters := s.quarters } = s)) ∧
    (∀ x, Ready (.mstat x) s w v →
      ∃ t u, exec (.mstat x) s = .next t ∧ { t with threads := s.threads, quarters := s.quarters } = s ∧
        ((quarterOf s q).errs = [] → Put (.mstat x) w t v v u 0 0 ∧ quarterOf t q = quarterOf s q) ∧
        ∀ e rest, (quarterOf s q).errs = e :: rest →
          Put (.mstat x) w t v v u ((e.toNat + (quarterOf s q).more * 2 ^ 56) % 2 ^ 64) 0 ∧ (quarterOf t q).errs = rest ∧
            (quarterOf t q).more = (if rest = [] then 0 else (quarterOf s q).more))

/-- R159, R167, R169-R171, R173, R179: a free quarter binds the next bent in dispatch order; the oldest push enters its feed
queue; a loaded fill at the head swaps in; a failed one defers its fault and drops the MROWs behind it; a row at the head streams, its
segments sent and the cluster's credit debited, but not while a segment of the quarter stands refused (R175); MZERO at the head zeroes its rows and writes its descriptor line.
That the MROWs behind a failed fill are dropped up to the next MLDB, and that pushes are accepted in the order of their issue, is log
entry 40's reading. -/
def Obligations.QuartersBindFillAndStream : Prop :=
  ∀ (s : State) (q : Nat),
    (∀ b t v x, (quarterOf s q).bound = none → nextBinder s q = some b → matrixThread s b = some (t, v) → bentOf s b = some x →
      x.restore = none → v.mxtrap = none → (∃ e ∈ x.blocks, e.2.ended = false) →
      (inService s q = true → ∃ r, exec (.quarterBind q) s = .next r ∧ 
        quarterOf r q = { Quarter.reset with bound := some b, pairFailed := x.pairCut, accepted := (quarterOf s q).accepted } ∧
        (bentOf r b).map (·.control) = some (some q) ∧ r.threads = s.threads ∧ r.mem = s.mem) ∧
      (inService s q = false → exec (.quarterBind q) s = .next (haltUnserved s v q))) ∧
    (∀ p rest, (quarterOf s q).pushes = p :: rest →
      ((quarterOf s q).feed.length < 1024 → ∃ r, exec (.feedPushAccepted q) s = .next r ∧
        quarterOf r q = { quarterOf s q with pushes := rest, feed := (quarterOf s q).feed ++ [p.word] } ∧
        ∀ v, threadOf s p.thread = some v → threadOf r p.thread = some { v with tl := v.tl - 1 }) ∧
      (1024 ≤ (quarterOf s q).feed.length → exec (.feedPushAccepted q) s = .next s)) ∧
    (∀ o os b, (quarterOf s q).active = none → (quarterOf s q).ops = o :: os → o.kind = .fill → o.loaded = some b →
      (∀ p ∈ os, p.seq ≠ o.seq) → quarterLive s q = true →
        exec (.bankSwap q []) s =
          .next (settleQuarter (setQuarter s q fun k => { k with active := some o, ops := os }) q)) ∧
    (∀ o rows rest b k, (quarterOf s q).active = none → (quarterOf s q).ops = o :: (rows ++ rest) → o.kind = .fill →
      o.loaded = none → loadTile s q o = .trap k → (∀ p ∈ rows, p.kind = .rows) → rest.head? = some b → b.kind = .fill →
      (quarterOf s q).deferred = none →
        exec (.fillFault q) s =
          .next (settleQuarter (setQuarter s q fun y => { y with active := none, ops := rest, dead := false, deferred := some k }) q)) ∧
    (∀ o os b a feed, (quarterOf s q).ops = o :: os → (quarterOf s q).active.bind (·.loaded) = some b → o.kind = .rows → o.left ≠ 0 →
      quarterLive s q = true → (∀ g ∈ s.segments, g.quarter = q → g.refused = false) → o.desc ∉ s.cancelled →
      rowData s q o = some (a, feed) →
        ∃ r, exec (.rowAccept q []) s = .next r ∧ r.mem = s.mem ∧ (quarterOf r q).feed = feed ∧
          (quarterOf r q).accepted = (quarterOf s q).accepted + 1 ∧
          (quarterOf r q).ops = (if o.left = 1 then os else { o with row := o.row + 1, left := o.left - 1 } :: os) ∧
          (clusterOfPkg r (q / 4)).credit = (clusterOfPkg s (q / 4)).credit - 40960 ∧
          r.segments = s.segments ++ rowSegments q ((quarterOf s q).bound.getD 0) o b a ∧
          ∀ g ∈ rowSegments q ((quarterOf s q).bound.getD 0) o b a, g.data.length = 32 ∧ g.chunk = o.chunk ∧ g.ord = o.ord) ∧
    (∀ bad g, g ∈ s.segments → g.quarter = q → g.refused = true → exec (.rowAccept q bad) s = .next s) ∧
    (∀ o os, (quarterOf s q).ops = o :: os → o.kind = .zero → quarterLive s q = true →
      let c := shapeOf o.c
      ∃ r, exec (.mzeroComplete q) s = .next r ∧ (∀ d, d ∈ r.cancelled → d ≠ o.desc) ∧
        Memory.bytes r.mem (o.desc * 128) 128 = toBytes 4 0 ++ toBytes 4 o.chunk ++ List.replicate 120 0 ∧
        ∀ m j, m < c.rows → j < (c.cols + 31) / 32 →
          let pa := paOf o.pages (BitVec.ofNat 64 (c.base + m * c.stride + 128 * j)).toNat
          pa % 128 = 0 → lineOf pa ≠ o.desc →
            Memory.bytes r.mem pa (min 128 (4 * c.cols - 128 * j)) = List.replicate (min 128 (4 * c.cols - 128 * j)) 0)

/-- R154, R173-R175: a segment without `.ord`, or with the chunk its line expects, merges, one rounded addition a word, and the
expected chunk advances for an ordered one; one behind, or past the count, is discarded with ORDER set in the tile's status and the
quarter's; one ahead is held, or refused while the buffer is full. No byte outside the line named changes. -/
def Obligations.SegmentsMergeInOrder : Prop :=
  ∀ (s : State) (k : Nat) (g : Segment), (s.segments.filter fun x => !x.held)[k]? = some g → g.data.length = 32 →
    poisoned s (g.line * 128) = false →
    let next := (sideOf s g.line).next.toNat
    let count := (sideOf s g.line).count.toNat
    let merged (r : State) : Prop :=
      (∀ i p, g.data[i]? = some p → lineWord r g.line i = addF32 (lineWord s g.line i) p.toNat) ∧ SameMemBut s r (g.line * 128) 128
    (g.ord = false → ∃ r, exec (.segmentArrive k) s = .next r ∧ merged r ∧ (sideOf r g.line).next = (sideOf s g.line).next) ∧
    (g.ord = true → count = 0 ∨ count ≤ g.chunk ∨ g.chunk < next →
      ∃ r, exec (.segmentArrive k) s = .next r ∧ SameMemBut s r (g.desc * 128) 4 ∧
        lineWord r g.desc 0 = lineWord s g.desc 0 ||| 2 ∧
        ((∀ b x, (quarterOf s g.quarter).bound = some b → bentOf s b = some x → ∃ e ∈ x.blocks, e.2.ended = false) →
          (quarterOf r g.quarter).order = true)) ∧
    (g.ord = true → g.chunk < count → g.chunk = next → next < 255 → (∀ x ∈ s.segments, x.held = true → x.line ≠ g.line) →
      ∃ r, exec (.segmentArrive k) s = .next r ∧ merged r ∧ (sideOf r g.line).next.toNat = next + 1) ∧
    (g.ord = true → g.chunk < count → next < g.chunk →
      (heldIn s (homeSlice (g.line * 128)) < 256 → exec (.segmentArrive k) s =
        .next { s with segments := s.segments.erase g ++ [{ g with held := true, refused := false }] }) ∧
      (256 ≤ heldIn s (homeSlice (g.line * 128)) → exec (.segmentArrive k) s =
        .next { s with segments := s.segments.erase g ++ [{ g with refused := true }] }))

/-! ### System instructions -/

namespace Sys2Proof.Claims

/-- Value of a special register of a vector thread (R97, R99). -/
def special (s : State) (v : Thread) : Nat → Nat
  | 0x01 => v.fields.getD 0 0 | 0x02 => v.fields.getD 1 0 | 0x03 => v.fields.getD 2 0 | 0x04 => v.fields.getD 3 0
  | 0x05 => v.fields.getD 4 0 | 0x06 => v.fields.getD 5 0 | 0x08 => v.tix | 0x09 => v.tpos | 0x0A => threadBay s v
  | 0x0B => threadCore s v % 16 | 0x0C => clusterOf (threadCore s v) | 0x0D => dieOf (threadCore s v) | 0x0E => s.mgmt.pkid
  | 0x10 => arithCycles s (threadCore s v) | 0x18 => v.seed.toNat | 0x20 => v.tcause.toNat | 0x21 => v.tpc.toNat | 0x22 => v.tmask.toNat
  | 0x23 => v.tinfo.toNat | 0x24 => v.fpsr.toNat | 0x25 => v.fpen.toNat | 0x26 => v.stack.length | 0x27 => v.tdst.toNat
  | _ => widOf s v

/-- Value of a special register on the control core of quarter q (R161): all ones for what a matrix thread has no value of, the quarter's
number in its cluster for the bay, and the control core's own counter. -/
def specialControl (s : State) (v : Thread) (q : Nat) : Nat → Nat
  | 0x01 | 0x02 | 0x08 | 0x09 | 0x0B => 0xFFFFFFFF
  | 0x0A => q % 4
  | 0x10 => arithCycles s (controlUnit q)
  | idx => special s v idx

/-- The access log holds, as its latest record but for the signature that may follow it, one of a kind with an actor's number and a body
(R317, R318). -/
def Logged (s t : State) (kind enclave actor : Nat) (body : List Byte) : Prop :=
  ∃ r : LogRec, (∃ pre post, t.root.log = pre ++ r :: post ∧ post.length ≤ 1) ∧ r.seq = s.root.seq ∧ r.prev = s.root.head ∧ r.kind = kind ∧
    r.enclave = enclave ∧ r.actor = actor ∧ r.body = fitBytes 80 body

end Sys2Proof.Claims

/-- R97-R99, R161, R317, R323, R357, R379, R380, R461, R480, R7: SREG writes its special register's value; SSET writes one of the
three that may be written; BRK stops a thread of a debug-enabled partition and raises SOFT in another; a debugger acts on a stopped
thread of a debug-enabled partition alone; PLUMB fires one trigger there; each attempt is logged, with the actor's number, the partition and
whether it was allowed, two words whose places in the body are log entry 13's; a word that is no instruction
raises ILLEGAL_INSN. -/
def Obligations.SystemInstructions : Prop :=
  ∀ (s : State) (w : Who) (v : Thread),
    (∀ idx x, Ready (.sreg idx x) s w v → NoPush (.sreg idx x) → v.control = false →
      ∃ t u, exec (.sreg idx x) s = .next t ∧
        Wrote (.sreg idx x) w s t v v u (special s v idx.toNat % 2 ^ (32 * destWidth (.sreg idx x))) 0) ∧
    (∀ idx x q, Ready (.sreg idx x) s w v → v.control = true → controlQuarter s v = some q →
      ∃ t u, exec (.sreg idx x) s = .next t ∧
        Wrote (.sreg idx x) w s t v v u (specialControl s v q idx.toNat % 2 ^ (32 * destWidth (.sreg idx x))) 0) ∧
    (∀ idx x a g v', Ready (.sset idx x) s w v → readSrc v (.reg 1 x.va) = some (a, g, v') → trapFlags v g = 0 → v.handMode = false →
      ∃ t u, exec (.sset idx x) s = .next t ∧ viewOf t w = some u ∧ OnlyThread w s t ∧ SameRegsBut v u 0 0 ∧
        u.pc = v.pc + BitVec.ofNat 64 (Instr.len (.sset idx x)) ∧ u.queues = v'.queues ∧
        (idx = 0x18 → u.seed = BitVec.ofNat 32 a ∧ u.fpsr = v.fpsr ||| g ∧ u.fpen = v.fpen) ∧
        (idx = 0x24 → u.seed = v.seed ∧ u.fpsr = BitVec.ofNat 5 a ∧ u.fpen = v.fpen) ∧
        (idx = 0x25 → u.seed = v.seed ∧ u.fpsr = v.fpsr ||| g ∧ u.fpen = BitVec.ofNat 5 a)) ∧
    (∀ x, Ready (.brk x) s w v →
      let s' := logDebug s 4 v (threadDebug s v)
      (threadDebug s v = true → exec (.brk x) s =
        .next (putView s' w { v with status := .debugStop, pc := v.pc + BitVec.ofNat 64 (Instr.len (.brk x)) })) ∧
      (threadDebug s v = false → exec (.brk x) s =
        .next (takeTrap s' w v (kept .soft (2 ^ 63 + x.imm.toNat)) (trapHere (.brk x) v)))) ∧
    (∀ word, s.cur = some w → viewOf s w = some v → exec (.unassignedEncoding word) s =
      .next (takeTrap s w v (wordsTrap v word) { pc := v.pc, len := 4 * lengthOf word, tdst := wordsDst s v })) ∧
    (∀ word, v.handMode = false → wordsTrap v word = kept .illegalInsn word.toNat) ∧
    (∀ port t c, threadOf s t = some v →
      let s' := logDebug s (1 + port) v (threadDebug s v)
      (threadDebug s v = true → v.status = .debugStop → exec (.debuggerCommand port t c) s =
        .next (setThread s' t (match c with
          | .release => { v with status := .running, fetched := [] }
          | .writePc pc => { v with pc := pc, fetched := [] }))) ∧
      (threadDebug s v = false ∨ v.status ≠ .debugStop → exec (.debuggerCommand port t c) s = .next s')) ∧
    (∀ x, Ready (.plumb x) s w v →
      ∃ t u, exec (.plumb x) s = .next t ∧ viewOf t w = some u ∧ u.pc = v.pc + BitVec.ofNat 64 (Instr.len (.plumb x)) ∧
        SameRegsBut v u 0 0 ∧ u.masks = v.masks ∧ t.mem = s.mem ∧ t.root = (logDebug s 4 v (threadDebug s v)).root ∧
        t.mgmt.triggers = s.mgmt.triggers + (if threadDebug s v = true ∧ laterPlumb (.plumb x) s v = false then 1 else 0)) ∧
    (∀ actor allowed, Logged s (logDebug s actor v allowed) 0x06 (threadEnclave s v) actor
      (toBytes 8 (((headerOf s v).map (·.part)).getD 0) ++ toBytes 8 (if allowed then 1 else 0)))

/-- R232, R314, R321, R346-R351: SYSC raises the first failure of its checks and posts nothing; otherwise it waits for every earlier
load, releases, and posts one request, now or once its ring has room and the threads before it by wid have posted theirs, and waits; the oldest request of a ring is taken; the reply is
written to vd, fixed for NULL and for numbers that name no service, refused for a move on a stream that is not the enclave's, and
otherwise done unless an argument cannot be reached any more, and the thread goes on. What a service answers and writes is free (log
entry 39). What a DPUT sends leaves as one sealed frame, whose form is log entry 18's. -/
def Sys2Proof.Claims.Services : Prop :=
  ∀ (s : State) (n : Nat) (v v' : Thread) (svc : BitVec 8) (x : Ext) (a b c : Nat) (g : Flags),
    readSrcs v (.reg 2 x.va) (.reg 1 x.vb) .no = some (a, b, c, g, v') →
    let i := Instr.sysc svc x
    let die := dieOf (threadCore s v)
    let room : Prop := ringLoad s die (svc.toNat / 128) < 256 ∧ syscBefore i s (.thread n) v = false
    let posted (args : List Arg) : SyscReq :=
      { die := die, io := svc.toNat / 128, thread := n, svc := svc.toNat, vb := BitVec.ofNat 32 b, args := args, taken := false,
        sent := false }
    (Ready i s (.thread n) v → v.sysc = none →
      (∀ k, syscCheck s v a = .trap k → exec i s = .next (takeTrap s (.thread n) v k (trapHere i v))) ∧
      (a % 64 ≠ 0 → exec i s = .next (takeTrap s (.thread n) v (kept .misalign a) (trapHere i v))) ∧
      (∀ args, syscCheck s v a = .ok args → v.loads ≠ [] → exec i s = .next s) ∧
      (∀ args, syscCheck s v a = .ok args → v.loads = [] →
        ∃ t u, exec i s = .next t ∧ threadOf t n = some u ∧ u.pc = v.pc ∧ SameRegsBut v u 0 0 ∧ u.queues = v.queues ∧
          u.phaseStart = phaseOf s (cacheOf s (threadCore s v)) + 1 ∧
          (room → u.sysc = some (.posted i) ∧ t.requests = s.requests ++ [posted args]) ∧
          (¬ room → u.sysc = some (.released i (BitVec.ofNat 32 b) args) ∧ t.requests = s.requests))) ∧
    (∀ args, Ready i s (.thread n) v → v.sysc = some (.released i (BitVec.ofNat 32 b) args) →
      (¬ room → exec i s = .next (setThread s n v)) ∧
      (room → exec i s = .next (setThread { s with requests := s.requests ++ [posted args] } n { v with sysc := some (.posted i) }))) ∧
    (∀ io r, s.requests.find? (fun q => q.die == die && q.io == io && !q.taken) = some r → r.thread = n → threadOf s n = some v →
      v.sysc = some (.posted i) →
        ∃ t u, exec (.syscRequestTaken die io) s = .next t ∧ threadOf t n = some u ∧ u = { v with sysc := some (.taken i) } ∧
          t.mem = s.mem ∧ t.requests = s.requests.map (fun q => if q = r then { q with taken := true } else q)) ∧
    (∀ r code result out, threadOf s n = some v → s.requests.find? (fun q => q.thread == n && q.taken) = some r →
      v.sysc = some (.taken i) → i.wellFormed = true → v.handMode = false → trapFlags v g = 0 → (x.vd = 1023 ∨ x.vd.toNat < 767) →
        let en := threadEnclave s v
        let shut := (r.svc = 3 ∨ r.svc = 4) ∧ ∀ m, Tab.get? s.streams r.vb.toNat = some m → m.enclave ≠ en
        ∃ t u, exec (.syscReply n code result out) s = .next t ∧ threadOf t n = some u ∧ u.sysc = none ∧
          u.pc = v.pc + BitVec.ofNat 64 i.len ∧ u.queues = v'.queues ∧ SameRegsBut v u x.vd.toNat 2 ∧ (∀ q ∈ t.requests, q ≠ r) ∧
          (x.vd ≠ 1023 →
            (r.svc = 0 → regNum u x.vd.toNat 2 = 0) ∧ (6 ≤ r.svc → regNum u x.vd.toNat 2 = 1) ∧
            (1 ≤ r.svc → r.svc ≤ 5 → (shut ∨ code ≠ 0) → regNum u x.vd.toNat 2 = 2 + 2 ^ 32 * result.toNat) ∧
            (1 ≤ r.svc → r.svc ≤ 5 → ¬ shut → code = 0 →
              regNum u x.vd.toNat 2 = if (serviceMove s en r out).2 = true then 2 ^ 32 * result.toNat else 3))) ∧
    (∀ en r m va addr len o bs out, r.svc = 3 → Tab.get? s.streams r.vb.toNat = some m → m.here s = false → peerAddr s en r.args = some va →
      r.args.head? = some (addr, len, o) → agentReadVa s en addr.toNat len = some bs →
        let frame := Config.gcmSeal m.key (m.sendNonce s) (frameHeader (.data (BitVec.ofNat 64 va))) bs
        let sent := { m with sent := m.sent + 1, frames := m.frames ++ [(va, frame.1, frame.2)] }
        serviceStream s en r out = some ({ s with streams := Tab.set s.streams r.vb.toNat sent }, out))

/-- R232, R432-R434: LAUNCH traps on a misaligned header and on one whose page it may not read, waits for every earlier load and for the threads of its bundle that
come before it by wid, releases, and then writes its status: 1 for a queue not enabled, 2 for a full one, 3 for a slot that cannot be written, else the place it took,
its header at that place of the ring and the queue's TAIL one on. That it starts a phase is log entry 24's. -/
def Sys2Proof.Claims.Launches : Prop :=
  ∀ (s : State) (w : Who) (v : Thread) (q : BitVec 6) (x : Ext),
    let i := Instr.launch q x
    let h := regNum v x.va.toNat 2
    let core := threadCore s v
    let en := threadEnclave s v
    let answers (s' : State) (v1 : Thread) (r : Nat) : Prop :=
      ∃ t u, exec i s = .next t ∧ viewOf t w = some u ∧ u.pc = v.pc + BitVec.ofNat 64 i.len ∧ SameRegsBut v u x.vd.toNat 1 ∧
        regNum u x.vd.toNat 1 = (if x.vd = 1023 then 0 else r % 2 ^ 32) ∧ u.masks = v.masks ∧ u.phaseStart = v1.phaseStart ∧
        { t with threads := s'.threads } = s'
    (Ready i s w v →
      (h % 128 ≠ 0 → exec i s = .next (takeTrap s w v (kept .misalign h) (trapHere i v))) ∧
      (∀ k, h % 128 = 0 → launchPage s v h = .trap k → exec i s = .next (takeTrap s w v k (trapHere i v))) ∧
      (∀ p, h % 128 = 0 → launchPage s v h = .ok p → v.loads ≠ [] ∨ launchBefore i s w v = true → exec i s = .next s) ∧
      (∀ p s1 v1, h % 128 = 0 → launchPage s v h = .ok p → v.loads = [] → launchBefore i s w v = false → phaseIf true (releaseAt s v.control core .sy) v = (s1, v1) →
        (∀ r s2, launchSlot s1 v q.toNat = (s2, .error r) → answers s2 v1 r) ∧
        (∀ s2 pg slot bs s3 r s4, launchSlot s1 v q.toNat = (s2, .ok (pg, slot)) → launchHeader s2 v h = .ok (bs, s3) →
          launchAppend s3 v q.toNat pg slot bs = (r, s4) → answers s4 v1 r))) ∧
    (∀ e bs, enclaveOf s en = some e →
      let k := e.queue q.toNat
      let slot := k.ring * 4096 + 128 * (k.tail % 2 ^ k.logd)
      (k.en = false → launchSlot s v q.toNat = (s, .error 1)) ∧
      (k.en = true → used k.tail k.head = 2 ^ k.logd → launchSlot s v q.toNat = (s, .error 2)) ∧
      (∀ s' y, k.en = true → used k.tail k.head ≠ 2 ^ k.logd → touchFor s (partOf s v) core en .write slot = (s', .trap y) →
        launchSlot s v q.toNat = (s', .error 3)) ∧
      (∀ s' p, k.en = true → used k.tail k.head ≠ 2 ^ k.logd → touchFor s (partOf s v) core en .write slot = (s', .ok p) →
        launchSlot s v q.toNat = (s', if p.device then .error 3 else .ok (p, slot))) ∧
      (∀ p, bs.length = 128 →
        (launchAppend s v q.toNat p slot bs).1 = 2 ^ 16 * k.tail ∧
          Memory.bytes (launchAppend s v q.toNat p slot bs).2.mem (p.at slot) 128 = bs ∧
          (enclaveOf (launchAppend s v q.toNat p slot bs).2 en).map (fun e => (e.queue q.toNat).tail) = some ((k.tail + 1) % 65536)))

/-- R346-R351, R432-R434: services and launches from device code. -/
def Obligations.ServicesAndLaunches : Prop := Sys2Proof.Claims.Services ∧ Sys2Proof.Claims.Launches

/-! ### Enclave instructions -/

namespace Sys2Proof.Claims

/-- Hart n executes (R295). -/
def HartRuns (s : State) (n : Nat) (h : Hart) : Prop := s.cur = some (.hart n) ∧ hartOf s n = some h

/-- The illegal-instruction exception of an enclave instruction (R295). -/
def illegalHere (s : State) (n : Nat) (h : Hart) (i : Instr) : Result :=
  .next (asyncExit s n h causeIllegal (BitVec.ofNat 64 i.word0.toNat))

/-- Each enclave instruction in a mode that may not run it. -/
def EnclaveAdmission : Prop :=
  ∀ (s : State) (n : Nat) (h : Hart) (rd a b : BitVec 5), HartRuns s n h →
    (¬ (h.enclave = none ∧ (h.mode = .hs ∨ h.mode = .s)) →
      exec (.encCreate rd a) s = illegalHere s n h (.encCreate rd a) ∧
      exec (.encAddpg rd a b) s = illegalHere s n h (.encAddpg rd a b) ∧
      exec (.encSeal rd a b) s = illegalHere s n h (.encSeal rd a b) ∧
      exec (.encEnter rd a b) s = illegalHere s n h (.encEnter rd a b) ∧
      exec (.encDestroy rd a) s = illegalHere s n h (.encDestroy rd a)) ∧
    (¬ (h.enclave = none ∧ h.mode = .s) → h.enclave ≠ some (h.getX a).toNat →
      exec (.encUnseal rd a b) s = illegalHere s n h (.encUnseal rd a b)) ∧
    (h.enclave = none → exec .encExit s = illegalHere s n h .encExit)

/-- ENC.CREATE, ENC.ADDPG, ENC.SEAL, ENC.UNSEAL and ENC.DESTROY where they are admitted: the status of a failure and nothing else,
or their effect with the status 0, or the new id. -/
def EnclaveStatuses : Prop :=
  ∀ (s : State) (n : Nat) (h : Hart) (rd a b : BitVec 5), HartRuns s n h → outsideMode h = true →
    let x := (h.getX a).toNat
    let y := (h.getX b).toNat
    (∀ st, create s x = .error st → exec (.encCreate rd a) s = .next (answer s n rd (2 ^ 63 + st))) ∧
    (∀ id t, create s x = .ok (id, t) → exec (.encCreate rd a) s = .next (answer t n rd id)) ∧
    (∀ st, addPage s x y = .error st → exec (.encAddpg rd a b) s = .next (answer s n rd st)) ∧
    (∀ t, addPage s x y = .ok t → exec (.encAddpg rd a b) s = .next (answer t n rd 0)) ∧
    (sealPage s x y = none → exec (.encSeal rd a b) s = .next s) ∧
    (∀ st, sealPage s x y = some (.error st) → exec (.encSeal rd a b) s = .next (answer s n rd st)) ∧
    (∀ t, sealPage s x y = some (.ok t) → exec (.encSeal rd a b) s = .next (answer t n rd 0)) ∧
    (∀ e blob raw view fmt, h.mode = .s → enclaveOf s x = some e → unsealWords s h y = .ok [blob, raw, view, fmt] →
      (∀ st, unsealBlob s x e blob raw view fmt = .error st → exec (.encUnseal rd a b) s = .next (answer s n rd st)) ∧
      (∀ t, unsealBlob s x e blob raw view fmt = .ok t → exec (.encUnseal rd a b) s = .next (answer t n rd 0))) ∧
    (∀ e st, h.mode = .s → enclaveOf s x = some e → unsealWords s h y = .error st → exec (.encUnseal rd a b) s = .next (answer s n rd st)) ∧
    ((y % 32 ≠ 0 ∨ deviceOwned s y 32 = false) → unsealWords s h y = .error 2) ∧
    (y % 32 = 0 → deviceOwned s y 32 = true → lineBad s y 32 = true → unsealWords s h y = .error 3) ∧
    (enclaveOf s x = none →
      exec (.encAddpg rd a b) s = .next (answer s n rd 4) ∧ exec (.encSeal rd a b) s = .next (answer s n rd 4) ∧
      (h.mode = .s → exec (.encUnseal rd a b) s = .next (answer s n rd 4)) ∧ exec (.encEnter rd a b) s = .next (answer s n rd 4) ∧
      exec (.encDestroy rd a) s = .next (answer s n rd 4)) ∧
    ((enclaveOf s x).isSome = true → exec (.encDestroy rd a) s = .next (answer (destroy s x) n rd 0)) ∧
    (∀ t v, ∃ u, hartOf t n = some h →
      hartOf (answer t n rd v) n = some u ∧ u.pc = h.pc + BitVec.ofNat 64 h.len ∧ u.getX rd = (if rd = 0 then 0 else BitVec.ofNat 64 v) ∧
        (∀ r, r ≠ rd → u.getX r = h.getX r) ∧ u.mode = h.mode ∧ u.enclave = h.enclave ∧ (answer t n rd v).mem = t.mem)

/-- What creation, pages, sealing, unsealing and destruction come to (R299, R303, R304, R312, R326). -/
def EnclaveEffects : Prop :=
  ∀ (s t : State),
    (∀ a id, create s a = .ok (id, t) → ∃ d ps e k, readCreate s a = some d ∧ readPageList s d.list d.count = some ps ∧
      enclaveOf s id = none ∧ (∀ j, 1 ≤ j → j < id → (enclaveOf s j).isSome = true) ∧ freeSlotKey s = some k ∧
      enclaveOf t id = some e ∧ e.root = d.root ∧ e.partmask = d.partmask ∧ e.debug = d.debug ∧ e.imgroot = imageRoot s d ps ∧
      e.slot = some k ∧ e.stack = [] ∧ (∀ j, j ≠ id → enclaveOf t j = enclaveOf s j) ∧
      (∀ p ∈ ps, Tab.getD t.pot p.frame { owner := 0, slot := 0, type := 0, rstr := false } =
        { owner := id, slot := k, type := (if p.table = true then 2 else 1), rstr := false }) ∧
      ∃ x y, level0 s d.root d.kickVa = some (x, y) ∧ SameMemBut s t x 8) ∧
    (∀ id a frame e, Memory.num s.mem a 8 = 0 → Memory.num s.mem (a + 8) 8 = 65536 * frame → enclaveOf s id = some e →
      e.slot.isSome = true → addPage s id a = .ok t → ∃ e', enclaveOf t id = some e' ∧ e'.stack = frame :: e.stack ∧
        (Tab.getD t.pot frame { owner := 0, slot := 0, type := 0, rstr := false }).type = 3 ∧
        (Tab.getD t.pot frame { owner := 0, slot := 0, type := 0, rstr := false }).owner = id ∧ t.mem = s.mem) ∧
    (∀ id a frame e, Memory.num s.mem a 8 = 3 → Memory.num s.mem (a + 8) 8 = 65536 * frame → enclaveOf s id = some e →
      addPage s id a = .ok t → t = { s with root := { s.root with held := frame :: s.root.held } }) ∧
    (∀ id a e va addr leaf, enclaveOf s id = some e → Memory.num s.mem a 8 = va → level0 s e.root va = some (addr, leaf) →
      ((potOf s (leafFrame leaf)).rstr = true → bit leaf 0 = true → sealPage s id a ≠ some (.ok t)) ∧
      (sealPage s id a = some (.ok t) → (id, va, (e.saveCounter + 1) % 2 ^ 64) ∈ t.root.versions ∧
        potOf t (leafFrame leaf) = { owner := 0, slot := 0, type := 0, rstr := false } ∧
        (∀ k, k < 65536 → Memory.read t.mem (leafFrame leaf / 65536 * 65536 + k) = 0) ∧
        (∀ v, (id, va, v) ∈ t.root.versions → v = (e.saveCounter + 1) % 2 ^ 64) ∧
        ∀ x ∈ t.tlb ++ t.tlb2, x.enclave = id → ¬ (x.page = va / (if x.big = true then 2 ^ 21 else 2 ^ 16)))) ∧
    (∀ id e blob raw view fmt, unsealBlob s id e blob raw view fmt = .ok t → enclaveOf s id = some e → ∃ e' p, openBlob s e blob = some p ∧
      enclaveOf t id = some e' ∧ e'.stack = e.stack.drop (Memory.num s.mem (blob + 0x30) 8 / 65536) ∧
      (∀ c ∈ e'.cap, c ≤ Memory.num s.mem (blob + 0x28) 8) ∧ (∀ c ∈ e.cap, ∀ c' ∈ e'.cap, c' ≤ c)) ∧
    (∀ id, (∀ n h, (n, h) ∈ s.harts → h.enclave ≠ some id) →
      let u := destroy s id
      enclaveOf u id = none ∧ (∀ x ∈ u.tlb, x.enclave ≠ id) ∧ (∀ x ∈ u.tlb2, x.enclave ≠ id) ∧ (∀ p ∈ Tab.values u.pot, p.owner ≠ id) ∧
        (∀ x ∈ u.scopes, x.enclave ≠ id) ∧ (∀ x ∈ u.root.versions, x.1 ≠ id) ∧
        (∀ f p, (f, p) ∈ (haltEnclave s id).pot → p.owner = id → ∀ k, k < 65536 → Memory.read u.mem (65536 * f + k) = 0))

/-- Whether an event outside enclave mode goes to M mode: it comes from M mode, or M mode has not delegated its code; and it is no interrupt
that hvictl gives a virtual machine, whose causes alone have bits 63 and 62. -/
def Undelegated (h : Hart) (m : HMode) (cause : DWord) : Prop :=
  (m = .m ∨ bit (if bit cause.toNat 63 then h.mideleg else h.csrOf csrMedeleg) (cause.toNat % 2 ^ 63) = false) ∧
    ¬ (m.virt = true ∧ bit cause.toNat 63 = true ∧ bit cause.toNat 62 = true)

/-- ENC.ENTER, ENC.EXIT and the asynchronous exit; keys that leave the package (R302, R306, R399). -/
def EnclaveModes : Prop :=
  ∀ (s : State) (n : Nat) (h : Hart) (rd a b : BitVec 5),
    (HartRuns s n h → outsideMode h = true →
      let id := (h.getX a).toNat
      let d := (h.getX b).toNat
      let q (k : Nat) := Memory.num s.mem (d + 8 * k) 8
      let good : Prop := d % 64 = 0 ∧ deviceOwned s d 64 = true ∧ q 0 % 2 = 0 ∧ q 2 % 64 = 0 ∧ ∀ k, 3 ≤ k → k < 8 → q k = 0
      let writable : Bool := agentMayWrite s id (q 2) && agentMayWrite s id ((q 2 + 575) % 2 ^ 64)
      (enclaveOf s id).isSome = true →
      (d % 64 ≠ 0 ∨ deviceOwned s d 64 = false ∨ q 0 % 2 = 1 → exec (.encEnter rd a b) s = .next (answer s n rd 2)) ∧
      (good → (lineBad s d 64 = true ∨ writable = false ∨ agentReadVa s id (q 2) 576 = none) →
        exec (.encEnter rd a b) s = .next (answer s n rd 3)) ∧
      (∀ area, good → lineBad s d 64 = false → writable = true →
        agentReadVa s id (q 2) 576 = some area → bit (ofBytes (area.take 8)) 0 = false →
          ∃ t u, exec (.encEnter rd a b) s = .next t ∧ hartOf t n = some u ∧ u.pc = BitVec.ofNat 64 (q 0) ∧ u.mode = .u ∧
            u.enclave = some id ∧ u.getX 2 = BitVec.ofNat 64 (q 1) ∧ (∀ r, r ≠ 2 → u.getX r = 0) ∧ u.f = [] ∧ u.fcsr = 0 ∧
            u.outside = some { pc := h.pc, mode := h.mode, x := h.x, f := h.f, fcsr := h.fcsr, rd := rd, save := BitVec.ofNat 64 (q 2) } ∧
            t.mem = s.mem) ∧
      (∀ area, good → lineBad s d 64 = false → writable = true →
        agentReadVa s id (q 2) 576 = some area → bit (ofBytes (area.take 8)) 0 = true →
          ∃ t u, exec (.encEnter rd a b) s = .next t ∧ hartOf t n = some u ∧ u.enclave = some id ∧ u.mode = .u ∧
            u.pc = BitVec.ofNat 64 (ofBytes ((area.drop 8).take 8)) ∧
            (∀ r : BitVec 5, r ≠ 0 → u.getX r = BitVec.ofNat 64 (ofBytes ((area.drop (0x10 + 8 * (r.toNat - 1))).take 8))) ∧
            (∀ j, j < 32 → Tab.getD u.f j 0 = BitVec.ofNat 64 (ofBytes ((area.drop (0x108 + 8 * j)).take 8))) ∧
            u.fcsr = BitVec.ofNat 32 (ofBytes ((area.drop 0x208).take 4)))) ∧
    (∀ e o, h.enclave = some e → h.outside = some o →
      (HartRuns s n h → ∃ t u, exec .encExit s = .next t ∧ hartOf t n = some u ∧ u.pc = o.pc + 4 ∧ u.mode = o.mode ∧
        u.enclave = none ∧ u.outside = none ∧ u.getX o.rd = 0 ∧ (∀ r, r ≠ 0 → r ≠ o.rd → u.getX r = Tab.getD o.x r.toNat 0) ∧
        u.f = o.f ∧ u.fcsr = o.fcsr ∧ t.mem = s.mem) ∧
      (∀ cause, hartOf s n = some h → ∃ t u, exec (.enclaveAsyncExit n cause) s = .next t ∧ hartOf t n = some u ∧
        u = h.leave.trap (xcpt cause 0) ∧ u.enclave = none ∧ u.outside = none ∧ u.x = o.x ∧ u.f = o.f ∧ u.fcsr = o.fcsr ∧
        (Undelegated h o.mode cause → u.epc = o.pc ∧ u.cause = cause ∧ u.mode = .m ∧ u.prev = o.mode) ∧
        (¬ Undelegated h o.mode cause → o.mode.virt = false → u.csrOf csrSepc = o.pc.toNat ∧ u.csrOf csrScause = cause.toNat ∧ u.mode = h.super) ∧
        t.mem = (agentWriteVa s (.sill n) e o.save.toNat h.saveArea).1.mem)) ∧
    (∀ id attested, exec (.keyTransfer id attested) s = .next (match enclaveOf s id with
      | some e => if attested = true ∧ e.wrapped.isSome = true then logAppend s 0x08 id 3 (bodyWords [0, 2]) else s
      | none => s))

end Sys2Proof.Claims

/-- R295-R313, R326, R398-R400: enclave instructions raise illegal-instruction in a mode that may not run them; a failing one
writes its status and changes nothing else; creation, pages, sealing, unsealing and destruction have their effects; ENC.ENTER starts
or resumes an enclave, ENC.EXIT and an event restore the registers outside, the event with its save area stored. The exceptions of a hart
and their delegation are log entry 14's, the order of statuses and the KIND 8 records log entry 46's, the places of the items in a record's
body log entry 13's. -/
def Obligations.EnclaveInstructions : Prop :=
  Sys2Proof.Claims.EnclaveAdmission ∧ Sys2Proof.Claims.EnclaveStatuses ∧ Sys2Proof.Claims.EnclaveEffects ∧
    Sys2Proof.Claims.EnclaveModes

/-! ### Kick queues, the dispatcher, pre-emption -/

namespace Sys2Proof.Claims

/-- A kick queue of an enclave as it stands in a state. -/
def queueIn (s : State) (id q : Nat) : Option KickQueue := (enclaveOf s id).map fun e => e.queue q

/-- Writes of KQCFG and of KQDOOR's TAIL, and what a read gives back (R67, R68). -/
def KickRegisters : Prop :=
  ∀ (s : State) (id q : Nat) (e : Enclave) (v : DWord), enclaveOf s id = some e → q < 64 →
    let k := e.queue q
    let n := v.toNat
    (∃ t k', exec (.kqcfgWrite id q v) s = .next t ∧ queueIn t id q = some k' ∧ t.mem = s.mem ∧
      (∀ p, p ≠ q → queueIn t id p = queueIn s id p) ∧ (∀ j, j ≠ id → enclaveOf t j = enclaveOf s j) ∧
      (8 < bits n 11 8 ∨ (k.en = true ∧ k.head ≠ k.tail) → k' = k) ∧
      (bits n 11 8 ≤ 8 → (k.en = false ∨ k.head = k.tail) →
        k'.ring = bits n 63 12 ∧ k'.logd = bits n 11 8 ∧ k'.prio = bits n 7 6 ∧ k'.en = bit n 0 ∧
        k'.lasterr = k.lasterr ∧ k'.nref = k.nref ∧
        (bit n 0 = true ∧ k.en = false → k'.head = 0 ∧ k'.tail = 0) ∧
        (¬ (bit n 0 = true ∧ k.en = false) → k'.head = k.head ∧ k'.tail = k.tail) ∧
        bits (kickRead t id (16 * q) 8) 63 6 = bits n 63 6 ∧ bits (kickRead t id (16 * q) 8) 5 1 = 0 ∧
        bit (kickRead t id (16 * q) 8) 0 = bit n 0)) ∧
    (∃ t, exec (.kqdoorTailWrite id q v) s = .next t ∧ t.mem = s.mem ∧ (∀ p, p ≠ q → queueIn t id p = queueIn s id p) ∧
      queueIn t id q = some (if k.en = false ∨ 2 ^ k.logd < used (bits n 15 0) k.head then k else { k with tail := bits n 15 0 })) ∧
    (∀ off size, size ≠ 8 → kickRead s id off size = 0 ∧ kickWrite s id off size n = s) ∧
    (∀ off, 0x411 ≤ off → kickRead s id off 8 = 0 ∧ kickWrite s id off 8 n = s)

/-- The header at a queue's head: refused with its code, or accepted (R68, R71). -/
def HeadersAreChecked : Prop :=
  ∀ (s s' : State) (id q : Nat) (e : Enclave) (r : Option (List Byte)), enclaveOf s id = some e → headSlot s id (e.queue q) = (s', r) →
    let k := e.queue q
    let code := match r with
      | none => 4
      | some bs => headerCode s' id e bs
    (headerDue k = false → exec (.headerCheck id q) s = .next s) ∧
    (headerDue k = true → ∃ t k', exec (.headerCheck id q) s = .next t ∧ queueIn t id q = some k' ∧ k'.tail = k.tail ∧ t.mem = s'.mem ∧
      k'.head = (k.head + 1) % 65536 ∧
      (code ≠ 0 → k'.lasterr = code ∧ k'.nref = (k.nref + 1) % 256 ∧ k'.cur = none ∧ t.launches = s.launches) ∧
      (∀ bs, r = some bs → code = 0 → k'.lasterr = k.lasterr ∧ k'.nref = k.nref ∧ k'.cur = some s.launchSeq ∧
        Tab.get? t.launches s.launchSeq =
          some { enclave := id, queue := q, hdr := readHeader bs, next := 0, ended := 0, halted := false } ∧
        (readHeader bs).regs ∈ Set.Icc 1 768 ∧ (readHeader bs).hands ≤ 64 ∧ (readHeader bs).scratch ≤ 131072 ∧
        (readHeader bs).entry.toNat % 16 = 0 ∧ (readHeader bs).handler.toNat % 16 = 0 ∧ (readHeader bs).ctxt.toNat % 4096 = 0 ∧
        e.partmask.getLsbD (readHeader bs).part = true ∧ (readHeader bs).blockSize ≤ 1024 ∧ (readHeader bs).blockCount ≤ 64 ∧
        (∀ i, i < 6 → (readHeader bs).extents.getD i 0 ≤ 2 ^ (readHeader bs).widths.getD i 0)))

/-- Readiness, ageing and retirement of launches (R73-R75, R495). -/
def LaunchesAgeAndRetire : Prop :=
  ∀ (s : State) (l : Nat) (x : Launch) (e : Enclave), Tab.get? s.launches l = some x → enclaveOf s x.enclave = some e →
    let k := e.queue x.queue
    (k.cur = some l → ∃ t k', exec (.tokenReady l) s = .next t ∧ queueIn t x.enclave x.queue = some k' ∧
      (launchReady s x = true → k'.readySince = some (k.readySince.getD (dispatchCycle s)) ∧ k'.bonus = k.bonus) ∧
      (launchReady s x = false → k'.readySince = none ∧ k'.bonus = 0)) ∧
    (launchReady s x = true ↔
      (x.hdr.waita = 0 ∨ x.hdr.vala.toNat ≤ tokenValue s x.enclave x.hdr.waita.toNat) ∧
      (x.hdr.waitb = 0 ∨ x.hdr.valb.toNat ≤ tokenValue s x.enclave x.hdr.waitb.toNat)) ∧
    (∃ t k', exec (.priorityAge x.enclave x.queue) s = .next t ∧ queueIn t x.enclave x.queue = some k' ∧ k'.effective ≤ 3 ∧
      k'.bonus = k.bonus + (match k.readySince with
        | some r => if k.effective < 3 ∧ r + 65536 * (k.bonus + 1) ≤ dispatchCycle s then 1 else 0
        | none => 0)) ∧
    (x.ended < x.hdr.bentCount ∨ (∃ b ∈ Tab.values s.bents, b.launch = l) → exec (.launchRetire l) s = .next s) ∧
    (x.hdr.bentCount ≤ x.ended → launchBusy s l = false → x.halted = true ∨ x.hdr.signal = 0 →
      exec (.launchRetire l) s = .next { s with launches := Tab.erase s.launches l }) ∧
    (∀ s' p, x.hdr.bentCount ≤ x.ended → launchBusy s l = false → x.halted = false → x.hdr.signal ≠ 0 → p.device = false →
      touch s noCore x.enclave .write x.hdr.signal.toNat = (s', .ok p) →
        let pa := p.at x.hdr.signal.toNat
        ∃ t, exec (.launchRetire l) s = .next t ∧ Tab.get? t.launches l = none ∧
          Memory.num t.mem pa 8 = (Memory.num s'.mem pa 8 + 1) % 2 ^ 64 ∧ SameMemBut s' t pa 8)

/-- What a queue offers is what is served next: no queue has a higher effective priority, nor one of the same that comes earlier in turn (R75). -/
def Served (s : State) (x : Nat × Nat × Nat × Machine.Group × List Plan) : Prop :=
  x ∈ servable s ∧ ∀ y ∈ servable s, y.1 ≤ x.1 ∧ (y.1 = x.1 → turnKey s x.1 x.2.1 x.2.2.1 ≤ turnKey s y.1 y.2.1 y.2.2.1)

/-- What is served is placed: saved bents are given their resume, or the next bents of a launch stand at the places found for them. -/
def Dispatched (s t : State) (g : Machine.Group) (ps : List Plan) : Prop :=
  match g with
  | .resume _ ts => t.bents = s.bents ∧ t.threads = s.threads ∧ t.saved = s.saved ∧ (∀ r, ts.head? = some r → t.pending = .bentResume r :: s.pending)
  | .fresh n os => ∀ l, Tab.get? s.launches n = some l → l.hdr.ctxt = 0 → s.tickets < 2 ^ 32 →
      s.bents.length + s.saved.length + os.length + 2 ≤ 2 ^ 31 →
      Tab.get? t.launches n = some { l with next := l.next + os.length } ∧
        (∀ o p, (o, p) ∈ os.zip ps → ∃ ticket b, bentOf s ticket = none ∧ bentOf t ticket = some b ∧ b.launch = n ∧ b.order = o ∧
          b.cluster = p.cluster ∧ b.c0 = p.c0 ∧ Tab.values b.blocks = p.blocks) ∧
        ∀ k b, bentOf s k = some b → bentOf t k = some b

/-- A bent placed: its ticket, its place in the grid and its threads at their start (R35-R42, R75, R309). -/
def BentsArePlaced : Prop :=
  (∀ (s : State) (t : Nat), s.bents.length + s.saved.length + 2 ≤ 2 ^ 32 →
    let n := drawTicket s (2 * s.bents.length + s.saved.length + 2) t
    n ≠ 0 ∧ n < 2 ^ 32 ∧ liveTicket s n = false) ∧
  (∀ (h : Header) (n : Nat), n < h.bentCount →
    let e (i : Nat) := h.extents.getD i 1
    let f (i : Nat) := (upperFields h n).getD i 0
    f 0 < e 2 ∧ f 1 < e 3 ∧ f 2 < e 4 ∧ f 3 < e 5 ∧ n = f 0 + e 2 * (f 1 + e 3 * (f 2 + e 4 * f 3))) ∧
  (∀ (s : State) (n : Nat) (l : Launch) (order : Nat) (p : Plan), l.hdr.ctxt = 0 → s.tickets < 2 ^ 32 →
    s.bents.length + s.saved.length + 2 ≤ 2 ^ 32 → (∀ k v, (k, v) ∈ s.threads → k < s.threadSeq) →
    let t := placeBent s n l order p
    ∃ ticket b, bentOf s ticket = none ∧ bentOf t ticket = some b ∧ ticket ≠ 0 ∧ b.launch = n ∧ b.order = order ∧
      b.cluster = p.cluster ∧ b.c0 = p.c0 ∧ b.request = none ∧ Tab.values b.blocks = p.blocks ∧
      (∀ a, (∀ k ∈ p.blocks, ¬ DirtyBelow s k.core a) → Memory.read t.mem a = Memory.read s.mem a) ∧
      (∀ k v, threadOf s k = some v → threadOf t k = some v) ∧
      ∀ i tix, i < p.blocks.length → tix < l.hdr.blockSize → ∃ k v, threadOf t k = some v ∧ v.bent = ticket ∧ v.block = i ∧
        v.fields = tix :: i :: upperFields l.hdr order ∧ v.pc = l.hdr.entry ∧ v.seed = l.hdr.seed ∧ v.n = l.hdr.regs ∧ v.regs = [] ∧
        v.masks = 1 ∧ v.stack = [] ∧ v.lane = tix % 4 ∧ v.status = .running ∧ v.trapActive = false ∧ v.tdst = tdstNone) ∧
  (∀ s : State, (dispatchCycle s < s.lastPlaced ∨ servable s = [] → exec .dispatchDecision s = .next s) ∧
    ((∀ x ∈ servable s, x.2.1 < 65536 ∧ x.2.2.1 < 64) → s.lastPlaced ≤ dispatchCycle s → servable s ≠ [] →
      ∃ x t, Served s x ∧ exec .dispatchDecision s = .next t ∧ t.lastPlaced = dispatchCycle s + 8 ∧ Dispatched s t x.2.2.2.1 x.2.2.2.2))

/-- The bytes of a record: its header, the state sealed under the enclave's key with the record's nonce, and the tag (R88, R291). -/
def SealedAs (s : State) (l : Launch) (r : SaveRec) : Prop :=
  ∃ e, enclaveOf s l.enclave = some e ∧ r.enclave = l.enclave ∧
    let hdr := r.header (r.plain l.hdr).length
    let x := Config.gcmSeal (enclaveKey s e) r.nonce hdr (r.plain l.hdr)
    r.image = hdr ++ x.1 ++ toBytes 16 x.2.toNat

/-- Pre-emption requests, saves and resumes (R83-R89, R290-R292). -/
def BentsAreSavedAndResumed : Prop :=
  (∀ (s : State) (ticket : Nat) (b : Bent), bentOf s ticket = some b →
    (b.request.isSome = true → exec (.preemptRequest ticket) s = .next s) ∧
    (b.request = none → mayStop s ticket = false → ∃ t, exec (.preemptRequest ticket) s = .next t ∧
      bentOf t ticket = some { b with asked := true } ∧ t.threads = s.threads) ∧
    (b.request = none → mayStop s ticket = true → ∃ t, exec (.preemptRequest ticket) s = .next t ∧ t.mem = s.mem ∧
      (∀ k c, k ∈ stopGroup s ticket → bentOf s k = some c → c.request = none →
        ∃ p, bentOf t k = some { c with request := some s.time, state := .draining, asked := false, room := some p }) ∧
      ∀ k v, threadOf s k = some v →
        (v.bent ∉ stopGroup s ticket → threadOf t k = some v) ∧
        (v.bent ∈ stopGroup s ticket → v.control = false → ∀ i, v.status = .bar i →
          threadOf t k = some { v with status := .stopped (some i) }) ∧
        (v.bent ∈ stopGroup s ticket → v.control = false → (∀ i, v.status ≠ .bar i) → threadOf t k = some v))) ∧
  (∀ (s : State) (ticket : Nat) (b : Bent) (l : Launch), bentOf s ticket = some b → launchOfBent s ticket = some l →
    (enclaveOf s l.enclave).isSome = true → saveTableRoom s = true → hasPlace s ticket b l = true → drained s ticket b = true →
    (b.request.isSome = true → b.full = false → allAtPoints s l ticket = true →
      ∃ t r, exec (.mappedSave ticket) s = .next t ∧ bentOf t ticket = none ∧ r ∈ t.saved ∧ r.ticket = ticket ∧ r.full = false ∧
        SealedAs s l r ∧
        (ticket, r.counter) ∈ t.root.saves ∧ (∀ k v, threadOf t k = some v → v.bent ≠ ticket) ∧
        ∀ k v e, threadOf s k = some v → v.bent = ticket → v.control = false → (stopPoint v).bind (liveEntry s l) = some e →
          ∃ u, Tab.get? r.threads k = some u ∧ u.pc = v.pc ∧ u.stack = v.stack ∧ u.fpsr = v.fpsr ∧ u.seed = v.seed ∧
            (∀ n, n < 768 → regVal u n = regVal v n &&& BitVec.ofNat 32 (savedMask e n)) ∧
            ∀ m, 1 ≤ m → m < 16 → maskBit u m = (maskBit v m && bit e.masks m)) ∧
    (fullDue s l ticket b = true → (∀ v ∈ liveThreads s ticket, v.status ≠ .running) →
      ∃ t r, exec (.fullSave ticket) s = .next t ∧ bentOf t ticket = none ∧ r ∈ t.saved ∧ r.ticket = ticket ∧ r.full = true ∧
        SealedAs s l r ∧
        (ticket, r.counter) ∈ t.root.saves ∧ (∀ k v, threadOf t k = some v → v.bent ≠ ticket) ∧
        ∀ k v, threadOf s k = some v → v.bent = ticket → v.control = false → ∃ u, Tab.get? r.threads k = some u ∧ u.regs = v.regs ∧
          u.masks = v.masks ∧ u.stack = v.stack ∧ u.spill = v.spill ∧ u.guards = v.guards ∧
          (¬ (v.status = .held ∧ v.handMode = true) → u.pc = v.pc ∧ u.hctx = v.hctx ∧ u.raise = v.raise) ∧
          ∀ y, v.status = .held → v.handMode = true → v.raise = some y → u.pc = y.entry ∧ u.hctx.iter = none ∧ u.hctx.buf = [] ∧
            u.raise = some { y with pool := v.hctx.iter.toList ++ y.pool }) ∧
    (fullDue s l ticket b = false → exec (.fullSave ticket) s = .next s)) ∧
  (∀ (s : State) (ticket : Nat) (r : SaveRec) (l : Launch) (p : Plan), (s.saved.find? fun r => r.ticket == ticket) = some r →
    Tab.get? s.launches r.bent.launch = some l →
    (mayResume s r = false → exec (.bentResume ticket) s = .next s) ∧
    (mayResume s r = true → resumeSet s r = [r] → planAll s r.bent.launch l.hdr [r.bent.order] = some [p] →
      (∀ k v, (k, v) ∈ r.threads → threadOf s k = none ∧ (v.status = .running ∨ ∃ i, v.status = .stopped i)) →
        ∃ t, exec (.bentResume ticket) s = .next t ∧ (∀ c, (ticket, c) ∉ t.root.saves) ∧ t.saved = s.saved.erase r ∧
          (acceptRecord s r = true → ∃ b, bentOf t ticket = some b ∧ b.cluster = p.cluster ∧ b.c0 = p.c0 ∧ b.request = none ∧
            b.placement = r.bent.placement + 1 ∧
            ∀ i j k v old, (r.threads.map Prod.fst).Nodup → (k, v) ∈ r.threads → v.control = false → r.bent.blocks[j]? = some (i, old) →
              j < p.blocks.length → old.ended = false → v.block = i → ∃ u, threadOf t k = some u ∧ u.pc = v.pc ∧ u.regs = v.regs ∧
                u.masks = v.masks ∧ u.stack = v.stack ∧ u.fpsr = v.fpsr ∧ u.seed = v.seed ∧ u.status = .running ∧ u.bent = v.bent) ∧
          (acceptRecord s r = false → (r.enclave, r.place, r.size) ∈ t.rejected ∧
            ∃ m, Tab.get? t.launches r.bent.launch = some m ∧ m.halted = true ∧ m.ended = l.ended + 1)))

end Sys2Proof.Claims

/-- R35-R43, R67-R76, R83-R89, R290-R292, R309, R495: kick queues, header checks, tokens and ages, placement, retirement, and
pre-emption with its saves and resumes. HEAD's advance at acceptance is log entry 42's, a token that falls back log entry 59's, the size,
items and verification of a save record log entries 11, 12 and 16's, and the saves of a group of bents log entry 44's. -/
def Obligations.KickQueuesAndDispatch : Prop :=
  Sys2Proof.Claims.KickRegisters ∧ Sys2Proof.Claims.HeadersAreChecked ∧ Sys2Proof.Claims.LaunchesAgeAndRetire ∧
    Sys2Proof.Claims.BentsArePlaced ∧ Sys2Proof.Claims.BentsAreSavedAndResumed

/-! ### Bays, issue, power, translations, retention -/

namespace Sys2Proof.Claims

/-- The planer's bundles and the issue of a bay (R46, R79-R81). -/
def BundlesAndIssue : Prop :=
  ∀ (s : State) (bay : Nat),
    let b := bayState s bay
    let cs := runnableIn s bay
    (arithCycles s (bay / 4) % 4 ≠ 0 → exec (.planerRegroup bay) s = .next s) ∧
    (arithCycles s (bay / 4) % 4 = 0 → ∃ t, exec (.planerRegroup bay) s = .next t ∧ { t with bays := s.bays } = s ∧
      (∀ k, k ≠ bay → bayState t k = bayState s k) ∧ (bayState t bay).issued = b.issued ∧
      (∀ x ∈ (bayState t bay).bundles, x.members.length ≤ 64 ∧ ∀ m ∈ x.members, ∃ c ∈ cs, c.who = m ∧ c.pc = x.pc) ∧
      (b.forced = [] → (∀ d ∈ cs, d.slot < 8 ∧ d.lane < 4) → ∀ c ∈ cs, c.slice < 32 → (∀ d ∈ cs, d.slice = c.slice → d.who ≠ c.who → c.pc.toNat < d.pc.toNat) →
        ∃ x ∈ (bayState t bay).bundles, c.who ∈ x.members)) ∧
    (∀ sl x, (∀ c ∈ cs, c.slot < 8 ∧ c.lane < 4) → sliceIssue [] cs sl = some x →
      (∀ c ∈ cs, c.slice = sl → x.1.toNat ≤ c.pc.toNat) ∧
      (∀ c ∈ x.2.2, c ∈ cs ∧ c.slice = sl ∧ c.pc = x.1 ∧ c.launch = x.2.1) ∧ x.2.2.Pairwise (fun c d => c.lane < d.lane) ∧
      ∀ c ∈ x.2.2, ∀ d ∈ cs, d.slice = sl → d.lane = c.lane → d.pc = x.1 → d.launch = x.2.1 → c.slot ≤ d.slot) ∧
    (let xs := b.bundles.flatMap (refresh cs)
     let credit := (clusterOfPkg s (bay / 64)).credit
     let out := chosen credit (issueOrder b cs xs)
     let issued := out.flatMap (·.members)
     out.length ≤ 2 ∧ (∀ x y, out = [x, y] → x.members.length + y.members.length ≤ 128) ∧
       (out ≠ [] → ((out.map (·.members.length)).sum : Int) ≤ credit) ∧
       (b.hold = powerWindow s + 1 ∨ (xs ≠ [] ∧ out = []) →
         exec (.issueSelect bay) s = .next (setBay s bay { b with bundles := xs, hold := powerWindow s + 1 })) ∧
       (b.hold ≠ powerWindow s + 1 → xs = [] ∨ out ≠ [] → ∃ t, exec (.issueSelect bay) s = .next t ∧ t.issue = s.issue ++ out.map (inWidOrder cs) ∧ t.mem = s.mem ∧
         (clusterOfPkg t (bay / 64)).credit = credit - (issued.length : Nat) ∧
         (∀ k, k ≠ bay / 64 → clusterOfPkg t k = clusterOfPkg s k) ∧
         (∀ w ∈ issued, w ∉ (bayState t bay).forced) ∧
         ∀ k v, threadOf s k = some v → ∃ u, threadOf t k = some u ∧ { u with age := v.age, raise := v.raise } = v ∧
           u.age = (if Who.thread k ∈ issued then 0 else if (∃ c ∈ cs, c.who = .thread k) then v.age + 1 else v.age))) ∧
    (∃ t, exec (.starvationForce bay) s = .next t ∧ { t with bays := s.bays } = s ∧ (bayState t bay).bundles = b.bundles ∧
      (∀ w ∈ b.forced, w ∈ (bayState t bay).forced) ∧
      (∀ w ∈ (bayState t bay).forced, w ∈ b.forced ∨ ∃ c ∈ cs, c.who = w ∧ 128 ≤ c.age) ∧
      ∀ c ∈ cs, c.slice < 32 → 128 ≤ c.age → c.age < 2 ^ 64 → (∀ d ∈ cs, d.slice = c.slice → d.who ≠ c.who → d.age < c.age) →
        c.who ∈ (bayState t bay).forced)

/-- The power controller and its budget (R30, R31, R358). -/
def PowerIsMetered : Prop :=
  ∀ (s : State) (k : Nat), k < 40 →
    let n := if (Tab.getD s.tstat (k / 10) { temp := 0, throt := false, trip := false }).throt = true then 20
      else (clusterOfPkg s k).budget
    (s.time % 64 ≠ 0 → exec (.powerWindow k) s = .next s) ∧
    (s.time % 64 = 0 → ∃ t, exec (.powerWindow k) s = .next t ∧ { t with clusters := s.clusters } = s ∧
      (∀ j, j ≠ k → clusterOfPkg t j = clusterOfPkg s j) ∧
      clusterOfPkg t k = { clusterOfPkg s k with inForce := n, credit := 65536 * (n : Int) + min 0 (clusterOfPkg s k).credit }) ∧
    (∀ src v, ∃ t, exec (.clbudgetWrite src k v) s = .next t ∧ (∀ j, j ≠ k → clusterOfPkg t j = clusterOfPkg s j) ∧
      clusterOfPkg t k = (if accepts s src v.toNat (.clbudget k) = true ∧ 20 ≤ v.toNat % 32 ∧ v.toNat % 32 ≤ 28 then
        { clusterOfPkg s k with budget := v.toNat % 32 } else clusterOfPkg s k))

/-- Translations kept and removed; demand-zero pages; retention; poisoned lines (R193, R215, R216, R220, R287). -/
def TranslationsAndLines : Prop :=
  ∀ (s : State) (enclave : Nat) (va : DWord),
    (∀ core, ∃ t, exec (.tlbMissWalk core enclave va) s = .next t ∧
      { t with tlb := s.tlb, tlb2 := s.tlb2, walks := s.walks, l2 := s.l2, ms := s.ms, hbm := s.hbm, sliceRegs := s.sliceRegs,
               dirtyMaps := s.dirtyMaps, draws := s.draws } = s ∧
      ∀ a, translate t core enclave a va.toNat = translate s core enclave a va.toNat) ∧
    (translationInUse s enclave va.toNat = true →
      exec (.tlbInvalidate enclave va) s = .next { s with waits := s.waits ++ [.tlbInvalidate enclave va] }) ∧
    (translationInUse s enclave va.toNat = false → ∃ t, exec (.tlbInvalidate enclave va) s = .next t ∧
      { t with tlb := s.tlb, tlb2 := s.tlb2, walks := s.walks } = s ∧ (∀ x ∈ t.walks, x.enclave ≠ enclave) ∧
      (∀ x ∈ t.tlb ++ t.tlb2, x.covers enclave va.toNat = false) ∧
      (∀ x ∈ s.tlb, x.enclave ≠ enclave → x ∈ t.tlb) ∧ ∀ x ∈ s.tlb2, x.enclave ≠ enclave → x ∈ t.tlb2) ∧
    (∀ e w f rest, enclaveOf s enclave = some e → (walk s.mem va.toNat tableLevels e.root).getLast? = some w → e.stack = f :: rest →
      (w.demandZero = false → exec (.demandZeroFill enclave va) s = .next s) ∧
      (w.demandZero = true → w.addr / 65536 ≠ f → (w.addr + 7) / 65536 ≠ f → ∃ t e', exec (.demandZeroFill enclave va) s = .next t ∧
        enclaveOf t enclave = some e' ∧ e'.stack = rest ∧ Memory.num t.mem w.addr 8 = (64 * f + 7) % 2 ^ 64 ∧
        Tab.get? t.pot f = some { owner := enclave, slot := e.slot.getD 0, type := 1, rstr := false } ∧
        (∀ k, k < 65536 → Memory.read t.mem (65536 * f + k) = 0) ∧
        ∀ a, a / 65536 ≠ f → ¬ (w.addr ≤ a ∧ a < w.addr + 8) → Memory.read t.mem a = Memory.read s.mem a)) ∧
    (∀ core bay, overfull s (cacheOf s core) bay = false → exec (.retentionOverflow core bay) s = .next s) ∧
    (∀ core bay, overfull s (cacheOf s core) bay = true →
      let cache := cacheOf s core
      let owner := ((onChip s cache bay).head?.map fun r => (potOf s (r.line * 128)).owner).getD 0
      (overflowTo cache bay owner (excess s cache bay) s = none → exec (.retentionOverflow core bay) s = .next s) ∧
      ∀ t, overflowTo cache bay owner (excess s cache bay) s = some t →
        exec (.retentionOverflow core bay) s = .next t ∧ overfull t cache bay = false ∧
          t.retained.map (fun r => { r with page := none }) = s.retained.map (fun r => { r with page := none })) ∧
    (∀ line mac, line * 128 < Config.hbmBytes → (∀ e, enclaveOf s (potOf s (line * 128)).owner = some e → line / 512 ∉ e.stack) → ∃ t, exec (.integrityHalt none line mac) s = .next t ∧
      (sideOf t line).poison = (if mac = true then 0x29 else 0x28) ∧ poisoned t (line * 128) = true ∧
      readHome t (line * 128) 1 = .poison line ∧ t.bents = s.bents ∧ t.threads = s.threads)

end Sys2Proof.Claims

/-- R30, R31, R46, R79-R81, R193, R215, R216, R220, R287, R358: bundles, issue and starvation of a bay; its cluster's power budget;
translations, demand-zero pages, retention pages and poisoned lines. That power windows start at the multiples of 64 of the package's time,
and when a new bundle counts as last issued, is log entry 60's; the launch of an issue set log entry 41's; the events of an integrity failure
and their error records log entries 20 and 36's. -/
def Obligations.BaysIssueAndCaches : Prop :=
  Sys2Proof.Claims.BundlesAndIssue ∧ Sys2Proof.Claims.PowerIsMetered ∧ Sys2Proof.Claims.TranslationsAndLines

/-! ### Attestation, egress, streams, interfaces -/

/-- R317, R319, R320, R337, R338: the root answers SPDM requests in their order, version, capabilities, algorithms, and those of an
open session in one alone; attestations are logged; a report tells of its enclave, or that it is absent; a checkpoint key is
installed over an open session. The response codes and the order checks are those of the SPDM standard (log entry 17). -/
def Obligations.AttestationRequests : Prop :=
  ∀ s : State,
    let err (e : Nat) : Result := .next (reply s 0x7F (toBytes 1 e))
    let p := s.spdm
    (exec .getVersion s = .next { s with spdm := { version := true, caps := false, algs := false, session := 0, report := none, peerAuth := 0,
                                                   peers := p.peers, ide := p.ide, asked := p.asked, replies := p.replies ++ [(0x04, [0x12, 0x13])] } }) ∧
    (p.version = false → exec .getCapabilities s = err 4) ∧
    (p.version = true → ∃ t, exec .getCapabilities s = .next t ∧ t.spdm.caps = true ∧ t.spdm.replies = p.replies ++ [(0x61, [])] ∧
      t.mem = s.mem) ∧
    (∀ a o, (p.caps = false → exec (.negotiateAlgorithms a o) s = err 4) ∧
      (p.caps = true → (a && o.sm3 && o.dhe && o.aead) = false → exec (.negotiateAlgorithms a o) s = err 1)) ∧
    (p.caps = true → ∃ t, exec (.negotiateAlgorithms true ⟨true, true, true⟩) s = .next t ∧ t.spdm.algs = true ∧
      t.spdm.replies = p.replies ++ [(0x63, [])] ∧ t.mem = s.mem) ∧
    (scrubbed s = false → ∀ k e n, exec (.challenge k n) s = .next s ∧ exec (.getMeasurements k n) s = .next s ∧
      exec (.vendorDefinedRequest e n none) s = .next s) ∧
    (p.algs = false → exec .getDigests s = err 4 ∧ exec .keyExchange s = err 4 ∧
      ∀ k n, exec (.getCertificate k) s = err 4 ∧ (scrubbed s = true → exec (.challenge k n) s = err 4 ∧ exec (.getMeasurements k n) s = err 4)) ∧
    (p.algs = true →
      (∃ t, exec .getDigests s = .next t ∧ t.spdm.replies =
        p.replies ++ [(0x01, digestBytes (Config.sm3 (Config.certificate 0)) ++ digestBytes (Config.sm3 (Config.certificate 1)))]) ∧
      (∀ k, 2 ≤ k → exec (.getCertificate k) s = err 1 ∧ (scrubbed s = true → ∀ n, exec (.challenge k n) s = err 1)) ∧
      (∀ k, k < 2 → exec (.getCertificate k) s = .next (reply s 0x02 (Config.certificate k))) ∧
      (scrubbed s = true → ∀ k n, k < 2 → ∃ t body, exec (.challenge k n) s = .next t ∧ t.spdm.replies = p.replies ++ [(0x03, body)] ∧
        body.length = 96 ∧ t.root.seq ≠ s.root.seq ∧ t.mem = s.mem) ∧
      (scrubbed s = true → ∀ k n, k = 0 ∨ 4 < k → exec (.getMeasurements k n) s = err 1) ∧
      (scrubbed s = true → ∀ k n, 1 ≤ k → k ≤ 4 → ∃ t body, exec (.getMeasurements k n) s = .next t ∧ t.spdm.replies = p.replies ++ [(0x60, body)] ∧
        body.take 32 = digestBytes (if k = 3 then Config.sm3 Config.bootImage else Config.measurement k) ∧ t.root.seq ≠ s.root.seq ∧
        t.mem = s.mem) ∧
      ∃ t, exec .keyExchange s = .next t ∧ t.spdm.session = 1 ∧ t.spdm.report = none ∧
        t.spdm.peerAuth = (if Config.choose s.draws = true then 1 else 0) ∧ t.mem = s.mem) ∧
    (∀ ok, (p.session ≠ 1 ∨ p.peerAuth = 1 ∨ p.peerAuth = 2 → exec (.finish ok) s = err 4) ∧
      (p.session = 1 → p.peerAuth ≠ 1 → p.peerAuth ≠ 2 → ∃ t, exec (.finish ok) s = .next t ∧ t.spdm.session = (if ok = true then 2 else 0))) ∧
    (p.session ≠ 2 → exec .heartbeat s = err 4 ∧ exec .keyUpdate s = err 4 ∧ exec .endSession s = err 4 ∧
      ∀ e n k, exec (.vendorDefinedRequest e n (some k)) s = err 4) ∧
    (p.session = 2 → exec .heartbeat s = .next (reply s 0x68 []) ∧ exec .keyUpdate s = .next (reply s 0x69 []) ∧
      (∃ t, exec .endSession s = .next t ∧ t.spdm.session = 0) ∧
      (∀ e n k, p.report ≠ some e → exec (.vendorDefinedRequest e n (some k)) s = err 4) ∧
      ∀ e n k x, enclaveOf s e = some x → p.report = some e → ∃ t, exec (.vendorDefinedRequest e n (some k)) s = .next t ∧
        enclaveOf t e = some { x with ckpt := some k }) ∧
    (scrubbed s = true → ∀ e n, ∃ t body, exec (.vendorDefinedRequest e n none) s = .next t ∧ t.spdm.replies = p.replies ++ [(0x7E, body)] ∧
      t.root.seq ≠ s.root.seq ∧ t.mem = s.mem ∧ t.enclaves = s.enclaves ∧
      t.spdm.report = (if p.session = 2 ∧ (enclaveOf s e).isSome = true then some e else p.report) ∧ body.take 2 = toBytes 2 e ∧
      (enclaveOf s e = none → body.drop 2 = toBytes 1 0 ++ digestBytes n ++ body.drop 35) ∧
      (∀ x, enclaveOf s e = some x → (body.drop 3).take 32 = digestBytes x.imgroot)) ∧
    (p.peerAuth = 1 → ∃ t, exec (.unsupportedRequest 0xEA) s = .next t ∧ t.spdm.peerAuth = 2 ∧ t.spdm.asked = p.asked ++ [0x82] ∧
      t.spdm.replies = p.replies ++ [(0x6A, [0x82])]) ∧
    (p.peerAuth = 2 → ∃ t, exec (.unsupportedRequest 0xEB) s = .next t ∧ t.spdm.peerAuth = (if Config.choose s.draws = true then 3 else 1)) ∧
    (∀ c, ¬ (c = 0xEA ∧ p.peerAuth = 1) → ¬ (c = 0xEB ∧ p.peerAuth = 2) →
      exec (.unsupportedRequest c) s = .next (reply s 0x7F (toBytes 1 7 ++ toBytes 1 c)))

namespace Sys2Proof.Claims

/-- The egress governors, whose windows start on their own counters (R5, R314-R316). -/
def EgressIsMetered : Prop :=
  ∀ (s : State) (gov id : Nat), gov < 2 → id < 65536 →
    let e := egressOf s gov id
    (∀ n i, ioAllowed s id i = false → exec (.egressTransfer gov ⟨id, i⟩ n) s = .next s) ∧
    (∀ n i, ioAllowed s id i = true → restricted s id = false → ∃ t, exec (.egressTransfer gov ⟨id, i⟩ n) s = .next t ∧
      { t with requests := s.requests, spdm := s.spdm } = s ∧ (i = none → t.spdm = s.spdm)) ∧
    (∀ n k key, ioAllowed s id (some k) = true → Tab.get? s.spdm.ide k = some key → ∃ t, exec (.egressTransfer gov ⟨id, some k⟩ n) s = .next t ∧
      Tab.get? t.spdm.ide k = some { key with sent := key.sent + 1 }) ∧
    (∀ n i, ioAllowed s id i = true → restricted s id = true → ∃ t, exec (.egressTransfer gov ⟨id, i⟩ n) s = .next t ∧
      (i.isSome = true → t.requests = s.requests) ∧
      (∀ g j, (g, j) ≠ (gov, id) → g < 2 → j < 65536 → egressOf t g j = egressOf s g j) ∧
      let u := egressOf t gov id
      u.remaining + u.bytes = e.remaining + e.bytes ∧ u.bytes + u.waiting.sum = e.bytes + e.waiting.sum + (n + 63) / 64 * 64 ∧
        (u.waiting ≠ [] → u.remaining = 0 ∧ u.stalled = true) ∧ u.budget = e.budget ∧ u.win = e.win ∧ u.stalls = e.stalls) ∧
    ((s.time - lagOf s (governorUnit gov)) % (8 * 2 ^ e.win) ≠ 0 → exec (.egressWindow gov id) s = .next s) ∧
    ((s.time - lagOf s (governorUnit gov)) % (8 * 2 ^ e.win) = 0 → ∃ t, exec (.egressWindow gov id) s = .next t ∧
      let u := egressOf t gov id
      (u.budget, u.win) = e.next.getD (e.budget, e.win) ∧ u.next = none ∧ u.remaining + u.bytes = u.budget * 4096 ∧
        u.bytes + u.waiting.sum = e.waiting.sum ∧ (u.waiting ≠ [] → u.remaining = 0 ∧ u.stalled = true) ∧
        u.stalls = (if e.stalled = true then min (2 ^ 32 - 1) (e.stalls + 1) else e.stalls) ∧
        (t.root.seq ≠ s.root.seq ↔ e.bytes ≠ 0 ∨ e.stalled = true)) ∧
    (∀ src v, ∃ t, exec (.egcfgWrite src gov id v) s = .next t ∧
      let u := egressOf t gov id
      let new := (bits v.toNat 63 40, bits v.toNat 39 35)
      let other := (egressOf s (1 - gov) id).next.getD ((egressOf s (1 - gov) id).budget, (egressOf s (1 - gov) id).win)
      u = (if accepts s src v.toNat (.egcfg gov id) = true ∧ 16 ≤ new.2 ∧
          (restricted s id = true → ∀ c, (enclaveOf s id).bind (·.cap) = some c →
            (new.1 * 4096 * 10 ^ 8) * 2 ^ other.2 + (other.1 * 4096 * 10 ^ 8) * 2 ^ new.2 ≤ c * 2 ^ (new.2 + other.2))
        then { e with next := some new } else e))

/-- Streams, device interfaces and I/O agents (R250, R307, R321, R322, R333, R352): what an interface writes to an enclave comes sealed on its
IDE stream. The session that the two roots key a stream from, the
port that carries it, the form of its frames and the moves of an interface are log entry 18's. -/
def StreamsAndInterfaces : Prop :=
  ∀ s : State,
    (∀ k e p pe a b, ∃ t, exec (.dreushStreamOpen k e p pe a b) s = .next t ∧
      { t with streams := s.streams, draws := s.draws, spdm := s.spdm } = s ∧
      let opens := (s.mgmt.state = stReady ∨ s.mgmt.state = stLinks) ∧ a = true ∧ b = true ∧ (enclaveOf s e).isSome = true ∧
        Tab.get? s.streams k = none
      (¬ opens → t = s) ∧
      (opens → Tab.get? s.spdm.peers p = none → Config.choose s.draws = false →
        t.streams = s.streams ∧ t.spdm.peers = s.spdm.peers ∧ t.spdm.asked = s.spdm.asked ++ rootRequests) ∧
      (opens → ((Tab.get? s.spdm.peers p).isSome = true ∨ Config.choose s.draws = true) → ∃ port secret, port < 18 ∧
        Tab.get? t.spdm.peers p = some secret ∧ (∀ old, Tab.get? s.spdm.peers p = some old → secret = old) ∧
        (let a := 65536 * s.mgmt.pkid + e
         let b := 65536 * p + pe
         let key := Config.streamKey secret (min a b) (max a b)
         Tab.get? t.streams k = some ⟨port, e, p, pe, peerImage s p pe, key, 0, 0, 0, []⟩) ∧
        ∀ j, j ≠ k → Tab.get? t.streams j = Tab.get? s.streams j)) ∧
    (∀ k tag kind data, Tab.get? s.streams k = none → exec (.dreushFrameReceive k tag kind data) s = .next s) ∧
    (∀ k tag kind data x, Tab.get? s.streams k = some x → x.openFrame s kind data tag = none →
      ∃ t, exec (.dreushFrameReceive k tag kind data) s = .next t ∧ t.mem = s.mem ∧
        Tab.get? t.streams k = (if x.failures < 2 then some { x with failures := x.failures + 1 } else none) ∧
        (t.root.seq ≠ s.root.seq ↔ 2 ≤ x.failures)) ∧
    (∀ k tag kind data x bs, Tab.get? s.streams k = some x → x.openFrame s kind data tag = some bs →
      let s' := { s with streams := Tab.set s.streams k { x with got := x.got + 1, failures := 0 } }
      (∀ va, kind = .data va → exec (.dreushFrameReceive k tag kind data) s = .next (agentWriteVa s' .io x.enclave va.toNat bs).1) ∧
      (∀ e va, kind = .line va → enclaveOf s x.enclave = some e → exec (.dreushFrameReceive k tag kind data) s =
        .next (if e.imgroot = x.peerImg then receiveItem s' x.enclave (.line va.toNat bs) else s'))) ∧
    (∀ id va d p, translate s noCore id .read va = .ok p → p.device = false → p.fmt = 0 → va % 128 = 0 → d.length = 128 →
      Memory.bytes (receiveItem s id (.line va d)).mem (p.at va) 128 = d ∧ SameMemBut s (receiveItem s id (.line va d)) (p.at va) 128) ∧
    (∀ i e st, ∃ t, exec (.tdispStateChange i e st) s = .next t ∧ { t with tdisp := s.tdisp, draws := s.draws, spdm := s.spdm } = s ∧
      (Tab.get? t.tdisp i = some (e, .configLocked) → Tab.get? s.tdisp i ≠ some (e, .configLocked) → (Tab.get? t.spdm.ide i).isSome = true) ∧
      (t.tdisp ≠ s.tdisp → st = .configUnlocked ∨ st = .error → Tab.get? t.spdm.ide i = none) ∧
      (Tab.get? s.tdisp i = none → st = .run ∨ st = .error → t = s) ∧
      (∀ f now, Tab.get? s.tdisp i = some (f, now) → now ≠ .configUnlocked → f ≠ e → t = s) ∧
      (∀ f, Tab.get? s.tdisp i = some (f, .configLocked) → (enclaveOf s f).isSome = true → f = e → st = .run →
        Tab.get? t.tdisp i = some (f, .run))) ∧
    (∀ e i va data rec recData, linksUp s = false ∨ ifcFailed s i = true → exec (.ioWriteCompletion e i va data rec recData) s = .next s) ∧
    (∀ e i va data rec recData, e ≠ 0 → (∀ x, Tab.get? s.tdisp i = some x → x ≠ (e, .run)) →
      exec (.ioWriteCompletion e (some i) va data rec recData) s = .next s) ∧
    (∀ e ifc va data rec recData s1, linksUp s = true → ifcFailed s ifc = false → e ≠ 0 → ioAllowed s e ifc = true →
      (ideWrite s e ifc va data = (s1, true) →
        exec (.ioWriteCompletion e ifc va data rec recData) s = .next (ideWrite s1 e ifc rec recData).1) ∧
      (ideWrite s e ifc va data = (s1, false) → exec (.ioWriteCompletion e ifc va data rec recData) s = .next s1)) ∧
    (∀ e va data, ideWrite s e none va data = agentWriteVa s .io e va.toNat data) ∧
    (∀ e i va (data : List Byte) (tag : BitVec 128) key, Tab.get? s.spdm.ide i = some key →
      let opened := Config.gcmOpen key.key (2 * key.got) (frameHeader (.data va)) data tag
      let sealed := data ++ toBytes 16 tag.toNat
      (opened = none → ideWrite s e (some i) va sealed = (s, false)) ∧
      (∀ bs, opened = some bs → ideWrite s e (some i) va sealed =
        agentWriteVa { s with spdm := { s.spdm with ide := Tab.set s.spdm.ide i { key with got := key.got + 1 } } } .io e va.toNat bs)) ∧
    (∀ ifc va data rec recData, deviceOwned s va.toNat data.length = false →
      exec (.ioWriteCompletion 0 ifc va data rec recData) s = .next s)

end Sys2Proof.Claims

/-- R250, R314-R316, R321, R322, R352: the egress of restricted enclaves is metered and never lost; streams open, fail and
close; device interfaces move through their states and reach an enclave in RUN alone; a completion record follows its payload. -/
def Obligations.EgressStreamsAndInterfaces : Prop :=
  Sys2Proof.Claims.EgressIsMetered ∧ Sys2Proof.Claims.StreamsAndInterfaces

/-! ### Partitions, migration, checkpoints -/

namespace Sys2Proof.Claims

/-- Columns, partition registers, fill masks and gates (R199, R308, R327-R330). -/
def PartitionRegisters : Prop :=
  ∀ (s : State) (src : Source) (v : DWord),
    let n := v.toNat
    (∀ c, c < 160 → ∃ t, exec (.colownWrite src c v) s = .next t ∧ (∀ k, k ≠ c → Tab.getD t.colown k 0 = Tab.getD s.colown k 0) ∧
      (accepts s src n (.colown c) = false → t.colown = s.colown ∧ t.l1 = s.l1 ∧ t.bents = s.bents ∧ t.mem = s.mem) ∧
      (columnBusy s c = true → t.colown = s.colown ∧ t.l1 = s.l1) ∧
      (accepts s src n (.colown c) = true → columnBusy s c = false →
        Tab.getD t.colown c 0 = ofBool (bit n 0) + 256 * bits n 15 8 ∧
        (Tab.getD t.colown c 0 ≠ Tab.getD s.colown c 0 → (∀ x ∈ t.l1, inColumn c x = false) ∧
          (∀ x ∈ s.l1, inColumn c x = false → x.filled ≠ 0 → (∀ d ∈ x.dirty, d.2 ≠ 0) → x ∈ t.l1) ∧
          ∀ y ∈ t.bents, ∀ k ∈ y.2.blocks, pkgCluster k.2.core = c / 4 → ∀ a ∈ k.2.scratch, ∀ b, k.2.banks[a.1 / 16384]? = some b →
            b / 8 ≠ c % 4))) ∧
    (∀ p, p < 256 → ∃ t, exec (.pcfgWrite src p v) s = .next t ∧ (∀ k, k ≠ p → Tab.getD t.pcfg k (0, false) = Tab.getD s.pcfg k (0, false)) ∧
      Tab.getD t.pcfg p (0, false) =
        (if accepts s src n (.pcfg p) = true ∧
            (bit n 16 = true → ∀ x ∈ s.enclaves, x.2.partmask.getLsbD p = true → x.2.debug = true)
          then (n % 65536, bit n 16) else Tab.getD s.pcfg p (0, false))) ∧
    (∀ k p, k < 768 → p < 256 → accepts s src n (.wmask k p) = true → ∃ t, exec (.wmaskWrite src k p v) s = .next t ∧
      t.l2 = s.l2 ∧ t.mem = s.mem ∧
      (effective s k (n % 65536) = 0 → t.sliceRegs = s.sliceRegs) ∧
      (effective s k (n % 65536) ≠ 0 → Tab.getD (sliceOf t k).fill p 0xFFFF = BitVec.ofNat 16 n ∧
        Tab.getD (sliceOf t k).comp p false = bit n 16 ∧
        (∀ p', p' ≠ p → Tab.getD (sliceOf t k).fill p' 0xFFFF = Tab.getD (sliceOf s k).fill p' 0xFFFF) ∧
        ∀ k', k' ≠ k → sliceOf t k' = sliceOf s k')) ∧
    (∀ k, k < 768 → accepts s src n (.wgate k) = true → ∃ t, exec (.wgateWrite src k v) s = .next t ∧ t.mem = s.mem ∧
      (protectedWays s &&& (n % 65536) ≠ 0 → t.sliceRegs = s.sliceRegs ∧ t.l2 = s.l2) ∧
      ((sliceOf t k).gate ≠ (sliceOf s k).gate → (sliceOf t k).gate = BitVec.ofNat 16 n ∧
        (∀ p, fillMask t k p ≠ 0) ∧ ∀ l ∈ t.l2, l.slice = k → (sliceOf t k).gate.getLsbD l.way = false))

/-- No cache holds a line of some kind dirty. -/
def WrittenBack (t : State) (sel : Nat → Prop) : Prop :=
  (∀ x ∈ t.l1, sel x.line → x.dirty = []) ∧ (∀ x ∈ t.l2, sel x.line → x.dirty = false) ∧ ∀ x ∈ t.ms, sel x.line → x.dirty = false

/-- Dirty tracking and migration rounds (R333-R336). A round goes on line by line, each step's item leaving once its bytes have passed the
governor, and the frames have the model's own form (log entry 19); EN is taken before GO and FINAL (log entry 48). -/
def MigrationRounds : Prop :=
  ∀ (s : State) (src : Source) (v : DWord) (id : Nat) (e : Enclave), id < 65536 → enclaveOf s id = some e →
    let ok := accepts s src
    (ok 1 (.migctl id) = true → v &&& 1 = 1 → e.mig.en = false → ∃ t e',
      exec (.migctlEnWrite src id v) s = .next t ∧ enclaveOf t id = some e' ∧ e'.mig.en = true ∧ e'.mig.round = 0 ∧ t.mem = s.mem ∧
      (∀ f p, (f, p) ∈ s.pot → p.owner = id → p.type = 1 → p.rstr = false →
        ∃ d ∈ t.dirtyMaps, d.enclave = id ∧ d.frame = f ∧ d.map = BitVec.allOnes 512) ∧
      ∀ d ∈ t.dirtyMaps, d.enclave = id → d.map = BitVec.allOnes 512) ∧
    (ok 0 (.migctl id) = true → v &&& 1 = 0 → e.mig.en = true → ∃ t e',
      exec (.migctlEnWrite src id v) s = .next t ∧ enclaveOf t id = some e' ∧ e'.mig.en = false ∧ ∀ d ∈ t.dirtyMaps, d.enclave ≠ id) ∧
    (e.mig.busy = true ∨ e.mig.en = false ∨ (∀ k x, (k, x) ∈ s.streams → x.enclave = id → x.peerImg ≠ e.imgroot) →
      (∃ t, exec (.migctlGo src id v) s = .next t ∧ t.enclaves = s.enclaves ∧ t.dirtyMaps = s.dirtyMaps ∧ t.bents = s.bents) ∧
      ∃ t, exec (.migctlFinal src id v) s = .next t ∧ t.enclaves = s.enclaves ∧ t.dirtyMaps = s.dirtyMaps ∧ t.bents = s.bents) ∧
    (e.mig.busy = false → e.mig.en = true → (∃ k x, (k, x) ∈ s.streams ∧ x.enclave = id ∧ x.peerImg = e.imgroot) → v &&& 1 = 1 →
      (ok 3 (.migctl id) = true → ∃ t e', exec (.migctlGo src id v) s = .next t ∧ enclaveOf t id = some e' ∧ e'.mig.busy = true ∧
        e'.mig.final = false ∧ e'.mig.stage = 1 ∧ e'.mig.cursor = 0 ∧ e'.mig.dirty = markedLines s id ∧ e'.mig.round = e.mig.round ∧
        t.dirtyMaps = s.dirtyMaps ∧ t.bents = s.bents) ∧
      (ok 5 (.migctl id) = true → ∃ t e', exec (.migctlFinal src id v) s = .next t ∧ enclaveOf t id = some e' ∧ e'.mig.busy = true ∧
        e'.mig.final = true ∧ e'.mig.stage = 0 ∧ (∀ n h, hartOf t n = some h → h.outside.isSome = true → h.enclave ≠ some id) ∧
        ∀ k b, bentOf t k = some b → (launchOf t b).any (fun l => l.enclave == id) = true → b.request.isSome = true ∨ b.asked = true)) ∧
    (e.mig.busy = false ∨ streamOf s id e = none → exec (.migrationRoundDone id) s = .next s) ∧
    (∀ st, e.mig.busy = true → streamOf s id e = some st → st.2.enclave = id ∧ st.2.peerImg = e.imgroot) ∧
    (∀ st, e.mig.busy = true → streamOf s id e = some st → e.mig.out = none →
      (e.mig.stage = 0 → bentsOfEnclave s id ≠ [] → exec (.migrationRoundDone id) s = .next s) ∧
      (e.mig.stage = 0 → bentsOfEnclave s id = [] → ∃ t e', exec (.migrationRoundDone id) s = .next t ∧ enclaveOf t id = some e' ∧
        e'.mig.stage = 1 ∧ e'.mig.cursor = 0 ∧ e'.mig.busy = true ∧ WrittenBack t (fun line => line / 512 ∈ ownedFrames s id)) ∧
      (∀ va line, e.mig.stage = 1 → nextMarked s id e = some (va, line) → ∃ t e', exec (.migrationRoundDone id) s = .next t ∧
        enclaveOf t id = some e' ∧ e'.mig.busy = true ∧ e'.mig.stage = 1 ∧ e'.mig.cursor = va + 128 ∧ t.mem = s.mem ∧
        e'.mig.out = some (.line va (toBytes 128 (hbmData s line).toNat)) ∧ t.migrated = s.migrated ∧
        ∀ d ∈ t.dirtyMaps, d.enclave = id → d.frame = line / 512 → d.map.getLsbD (line % 512) = false) ∧
      (e.mig.stage = 1 → nextMarked s id e = none → ∃ t e', exec (.migrationRoundDone id) s = .next t ∧ enclaveOf t id = some e' ∧
        e'.mig.busy = true ∧ e'.mig.stage = 2 ∧ e'.mig.out = some (.pages e.mig.changes) ∧ e'.mig.changes = [] ∧ t.mem = s.mem ∧
        t.dirtyMaps = s.dirtyMaps) ∧
      (e.mig.stage = 2 → e.mig.final = false → ∃ t e', exec (.migrationRoundDone id) s = .next t ∧ enclaveOf t id = some e' ∧
        e'.mig.busy = false ∧ e'.mig.round = (e.mig.round + 1) % 65536 ∧ { t with enclaves := s.enclaves } = s) ∧
      (e.mig.stage = 2 → e.mig.final = true → ∃ t e', exec (.migrationRoundDone id) s = .next t ∧ enclaveOf t id = some e' ∧
        e'.mig.busy = true ∧ e'.mig.stage = 3 ∧ t.mem = s.mem ∧
        e'.mig.out = some (.records (s.saved.filter fun r => r.enclave == id) (s.launches.filter fun x => x.2.enclave == id) e.kq
          e.stack.length (restrictedVas s id e)))) ∧
    (∀ st i, e.mig.busy = true → streamOf s id e = some st → e.mig.out = some i →
      (passed s (dreushDie st.2.port) id = false → exec (.migrationRoundDone id) s = .next s) ∧
      (passed s (dreushDie st.2.port) id = true →
        let frame := Config.gcmSeal st.2.key (st.2.sendNonce s) (frameHeader i.kind) i.bytes
        let here : Prop := st.2.peer = s.mgmt.pkid ∧ ∃ d, enclaveOf s st.2.peerEnclave = some d
        ∃ t, exec (.migrationRoundDone id) s = .next t ∧
          t.migrated = s.migrated ++ [{ stream := st.1, item := i, sealed := frame.1, tag := frame.2 }] ∧
          (i.kind ≠ .records → ¬ here → t.mem = s.mem ∧ ∃ e', enclaveOf t id = some e' ∧ e' = { e with mig := { e.mig with out := none } } ∧
            Tab.get? t.streams st.1 = some { st.2 with sent := st.2.sent + 1 }) ∧
          (i.kind = .records → enclaveOf t id = none)))

/-- Checkpoints and their return (R337-R339). The form of an image and what its seal covers are log entry 49's. -/
def Checkpoints : Prop :=
  ∀ (s : State),
    (∀ src, s.mgmt.ckpt = false → (∀ p, src = .port p → s.mgmt.state ≠ stReady ∨ s.mgmt.semOwner ≠ p + 1 ∨ 2 ≤ p) →
      exec (.checkpoint src) s = .next s) ∧
    (∀ p, p < 2 → s.mgmt.ckpt = false → s.mgmt.state = stReady → s.mgmt.semOwner = p + 1 → ∃ t, exec (.checkpoint (.port p)) s = .next t ∧
      t.mgmt.ckpt = true ∧ servable t = [] ∧ t.mem = s.mem ∧
      ∀ k b, bentOf t k = some b → b.request.isSome = true ∨ b.asked = true) ∧
    (∀ src, s.mgmt.ckpt = true → s.mgmt.writing = true → ∃ t, exec (.checkpoint src) s = .next t ∧ t.images = s.images ∧ t.mem = s.mem ∧
      ((∀ x ∈ s.enclaves, passed s 0 x.1 = true ∧ passed s 1 x.1 = true) → t.mgmt.ckpt = false ∧ t.mgmt.writing = false) ∧
      ((∃ x ∈ s.enclaves, passed s 0 x.1 = false ∨ passed s 1 x.1 = false) → t = s)) ∧
    (∀ src, s.mgmt.ckpt = true → s.mgmt.writing = false → s.bents ≠ [] → exec (.checkpoint src) s = .next s) ∧
    (∀ src, s.mgmt.ckpt = true → s.mgmt.writing = false → s.bents = [] → ∃ t, exec (.checkpoint src) s = .next t ∧ t.mgmt.ckpt = true ∧
      t.mgmt.writing = true ∧ t.root.epoch = (s.root.epoch + 1) % 2 ^ 64 ∧ WrittenBack t (fun _ => True) ∧ (∀ m ∈ s.images, m ∈ t.images) ∧
      (∀ m ∈ t.images, m ∈ s.images ∨ m.epoch = t.root.epoch ∧ ∃ e key low, (m.enclave, e) ∈ s.enclaves ∧ e.ckpt = some (key, low) ∧
        m.verifies key = true) ∧
      ∀ id e key low, (id, e) ∈ s.enclaves → e.ckpt = some (key, low) → ∃ m ∈ t.images, m.enclave = id ∧
        m.epoch = t.root.epoch ∧ m.queues = e.kq ∧ (m.saves = s.saved.filter fun r => r.enclave == id) ∧
        m.pages.map Prod.fst = trackedFrames s id) ∧
    (∀ i, (∀ m id e key low, s.images[i]? = some m → (id, e) ∈ s.enclaves → e.ckpt = some (key, low) → m.verifies key = false ∨ m.epoch < low) →
      exec (.checkpointRestore i) s = .next s) ∧
    (∀ i m id e key low, s.images[i]? = some m → s.enclaves = [(id, e)] → e.ckpt = some (key, low) → low ≤ m.epoch → m.verifies key = true →
      s.bents = [] → s.saved = [] → m.pages = [] → m.tables = [] → (∀ r ∈ m.saves, (Tab.get? m.launches r.bent.launch).isSome = true) →
        ∃ t e', exec (.checkpointRestore i) s = .next t ∧ enclaveOf t id = some e' ∧
          e'.ckpt = some (key, (m.epoch + 1) % 2 ^ 64) ∧ e'.kq = m.queues ∧ t.saved.length = m.saves.length ∧
          ∀ r ∈ t.saved, r.enclave = id ∧ (r.ticket, r.counter) ∈ t.root.saves)

end Sys2Proof.Claims

/-- R199, R308, R327-R339: columns, partition registers, fill masks and gates; migration's tracking and rounds; checkpoints. That a round
visits one line a step and what the destination does is log entry 19's, EN before GO log entry 48's, the form and verification of images
log entry 49's. -/
def Obligations.PartitionsMigrationCheckpoints : Prop :=
  Sys2Proof.Claims.PartitionRegisters ∧ Sys2Proof.Claims.MigrationRounds ∧ Sys2Proof.Claims.Checkpoints

/-! ### Management, resets, heat, plumb, sill cores -/

namespace Sys2Proof.Claims

/-- When a port last made an access, after one of port p: it counts while p holds MGSEM (R355). -/
def semTouched (s : State) (p : Nat) : Nat := if s.mgmt.semOwner = p + 1 then governorTicks s 0 else s.mgmt.semLast

/-- A write of device space by an agent: a port's refused write leaves its error reply and counts as its access, and one of an unassigned
address, else without effect, is logged too; a hart's leaves nothing, a host's reaches the mailbox of its endpoint; an accepted write of
a register that holds what is written is read back (R345, R352, R354, R355). -/
def Written (s t : State) (src : Source) (a n : Nat) : Prop :=
  (∀ p, src = .host p →
    (linksUp s = true → isEndpoint p = true → a + 8 ≤ 65536 → Memory.bytes t.mailbox (p * 65536 + a) 8 = toBytes 8 n ∧
      { t with mailbox := s.mailbox, pending := s.pending } = s) ∧
    (¬ (linksUp s = true ∧ isEndpoint p = true ∧ a + 8 ≤ 65536) → t = s)) ∧
  (∀ p, src = .port p → (devReg a = none ∧ refusedPort s src = true ∨ ∃ r, devReg a = some r ∧ accepts s src n r = false) →
    t = { s with mgmt := { s.mgmt with answers := s.mgmt.answers ++ [(p, none)], semLast := semTouched s p } }) ∧
  (∀ p, src = .port p → devReg a = none → refusedPort s src = false →
    t.mgmt = { s.mgmt with answers := s.mgmt.answers ++ [(p, some 0)], semLast := governorTicks s 0 } ∧ t.root.seq ≠ s.root.seq ∧
      { t with mgmt := s.mgmt, root := s.root } = s) ∧
  (∀ h, src = .hart h → (devReg a = none ∨ ∃ r, devReg a = some r ∧ accepts s src n r = false) → t = s) ∧
  (∀ r, devReg a = some r → accepts s src n r = true →
    (∀ p, src = .port p → r ≠ .pkctl → t.mgmt.answers = s.mgmt.answers ++ [(p, some 0)] ∧
      (s.mgmt.state = stReady → t.root.seq ≠ s.root.seq)) ∧
    (r = .pkid → regRead t r = n % 65536) ∧ (∀ k d, r = .irq k d → regRead t r = n % 2 ^ 64) ∧
    (∀ m, r = .msGate m → regRead t r = n % 65536 ∧ ∀ l ∈ t.ms, l.slice = m → l.way < 16 → n.testBit l.way = false) ∧
    (∀ h x, r = .mtimecmp h → hartOf s h = some x → regRead t r = n % 2 ^ 64) ∧
    (∀ off, r = .cxl off → Config.cxlPort = true → regRead t r = n % 2 ^ 64))

/-- A read of device space by an agent: a port is answered, and counts as having made an access; nothing else changes (R345, R354, R355). -/
def ReadBack (s t : State) (src : Source) (a : Nat) : Prop :=
  (∀ p, src = .port p → { t with mgmt := s.mgmt } = s ∧ t.mgmt.answers = s.mgmt.answers ++
      [(p, if a < clusterBlock ∨ (devReg a).any DevReg.inCxl = true then none else some (deviceRead s a))] ∧
    t.mgmt.semOwner = s.mgmt.semOwner ∧ t.mgmt.state = s.mgmt.state ∧
    t.mgmt.semLast = semTouched s p) ∧
  ((∀ p, src ≠ .port p) → t = s)

/-- Registers of clusters and of the package, and who may write them (R33, R194, R345, R354, R355). -/
def ManagementWrites : Prop :=
  ∀ (s : State) (src : Source) (v : DWord),
    let n := v.toNat
    (∀ a, ∃ t, exec (.registerWrite src a (some v)) s = .next t ∧ Written s t src a n) ∧
    (∀ a, ∃ t, exec (.registerWrite src a none) s = .next t ∧ ReadBack s t src a) ∧
    (∀ r p, accepts s (.host p) n r = false ∧ (accepts s (.port p) n r = true → p < 2 ∧ (r = .mgsem ∨ s.mgmt.semOwner = p + 1)) ∧
      (∀ h, accepts s (.hart h) n r = true → r ≠ .mgsem ∧ ∃ x, hartOf s h = some x ∧ x.enclave = none ∧ (x.mode = .hs ∨ x.mode = .m)) ∧
      (accepts s src n r = true → s.mgmt.state = stReady ∨ s.mgmt.state = stFailed)) ∧
    (∀ k, k < 40 → ∃ t, exec (.clmodeWrite src k v) s = .next t ∧ (∀ j, j ≠ k → clusterOfPkg t j = clusterOfPkg s j) ∧
      clusterOfPkg t k = (if accepts s src n (.clmode k) = true ∧ (∀ x ∈ s.bents, x.2.cluster ≠ k)
        then { clusterOfPkg s k with fused := bit n 0 } else clusterOfPkg s k) ∧
      (clusterOfPkg t k ≠ clusterOfPkg s k → ∀ x ∈ t.l1, x.cache ≠ Config.cores + k ∧ (x.cache < Config.cores → pkgCluster x.cache ≠ k))) ∧
    (∀ k, k < 40 → ∃ t, exec (.coresvcWrite src k v) s = .next t ∧ t.mem = s.mem ∧
      clusterOfPkg t k = (if accepts s src n (.coresvc k) = true
        then { clusterOfPkg s k with csvc := BitVec.ofNat 16 n, qsvc := BitVec.ofNat 4 (n / 65536) } else clusterOfPkg s k)) ∧
    (∃ t, exec (.pkidWrite src v) s = .next t ∧ t.mgmt.pkid = (if accepts s src n .pkid = true then n % 65536 else s.mgmt.pkid)) ∧
    (∀ p, p < 2 → s.mgmt.state = stReady → ∃ t, exec (.mgsemWrite p v) s = .next t ∧ t.mem = s.mem ∧
      (bit n 0 = true → s.mgmt.semOwner = 0 → t.mgmt.semOwner = p + 1 ∧ t.mgmt.semLast = governorTicks s 0) ∧
      (bit n 0 = true → s.mgmt.semOwner = 2 → p = 0 → s.mgmt.semTick = some (governorTicks s 0) → t.mgmt.semOwner = 1) ∧
      (bit n 0 = true → s.mgmt.semOwner ≠ 0 → (p ≠ 0 ∨ s.mgmt.semOwner ≠ 2 ∨ s.mgmt.semTick ≠ some (governorTicks s 0)) →
        t.mgmt.semOwner = s.mgmt.semOwner) ∧
      (bit n 0 = false → t.mgmt.semOwner = (if s.mgmt.semOwner = p + 1 then 0 else s.mgmt.semOwner))) ∧
    (∃ t, exec .mgsemTimeout s = .next t ∧ t.mem = s.mem ∧
      t.mgmt.semOwner = (if s.mgmt.semLast + 2 ^ 28 ≤ governorTicks s 0 then 0 else s.mgmt.semOwner)) ∧
    (∀ id e, enclaveOf s id = some e →
      (∃ t, exec (.eqcfgWrite id v) s = .next t ∧ enclaveOf t id = some { e with eq := e.eq.writeCfg n } ∧ t.mem = s.mem) ∧
      ∃ t, exec (.eqdoorHeadWrite id v) s = .next t ∧ t.mem = s.mem ∧ enclaveOf t id =
        some { e with eq := if used e.eq.tail e.eq.head < used (n % 65536) e.eq.head then e.eq else { e.eq with head := n % 65536 } })

/-- Resets, bring-up, failure and heat (R34, R325, R343, R356, R358). -/
def ResetsAndHeat : Prop :=
  ∀ s : State,
    (exec .powerOn s = .next (resetState s coldKind)) ∧
    (∀ src, (s.mgmt.state < stReady ∨ s.mgmt.state = stFailed → exec .watchdogReset s = .next s) ∧
      (s.mgmt.state < stReady → ∀ i ∈ [Instr.pkctlWarmReset src, .pkctlColdReset src], ∃ t, exec i s = .next t ∧
        { t with mgmt := { t.mgmt with answers := s.mgmt.answers, semLast := s.mgmt.semLast } } = s) ∧
      (accepts s src 1 .pkctl = true → s.mgmt.state = stReady → ∃ t, exec (.pkctlWarmReset src) s = .next t ∧
        t.mgmt.state = stRootboot ∧ t.mgmt.lastrst = 1) ∧
      (accepts s src 2 .pkctl = true → ∃ t, exec (.pkctlColdReset src) s = .next t ∧ t.mgmt.state = stRootboot ∧ t.mgmt.lastrst = 0)) ∧
    (s.mgmt.state = stReady → ∃ t, exec .watchdogReset s = .next t ∧ t = resetState s watchdogKind) ∧
    (∀ kind, let t := resetState s kind
      t.mgmt.state = stRootboot ∧ t.mgmt.lastrst = kind ∧ t.mgmt.semOwner = 0 ∧ t.time = 0 ∧ t.threads = [] ∧ t.bents = [] ∧
        t.launches = [] ∧ t.l1 = [] ∧ t.l2 = [] ∧ t.ms = [] ∧ t.tlb = [] ∧ t.tlb2 = [] ∧ t.enclaves = [] ∧ t.saved = [] ∧ t.harts = [] ∧ t.clusters = [] ∧ t.colown = [] ∧ t.root.keys = [] ∧
        t.images = s.images ∧ t.root.head = s.root.head ∧ t.root.seq = s.root.seq ∧
        (t.mgmt.fired = if kind = coldKind then 0 else s.mgmt.fired)) ∧
    (∃ t, exec .rootbootDone s = .next t ∧ t.mgmt.state =
      (if s.mgmt.state = stRootboot then (if s.mgmt.resetKind = coldKind then stTrain else stScrub) else s.mgmt.state)) ∧
    (∃ t, exec .phyTrainingDone s = .next t ∧ t.mgmt.state = (if s.mgmt.state = stTrain then stScrub else s.mgmt.state)) ∧
    (s.mgmt.state ≠ stScrub → exec .scrub s = .next s) ∧
    (s.mgmt.state = stScrub → ∃ t, exec .scrub s = .next t ∧ t.mgmt.state = stLinks ∧ (∀ a, Memory.read t.mem a = 0) ∧ t.pot = [] ∧
      t.side = [] ∧ t.l1 = [] ∧ t.l2 = [] ∧ t.ms = [] ∧ t.retained = [] ∧ t.tlb = [] ∧ t.tlb2 = [] ∧ Tab.keys t.root.keys = [0] ∧ t.root.drawn = s.root.drawn + 1 ∧
      ∃ r ∈ t.root.log, r.kind = 9 ∧ r.seq = s.root.seq) ∧
    (s.mgmt.state ≠ stLinks → exec .linksDone s = .next s) ∧
    (s.mgmt.state = stLinks → ∃ t, exec .linksDone s = .next t ∧ t.mgmt.state = stReady ∧
      ∀ k, k < 128 → ∃ h, hartOf t k = some h ∧ h.pc = 0 ∧ h.mode = .m ∧ h.getX 10 = BitVec.ofNat 64 k ∧ h.enclave = none) ∧
    (∀ u, (s.mgmt.state = stFailed → exec (.packageFailure u) s = .next s) ∧
      (s.mgmt.state ≠ stFailed → ∃ t, exec (.packageFailure u) s = .next t ∧ t.mgmt.state = stFailed ∧ t.enclaves = [] ∧ t.threads = [] ∧
        t.harts = [] ∧ t.images = s.images)) ∧
    (∀ die temp, die < 6 →
      (temp < 115 → ∃ t, exec (.thermalThrottle die temp) s = .next t ∧ { t with tstat := s.tstat, pending := s.pending } = s ∧
        (tstatOf t die).temp = temp ∧ (tstatOf t die).trip = (tstatOf s die).trip ∧
        (100 ≤ temp → (tstatOf t die).throt = true) ∧ (temp < 95 → (tstatOf t die).throt = false) ∧
        (95 ≤ temp → temp < 100 → (tstatOf t die).throt = (tstatOf s die).throt) ∧
        (∀ d, d ≠ die → tstatOf t d = tstatOf s d) ∧
        ((tstatOf t die).throt = (tstatOf s die).throt → t.pending = s.pending) ∧
        ((tstatOf t die).throt ≠ (tstatOf s die).throt → ∀ h k, Tab.get? s.irq sourceThermal = some (h, k) →
          t.pending = s.pending ++ [.deviceMsi h k])) ∧
      (115 ≤ temp → ∃ t, exec (.thermalTrip die temp) s = .next t ∧ (tstatOf t die).trip = true ∧ t.mgmt.state = stFailed) ∧
      (temp < 115 → exec (.thermalTrip die temp) s = .next s))

/-- Plumb triggers and snapshots; interrupts of harts and their accesses (R149, R340-R345, R357). -/
def PlumbAndHarts : Prop :=
  ∀ s : State,
    (exec .traceComparatorMatch s = .next (traceRecord { s with draws := s.draws + 1 } (traceWorld s) (traceContent s))) ∧
    (∀ w c, (w = 0 ∨ ∀ e, enclaveOf s w = some e → e.debug = false) → traceRecord s w c = s) ∧
    (∀ w c e, w ≠ 0 → enclaveOf s w = some e → e.debug = true → (traceRecord s w c).trace = s.trace ++ [{ world := w, content := c }] ∧
      (traceRecord s w c).mgmt.triggers = s.mgmt.triggers + 1 ∧ (traceRecord s w c).mem = s.mem) ∧
    (∀ src, accepts s src 4 .pkctl = true → ∃ t, exec (.pkctlPlumb src) s = .next t ∧ t.mgmt.triggers = s.mgmt.triggers + 1 ∧
      t.mgmt.state = s.mgmt.state) ∧
    (s.mgmt.triggers = 0 → exec .plumbTrigger s = .next s) ∧
    (s.mgmt.triggers ≠ 0 → ∃ t, exec .plumbTrigger s = .next t ∧ { t with mgmt := s.mgmt } = s ∧ t.mgmt.triggers = s.mgmt.triggers - 1 ∧
      t.mgmt.fired = (s.mgmt.fired + 1) % 2 ^ 32 ∧
      (s.mgmt.unacked = [] → t.mgmt.plumb = (s.mgmt.plumb + 1) % 65536 ∧ t.mgmt.unacked = allUnits ∧ t.mgmt.dropped = s.mgmt.dropped) ∧
      (s.mgmt.unacked ≠ [] → t.mgmt.plumb = s.mgmt.plumb ∧ t.mgmt.unacked = s.mgmt.unacked ∧
        t.mgmt.dropped = min (2 ^ 32 - 1) (s.mgmt.dropped + 1))) ∧
    (∀ u, (u ∉ s.mgmt.unacked → exec (.snapshotLatch u) s = .next s) ∧
      (u ∈ s.mgmt.unacked → ∃ t, exec (.snapshotLatch u) s = .next t ∧ { t with mgmt := s.mgmt } = s ∧ u ∉ t.mgmt.unacked ∧
        (∀ x ∈ s.mgmt.unacked, x ≠ u → x ∈ t.mgmt.unacked) ∧
        Tab.getD t.mgmt.snaps (unitKey u) (0, 0) =
          ((unitCounter s u) % 2 ^ 48 + 2 ^ 48 * (s.mgmt.plumb % 2 ^ 16), unitValue s u))) ∧
    (∀ n h, hartOf s n = some h →
      (exec (.mtimecmpInterrupt n) s =
        .next (setHart s n fun h => if h.mtimecmp.toNat ≤ sillTicks s (hartDie n) then { h with mtip := true } else h)) ∧
      (∀ k, n < 2 ^ 16 → ∃ t u, exec (.deviceMsi n k) s = .next t ∧ hartOf t n = some u ∧ k ∈ u.msi ∧ (∀ j ∈ h.msi, j ∈ u.msi) ∧
        { u with msi := h.msi } = h) ∧
      (∀ k, n < 2 ^ 16 → ∃ t u, exec (.deviceMsi (n + 2 ^ 16) k) s = .next t ∧ hartOf t n = some u ∧ k ∈ u.msiM ∧ (∀ j ∈ h.msiM, j ∈ u.msiM) ∧
        { u with msiM := h.msiM } = h) ∧
      (∀ a b, ∃ t u, exec (.sillCoreInstruction n (.fence a b)) s = .next t ∧ hartOf t n = some u ∧
        u.pc = h.pc + BitVec.ofNat 64 h.len ∧ u.x = h.x ∧ u.mode = h.mode ∧ t.mem = s.mem) ∧
      (∀ rd a size sg o x t, hartRead s n h a size = (t, .ok x) → ∃ r u, exec (.sillCoreInstruction n (.load rd a size sg o)) s = .next r ∧
        hartOf r n = some u ∧ u.pc = h.pc + BitVec.ofNat 64 h.len ∧ (rd ≠ 0 → u.getX rd = extend sg size x) ∧
        ∀ k, k ≠ rd → u.getX k = h.getX k) ∧
      (∀ rd a size sg o t e, hartRead s n h a size = (t, .error e) →
        exec (.sillCoreInstruction n (.load rd a size sg o)) s = .next (hartTrap t n h e)) ∧
      (∀ a size x o e, hartWrite s n h a size x.toNat = .error e →
        exec (.sillCoreInstruction n (.store a size x o)) s = .next (hartTrap s n h e)) ∧
      (∀ a size x o pa, h.enclave = none → a % 4096 + size ≤ 4096 → 0 < size → hartTranslate s h h.dataAcc .store a = .ok pa →
        pa + size ≤ Config.hbmBytes → deviceOwned s pa size = true →
        ∃ t u, exec (.sillCoreInstruction n (.store a size x o)) s = .next t ∧ hartOf t n = some u ∧ u.pc = h.pc + BitVec.ofNat 64 h.len ∧
          Memory.bytes t.mem pa size = toBytes size x.toNat ∧ SameMemBut s t pa size) ∧
      (∀ w, exec (.sillCoreInstruction n (.illegal w)) s = .next (asyncExit s n h causeIllegal (BitVec.ofNat 64 w.toNat))) ∧
      (∀ id va size p, h.enclave = some id → 0 < size → translate s noCore id .read va = .ok p → p.device = false → p.fmt ≠ 0 →
        (hartRead s n h va size).2 = .error (xcpt causeLoad (BitVec.ofNat 64 va))) ∧
      (∀ z a, (cboFault s n h a = none → ∃ t u, exec (.sillCoreInstruction n (.cbo z a)) s = .next t ∧ hartOf t n = some u ∧
          u.pc = h.pc + BitVec.ofNat 64 h.len ∧ t.mem = s.mem) ∧
        (∀ e, cboFault s n h a = some e → exec (.sillCoreInstruction n (.cbo z a)) s = .next (hartTrap s n h e))) ∧
      (∀ id a p, h.enclave = some id → translate s noCore id .read a = .ok p → p.fmt ≠ 0 →
        ∃ e, cboFault s n h a = some e ∧ e.cause = causeStore) ∧
      (∀ a pa, h.enclave = none → hartTranslate s h h.dataAcc .load a = .ok pa → Config.hbmBytes ≤ pa → hartReaches s n = false →
        ∃ e, cboFault s n h a = some e ∧ e.cause = causeStore))

end Sys2Proof.Claims

/-- R33, R34, R149, R194, R288, R325, R340-R345, R354-R358: management registers and who may write them, resets and bring-up,
failure and heat, plumb snapshots, and the harts' interrupts and accesses. A trap of a hart in M mode, its causes and the interrupt file
that an MSI's target names are log entry 14's; that harts' writes of MGSEM are ignored, what FAILED accepts and the corners of plumb triggers
and THROT log entry 51's; what a hart reads of a poisoned line log entry 20's, and a hart's translation log entry 47's. -/
def Obligations.ManagementResetsHarts : Prop :=
  Sys2Proof.Claims.ManagementWrites ∧ Sys2Proof.Claims.ResetsAndHeat ∧ Sys2Proof.Claims.PlumbAndHarts

/-! ### Encodings, the step, reset, the invariant -/

/-- R105-R122, R397: the spec's own encodings decode to the instructions they stand for. -/
def Obligations.DecodesSpecWords : Prop :=
  let x : Ext := { vd := 1023, va := 1023, vb := 1023, vc := 1023, mask := 0, inv := false, z := false, rnd := .dflt, imm := 0, lit := none }
  decode [0x0281040C] = .ok (.andB3 { pfx := none, t := .w32, d := 1, a := 2, b := 3 }) ∧
  decode [0x1383FFFE] = .ok (.moviB { pfx := none, d := 3, imm := 0xFFFE }) ∧
  decode [0x1E13FFFC] = .ok (.braBB 2 false 0x3FFFC) ∧
  decode [0x18082810] = .ok (.ldB32 { pfx := none, d := 8, a := 20, imm := 16 }) ∧
  decode [0x80E02012, 0xFFC04FFC, 0xFFC00064] = .ok (.icmp .lt true 2 .b32 { x with va := 4, imm := 100 }) ∧
  decode [0xC8640000, 0x05015FFC, 0x05800000, 0x3F000000, 0] =
    .ok (.ffmaExt .f32 { x with vd := 20, va := 21, vc := 22, lit := some 0x3F000000 }) ∧
  decode [0x90200001, 0xC040601C, 0xFFC00000] = .ok (.idivq true .b32 { x with vd := 769, va := 6, vb := 7 }) ∧
  decode [0xA1040008, 0xFFC14024, 0xFFC00004] = .ok (.red .add .none .dv false false .f32 { x with va := 20, vb := 9, imm := 4 }) ∧
  decode [0xE8A00000, 0xFFFFFFFC, 0xFFC00000, 0x60, 0] = .ok (.meet { x with lit := some 0x60 }) ∧
  decode [0xB0600000, 0xFFF13FFC, 0xFFC00000] = .ok (.hred { x with va := 787 }) ∧
  decode [0xB4000001, 0xFFC02010, 0x01400000] = .ok (.mdesc 1 { x with va := 2, vb := 4, vc := 5 }) ∧
  decode [0x91A00005, 0xFFC07FFC, 0xFFC00000] = .ok (.gset 5 { x with va := 7 }) ∧
  decodeEnc 0x0005850B = some (.encCreate 10 11) ∧ decodeEnc 0x0600000B = some .encExit ∧
  (∀ e, e ∈ [decode [0xFFFFFFFF], decode [0x0005850B], decode [0x80E02012]] → ∃ r, e = .error r)

/-- R101-R122, R397: decoding what the encoder gives for a well-formed instruction of any family gives the instruction, whatever
words follow it; a decoded instruction is well formed and its encoding is the words it was decoded from, no bit dropped; an enclave
word is no instruction of a thread. -/
def Obligations.DecodeEncodeRoundTrip : Prop :=
  (∀ (i : Instr) (ws : List Word), i.wellFormed = true → encode i ≠ [] →
    (∃ w, encode i = [w] ∧ decodeEnc w = some i ∧ ∃ e, decode (w :: ws) = .error e) ∨
      (decode (encode i ++ ws) = .ok i ∧ lengthOf ((encode i).headD 0) = (encode i).length)) ∧
  (∀ (ws : List Word) (i : Instr), decode ws = .ok i → i.wellFormed = true ∧ encode i = ws.take (lengthOf (ws.headD 0))) ∧
  (∀ (w : Word) (i : Instr), decodeEnc w = some i → encode i = [w] ∧ i.wellFormed = true) ∧
  (∀ rd rs1 rs2 : BitVec 5, ∀ i ∈ [Instr.encCreate rd rs1, .encAddpg rd rs1 rs2, .encEnter rd rs1 rs2, .encExit, .encSeal rd rs1 rs2,
    .encUnseal rd rs1 rs2, .encDestroy rd rs1], ∃ w, encode i = [w] ∧ decodeEnc w = some i)

/-- R46, R54, R79, R101-R103, R123, R220, R223, R228, R295: a step runs the instruction decoded at the PC of the next context of the bundle at
issue, or else the event that is due, in the state with that context executing, its pages' translations kept and its lines filled into the L2;
a context half way through a 128-bit access runs the other half; words that decode to none are the step of an unassigned encoding; a fetch that
fails traps, maps its page, or halts the bent; a hart runs the enclave word at its PC; with nothing left to run, the cycle goes on. Which
event or context comes next, and that a step is one of these, are log entry 1's; the translations kept log entry 33's; the length recorded for a
fetch that failed log entry 22's; how a hart's words decode log entry 9's; that an interrupt leaves enclave mode first log entry 47's. -/
def Obligations.StepRunsDecodedInstruction : Prop :=
  ∀ (s : State),
    (∀ i is, s.issue = [] → s.pending = i :: is → step s = exec i { s with pending := is }) ∧
    (∀ w ws rest v, s.issue = (w :: ws) :: rest → viewOf s w = some v →
      let s' := { s with issue := ws :: rest, cur := some w }
      ((v.status ≠ .running ∨ v.control = true ∧ controlQuarter s' v = none) → step s = .next s') ∧
      (v.status = .running → (v.control = true → (controlQuarter s' v).isSome = true) →
        (∀ h, v.hctx.half = some h → step s = exec h.insn s') ∧
        (v.hctx.half = none → v.control = true → requested s' v = true → step s = .next s')) ∧
      (v.status = .running → v.hctx.half = none → (v.control = true → (controlQuarter s' v).isSome = true ∧ requested s' v = false) →
        entryTrap s' (Who.threadNo w) v = none →
        (atMeet v = true → step s = exec (.meetHold (Who.threadNo w)) s') ∧
        (∀ words, atMeet v = false → fetchInsn s' v v.pc.toNat = .ok words →
          let t := fetchTouch s' v words.length
          (∀ i, decode words = .ok i → i.wellFormed = true ∧ step s = exec i t) ∧
          (∀ e, decode words = .error e → step s = exec (.unassignedEncoding (words.headD 0)) t)) ∧
        (∀ k, atMeet v = false → fetchInsn s' v v.pc.toNat = .trap k →
          step s = .next (takeTrap s' w v k { pc := v.pc, len := failedLen s' v, tdst := tdstNone })) ∧
        (∀ va, atMeet v = false → fetchInsn s' v v.pc.toNat = .fill va → step s = .next (fillPage s' v va)) ∧
        (∀ l, atMeet v = false → fetchInsn s' v v.pc.toNat = .poison l →
          step s = .next (integrityHalt s' (some v) l ((sideOf s' l).code == 0x29))))) ∧
    (∀ n ws rest h, s.issue = (.hart n :: ws) :: rest → hartOf s n = some h →
      let s' := { s with issue := ws :: rest, cur := some (Who.hart n) }
      (∀ cause, h.interrupt = some cause → (h.enclave = none → step s = .next (asyncExit s' n h cause 0)) ∧
        (h.enclave.isSome = true → step s = exec (.enclaveAsyncExit n cause) s')) ∧
      (∀ e s1, h.interrupt = none → hartFetch s' n h = (s1, .error e) → step s = .next (hartTrap s1 n h e)) ∧
      (∀ word len s1, h.interrupt = none → hartFetch s' n h = (s1, .ok (word, len)) →
        let h1 := { h with len := len }
        let t := setHart s1 n fun _ => h1
        (∀ i, decodeEnc word = some i → step s = exec i t) ∧
        (∀ op, rvInstr t n h1 word = .sill op → step s = exec (.sillCoreInstruction n op) t) ∧
        (∀ h2, rvInstr t n h1 word = .inside h2 → step s = .next (setHart t n fun _ => h2)) ∧
        (∀ e, rvInstr t n h1 word = .trap e → step s = .next (hartTrap t n h1 e)) ∧
        (word.toNat % 128 = 0x0B → decodeEnc word = none → step s = exec (.sillCoreInstruction n (.illegal word)) t)) ∧
      (h.enclave = none → h.mode = .m → deviceOwned s h.pc.toNat 4 = true → (∀ k, k < 4 → poisoned s (h.pc.toNat + k) = false) →
        Memory.num s.mem h.pc.toNat 2 % 4 = 3 →
          hartFetch s' n h = (s', .ok (BitVec.ofNat 32 (Memory.num s.mem h.pc.toNat 4), 4)))) ∧
    (∀ rest, s.issue = [] :: rest → step s = .next (endBundle s rest)) ∧
    (s.pending = [] → s.issue = [] → step s = .next (advance s) ∧ (advance s).time = s.time + 1)

/-- R6, R29, R31, R194, R276, R277, R315, R327-R330, R345, R354, R356, R358: what reset leaves in the registers whose reset value the
spec gives, and with what a thread starts; memory stands in its canonical form. That an unlisted byte reads zero is log entry 4's, and
that the targets and data of the interrupt sources are zero log entry 5's: the spec gives them no reset value. -/
def Obligations.ResetValues : Prop :=
  let s := State.reset
  (s.time = 0 ∧ s.threads = [] ∧ s.bents = [] ∧ s.enclaves = [] ∧ s.harts = [] ∧ Canonical s) ∧
  (∀ k, regRead s (.clbudget k) = 0x16 ∧ regRead s (.clmode k) = 0 ∧ regRead s (.coresvc k) = 0xFFFFF ∧ regRead s (.tstat k) = 0) ∧
  (∀ c, regRead s (.colown c) = 0) ∧ (∀ p, regRead s (.pcfg p) = 0) ∧
  (∀ n p, regRead s (.wmask n p) = 0xFFFF ∧ regRead s (.occ n p) = 0 ∧ regRead s (.wgate n) = 0 ∧ regRead s (.msGate n) = 0) ∧ (∀ k d, regRead s (.irq k d) = 0) ∧
  (∀ g id, regRead s (.egcfg g id) = 0x14 * 2 ^ 35) ∧
  (regRead s .mgstat = 0 ∧ regRead s .mgsem = 0 ∧ regRead s .pkid = 0 ∧ regRead s .mgid / 2 ^ 32 = 0x1B7E0640 ∧ regRead s .mgid % 2 ^ 24 = 0) ∧
  (∀ u v, regRead s (.snap u v) = 0) ∧
  (KickQueue.reset.cfg = 0 ∧ KickQueue.reset.door = 0 ∧ ErrQueue.reset.cfg = 0 ∧ ErrQueue.reset.door = 0) ∧
  (∀ b k fs n pc seed ph, let v := newThread b k fs n pc seed ph
    v.pc = pc ∧ v.seed = seed ∧ v.fpsr = 0 ∧ v.fpen = 0 ∧ v.stack = [] ∧ v.meet = none ∧ v.tdst = 0x403FF ∧ v.trapActive = false ∧
      v.status = .running ∧ maskBit v 0 = true ∧ (∀ m, 1 ≤ m → m < 16 → maskBit v m = false) ∧ ∀ r, regVal v r = 0) ∧
  (∀ k, (Hart.start k).pc = 0 ∧ (Hart.start k).mode = .m ∧ (Hart.start k).getX 10 = BitVec.ofNat 64 k)

/-- Every step keeps memory, the CXL window and the mailboxes in their canonical form and the thread table sorted by thread. -/
def Obligations.StepKeepsCanonical : Prop :=
  ∀ (s t : State), Canonical s → s.threads.Pairwise (fun a b => a.1 < b.1) → step s = .next t →
    Canonical t ∧ t.threads.Pairwise (fun a b => a.1 < b.1)
end

