-- ==== Sys2Proof/Laws/Store.lean ====
section
/-! SUPPORT. Tables and memory: what a read gives after a write, and that every operation keeps the canonical form. -/

namespace Sys2Proof.Machine

/-! ### Tables -/

@[simp] theorem Tab.get?_nil {α : Type} (k : Nat) : Tab.get? ([] : Tab α) k = none := rfl

@[simp] theorem Tab.get?_set_self {α : Type} (t : Tab α) (k : Nat) (v : α) : Tab.get? (Tab.set t k v) k = some v := by
  induction t with
  | nil => simp [Tab.set, Tab.get?]
  | cons e t ih =>
    obtain ⟨k', v'⟩ := e
    simp only [Tab.set]
    split
    · simp [Tab.get?]
    · split
      · simp [Tab.get?]
      · rename_i h; simp [Tab.get?, h, ih]

theorem Tab.get?_set_ne {α : Type} (t : Tab α) {k j : Nat} (v : α) (h : j ≠ k) :
    Tab.get? (Tab.set t k v) j = Tab.get? t j := by
  induction t with
  | nil => simp [Tab.set, Tab.get?, Ne.symm h]
  | cons e t ih =>
    obtain ⟨k', v'⟩ := e
    simp only [Tab.set]
    split
    · simp [Tab.get?, Ne.symm h]
    · split
      · rename_i hk; subst hk; simp [Tab.get?, Ne.symm h]
      · simp only [Tab.get?, ih]

theorem Tab.get?_set {α : Type} (t : Tab α) (k j : Nat) (v : α) :
    Tab.get? (Tab.set t k v) j = if j = k then some v else Tab.get? t j := by
  by_cases h : j = k
  · subst h; simp
  · simp [h, Tab.get?_set_ne t v h]

@[simp] theorem Tab.getD_set_self {α : Type} (t : Tab α) (k : Nat) (v d : α) : Tab.getD (Tab.set t k v) k d = v := by
  simp [Tab.getD]

theorem Tab.getD_set_ne {α : Type} (t : Tab α) {k j : Nat} (v d : α) (h : j ≠ k) :
    Tab.getD (Tab.set t k v) j d = Tab.getD t j d := by
  simp [Tab.getD, Tab.get?_set_ne t v h]

theorem Tab.get?_erase {α : Type} (t : Tab α) (k j : Nat) :
    Tab.get? (Tab.erase t k) j = if j = k then none else Tab.get? t j := by
  induction t with
  | nil => simp [Tab.erase]
  | cons e t ih =>
    obtain ⟨k', v'⟩ := e
    unfold Tab.erase at *
    by_cases h : k' = k
    · subst h
      by_cases hj : j = k'
      · simp [hj] at *; simpa [hj] using ih
      · simp [hj, Tab.get?, Ne.symm hj] at *; simpa [hj] using ih
    · simp only [List.filter_cons, bne_iff_ne, ne_eq, h, not_false_eq_true, if_true, Tab.get?, ih]
      by_cases hk : k' = j
      · subst hk; simp [h]
      · simp [hk]

theorem Tab.get?_modify {α : Type} (t : Tab α) (k j : Nat) (f : α → α) :
    Tab.get? (Tab.modify t k f) j = if j = k then (Tab.get? t j).map f else Tab.get? t j := by
  induction t with
  | nil => simp [Tab.modify]
  | cons e t ih =>
    obtain ⟨k', v'⟩ := e
    unfold Tab.modify at *
    by_cases hj : k' = j
    · subst hj; by_cases h : k' = k <;> simp [h, Tab.get?]
    · by_cases h : k' = k
      · have hk : ¬ k = j := fun e => hj (h.trans e)
        have hk' : ¬ j = k := fun e => hk e.symm
        simpa [h, Tab.get?, hk, hk'] using ih
      · simpa [h, Tab.get?, hj] using ih

/-! ### Memory: reading back -/

theorem Memory.read_set (m : Memory) (a : Nat) (b : Byte) (x : Nat) :
    Memory.read (Tab.set m a b) x = if x = a then b else Memory.read m x := by
  induction m with
  | nil => simp only [Tab.set, Memory.read, @eq_comm _ a x]
  | cons e m ih =>
    obtain ⟨k, v⟩ := e
    simp only [Tab.set]
    split
    · simp only [Memory.read, @eq_comm _ a x]
    · split
      · rename_i _ hk
        subst hk
        simp only [Memory.read, @eq_comm _ x k]
        split <;> rfl
      · rename_i h1 h2
        simp only [Memory.read, ih]
        by_cases hx : k = x
        · subst hx; simp only [if_true, if_neg h2]
        · simp only [if_neg hx]

theorem Memory.read_filter (m : Memory) (p : Nat → Bool) (x : Nat) :
    Memory.read (m.filter fun e => p e.1) x = if p x then Memory.read m x else 0 := by
  induction m with
  | nil => simp [Memory.read]
  | cons e m ih =>
    obtain ⟨k, v⟩ := e
    by_cases hx : k = x
    · subst hx; by_cases hp : p k <;> simp [Memory.read, hp, ih]
    · by_cases hk : p k <;> simp [Memory.read, hk, hx, ih]

/-- A byte read after a byte written. -/
theorem Memory.read_write (m : Memory) (a : Nat) (b : Byte) (x : Nat) :
    Memory.read (Memory.write m a b) x = if x = a then b else Memory.read m x := by
  unfold Memory.write
  split
  · rename_i h
    rw [Memory.read_filter m (fun k => k != a)]
    by_cases hx : x = a <;> simp [hx, h]
  · exact Memory.read_set m a b x

/-- A byte read after bytes written outside their range. -/
theorem Memory.read_writeBytes_out (bs : List Byte) : ∀ (m : Memory) (a x : Nat), ¬ (a ≤ x ∧ x < a + bs.length) →
    Memory.read (Memory.writeBytes m a bs) x = Memory.read m x := by
  induction bs with
  | nil => intro m a x _; rfl
  | cons b bs ih =>
    intro m a x h
    simp only [List.length_cons] at h
    rw [Memory.writeBytes, ih _ _ _ (by omega), Memory.read_write, if_neg (by omega)]

/-- A byte read after bytes written, within their range. -/
theorem Memory.read_writeBytes_in (bs : List Byte) : ∀ (m : Memory) (a i : Nat) (h : i < bs.length),
    Memory.read (Memory.writeBytes m a bs) (a + i) = bs[i] := by
  induction bs with
  | nil => intro m a i h; simp at h
  | cons b bs ih =>
    intro m a i h
    rw [Memory.writeBytes]
    cases i with
    | zero =>
      rw [Memory.read_writeBytes_out _ _ _ _ (by omega), Memory.read_write]; simp
    | succ i =>
      have := ih (Memory.write m a b) (a + 1) i (by simpa using h)
      rw [show a + (i + 1) = a + 1 + i by omega, this]; simp

/-- Reading back the bytes just written gives them. -/
theorem Memory.bytes_writeBytes (bs : List Byte) : ∀ (m : Memory) (a : Nat),
    Memory.bytes (Memory.writeBytes m a bs) a bs.length = bs := by
  induction bs with
  | nil => intro m a; rfl
  | cons b bs ih =>
    intro m a
    rw [List.length_cons, Memory.bytes, Memory.writeBytes, ih,
      Memory.read_writeBytes_out _ _ _ _ (by omega), Memory.read_write]
    simp

/-- A byte read after a range is set to zero. -/
theorem Memory.read_zero (m : Memory) (a n x : Nat) :
    Memory.read (Memory.zero m a n) x = if a ≤ x ∧ x < a + n then 0 else Memory.read m x := by
  unfold Memory.zero
  have := Memory.read_filter m (fun k => decide (k < a) || decide (a + n ≤ k)) x
  rw [this]
  by_cases h : a ≤ x ∧ x < a + n
  · rw [if_neg (by simp; omega), if_pos h]
  · rw [if_pos (by simp; omega), if_neg h]

/-! ### Memory: the canonical form -/

theorem Memory.sortedFrom_mono {m : Memory} {n k : Nat} (h : k ≤ n) (hm : Memory.sortedFrom n m = true) :
    Memory.sortedFrom k m = true := by
  cases m with
  | nil => rfl
  | cons e m =>
    obtain ⟨a, v⟩ := e
    simp only [Memory.sortedFrom, Bool.and_eq_true, decide_eq_true_eq] at *
    exact ⟨⟨by omega, hm.1.2⟩, hm.2⟩

theorem Memory.sortedFrom_cons {n k : Nat} {v : Byte} {m : Memory} :
    Memory.sortedFrom n ((k, v) :: m) = true ↔ n ≤ k ∧ v ≠ 0 ∧ Memory.sortedFrom (k + 1) m = true := by
  simp only [Memory.sortedFrom, Bool.and_eq_true, decide_eq_true_eq, bne_iff_ne, and_assoc]

theorem Memory.sortedFrom_set {m : Memory} {n a : Nat} {b : Byte} (hb : b ≠ 0) (hn : n ≤ a)
    (hm : Memory.sortedFrom n m = true) : Memory.sortedFrom n (Tab.set m a b) = true := by
  induction m generalizing n with
  | nil => exact Memory.sortedFrom_cons.2 ⟨hn, hb, rfl⟩
  | cons e m ih =>
    obtain ⟨k, v⟩ := e
    obtain ⟨h1, h2, h3⟩ := Memory.sortedFrom_cons.1 hm
    simp only [Tab.set]
    split
    · exact Memory.sortedFrom_cons.2 ⟨hn, hb, Memory.sortedFrom_cons.2 ⟨by omega, h2, h3⟩⟩
    · split
      · rename_i _ he
        subst he
        exact Memory.sortedFrom_cons.2 ⟨hn, hb, h3⟩
      · exact Memory.sortedFrom_cons.2 ⟨h1, h2, ih (by omega) h3⟩

theorem Memory.sortedFrom_filter {m : Memory} {n : Nat} (p : Host.Cell → Bool) (hm : Memory.sortedFrom n m = true) :
    Memory.sortedFrom n (m.filter p) = true := by
  induction m generalizing n with
  | nil => rfl
  | cons e m ih =>
    obtain ⟨k, v⟩ := e
    simp [Memory.sortedFrom] at hm
    obtain ⟨⟨h1, h2⟩, h3⟩ := hm
    by_cases h : p (k, v) = true
    · simp [h, Memory.sortedFrom, h1, h2]; exact ih h3
    · simp [h]; exact Memory.sortedFrom_mono (by omega) (ih h3)

/-- Filtering keeps the canonical form. -/
theorem Memory.wf_filter {m : Memory} (p : Host.Cell → Bool) (hm : Memory.wf m = true) : Memory.wf (m.filter p) = true :=
  Memory.sortedFrom_filter p hm

/-- A byte written keeps the canonical form. -/
theorem Memory.wf_write {m : Memory} (a : Nat) (b : Byte) (hm : Memory.wf m = true) : Memory.wf (Memory.write m a b) = true := by
  unfold Memory.write
  split
  · exact Memory.wf_filter _ hm
  · rename_i h; exact Memory.sortedFrom_set h (Nat.zero_le _) hm

/-- Bytes written keep the canonical form. -/
theorem Memory.wf_writeBytes (bs : List Byte) : ∀ {m : Memory} (a : Nat), Memory.wf m = true →
    Memory.wf (Memory.writeBytes m a bs) = true := by
  induction bs with
  | nil => intro m a h; exact h
  | cons b bs ih => intro m a h; exact ih _ (Memory.wf_write a b h)

/-- A range set to zero keeps the canonical form. -/
theorem Memory.wf_zero {m : Memory} (a n : Nat) (hm : Memory.wf m = true) : Memory.wf (Memory.zero m a n) = true :=
  Memory.wf_filter _ hm

/-- Cells written one by one keep the canonical form. -/
theorem Memory.wf_foldl_write (cs : List Host.Cell) : ∀ {m : Memory}, Memory.wf m = true →
    Memory.wf (cs.foldl (fun m c => Memory.write m c.1 c.2) m) = true := by
  induction cs with
  | nil => intro m h; exact h
  | cons c cs ih => intro m h; exact ih (Memory.wf_write _ _ h)

/-- A range replaced keeps the canonical form. -/
theorem Memory.wf_setRange {m : Memory} (a n : Nat) (r : Memory) (hm : Memory.wf m = true) :
    Memory.wf (Memory.setRange m a n r) = true := by
  unfold Memory.setRange
  have : ∀ (r : Memory) (m : Memory), Memory.wf m = true →
      Memory.wf (r.foldl (fun m e => if e.1 < n then Memory.write m (a + e.1) e.2 else m) m) = true := by
    intro r
    induction r with
    | nil => intro m h; exact h
    | cons e r ih =>
      intro m h
      simp only [List.foldl_cons]
      split
      · exact ih _ (Memory.wf_write _ _ h)
      · exact ih _ h
  exact this r _ (Memory.wf_zero _ _ hm)

/-- The listed bytes of a range, counted from its start, are in canonical form. -/
theorem Memory.wf_range {m : Memory} (a n : Nat) (hm : Memory.wf m = true) : Memory.wf (Memory.range m a n) = true := by
  unfold Memory.range Memory.wf
  have : ∀ (m : Memory) (k : Nat), Memory.sortedFrom (a + k) m = true → (∀ e ∈ m, a ≤ e.1) →
      Memory.sortedFrom k (m.map fun e => (e.1 - a, e.2)) = true := by
    intro m
    induction m with
    | nil => intro k _ _; rfl
    | cons e m ih =>
      obtain ⟨x, v⟩ := e
      intro k h hm
      have ha : a ≤ x := hm (x, v) (by simp)
      simp [Memory.sortedFrom] at h ⊢
      refine ⟨⟨by omega, h.1.2⟩, ih _ ?_ (fun e he => hm e (by simp [he]))⟩
      rw [show a + (x - a + 1) = x + 1 by omega]; exact h.2
  have hf := Memory.wf_filter (fun e : Host.Cell => decide (a ≤ e.1) && decide (e.1 < a + n)) hm
  have hge : ∀ e ∈ m.filter (fun e : Host.Cell => decide (a ≤ e.1) && decide (e.1 < a + n)), a ≤ e.1 := by
    intro e he; simp at he; exact he.2.1
  refine this _ 0 ?_ hge
  generalize m.filter (fun e : Host.Cell => decide (a ≤ e.1) && decide (e.1 < a + n)) = l at *
  cases l with
  | nil => rfl
  | cons e l =>
    obtain ⟨x, v⟩ := e
    simp [Memory.wf, Memory.sortedFrom] at *
    exact ⟨⟨hge.1, hf.1⟩, hf.2⟩

end Sys2Proof.Machine
end

