-- ==== Sys2Proof/Laws/State.lean ====
section
/-! SUPPORT. What each update of the state does to each field: the one it names, and none of the others. -/

namespace Sys2Proof.Machine

/-! ### setThread -/

@[simp] theorem setThread_pending (s : State) (t : Nat) (v : Thread) : (setThread s t v).pending = s.pending := rfl
@[simp] theorem setThread_waits (s : State) (t : Nat) (v : Thread) : (setThread s t v).waits = s.waits := rfl
@[simp] theorem setThread_issue (s : State) (t : Nat) (v : Thread) : (setThread s t v).issue = s.issue := rfl
@[simp] theorem setThread_cur (s : State) (t : Nat) (v : Thread) : (setThread s t v).cur = s.cur := rfl
@[simp] theorem setThread_turn (s : State) (t : Nat) (v : Thread) : (setThread s t v).turn = s.turn := rfl
@[simp] theorem setThread_draws (s : State) (t : Nat) (v : Thread) : (setThread s t v).draws = s.draws := rfl
@[simp] theorem setThread_launchSeq (s : State) (t : Nat) (v : Thread) : (setThread s t v).launchSeq = s.launchSeq := rfl
@[simp] theorem setThread_threadSeq (s : State) (t : Nat) (v : Thread) : (setThread s t v).threadSeq = s.threadSeq := rfl
@[simp] theorem setThread_cmdSeq (s : State) (t : Nat) (v : Thread) : (setThread s t v).cmdSeq = s.cmdSeq := rfl
@[simp] theorem setThread_time (s : State) (t : Nat) (v : Thread) : (setThread s t v).time = s.time := rfl
@[simp] theorem setThread_lag (s : State) (t : Nat) (v : Thread) : (setThread s t v).lag = s.lag := rfl
@[simp] theorem setThread_mem (s : State) (t : Nat) (v : Thread) : (setThread s t v).mem = s.mem := rfl
@[simp] theorem setThread_cxl (s : State) (t : Nat) (v : Thread) : (setThread s t v).cxl = s.cxl := rfl
@[simp] theorem setThread_side (s : State) (t : Nat) (v : Thread) : (setThread s t v).side = s.side := rfl
@[simp] theorem setThread_pot (s : State) (t : Nat) (v : Thread) : (setThread s t v).pot = s.pot := rfl
@[simp] theorem setThread_tlb (s : State) (t : Nat) (v : Thread) : (setThread s t v).tlb = s.tlb := rfl
@[simp] theorem setThread_tlb2 (s : State) (t : Nat) (v : Thread) : (setThread s t v).tlb2 = s.tlb2 := rfl
@[simp] theorem setThread_walks (s : State) (t : Nat) (v : Thread) : (setThread s t v).walks = s.walks := rfl
@[simp] theorem setThread_l1 (s : State) (t : Nat) (v : Thread) : (setThread s t v).l1 = s.l1 := rfl
@[simp] theorem setThread_icache (s : State) (t : Nat) (v : Thread) : (setThread s t v).icache = s.icache := rfl
@[simp] theorem setThread_retained (s : State) (t : Nat) (v : Thread) : (setThread s t v).retained = s.retained := rfl
@[simp] theorem setThread_phases (s : State) (t : Nat) (v : Thread) : (setThread s t v).phases = s.phases := rfl
@[simp] theorem setThread_l2 (s : State) (t : Nat) (v : Thread) : (setThread s t v).l2 = s.l2 := rfl
@[simp] theorem setThread_ms (s : State) (t : Nat) (v : Thread) : (setThread s t v).ms = s.ms := rfl
@[simp] theorem setThread_hbm (s : State) (t : Nat) (v : Thread) : (setThread s t v).hbm = s.hbm := rfl
@[simp] theorem setThread_reservations (s : State) (t : Nat) (v : Thread) : (setThread s t v).reservations = s.reservations := rfl
@[simp] theorem setThread_monitors (s : State) (t : Nat) (v : Thread) : (setThread s t v).monitors = s.monitors := rfl
@[simp] theorem setThread_scopes (s : State) (t : Nat) (v : Thread) : (setThread s t v).scopes = s.scopes := rfl
@[simp] theorem setThread_dirtyMaps (s : State) (t : Nat) (v : Thread) : (setThread s t v).dirtyMaps = s.dirtyMaps := rfl
@[simp] theorem setThread_launches (s : State) (t : Nat) (v : Thread) : (setThread s t v).launches = s.launches := rfl
@[simp] theorem setThread_bents (s : State) (t : Nat) (v : Thread) : (setThread s t v).bents = s.bents := rfl
@[simp] theorem setThread_threads (s : State) (t : Nat) (v : Thread) : (setThread s t v).threads = Tab.set s.threads t v := rfl
@[simp] theorem setThread_bays (s : State) (t : Nat) (v : Thread) : (setThread s t v).bays = s.bays := rfl
@[simp] theorem setThread_tickets (s : State) (t : Nat) (v : Thread) : (setThread s t v).tickets = s.tickets := rfl
@[simp] theorem setThread_lastServed (s : State) (t : Nat) (v : Thread) : (setThread s t v).lastServed = s.lastServed := rfl
@[simp] theorem setThread_lastPlaced (s : State) (t : Nat) (v : Thread) : (setThread s t v).lastPlaced = s.lastPlaced := rfl
@[simp] theorem setThread_placings (s : State) (t : Nat) (v : Thread) : (setThread s t v).placings = s.placings := rfl
@[simp] theorem setThread_cmds (s : State) (t : Nat) (v : Thread) : (setThread s t v).cmds = s.cmds := rfl
@[simp] theorem setThread_engineLast (s : State) (t : Nat) (v : Thread) : (setThread s t v).engineLast = s.engineLast := rfl
@[simp] theorem setThread_tenons (s : State) (t : Nat) (v : Thread) : (setThread s t v).tenons = s.tenons := rfl
@[simp] theorem setThread_answers (s : State) (t : Nat) (v : Thread) : (setThread s t v).answers = s.answers := rfl
@[simp] theorem setThread_routines (s : State) (t : Nat) (v : Thread) : (setThread s t v).routines = s.routines := rfl
@[simp] theorem setThread_contexts (s : State) (t : Nat) (v : Thread) : (setThread s t v).contexts = s.contexts := rfl
@[simp] theorem setThread_quarters (s : State) (t : Nat) (v : Thread) : (setThread s t v).quarters = s.quarters := rfl
@[simp] theorem setThread_segments (s : State) (t : Nat) (v : Thread) : (setThread s t v).segments = s.segments := rfl
@[simp] theorem setThread_cancelled (s : State) (t : Nat) (v : Thread) : (setThread s t v).cancelled = s.cancelled := rfl
@[simp] theorem setThread_requests (s : State) (t : Nat) (v : Thread) : (setThread s t v).requests = s.requests := rfl
@[simp] theorem setThread_saved (s : State) (t : Nat) (v : Thread) : (setThread s t v).saved = s.saved := rfl
@[simp] theorem setThread_rejected (s : State) (t : Nat) (v : Thread) : (setThread s t v).rejected = s.rejected := rfl
@[simp] theorem setThread_images (s : State) (t : Nat) (v : Thread) : (setThread s t v).images = s.images := rfl
@[simp] theorem setThread_migrated (s : State) (t : Nat) (v : Thread) : (setThread s t v).migrated = s.migrated := rfl
@[simp] theorem setThread_trace (s : State) (t : Nat) (v : Thread) : (setThread s t v).trace = s.trace := rfl
@[simp] theorem setThread_clusters (s : State) (t : Nat) (v : Thread) : (setThread s t v).clusters = s.clusters := rfl
@[simp] theorem setThread_colown (s : State) (t : Nat) (v : Thread) : (setThread s t v).colown = s.colown := rfl
@[simp] theorem setThread_pcfg (s : State) (t : Nat) (v : Thread) : (setThread s t v).pcfg = s.pcfg := rfl
@[simp] theorem setThread_sliceRegs (s : State) (t : Nat) (v : Thread) : (setThread s t v).sliceRegs = s.sliceRegs := rfl
@[simp] theorem setThread_msGate (s : State) (t : Nat) (v : Thread) : (setThread s t v).msGate = s.msGate := rfl
@[simp] theorem setThread_egress (s : State) (t : Nat) (v : Thread) : (setThread s t v).egress = s.egress := rfl
@[simp] theorem setThread_tstat (s : State) (t : Nat) (v : Thread) : (setThread s t v).tstat = s.tstat := rfl
@[simp] theorem setThread_irq (s : State) (t : Nat) (v : Thread) : (setThread s t v).irq = s.irq := rfl
@[simp] theorem setThread_mailbox (s : State) (t : Nat) (v : Thread) : (setThread s t v).mailbox = s.mailbox := rfl
@[simp] theorem setThread_mgmt (s : State) (t : Nat) (v : Thread) : (setThread s t v).mgmt = s.mgmt := rfl
@[simp] theorem setThread_enclaves (s : State) (t : Nat) (v : Thread) : (setThread s t v).enclaves = s.enclaves := rfl
@[simp] theorem setThread_root (s : State) (t : Nat) (v : Thread) : (setThread s t v).root = s.root := rfl
@[simp] theorem setThread_spdm (s : State) (t : Nat) (v : Thread) : (setThread s t v).spdm = s.spdm := rfl
@[simp] theorem setThread_streams (s : State) (t : Nat) (v : Thread) : (setThread s t v).streams = s.streams := rfl
@[simp] theorem setThread_tdisp (s : State) (t : Nat) (v : Thread) : (setThread s t v).tdisp = s.tdisp := rfl
@[simp] theorem setThread_harts (s : State) (t : Nat) (v : Thread) : (setThread s t v).harts = s.harts := rfl

/-! ### mapThreads -/

@[simp] theorem mapThreads_pending (s : State) (f : Nat → Thread → Thread) : (mapThreads s f).pending = s.pending := rfl
@[simp] theorem mapThreads_waits (s : State) (f : Nat → Thread → Thread) : (mapThreads s f).waits = s.waits := rfl
@[simp] theorem mapThreads_issue (s : State) (f : Nat → Thread → Thread) : (mapThreads s f).issue = s.issue := rfl
@[simp] theorem mapThreads_cur (s : State) (f : Nat → Thread → Thread) : (mapThreads s f).cur = s.cur := rfl
@[simp] theorem mapThreads_turn (s : State) (f : Nat → Thread → Thread) : (mapThreads s f).turn = s.turn := rfl
@[simp] theorem mapThreads_draws (s : State) (f : Nat → Thread → Thread) : (mapThreads s f).draws = s.draws := rfl
@[simp] theorem mapThreads_launchSeq (s : State) (f : Nat → Thread → Thread) : (mapThreads s f).launchSeq = s.launchSeq := rfl
@[simp] theorem mapThreads_threadSeq (s : State) (f : Nat → Thread → Thread) : (mapThreads s f).threadSeq = s.threadSeq := rfl
@[simp] theorem mapThreads_cmdSeq (s : State) (f : Nat → Thread → Thread) : (mapThreads s f).cmdSeq = s.cmdSeq := rfl
@[simp] theorem mapThreads_time (s : State) (f : Nat → Thread → Thread) : (mapThreads s f).time = s.time := rfl
@[simp] theorem mapThreads_lag (s : State) (f : Nat → Thread → Thread) : (mapThreads s f).lag = s.lag := rfl
@[simp] theorem mapThreads_mem (s : State) (f : Nat → Thread → Thread) : (mapThreads s f).mem = s.mem := rfl
@[simp] theorem mapThreads_cxl (s : State) (f : Nat → Thread → Thread) : (mapThreads s f).cxl = s.cxl := rfl
@[simp] theorem mapThreads_side (s : State) (f : Nat → Thread → Thread) : (mapThreads s f).side = s.side := rfl
@[simp] theorem mapThreads_pot (s : State) (f : Nat → Thread → Thread) : (mapThreads s f).pot = s.pot := rfl
@[simp] theorem mapThreads_tlb (s : State) (f : Nat → Thread → Thread) : (mapThreads s f).tlb = s.tlb := rfl
@[simp] theorem mapThreads_tlb2 (s : State) (f : Nat → Thread → Thread) : (mapThreads s f).tlb2 = s.tlb2 := rfl
@[simp] theorem mapThreads_walks (s : State) (f : Nat → Thread → Thread) : (mapThreads s f).walks = s.walks := rfl
@[simp] theorem mapThreads_l1 (s : State) (f : Nat → Thread → Thread) : (mapThreads s f).l1 = s.l1 := rfl
@[simp] theorem mapThreads_icache (s : State) (f : Nat → Thread → Thread) : (mapThreads s f).icache = s.icache := rfl
@[simp] theorem mapThreads_retained (s : State) (f : Nat → Thread → Thread) : (mapThreads s f).retained = s.retained := rfl
@[simp] theorem mapThreads_phases (s : State) (f : Nat → Thread → Thread) : (mapThreads s f).phases = s.phases := rfl
@[simp] theorem mapThreads_l2 (s : State) (f : Nat → Thread → Thread) : (mapThreads s f).l2 = s.l2 := rfl
@[simp] theorem mapThreads_ms (s : State) (f : Nat → Thread → Thread) : (mapThreads s f).ms = s.ms := rfl
@[simp] theorem mapThreads_hbm (s : State) (f : Nat → Thread → Thread) : (mapThreads s f).hbm = s.hbm := rfl
@[simp] theorem mapThreads_reservations (s : State) (f : Nat → Thread → Thread) : (mapThreads s f).reservations = s.reservations := rfl
@[simp] theorem mapThreads_monitors (s : State) (f : Nat → Thread → Thread) : (mapThreads s f).monitors = s.monitors := rfl
@[simp] theorem mapThreads_scopes (s : State) (f : Nat → Thread → Thread) : (mapThreads s f).scopes = s.scopes := rfl
@[simp] theorem mapThreads_dirtyMaps (s : State) (f : Nat → Thread → Thread) : (mapThreads s f).dirtyMaps = s.dirtyMaps := rfl
@[simp] theorem mapThreads_launches (s : State) (f : Nat → Thread → Thread) : (mapThreads s f).launches = s.launches := rfl
@[simp] theorem mapThreads_bents (s : State) (f : Nat → Thread → Thread) : (mapThreads s f).bents = s.bents := rfl
@[simp] theorem mapThreads_threads (s : State) (f : Nat → Thread → Thread) : (mapThreads s f).threads = s.threads.map fun (k, v) => (k, f k v) := rfl
@[simp] theorem mapThreads_bays (s : State) (f : Nat → Thread → Thread) : (mapThreads s f).bays = s.bays := rfl
@[simp] theorem mapThreads_tickets (s : State) (f : Nat → Thread → Thread) : (mapThreads s f).tickets = s.tickets := rfl
@[simp] theorem mapThreads_lastServed (s : State) (f : Nat → Thread → Thread) : (mapThreads s f).lastServed = s.lastServed := rfl
@[simp] theorem mapThreads_lastPlaced (s : State) (f : Nat → Thread → Thread) : (mapThreads s f).lastPlaced = s.lastPlaced := rfl
@[simp] theorem mapThreads_placings (s : State) (f : Nat → Thread → Thread) : (mapThreads s f).placings = s.placings := rfl
@[simp] theorem mapThreads_cmds (s : State) (f : Nat → Thread → Thread) : (mapThreads s f).cmds = s.cmds := rfl
@[simp] theorem mapThreads_engineLast (s : State) (f : Nat → Thread → Thread) : (mapThreads s f).engineLast = s.engineLast := rfl
@[simp] theorem mapThreads_tenons (s : State) (f : Nat → Thread → Thread) : (mapThreads s f).tenons = s.tenons := rfl
@[simp] theorem mapThreads_answers (s : State) (f : Nat → Thread → Thread) : (mapThreads s f).answers = s.answers := rfl
@[simp] theorem mapThreads_routines (s : State) (f : Nat → Thread → Thread) : (mapThreads s f).routines = s.routines := rfl
@[simp] theorem mapThreads_contexts (s : State) (f : Nat → Thread → Thread) : (mapThreads s f).contexts = s.contexts := rfl
@[simp] theorem mapThreads_quarters (s : State) (f : Nat → Thread → Thread) : (mapThreads s f).quarters = s.quarters := rfl
@[simp] theorem mapThreads_segments (s : State) (f : Nat → Thread → Thread) : (mapThreads s f).segments = s.segments := rfl
@[simp] theorem mapThreads_cancelled (s : State) (f : Nat → Thread → Thread) : (mapThreads s f).cancelled = s.cancelled := rfl
@[simp] theorem mapThreads_requests (s : State) (f : Nat → Thread → Thread) : (mapThreads s f).requests = s.requests := rfl
@[simp] theorem mapThreads_saved (s : State) (f : Nat → Thread → Thread) : (mapThreads s f).saved = s.saved := rfl
@[simp] theorem mapThreads_rejected (s : State) (f : Nat → Thread → Thread) : (mapThreads s f).rejected = s.rejected := rfl
@[simp] theorem mapThreads_images (s : State) (f : Nat → Thread → Thread) : (mapThreads s f).images = s.images := rfl
@[simp] theorem mapThreads_migrated (s : State) (f : Nat → Thread → Thread) : (mapThreads s f).migrated = s.migrated := rfl
@[simp] theorem mapThreads_trace (s : State) (f : Nat → Thread → Thread) : (mapThreads s f).trace = s.trace := rfl
@[simp] theorem mapThreads_clusters (s : State) (f : Nat → Thread → Thread) : (mapThreads s f).clusters = s.clusters := rfl
@[simp] theorem mapThreads_colown (s : State) (f : Nat → Thread → Thread) : (mapThreads s f).colown = s.colown := rfl
@[simp] theorem mapThreads_pcfg (s : State) (f : Nat → Thread → Thread) : (mapThreads s f).pcfg = s.pcfg := rfl
@[simp] theorem mapThreads_sliceRegs (s : State) (f : Nat → Thread → Thread) : (mapThreads s f).sliceRegs = s.sliceRegs := rfl
@[simp] theorem mapThreads_msGate (s : State) (f : Nat → Thread → Thread) : (mapThreads s f).msGate = s.msGate := rfl
@[simp] theorem mapThreads_egress (s : State) (f : Nat → Thread → Thread) : (mapThreads s f).egress = s.egress := rfl
@[simp] theorem mapThreads_tstat (s : State) (f : Nat → Thread → Thread) : (mapThreads s f).tstat = s.tstat := rfl
@[simp] theorem mapThreads_irq (s : State) (f : Nat → Thread → Thread) : (mapThreads s f).irq = s.irq := rfl
@[simp] theorem mapThreads_mailbox (s : State) (f : Nat → Thread → Thread) : (mapThreads s f).mailbox = s.mailbox := rfl
@[simp] theorem mapThreads_mgmt (s : State) (f : Nat → Thread → Thread) : (mapThreads s f).mgmt = s.mgmt := rfl
@[simp] theorem mapThreads_enclaves (s : State) (f : Nat → Thread → Thread) : (mapThreads s f).enclaves = s.enclaves := rfl
@[simp] theorem mapThreads_root (s : State) (f : Nat → Thread → Thread) : (mapThreads s f).root = s.root := rfl
@[simp] theorem mapThreads_spdm (s : State) (f : Nat → Thread → Thread) : (mapThreads s f).spdm = s.spdm := rfl
@[simp] theorem mapThreads_streams (s : State) (f : Nat → Thread → Thread) : (mapThreads s f).streams = s.streams := rfl
@[simp] theorem mapThreads_tdisp (s : State) (f : Nat → Thread → Thread) : (mapThreads s f).tdisp = s.tdisp := rfl
@[simp] theorem mapThreads_harts (s : State) (f : Nat → Thread → Thread) : (mapThreads s f).harts = s.harts := rfl

/-! ### setQuarter -/

@[simp] theorem setQuarter_pending (s : State) (q : Nat) (f : Quarter → Quarter) : (setQuarter s q f).pending = s.pending := rfl
@[simp] theorem setQuarter_waits (s : State) (q : Nat) (f : Quarter → Quarter) : (setQuarter s q f).waits = s.waits := rfl
@[simp] theorem setQuarter_issue (s : State) (q : Nat) (f : Quarter → Quarter) : (setQuarter s q f).issue = s.issue := rfl
@[simp] theorem setQuarter_cur (s : State) (q : Nat) (f : Quarter → Quarter) : (setQuarter s q f).cur = s.cur := rfl
@[simp] theorem setQuarter_turn (s : State) (q : Nat) (f : Quarter → Quarter) : (setQuarter s q f).turn = s.turn := rfl
@[simp] theorem setQuarter_draws (s : State) (q : Nat) (f : Quarter → Quarter) : (setQuarter s q f).draws = s.draws := rfl
@[simp] theorem setQuarter_launchSeq (s : State) (q : Nat) (f : Quarter → Quarter) : (setQuarter s q f).launchSeq = s.launchSeq := rfl
@[simp] theorem setQuarter_threadSeq (s : State) (q : Nat) (f : Quarter → Quarter) : (setQuarter s q f).threadSeq = s.threadSeq := rfl
@[simp] theorem setQuarter_cmdSeq (s : State) (q : Nat) (f : Quarter → Quarter) : (setQuarter s q f).cmdSeq = s.cmdSeq := rfl
@[simp] theorem setQuarter_time (s : State) (q : Nat) (f : Quarter → Quarter) : (setQuarter s q f).time = s.time := rfl
@[simp] theorem setQuarter_lag (s : State) (q : Nat) (f : Quarter → Quarter) : (setQuarter s q f).lag = s.lag := rfl
@[simp] theorem setQuarter_mem (s : State) (q : Nat) (f : Quarter → Quarter) : (setQuarter s q f).mem = s.mem := rfl
@[simp] theorem setQuarter_cxl (s : State) (q : Nat) (f : Quarter → Quarter) : (setQuarter s q f).cxl = s.cxl := rfl
@[simp] theorem setQuarter_side (s : State) (q : Nat) (f : Quarter → Quarter) : (setQuarter s q f).side = s.side := rfl
@[simp] theorem setQuarter_pot (s : State) (q : Nat) (f : Quarter → Quarter) : (setQuarter s q f).pot = s.pot := rfl
@[simp] theorem setQuarter_tlb (s : State) (q : Nat) (f : Quarter → Quarter) : (setQuarter s q f).tlb = s.tlb := rfl
@[simp] theorem setQuarter_tlb2 (s : State) (q : Nat) (f : Quarter → Quarter) : (setQuarter s q f).tlb2 = s.tlb2 := rfl
@[simp] theorem setQuarter_walks (s : State) (q : Nat) (f : Quarter → Quarter) : (setQuarter s q f).walks = s.walks := rfl
@[simp] theorem setQuarter_l1 (s : State) (q : Nat) (f : Quarter → Quarter) : (setQuarter s q f).l1 = s.l1 := rfl
@[simp] theorem setQuarter_icache (s : State) (q : Nat) (f : Quarter → Quarter) : (setQuarter s q f).icache = s.icache := rfl
@[simp] theorem setQuarter_retained (s : State) (q : Nat) (f : Quarter → Quarter) : (setQuarter s q f).retained = s.retained := rfl
@[simp] theorem setQuarter_phases (s : State) (q : Nat) (f : Quarter → Quarter) : (setQuarter s q f).phases = s.phases := rfl
@[simp] theorem setQuarter_l2 (s : State) (q : Nat) (f : Quarter → Quarter) : (setQuarter s q f).l2 = s.l2 := rfl
@[simp] theorem setQuarter_ms (s : State) (q : Nat) (f : Quarter → Quarter) : (setQuarter s q f).ms = s.ms := rfl
@[simp] theorem setQuarter_hbm (s : State) (q : Nat) (f : Quarter → Quarter) : (setQuarter s q f).hbm = s.hbm := rfl
@[simp] theorem setQuarter_reservations (s : State) (q : Nat) (f : Quarter → Quarter) : (setQuarter s q f).reservations = s.reservations := rfl
@[simp] theorem setQuarter_monitors (s : State) (q : Nat) (f : Quarter → Quarter) : (setQuarter s q f).monitors = s.monitors := rfl
@[simp] theorem setQuarter_scopes (s : State) (q : Nat) (f : Quarter → Quarter) : (setQuarter s q f).scopes = s.scopes := rfl
@[simp] theorem setQuarter_dirtyMaps (s : State) (q : Nat) (f : Quarter → Quarter) : (setQuarter s q f).dirtyMaps = s.dirtyMaps := rfl
@[simp] theorem setQuarter_launches (s : State) (q : Nat) (f : Quarter → Quarter) : (setQuarter s q f).launches = s.launches := rfl
@[simp] theorem setQuarter_bents (s : State) (q : Nat) (f : Quarter → Quarter) : (setQuarter s q f).bents = s.bents := rfl
@[simp] theorem setQuarter_threads (s : State) (q : Nat) (f : Quarter → Quarter) : (setQuarter s q f).threads = s.threads := rfl
@[simp] theorem setQuarter_bays (s : State) (q : Nat) (f : Quarter → Quarter) : (setQuarter s q f).bays = s.bays := rfl
@[simp] theorem setQuarter_tickets (s : State) (q : Nat) (f : Quarter → Quarter) : (setQuarter s q f).tickets = s.tickets := rfl
@[simp] theorem setQuarter_lastServed (s : State) (q : Nat) (f : Quarter → Quarter) : (setQuarter s q f).lastServed = s.lastServed := rfl
@[simp] theorem setQuarter_lastPlaced (s : State) (q : Nat) (f : Quarter → Quarter) : (setQuarter s q f).lastPlaced = s.lastPlaced := rfl
@[simp] theorem setQuarter_placings (s : State) (q : Nat) (f : Quarter → Quarter) : (setQuarter s q f).placings = s.placings := rfl
@[simp] theorem setQuarter_cmds (s : State) (q : Nat) (f : Quarter → Quarter) : (setQuarter s q f).cmds = s.cmds := rfl
@[simp] theorem setQuarter_engineLast (s : State) (q : Nat) (f : Quarter → Quarter) : (setQuarter s q f).engineLast = s.engineLast := rfl
@[simp] theorem setQuarter_tenons (s : State) (q : Nat) (f : Quarter → Quarter) : (setQuarter s q f).tenons = s.tenons := rfl
@[simp] theorem setQuarter_answers (s : State) (q : Nat) (f : Quarter → Quarter) : (setQuarter s q f).answers = s.answers := rfl
@[simp] theorem setQuarter_routines (s : State) (q : Nat) (f : Quarter → Quarter) : (setQuarter s q f).routines = s.routines := rfl
@[simp] theorem setQuarter_contexts (s : State) (q : Nat) (f : Quarter → Quarter) : (setQuarter s q f).contexts = s.contexts := rfl
@[simp] theorem setQuarter_quarters (s : State) (q : Nat) (f : Quarter → Quarter) : (setQuarter s q f).quarters = Tab.set s.quarters q (f (quarterOf s q)) := rfl
@[simp] theorem setQuarter_segments (s : State) (q : Nat) (f : Quarter → Quarter) : (setQuarter s q f).segments = s.segments := rfl
@[simp] theorem setQuarter_cancelled (s : State) (q : Nat) (f : Quarter → Quarter) : (setQuarter s q f).cancelled = s.cancelled := rfl
@[simp] theorem setQuarter_requests (s : State) (q : Nat) (f : Quarter → Quarter) : (setQuarter s q f).requests = s.requests := rfl
@[simp] theorem setQuarter_saved (s : State) (q : Nat) (f : Quarter → Quarter) : (setQuarter s q f).saved = s.saved := rfl
@[simp] theorem setQuarter_rejected (s : State) (q : Nat) (f : Quarter → Quarter) : (setQuarter s q f).rejected = s.rejected := rfl
@[simp] theorem setQuarter_images (s : State) (q : Nat) (f : Quarter → Quarter) : (setQuarter s q f).images = s.images := rfl
@[simp] theorem setQuarter_migrated (s : State) (q : Nat) (f : Quarter → Quarter) : (setQuarter s q f).migrated = s.migrated := rfl
@[simp] theorem setQuarter_trace (s : State) (q : Nat) (f : Quarter → Quarter) : (setQuarter s q f).trace = s.trace := rfl
@[simp] theorem setQuarter_clusters (s : State) (q : Nat) (f : Quarter → Quarter) : (setQuarter s q f).clusters = s.clusters := rfl
@[simp] theorem setQuarter_colown (s : State) (q : Nat) (f : Quarter → Quarter) : (setQuarter s q f).colown = s.colown := rfl
@[simp] theorem setQuarter_pcfg (s : State) (q : Nat) (f : Quarter → Quarter) : (setQuarter s q f).pcfg = s.pcfg := rfl
@[simp] theorem setQuarter_sliceRegs (s : State) (q : Nat) (f : Quarter → Quarter) : (setQuarter s q f).sliceRegs = s.sliceRegs := rfl
@[simp] theorem setQuarter_msGate (s : State) (q : Nat) (f : Quarter → Quarter) : (setQuarter s q f).msGate = s.msGate := rfl
@[simp] theorem setQuarter_egress (s : State) (q : Nat) (f : Quarter → Quarter) : (setQuarter s q f).egress = s.egress := rfl
@[simp] theorem setQuarter_tstat (s : State) (q : Nat) (f : Quarter → Quarter) : (setQuarter s q f).tstat = s.tstat := rfl
@[simp] theorem setQuarter_irq (s : State) (q : Nat) (f : Quarter → Quarter) : (setQuarter s q f).irq = s.irq := rfl
@[simp] theorem setQuarter_mailbox (s : State) (q : Nat) (f : Quarter → Quarter) : (setQuarter s q f).mailbox = s.mailbox := rfl
@[simp] theorem setQuarter_mgmt (s : State) (q : Nat) (f : Quarter → Quarter) : (setQuarter s q f).mgmt = s.mgmt := rfl
@[simp] theorem setQuarter_enclaves (s : State) (q : Nat) (f : Quarter → Quarter) : (setQuarter s q f).enclaves = s.enclaves := rfl
@[simp] theorem setQuarter_root (s : State) (q : Nat) (f : Quarter → Quarter) : (setQuarter s q f).root = s.root := rfl
@[simp] theorem setQuarter_spdm (s : State) (q : Nat) (f : Quarter → Quarter) : (setQuarter s q f).spdm = s.spdm := rfl
@[simp] theorem setQuarter_streams (s : State) (q : Nat) (f : Quarter → Quarter) : (setQuarter s q f).streams = s.streams := rfl
@[simp] theorem setQuarter_tdisp (s : State) (q : Nat) (f : Quarter → Quarter) : (setQuarter s q f).tdisp = s.tdisp := rfl
@[simp] theorem setQuarter_harts (s : State) (q : Nat) (f : Quarter → Quarter) : (setQuarter s q f).harts = s.harts := rfl

/-! ### setCmd -/

@[simp] theorem setCmd_pending (s : State) (c : Nat) (f : CopyCmd → CopyCmd) : (setCmd s c f).pending = s.pending := rfl
@[simp] theorem setCmd_waits (s : State) (c : Nat) (f : CopyCmd → CopyCmd) : (setCmd s c f).waits = s.waits := rfl
@[simp] theorem setCmd_issue (s : State) (c : Nat) (f : CopyCmd → CopyCmd) : (setCmd s c f).issue = s.issue := rfl
@[simp] theorem setCmd_cur (s : State) (c : Nat) (f : CopyCmd → CopyCmd) : (setCmd s c f).cur = s.cur := rfl
@[simp] theorem setCmd_turn (s : State) (c : Nat) (f : CopyCmd → CopyCmd) : (setCmd s c f).turn = s.turn := rfl
@[simp] theorem setCmd_draws (s : State) (c : Nat) (f : CopyCmd → CopyCmd) : (setCmd s c f).draws = s.draws := rfl
@[simp] theorem setCmd_launchSeq (s : State) (c : Nat) (f : CopyCmd → CopyCmd) : (setCmd s c f).launchSeq = s.launchSeq := rfl
@[simp] theorem setCmd_threadSeq (s : State) (c : Nat) (f : CopyCmd → CopyCmd) : (setCmd s c f).threadSeq = s.threadSeq := rfl
@[simp] theorem setCmd_cmdSeq (s : State) (c : Nat) (f : CopyCmd → CopyCmd) : (setCmd s c f).cmdSeq = s.cmdSeq := rfl
@[simp] theorem setCmd_time (s : State) (c : Nat) (f : CopyCmd → CopyCmd) : (setCmd s c f).time = s.time := rfl
@[simp] theorem setCmd_lag (s : State) (c : Nat) (f : CopyCmd → CopyCmd) : (setCmd s c f).lag = s.lag := rfl
@[simp] theorem setCmd_mem (s : State) (c : Nat) (f : CopyCmd → CopyCmd) : (setCmd s c f).mem = s.mem := rfl
@[simp] theorem setCmd_cxl (s : State) (c : Nat) (f : CopyCmd → CopyCmd) : (setCmd s c f).cxl = s.cxl := rfl
@[simp] theorem setCmd_side (s : State) (c : Nat) (f : CopyCmd → CopyCmd) : (setCmd s c f).side = s.side := rfl
@[simp] theorem setCmd_pot (s : State) (c : Nat) (f : CopyCmd → CopyCmd) : (setCmd s c f).pot = s.pot := rfl
@[simp] theorem setCmd_tlb (s : State) (c : Nat) (f : CopyCmd → CopyCmd) : (setCmd s c f).tlb = s.tlb := rfl
@[simp] theorem setCmd_tlb2 (s : State) (c : Nat) (f : CopyCmd → CopyCmd) : (setCmd s c f).tlb2 = s.tlb2 := rfl
@[simp] theorem setCmd_walks (s : State) (c : Nat) (f : CopyCmd → CopyCmd) : (setCmd s c f).walks = s.walks := rfl
@[simp] theorem setCmd_l1 (s : State) (c : Nat) (f : CopyCmd → CopyCmd) : (setCmd s c f).l1 = s.l1 := rfl
@[simp] theorem setCmd_icache (s : State) (c : Nat) (f : CopyCmd → CopyCmd) : (setCmd s c f).icache = s.icache := rfl
@[simp] theorem setCmd_retained (s : State) (c : Nat) (f : CopyCmd → CopyCmd) : (setCmd s c f).retained = s.retained := rfl
@[simp] theorem setCmd_phases (s : State) (c : Nat) (f : CopyCmd → CopyCmd) : (setCmd s c f).phases = s.phases := rfl
@[simp] theorem setCmd_l2 (s : State) (c : Nat) (f : CopyCmd → CopyCmd) : (setCmd s c f).l2 = s.l2 := rfl
@[simp] theorem setCmd_ms (s : State) (c : Nat) (f : CopyCmd → CopyCmd) : (setCmd s c f).ms = s.ms := rfl
@[simp] theorem setCmd_hbm (s : State) (c : Nat) (f : CopyCmd → CopyCmd) : (setCmd s c f).hbm = s.hbm := rfl
@[simp] theorem setCmd_reservations (s : State) (c : Nat) (f : CopyCmd → CopyCmd) : (setCmd s c f).reservations = s.reservations := rfl
@[simp] theorem setCmd_monitors (s : State) (c : Nat) (f : CopyCmd → CopyCmd) : (setCmd s c f).monitors = s.monitors := rfl
@[simp] theorem setCmd_scopes (s : State) (c : Nat) (f : CopyCmd → CopyCmd) : (setCmd s c f).scopes = s.scopes := rfl
@[simp] theorem setCmd_dirtyMaps (s : State) (c : Nat) (f : CopyCmd → CopyCmd) : (setCmd s c f).dirtyMaps = s.dirtyMaps := rfl
@[simp] theorem setCmd_launches (s : State) (c : Nat) (f : CopyCmd → CopyCmd) : (setCmd s c f).launches = s.launches := rfl
@[simp] theorem setCmd_bents (s : State) (c : Nat) (f : CopyCmd → CopyCmd) : (setCmd s c f).bents = s.bents := rfl
@[simp] theorem setCmd_threads (s : State) (c : Nat) (f : CopyCmd → CopyCmd) : (setCmd s c f).threads = s.threads := rfl
@[simp] theorem setCmd_bays (s : State) (c : Nat) (f : CopyCmd → CopyCmd) : (setCmd s c f).bays = s.bays := rfl
@[simp] theorem setCmd_tickets (s : State) (c : Nat) (f : CopyCmd → CopyCmd) : (setCmd s c f).tickets = s.tickets := rfl
@[simp] theorem setCmd_lastServed (s : State) (c : Nat) (f : CopyCmd → CopyCmd) : (setCmd s c f).lastServed = s.lastServed := rfl
@[simp] theorem setCmd_lastPlaced (s : State) (c : Nat) (f : CopyCmd → CopyCmd) : (setCmd s c f).lastPlaced = s.lastPlaced := rfl
@[simp] theorem setCmd_placings (s : State) (c : Nat) (f : CopyCmd → CopyCmd) : (setCmd s c f).placings = s.placings := rfl
@[simp] theorem setCmd_cmds (s : State) (c : Nat) (f : CopyCmd → CopyCmd) : (setCmd s c f).cmds = Tab.modify s.cmds c f := rfl
@[simp] theorem setCmd_engineLast (s : State) (c : Nat) (f : CopyCmd → CopyCmd) : (setCmd s c f).engineLast = s.engineLast := rfl
@[simp] theorem setCmd_tenons (s : State) (c : Nat) (f : CopyCmd → CopyCmd) : (setCmd s c f).tenons = s.tenons := rfl
@[simp] theorem setCmd_answers (s : State) (c : Nat) (f : CopyCmd → CopyCmd) : (setCmd s c f).answers = s.answers := rfl
@[simp] theorem setCmd_routines (s : State) (c : Nat) (f : CopyCmd → CopyCmd) : (setCmd s c f).routines = s.routines := rfl
@[simp] theorem setCmd_contexts (s : State) (c : Nat) (f : CopyCmd → CopyCmd) : (setCmd s c f).contexts = s.contexts := rfl
@[simp] theorem setCmd_quarters (s : State) (c : Nat) (f : CopyCmd → CopyCmd) : (setCmd s c f).quarters = s.quarters := rfl
@[simp] theorem setCmd_segments (s : State) (c : Nat) (f : CopyCmd → CopyCmd) : (setCmd s c f).segments = s.segments := rfl
@[simp] theorem setCmd_cancelled (s : State) (c : Nat) (f : CopyCmd → CopyCmd) : (setCmd s c f).cancelled = s.cancelled := rfl
@[simp] theorem setCmd_requests (s : State) (c : Nat) (f : CopyCmd → CopyCmd) : (setCmd s c f).requests = s.requests := rfl
@[simp] theorem setCmd_saved (s : State) (c : Nat) (f : CopyCmd → CopyCmd) : (setCmd s c f).saved = s.saved := rfl
@[simp] theorem setCmd_rejected (s : State) (c : Nat) (f : CopyCmd → CopyCmd) : (setCmd s c f).rejected = s.rejected := rfl
@[simp] theorem setCmd_images (s : State) (c : Nat) (f : CopyCmd → CopyCmd) : (setCmd s c f).images = s.images := rfl
@[simp] theorem setCmd_migrated (s : State) (c : Nat) (f : CopyCmd → CopyCmd) : (setCmd s c f).migrated = s.migrated := rfl
@[simp] theorem setCmd_trace (s : State) (c : Nat) (f : CopyCmd → CopyCmd) : (setCmd s c f).trace = s.trace := rfl
@[simp] theorem setCmd_clusters (s : State) (c : Nat) (f : CopyCmd → CopyCmd) : (setCmd s c f).clusters = s.clusters := rfl
@[simp] theorem setCmd_colown (s : State) (c : Nat) (f : CopyCmd → CopyCmd) : (setCmd s c f).colown = s.colown := rfl
@[simp] theorem setCmd_pcfg (s : State) (c : Nat) (f : CopyCmd → CopyCmd) : (setCmd s c f).pcfg = s.pcfg := rfl
@[simp] theorem setCmd_sliceRegs (s : State) (c : Nat) (f : CopyCmd → CopyCmd) : (setCmd s c f).sliceRegs = s.sliceRegs := rfl
@[simp] theorem setCmd_msGate (s : State) (c : Nat) (f : CopyCmd → CopyCmd) : (setCmd s c f).msGate = s.msGate := rfl
@[simp] theorem setCmd_egress (s : State) (c : Nat) (f : CopyCmd → CopyCmd) : (setCmd s c f).egress = s.egress := rfl
@[simp] theorem setCmd_tstat (s : State) (c : Nat) (f : CopyCmd → CopyCmd) : (setCmd s c f).tstat = s.tstat := rfl
@[simp] theorem setCmd_irq (s : State) (c : Nat) (f : CopyCmd → CopyCmd) : (setCmd s c f).irq = s.irq := rfl
@[simp] theorem setCmd_mailbox (s : State) (c : Nat) (f : CopyCmd → CopyCmd) : (setCmd s c f).mailbox = s.mailbox := rfl
@[simp] theorem setCmd_mgmt (s : State) (c : Nat) (f : CopyCmd → CopyCmd) : (setCmd s c f).mgmt = s.mgmt := rfl
@[simp] theorem setCmd_enclaves (s : State) (c : Nat) (f : CopyCmd → CopyCmd) : (setCmd s c f).enclaves = s.enclaves := rfl
@[simp] theorem setCmd_root (s : State) (c : Nat) (f : CopyCmd → CopyCmd) : (setCmd s c f).root = s.root := rfl
@[simp] theorem setCmd_spdm (s : State) (c : Nat) (f : CopyCmd → CopyCmd) : (setCmd s c f).spdm = s.spdm := rfl
@[simp] theorem setCmd_streams (s : State) (c : Nat) (f : CopyCmd → CopyCmd) : (setCmd s c f).streams = s.streams := rfl
@[simp] theorem setCmd_tdisp (s : State) (c : Nat) (f : CopyCmd → CopyCmd) : (setCmd s c f).tdisp = s.tdisp := rfl
@[simp] theorem setCmd_harts (s : State) (c : Nat) (f : CopyCmd → CopyCmd) : (setCmd s c f).harts = s.harts := rfl

/-! ### setEnclave -/

@[simp] theorem setEnclave_pending (s : State) (e : Nat) (f : Enclave → Enclave) : (setEnclave s e f).pending = s.pending := rfl
@[simp] theorem setEnclave_waits (s : State) (e : Nat) (f : Enclave → Enclave) : (setEnclave s e f).waits = s.waits := rfl
@[simp] theorem setEnclave_issue (s : State) (e : Nat) (f : Enclave → Enclave) : (setEnclave s e f).issue = s.issue := rfl
@[simp] theorem setEnclave_cur (s : State) (e : Nat) (f : Enclave → Enclave) : (setEnclave s e f).cur = s.cur := rfl
@[simp] theorem setEnclave_turn (s : State) (e : Nat) (f : Enclave → Enclave) : (setEnclave s e f).turn = s.turn := rfl
@[simp] theorem setEnclave_draws (s : State) (e : Nat) (f : Enclave → Enclave) : (setEnclave s e f).draws = s.draws := rfl
@[simp] theorem setEnclave_launchSeq (s : State) (e : Nat) (f : Enclave → Enclave) : (setEnclave s e f).launchSeq = s.launchSeq := rfl
@[simp] theorem setEnclave_threadSeq (s : State) (e : Nat) (f : Enclave → Enclave) : (setEnclave s e f).threadSeq = s.threadSeq := rfl
@[simp] theorem setEnclave_cmdSeq (s : State) (e : Nat) (f : Enclave → Enclave) : (setEnclave s e f).cmdSeq = s.cmdSeq := rfl
@[simp] theorem setEnclave_time (s : State) (e : Nat) (f : Enclave → Enclave) : (setEnclave s e f).time = s.time := rfl
@[simp] theorem setEnclave_lag (s : State) (e : Nat) (f : Enclave → Enclave) : (setEnclave s e f).lag = s.lag := rfl
@[simp] theorem setEnclave_mem (s : State) (e : Nat) (f : Enclave → Enclave) : (setEnclave s e f).mem = s.mem := rfl
@[simp] theorem setEnclave_cxl (s : State) (e : Nat) (f : Enclave → Enclave) : (setEnclave s e f).cxl = s.cxl := rfl
@[simp] theorem setEnclave_side (s : State) (e : Nat) (f : Enclave → Enclave) : (setEnclave s e f).side = s.side := rfl
@[simp] theorem setEnclave_pot (s : State) (e : Nat) (f : Enclave → Enclave) : (setEnclave s e f).pot = s.pot := rfl
@[simp] theorem setEnclave_tlb (s : State) (e : Nat) (f : Enclave → Enclave) : (setEnclave s e f).tlb = s.tlb := rfl
@[simp] theorem setEnclave_tlb2 (s : State) (e : Nat) (f : Enclave → Enclave) : (setEnclave s e f).tlb2 = s.tlb2 := rfl
@[simp] theorem setEnclave_walks (s : State) (e : Nat) (f : Enclave → Enclave) : (setEnclave s e f).walks = s.walks := rfl
@[simp] theorem setEnclave_l1 (s : State) (e : Nat) (f : Enclave → Enclave) : (setEnclave s e f).l1 = s.l1 := rfl
@[simp] theorem setEnclave_icache (s : State) (e : Nat) (f : Enclave → Enclave) : (setEnclave s e f).icache = s.icache := rfl
@[simp] theorem setEnclave_retained (s : State) (e : Nat) (f : Enclave → Enclave) : (setEnclave s e f).retained = s.retained := rfl
@[simp] theorem setEnclave_phases (s : State) (e : Nat) (f : Enclave → Enclave) : (setEnclave s e f).phases = s.phases := rfl
@[simp] theorem setEnclave_l2 (s : State) (e : Nat) (f : Enclave → Enclave) : (setEnclave s e f).l2 = s.l2 := rfl
@[simp] theorem setEnclave_ms (s : State) (e : Nat) (f : Enclave → Enclave) : (setEnclave s e f).ms = s.ms := rfl
@[simp] theorem setEnclave_hbm (s : State) (e : Nat) (f : Enclave → Enclave) : (setEnclave s e f).hbm = s.hbm := rfl
@[simp] theorem setEnclave_reservations (s : State) (e : Nat) (f : Enclave → Enclave) : (setEnclave s e f).reservations = s.reservations := rfl
@[simp] theorem setEnclave_monitors (s : State) (e : Nat) (f : Enclave → Enclave) : (setEnclave s e f).monitors = s.monitors := rfl
@[simp] theorem setEnclave_scopes (s : State) (e : Nat) (f : Enclave → Enclave) : (setEnclave s e f).scopes = s.scopes := rfl
@[simp] theorem setEnclave_dirtyMaps (s : State) (e : Nat) (f : Enclave → Enclave) : (setEnclave s e f).dirtyMaps = s.dirtyMaps := rfl
@[simp] theorem setEnclave_launches (s : State) (e : Nat) (f : Enclave → Enclave) : (setEnclave s e f).launches = s.launches := rfl
@[simp] theorem setEnclave_bents (s : State) (e : Nat) (f : Enclave → Enclave) : (setEnclave s e f).bents = s.bents := rfl
@[simp] theorem setEnclave_threads (s : State) (e : Nat) (f : Enclave → Enclave) : (setEnclave s e f).threads = s.threads := rfl
@[simp] theorem setEnclave_bays (s : State) (e : Nat) (f : Enclave → Enclave) : (setEnclave s e f).bays = s.bays := rfl
@[simp] theorem setEnclave_tickets (s : State) (e : Nat) (f : Enclave → Enclave) : (setEnclave s e f).tickets = s.tickets := rfl
@[simp] theorem setEnclave_lastServed (s : State) (e : Nat) (f : Enclave → Enclave) : (setEnclave s e f).lastServed = s.lastServed := rfl
@[simp] theorem setEnclave_lastPlaced (s : State) (e : Nat) (f : Enclave → Enclave) : (setEnclave s e f).lastPlaced = s.lastPlaced := rfl
@[simp] theorem setEnclave_placings (s : State) (e : Nat) (f : Enclave → Enclave) : (setEnclave s e f).placings = s.placings := rfl
@[simp] theorem setEnclave_cmds (s : State) (e : Nat) (f : Enclave → Enclave) : (setEnclave s e f).cmds = s.cmds := rfl
@[simp] theorem setEnclave_engineLast (s : State) (e : Nat) (f : Enclave → Enclave) : (setEnclave s e f).engineLast = s.engineLast := rfl
@[simp] theorem setEnclave_tenons (s : State) (e : Nat) (f : Enclave → Enclave) : (setEnclave s e f).tenons = s.tenons := rfl
@[simp] theorem setEnclave_answers (s : State) (e : Nat) (f : Enclave → Enclave) : (setEnclave s e f).answers = s.answers := rfl
@[simp] theorem setEnclave_routines (s : State) (e : Nat) (f : Enclave → Enclave) : (setEnclave s e f).routines = s.routines := rfl
@[simp] theorem setEnclave_contexts (s : State) (e : Nat) (f : Enclave → Enclave) : (setEnclave s e f).contexts = s.contexts := rfl
@[simp] theorem setEnclave_quarters (s : State) (e : Nat) (f : Enclave → Enclave) : (setEnclave s e f).quarters = s.quarters := rfl
@[simp] theorem setEnclave_segments (s : State) (e : Nat) (f : Enclave → Enclave) : (setEnclave s e f).segments = s.segments := rfl
@[simp] theorem setEnclave_cancelled (s : State) (e : Nat) (f : Enclave → Enclave) : (setEnclave s e f).cancelled = s.cancelled := rfl
@[simp] theorem setEnclave_requests (s : State) (e : Nat) (f : Enclave → Enclave) : (setEnclave s e f).requests = s.requests := rfl
@[simp] theorem setEnclave_saved (s : State) (e : Nat) (f : Enclave → Enclave) : (setEnclave s e f).saved = s.saved := rfl
@[simp] theorem setEnclave_rejected (s : State) (e : Nat) (f : Enclave → Enclave) : (setEnclave s e f).rejected = s.rejected := rfl
@[simp] theorem setEnclave_images (s : State) (e : Nat) (f : Enclave → Enclave) : (setEnclave s e f).images = s.images := rfl
@[simp] theorem setEnclave_migrated (s : State) (e : Nat) (f : Enclave → Enclave) : (setEnclave s e f).migrated = s.migrated := rfl
@[simp] theorem setEnclave_trace (s : State) (e : Nat) (f : Enclave → Enclave) : (setEnclave s e f).trace = s.trace := rfl
@[simp] theorem setEnclave_clusters (s : State) (e : Nat) (f : Enclave → Enclave) : (setEnclave s e f).clusters = s.clusters := rfl
@[simp] theorem setEnclave_colown (s : State) (e : Nat) (f : Enclave → Enclave) : (setEnclave s e f).colown = s.colown := rfl
@[simp] theorem setEnclave_pcfg (s : State) (e : Nat) (f : Enclave → Enclave) : (setEnclave s e f).pcfg = s.pcfg := rfl
@[simp] theorem setEnclave_sliceRegs (s : State) (e : Nat) (f : Enclave → Enclave) : (setEnclave s e f).sliceRegs = s.sliceRegs := rfl
@[simp] theorem setEnclave_msGate (s : State) (e : Nat) (f : Enclave → Enclave) : (setEnclave s e f).msGate = s.msGate := rfl
@[simp] theorem setEnclave_egress (s : State) (e : Nat) (f : Enclave → Enclave) : (setEnclave s e f).egress = s.egress := rfl
@[simp] theorem setEnclave_tstat (s : State) (e : Nat) (f : Enclave → Enclave) : (setEnclave s e f).tstat = s.tstat := rfl
@[simp] theorem setEnclave_irq (s : State) (e : Nat) (f : Enclave → Enclave) : (setEnclave s e f).irq = s.irq := rfl
@[simp] theorem setEnclave_mailbox (s : State) (e : Nat) (f : Enclave → Enclave) : (setEnclave s e f).mailbox = s.mailbox := rfl
@[simp] theorem setEnclave_mgmt (s : State) (e : Nat) (f : Enclave → Enclave) : (setEnclave s e f).mgmt = s.mgmt := rfl
@[simp] theorem setEnclave_enclaves (s : State) (e : Nat) (f : Enclave → Enclave) : (setEnclave s e f).enclaves = Tab.modify s.enclaves e f := rfl
@[simp] theorem setEnclave_root (s : State) (e : Nat) (f : Enclave → Enclave) : (setEnclave s e f).root = s.root := rfl
@[simp] theorem setEnclave_spdm (s : State) (e : Nat) (f : Enclave → Enclave) : (setEnclave s e f).spdm = s.spdm := rfl
@[simp] theorem setEnclave_streams (s : State) (e : Nat) (f : Enclave → Enclave) : (setEnclave s e f).streams = s.streams := rfl
@[simp] theorem setEnclave_tdisp (s : State) (e : Nat) (f : Enclave → Enclave) : (setEnclave s e f).tdisp = s.tdisp := rfl
@[simp] theorem setEnclave_harts (s : State) (e : Nat) (f : Enclave → Enclave) : (setEnclave s e f).harts = s.harts := rfl

/-! ### setBay -/

@[simp] theorem setBay_pending (s : State) (b : Nat) (x : Bay) : (setBay s b x).pending = s.pending := rfl
@[simp] theorem setBay_waits (s : State) (b : Nat) (x : Bay) : (setBay s b x).waits = s.waits := rfl
@[simp] theorem setBay_issue (s : State) (b : Nat) (x : Bay) : (setBay s b x).issue = s.issue := rfl
@[simp] theorem setBay_cur (s : State) (b : Nat) (x : Bay) : (setBay s b x).cur = s.cur := rfl
@[simp] theorem setBay_turn (s : State) (b : Nat) (x : Bay) : (setBay s b x).turn = s.turn := rfl
@[simp] theorem setBay_draws (s : State) (b : Nat) (x : Bay) : (setBay s b x).draws = s.draws := rfl
@[simp] theorem setBay_launchSeq (s : State) (b : Nat) (x : Bay) : (setBay s b x).launchSeq = s.launchSeq := rfl
@[simp] theorem setBay_threadSeq (s : State) (b : Nat) (x : Bay) : (setBay s b x).threadSeq = s.threadSeq := rfl
@[simp] theorem setBay_cmdSeq (s : State) (b : Nat) (x : Bay) : (setBay s b x).cmdSeq = s.cmdSeq := rfl
@[simp] theorem setBay_time (s : State) (b : Nat) (x : Bay) : (setBay s b x).time = s.time := rfl
@[simp] theorem setBay_lag (s : State) (b : Nat) (x : Bay) : (setBay s b x).lag = s.lag := rfl
@[simp] theorem setBay_mem (s : State) (b : Nat) (x : Bay) : (setBay s b x).mem = s.mem := rfl
@[simp] theorem setBay_cxl (s : State) (b : Nat) (x : Bay) : (setBay s b x).cxl = s.cxl := rfl
@[simp] theorem setBay_side (s : State) (b : Nat) (x : Bay) : (setBay s b x).side = s.side := rfl
@[simp] theorem setBay_pot (s : State) (b : Nat) (x : Bay) : (setBay s b x).pot = s.pot := rfl
@[simp] theorem setBay_tlb (s : State) (b : Nat) (x : Bay) : (setBay s b x).tlb = s.tlb := rfl
@[simp] theorem setBay_tlb2 (s : State) (b : Nat) (x : Bay) : (setBay s b x).tlb2 = s.tlb2 := rfl
@[simp] theorem setBay_walks (s : State) (b : Nat) (x : Bay) : (setBay s b x).walks = s.walks := rfl
@[simp] theorem setBay_l1 (s : State) (b : Nat) (x : Bay) : (setBay s b x).l1 = s.l1 := rfl
@[simp] theorem setBay_icache (s : State) (b : Nat) (x : Bay) : (setBay s b x).icache = s.icache := rfl
@[simp] theorem setBay_retained (s : State) (b : Nat) (x : Bay) : (setBay s b x).retained = s.retained := rfl
@[simp] theorem setBay_phases (s : State) (b : Nat) (x : Bay) : (setBay s b x).phases = s.phases := rfl
@[simp] theorem setBay_l2 (s : State) (b : Nat) (x : Bay) : (setBay s b x).l2 = s.l2 := rfl
@[simp] theorem setBay_ms (s : State) (b : Nat) (x : Bay) : (setBay s b x).ms = s.ms := rfl
@[simp] theorem setBay_hbm (s : State) (b : Nat) (x : Bay) : (setBay s b x).hbm = s.hbm := rfl
@[simp] theorem setBay_reservations (s : State) (b : Nat) (x : Bay) : (setBay s b x).reservations = s.reservations := rfl
@[simp] theorem setBay_monitors (s : State) (b : Nat) (x : Bay) : (setBay s b x).monitors = s.monitors := rfl
@[simp] theorem setBay_scopes (s : State) (b : Nat) (x : Bay) : (setBay s b x).scopes = s.scopes := rfl
@[simp] theorem setBay_dirtyMaps (s : State) (b : Nat) (x : Bay) : (setBay s b x).dirtyMaps = s.dirtyMaps := rfl
@[simp] theorem setBay_launches (s : State) (b : Nat) (x : Bay) : (setBay s b x).launches = s.launches := rfl
@[simp] theorem setBay_bents (s : State) (b : Nat) (x : Bay) : (setBay s b x).bents = s.bents := rfl
@[simp] theorem setBay_threads (s : State) (b : Nat) (x : Bay) : (setBay s b x).threads = s.threads := rfl
@[simp] theorem setBay_bays (s : State) (b : Nat) (x : Bay) : (setBay s b x).bays = Tab.set s.bays b x := rfl
@[simp] theorem setBay_tickets (s : State) (b : Nat) (x : Bay) : (setBay s b x).tickets = s.tickets := rfl
@[simp] theorem setBay_lastServed (s : State) (b : Nat) (x : Bay) : (setBay s b x).lastServed = s.lastServed := rfl
@[simp] theorem setBay_lastPlaced (s : State) (b : Nat) (x : Bay) : (setBay s b x).lastPlaced = s.lastPlaced := rfl
@[simp] theorem setBay_placings (s : State) (b : Nat) (x : Bay) : (setBay s b x).placings = s.placings := rfl
@[simp] theorem setBay_cmds (s : State) (b : Nat) (x : Bay) : (setBay s b x).cmds = s.cmds := rfl
@[simp] theorem setBay_engineLast (s : State) (b : Nat) (x : Bay) : (setBay s b x).engineLast = s.engineLast := rfl
@[simp] theorem setBay_tenons (s : State) (b : Nat) (x : Bay) : (setBay s b x).tenons = s.tenons := rfl
@[simp] theorem setBay_answers (s : State) (b : Nat) (x : Bay) : (setBay s b x).answers = s.answers := rfl
@[simp] theorem setBay_routines (s : State) (b : Nat) (x : Bay) : (setBay s b x).routines = s.routines := rfl
@[simp] theorem setBay_contexts (s : State) (b : Nat) (x : Bay) : (setBay s b x).contexts = s.contexts := rfl
@[simp] theorem setBay_quarters (s : State) (b : Nat) (x : Bay) : (setBay s b x).quarters = s.quarters := rfl
@[simp] theorem setBay_segments (s : State) (b : Nat) (x : Bay) : (setBay s b x).segments = s.segments := rfl
@[simp] theorem setBay_cancelled (s : State) (b : Nat) (x : Bay) : (setBay s b x).cancelled = s.cancelled := rfl
@[simp] theorem setBay_requests (s : State) (b : Nat) (x : Bay) : (setBay s b x).requests = s.requests := rfl
@[simp] theorem setBay_saved (s : State) (b : Nat) (x : Bay) : (setBay s b x).saved = s.saved := rfl
@[simp] theorem setBay_rejected (s : State) (b : Nat) (x : Bay) : (setBay s b x).rejected = s.rejected := rfl
@[simp] theorem setBay_images (s : State) (b : Nat) (x : Bay) : (setBay s b x).images = s.images := rfl
@[simp] theorem setBay_migrated (s : State) (b : Nat) (x : Bay) : (setBay s b x).migrated = s.migrated := rfl
@[simp] theorem setBay_trace (s : State) (b : Nat) (x : Bay) : (setBay s b x).trace = s.trace := rfl
@[simp] theorem setBay_clusters (s : State) (b : Nat) (x : Bay) : (setBay s b x).clusters = s.clusters := rfl
@[simp] theorem setBay_colown (s : State) (b : Nat) (x : Bay) : (setBay s b x).colown = s.colown := rfl
@[simp] theorem setBay_pcfg (s : State) (b : Nat) (x : Bay) : (setBay s b x).pcfg = s.pcfg := rfl
@[simp] theorem setBay_sliceRegs (s : State) (b : Nat) (x : Bay) : (setBay s b x).sliceRegs = s.sliceRegs := rfl
@[simp] theorem setBay_msGate (s : State) (b : Nat) (x : Bay) : (setBay s b x).msGate = s.msGate := rfl
@[simp] theorem setBay_egress (s : State) (b : Nat) (x : Bay) : (setBay s b x).egress = s.egress := rfl
@[simp] theorem setBay_tstat (s : State) (b : Nat) (x : Bay) : (setBay s b x).tstat = s.tstat := rfl
@[simp] theorem setBay_irq (s : State) (b : Nat) (x : Bay) : (setBay s b x).irq = s.irq := rfl
@[simp] theorem setBay_mailbox (s : State) (b : Nat) (x : Bay) : (setBay s b x).mailbox = s.mailbox := rfl
@[simp] theorem setBay_mgmt (s : State) (b : Nat) (x : Bay) : (setBay s b x).mgmt = s.mgmt := rfl
@[simp] theorem setBay_enclaves (s : State) (b : Nat) (x : Bay) : (setBay s b x).enclaves = s.enclaves := rfl
@[simp] theorem setBay_root (s : State) (b : Nat) (x : Bay) : (setBay s b x).root = s.root := rfl
@[simp] theorem setBay_spdm (s : State) (b : Nat) (x : Bay) : (setBay s b x).spdm = s.spdm := rfl
@[simp] theorem setBay_streams (s : State) (b : Nat) (x : Bay) : (setBay s b x).streams = s.streams := rfl
@[simp] theorem setBay_tdisp (s : State) (b : Nat) (x : Bay) : (setBay s b x).tdisp = s.tdisp := rfl
@[simp] theorem setBay_harts (s : State) (b : Nat) (x : Bay) : (setBay s b x).harts = s.harts := rfl

/-! ### setHart -/

@[simp] theorem setHart_pending (s : State) (h : Nat) (f : Hart → Hart) : (setHart s h f).pending = s.pending := rfl
@[simp] theorem setHart_waits (s : State) (h : Nat) (f : Hart → Hart) : (setHart s h f).waits = s.waits := rfl
@[simp] theorem setHart_issue (s : State) (h : Nat) (f : Hart → Hart) : (setHart s h f).issue = s.issue := rfl
@[simp] theorem setHart_cur (s : State) (h : Nat) (f : Hart → Hart) : (setHart s h f).cur = s.cur := rfl
@[simp] theorem setHart_turn (s : State) (h : Nat) (f : Hart → Hart) : (setHart s h f).turn = s.turn := rfl
@[simp] theorem setHart_draws (s : State) (h : Nat) (f : Hart → Hart) : (setHart s h f).draws = s.draws := rfl
@[simp] theorem setHart_launchSeq (s : State) (h : Nat) (f : Hart → Hart) : (setHart s h f).launchSeq = s.launchSeq := rfl
@[simp] theorem setHart_threadSeq (s : State) (h : Nat) (f : Hart → Hart) : (setHart s h f).threadSeq = s.threadSeq := rfl
@[simp] theorem setHart_cmdSeq (s : State) (h : Nat) (f : Hart → Hart) : (setHart s h f).cmdSeq = s.cmdSeq := rfl
@[simp] theorem setHart_time (s : State) (h : Nat) (f : Hart → Hart) : (setHart s h f).time = s.time := rfl
@[simp] theorem setHart_lag (s : State) (h : Nat) (f : Hart → Hart) : (setHart s h f).lag = s.lag := rfl
@[simp] theorem setHart_mem (s : State) (h : Nat) (f : Hart → Hart) : (setHart s h f).mem = s.mem := rfl
@[simp] theorem setHart_cxl (s : State) (h : Nat) (f : Hart → Hart) : (setHart s h f).cxl = s.cxl := rfl
@[simp] theorem setHart_side (s : State) (h : Nat) (f : Hart → Hart) : (setHart s h f).side = s.side := rfl
@[simp] theorem setHart_pot (s : State) (h : Nat) (f : Hart → Hart) : (setHart s h f).pot = s.pot := rfl
@[simp] theorem setHart_tlb (s : State) (h : Nat) (f : Hart → Hart) : (setHart s h f).tlb = s.tlb := rfl
@[simp] theorem setHart_tlb2 (s : State) (h : Nat) (f : Hart → Hart) : (setHart s h f).tlb2 = s.tlb2 := rfl
@[simp] theorem setHart_walks (s : State) (h : Nat) (f : Hart → Hart) : (setHart s h f).walks = s.walks := rfl
@[simp] theorem setHart_l1 (s : State) (h : Nat) (f : Hart → Hart) : (setHart s h f).l1 = s.l1 := rfl
@[simp] theorem setHart_icache (s : State) (h : Nat) (f : Hart → Hart) : (setHart s h f).icache = s.icache := rfl
@[simp] theorem setHart_retained (s : State) (h : Nat) (f : Hart → Hart) : (setHart s h f).retained = s.retained := rfl
@[simp] theorem setHart_phases (s : State) (h : Nat) (f : Hart → Hart) : (setHart s h f).phases = s.phases := rfl
@[simp] theorem setHart_l2 (s : State) (h : Nat) (f : Hart → Hart) : (setHart s h f).l2 = s.l2 := rfl
@[simp] theorem setHart_ms (s : State) (h : Nat) (f : Hart → Hart) : (setHart s h f).ms = s.ms := rfl
@[simp] theorem setHart_hbm (s : State) (h : Nat) (f : Hart → Hart) : (setHart s h f).hbm = s.hbm := rfl
@[simp] theorem setHart_reservations (s : State) (h : Nat) (f : Hart → Hart) : (setHart s h f).reservations = s.reservations := rfl
@[simp] theorem setHart_monitors (s : State) (h : Nat) (f : Hart → Hart) : (setHart s h f).monitors = s.monitors := rfl
@[simp] theorem setHart_scopes (s : State) (h : Nat) (f : Hart → Hart) : (setHart s h f).scopes = s.scopes := rfl
@[simp] theorem setHart_dirtyMaps (s : State) (h : Nat) (f : Hart → Hart) : (setHart s h f).dirtyMaps = s.dirtyMaps := rfl
@[simp] theorem setHart_launches (s : State) (h : Nat) (f : Hart → Hart) : (setHart s h f).launches = s.launches := rfl
@[simp] theorem setHart_bents (s : State) (h : Nat) (f : Hart → Hart) : (setHart s h f).bents = s.bents := rfl
@[simp] theorem setHart_threads (s : State) (h : Nat) (f : Hart → Hart) : (setHart s h f).threads = s.threads := rfl
@[simp] theorem setHart_bays (s : State) (h : Nat) (f : Hart → Hart) : (setHart s h f).bays = s.bays := rfl
@[simp] theorem setHart_tickets (s : State) (h : Nat) (f : Hart → Hart) : (setHart s h f).tickets = s.tickets := rfl
@[simp] theorem setHart_lastServed (s : State) (h : Nat) (f : Hart → Hart) : (setHart s h f).lastServed = s.lastServed := rfl
@[simp] theorem setHart_lastPlaced (s : State) (h : Nat) (f : Hart → Hart) : (setHart s h f).lastPlaced = s.lastPlaced := rfl
@[simp] theorem setHart_placings (s : State) (h : Nat) (f : Hart → Hart) : (setHart s h f).placings = s.placings := rfl
@[simp] theorem setHart_cmds (s : State) (h : Nat) (f : Hart → Hart) : (setHart s h f).cmds = s.cmds := rfl
@[simp] theorem setHart_engineLast (s : State) (h : Nat) (f : Hart → Hart) : (setHart s h f).engineLast = s.engineLast := rfl
@[simp] theorem setHart_tenons (s : State) (h : Nat) (f : Hart → Hart) : (setHart s h f).tenons = s.tenons := rfl
@[simp] theorem setHart_answers (s : State) (h : Nat) (f : Hart → Hart) : (setHart s h f).answers = s.answers := rfl
@[simp] theorem setHart_routines (s : State) (h : Nat) (f : Hart → Hart) : (setHart s h f).routines = s.routines := rfl
@[simp] theorem setHart_contexts (s : State) (h : Nat) (f : Hart → Hart) : (setHart s h f).contexts = s.contexts := rfl
@[simp] theorem setHart_quarters (s : State) (h : Nat) (f : Hart → Hart) : (setHart s h f).quarters = s.quarters := rfl
@[simp] theorem setHart_segments (s : State) (h : Nat) (f : Hart → Hart) : (setHart s h f).segments = s.segments := rfl
@[simp] theorem setHart_cancelled (s : State) (h : Nat) (f : Hart → Hart) : (setHart s h f).cancelled = s.cancelled := rfl
@[simp] theorem setHart_requests (s : State) (h : Nat) (f : Hart → Hart) : (setHart s h f).requests = s.requests := rfl
@[simp] theorem setHart_saved (s : State) (h : Nat) (f : Hart → Hart) : (setHart s h f).saved = s.saved := rfl
@[simp] theorem setHart_rejected (s : State) (h : Nat) (f : Hart → Hart) : (setHart s h f).rejected = s.rejected := rfl
@[simp] theorem setHart_images (s : State) (h : Nat) (f : Hart → Hart) : (setHart s h f).images = s.images := rfl
@[simp] theorem setHart_migrated (s : State) (h : Nat) (f : Hart → Hart) : (setHart s h f).migrated = s.migrated := rfl
@[simp] theorem setHart_trace (s : State) (h : Nat) (f : Hart → Hart) : (setHart s h f).trace = s.trace := rfl
@[simp] theorem setHart_clusters (s : State) (h : Nat) (f : Hart → Hart) : (setHart s h f).clusters = s.clusters := rfl
@[simp] theorem setHart_colown (s : State) (h : Nat) (f : Hart → Hart) : (setHart s h f).colown = s.colown := rfl
@[simp] theorem setHart_pcfg (s : State) (h : Nat) (f : Hart → Hart) : (setHart s h f).pcfg = s.pcfg := rfl
@[simp] theorem setHart_sliceRegs (s : State) (h : Nat) (f : Hart → Hart) : (setHart s h f).sliceRegs = s.sliceRegs := rfl
@[simp] theorem setHart_msGate (s : State) (h : Nat) (f : Hart → Hart) : (setHart s h f).msGate = s.msGate := rfl
@[simp] theorem setHart_egress (s : State) (h : Nat) (f : Hart → Hart) : (setHart s h f).egress = s.egress := rfl
@[simp] theorem setHart_tstat (s : State) (h : Nat) (f : Hart → Hart) : (setHart s h f).tstat = s.tstat := rfl
@[simp] theorem setHart_irq (s : State) (h : Nat) (f : Hart → Hart) : (setHart s h f).irq = s.irq := rfl
@[simp] theorem setHart_mailbox (s : State) (h : Nat) (f : Hart → Hart) : (setHart s h f).mailbox = s.mailbox := rfl
@[simp] theorem setHart_mgmt (s : State) (h : Nat) (f : Hart → Hart) : (setHart s h f).mgmt = s.mgmt := rfl
@[simp] theorem setHart_enclaves (s : State) (h : Nat) (f : Hart → Hart) : (setHart s h f).enclaves = s.enclaves := rfl
@[simp] theorem setHart_root (s : State) (h : Nat) (f : Hart → Hart) : (setHart s h f).root = s.root := rfl
@[simp] theorem setHart_spdm (s : State) (h : Nat) (f : Hart → Hart) : (setHart s h f).spdm = s.spdm := rfl
@[simp] theorem setHart_streams (s : State) (h : Nat) (f : Hart → Hart) : (setHart s h f).streams = s.streams := rfl
@[simp] theorem setHart_tdisp (s : State) (h : Nat) (f : Hart → Hart) : (setHart s h f).tdisp = s.tdisp := rfl
@[simp] theorem setHart_harts (s : State) (h : Nat) (f : Hart → Hart) : (setHart s h f).harts = Tab.modify s.harts h f := rfl

/-! ### Threads by number -/

@[simp] theorem threadOf_setThread_self (s : State) (t : Nat) (v : Thread) : threadOf (setThread s t v) t = some v := by
  simp [threadOf]

theorem threadOf_setThread_ne (s : State) {t k : Nat} (v : Thread) (h : k ≠ t) :
    threadOf (setThread s t v) k = threadOf s k := by
  simp [threadOf, Tab.get?_set_ne _ _ h]

@[simp] theorem quarterOf_setQuarter_self (s : State) (q : Nat) (f : Quarter → Quarter) :
    quarterOf (setQuarter s q f) q = f (quarterOf s q) := by
  simp [quarterOf, setQuarter]

theorem quarterOf_setQuarter_ne (s : State) {q k : Nat} (f : Quarter → Quarter) (h : k ≠ q) :
    quarterOf (setQuarter s q f) k = quarterOf s k := by
  simp only [quarterOf, setQuarter_quarters, Tab.getD_set_ne _ _ _ h]

theorem enclaveOf_setEnclave (s : State) (e k : Nat) (f : Enclave → Enclave) :
    enclaveOf (setEnclave s e f) k = if k = e then (enclaveOf s k).map f else enclaveOf s k := by
  simp [enclaveOf, Tab.get?_modify]

theorem hartOf_setHart (s : State) (h k : Nat) (f : Hart → Hart) :
    hartOf (setHart s h f) k = if k = h then (hartOf s k).map f else hartOf s k := by
  simp [hartOf, Tab.get?_modify]

end Sys2Proof.Machine
end

