-- ==== Sys2Proof/Laws/Context.lean ====
section
/-! SUPPORT. The executing context: what a view put back reads as, registers and queues read and written, and the shape of
the instructions that read sources and write one destination. -/

namespace Sys2Proof.Machine

open Sys2Proof.Safety

/-! ### Views -/

/-- The view of a hand: its foreman with the hand's own part (R58, R424). -/
def handView (f : Thread) (x : Hand) : Thread :=
  { f with pc := x.pc, hctx := x.ctx, queues := x.queues, loads := x.loads, handMode := true, trapBank := false,
           phaseStart := x.ctx.phase, status := .running, fetched := [], tnx := none, sysc := none, meet := none,
           slice := x.slice, lane := x.lane, slot := x.slot, age := x.age }

theorem viewOf_hand {s : State} {t h : Nat} {v : Thread} (hv : viewOf s (.hand t h) = some v) :
    ∃ f r x, threadOf s t = some f ∧ f.raise = some r ∧ (r.hands.find? fun x => x.ctx.no == h) = some x ∧ v = handView f x := by
  unfold viewOf at hv
  simp only at hv
  split at hv
  · cases hv
  · rename_i f hf
    split at hv
    · cases hv
    · rename_i r hr
      split at hv
      · cases hv
      · rename_i x hx
        exact ⟨f, r, x, hf, hr, hx, by simpa [handView] using hv.symm⟩

@[simp] theorem viewOf_putView_thread (s : State) (t : Nat) (u : Thread) :
    viewOf (putView s (.thread t) u) (.thread t) = some u := by
  simp [viewOf, putView]

theorem find?_map_no (l : List Hand) (h : Nat) (g : Hand → Hand) (hg : ∀ x, (g x).ctx.no = x.ctx.no) :
    ((l.map g).find? fun x => x.ctx.no == h) = (l.find? fun x => x.ctx.no == h).map g := by
  induction l with
  | nil => rfl
  | cons x l ih => simp only [List.map_cons, List.find?_cons, hg, ih]; split <;> rfl

/-- A hand's view put back reads as it was put, on top of its foreman. -/
theorem viewOf_putView_hand {s : State} {t h : Nat} {f : Thread} {r : RaiseRec} {x : Hand} {u : Thread}
    (hf : threadOf s t = some f) (hx : (r.hands.find? fun x => x.ctx.no == h) = some x) (hno : u.hctx.no = x.ctx.no)
    (hra : u.raise = some r) :
    viewOf (putView s (.hand t h) u) (.hand t h) =
      some (handView (putHand f u h)
        { x with ctx := { u.hctx with phase := u.phaseStart }, pc := u.pc, queues := u.queues, loads := u.loads }) := by
  have hxn : x.ctx.no = h := by simpa using List.find?_some hx
  have hno' : u.hctx.no = h := by rw [hno, hxn]
  have hm := find?_map_no r.hands h
    (fun x => if x.ctx.no == h then { x with ctx := { u.hctx with phase := u.phaseStart }, pc := u.pc, queues := u.queues, loads := u.loads } else x)
    (fun x => by by_cases hc : x.ctx.no = h <;> simp [hc, hno'])
  rw [hx] at hm
  simp only [viewOf, putView, hf, threadOf_setThread_self, putHand, hra, Option.map_some] at hm ⊢
  rw [hm]
  simp [hxn, handView]

/-! ### Reading sources -/

/-- Reading a source changes the queues alone. -/
theorem readSrc_same {v v' : Thread} {a : Src} {x : Nat} {f : Flags} (h : readSrc v a = some (x, f, v')) :
    v' = { v with queues := v'.queues } := by
  unfold readSrc at h
  split at h
  · split at h
    · unfold popQueue at h
      split at h
      · split at h
        · simp at h; obtain ⟨-, -, rfl⟩ := h; rfl
        · simp at h
      · simp at h
    · simp at h; obtain ⟨-, -, rfl⟩ := h; rfl
  · simp at h; obtain ⟨-, -, rfl⟩ := h; rfl
  · simp at h; obtain ⟨-, -, rfl⟩ := h; rfl

theorem readSrcs_same {v v' : Thread} {a b c : Src} {x y z : Nat} {f : Flags}
    (h : readSrcs v a b c = some (x, y, z, f, v')) : v' = { v with queues := v'.queues } := by
  unfold readSrcs at h
  split at h
  · cases h
  · rename_i v1 h1
    split at h
    · cases h
    · rename_i v2 h2
      split at h
      · cases h
      · rename_i v3 h3
        simp at h
        obtain ⟨-, -, -, -, rfl⟩ := h
        rw [readSrc_same h3, readSrc_same h2, readSrc_same h1]

/-! ### Registers written -/

/-- Whether a number names a register that holds a value. -/
def isReg (k : Nat) : Prop := k < 768 ∨ (784 ≤ k ∧ k < 800)

theorem regVal_setReg (v : Thread) (n k : Nat) (x : Word) (hn : isReg n) :
    regVal (setReg v n x) k = if k = n then x else regVal v k := by
  unfold setReg isReg at *
  by_cases h1 : n < 768
  · simp only [h1, if_true, regVal]
    by_cases hk : k = n
    · subst hk; simp [h1]
    · simp only [if_neg hk]; split
      · exact Tab.getD_set_ne _ _ _ hk
      · rfl
  · have h2 : 784 ≤ n ∧ n < 800 := by omega
    rw [if_neg h1, if_pos h2]
    simp only [regVal]
    by_cases hk : k = n
    · subst hk; simp [h1, h2]
    · simp only [if_neg hk]
      split
      · rfl
      · split
        · exact Tab.getD_set_ne _ _ _ (by omega)
        · rfl

theorem regVal_setReg_ne (v : Thread) (n k : Nat) (x : Word) (hk : k ≠ n) :
    regVal (setReg v n x) k = regVal v k := by
  by_cases hn : isReg n
  · rw [regVal_setReg v n k x hn, if_neg hk]
  · unfold setReg isReg at *
    rw [if_neg (by omega), if_neg (by omega)]

/-- Registers outside a run written keep their values. -/
theorem regVal_setRegs_out (w : Nat) : ∀ (v : Thread) (n x k : Nat), ¬ (n ≤ k ∧ k < n + w) →
    regVal (setRegs v n w x) k = regVal v k := by
  induction w with
  | zero => intro v n x k _; rfl
  | succ w ih =>
    intro v n x k h
    unfold setRegs
    split
    · rfl
    · rw [ih _ _ _ _ (by omega), regVal_setReg_ne _ _ _ _ (by omega)]

/-- A number written to registers changes registers alone. -/
theorem setRegs_eq (w : Nat) : ∀ (v : Thread) (n x : Nat),
    ∃ R H, setRegs v n w x = { v with regs := R, hctx := { v.hctx with h := H } } := by
  induction w with
  | zero => intro v n x; exact ⟨_, _, rfl⟩
  | succ w ih =>
    intro v n x
    unfold setRegs
    split
    · exact ⟨_, _, rfl⟩
    · have hs : ∃ R H, setReg v n (BitVec.ofNat 32 x) = { v with regs := R, hctx := { v.hctx with h := H } } := by
        unfold setReg
        split
        · exact ⟨_, _, rfl⟩
        · split <;> exact ⟨_, _, rfl⟩
      obtain ⟨R, H, hs⟩ := hs
      obtain ⟨R', H', h'⟩ := ih (setReg v n (BitVec.ofNat 32 x)) (n + 1) (x / 2 ^ 32)
      exact ⟨R', H', by rw [h', hs]⟩

/-- No register below 768 is written by a run that starts at 768 or above. -/
theorem setRegs_regs (w : Nat) : ∀ (v : Thread) (n x : Nat), 768 ≤ n → (setRegs v n w x).regs = v.regs := by
  induction w with
  | zero => intro v n x _; rfl
  | succ w ih =>
    intro v n x h
    unfold setRegs
    split
    · rfl
    · rw [ih _ _ _ (by omega)]
      unfold setReg
      rw [if_neg (by omega)]
      split <;> rfl

theorem regNum_one (v : Thread) (n : Nat) (h : n ≠ vzero) : regNum v n 1 = (regVal v n).toNat := by
  simp [regNum, h, upFrom]

theorem regNum_two (v : Thread) (n : Nat) (h : n ≠ vzero) :
    regNum v n 2 = (regVal v n).toNat + 2 ^ 32 * (regVal v (n + 1)).toNat := by
  simp [regNum, h, upFrom]

/-- A number written to one or two registers reads back. -/
theorem regNum_setRegs (v : Thread) (n w x : Nat) (hw : w = 1 ∨ w = 2) (hn : n ≠ vzero) (hr : ∀ k, n ≤ k → k < n + w → isReg k)
    (hx : x < 2 ^ (32 * w)) : regNum (setRegs v n w x) n w = x := by
  rcases hw with rfl | rfl
  · rw [regNum_one _ _ hn]
    simp only [setRegs, if_neg hn]
    rw [regVal_setReg _ _ _ _ (hr n (by omega) (by omega))]
    simp
    omega
  · have h1 : n + 1 ≠ vzero := by
      intro h; have := hr (n + 1) (by omega) (by omega); unfold isReg at this; unfold vzero at *; omega
    rw [regNum_two _ _ hn]
    simp only [setRegs, if_neg hn, if_neg h1]
    rw [regVal_setReg_ne _ _ _ _ (by omega), regVal_setReg _ _ _ _ (hr n (by omega) (by omega)),
      regVal_setReg _ _ _ _ (hr (n + 1) (by omega) (by omega))]
    simp only [if_true, BitVec.toNat_ofNat]
    omega

/-! ### Running one instruction -/

/-- A ready instruction does what its effect says. -/
theorem run_ready {i : Instr} {s : State} {w : Who} {v : Thread} (R : Ready i s w v) (body : Who → Thread → Eff) :
    run i s body = settleEff i s w v (body w v) := by
  simp [run, runAny, R.cur, R.view, R.checks, R.pred]

/-- What `run` can do: stop for want of a context, take the trap of a failed check, skip, or do the effect. -/
theorem run_cases (i : Instr) (s : State) (body : Who → Thread → Eff) :
    run i s body = .fault .noContext ∨
    ∃ w v, s.cur = some w ∧ viewOf s w = some v ∧
      ((∃ k, contextCheck i v = some k ∧ run i s body = .next (takeTrap s w v k (trapHere i v))) ∨
       (contextCheck i v = none ∧ predicated i v = false ∧ run i s body = .next (putView s w (skipped i v))) ∨
       (contextCheck i v = none ∧ predicated i v = true ∧ run i s body = settleEff i s w v (body w v))) := by
  unfold run runAny
  split
  · exact .inl rfl
  · rename_i w hw
    split
    · exact .inl rfl
    · rename_i v hv
      refine .inr ⟨w, v, hw, hv, ?_⟩
      split
      · rename_i k hk; exact .inl ⟨k, hk, rfl⟩
      · rename_i hk
        by_cases hp : predicated i v = true
        · exact .inr (.inr ⟨hk, hp, by simp [hp]⟩)
        · exact .inr (.inl ⟨hk, by simpa using hp, by simp [hp, settleEff]⟩)

/-! ### Accesses (R220) -/

/-- An access that meets no demand-zero page comes to what it comes to at once, and the state stands. -/
theorem retry_settled {α : Type} {u : Thread} {n : Nat} {s : State} {g : State → Got α} (h : ∀ va, g s ≠ .fill va) :
    retry u n s g = (s, g s) := by
  cases n with
  | zero => rfl
  | succ n =>
    unfold retry
    cases hg : g s with
    | fill va => exact absurd hg (h va)
    | _ => rfl

theorem onGot_ok {α : Type} {s : State} {v : Thread} {g : State → Got α} {x : α} (f : State → α → Eff) (h : g s = .ok x) :
    onGot s v g f = f s x := by
  simp [onGot, retry_settled (g := g) (s := s) (by simp [h]), h]

theorem onGot_trap {α : Type} {s : State} {v : Thread} {g : State → Got α} {k : Kept} (f : State → α → Eff)
    (h : g s = .trap k) : onGot s v g f = .trap k := by
  simp [onGot, retry_settled (g := g) (s := s) (by simp [h]), h]

end Sys2Proof.Machine
end

