-- ==== Sys2Proof/Laws/Alu.lean ====
section
/-! SUPPORT. The shape of the instructions that read sources and write one destination: what a completed one leaves
behind. -/

namespace Sys2Proof.Machine

open Sys2Proof.Safety

/-- Every operand of a well-formed instruction is admitted in its role. -/
theorem wellFormed_admits {i : Instr} (h : i.wellFormed = true) : ∀ o ∈ i.operands, o.1.admits o.2 = true := by
  unfold Instr.wellFormed at h
  unfold Instr.operands
  intro o ho
  split at h
  · rename_i f x hf
    simp only [hf, Form.operands, List.mem_cons, List.not_mem_nil, or_false] at ho
    simp only [Form.ok, Bool.and_eq_true] at h
    obtain ⟨-, ⟨⟨⟨⟨⟨⟨h1, h2⟩, h3⟩, h4⟩, -⟩, -⟩, -⟩⟩ := h
    rcases ho with rfl | rfl | rfl | rfl <;> assumption
  · rename_i hf
    simp only [hf] at ho
    simp only [Bool.and_eq_true, List.all_eq_true] at h
    exact h.2 o ho

theorem regVal_congr {u v : Thread} (hr : u.regs = v.regs) (hh : u.hctx.h = v.hctx.h) (k : Nat) : regVal u k = regVal v k := by
  simp [regVal, hr, hh]

theorem regNum_congr {u v : Thread} (hr : u.regs = v.regs) (hh : u.hctx.h = v.hctx.h) (n w : Nat) :
    regNum u n w = regNum v n w := by
  unfold regNum
  simp only [regVal_congr hr hh]

/-- Flags go to one of two places. -/
theorem setFlags_eq (v : Thread) (f : Flags) :
    ((v.handMode && v.hctx.iter.isSome) = true ∧ setFlags v f = { v with hctx := { v.hctx with gather := v.hctx.gather ||| f } }) ∨
    ((v.handMode && v.hctx.iter.isSome) = false ∧ setFlags v f = { v with fpsr := v.fpsr ||| f }) := by
  unfold setFlags
  by_cases h : (v.handMode && v.hctx.iter.isSome) = true
  · exact .inl ⟨h, by rw [if_pos h]⟩
  · exact .inr ⟨by simpa using h, by rw [if_neg h]⟩

/-- The registers a destination in its role occupies. -/
theorem dst_isReg {n : Nat} {p : Bool} {d : Reg} (h : (Role.dst n p).admits d = true) (hn : n = 1 ∨ n = 2 ∨ n = 4)
    (hp : feedOf d = none) (hz : d.toNat ≠ 1023) : ∀ k, d.toNat ≤ k → k < d.toNat + n → isReg k := by
  intro k h1 h2
  simp only [Role.admits, Bool.or_eq_true, Bool.and_eq_true, beq_iff_eq, decide_eq_true_eq] at h
  have hq : ¬ (772 ≤ d.toNat ∧ d.toNat < 776) := by
    intro hq; simp [feedOf, hq] at hp
  unfold isReg
  rcases hn with rfl | rfl | rfl <;> omega

/-- A hand's destination is no v register (R58). -/
theorem hand_dest {i : Instr} {v : Thread} {o : Role × Reg} (hc : contextCheck i v = none) (hh : v.handMode = true)
    (ho : o ∈ i.operands) (hw : o.1.writes = true) (hj : ∀ j x, i ≠ Instr.joinh j x) : 768 ≤ o.2.toNat := by
  unfold contextCheck at hc
  split at hc
  · cases hc
  · split at hc
    · cases hc
    · rename_i h1
      by_contra hlt
      apply h1
      have : i.operands.any (badClass i v) = true := by
        rw [List.any_eq_true]
        refine ⟨o, ho, ?_⟩
        unfold badClass
        have : (match i with | .joinh .. => true | _ => false) = false := by
          cases i <;> first | rfl | exact absurd rfl (hj _ _)
        simp only [hh, hw]
        simp; omega
      simp [this]

/-- The thread table after a context is put back: no other thread changes. -/
theorem onlyThread_putView (s : State) (w : Who) (u : Thread) : OnlyThread w s (putView s w u) := by
  cases w with
  | thread t => exact ⟨rfl, fun k hk => threadOf_setThread_ne s u hk⟩
  | hand t h =>
    cases hf : threadOf s t with
    | none => rw [show putView s (.hand t h) u = s by simp only [putView, hf]]; exact ⟨rfl, fun _ _ => rfl⟩
    | some f =>
      rw [show putView s (.hand t h) u = setThread s t (putHand f u h) by simp only [putView, hf]]
      exact ⟨rfl, fun k hk => threadOf_setThread_ne s _ hk⟩
  | hart h => exact ⟨rfl, fun _ _ => rfl⟩

/-- An instruction that writes its destination, moves the PC and sets flags, put back. -/
theorem wrote_of_put {i : Instr} {s : State} {w : Who} {v v' : Thread} {n : Nat} {p : Bool} {d : Reg} {r : Nat} {f : Flags}
    (hd : i.operands.head? = some (.dst n p, d)) (hj : ∀ j x, i ≠ Instr.joinh j x) (R : Ready i s w v) (np : NoPush i)
    (hn : n = 1 ∨ n = 2) (hv : v' = { v with queues := v'.queues }) (hr : r < 2 ^ (32 * n)) :
    ∃ u, Wrote i w s (putView s w (setFlags { setRegs v' d.toNat n r with pc := v.next i } f)) v v' u r f := by
  have hmem : (Role.dst n p, d) ∈ i.operands := List.mem_of_head? hd
  have hdest : i.dest = some (n, d) := by simp [Instr.dest, hd]
  have hD : destReg i = d.toNat := by simp [destReg, hdest]
  have hW : destWidth i = n := by simp [destWidth, hdest]
  have hpush : feedOf d = none := by simpa [NoPush, hdest] using np
  have hadm := wellFormed_admits R.wf _ hmem
  have hregs : ∀ k, ¬ (d.toNat ≤ k ∧ k < d.toNat + n) → regVal (setRegs v' d.toNat n r) k = regVal v k := by
    intro k hk
    rw [regVal_setRegs_out _ _ _ _ _ hk]
    exact regVal_congr (by rw [hv]) (by rw [hv]) k
  have hres : regNum (setRegs v' d.toNat n r) d.toNat n = if d.toNat = 1023 then 0 else r := by
    split
    · rename_i hz; simp [regNum, hz, vzero]
    · rename_i hz
      exact regNum_setRegs _ _ _ _ hn hz (dst_isReg hadm (by omega) hpush hz) hr
  have hlow : 768 ≤ d.toNat → (setRegs v' d.toNat n r).regs = v'.regs := setRegs_regs n v' d.toNat r
  obtain ⟨Rg, H, hS⟩ := setRegs_eq n v' d.toNat r
  rw [hS] at hregs hres hlow ⊢
  generalize hQ : v'.queues = Q at *
  subst hv
  have honly := onlyThread_putView s w (setFlags { v with regs := Rg, hctx := { v.hctx with h := H }, queues := Q, pc := v.next i } f)
  cases w with
  | thread t =>
    rcases setFlags_eq { v with regs := Rg, hctx := { v.hctx with h := H }, queues := Q, pc := v.next i } f with ⟨hc, hF⟩ | ⟨hc, hF⟩
    all_goals
      rw [hF] at honly ⊢
      refine ⟨_, viewOf_putView_thread _ _ _, ?_, ?_, rfl, rfl, rfl, ?_, ⟨rfl, fun _ _ => rfl⟩, honly⟩
      · rw [hD, hW, ← hres]; exact regNum_congr rfl rfl _ _
      · intro k hk; rw [hD, hW] at hk; rw [← hregs k hk]; exact regVal_congr rfl rfl k
      · simp only [FlagsAfter]; simp only at hc; simp [hc]
  | hand t h =>
    obtain ⟨g, ra, x, hg, hra, hx, rfl⟩ := viewOf_hand R.view
    have hge := hand_dest R.checks rfl hmem rfl hj
    have hlow := hlow hge
    simp only at hlow
    subst hlow
    rcases setFlags_eq { handView g x with regs := (handView g x).regs, hctx := { (handView g x).hctx with h := H }, queues := Q, pc := (handView g x).next i } f with ⟨hc, hF⟩ | ⟨hc, hF⟩
    all_goals
      rw [hF] at honly ⊢
      refine ⟨_, viewOf_putView_hand hg hx rfl hra, ?_, ?_, rfl, rfl, rfl, ?_, ⟨rfl, fun _ h => by cases h⟩, honly⟩
      · rw [hD, hW, ← hres]; exact regNum_congr rfl rfl _ _
      · intro k hk; rw [hD, hW] at hk; rw [← hregs k hk]; exact regVal_congr rfl rfl k
      · simp only [FlagsAfter]; simp only at hc; simp [hc]; try exact ⟨rfl, rfl⟩
  | hart h => exact absurd R.view (by simp [viewOf])

/-- An instruction of the shape completes: its result stands in its destination. -/
theorem aluM_writes {i : Instr} {a b c : Src} {f : State → Thread → Nat → Nat → Nat → Got (Nat × Flags)} {s : State} {w : Who}
    {v v' : Thread} {n : Nat} {p : Bool} {d : Reg} {x y z r : Nat} {g fl : Flags}
    (hd : i.operands.head? = some (.dst n p, d)) (hj : ∀ j x, i ≠ Instr.joinh j x) (hn : n = 1 ∨ n = 2) (R : Ready i s w v)
    (np : NoPush i) (hs : readSrcs v a b c = some (x, y, z, g, v')) (hf : f s v x y z = .ok (r, fl)) (hr : r < 2 ^ (32 * n))
    (ht : trapFlags v (g ||| fl) = 0) :
    ∃ t u, aluM i a b c f s = .next t ∧ Wrote i w s t v v' u r (g ||| fl) := by
  have hdest : i.dest = some (n, d) := by simp [Instr.dest, hd]
  have hpush : feedOf d = none := by simpa [NoPush, hdest] using np
  obtain ⟨u, hu⟩ := wrote_of_put (f := g ||| fl) hd hj R np hn (readSrcs_same hs) hr
  refine ⟨_, u, ?_, hu⟩
  unfold aluM
  rw [run_ready R]
  simp only [hdest, Option.map_some, Option.getD_some, hpush, hs, onGot_ok (g := fun s => f s v x y z) _ hf, writeDest, complete, completeAt, ht, if_true, settleEff]

/-- A feed queue that has no room, or a source queue whose entry has not arrived, stalls the instruction: nothing
changes. -/
theorem aluM_stalls {i : Instr} {a b c : Src} {f : State → Thread → Nat → Nat → Nat → Got (Nat × Flags)} {s : State} {w : Who}
    {v : Thread} (R : Ready i s w v) (np : NoPush i) (hs : readSrcs v a b c = none) : aluM i a b c f s = .next s := by
  unfold NoPush at np
  unfold aluM
  rw [run_ready R]
  have np' : feedOf ((i.dest.map (·.2)).getD 1023) = none := np
  simp only [np', hs, settleEff]

end Sys2Proof.Machine
end

