-- ==== Sys2Proof/Laws/PerInstr.lean ====
section
/-! SUPPORT. For every instruction: how many words its encoding has (R101, R109). -/

namespace Sys2Proof.Laws.EncodedLength
open Sys2Proof

/-- An extended form has three words, or five with a literal; everything else has at most two. -/
def Statement (i : Instr) : Prop :=
  (∀ f x, i.form? = some (f, x) → (encode i).length = if x.lit.isSome then 5 else 3) ∧
  (i.form? = none → (encode i).length ≤ 2)

theorem encodeExt_length (r : RawExt) : (encodeExt r).length = if r.x.lit.isSome then 5 else 3 := by
  unfold encodeExt
  cases h : r.x.lit <;> simp [h]

theorem withPfx_length (p : Option Pfx) (w : Nat) : (withPfx p w).length ≤ 2 := by
  cases p <;> simp [withPfx]

theorem of_form {i : Instr} {f : Form} {x : Ext} (h : i.form? = some (f, x))
    (e : (encode i).length = if x.lit.isSome then 5 else 3) : Statement i := by
  refine ⟨fun f' x' h' => ?_, fun h' => ?_⟩
  · rw [h] at h'
    cases h'
    exact e
  · rw [h] at h'
    cases h'

theorem of_none {i : Instr} (h : i.form? = none) (e : (encode i).length ≤ 2) : Statement i :=
  ⟨fun _ _ h' => absurd (h.symm.trans h') (by simp), fun _ => e⟩

theorem iaddB3 : ∀ x0, Statement (.iaddB3 x0) := fun _ => of_none rfl (withPfx_length _ _)
theorem isubB3 : ∀ x0, Statement (.isubB3 x0) := fun _ => of_none rfl (withPfx_length _ _)
theorem imulB3 : ∀ x0, Statement (.imulB3 x0) := fun _ => of_none rfl (withPfx_length _ _)
theorem iminB3 : ∀ x0, Statement (.iminB3 x0) := fun _ => of_none rfl (withPfx_length _ _)
theorem imaxB3 : ∀ x0, Statement (.imaxB3 x0) := fun _ => of_none rfl (withPfx_length _ _)
theorem andB3 : ∀ x0, Statement (.andB3 x0) := fun _ => of_none rfl (withPfx_length _ _)
theorem orB3 : ∀ x0, Statement (.orB3 x0) := fun _ => of_none rfl (withPfx_length _ _)
theorem xorB3 : ∀ x0, Statement (.xorB3 x0) := fun _ => of_none rfl (withPfx_length _ _)
theorem shlB3 : ∀ x0, Statement (.shlB3 x0) := fun _ => of_none rfl (withPfx_length _ _)
theorem shrB3 : ∀ x0, Statement (.shrB3 x0) := fun _ => of_none rfl (withPfx_length _ _)
theorem sarB3 : ∀ x0, Statement (.sarB3 x0) := fun _ => of_none rfl (withPfx_length _ _)
theorem movB3 : ∀ x0, Statement (.movB3 x0) := fun _ => of_none rfl (withPfx_length _ _)
theorem faddB3 : ∀ x0, Statement (.faddB3 x0) := fun _ => of_none rfl (withPfx_length _ _)
theorem fsubB3 : ∀ x0, Statement (.fsubB3 x0) := fun _ => of_none rfl (withPfx_length _ _)
theorem fmulB3 : ∀ x0, Statement (.fmulB3 x0) := fun _ => of_none rfl (withPfx_length _ _)
theorem fminB3 : ∀ x0, Statement (.fminB3 x0) := fun _ => of_none rfl (withPfx_length _ _)
theorem fmaxB3 : ∀ x0, Statement (.fmaxB3 x0) := fun _ => of_none rfl (withPfx_length _ _)
theorem ffmaB3 : ∀ x0, Statement (.ffmaB3 x0) := fun _ => of_none rfl (withPfx_length _ _)
theorem iaddBI : ∀ x0, Statement (.iaddBI x0) := fun _ => of_none rfl (withPfx_length _ _)
theorem andBI : ∀ x0, Statement (.andBI x0) := fun _ => of_none rfl (withPfx_length _ _)
theorem orBI : ∀ x0, Statement (.orBI x0) := fun _ => of_none rfl (withPfx_length _ _)
theorem xorBI : ∀ x0, Statement (.xorBI x0) := fun _ => of_none rfl (withPfx_length _ _)
theorem shlBI : ∀ x0, Statement (.shlBI x0) := fun _ => of_none rfl (withPfx_length _ _)
theorem shrBI : ∀ x0, Statement (.shrBI x0) := fun _ => of_none rfl (withPfx_length _ _)
theorem sarBI : ∀ x0, Statement (.sarBI x0) := fun _ => of_none rfl (withPfx_length _ _)
theorem moviB : ∀ x0, Statement (.moviB x0) := fun _ => of_none rfl (withPfx_length _ _)
theorem ldB32 : ∀ x0, Statement (.ldB32 x0) := fun _ => of_none rfl (withPfx_length _ _)
theorem ldB64 : ∀ x0, Statement (.ldB64 x0) := fun _ => of_none rfl (withPfx_length _ _)
theorem stB32 : ∀ x0, Statement (.stB32 x0) := fun _ => of_none rfl (withPfx_length _ _)
theorem stB64 : ∀ x0, Statement (.stB64 x0) := fun _ => of_none rfl (withPfx_length _ _)
theorem ldsB32 : ∀ x0, Statement (.ldsB32 x0) := fun _ => of_none rfl (withPfx_length _ _)
theorem stsB32 : ∀ x0, Statement (.stsB32 x0) := fun _ => of_none rfl (withPfx_length _ _)
theorem ldsB64 : ∀ x0, Statement (.ldsB64 x0) := fun _ => of_none rfl (withPfx_length _ _)
theorem stsB64 : ∀ x0, Statement (.stsB64 x0) := fun _ => of_none rfl (withPfx_length _ _)
theorem braBB : ∀ x0 x1 x2, Statement (.braBB x0 x1 x2) := fun _ _ _ => of_none rfl (Nat.le_succ 1)
theorem callBB : ∀ x0 x1, Statement (.callBB x0 x1) := fun _ _ => of_none rfl (Nat.le_succ 1)
theorem waitB : ∀ x0 x1 x2 x3, Statement (.waitB x0 x1 x2 x3) := fun _ _ _ _ => of_none rfl (Nat.le_succ 1)
theorem iaddExt : ∀ x0 x1 x2, Statement (.iaddExt x0 x1 x2) := fun _ _ _ => of_form rfl (encodeExt_length _)
theorem isubExt : ∀ x0 x1 x2, Statement (.isubExt x0 x1 x2) := fun _ _ _ => of_form rfl (encodeExt_length _)
theorem imulExt : ∀ x0 x1, Statement (.imulExt x0 x1) := fun _ _ => of_form rfl (encodeExt_length _)
theorem imulhi : ∀ x0 x1, Statement (.imulhi x0 x1) := fun _ _ => of_form rfl (encodeExt_length _)
theorem imad : ∀ x0 x1 x2, Statement (.imad x0 x1 x2) := fun _ _ _ => of_form rfl (encodeExt_length _)
theorem iminExt : ∀ x0 x1, Statement (.iminExt x0 x1) := fun _ _ => of_form rfl (encodeExt_length _)
theorem imaxExt : ∀ x0 x1, Statement (.imaxExt x0 x1) := fun _ _ => of_form rfl (encodeExt_length _)
theorem icmp : ∀ x0 x1 x2 x3 x4, Statement (.icmp x0 x1 x2 x3 x4) := fun _ _ _ _ _ => of_form rfl (encodeExt_length _)
theorem andExt : ∀ x0 x1, Statement (.andExt x0 x1) := fun _ _ => of_form rfl (encodeExt_length _)
theorem orExt : ∀ x0 x1, Statement (.orExt x0 x1) := fun _ _ => of_form rfl (encodeExt_length _)
theorem xorExt : ∀ x0 x1, Statement (.xorExt x0 x1) := fun _ _ => of_form rfl (encodeExt_length _)
theorem not : ∀ x0 x1, Statement (.not x0 x1) := fun _ _ => of_form rfl (encodeExt_length _)
theorem andn : ∀ x0 x1, Statement (.andn x0 x1) := fun _ _ => of_form rfl (encodeExt_length _)
theorem shlExt : ∀ x0 x1, Statement (.shlExt x0 x1) := fun _ _ => of_form rfl (encodeExt_length _)
theorem shrExt : ∀ x0 x1, Statement (.shrExt x0 x1) := fun _ _ => of_form rfl (encodeExt_length _)
theorem sarExt : ∀ x0 x1, Statement (.sarExt x0 x1) := fun _ _ => of_form rfl (encodeExt_length _)
theorem bfx : ∀ x0 x1 x2 x3, Statement (.bfx x0 x1 x2 x3) := fun _ _ _ _ => of_form rfl (encodeExt_length _)
theorem bfi : ∀ x0 x1 x2 x3, Statement (.bfi x0 x1 x2 x3) := fun _ _ _ _ => of_form rfl (encodeExt_length _)
theorem popc : ∀ x0 x1, Statement (.popc x0 x1) := fun _ _ => of_form rfl (encodeExt_length _)
theorem clz : ∀ x0 x1, Statement (.clz x0 x1) := fun _ _ => of_form rfl (encodeExt_length _)
theorem brev : ∀ x0 x1, Statement (.brev x0 x1) := fun _ _ => of_form rfl (encodeExt_length _)
theorem sel : ∀ x0 x1 x2 x3, Statement (.sel x0 x1 x2 x3) := fun _ _ _ _ => of_form rfl (encodeExt_length _)
theorem movExt : ∀ x0 x1, Statement (.movExt x0 x1) := fun _ _ => of_form rfl (encodeExt_length _)
theorem moviExt : ∀ x0 x1, Statement (.moviExt x0 x1) := fun _ _ => of_form rfl (encodeExt_length _)
theorem lea : ∀ x0 x1 x2, Statement (.lea x0 x1 x2) := fun _ _ _ => of_form rfl (encodeExt_length _)
theorem mlog : ∀ x0 x1 x2 x3 x4, Statement (.mlog x0 x1 x2 x3 x4) := fun _ _ _ _ _ => of_form rfl (encodeExt_length _)
theorem mmov : ∀ x0 x1 x2, Statement (.mmov x0 x1 x2) := fun _ _ _ => of_form rfl (encodeExt_length _)
theorem faddExt : ∀ x0 x1, Statement (.faddExt x0 x1) := fun _ _ => of_form rfl (encodeExt_length _)
theorem fsubExt : ∀ x0 x1, Statement (.fsubExt x0 x1) := fun _ _ => of_form rfl (encodeExt_length _)
theorem fmulExt : ∀ x0 x1, Statement (.fmulExt x0 x1) := fun _ _ => of_form rfl (encodeExt_length _)
theorem ffmaExt : ∀ x0 x1, Statement (.ffmaExt x0 x1) := fun _ _ => of_form rfl (encodeExt_length _)
theorem fminExt : ∀ x0 x1, Statement (.fminExt x0 x1) := fun _ _ => of_form rfl (encodeExt_length _)
theorem fmaxExt : ∀ x0 x1, Statement (.fmaxExt x0 x1) := fun _ _ => of_form rfl (encodeExt_length _)
theorem fcmp : ∀ x0 x1 x2 x3 x4, Statement (.fcmp x0 x1 x2 x3 x4) := fun _ _ _ _ _ => of_form rfl (encodeExt_length _)
theorem fclass : ∀ x0 x1, Statement (.fclass x0 x1) := fun _ _ => of_form rfl (encodeExt_length _)
theorem frnd : ∀ x0 x1, Statement (.frnd x0 x1) := fun _ _ => of_form rfl (encodeExt_length _)
theorem fsgn : ∀ x0 x1 x2, Statement (.fsgn x0 x1 x2) := fun _ _ _ => of_form rfl (encodeExt_length _)
theorem fldx : ∀ x0 x1, Statement (.fldx x0 x1) := fun _ _ => of_form rfl (encodeExt_length _)
theorem cvt : ∀ x0 x1 x2 x3, Statement (.cvt x0 x1 x2 x3) := fun _ _ _ _ => of_form rfl (encodeExt_length _)
theorem pack : ∀ x0 x1 x2 x3 x4, Statement (.pack x0 x1 x2 x3 x4) := fun _ _ _ _ _ => of_form rfl (encodeExt_length _)
theorem unpk : ∀ x0 x1 x2 x3, Statement (.unpk x0 x1 x2 x3) := fun _ _ _ _ => of_form rfl (encodeExt_length _)
theorem sfq : ∀ x0 x1 x2, Statement (.sfq x0 x1 x2) := fun _ _ _ => of_form rfl (encodeExt_length _)
theorem sfuResultArrive : ∀ x0 x1, Statement (.sfuResultArrive x0 x1) := fun _ _ => of_none rfl (Nat.zero_le 2)
theorem idivq : ∀ x0 x1 x2, Statement (.idivq x0 x1 x2) := fun _ _ _ => of_form rfl (encodeExt_length _)
theorem qsave : ∀ x0 x1, Statement (.qsave x0 x1) := fun _ _ => of_form rfl (encodeExt_length _)
theorem qrst : ∀ x0 x1, Statement (.qrst x0 x1) := fun _ _ => of_form rfl (encodeExt_length _)
theorem qcnt : ∀ x0 x1, Statement (.qcnt x0 x1) := fun _ _ => of_form rfl (encodeExt_length _)
theorem cpy : ∀ x0 x1 x2 x3, Statement (.cpy x0 x1 x2 x3) := fun _ _ _ _ => of_form rfl (encodeExt_length _)
theorem cpyg : ∀ x0 x1 x2, Statement (.cpyg x0 x1 x2) := fun _ _ _ => of_form rfl (encodeExt_length _)
theorem cbseal : ∀ x0, Statement (.cbseal x0) := fun _ => of_form rfl (encodeExt_length _)
theorem cbwait : ∀ x0 x1, Statement (.cbwait x0 x1) := fun _ _ => of_form rfl (encodeExt_length _)
theorem promiseMissed : ∀ x0 x1, Statement (.promiseMissed x0 x1) := fun _ _ => of_none rfl (Nat.zero_le 2)
theorem gopen : ∀ x0 x1, Statement (.gopen x0 x1) := fun _ _ => of_form rfl (encodeExt_length _)
theorem gset : ∀ x0 x1, Statement (.gset x0 x1) := fun _ _ => of_form rfl (encodeExt_length _)
theorem tnx : ∀ x0 x1 x2 x3 x4 x5 x6, Statement (.tnx x0 x1 x2 x3 x4 x5 x6) := fun _ _ _ _ _ _ _ => of_form rfl (encodeExt_length _)
theorem tnsync : ∀ x0, Statement (.tnsync x0) := fun _ => of_form rfl (encodeExt_length _)
theorem shfl : ∀ x0 x1 x2 x3, Statement (.shfl x0 x1 x2 x3) := fun _ _ _ _ => of_form rfl (encodeExt_length _)
theorem vote : ∀ x0 x1 x2, Statement (.vote x0 x1 x2) := fun _ _ _ => of_form rfl (encodeExt_length _)
theorem tred : ∀ x0 x1 x2 x3, Statement (.tred x0 x1 x2 x3) := fun _ _ _ _ => of_form rfl (encodeExt_length _)
theorem tscan : ∀ x0 x1 x2 x3 x4, Statement (.tscan x0 x1 x2 x3 x4) := fun _ _ _ _ _ => of_form rfl (encodeExt_length _)
theorem ldExt : ∀ x0 x1 x2 x3 x4, Statement (.ldExt x0 x1 x2 x3 x4) := fun _ _ _ _ _ => of_form rfl (encodeExt_length _)
theorem stExt : ∀ x0 x1 x2 x3 x4, Statement (.stExt x0 x1 x2 x3 x4) := fun _ _ _ _ _ => of_form rfl (encodeExt_length _)
theorem ldsExt : ∀ x0 x1, Statement (.ldsExt x0 x1) := fun _ _ => of_form rfl (encodeExt_length _)
theorem stsExt : ∀ x0 x1, Statement (.stsExt x0 x1) := fun _ _ => of_form rfl (encodeExt_length _)
theorem ldr : ∀ x0 x1, Statement (.ldr x0 x1) := fun _ _ => of_form rfl (encodeExt_length _)
theorem str : ∀ x0 x1, Statement (.str x0 x1) := fun _ _ => of_form rfl (encodeExt_length _)
theorem pref : ∀ x0 x1, Statement (.pref x0 x1) := fun _ _ => of_form rfl (encodeExt_length _)
theorem atom : ∀ x0 x1 x2 x3 x4 x5 x6, Statement (.atom x0 x1 x2 x3 x4 x5 x6) := fun _ _ _ _ _ _ _ => of_form rfl (encodeExt_length _)
theorem red : ∀ x0 x1 x2 x3 x4 x5 x6, Statement (.red x0 x1 x2 x3 x4 x5 x6) := fun _ _ _ _ _ _ _ => of_form rfl (encodeExt_length _)
theorem fence : ∀ x0 x1 x2, Statement (.fence x0 x1 x2) := fun _ _ _ => of_form rfl (encodeExt_length _)
theorem waitc : ∀ x0 x1 x2 x3 x4 x5, Statement (.waitc x0 x1 x2 x3 x4 x5) := fun _ _ _ _ _ _ => of_form rfl (encodeExt_length _)
theorem monitorWake : ∀ x0 x1, Statement (.monitorWake x0 x1) := fun _ _ => of_none rfl (Nat.zero_le 2)
theorem waitcRecheck : ∀ x0, Statement (.waitcRecheck x0) := fun _ => of_none rfl (Nat.zero_le 2)
theorem cctl : ∀ x0 x1 x2, Statement (.cctl x0 x1 x2) := fun _ _ _ => of_form rfl (encodeExt_length _)
theorem ifence : ∀ x0, Statement (.ifence x0) := fun _ => of_form rfl (encodeExt_length _)
theorem pgalloc : ∀ x0, Statement (.pgalloc x0) := fun _ => of_form rfl (encodeExt_length _)
theorem pgfree : ∀ x0, Statement (.pgfree x0) := fun _ => of_form rfl (encodeExt_length _)
theorem braExt : ∀ x0, Statement (.braExt x0) := fun _ => of_form rfl (encodeExt_length _)
theorem jmp : ∀ x0, Statement (.jmp x0) := fun _ => of_form rfl (encodeExt_length _)
theorem callExt : ∀ x0, Statement (.callExt x0) := fun _ => of_form rfl (encodeExt_length _)
theorem calli : ∀ x0, Statement (.calli x0) := fun _ => of_form rfl (encodeExt_length _)
theorem ret : ∀ x0, Statement (.ret x0) := fun _ => of_form rfl (encodeExt_length _)
theorem meet : ∀ x0, Statement (.meet x0) := fun _ => of_form rfl (encodeExt_length _)
theorem meetHold : ∀ x0, Statement (.meetHold x0) := fun _ => of_none rfl (Nat.zero_le 2)
theorem exit : ∀ x0, Statement (.exit x0) := fun _ => of_form rfl (encodeExt_length _)
theorem bar : ∀ x0, Statement (.bar x0) := fun _ => of_form rfl (encodeExt_length _)
theorem tbar : ∀ x0 x1, Statement (.tbar x0 x1) := fun _ _ => of_form rfl (encodeExt_length _)
theorem ypt : ∀ x0, Statement (.ypt x0) := fun _ => of_form rfl (encodeExt_length _)
theorem nopExt : ∀ x0, Statement (.nopExt x0) := fun _ => of_form rfl (encodeExt_length _)
theorem sleepc : ∀ x0, Statement (.sleepc x0) := fun _ => of_form rfl (encodeExt_length _)
theorem sleepcWake : ∀ x0, Statement (.sleepcWake x0) := fun _ => of_none rfl (Nat.zero_le 2)
theorem waitExt : ∀ x0 x1 x2 x3, Statement (.waitExt x0 x1 x2 x3) := fun _ _ _ _ => of_form rfl (encodeExt_length _)
theorem raise : ∀ x0 x1, Statement (.raise x0 x1) := fun _ _ => of_form rfl (encodeExt_length _)
theorem itnext : ∀ x0, Statement (.itnext x0) := fun _ => of_form rfl (encodeExt_length _)
theorem itend : ∀ x0, Statement (.itend x0) := fun _ => of_form rfl (encodeExt_length _)
theorem hred : ∀ x0, Statement (.hred x0) := fun _ => of_form rfl (encodeExt_length _)
theorem joinh : ∀ x0 x1, Statement (.joinh x0 x1) := fun _ _ => of_form rfl (encodeExt_length _)
theorem handForceRelease : ∀ x0 x1, Statement (.handForceRelease x0 x1) := fun _ _ => of_none rfl (Nat.zero_le 2)
theorem mdesc : ∀ x0 x1, Statement (.mdesc x0 x1) := fun _ _ => of_form rfl (encodeExt_length _)
theorem mldb : ∀ x0 x1, Statement (.mldb x0 x1) := fun _ _ => of_form rfl (encodeExt_length _)
theorem mrow : ∀ x0 x1 x2 x3 x4 x5, Statement (.mrow x0 x1 x2 x3 x4 x5) := fun _ _ _ _ _ _ => of_form rfl (encodeExt_length _)
theorem mzero : ∀ x0 x1, Statement (.mzero x0 x1) := fun _ _ => of_form rfl (encodeExt_length _)
theorem msync : ∀ x0, Statement (.msync x0) := fun _ => of_form rfl (encodeExt_length _)
theorem mstat : ∀ x0, Statement (.mstat x0) := fun _ => of_form rfl (encodeExt_length _)
theorem sreg : ∀ x0 x1, Statement (.sreg x0 x1) := fun _ _ => of_form rfl (encodeExt_length _)
theorem sset : ∀ x0 x1, Statement (.sset x0 x1) := fun _ _ => of_form rfl (encodeExt_length _)
theorem trap : ∀ x0, Statement (.trap x0) := fun _ => of_form rfl (encodeExt_length _)
theorem rte : ∀ x0, Statement (.rte x0) := fun _ => of_form rfl (encodeExt_length _)
theorem rteSkip : ∀ x0, Statement (.rteSkip x0) := fun _ => of_form rfl (encodeExt_length _)
theorem rteSub : ∀ x0, Statement (.rteSub x0) := fun _ => of_form rfl (encodeExt_length _)
theorem sysc : ∀ x0 x1, Statement (.sysc x0 x1) := fun _ _ => of_form rfl (encodeExt_length _)
theorem syscReply : ∀ x0 x1 x2 x3, Statement (.syscReply x0 x1 x2 x3) := fun _ _ _ _ => of_none rfl (Nat.zero_le 2)
theorem launch : ∀ x0 x1, Statement (.launch x0 x1) := fun _ _ => of_form rfl (encodeExt_length _)
theorem plumb : ∀ x0, Statement (.plumb x0) := fun _ => of_form rfl (encodeExt_length _)
theorem brk : ∀ x0, Statement (.brk x0) := fun _ => of_form rfl (encodeExt_length _)
theorem encCreate : ∀ x0 x1, Statement (.encCreate x0 x1) := fun _ _ => of_none rfl (Nat.le_succ 1)
theorem encAddpg : ∀ x0 x1 x2, Statement (.encAddpg x0 x1 x2) := fun _ _ _ => of_none rfl (Nat.le_succ 1)
theorem encEnter : ∀ x0 x1 x2, Statement (.encEnter x0 x1 x2) := fun _ _ _ => of_none rfl (Nat.le_succ 1)
theorem encSeal : ∀ x0 x1 x2, Statement (.encSeal x0 x1 x2) := fun _ _ _ => of_none rfl (Nat.le_succ 1)
theorem encUnseal : ∀ x0 x1 x2, Statement (.encUnseal x0 x1 x2) := fun _ _ _ => of_none rfl (Nat.le_succ 1)
theorem encDestroy : ∀ x0 x1, Statement (.encDestroy x0 x1) := fun _ _ => of_none rfl (Nat.le_succ 1)
theorem keyTransfer : ∀ x0 x1, Statement (.keyTransfer x0 x1) := fun _ _ => of_none rfl (Nat.zero_le 2)
theorem enclaveAsyncExit : ∀ x0 x1, Statement (.enclaveAsyncExit x0 x1) := fun _ _ => of_none rfl (Nat.zero_le 2)
theorem kqcfgWrite : ∀ x0 x1 x2, Statement (.kqcfgWrite x0 x1 x2) := fun _ _ _ => of_none rfl (Nat.zero_le 2)
theorem kqdoorTailWrite : ∀ x0 x1 x2, Statement (.kqdoorTailWrite x0 x1 x2) := fun _ _ _ => of_none rfl (Nat.zero_le 2)
theorem headerCheck : ∀ x0 x1, Statement (.headerCheck x0 x1) := fun _ _ => of_none rfl (Nat.zero_le 2)
theorem tokenReady : ∀ x0, Statement (.tokenReady x0) := fun _ => of_none rfl (Nat.zero_le 2)
theorem priorityAge : ∀ x0 x1, Statement (.priorityAge x0 x1) := fun _ _ => of_none rfl (Nat.zero_le 2)
theorem launchRetire : ∀ x0, Statement (.launchRetire x0) := fun _ => of_none rfl (Nat.zero_le 2)
theorem preemptRequest : ∀ x0, Statement (.preemptRequest x0) := fun _ => of_none rfl (Nat.zero_le 2)
theorem mappedSave : ∀ x0, Statement (.mappedSave x0) := fun _ => of_none rfl (Nat.zero_le 2)
theorem fullSave : ∀ x0, Statement (.fullSave x0) := fun _ => of_none rfl (Nat.zero_le 2)
theorem bentResume : ∀ x0, Statement (.bentResume x0) := fun _ => of_none rfl (Nat.zero_le 2)
theorem planerRegroup : ∀ x0, Statement (.planerRegroup x0) := fun _ => of_none rfl (Nat.zero_le 2)
theorem issueSelect : ∀ x0, Statement (.issueSelect x0) := fun _ => of_none rfl (Nat.zero_le 2)
theorem starvationForce : ∀ x0, Statement (.starvationForce x0) := fun _ => of_none rfl (Nat.zero_le 2)
theorem powerWindow : ∀ x0, Statement (.powerWindow x0) := fun _ => of_none rfl (Nat.zero_le 2)
theorem clbudgetWrite : ∀ x0 x1 x2, Statement (.clbudgetWrite x0 x1 x2) := fun _ _ _ => of_none rfl (Nat.zero_le 2)
theorem copyCommandBegin : ∀ x0, Statement (.copyCommandBegin x0) := fun _ => of_none rfl (Nat.zero_le 2)
theorem copyCommandComplete : ∀ x0, Statement (.copyCommandComplete x0) := fun _ => of_none rfl (Nat.zero_le 2)
theorem tlbMissWalk : ∀ x0 x1 x2, Statement (.tlbMissWalk x0 x1 x2) := fun _ _ _ => of_none rfl (Nat.zero_le 2)
theorem tlbInvalidate : ∀ x0 x1, Statement (.tlbInvalidate x0 x1) := fun _ _ => of_none rfl (Nat.zero_le 2)
theorem demandZeroFill : ∀ x0 x1, Statement (.demandZeroFill x0 x1) := fun _ _ => of_none rfl (Nat.zero_le 2)
theorem retentionOverflow : ∀ x0 x1, Statement (.retentionOverflow x0 x1) := fun _ _ => of_none rfl (Nat.zero_le 2)
theorem tenonExecute : ∀ x0, Statement (.tenonExecute x0) := fun _ => of_none rfl (Nat.zero_le 2)
theorem tenonDone : ∀ x0, Statement (.tenonDone x0) := fun _ => of_none rfl (Nat.zero_le 2)
theorem quarterBind : ∀ x0, Statement (.quarterBind x0) := fun _ => of_none rfl (Nat.zero_le 2)
theorem bankSwap : ∀ x0 x1, Statement (.bankSwap x0 x1) := fun _ _ => of_none rfl (Nat.zero_le 2)
theorem rowAccept : ∀ x0 x1, Statement (.rowAccept x0 x1) := fun _ _ => of_none rfl (Nat.zero_le 2)
theorem segmentArrive : ∀ x0, Statement (.segmentArrive x0) := fun _ => of_none rfl (Nat.zero_le 2)
theorem mzeroComplete : ∀ x0, Statement (.mzeroComplete x0) := fun _ => of_none rfl (Nat.zero_le 2)
theorem fillFault : ∀ x0, Statement (.fillFault x0) := fun _ => of_none rfl (Nat.zero_le 2)
theorem integrityHalt : ∀ x0 x1 x2, Statement (.integrityHalt x0 x1 x2) := fun _ _ _ => of_none rfl (Nat.zero_le 2)
theorem eqcfgWrite : ∀ x0 x1, Statement (.eqcfgWrite x0 x1) := fun _ _ => of_none rfl (Nat.zero_le 2)
theorem eqdoorHeadWrite : ∀ x0 x1, Statement (.eqdoorHeadWrite x0 x1) := fun _ _ => of_none rfl (Nat.zero_le 2)
theorem packageFailure : ∀ x0, Statement (.packageFailure x0) := fun _ => of_none rfl (Nat.zero_le 2)
theorem negotiateAlgorithms : ∀ x0 x1, Statement (.negotiateAlgorithms x0 x1) := fun _ _ => of_none rfl (Nat.zero_le 2)
theorem getCertificate : ∀ x0, Statement (.getCertificate x0) := fun _ => of_none rfl (Nat.zero_le 2)
theorem challenge : ∀ x0 x1, Statement (.challenge x0 x1) := fun _ _ => of_none rfl (Nat.zero_le 2)
theorem getMeasurements : ∀ x0 x1, Statement (.getMeasurements x0 x1) := fun _ _ => of_none rfl (Nat.zero_le 2)
theorem keyExchange : Statement .keyExchange := of_none rfl (Nat.zero_le 2)
theorem finish : ∀ x0, Statement (.finish x0) := fun _ => of_none rfl (Nat.zero_le 2)
theorem vendorDefinedRequest : ∀ x0 x1 x2, Statement (.vendorDefinedRequest x0 x1 x2) := fun _ _ _ => of_none rfl (Nat.zero_le 2)
theorem unsupportedRequest : ∀ x0, Statement (.unsupportedRequest x0) := fun _ => of_none rfl (Nat.zero_le 2)
theorem egressTransfer : ∀ x0 x1 x2, Statement (.egressTransfer x0 x1 x2) := fun _ _ _ => of_none rfl (Nat.zero_le 2)
theorem egressWindow : ∀ x0 x1, Statement (.egressWindow x0 x1) := fun _ _ => of_none rfl (Nat.zero_le 2)
theorem egcfgWrite : ∀ x0 x1 x2 x3, Statement (.egcfgWrite x0 x1 x2 x3) := fun _ _ _ _ => of_none rfl (Nat.zero_le 2)
theorem dreushStreamOpen : ∀ x0 x1 x2 x3 x4 x5, Statement (.dreushStreamOpen x0 x1 x2 x3 x4 x5) := fun _ _ _ _ _ _ => of_none rfl (Nat.zero_le 2)
theorem dreushFrameReceive : ∀ x0 x1 x2 x3, Statement (.dreushFrameReceive x0 x1 x2 x3) := fun _ _ _ _ => of_none rfl (Nat.zero_le 2)
theorem tdispStateChange : ∀ x0 x1 x2, Statement (.tdispStateChange x0 x1 x2) := fun _ _ _ => of_none rfl (Nat.zero_le 2)
theorem colownWrite : ∀ x0 x1 x2, Statement (.colownWrite x0 x1 x2) := fun _ _ _ => of_none rfl (Nat.zero_le 2)
theorem pcfgWrite : ∀ x0 x1 x2, Statement (.pcfgWrite x0 x1 x2) := fun _ _ _ => of_none rfl (Nat.zero_le 2)
theorem wmaskWrite : ∀ x0 x1 x2 x3, Statement (.wmaskWrite x0 x1 x2 x3) := fun _ _ _ _ => of_none rfl (Nat.zero_le 2)
theorem migctlEnWrite : ∀ x0 x1 x2, Statement (.migctlEnWrite x0 x1 x2) := fun _ _ _ => of_none rfl (Nat.zero_le 2)
theorem migctlGo : ∀ x0 x1 x2, Statement (.migctlGo x0 x1 x2) := fun _ _ _ => of_none rfl (Nat.zero_le 2)
theorem migctlFinal : ∀ x0 x1 x2, Statement (.migctlFinal x0 x1 x2) := fun _ _ _ => of_none rfl (Nat.zero_le 2)
theorem migrationRoundDone : ∀ x0, Statement (.migrationRoundDone x0) := fun _ => of_none rfl (Nat.zero_le 2)
theorem checkpoint : ∀ x0, Statement (.checkpoint x0) := fun _ => of_none rfl (Nat.zero_le 2)
theorem checkpointRestore : ∀ x0, Statement (.checkpointRestore x0) := fun _ => of_none rfl (Nat.zero_le 2)
theorem clmodeWrite : ∀ x0 x1 x2, Statement (.clmodeWrite x0 x1 x2) := fun _ _ _ => of_none rfl (Nat.zero_le 2)
theorem coresvcWrite : ∀ x0 x1 x2, Statement (.coresvcWrite x0 x1 x2) := fun _ _ _ => of_none rfl (Nat.zero_le 2)
theorem wgateWrite : ∀ x0 x1 x2, Statement (.wgateWrite x0 x1 x2) := fun _ _ _ => of_none rfl (Nat.zero_le 2)
theorem mgsemWrite : ∀ x0 x1, Statement (.mgsemWrite x0 x1) := fun _ _ => of_none rfl (Nat.zero_le 2)
theorem pkctlWarmReset : ∀ x0, Statement (.pkctlWarmReset x0) := fun _ => of_none rfl (Nat.zero_le 2)
theorem pkctlColdReset : ∀ x0, Statement (.pkctlColdReset x0) := fun _ => of_none rfl (Nat.zero_le 2)
theorem pkctlPlumb : ∀ x0, Statement (.pkctlPlumb x0) := fun _ => of_none rfl (Nat.zero_le 2)
theorem pkidWrite : ∀ x0 x1, Statement (.pkidWrite x0 x1) := fun _ _ => of_none rfl (Nat.zero_le 2)
theorem registerWrite : ∀ x0 x1 x2, Statement (.registerWrite x0 x1 x2) := fun _ _ _ => of_none rfl (Nat.zero_le 2)
theorem mtimecmpInterrupt : ∀ x0, Statement (.mtimecmpInterrupt x0) := fun _ => of_none rfl (Nat.zero_le 2)
theorem deviceMsi : ∀ x0 x1, Statement (.deviceMsi x0 x1) := fun _ _ => of_none rfl (Nat.zero_le 2)
theorem thermalThrottle : ∀ x0 x1, Statement (.thermalThrottle x0 x1) := fun _ _ => of_none rfl (Nat.zero_le 2)
theorem thermalTrip : ∀ x0 x1, Statement (.thermalTrip x0 x1) := fun _ _ => of_none rfl (Nat.zero_le 2)
theorem snapshotLatch : ∀ x0, Statement (.snapshotLatch x0) := fun _ => of_none rfl (Nat.zero_le 2)
theorem traceComparatorMatch : Statement .traceComparatorMatch := of_none rfl (Nat.zero_le 2)
theorem ioWriteCompletion : ∀ x0 x1 x2 x3 x4 x5, Statement (.ioWriteCompletion x0 x1 x2 x3 x4 x5) := fun _ _ _ _ _ _ => of_none rfl (Nat.zero_le 2)
theorem unassignedEncoding : ∀ x0, Statement (.unassignedEncoding x0) := fun _ => of_none rfl (Nat.zero_le 2)
theorem sillCoreInstruction : ∀ x0 x1, Statement (.sillCoreInstruction x0 x1) := fun _ _ => of_none rfl (Nat.zero_le 2)
theorem debuggerCommand : ∀ x0 x1 x2, Statement (.debuggerCommand x0 x1 x2) := fun _ _ _ => of_none rfl (Nat.zero_le 2)
theorem syscRequestTaken : ∀ x0 x1, Statement (.syscRequestTaken x0 x1) := fun _ _ => of_none rfl (Nat.zero_le 2)
theorem loadDataReturn : ∀ x0 x1, Statement (.loadDataReturn x0 x1) := fun _ _ => of_none rfl (Nat.zero_le 2)
theorem storeAccepted : ∀ x0, Statement (.storeAccepted x0) := fun _ => of_none rfl (Nat.zero_le 2)
theorem feedPushAccepted : ∀ x0, Statement (.feedPushAccepted x0) := fun _ => of_none rfl (Nat.zero_le 2)
theorem nopB : Statement .nopB := of_none rfl (Nat.le_succ 1)
theorem encExit : Statement .encExit := of_none rfl (Nat.le_succ 1)
theorem dispatchDecision : Statement .dispatchDecision := of_none rfl (Nat.zero_le 2)
theorem getVersion : Statement .getVersion := of_none rfl (Nat.zero_le 2)
theorem getCapabilities : Statement .getCapabilities := of_none rfl (Nat.zero_le 2)
theorem getDigests : Statement .getDigests := of_none rfl (Nat.zero_le 2)
theorem heartbeat : Statement .heartbeat := of_none rfl (Nat.zero_le 2)
theorem keyUpdate : Statement .keyUpdate := of_none rfl (Nat.zero_le 2)
theorem endSession : Statement .endSession := of_none rfl (Nat.zero_le 2)
theorem mgsemTimeout : Statement .mgsemTimeout := of_none rfl (Nat.zero_le 2)
theorem powerOn : Statement .powerOn := of_none rfl (Nat.zero_le 2)
theorem watchdogReset : Statement .watchdogReset := of_none rfl (Nat.zero_le 2)
theorem phyTrainingDone : Statement .phyTrainingDone := of_none rfl (Nat.zero_le 2)
theorem scrub : Statement .scrub := of_none rfl (Nat.zero_le 2)
theorem linksDone : Statement .linksDone := of_none rfl (Nat.zero_le 2)
theorem plumbTrigger : Statement .plumbTrigger := of_none rfl (Nat.zero_le 2)
theorem rootbootDone : Statement .rootbootDone := of_none rfl (Nat.zero_le 2)

end Sys2Proof.Laws.EncodedLength
end

