-- ==== Sys2Proof/Tests/Slice0.lean ====
section
/-! SUPPORT. The model's own tests: ill-formed instructions refused, the spec's encodings decoded, one step of instructions on a
small machine with results from the spec, and a machine that meets the hypotheses of every statement that has some. -/

namespace Sys2Proof.Tests

set_option Elab.async false

open Sys2Proof Sys2Proof.Machine Sys2Proof.Safety Sys2Proof.Claims

/-! ### Helpers -/

def x0 : Ext := { vd := 1023, va := 1023, vb := 1023, vc := 1023, mask := 0, inv := false, z := false, rnd := .dflt, imm := 0, lit := none }
def refused (is : List Instr) : Bool := is.all fun i => !i.wellFormed
def reads (cs : List (List Word × Instr)) : Bool := cs.all fun c => decide (decode c.1 = .ok c.2)

/-- The placed machine (log entry 23) with a base NOP at its PC, thread 0 executing. -/
def m0 : State := { State.reset.withFetchWord 32 0x1F800000 with cur := some (.thread 0), issue := [[]] }
/-- That machine with its thread changed. -/
def mt (f : Thread → Thread) : State := { m0 with threads := m0.threads.map fun (k, v) => (k, f v) }
def rs (l : List (Nat × Nat)) (v : Thread) : Thread := { v with regs := l.map fun (k, x) => (k, BitVec.ofNat 32 x) }
/-- The thread executing. -/
def th (s : State) : Thread := ((s.cur.bind (viewOf s)).getD (newThread 0 0 [] 0 0 0 0))
def whoOf (s : State) : Who := s.cur.getD (.hart 0)
/-- A test of the next state and its executing context. -/
def after (i : Instr) (s : State) (p : State → Thread → Bool) : Bool :=
  match exec i s with
  | .next t => (viewOf t (whoOf s)).any (p t)
  | _ => false
/-- The instruction is well formed, admitted and predicated where it executes. -/
def ready (i : Instr) (s : State) : Bool :=
  i.wellFormed && (viewOf s (whoOf s)).any fun v => decide (contextCheck i v = none) && predicated i v
/-- The value left in the destination of an instruction that has completed. -/
def gives (i : Instr) (l : List (Nat × Nat)) (r : Nat) : Bool :=
  ready i (mt (rs l)) && after i (mt (rs l)) fun _ u =>
    regNum u (destReg i) (destWidth i) == r && u.pc == BitVec.ofNat 64 (codeVa + i.len)
/-- Every one of some checks. -/
def every (l : List Bool) : Bool := l.all id

theorem ready_spec {i : Instr} {s : State} {w : Who} {v : Thread} (h : ready i s = true) (hw : s.cur = some w)
    (hv : viewOf s w = some v) : Ready i s w v := by
  have e : whoOf s = w := by simp [whoOf, hw]
  simp only [ready, e, hv, Bool.and_eq_true, Option.any_some, decide_eq_true_eq] at h
  exact ⟨h.1, hw, hv, h.2.1, h.2.2⟩

/-- Type, condition and MOD codes that no entry admits (R113, R115-R121). -/
theorem test_refuses_codes : refused [
    .iaddExt false .f32 { x0 with vd := 1, va := 2, vb := 3 },
    .moviExt .b32 { x0 with vd := 1, va := 2 },
    .icmp .un false 0 .b32 { x0 with vd := 1, va := 2, vb := 3 },
    .icmp .lt true 0 .b32 { x0 with va := 2, vb := 3 },
    .icmp .lt false 3 .b32 { x0 with vd := 1, va := 2, vb := 3 },
    .fcmp .lt true 0 .f32 { x0 with va := 2, vb := 3 },
    .fcmp .lt false 0 .b32 { x0 with vd := 1, va := 2, vb := 3 },
    .bfx 0 0 .b32 { x0 with vd := 1, va := 2 },
    .bfi 1 32 .b32 { x0 with vd := 1, va := 2, vb := 3 },
    .sel false 1 .s8 { x0 with vd := 1, va := 2, vb := 3 },
    .lea 1 .b32 { x0 with vd := 2, va := 4, vb := 6, imm := 8 },
    .mlog .and 0 1 2 x0, .mlog .copy 1 2 3 x0, .mmov true 0 { x0 with va := 1 },
    .faddExt .b32 { x0 with vd := 1, va := 2, vb := 3 },
    .cvt .b128 false .f32 { x0 with vd := 1, va := 4 }, .cvt .f32 false .cb4 { x0 with vd := 1, va := 4 },
    .pack .e4m3 4 false .f32 { x0 with vd := 1, va := 2, vb := 3 },
    .pack .cb4 0 false .f32 { x0 with vd := 1, va := 2, vb := 3 },
    .unpk .e2m1 8 .f32 { x0 with vd := 1, va := 2, vb := 3 },
    .idivq false .s64 { x0 with vd := 768, va := 2, vb := 4 },
    .cpy .spToGl true none { x0 with vd := 2, va := 1, vb := 3, vc := 4 },
    .cpyg none .f32 { x0 with vd := 1, va := 2, vb := 3, vc := 4 },
    .tnx .none .cr false false 0 9 { x0 with vd := 1, va := 2, vb := 3 },
    .tnx .acq .cr false true 0 1 { x0 with va := 2, vb := 3 },
    .tred true .and .f32 { x0 with vd := 1, va := 2 },
    .ldExt .rel .cr false .b32 { x0 with vd := 1, va := 2 }, .stExt .acq .cr false .b32 { x0 with vd := 1, va := 2 },
    .ldsExt .e4m3 { x0 with vd := 1, va := 2 },
    .atom .and .none .dv false false .f32 { x0 with vd := 1, va := 2, vb := 3 },
    .atom .min .none .dv false true .f32 { x0 with vd := 1, va := 2, vb := 3 },
    .red .xchg .none .dv false false .b32 { x0 with va := 2, vb := 3 },
    .red .add .acq .dv false false .b32 { x0 with va := 2, vb := 3 },
    .fence .none .dv x0, .waitc .ord .none .dv false .b32 { x0 with vd := 1, va := 2, vb := 3 },
    .cctl .iinv .sy { x0 with va := 2, vb := 3 },
    .raise true { x0 with vd := 1, va := 2, vc := 3 }, .sreg 0x07 { x0 with vd := 1 }, .sset 0x01 { x0 with va := 1 }] = true := by
  decide

/-- Register fields that a form does not admit (R93, R94, R110, R508). -/
theorem test_refuses_registers : refused [
    .not .b32 { x0 with vd := 1, va := 2, vb := 3 },
    .iaddExt false .s64 { x0 with vd := 3, va := 2, vb := 4 },
    .iaddExt false .s64 { x0 with vd := 2, va := 768, vb := 4 },
    .iaddExt false .b32 { x0 with vd := 768, va := 2, vb := 4 },
    .iaddExt false .b32 { x0 with vd := 1, va := 772, vb := 4 },
    .iaddExt false .b32 { x0 with vd := 1, va := 776, vb := 4 },
    .ldExt .none .cr false .b32 { x0 with vd := 772, va := 2 },
    .ldExt .none .cr false .b128 { x0 with vd := 2, va := 2 },
    .sfq .exp2 .f32 { x0 with vd := 1, va := 2 }, .sfq .exp2 .f32 { x0 with vd := 772, va := 2 },
    .tnx .none .cr false false 0 8 { x0 with vd := 765, va := 2, vb := 4 },
    .tnx .none .cr false false 0 1 { x0 with vd := 1, va := 2, vb := 1023 },
    .itnext { x0 with vd := 772 }, .gset 0 { x0 with va := 784 }, .hred { x0 with va := 768 }, .shfl true .idx .s64 { x0 with vd := 2, va := 4, vb := 780 },
    .ldB64 { pfx := none, d := 3, a := 2, imm := 0 }, .ldB32 { pfx := none, d := 3, a := 1, imm := 0 },
    .iaddB3 { pfx := none, t := .w64, d := 1, a := 2, b := 4 }] = true := by decide

/-- Immediates, literals, predicates and rounding codes that a form does not admit (R110, R119, R120). -/
theorem test_refuses_immediates : refused [
    .not .b32 { x0 with vd := 1, va := 2, imm := 1 },
    .iaddExt false .b32 { x0 with vd := 1, va := 2, vb := 3, imm := 1 },
    .iaddExt false .b32 { x0 with vd := 1, va := 2, vb := 3, lit := some 0 },
    .iaddExt false .b32 { x0 with vd := 1, va := 2, lit := some 0x80000000 },
    .iaddExt false .b32 { x0 with vd := 1, va := 2, imm := 1, lit := some 1 },
    .faddExt .f32 { x0 with vd := 1, va := 2, vb := 3, imm := 1 },
    .faddExt .f32 { x0 with vd := 1, va := 2, lit := some 0x100000000 },
    .faddExt .bf16 { x0 with vd := 1, va := 2, lit := some 0x10000 },
    .ldsExt .b32 { x0 with vd := 1, va := 2, lit := some 0x80000000 },
    .raise false { x0 with vd := 1, va := 2, vc := 3, lit := some 0 },
    .trap { x0 with lit := some 0 }, .bar { x0 with imm := 0x1000 }, .waitExt 0 0 0 { x0 with imm := 16 }, .braExt x0, .meet x0,
    .exit { x0 with z := true }, .stExt .none .cr false .b32 { x0 with vd := 1, va := 2, z := true },
    .bar { x0 with mask := 1 }, .ret { x0 with inv := true }, .callExt { x0 with lit := some 0, mask := 1 },
    .iaddExt false .b32 { x0 with vd := 1, va := 2, vb := 3, rnd := .rtz },
    .fminExt .f32 { x0 with vd := 1, va := 2, vb := 3, rnd := .rdn },
    .frnd .f32 { x0 with vd := 1, va := 2, rnd := .sr }, .cvt .f32 false .b32 { x0 with vd := 1, va := 2, rnd := .sr }] = true := by
  decide

def pfx0 : Pfx := { vdh := 0, vah := 0, vbh := 0, mask := 0, z := false, rnd := .dflt, vc := 1023 }

/-- Leading words that a base word does not admit (R106, R108). -/
theorem test_refuses_leading_words : refused [
    .iaddB3 { pfx := some { pfx0 with vdh := 6 }, t := .w32, d := 1, a := 2, b := 3 },
    .iaddB3 { pfx := some { pfx0 with vah := 7 }, t := .w32, d := 1, a := 2, b := 3 },
    .iaddB3 { pfx := some { pfx0 with vbh := 6 }, t := .w32, d := 1, a := 2, b := 3 },
    .iaddB3 { pfx := some { pfx0 with vc := 4 }, t := .w32, d := 1, a := 2, b := 3 },
    .iaddB3 { pfx := some { pfx0 with rnd := .rtz }, t := .w32, d := 1, a := 2, b := 3 },
    .fminB3 { pfx := some { pfx0 with rnd := .rtz }, t := .w32, d := 1, a := 2, b := 3 },
    .faddB3 { pfx := none, t := .w64, d := 2, a := 4, b := 6 },
    .movB3 { pfx := none, t := .w32, d := 1, a := 2, b := 3 },
    .iaddBI { pfx := some { pfx0 with vbh := 1 }, d := 1, a := 2, imm := 3 },
    .moviB { pfx := some { pfx0 with vah := 1 }, d := 1, imm := 3 },
    .stB32 { pfx := some { pfx0 with z := true }, d := 1, a := 2, imm := 3 }] = true := by decide

/-- Reserved words: a base opcode, t = 11, a bit of WAIT and NOP that must be zero, a must-be-zero bit of a leading word, an opcode
after a leading word that is not prefixable, an extended opcode, a MOD bit, a type code, a rounding code, a word-1 bit, too few
words (R102-R115); and enclave words with a field that must be zero (R122). -/
theorem test_refuses_reserved_words :
    (([[0x09000000], [0x00000003], [0x1F000001], [0x1F800001], [0x40001FFC, 0x00810000], [0x40001FF8, 0x1F800000],
      [0x83600000, 0xFFFFFFFC, 0xFFC00000], [0x80000002, 0x0040200C, 0xFFC00000], [0x80130000, 0x0040200C, 0xFFC00000],
      [0x80000000, 0x0040200C, 0xFFC0C000], [0x80000000, 0x0040200D, 0xFFC00000], [0x80000000], [0x40001FF8], []] : List (List Word)).all
      fun ws => match decode ws with | .ok _ => false | .error _ => true) = true ∧
    ([0x0000150B, 0x0E00000B, 0x0600008B, 0x00C5850B, 0x0005850F] : List Word).all (fun w => decide (decodeEnc w = none)) = true := by
  decide

/-- R105, R106, R114: base words. -/
theorem test_decode_base_0 : reads [
    ([0x0001040C], .iaddB3 { pfx := none, t := .w32, d := 1, a := 2, b := 3 }),
    ([0x0081040C], .isubB3 { pfx := none, t := .w32, d := 1, a := 2, b := 3 }),
    ([0x01040A19], .imulB3 { pfx := none, t := .z32bf, d := 4, a := 5, b := 6 }),
    ([0x01881432], .iminB3 { pfx := none, t := .w64, d := 8, a := 10, b := 12 }),
    ([0x02071025], .imaxB3 { pfx := none, t := .z32bf, d := 7, a := 8, b := 9 }),
    ([0x0281040C], .andB3 { pfx := none, t := .w32, d := 1, a := 2, b := 3 }),
    ([0x0302081A], .orB3 { pfx := none, t := .w64, d := 2, a := 4, b := 6 }),
    ([0x038B1834], .xorB3 { pfx := none, t := .w32, d := 11, a := 12, b := 13 }),
    ([0x040E204A], .shlB3 { pfx := none, t := .w64, d := 14, a := 16, b := 18 }),
    ([0x04FFFDF4], .shrB3 { pfx := none, t := .w32, d := 127, a := 126, b := 125 }),
    ([0x05142A59], .sarB3 { pfx := none, t := .z32bf, d := 20, a := 21, b := 22 }),
    ([0x059E4002], .movB3 { pfx := none, t := .w64, d := 30, a := 32, b := 0 }),
    ([0x060A1631], .faddB3 { pfx := none, t := .z32bf, d := 10, a := 11, b := 12 }),
    ([0x06810614], .fsubB3 { pfx := none, t := .w32, d := 1, a := 3, b := 5 }),
    ([0x07020818], .fmulB3 { pfx := none, t := .w32, d := 2, a := 4, b := 6 }),
    ([0x07830C25], .fminB3 { pfx := none, t := .z32bf, d := 3, a := 6, b := 9 }),
    ([0x08090C0C], .fmaxB3 { pfx := none, t := .w32, d := 9, a := 6, b := 3 }),
    ([0x08850E2C], .ffmaB3 { pfx := none, t := .w32, d := 5, a := 7, b := 11 }),
    ([0x100105FB], .iaddBI { pfx := none, d := 1, a := 2, imm := 507 }),
    ([0x108308FF], .andBI { pfx := none, d := 3, a := 4, imm := 255 })] = true := by decide

/-- R105, R106, R114: base words. -/
theorem test_decode_base_1 : reads [
    ([0x11050D00], .orBI { pfx := none, d := 5, a := 6, imm := 256 }),
    ([0x118711FF], .xorBI { pfx := none, d := 7, a := 8, imm := 511 }),
    ([0x1209141F], .shlBI { pfx := none, d := 9, a := 10, imm := 31 }),
    ([0x128B1801], .shrBI { pfx := none, d := 11, a := 12, imm := 1 }),
    ([0x130D1C07], .sarBI { pfx := none, d := 13, a := 14, imm := 7 }),
    ([0x18082810], .ldB32 { pfx := none, d := 8, a := 20, imm := 16 }),
    ([0x188A29FE], .ldB64 { pfx := none, d := 10, a := 20, imm := 510 }),
    ([0x19092C03], .stB32 { pfx := none, d := 9, a := 22, imm := 3 }),
    ([0x198C3100], .stB64 { pfx := none, d := 12, a := 24, imm := 256 }),
    ([0x1A010405], .ldsB32 { pfx := none, d := 1, a := 2, imm := 5 }),
    ([0x1A8309FF], .stsB32 { pfx := none, d := 3, a := 4, imm := 511 }),
    ([0x1B060E08], .ldsB64 { pfx := none, d := 6, a := 7, imm := 8 }),
    ([0x1B8813F8], .stsB64 { pfx := none, d := 8, a := 9, imm := 504 }),
    ([0x1383FFFE], .moviB { pfx := none, d := 3, imm := 0xFFFE }),
    ([0x1E17FFFC], .braBB 2 true 0x3FFFC),
    ([0x1E800020], .callBB 0 0x20),
    ([0x1F0A4990], .waitB 5 9 3 2),
    ([0x1F800000], .nopB)] = true := by decide

/-- R107, R108: a leading word and a base word. -/
theorem test_decode_prefixed : reads [
    ([0x51A71FF8, 0x0001040C], .iaddB3 { pfx := some { vdh := 2, vah := 1, vbh := 5, mask := 3, z := true, rnd := .dflt, vc := 1023 }, t := .w32, d := 1, a := 2, b := 3 }),
    ([0x401EB5E0, 0x0881040D], .ffmaB3 { pfx := some { vdh := 0, vah := 0, vbh := 0, mask := 15, z := false, rnd := .sr, vc := 700 }, t := .z32bf, d := 1, a := 2, b := 3 }),
    ([0x6D021FF8, 0x19FEFC04], .stB64 { pfx := some { vdh := 5, vah := 5, vbh := 0, mask := 1, z := false, rnd := .dflt, vc := 1023 }, d := 126, a := 126, imm := 4 }),
    ([0x60051FF8, 0x13870009], .moviB { pfx := some { vdh := 4, vah := 0, vbh := 0, mask := 2, z := true, rnd := .dflt, vc := 1023 }, d := 7, imm := 9 })] = true := by decide

/-- R116: integer and logic class. -/
theorem test_decode_integer_0 : reads [
    ([0x80000001, 0x0040200C, 0xFFC00000], .iaddExt true .b32 { x0 with vd := 1, va := 2, vb := 3 }),
    ([0x80230000, 0x00804018, 0xFFCF0000], .isubExt false .z64 { x0 with vd := 2, va := 4, vb := 6, mask := 3, inv := true, z := true }),
    ([0x80400000, 0x00402FFC, 0xFFC01FFF], .imulExt .b32 { x0 with vd := 1, va := 2, imm := 8191 }),
    ([0x80610000, 0x01C08024, 0xFFC00000], .imulhi .z32 { x0 with vd := 7, va := 8, vb := 9 }),
    ([0x80820001, 0x00804018, 0x02000000], .imad true .s64 { x0 with vd := 2, va := 4, vb := 6, vc := 8 }),
    ([0x80A00000, 0x0040200C, 0xFFC00000], .iminExt .b32 { x0 with vd := 1, va := 2, vb := 3 }),
    ([0xC0C30000, 0x00804FFC, 0xFFC00000, 0x9ABCDEF0, 0x12345678], .imaxExt .z64 { x0 with vd := 2, va := 4, lit := some 0x123456789ABCDEF0 }),
    ([0x80E02012, 0xFFC04FFC, 0xFFC00064], .icmp .lt true 2 .b32 { x0 with va := 4, imm := 100 }),
    ([0x80E20005, 0x00402010, 0xFFC00000], .icmp .ge false 0 .s64 { x0 with vd := 1, va := 2, vb := 4 }),
    ([0xC1000000, 0x00402FFC, 0xFFC00000, 0xFFFFFFFE, 0xFFFFFFFF], .andExt .b32 { x0 with vd := 1, va := 2, lit := some 0xFFFFFFFFFFFFFFFE }),
    ([0x81210000, 0x0040200C, 0xFFC00000], .orExt .z32 { x0 with vd := 1, va := 2, vb := 3 }),
    ([0x81420000, 0x00804018, 0xFFC00000], .xorExt .s64 { x0 with vd := 2, va := 4, vb := 6 }),
    ([0x81600000, 0x00402FFC, 0xFFC00000], .not .b32 { x0 with vd := 1, va := 2 }),
    ([0x81800000, 0x0040200C, 0xFFC00000], .andn .b32 { x0 with vd := 1, va := 2, vb := 3 }),
    ([0x81A00000, 0x00402FFC, 0xFFC00004], .shlExt .b32 { x0 with vd := 1, va := 2, imm := 4 }),
    ([0x81C30000, 0x00804018, 0xFFC00000], .shrExt .z64 { x0 with vd := 2, va := 4, vb := 6 }),
    ([0x81E00000, 0x0040200C, 0xFFC00000], .sarExt .b32 { x0 with vd := 1, va := 2, vb := 3 }),
    ([0x82000104, 0x00402FFC, 0xFFC00000], .bfx 4 8 .b32 { x0 with vd := 1, va := 2 }),
    ([0x82210400, 0x0040200C, 0xFFC00000], .bfi 0 32 .z32 { x0 with vd := 1, va := 2, vb := 3 }),
    ([0x82430000, 0x00402FFC, 0xFFC00000], .popc .z64 { x0 with vd := 1, va := 2 })] = true := by decide

/-- R116: integer and logic class. -/
theorem test_decode_integer_1 : reads [
    ([0x82600000, 0x00402FFC, 0xFFC00000], .clz .b32 { x0 with vd := 1, va := 2 }),
    ([0x82820000, 0x00804FFC, 0xFFC00000], .brev .s64 { x0 with vd := 2, va := 4 }),
    ([0x82A43800, 0x0040200C, 0xFFC00000], .sel true 3 .f32 { x0 with vd := 1, va := 2, vb := 3 }),
    ([0x82C50000, 0x00700FFC, 0xFFC00000], .movExt .bf16 { x0 with vd := 1, va := 768 }),
    ([0xC2E00000, 0xC13FFFFC, 0xFFC00000, 0x7FFFFFFF, 0x00000000], .moviExt .b32 { x0 with vd := 772, lit := some 0x7FFFFFFF }),
    ([0x83010002, 0x05016014, 0xFFC00000], .lea 2 .z32 { x0 with vd := 20, va := 22, vb := 5 }),
    ([0x83202153, 0xFFFFFFFC, 0xFFC00000], .mlog .andn 5 1 2 (x0)),
    ([0x83404001, 0xFFC09FFC, 0xFFC00000], .mmov true 4 { x0 with va := 9 }),
    ([0x8340F000, 0x027FFFFC, 0xFFC00000], .mmov false 15 { x0 with vd := 9 })] = true := by decide

/-- R117: floating-point and conversion class. -/
theorem test_decode_float : reads [
    ([0x88040000, 0x0040200C, 0xFFC0A000], .faddExt .f32 { x0 with vd := 1, va := 2, vb := 3, rnd := .sr }),
    ([0xC8250000, 0x00402FFC, 0xFFC00000, 0x00003F80, 0x00000000], .fsubExt .bf16 { x0 with vd := 1, va := 2, lit := some 0x3F80 }),
    ([0x88440000, 0x0040200C, 0xFFC02000], .fmulExt .f32 { x0 with vd := 1, va := 2, vb := 3, rnd := .rtz }),
    ([0xC8640000, 0x05015FFC, 0x05800000, 0x3F000000, 0x00000000], .ffmaExt .f32 { x0 with vd := 20, va := 21, vc := 22, lit := some 0x3F000000 }),
    ([0x88840000, 0x0040200C, 0xFFC00000], .fminExt .f32 { x0 with vd := 1, va := 2, vb := 3 }),
    ([0x88A50000, 0x0040200C, 0xFFC00000], .fmaxExt .bf16 { x0 with vd := 1, va := 2, vb := 3 }),
    ([0x88C43012, 0xFFC0200C, 0xFFC00000], .fcmp .lt true 3 .f32 { x0 with va := 2, vb := 3 }),
    ([0x88C50007, 0x0040200C, 0xFFC00000], .fcmp .ord false 0 .bf16 { x0 with vd := 1, va := 2, vb := 3 }),
    ([0x88E40000, 0x00402FFC, 0xFFC00000], .fclass .f32 { x0 with vd := 1, va := 2 }),
    ([0x89040000, 0x00402FFC, 0xFFC04000], .frnd .f32 { x0 with vd := 1, va := 2, rnd := .rdn }),
    ([0x89240001, 0x01004010, 0xFFC00000], .fsgn .neg .f32 { x0 with vd := 4, va := 4, vb := 4 }),
    ([0x89250003, 0x01005FFC, 0xFFC00000], .fsgn .abs .bf16 { x0 with vd := 4, va := 5 }),
    ([0x89440000, 0x00402FFC, 0xFFC01FFD], .fldx .f32 { x0 with vd := 1, va := 2, imm := 8189 }),
    ([0x896B0004, 0x01406FFC, 0xFFC00000], .cvt .f32 false .e4m3 { x0 with vd := 5, va := 6 }),
    ([0x89600024, 0x01406FFC, 0xFFC02000], .cvt .f32 true .b32 { x0 with vd := 5, va := 6, rnd := .rtz }),
    ([0x8984026B, 0x0040200C, 0xFFC00000], .pack .e4m3 3 true .f32 { x0 with vd := 1, va := 2, vb := 3 }),
    ([0x89A500F0, 0x0040200C, 0xFFC00000], .unpk .cb4 7 .bf16 { x0 with vd := 1, va := 2, vb := 3 })] = true := by decide

/-- R118: engine class. -/
theorem test_decode_engine : reads [
    ([0x90040003, 0xC0004FFC, 0xFFC00000], .sfq .exp2 .f32 { x0 with vd := 768, va := 4 }),
    ([0x90200001, 0xC040601C, 0xFFC00000], .idivq true .b32 { x0 with vd := 769, va := 6, vb := 7 }),
    ([0x90400001, 0xFFC03FFC, 0xFFC00000], .qsave true { x0 with va := 3 }),
    ([0x90600000, 0xFFC03FFC, 0xFFC00000], .qrst false { x0 with va := 3 }),
    ([0x90800006, 0x027FFFFC, 0xFFC00000], .qcnt 6 { x0 with vd := 9 }),
    ([0x9100005C, 0x0040200C, 0x01000000], .cpy .glToSp true (some 5) { x0 with vd := 1, va := 2, vb := 3, vc := 4 }),
    ([0x91000001, 0x0080100C, 0xFFC00000], .cpy .spToGl false none { x0 with vd := 2, va := 1, vb := 3 }),
    ([0x91220038, 0x0040200C, 0x01400000], .cpyg (some 3) .s64 { x0 with vd := 1, va := 2, vb := 3, vc := 5 }),
    ([0x91400000, 0x01BFFFFC, 0xFFC00000], .cbseal { x0 with vd := 6 }),
    ([0x91600001, 0xFFC06FFC, 0xFFC00000], .cbwait true { x0 with va := 6 }),
    ([0x91800007, 0xFFFFFFFC, 0xFFC80000], .gopen 7 { x0 with mask := 2 }),
    ([0x91A00005, 0xFFC07FFC, 0xFFC00000], .gset 5 { x0 with va := 7 }),
    ([0x9200325F, 0x0341401C, 0xFFC00000], .tnx .ar .sy true false 9 3 { x0 with vd := 13, va := 20, vb := 7 }),
    ([0x92008FEA, 0xFFC1401C, 0xFFC00000], .tnx .rel .dv false true 63 8 { x0 with va := 20, vb := 7 }),
    ([0x92200000, 0xFFFFFFFC, 0xFFC00000], .tnsync (x0))] = true := by decide

/-- R119: memory class. -/
theorem test_decode_memory : reads [
    ([0xA006001D, 0x00414FFC, 0xFFC01000], .ldExt .acq .sy true .s8 { x0 with vd := 1, va := 20, imm := 4096 }),
    ([0xA02A000A, 0x01014FFC, 0xFFC00FFF], .stExt .rel .dv false .b128 { x0 with vd := 4, va := 20, imm := 4095 }),
    ([0xA0450000, 0x00402FFC, 0xFFC00003], .ldsExt .bf16 { x0 with vd := 1, va := 2, imm := 3 }),
    ([0xE0630000, 0x00805FFC, 0xFFC00000, 0xFFFFFFF8, 0xFFFFFFFF], .stsExt .z64 { x0 with vd := 2, va := 5, lit := some 0xFFFFFFFFFFFFFFF8 }),
    ([0xA0800000, 0x0040200C, 0xFFC00007], .ldr .b32 { x0 with vd := 1, va := 2, vb := 3, imm := 7 }),
    ([0xA0A00000, 0x0040200C, 0xFFC00000], .str .b32 { x0 with vd := 1, va := 2, vb := 3 }),
    ([0xA0C00020, 0xFFC14FFC, 0xFFC00040], .pref true { x0 with va := 20, imm := 64 }),
    ([0xA0E100FF, 0x00414008, 0x00C00000], .atom .cas .ar .sy true false .z32 { x0 with vd := 1, va := 20, vb := 2, vc := 3 }),
    ([0xA0E40408, 0x00414008, 0xFFC00000], .atom .add .none .dv false true .f32 { x0 with vd := 1, va := 20, vb := 2 }),
    ([0xA1040008, 0xFFC14024, 0xFFC00004], .red .add .none .dv false false .f32 { x0 with va := 20, vb := 9, imm := 4 }),
    ([0xA120000B, 0xFFFFFFFC, 0xFFC00000], .fence .ar .dv (x0)),
    ([0xA14100B9, 0x00414008, 0xFFC00001], .waitc .ge .acq .dv true .z32 { x0 with vd := 1, va := 20, vb := 2, imm := 1 }),
    ([0xA1600068, 0xFFC14058, 0xFFC00000], .cctl .iinv .dv { x0 with va := 20, vb := 22 }),
    ([0xA1800000, 0xFFFFFFFC, 0xFFC00000], .ifence (x0)),
    ([0xA1A00000, 0x00402FFC, 0xFFC00000], .pgalloc { x0 with vd := 1, va := 2 }),
    ([0xA1C00000, 0x00402FFC, 0xFFC00000], .pgfree { x0 with vd := 1, va := 2 })] = true := by decide

/-- R120: team, control and raising classes. -/
theorem test_decode_control_0 : reads [
    ([0x98040007, 0x00402FFC, 0xFFC00001], .shfl true .xor .f32 { x0 with vd := 1, va := 2, imm := 1 }),
    ([0x98020002, 0x00804018, 0x02000000], .shfl false .up .s64 { x0 with vd := 2, va := 4, vb := 6, vc := 8 }),
    ([0x98200000, 0x00801FFC, 0x01000000], .vote false .ballot { x0 with vd := 2, va := 1, vc := 4 }),
    ([0x98200005, 0x00801FFC, 0xFFC00000], .vote true .all { x0 with vd := 2, va := 1 }),
    ([0x9840000B, 0x00402FFC, 0xFFC00000], .tred true .xor .b32 { x0 with vd := 1, va := 2 }),
    ([0x98640014, 0x00402FFC, 0x01000000], .tscan false .max true .f32 { x0 with vd := 1, va := 2, vc := 4 }),
    ([0xE8000000, 0xFFFFFFFC, 0xFFCA0000, 0xFFFFFFC0, 0xFFFFFFFF], .braExt { x0 with mask := 2, inv := true, lit := some 0xFFFFFFFFFFFFFFC0 }),
    ([0xA8200000, 0xFFC28FFC, 0xFFC00000], .jmp { x0 with va := 40 }),
    ([0xE8400000, 0xFFFFFFFC, 0xFFC00000, 0x00001000, 0x00000000], .callExt { x0 with lit := some 0x1000 }),
    ([0xA8600000, 0xFFC02FFC, 0xFFC00000], .calli { x0 with va := 2 }),
    ([0xA8800000, 0xFFFFFFFC, 0xFFC00000], .ret (x0)),
    ([0xE8A00000, 0xFFFFFFFC, 0xFFC00000, 0x00000060, 0x00000000], .meet { x0 with lit := some 0x60 }),
    ([0xA8C00000, 0xFFFFFFFC, 0xFFC40000], .exit { x0 with mask := 1 }),
    ([0xA8E00000, 0xFFFFFFFC, 0xFFC00003], .bar { x0 with imm := 3 }),
    ([0xA9000002, 0xFFFFFFFC, 0xFFC00000], .tbar .pkg (x0)),
    ([0xA9200000, 0xFFFFFFFC, 0xFFC00FFF], .ypt { x0 with imm := 4095 }),
    ([0xA9400000, 0xFFFFFFFC, 0xFFC00000], .nopExt (x0)),
    ([0xA9600000, 0xFFC02FFC, 0xFFC00000], .sleepc { x0 with va := 2 }),
    ([0xA9801493, 0xFFFFFFFC, 0xFFC00002], .waitExt 5 9 3 { x0 with imm := 2 }),
    ([0xB0000001, 0x00402010, 0x01400006], .raise true { x0 with vd := 1, va := 2, vb := 4, vc := 5, imm := 6 })] = true := by decide

/-- R120: team, control and raising classes. -/
theorem test_decode_control_1 : reads [
    ([0xB0200000, 0xC43FFFFC, 0xFFC00000], .itnext { x0 with vd := 784 }),
    ([0xB0400000, 0xFFFFFFFC, 0xFFC00000], .itend (x0)),
    ([0xB0600000, 0xFFF13FFC, 0xFFC00000], .hred { x0 with va := 787 }),
    ([0xB0800001, 0x053FFFFC, 0x07800000], .joinh true { x0 with vd := 20, vc := 30 })] = true := by decide

/-- R121: matrix and system classes. -/
theorem test_decode_system : reads [
    ([0xB4000001, 0xFFC02010, 0x01400000], .mdesc 1 { x0 with va := 2, vb := 4, vc := 5 }),
    ([0xB4200009, 0xFFFFFFFC, 0xFFC00000], .mldb 9 (x0)),
    ([0xB4400752, 0xFFC01008, 0x00C00000], .mrow 2 5 true true true { x0 with va := 1, vb := 2, vc := 3 }),
    ([0xB460000F, 0xFFC01FFC, 0xFFC00000], .mzero 15 { x0 with va := 1 }),
    ([0xB4800000, 0x007FFFFC, 0xFFC00000], .msync { x0 with vd := 1 }),
    ([0xB4A00000, 0x00BFFFFC, 0xFFC00000], .mstat { x0 with vd := 2 }),
    ([0xB8000021, 0x00BFFFFC, 0xFFC00000], .sreg 0x21 { x0 with vd := 2 }),
    ([0xB8200025, 0xFFC01FFC, 0xFFC00000], .sset 0x25 { x0 with va := 1 }),
    ([0xB8400000, 0xFFFFFFFC, 0xFFC01FF9], .trap { x0 with imm := 8185 }),
    ([0xB8600000, 0xFFFFFFFC, 0xFFC00000], .rte (x0)),
    ([0xB8600001, 0xFFFFFFFC, 0xFFC00000], .rteSkip (x0)),
    ([0xB8600002, 0xFFC28FFC, 0xFFC00000], .rteSub { x0 with va := 40 }),
    ([0xB8800009, 0x00804018, 0xFFC00000], .sysc 9 { x0 with vd := 2, va := 4, vb := 6 }),
    ([0xB8A00003, 0x02414FFC, 0xFFC00000], .launch 3 { x0 with vd := 9, va := 20 }),
    ([0xB8C00000, 0xFFFFFFFC, 0xFFC00000], .plumb (x0)),
    ([0xB8E00000, 0xFFFFFFFC, 0xFFC00001], .brk { x0 with imm := 1 })] = true := by decide

/-- R122, R397: the enclave words of the sill cores. -/
theorem test_decode_enclave : ([
    (0x0005850B, .encCreate 10 11),
    (0x02C5850B, .encAddpg 10 11 12),
    (0x05F0800B, .encEnter 0 1 31),
    (0x0600000B, .encExit),
    (0x0831008B, .encSeal 1 2 3),
    (0x0BEF8E8B, .encUnseal 29 31 30),
    (0x0C03840B, .encDestroy 8 7)] : List (Word × Instr)).all (fun c => decide (decodeEnc c.1 = some c.2)) = true := by decide
/-! ### Integer and logic instructions: hypotheses met, and results by hand from the rules or from the spec's tables -/

/-- The hypotheses of `Writes` for the claim of an instruction. -/
def meets (i : Instr) (s : State) (k : Claim) : Bool :=
  ready i s && (feedOf ((i.dest.map Prod.snd).getD (1023 : Reg))).isNone &&
    match readSrcs (th s) k.a k.b k.c with
    | some (_, _, _, g, _) => trapFlags (th s) g == 0
    | none => false
def works (i : Instr) (l : List (Nat × Nat)) (r : Nat) : Bool := (intClaim i).any (meets i (mt (rs l))) && gives i l r

def ab : Ext := { x0 with vd := 1, va := 2, vb := 3 }
def abP : Ext := { x0 with vd := 4, va := 6, vb := 8 }
def b3 (t : B3Ty) : B3 := { pfx := none, t := t, d := 1, a := 2, b := 3 }
def bi (imm : BitVec 9) : BI := { pfx := none, d := 1, a := 2, imm := imm }

/-- R418, R419 and the worked results of R419. -/
theorem test_integer_arithmetic : every [
    works (.iaddExt true .b32 ab) [(2, 0x7FFFFFF0), (3, 0x20)] 0x7FFFFFFF,
    works (.iaddExt false .b32 ab) [(2, 0x7FFFFFF0), (3, 0x20)] 0x80000010,
    works (.isubExt true .z32 ab) [(2, 5), (3, 9)] 0,
    works (.imulhi .b32 ab) [(2, 0xFFFFFFFE), (3, 3)] 0xFFFFFFFF,
    works (.imulhi .z32 ab) [(2, 0xFFFFFFFE), (3, 3)] 2,
    works (.iaddB3 (b3 .w32)) [(2, 0xFFFFFFFF), (3, 2)] 1,
    works (.isubB3 (b3 .w32)) [(2, 1), (3, 2)] 0xFFFFFFFF,
    works (.imulB3 (b3 .w32)) [(2, 0x10001), (3, 0x10001)] 0x20001,
    works (.iminB3 (b3 .w32)) [(2, 0xFFFFFFFF), (3, 2)] 0xFFFFFFFF,
    works (.imaxB3 (b3 .z32bf)) [(2, 0xFFFFFFFF), (3, 2)] 0xFFFFFFFF,
    works (.iaddBI (bi 0x1FB)) [(2, 3)] 0xFFFFFFFE,
    works (.imulExt .s64 abP) [(6, 0xFFFFFFFF), (7, 0xFFFFFFFF), (8, 5)] 0xFFFFFFFFFFFFFFFB,
    works (.imad true .z32 { ab with vc := 5 }) [(2, 0x10000), (3, 0x10000), (5, 1)] 0xFFFFFFFF,
    works (.iminExt .z32 { ab with vb := 1023, imm := 0x1FFF }) [(2, 7)] 7,
    works (.imaxExt .b32 { ab with vb := 1023, imm := 0x1FFF }) [(2, 7)] 7] = true := by decide

/-- R364, R452, R454, R473. -/
theorem test_logic_and_shifts : every [
    works (.andB3 (b3 .w32)) [(2, 0xF0F0), (3, 0xFF00)] 0xF000, works (.andBI (bi 0xFF)) [(2, 0x1234)] 0x34,
    works (.andExt .b32 { ab with vb := 1023, imm := 0x1FFE }) [(2, 0xFFFFFFFF)] 0xFFFFFFFE,
    works (.andn .b32 ab) [(2, 0xFF), (3, 0x0F)] 0xF0,
    works (.orB3 (b3 .w32)) [(2, 0xF0), (3, 0x0F)] 0xFF, works (.orBI (bi 0x100)) [(2, 1)] 0xFFFFFF01,
    works (.orExt .z32 ab) [(2, 1), (3, 2)] 3, works (.xorB3 (b3 .w32)) [(2, 0xFF), (3, 0x0F)] 0xF0,
    works (.xorBI (bi 0x1FF)) [(2, 0)] 0xFFFFFFFF, works (.xorExt .s64 abP) [(6, 1), (7, 2), (8, 3)] 0x200000002,
    works (.not .b32 { x0 with vd := 1, va := 2 }) [(2, 0)] 0xFFFFFFFF,
    works (.shlB3 (b3 .w32)) [(2, 1), (3, 33)] 2, works (.shlBI (bi 31)) [(2, 3)] 0x80000000, works (.shlExt .b32 ab) [(2, 1), (3, 4)] 16,
    works (.shrB3 (b3 .w32)) [(2, 0x80000000), (3, 31)] 1, works (.shrBI (bi 4)) [(2, 0xF0000000)] 0x0F000000,
    works (.shrExt .z64 abP) [(6, 0), (7, 1), (8, 32)] 1,
    works (.sarB3 (b3 .w32)) [(2, 0x80000000), (3, 31)] 0xFFFFFFFF, works (.sarBI (bi 4)) [(2, 0xF0000000)] 0xFF000000,
    works (.sarExt .b32 ab) [(2, 0x40000000), (3, 30)] 1] = true := by decide

/-- R374, R378, R440, R449, R450, R462, R474: fields at both ends of the word, counts of zero and of the top bit. -/
theorem test_fields_counts_and_moves : every [
    works (.bfx 28 4 .b32 { x0 with vd := 1, va := 2 }) [(2, 0x90000000)] 0xFFFFFFF9,
    works (.bfx 28 4 .z32 { x0 with vd := 1, va := 2 }) [(2, 0x90000000)] 9,
    works (.bfi 0 32 .z32 ab) [(2, 5), (3, 0x12345678)] 0x12345678, works (.bfi 8 4 .z32 ab) [(2, 0xFFFFFFFF), (3, 0)] 0xFFFFF0FF,
    works (.brev .b32 { x0 with vd := 1, va := 2 }) [(2, 1)] 0x80000000, works (.clz .b32 { x0 with vd := 1, va := 2 }) [] 32,
    works (.clz .z64 { x0 with vd := 1, va := 2 }) [(3, 1)] 31, works (.popc .b32 { x0 with vd := 1, va := 2 }) [(2, 0xF000000F)] 8,
    works (.movB3 { pfx := none, t := .w64, d := 4, a := 6, b := 0 }) [(6, 7), (7, 8)] 0x800000007,
    works (.movExt .bf16 { x0 with vd := 1, va := 2 }) [(2, 0x12345678)] 0x5678,
    works (.moviB { pfx := none, d := 1, imm := 0x8000 }) [] 0xFFFF8000, works (.moviExt .s64 { x0 with vd := 4, imm := 0x1FFF }) [] 0xFFFFFFFFFFFFFFFF,
    works (.sel false 0 .b32 ab) [(2, 5), (3, 6)] 5, works (.sel true 0 .b32 ab) [(2, 5), (3, 6)] 6,
    works (.lea 2 .b32 { x0 with vd := 4, va := 6, vb := 8 }) [(6, 16), (8, 0xFFFFFFFF)] 12,
    works (.lea 0 .z32 { x0 with vd := 4, va := 6, lit := some 0x100000000 }) [(6, 1)] 0x100000001] = true := by decide

/-- Destinations a push, at vz and a popped source: `FeedQueuesAndStalls` at an unbound, a free and a full quarter, and a queue
whose entry has not arrived. -/
theorem test_feed_queues_and_stalls :
    let push : Instr := .movExt .b32 { x0 with vd := 772, va := 2 }
    let pop : Instr := .movExt .b32 { x0 with vd := 1, va := 769 }
    let bound (q : Quarter) : State := { mt (rs [(2, 9)]) with quarters := [(0, { q with bound := some 1 })] }
    let full : Thread := { th m0 with tl := 15 }
    let owed : State := mt fun v => { v with queues := [(1, [{ value := 7, flags := 0, arrived := false }])] }
    let come : State := mt fun v => { v with queues := [(1, [{ value := 7, flags := 0, arrived := true }])] }
    every [ready push m0, decide (feedOf 772 = some 0), decide (pushCheck m0 (th m0) 0 = .unbound),
      decide (pushCheck (bound Quarter.reset) (th m0) 0 = .free), decide (pushCheck (bound Quarter.reset) full 0 = .full),
      after push (bound Quarter.reset) fun t u => (quarterOf t 0).pushes.map (fun p => (p.thread, p.word)) == [(0, 9)] && u.tl == 1,
      ready pop owed, ready pop come, (match exec pop owed with | .next t => decide (t = owed) | _ => false),
      after pop come fun _ u => regNum u 1 1 == 7, works (.movExt .b32 { x0 with va := 2 }) [(2, 9)] 0] = true := by decide

/-- R13: an instruction that is not predicated, under zeroing and under merge, with a mask destination too. -/
theorem test_not_predicated :
    let s : State := mt fun v => rs [(1, 5), (2, 6), (3, 7)] { v with masks := 9 }
    let z : Instr := .iaddExt false .b32 { ab with inv := true, z := true }
    let m : Instr := .iaddExt false .b32 { ab with mask := 1 }
    let k : Instr := .icmp .eq true 3 .b32 { x0 with va := 2, vb := 2, mask := 2, z := true }
    every [predicable z, z.wellFormed, !predicated z (th s), decide (contextCheck z (th s) = none), !predicated m (th s), !predicated k (th s),
      after z s fun _ u => regNum u 1 1 == 0 && u.pc == 0x5000C, after m s fun _ u => regNum u 1 1 == 5,
      after k s fun _ u => !maskBit u 3 && maskBit u 0] = true := by decide

/-- R421, R447, R448. -/
theorem test_masks_and_compares :
    let ma : Ext := { x0 with va := 2, vb := 3 }
    let s (l : List (Nat × Nat)) : State := mt fun v => rs l { v with masks := 0x5 }
    let sets (i : Instr) (l : List (Nat × Nat)) (m : Nat) (b : Bool) : Bool := ready i (s l) && after i (s l) fun _ u => maskBit u m == b
    every [sets (.icmp .lt true 15 .b32 ma) [(2, 0xFFFFFFFF), (3, 0)] 15 true, sets (.icmp .lt true 1 .z32 ma) [(2, 0xFFFFFFFF), (3, 0)] 1 false,
      sets (.icmp .ge true 1 .s64 { x0 with va := 2, vb := 4 }) [(3, 1), (4, 1)] 1 true,
      sets (.icmp .ne true 1 .b32 ma) [(2, 1), (3, 1)] 1 false, sets (.icmp .le true 1 .b32 ma) [(2, 1), (3, 1)] 1 true,
      sets (.icmp .gt true 1 .b32 ma) [(2, 2), (3, 1)] 1 true, sets (.icmp .eq true 1 .b32 ma) [(2, 1), (3, 1)] 1 true,
      sets (.mlog .and 1 2 0 x0) [] 1 true, sets (.mlog .or 1 3 2 x0) [] 1 true, sets (.mlog .xor 1 0 2 x0) [] 1 false,
      sets (.mlog .andn 1 2 3 x0) [] 1 true, sets (.mlog .not 1 3 0 x0) [] 1 true, sets (.mlog .copy 1 2 0 x0) [] 1 true,
      sets (.mmov true 15 { x0 with va := 2 }) [(2, 3)] 15 true, gives (.icmp .lt false 0 .b32 ab) [(2, 1), (3, 2)] 0xFFFFFFFF,
      gives (.mmov false 0 { x0 with vd := 1 }) [] 1, gives (.mmov false 15 { x0 with vd := 1 }) [(1, 9)] 0] = true := by decide

/-! ### Floating point -/

/-- The hypotheses of `FloatingPointResultsAndFlags` (none enabled) or of the trap that follows it (some enabled), with the result
and flags of the rules. -/
def fmeets (i : Instr) (s : State) (r : Nat) (f : Flags) : Bool :=
  ready i s && (feedOf ((i.dest.map Prod.snd).getD (1023 : Reg))).isNone && (fltClaim i).any fun k =>
    match readSrcs (th s) k.a k.b k.c with
    | some (x, y, z, g, _) => match k.val s (th s) x y z with
      | .ok p => p.1 == r && (g ||| p.2) == f
      | _ => false
    | none => false
def fworks (i : Instr) (l : List (Nat × Nat)) (r : Nat) (f : Flags) : Bool :=
  fmeets i (mt (rs l)) r f && trapFlags (th (mt (rs l))) f == 0 && gives i l r && after i (mt (rs l)) fun _ u => u.fpsr == f

/-- R138, R404, R405: bits 0 to 4 of the flags are NX, UF, OF, DZ, NV (R98). -/
theorem test_float_arithmetic : every [
    fworks (.faddB3 (b3 .w32)) [(2, 0x3F800000), (3, 0x33800000)] 0x3F800000 1,
    fworks (.faddB3 (b3 .z32bf)) [(2, 0x3F80), (3, 0x4000)] 0x4040 0,
    fworks (.fsubB3 (b3 .w32)) [(2, 0x3F800000), (3, 0x3F800000)] 0 0,
    fworks (.fmulB3 (b3 .w32)) [(2, 0x7F7FFFFF), (3, 0x40000000)] 0x7F800000 5,
    fworks (.ffmaB3 (b3 .w32)) [(1, 0xBF800000), (2, 0x3F800001), (3, 0x3F800001)] 0x34800000 1,
    fworks (.fminB3 (b3 .w32)) [(2, 0x80000000), (3, 0)] 0x80000000 0,
    fworks (.fmaxB3 (b3 .w32)) [(2, 0x7FC00000), (3, 0x3F800000)] 0x3F800000 0,
    fworks (.faddExt .f32 { ab with rnd := .rup }) [(2, 0x3F800000), (3, 0x33800000)] 0x3F800001 1,
    fworks (.fsubExt .f32 { ab with rnd := .rdn }) [(2, 0x3F800000), (3, 0x3F800000)] 0x80000000 0,
    fworks (.fmulExt .f32 { ab with vb := 1023, lit := some 0x3F000000 }) [(2, 0x40400000)] 0x3FC00000 0,
    fworks (.ffmaExt .f32 { ab with vb := 1023, vc := 4, lit := some 0x3F000000 }) [(2, 0x40000000), (4, 0x3F800000)] 0x40000000 0,
    fworks (.fminExt .bf16 ab) [(2, 0x4000), (3, 0x3F80)] 0x3F80 0, fworks (.fmaxExt .f32 ab) [(2, 0x7F800001), (3, 0)] 0x7FC00000 16,
    fworks (.faddExt .f32 ab) [(2, 0x7F800000), (3, 0xFF800000)] 0x7FC00000 16] = true := by decide

/-- R395, R405, R412, R413, R456, R457 and the worked PACK and UNPK. -/
theorem test_conversions : every [
    fworks (.pack .e4m3 1 false .f32 { x0 with vd := 5, va := 6, vb := 7 }) [(5, 0x11), (6, 0x40533333), (7, 0x3F800000)] 0x4511 1,
    fworks (.unpk .e2m1 3 .f32 { x0 with vd := 8, va := 9, vb := 10 }) [(9, 0xA000), (10, 0x3E800000)] 0xBE800000 0,
    fworks (.unpk .e2m1 3 .f32 { x0 with vd := 8, va := 9, vb := 10 }) [(9, 0xA000), (10, 0x7FC00000)] 0x7FC00000 16,
    fworks (.frnd .f32 { x0 with vd := 1, va := 2 }) [(2, 0x40200000)] 0x40000000 0,
    fworks (.frnd .f32 { x0 with vd := 1, va := 2, rnd := .rup }) [(2, 0x40200000)] 0x40400000 0,
    fworks (.frnd .f32 { x0 with vd := 1, va := 2 }) [(2, 0xBE99999A)] 0x80000000 0,
    fworks (.cvt .f32 false .e4m3 { x0 with vd := 5, va := 6 }) [(6, 0x40533333)] 0x45 1,
    fworks (.cvt .f32 false .e4m3 { x0 with vd := 5, va := 6, rnd := .rup }) [(6, 0x40533333)] 0x46 1,
    fworks (.fldx .f32 { x0 with vd := 1, va := 2, imm := 0x1FFF }) [(2, 0x3F800000)] 0x3F000000 0,
    fworks (.cvt .f32 false .e4m3 { x0 with vd := 1, va := 2 }) [(2, 0x43E60000)] 0x7E 1,
    fworks (.cvt .f32 false .b32 { x0 with vd := 1, va := 2, rnd := .rtz }) [(2, 0xBFC00000)] 0xFFFFFFFF 1,
    fworks (.cvt .b32 false .f32 { x0 with vd := 1, va := 2 }) [(2, 0xFFFFFFFF)] 0xBF800000 0] = true := by decide

/-- R139, R140: the worked SR rounding at the two hashes beside its bound, and RNE. -/
theorem test_stochastic_rounding :
    let v := (FVal.add false (dec .f32 0x3F800000) (FVal.add false (dec .f32 0x33800000) (dec .f32 0x33000000)).1).1
    every [(Fmt.f32.round .sr 0x3FFFFFFF false v) == (0x3F800000, 1), (Fmt.f32.round .sr 0x40000000 false v) == (0x3F800001, 1),
      (Fmt.f32.round .dflt 0 false v) == (0x3F800001, 1)] = true := by decide

/-- R407, R409, R414: hypotheses and results. -/
theorem test_sign_class_and_compare :
    let va : Ext := { x0 with vd := 1, va := 2 }
    let vm : Ext := { x0 with va := 2, vb := 3 }
    let cmp (i : Instr) (l : List (Nat × Nat)) (b : Bool) (f : Flags) : Bool :=
      ready i (mt (rs l)) && after i (mt (rs l)) fun _ u => maskBit u 3 == b && u.fpsr == f
    every [gives (.fsgn .neg .f32 { x0 with vd := 4, va := 4, vb := 4 }) [(4, 0x3F800000)] 0xBF800000,
      gives (.fsgn .abs .bf16 va) [(2, 0xFFFF8001)] 1, gives (.fsgn .copy .f32 ab) [(2, 0x7FC00001), (3, 0x80000000)] 0xFFC00001,
      gives (.fsgn .xor .f32 ab) [(2, 0x80000000), (3, 0x80000000)] 0,
      gives (.fclass .f32 va) [(2, 0xFF800000)] 1, gives (.fclass .f32 va) [(2, 0x80000000)] 8, gives (.fclass .f32 va) [(2, 0x7F800001)] 256,
      gives (.fclass .bf16 va) [(2, 0x7FC0)] 512, gives (.fclass .bf16 va) [(2, 1)] 32, gives (.fclass .f32 va) [(2, 0x00800000)] 64,
      gives (.fclass .f32 va) [(2, 0x7F800000)] 128, gives (.fclass .f32 va) [] 16, gives (.fclass .f32 va) [(2, 0x80000001)] 4,
      gives (.fclass .f32 va) [(2, 0xBF800000)] 2,
      cmp (.fcmp .lt true 3 .f32 vm) [(2, 0xBF800000), (3, 0)] true 0, cmp (.fcmp .lt true 3 .f32 vm) [(2, 0x7FC00000)] false 16,
      cmp (.fcmp .eq true 3 .f32 vm) [(2, 0x7FC00000)] false 0, cmp (.fcmp .ne true 3 .f32 vm) [(2, 0x7FC00000)] true 0,
      cmp (.fcmp .un true 3 .f32 vm) [(2, 0x7F800001)] true 16, cmp (.fcmp .ord true 3 .f32 vm) [(3, 1)] true 0,
      cmp (.fcmp .eq true 3 .f32 vm) [(2, 0x80000000)] true 0, gives (.fcmp .ge false 0 .f32 ab) [(2, 0x3F800000)] 0xFFFFFFFF] = true := by
  decide

/-- R137, R138: representable values of every format at the largest code (`RoundingKeepsRepresentableValues`). -/
theorem test_representable : ([Fmt.f32, Fmt.bf16, Fmt.e4m3, Fmt.e5m2, Fmt.e3m2, Fmt.e2m3, Fmt.e2m1].all fun f =>
    f.maxCode < 2 ^ (f.ebits + f.mbits) && f.round .sr 7 true (f.decode f.maxCode) == (f.maxCode, 0)) = true := by decide

/-- R281: NX enabled: the sum is written, the flag set, and the thread in its handler with code 0x24. -/
theorem test_enabled_flag_traps :
    let i : Instr := .faddExt .f32 ab
    let s : State := mt fun v => rs [(2, 0x3F800000), (3, 0x33800000)] { v with fpen := 1 }
    every [fmeets i s 0x3F800000 1, trapFlags (th s) 1 == 1, !(th s).handMode, !(th s).trapActive, (headerOf s (th s)).any fun h => h.handler != 0,
      after i s fun _ u => u.tcause == 0x24 && u.pc == BitVec.ofNat 64 codeVa && u.tpc == BitVec.ofNat 64 codeVa && u.fpsr == 1 &&
        u.tinfo == 1 && regNum u 1 1 == 0x3F800000] = true := by decide

/-! ### Branches, traps, meeting, barriers -/

def reaches (i : Instr) (s : State) (pc : Nat) : Bool := ready i s && after i s fun _ u => u.pc == BitVec.ofNat 64 pc
def trapsWith (i : Instr) (s : State) (code info : Nat) : Bool :=
  ready i s && after i s fun _ u => u.trapActive && u.tcause.toNat == code && u.tinfo.toNat == info
/-- The premises of `MayTrap`. -/
def mayTrap (s : State) : Bool :=
  !(th s).control && !(th s).handMode && !(th s).trapActive && (headerOf s (th s)).any fun h => h.handler != 0
/-- The machine without a handler, and with a given status of a second thread of the team. -/
def noHandler : State :=
  { m0 with launches := m0.launches.map fun (k, l) => (k, { l with hdr := { l.hdr with handler := 0 } }) }
def two (f g : Thread → Thread) : State := { m0 with threads := [(0, f (th m0)), (1, g { th m0 with fields := [1, 0, 0, 0, 0, 0], lane := 1 })] }

/-- R104, R376, R382, R429. -/
theorem test_branches_and_calls :
    let j : Instr := .jmp { x0 with va := 2 }
    every [reaches (.braBB 0 false 0x3FFFC) m0 0x4FFC0, decide (targetOf (th m0) (.braBB 0 false 0x3FFFC) = some 0x4FFC0),
      reaches (.braExt { x0 with lit := some 0x40 }) m0 0x50040, reaches j (mt (rs [(2, 0x51230)])) 0x51230,
      trapsWith j (mt (rs [(2, 0x51238)])) 0x03 0x51238, trapsWith (.braExt { x0 with lit := some 8 }) m0 0x03 0x50008,
      reaches (.callBB 0 0x20) m0 0x50200, ready (.callBB 0 0x20) m0 && after (.callBB 0 0x20) m0 fun _ u => u.stack == [0x50004],
      reaches (.calli { x0 with va := 2 }) (mt fun v => rs [(2, 0x60000)] { v with stack := List.replicate 15 0 }) 0x60000,
      reaches (.callExt { x0 with lit := some 0x1000 }) m0 0x51000,
      after (.callExt { x0 with lit := some 0x1000 }) m0 fun _ u => u.stack == [0x50014],
      !predicated (.braBB 1 false 0x20) (th m0), after (.braBB 1 false 0x20) m0 fun _ u => u.pc == 0x50004] = true := by decide

/-- R284, R285, R472: each clause, depths 1, 0 and 16. -/
theorem test_return_stack :
    let ret : Instr := .ret x0
    let s (st : List DWord) (n : Word) : State := mt fun v => { v with stack := st, spill := n }
    let full : List DWord := List.replicate 15 0x60000 ++ [0x70000]
    every [reaches ret (s [0x51000, 0x52000] 0) 0x51000, after ret (s [0x51000, 0x52000] 0) fun _ u => u.stack == [0x52000],
      trapsWith ret (s [0x51004] 0) 0x03 0x51004, after ret (s [0x51004] 0) fun _ u => u.stack == [0x51004], trapsWith ret (s [] 0) 0x04 0,
      mayTrap (s [] 1), trapsWith ret (s [] 1) 0x06 0, after ret (s [] 1) fun _ u => u.spill == 0 && u.stack == [],
      mayTrap (s full 2), trapsWith (.callBB 0 0x20) (s full 2) 0x05 0x70000,
      after (.callBB 0 0x20) (s full 2) fun _ u => u.spill == 3 && u.stack.length == 15 && u.tdst == 3] = true := by decide

/-- R276, R277, R280, R287, R293, R487: a handler, none, and a trap within one. -/
theorem test_traps :
    let trap : Instr := .trap { x0 with imm := 0x1FFF }
    let inside : State := mt fun v => { v with trapActive := true }
    let halts (s : State) : Bool := ready trap s && match exec trap s with
      | .next t => (bentOf t 1).isNone && t.threads.isEmpty
      | _ => false
    every [mayTrap m0, trapsWith trap m0 0x3F 0xFFFFFFFFFFFFFFFF, after trap m0 fun _ u => u.tlen == 12 && u.tdst == 0x403FF && u.trapBank,
      (headerOf noHandler (th m0)).any (fun h => h.handler == 0), halts noHandler, (headerOf inside (th inside)).isSome, halts inside,
      (bentOf m0 (th m0).bent).isSome, (launchOfBent m0 (th m0).bent).isSome] = true := by decide

/-- R123, R276, R280: a matrix instruction in a vector thread, an h register outside hand mode, and a register at n. -/
theorem test_context_checks :
    let bad (i : Instr) (s : State) (code info : Nat) : Bool :=
      i.wellFormed && predicable i && (contextCheck i (th s)).isSome && mayTrap s &&
        after i s fun _ u => u.tcause == BitVec.ofNat 32 code && u.tinfo == BitVec.ofNat 64 info
    let small : State := mt fun v => { v with n := 8 }
    every [bad (.msync { x0 with vd := 1 }) m0 0x01 0xB4800000, bad (.movExt .b32 { x0 with vd := 1, va := 784 }) m0 0x01 0x82C00000,
      bad (.movExt .b32 { x0 with vd := 8, va := 7 }) small 0x02 8, bad (.movExt .z64 { x0 with vd := 6, va := 8 }) small 0x02 8,
      gives (.movExt .b32 { x0 with vd := 767, va := 767 }) [(767, 9)] 9,
      decide (contextCheck (.movExt .b32 { x0 with vd := 7, va := 7 }) (th small) = none)] = true := by decide

/-- R282, R285: each clause of the three returns. -/
theorem test_returns_from_traps :
    let s (f : Thread → Thread) : State := mt fun v => f { v with trapActive := true, trapBank := true, tpc := 0x51230, tlen := 12 }
    let sub : Instr := .rteSub { x0 with va := 4 }
    every [reaches (.rte x0) (s id) 0x51230, after (.rte x0) (s id) fun _ u => !u.trapActive && !u.trapBank, reaches (.rteSkip x0) (s id) 0x5123C,
      trapsWith (.rte x0) m0 0x01 0xB8600000, trapsWith (.rteSkip x0) m0 0x01 0xB8600001,
      decide (subCheck sub (th (s fun v => rs [(4, 0x60000)] { v with tcause := 6 })) 4 = none),
      reaches sub (s fun v => rs [(4, 0x60000)] { v with tcause := 6 }) 0x60000,
      decide (subCheck sub (th (s fun v => { v with tdst := 0x403FF })) 4 = none), reaches sub (s fun v => { v with tdst := 0x403FF }) 0x5123C,
      decide (subCheck sub (th (s fun v => { v with tdst := 0x302FC })) 4 = none),
      reaches sub (s fun v => rs [(4, 5), (5, 6), (6, 7), (7, 8)] { v with tdst := 0x302FC }) 0x5123C,
      after sub (s fun v => rs [(4, 5), (5, 6), (6, 7), (7, 8)] { v with tdst := 0x302FC }) fun _ u =>
        regNum u 764 1 == 5 && regNum u 767 1 == 8] = true := by decide

/-- R48, R443: a MEET with a member still to come and with none, a misaligned one, and the hold. -/
theorem test_meeting :
    let meet (a : DWord) : Instr := .meet { x0 with lit := some a }
    let at60 (v : Thread) : Thread := { v with meet := some 0x50060 }
    let held (v : Thread) : Thread := { at60 v with pc := 0x50060, status := .held }
    let here (v : Thread) : Thread := { v with pc := 0x50060, meet := some 0x50060 }
    let hold (s : State) (p : State → Bool) : Bool := match exec (.meetHold 0) s with
      | .next t => p t
      | _ => false
    every [reaches (meet 0x60) m0 0x50014, after (meet 0x60) m0 fun _ u => u.meet == some 0x50060, trapsWith (meet 0x64) m0 0x03 0x50064,
      sameTeam (th m0) (th m0), hold (two here at60) fun t => (threadOf t 0).any fun u => u.status == .held,
      hold (two here held) fun t => (threadOf t 0).any (fun u => u.status == .running && u.meet == none) && (threadOf t 1).any fun u => u.status == .running,
      hold (two here id) fun t => (threadOf t 0).any fun u => u.status == .running] = true := by decide

/-- R84, R371, R486, R493. -/
theorem test_barriers :
    let bar : Instr := .bar { x0 with imm := 3 }
    let ypt : Instr := .ypt { x0 with imm := 5 }
    let asked (s : State) : State := { s with bents := s.bents.map fun (k, b) => (k, { b with request := some 0 }) }
    let status (i : Instr) (s : State) (st : Status) : Bool := ready i s && after i s fun _ u => u.status == st
    every [!requested m0 (th m0), status bar (two id id) (.bar 3), reaches bar m0 0x5000C,
      status bar (two id fun v => { v with status := .bar 9, pc := 0x50100 }) .running, requested (asked m0) (th m0),
      status bar (asked m0) (.stopped (some 3)), status ypt (asked m0) (.stopped (some 5)), reaches ypt m0 0x5000C,
      (headerOf m0 (th m0)).any (·.coop), status (.tbar .pkg x0) (two id id) (.tbar .pkg), reaches (.tbar .bent x0) m0 0x5000C,
      reaches (.tbar .die x0) m0 0x5000C, decide ((Tab.keys m0.threads).Pairwise (· < ·))] = true := by decide

/-- R209-R211, R451, R479, R490: at the counter and one below it, at the count and one above. -/
theorem test_nop_sleep_and_wait :
    let s (r : Nat) : State := { mt (rs [(2, r)]) with time := 1000 }
    let c := arithCycles (s 0) 0
    let out (k : Nat) : State := mt fun v => { v with loads := List.replicate k { writes := [] }, stores := k }
    let stalls (i : Instr) (s : State) : Bool := ready i s && match exec i s with
      | .next t => decide (t = s)
      | _ => false
    let asleep : State := { mt fun v => { v with status := .sleep c } with time := 1000 }
    every [reaches .nopB m0 0x50004, reaches (.nopExt x0) m0 0x5000C, reaches (.sleepc { x0 with va := 2 }) (s c) 0x5000C,
      ready (.sleepc { x0 with va := 2 }) (s (c + 1)), after (.sleepc { x0 with va := 2 }) (s (c + 1)) fun _ u => u.status == .sleep (c + 1),
      after (.sleepcWake 0) asleep fun _ u => u.status == .running && u.pc == 0x5000C,
      reaches (.waitB 2 2 15 15) (out 2) 0x50004, stalls (.waitB 1 63 15 15) (out 2), stalls (.waitB 63 1 15 15) (out 2),
      reaches (.waitExt 2 2 15 { x0 with imm := 15 }) (out 2) 0x5000C, stalls (.waitExt 1 63 15 { x0 with imm := 15 }) (out 2)] = true := by decide

/-! ### Memory -/

def stalls (i : Instr) (s : State) : Bool := ready i s && match exec i s with
  | .next t => decide (t = s)
  | _ => false
/-- Bytes at 0x50800 of the code page, which is mapped to itself for reading and writing. -/
def withBytes (s : State) (bs : List Nat) : State := { s with mem := Memory.writeBytes s.mem 0x50800 (bs.map (BitVec.ofNat 8)) }
def base (v : Thread) : Thread := rs [(2, 0x50800), (4, 0x11223344), (5, 0x55667788), (6, 0x99AABBCC), (7, 0xDDEEFF00)] v
/-- A machine whose caches hold the translation of the code page, and some lines at their slices: no access to them makes room. -/
def warm (lines : List Nat) (s : State) : State :=
  { s with
    tlb := [{ core := 0, enclave := 1, page := 5, big := false, pot := potOf s 0x50000, entry := 5 * 64 + 15 }]
    l2 := lines.map fun n => { slice := homeSlice (n * 128), line := n, key := keyOf s n, way := 0, filler := 0, enc := .whole, dirty := false } }
/-- The words a load has on their way. -/
def brings (i : Instr) (s : State) (ws : List Nat) : Bool :=
  ready i s && after i s fun _ u => u.loads.map (fun l => l.writes.map fun p => p.2.toNat) == [ws]
def loadOk (i : Instr) (s : State) : Bool := (loadOf i).any fun m =>
  m.ea (th s) % m.ty.size == 0 && match loadGlobal s (th s) (m.ea (th s)) m.ty.size m.o m.sc m.sync with
    | .ok _ => true
    | _ => false
/-- A 128-bit access in the code page, or in a scratchpad, whose first half has been performed. -/
def halfOf (i : Instr) (no : Nat) (at' : HalfAt) (ea : Nat) (bs : List Byte) : Half :=
  { insn := i, no := no, at' := at', page := { va := 0x50000, pa := 0x50000, size := 0x10000, fmt := 0 }, ea := ea, rank := 0, data := bs,
    issue := (0, 0), seq := 0, made := false }
def inHalf (h : Half) (v : Thread) : Thread := { v with hctx := { HandCtx.none with half := some h } }
/-- One hand-mode thread with an iteration open and k entries buffered. -/
def inHand (k : Nat) : State := mt fun v => base { v with
  handMode := true
  hctx := { HandCtx.none with iter := some 7, buf := List.replicate k { scratch := true, addr := 0, data := [0], sc := .cr, rel := false } }
  raise := some { n := 9, red := some 0, list := 0, entry := 0x50000, pool := [8], committed := [], unfinished := [], faulted := [], hands := [] } }

/-- R190, R226, R435-R439: sign and zero extension, the words of a pair and a quadruple, a misaligned address, an unmapped page. -/
theorem test_global_loads :
    let s : State := withBytes (mt base) [0x80, 0x01, 0x02, 0x83, 4, 5, 6, 7, 8, 9, 10, 11, 12, 13, 14, 15]
    let ld (t : Ty) : Instr := .ldExt .none .cr false t { x0 with vd := 8, va := 2 }
    let half (no : Nat) (l : List Nat) : State := withBytes (mt fun v => inHalf (halfOf (ld .b128) no .load 0x50800 (l.map (BitVec.ofNat 8))) (base v))
      [0x80, 0x01, 0x02, 0x83, 4, 5, 6, 7, 8, 9, 10, 11, 12, 13, 14, 15]
    every [brings (.ldB32 { pfx := none, d := 8, a := 2, imm := 0 }) s [0x83020180], brings (.ldB64 { pfx := none, d := 8, a := 2, imm := 1 }) s [0x0B0A0908, 0x0F0E0D0C],
      brings (ld .s8) s [0xFFFFFF80], brings (ld .z8) s [0x80], brings (ld .s16) s [0x180], brings (ld .bf16) s [0x180],
      brings (ld .b128) (half 0 [0x80, 1, 2, 0x83, 4, 5, 6, 7]) [0x83020180, 0x07060504, 0x0B0A0908, 0x0F0E0D0C],
      brings (ld .b128) (half 1 [9, 9, 9, 9, 9, 9, 9, 9]) [0x83020180, 0x07060504, 0x09090909, 0x09090909], brings (.ldExt .acq .dv true .b32 { x0 with vd := 8, va := 2, imm := 1 }) s [0x07060504],
      loadOk (ld .z64) s, [0, 8].all (fun o => match loadTarget s (th s) 0x50800 false .cr with | .ok (p, s1) => (match loadFrom s1 (th s) p 16 0x50800 o 8 .none .cr with | .ok _ => true | _ => false) | _ => false), trapsWith (ld .b32) (mt (rs [(2, 0x50801)])) 0x14 0x50801, trapsWith (ld .b32) (mt (rs [(2, 0x90000)])) 0x10 0x90000,
      decide (poisoned s 0x50800 = false), (match translate s 0 1 .read 0x50800 with | .ok p => !p.device && p.fmt == 0 && p.at 0x50800 == 0x50800 | _ => false),
      s.l1.isEmpty && s.retained.isEmpty] = true := by
  decide +kernel

/-- R230, R482, R483: a store in the core's store leaves memory, one at the home writes its bytes; misaligned and unmapped. -/
theorem test_global_stores :
    let s : State := mt base
    let st (o : Ord) (sc : Scope) (t : Ty) : Instr := .stExt o sc false t { x0 with vd := 4, va := 2, imm := 1 }
    let half (no : Nat) : State := mt fun v =>
      inHalf (halfOf (st .none .dv .b128) no (.global .dv) 0x50810 (toBytes 16 0xDDEEFF0099AABBCC5566778811223344)) (base v)
    let mem (t : State) (n : Nat) : Nat := Memory.num t.mem 0x50800 n
    every [(storeOf (st .none .cr .b32)).any (fun m => m.ea (th s) % m.ty.size == 0),
      ready (.stB32 { pfx := none, d := 4, a := 2, imm := 0 }) s && after (.stB32 { pfx := none, d := 4, a := 2, imm := 0 }) s fun t u => u.stores == 1 && mem t 4 == 0,
      ready (.stB64 { pfx := none, d := 4, a := 2, imm := 0 }) s && after (.stB64 { pfx := none, d := 4, a := 2, imm := 0 }) s fun t u => u.stores == 1 && mem t 8 == 0,
      ready (st .none .dv .b128) (half 0) && after (st .none .dv .b128) (half 0) fun t u => Memory.num t.mem 0x50810 16 == 0xDDEEFF0099AABBCC * 2 ^ 64 && u.hctx.half.isNone,
      ready (st .none .dv .b128) (half 1) && after (st .none .dv .b128) (half 1) fun t _ => Memory.num t.mem 0x50810 16 == 0x5566778811223344,
      (match storeTarget s (th s) 0x50810 false .dv with | .ok _ => true | _ => false),
      ready (st .none .dv .s8) s && after (st .none .dv .s8) s fun t _ => mem t 4 == 0x4400,
      ready (st .rel .sy .b32) s && after (st .rel .sy .b32) s fun t u => mem t 8 == 0x1122334400000000 && u.stores == 1,
      trapsWith (.stB32 { pfx := none, d := 4, a := 6, imm := 0 }) (mt (rs [(6, 0x50802)])) 0x14 0x50802,
      trapsWith (.stB32 { pfx := none, d := 4, a := 6, imm := 0 }) (mt (rs [(6, 0x90000)])) 0x10 0x90000] = true := by
  decide +kernel

/-- R58, R60, R428: the 32nd entry stays, the 33rd abandons; a global store and a scratchpad store. -/
theorem test_hand_stores :
    let g : Instr := .stB32 { pfx := none, d := 4, a := 2, imm := 0 }
    let l : Instr := .stsB32 { pfx := none, d := 4, a := 3, imm := 1 }
    every [ready g (inHand 31), (th (inHand 31)).handMode, (th (inHand 31)).raise.isSome, (storeOf g).any (fun m => m.o == .none),
      (match storeTarget (inHand 31) (th (inHand 31)) 0x50800 false .cr with | .ok _ => true | _ => false),
      after g (inHand 31) fun _ u => u.hctx.buf.length == 32 && u.hctx.iter == some 7,
      after g (inHand 32) fun _ u => u.hctx.buf.isEmpty && u.hctx.iter == none && (u.raise.any fun r => r.unfinished == [7]) && u.pc == 0x50004,
      ready l (inHand 0), decide (scratchCheck (inHand 0) (th (inHand 0)) 4 4 = none),
      after l (inHand 0) fun t u => u.hctx.buf == [{ scratch := true, addr := 4, data := toBytes 4 0x11223344, sc := .cr, rel := false }] && u.stores == 0 && decide (t.mem = m0.mem)] = true := by decide

/-- R186, R187, R437, R482: the last word of SCRATCH, one beyond, a misaligned offset, a rank that exists and one that does not. -/
theorem test_scratchpad :
    let s (a : Nat) : State := mt fun v => base { v with regs := [] } |> fun v => { v with regs := Tab.set v.regs 3 (BitVec.ofNat 32 a) }
    let st : Instr := .stsB32 { pfx := none, d := 4, a := 3, imm := 0 }
    let twice (i j : Instr) (s : State) (ws : List Nat) : Bool := match exec i s with
      | .next t => brings j t ws
      | _ => false
    every [ready st (s 131068), twice st (.ldsB32 { pfx := none, d := 8, a := 3, imm := 0 }) (s 131068) [0x11223344],
      twice (.stsB64 { pfx := none, d := 4, a := 3, imm := 1 }) (.ldsB64 { pfx := none, d := 8, a := 3, imm := 1 }) (s 0) [0x11223344, 0x55667788],
      twice (.stsExt .s8 { x0 with vd := 4, va := 3 }) (.ldsExt .s8 { x0 with vd := 8, va := 3 }) (s 5) [0x44],
      twice (.str .b32 { x0 with vd := 4, va := 3, vb := 1 }) (.ldr .b32 { x0 with vd := 8, va := 3, vb := 1 }) (s 8) [0x11223344],
      ready (.str .b32 { x0 with vd := 4, va := 3, vb := 1 }) (s 8), (blockOf (s 0) 1 0).isSome,
      decide (scratchCheck (s 0) (th (s 0)) 131068 4 = none), (scratchCheck (s 0) (th (s 0)) 131072 4).isSome,
      decide (remoteCheck (s 0) (th (s 0)) 0 0 4 = none), (remoteCheck (s 0) (th (s 0)) 1 0 4).isSome,
      trapsWith st (s 131072) 0x11 131072, trapsWith st (s 6) 0x14 6] = true := by decide

/-- R210, R211, R463. -/
theorem test_prefetch_and_returns :
    let s : State := mt fun v => { base v with loads := [{ writes := [(8, 5)] }, { writes := [(9, 6), (10, 7)] }], stores := 1 }
    every [ready (.pref true { x0 with va := 2 }) s, after (.pref true { x0 with va := 2 }) s fun t u => u.loads.length == 3 && decide (t.mem = s.mem),
      after (.loadDataReturn (.thread 0) 1) s fun _ u => u.loads.length == 1 && regNum u 9 2 == 0x700000006 && regNum u 8 1 == 0,
      after (.storeAccepted (.thread 0)) s fun _ u => u.stores == 0] = true := by decide

/-- R366, R367 on both signs, and R240: the home's bytes. -/
theorem test_atomics :
    let s : State := withBytes (mt base) [0xFF, 0xFF, 0xFF, 0xFF, 1, 0, 0, 0]
    let at4 (op : AtomOp) (sc : Scope) (t : Ty) : Instr := .atom op .none sc false false t { x0 with vd := 8, va := 2, vb := 4, vc := if op = .cas then 6 else 1023 }
    let home (i : Instr) (n x : Nat) : Bool := ready i s && after i s fun t _ => Memory.num t.mem 0x50800 n == x
    every [atomWrite .min .b32 false 0 0xFFFFFFFF 1 0 == some 0xFFFFFFFF, atomWrite .min .z32 false 0 0xFFFFFFFF 1 0 == some 1,
      atomWrite .cas .z64 false 0 5 6 7 == none, atomWrite .cas .z64 false 0 5 5 7 == some 7,
      brings (at4 .add .dv .z32) s [0xFFFFFFFF], home (at4 .add .dv .z32) 4 0x11223343, home (at4 .xchg .sy .s64) 8 0x5566778811223344,
      home (at4 .cas .dv .z32) 4 0xFFFFFFFF, ready (.red .max .none .dv false false .b32 { x0 with va := 2, vb := 4 }) s,
      after (.red .max .none .dv false false .b32 { x0 with va := 2, vb := 4 }) s fun t u => Memory.num t.mem 0x50800 4 == 0x11223344 && u.stores == 1,
      trapsWith (at4 .add .dv .z32) (mt (rs [(2, 0x50802)])) 0x14 0x50802, trapsWith (at4 .add .dv .z32) (mt (rs [(2, 0x90000)])) 0x10 0x90000,
      decide (poisoned s 0x50800 = false)] = true := by decide

/-- R222, R234, R389, R411, R425. -/
theorem test_fences :
    let s : State := mt fun v => rs [(2, 0x50800), (4, 128)] { v with fetched := [(0x50010, 1)] }
    let c (op : CctlOp) (sc : Scope) : Instr := .cctl op sc { x0 with va := 2, vb := 4 }
    every [reaches (.fence .acq .cl x0) s 0x5000C, reaches (.fence .rel .dv x0) s 0x5000C, reaches (.fence .ar .sy x0) s 0x5000C,
      reaches (c .wbinv .dv) s 0x5000C, reaches (c .iinv .dv) s 0x5000C, reaches (c .wb .cr) s 0x5000C, reaches (.ifence x0) s 0x5000C,
      (match (cctlPages .wbinv .dv 0 0 0 1 2 0x50800 128 s).2 with | .ok _ => true | _ => false), after (.ifence x0) s fun _ u => u.fetched.isEmpty] = true := by decide

/-- R66, R249, R491, R492: a condition that holds, one that does not, a misaligned address, and the two wakes. -/
theorem test_waitc :
    let s : State := withBytes (mt base) [5, 0, 0, 0]
    let w (c : Cond) (r : Reg) : Instr := .waitc c .acq .dv false .z32 { x0 with vd := 8, va := 2, vb := r }
    let parked : State := match exec (w .eq 4) s with
      | .next t => t
      | _ => s
    let woken (i : Instr) : Bool := match exec i { parked with mem := Memory.writeBytes parked.mem 0x50800 (toBytes 4 0x11223344) } with
      | .next t => (threadOf t 0).any fun u => u.status == .running && u.pc == 0x5000C && regNum u 8 1 == 0x11223344
      | _ => false
    every [reaches (w .ne 4) s 0x5000C, after (w .ne 4) s fun _ u => regNum u 8 1 == 5, ready (w .eq 4) s, (th parked).pc == 0x50000,
      (match (th parked).status with | .waitc x => x.pa == 0x50800 && x.b == 0x11223344 | _ => false),
      woken (.monitorWake 0 (lineOf 0x50800)), woken (.waitcRecheck 0), trapsWith (w .eq 4) (mt (rs [(2, 0x50801)])) 0x14 0x50801] = true := by decide

/-! ### Pages, queues, copies, tenons -/

/-- The machine with an enclave's free frames. -/
def stack (l : List Nat) (s : State) : State := { s with enclaves := s.enclaves.map fun (k, e) => (k, { e with stack := l }) }

/-- R221, R460: a misaligned address, a mapped page, an address without a level-0 table, no frame, the allocation, and its undoing. -/
theorem test_pages :
    let pa : Instr := .pgalloc { x0 with vd := 8, va := 2 }
    let pf : Instr := .pgfree { x0 with vd := 8, va := 2 }
    let s (va : Nat) (l : List Nat) : State := stack l (mt (rs [(2, va % 2 ^ 32), (3, va / 2 ^ 32)]))
    let status (i : Instr) (s : State) (r : Nat) (p : State → Bool) : Bool := ready i s && after i s fun t u => regNum u 8 1 == r && p t
    let mapped : State := match exec pa (s 0x60000 [6, 9]) with
      | .next t => t
      | _ => m0
    every [(enclaveOf m0 (threadEnclave m0 (th m0))).isSome, trapsWith pa (s 0x60008 [6]) 0x14 0x60008, decide (pageArg 0x60000 = none),
      status pa (s 0x50000 [6]) 2 fun _ => true, status pa (s 0x8000000000 [6]) 3 fun _ => true, status pa (s 0x60000 []) 1 fun _ => true,
      status pa (s 0x60000 [6, 9]) 0 fun t => (enclaveOf t 1).any (fun e => e.stack == [9]) && Memory.num t.mem 0x40030 8 == 6 * 64 + 7 && (potOf t 0x60000).owner == 1,
      after pf mapped fun t u => regNum u 8 1 == 0 && (enclaveOf t 1).any (fun e => e.stack == [6, 9]) && Memory.num t.mem 0x40030 8 == 0,
      !frameInUse mapped 6, (match pgfree mapped 1 0x60000 with | some (0, _) => true | _ => false)] = true := by decide

/-- R423, R464-R466, R475, R476: 7 and 8 entries, a division by zero, arrival in order, and a bank saved and restored. -/
theorem test_result_queues :
    let e (v : Nat) (a : Bool) : QEntry := { value := BitVec.ofNat 32 v, flags := 3, arrived := a }
    let q (l : List QEntry) : State := mt fun v => rs [(4, 7), (5, 0xFFFFFFFE), (6, 8)] { v with queues := [(1, l)] }
    let dv (r : Bool) (b : Reg) : Instr := .idivq r .b32 { x0 with vd := 769, va := 5, vb := b }
    let owes (i : Instr) (s : State) (x : Nat) (f : Flags) : Bool :=
      ready i s && after i s fun _ u => (queueOf u 1).getLast? == some { value := BitVec.ofNat 32 x, flags := f, arrived := false }
    let save : Instr := .qsave false { x0 with va := 6 }
    let full : List QEntry := (List.range 8).map fun k => e k true
    let saved : State := match exec save (q full) with
      | .next t => { t with threads := t.threads.map fun (k, v) => (k, { v with queues := [(5, full)] }) }
      | _ => m0
    every [owes (dv false 4) (q (full.take 7)) 0 0, owes (dv true 4) (q []) 0xFFFFFFFE 0, owes (dv false 8) (q []) 0xFFFFFFFF 8, owes (dv true 8) (q []) 0xFFFFFFFE 8,
      owes (.sfq .rcp .f32 { x0 with vd := 769, va := 8 }) (q []) 0x7F800000 8, stalls (dv false 4) (q full),
      after (.sfuResultArrive (.thread 0) 1) (q [e 1 true, e 2 false, e 3 false]) fun _ u => (queueOf u 1).map (·.arrived) == [true, true, false],
      gives (.qcnt 5 { x0 with vd := 8 }) [] 0, after (.qcnt 1 { x0 with vd := 8 }) (q [e 1 true, e 2 false]) fun _ u => regNum u 8 1 == 1,
      reaches save (q full) 0x5000C, stalls save (q [e 1 false]), trapsWith (.qsave false { x0 with va := 4 }) (q []) 0x14 7,
      trapsWith (.qrst true { x0 with va := 4 }) (mt (rs [(4, 131072 - 280)])) 0x11 (131072 - 280),
      after (.qrst false { x0 with va := 6 }) saved fun _ u => Tab.getD u.queues 1 [] == full && Tab.getD u.queues 5 [] == full] = true := by
  decide +kernel

/-- R476: values fixed by the operand (rcp, sqrt, exp2, log2 at exact points). -/
theorem test_sfu : every [(Sfu.result .rcp .f32 0x40000000) == (0x3F000000, 0), (Sfu.result .sqrt .f32 0x40800000) == (0x40000000, 0),
    (Sfu.result .exp2 .f32 0x40400000) == (0x41000000, 0), (Sfu.result .log2 .f32 0x41000000) == (0x40400000, 0)] = true := by
  decide +kernel

def copyOf (g : Option Nat) (st : CopyState) (b : Option Word) (f : Option Kept) : CopyCmd :=
  { thread := 0, core := 0, what := .cpy .glToSp none, dst := 64, src := 0x50800, len := 16, moved := 0, frames := [], guard := g, batch := b, state := st, fault := f, delivered := false }
def withCmds (s : State) (l : List CopyCmd) : State := { s with cmds := (List.range l.length).zip l, cmdSeq := l.length }

/-- R200-R206, R391, R392, R416: a command appended; checks at their bounds; a guard opened, set true and set false. -/
theorem test_copies :
    let s (l : List (Nat × Nat)) : State := mt (rs l)
    let cp : Instr := .cpy .glToSp false none { x0 with vd := 6, va := 2, vb := 7 }
    let gt : Instr := .cpyg none .b32 { x0 with vd := 6, va := 2, vb := 8, vc := 7 }
    let ok : List (Nat × Nat) := [(2, 0x50800), (6, 64), (7, 16), (8, 0)]
    let set (b : Nat) : Instr := .gset 5 { x0 with va := 9 + BitVec.ofNat 10 b }
    let guarded : State := withCmds (mt fun v => rs [(9, 2), (10, 3)] v) [copyOf (some 5) .waiting none none]
    let state (i : Instr) (s : State) (st : CopyState) (n : Nat) : Bool := ready i s && after i s fun t _ => (entry t 0).any fun k => k.state == st && k.len == n
    every [ready cp (s ok) && after cp (s ok) fun t u => t.cmds.length == 1 && u.pc == 0x5000C, decide (cpyCheck (s ok) (th (s ok)) .glToSp none 64 0x50800 16 = none),
      trapsWith cp (s [(2, 0x50800), (7, 8)]) 0x14 8, trapsWith cp (s [(2, 0x50800), (7, 131088)]) 0x14 131088,
      trapsWith cp (s [(2, 0x50800), (6, 131072), (7, 16)]) 0x11 131072, decide (engineLoad (s ok) 0 < Config.engineCommands),
      ready gt (s ok) && after gt (s ok) fun t _ => t.cmds.length == 1, decide (cpygCheck (s ok) (th (s ok)) 4 64 0x50800 0 16 = none),
      trapsWith gt (s [(2, 0x50800)]) 0x14 0, trapsWith gt (s [(2, 0x50800), (7, 4097)]) 0x14 4097, trapsWith gt (s [(2, 0x50802), (7, 1)]) 0x14 0x50802,
      ready (.gopen 5 x0) guarded && after (.gopen 5 x0) guarded fun t u => u.guards.isEmpty && t.cmds == guarded.cmds,
      (streamHead guarded 0).any (fun h => h.1 == 0), state (set 1) guarded .begun 16, state (set 0) guarded .done 0,
      (match exec (.copyCommandBegin 0) (withCmds m0 [copyOf none .waiting none none, copyOf none .waiting none none]) with
        | .next t => (entry t 0).any (fun k => k.state == .begun) && (entry t 1).any fun k => k.state == .waiting
        | _ => false),
      (match exec (.copyCommandBegin 1) (withCmds m0 [copyOf none .waiting none none, copyOf none .waiting none none]) with
        | .next t => (entry t 1).any fun k => k.state == .waiting
        | _ => false)] = true := by decide

/-- R203, R207-R209, R385, R387. -/
theorem test_batches :
    let seal_ : Instr := .cbseal { x0 with vd := 8 }
    let wait (c : Bool) : Instr := .cbwait c { x0 with va := 4 }
    let batch (arm : Bool) : Batch := { num := 3, promise := 10, sealed := 0, armed := arm }
    let s (l : List Batch) (f : Option Kept) : State := withCmds (mt fun v => rs [(4, 3)] { v with batches := l, batchCount := 4 }) [copyOf none .done (some 3) f]
    let bad : Kept := kept .pageProt 0x123
    let late : State := { mt fun v => { v with batches := [batch true], status := .cbwait 3 (wait true) } with time := 100000 }
    every [ready seal_ (withCmds m0 [copyOf none .waiting none none]) && after seal_ (withCmds m0 [copyOf none .waiting none none]) fun t u =>
        u.batchCount == 1 && regNum u 8 2 == 2 ^ 32 * (128 + 1) && (entry t 0).any fun k => k.batch == some 0,
      ready seal_ m0 && after seal_ { m0 with time := 30 } fun _ u => regNum u 8 2 == 2 ^ 32 * arithCycles { m0 with time := 30 } 0,
      ready (wait false) (s [batch true] none) && after (wait false) (s [batch true] none) fun _ u => u.status == .cbwait 3 (wait false),
      reaches (wait false) (s [] none) 0x5000C, after (wait false) (s [] none) (fun _ u => u.phaseStart == (th m0).phaseStart + 1), mayTrap (s [] (some bad)),
      after (wait false) (s [] (some bad)) fun t u => u.tcause == 0x111 && u.tinfo == 0x123 && t.cmds.isEmpty,
      mayTrap late, (match exec (.promiseMissed 0 3) late with | .next t => (threadOf t 0).any fun u => u.tcause == 0x18 && u.tinfo == 3 && u.batches.all (!·.armed) | _ => false),
      (match runCopy (withBytes m0 [1, 2, 3]) (clientOf m0 (th m0)) (copyOf none .begun none none) 16 with
        | r => r.fault.isNone && r.poison.isNone && scratchRead r.state 1 0 64 4 == [1, 2, 3, 0])] = true := by
  decide +kernel

/-- The claim-list routine of the spec's chapter on tenons, and a machine whose context page holds it in slot 5. -/
def claimList : List Nat := [0x8D20001F, 0x6D405212, 0x95600001, 0x7D958000, 0x35B55400, 0x75B05800, 0x8015DA00, 0x8DE001FF, 0x35155400,
  0x75005E00, 0x08005400, 0xF8000001]
def claims (w0 : Nat) : State :=
  let s := mt (rs [(20, 0x50800), (30, 0x11)])
  { s with launches := s.launches.map (fun (k, l) => (k, { l with hdr := { l.hdr with ctxt := 0x51000 } }))
           mem := Memory.writeBytes (Memory.writeBytes s.mem (0x51000 + 640) (claimList.flatMap (toBytes 4))) 0x50800 (toBytes 4 w0) }
def tnx5 (post : Bool) (r : Reg) : Instr := .tnx .none .dv false post 5 1 { x0 with vd := if post then 1023 else 8, va := r, vb := 30 }
/-- The machine after its thread has sent the request. -/
def sent (s : State) (post : Bool) : State := match exec (tnx5 post 20) s with
  | .next t => t
  | _ => s
/-- And after the slice, where it is queued, has served it. -/
def served (s : State) (post : Bool) : State := match exec (.tenonExecute (homeSlice 0x50800)) { sent s post with tenons := (sent s post).tenons.map fun q => { q with queued := true } } with
  | .next t => t
  | _ => s
def answered (s : State) (post : Bool) : State := match exec (.tenonDone 0) (served s post) with
  | .next t => t
  | _ => s

/-- R258-R260, R268, R269, R271-R275: the worked routine with room (w0 = 5) and with none (w0 = 31), its words in w20 and the answer,
posted and returning; a misaligned line and an absent slot. -/
theorem test_tenons :
    let s := claims 5
    every [ready (tnx5 false 20) s, decide ((th s).tnx = none), (match tenonPages s (th s) 0x50800 (0x51000 + 640) with | .ok _ => true | _ => false),
      (sent s false).tenons.length == 1, (th (sent s false)).tnx.isSome, stalls (tnx5 false 20) { s with threads := s.threads.map fun (k, v) => (k, { v with tnx := some (tnx5 false 20) }) }, (th (sent s true)).tl == 1,
      Memory.num (served s false).mem 0x50800 4 == 6, Memory.num (served s false).mem 0x50818 4 == 0x11,
      ((served s false).answers.head?).any (fun a => a.words == [5] && a.fault.isNone), regNum (th (answered s false)) 8 1 == 5,
      (th (answered s false)).pc == 0x5000C, (th (answered s true)).tl == 0,
      ((served (claims 31) false).answers.head?).any (fun a => a.words == [0xFFFFFFFF]), Memory.num (served (claims 31) false).mem 0x50800 4 == 31,
      trapsWith (tnx5 false 30) (claims 5) 0x14 0x11, trapsWith (tnx5 false 20) (mt (rs [(20, 0x50800)])) 0x11 640,
      reaches (.tnsync x0) s 0x5000C, after (.tnsync x0) s fun t _ => genOf t 1 0x51000 == 1,
      !poisoned s 0x50800 && !poisoned s 0x51280 && cacheable 0x51280 && (potOf s 0x51280).owner == 1 && (potOf s 0x51280).type == 1 && frameOwned s 1 (some 1) 0x50800] = true := by
  decide +kernel

/-- R261, R271, R274, R275: a reserved tenon opcode, and a signalling NaN added: the line unchanged, the fault at its thread. -/
theorem test_tenon_faults :
    let with_ (w0 a : Nat) (l : List Nat) : State :=
      { claims w0 with mem := Memory.writeBytes (claims w0).mem (0x51000 + 640 + a) (l.flatMap (toBytes 4)) }
    let bad : State := with_ 5 4 [0x98000000]
    let nan : State := with_ 0x7F800001 0 [0x55000000, 0xF8000000]
    every [((served bad false).answers.head?).any (fun a => a.fault == some (kept .tenonInvalid (0x51280 + 4))),
      Memory.num (served bad false).mem 0x50800 4 == 5, (th (answered bad false)).trapActive,
      (th (answered bad true)).kept == some (kept .tenonInvalid (0x51280 + 4)),
      ((served nan false).answers.head?).any fun a => a.fault == some (kept .tenonFault (0x50800 + 32))] = true := by
  decide +kernel

/-! ### Team operations, EXIT, hands -/

/-- A thread waiting at an instruction with a value and a selector, at a position. -/
def waits (i : Instr) (p val b : Nat) (pred : Bool) : Thread :=
  { th m0 with fields := [p, 0, 0, 0, 0, 0], lane := p, regs := [(2, BitVec.ofNat 32 val), (3, BitVec.ofNat 32 b)],
               status := .team { insn := i, mask := BitVec.allOnes 64, val := BitVec.ofNat 64 val, b := BitVec.ofNat 32 b, pred := pred, since := 0 } }
def members (i : Instr) (l : List (Nat × Nat × Nat × Bool)) : List Member :=
  l.map fun (p, val, b, pred) => { id := p, v := waits i p val b pred, a := { insn := i, mask := BitVec.allOnes 64, val := BitVec.ofNat 64 val, b := BitVec.ofNat 32 b, pred := pred, since := 0 } }
/-- What each member receives. -/
def results (i : Instr) (l : List (Nat × Nat × Nat × Bool)) : List Nat := (members i l).map fun m => (teamResult (members i l) m).1

/-- R50, R51, R477: an arrival with another member live, the last arrival, a mask without its own thread, an operand on its way, and
a group that goes on as one. -/
theorem test_team_arrival :
    let any_ : Instr := .vote false .any { x0 with vd := 1, va := 2, vc := 4 }
    let s (l : List (Nat × Nat)) : State := two (rs l) fun v => { rs l v with fields := [1, 0, 0, 0, 0, 0] }
    let more : State := { s [(4, 3)] with issue := [[Who.thread 1]] }
    let owed : State := mt fun v => rs [(4, 1)] { v with queues := [(0, [{ value := 1, flags := 0, arrived := false }])] }
    let both : State := { m0 with threads := [(0, waits any_ 0 1 0 true), (1, waits any_ 1 0 0 true)] }
    every [ready any_ more, moreArrivals more (th more), after any_ more fun _ u => (match u.status with | .team a => a.mask == 3 | _ => false),
      !moreArrivals (s [(4, 3)]) (th m0), after any_ (s [(4, 3)]) fun t u => u.status != .running && (threadOf t 1).any fun o => o.status == .running,
      reaches any_ (mt (rs [(2, 1), (4, 1)])) 0x5000C, after any_ (mt (rs [(2, 1), (4, 1)])) fun _ u => regNum u 1 1 == 0xFFFFFFFF,
      trapsWith any_ (s [(4, 2)]) 0x1D 2, stalls (.vote false .any { x0 with vd := 1, va := 768, vc := 4 }) owed,
      (threadOf (settleTeam both (th both)) 0).any (fun u => u.status == .running && regNum u 1 1 == 0xFFFFFFFF),
      (threadOf (settleTeam both (th both)) 1).any (fun u => u.status == .running && u.pc == 0x5000C), (Tab.keys both.threads == [0, 1])] = true := by
  decide +kernel

/-- R52, R53, R478, R488, R489: sources within and outside the team, false predicates, signed and unsigned order, and both scans. -/
theorem test_team_results :
    let y : Ext := { x0 with vd := 1, va := 2 }
    let l : List (Nat × Nat × Nat × Bool) := [(0, 5, 1, true), (1, 0xFFFFFFFF, 1, true), (3, 7, 3, false), (63, 2, 1, true)]
    every [results (.shfl true .idx .b32 y) l == [0xFFFFFFFF, 0xFFFFFFFF, 7, 0xFFFFFFFF], results (.shfl true .up .b32 y) l == [5, 5, 5, 2],
      results (.shfl true .down .b32 y) l == [0xFFFFFFFF, 0xFFFFFFFF, 7, 2], results (.shfl true .xor .b32 y) l == [0xFFFFFFFF, 5, 5, 2],
      results (.vote true .ballot y) l == List.replicate 4 (2 ^ 63 + 3), results (.vote true .all y) l == List.replicate 4 0xFFFFFFFF,
      results (.vote true .any y) (l.map fun p => (p.1, 0, 0, true)) == List.replicate 4 0, results (.tred true .add .b32 y) l == List.replicate 4 6,
      results (.tred true .min .b32 y) l == List.replicate 4 0xFFFFFFFF, results (.tred true .min .z32 y) l == List.replicate 4 2,
      results (.tred true .max .b32 y) l == List.replicate 4 5, results (.tred true .and .z32 y) (l.take 1) == [5],
      results (.tscan true .add true .b32 y) l == [5, 4, 4, 6], results (.tscan true .add false .b32 y) l == [0, 5, 4, 4],
      (members (.vote true .any y) l).all fun m => m.v.tpos < 64 && m.a.val.toNat < 2 ^ wid .b32] = true := by
  decide +kernel

/-- R44, R164, R208, R275, R402: each clause of EXIT. -/
theorem test_exit :
    let exit : Instr := .exit x0
    let gone (s : State) : Bool := ready exit s && match exec exit s with
      | .next t => (Tab.values t.threads).all fun u => u.status == .exited || u.fields.getD 0 0 == 1
      | _ => false
    let bad : Kept := kept .pageProt 0x123
    let ctl (f : Quarter → Quarter) : State :=
      { mt fun v => { v with control := true } with bents := [(1, codeBent (some 0))], quarters := [(0, f { Quarter.reset with bound := some 1 })] }
    every [gone m0, gone (two id id), stalls exit (mt fun v => { v with loads := [{ writes := [] }] }), stalls exit (mt fun v => { v with stores := 1 }),
      stalls exit (mt fun v => { v with tl := 1 }), stalls exit (withCmds m0 [copyOf none .begun none none]),
      trapsWith exit (withCmds m0 [copyOf none .done none (some bad)]) 0x111 0x123, trapsWith exit (mt fun v => { v with kept := some bad }) 0x111 0x123,
      quarterIdle (ctl id) 0, gone (ctl id), (match exec exit (ctl id) with | .next t => (quarterOf t 0).bound.isNone | _ => false),
      !quarterIdle (ctl fun q => { q with ops := [{ MatOp.plain with kind := .zero }] }) 0, stalls exit (ctl fun q => { q with ops := [{ MatOp.plain with kind := .zero }] }),
      trapsWith exit (ctl fun q => { q with deferred := some bad }) 0x111 0x123] = true := by
  decide +kernel

def rec0 : RaiseRec :=
  { n := 9, red := some 256, list := 0, entry := 0x50100, pool := [3, 2], committed := [], unfinished := [], faulted := [], hands := [] }
def hand1 (it : Option Nat) : Hand :=
  { ctx := { HandCtx.none with no := 1, iter := it }, pc := 0x50000, queues := [], loads := [], slice := 0, lane := 1, slot := 8, age := 0 }
/-- A foreman in hand mode, with a record and an iteration. -/
def foreman (f : RaiseRec → RaiseRec) (it : Option Nat) : State := mt fun v =>
  rs [(2, 9)] { v with handMode := true, hctx := { HandCtx.none with iter := it }, raise := some (f rec0) }

/-- R55-R57, R467: a grant, each check, a second raise, no lane and no budget. -/
theorem test_raise :
    let raise_ (r : Bool) : Instr := .raise r { x0 with vd := 8, va := 2, vb := if r then 4 else 1023, vc := 5, imm := 0x10 }
    let s (n req : Nat) : State := { mt (rs [(2, n), (3, req), (4, 64), (5, 128)]) with pcfg := [(0, (8, true))] }
    let grants (s : State) (k : Nat) : Bool := after (raise_ true) s fun _ u => u.handMode && regNum u 8 1 == k && u.raise.any fun r =>
      r.hands.length == k && r.pool.length == r.n && r.list == 128 && r.red == some 64 && r.entry == 0x50100
    every [ready (raise_ true) (s 9 3), decide (raiseCheck (s 9 3) (th (s 9 3)) 9 3 (some 64) 128 = none), grants (s 9 3) 3, grants (s 3 64) 2, grants (s 9 64) 4,
      grants { s 9 3 with pcfg := [] } 0, trapsWith (raise_ false) (s 0 1) 0x14 0, trapsWith (raise_ false) (s 4097 1) 0x14 4097, trapsWith (raise_ false) (s 9 65) 0x14 65,
      trapsWith (raise_ false) (mt fun v => rs [(2, 9)] { v with raise := some rec0 }) 0x01 0xB0000000] = true := by
  decide +kernel

/-- R59, R60, R62, R427, R428, R468: the lowest index, the empty pool, a committed group, and a reduction value. -/
theorem test_iterations :
    let next_ : Instr := .itnext { x0 with vd := 784 }
    let buf : BufEntry := { scratch := true, addr := 8, data := [1, 2, 3, 4], sc := .cr, rel := false }
    let open_ : State := mt fun v => { v with handMode := true, hctx := { HandCtx.none with iter := some 5, buf := [buf], gather := 4 }, raise := some rec0 }
    every [ready next_ (foreman id none), after next_ (foreman id none) fun _ u => u.hctx.iter == some 2 && regNum u 784 1 == 2 && u.raise.any fun r => r.pool == [3],
      after next_ (foreman (fun r => { r with pool := [] }) none) fun _ u => u.hctx.iter == none && regNum u 784 1 == 0xFFFFFFFF && u.pc == 0x50010,
      ready (.itend x0) open_, after (.itend x0) open_ fun t u => u.fpsr == 4 && u.hctx.iter == none && scratchRead t 1 0 8 4 == [1, 2, 3, 4] && u.raise.any fun r => r.committed == [5],
      ready (.hred { x0 with va := 2 }) (foreman id (some 5)),
      after (.hred { x0 with va := 2 }) (foreman id (some 5)) fun _ u => u.hctx.buf == [{ scratch := true, addr := 276, data := toBytes 4 9, sc := .cr, rel := false }]] = true := by
  decide +kernel

/-- R61, R62, R431, R469: JOINH of the foreman with a hand live, with none, outside hand mode and without a record; a hand's own end, and
a release. -/
theorem test_joins :
    let join : Instr := .joinh false { x0 with vd := 8 }
    let alone := foreman (fun r => { r with pool := [] }) none
    let withHand (it : Option Nat) : State := foreman (fun r => { r with hands := [hand1 it] }) none
    let asked (s : State) : State := { s with
      bents := s.bents.map fun (k, b) => (k, { b with request := some 0, full := true })
      threads := s.threads.map fun (k, v) => (k, { v with status := .stopped none }) }
    let atHand : State := { withHand none with cur := some (.hand 0 1) }
    every [ready join (withHand none), after join (withHand none) fun _ u => (match u.status with | .joinh _ => true | _ => false), ready join alone,
      after join alone fun _ u => u.raise.isNone && !u.handMode && regNum u 8 2 == 0 && u.pc == 0x5000C,
      after join (mt fun v => { v with raise := some rec0 }) fun _ u => u.raise.isNone && u.pc == 0x5000C, trapsWith join m0 0x01 0xB0800000,
      ready join atHand, (match exec join atHand with | .next t => (threadOf t 0).any fun u => u.raise.any (·.hands.isEmpty) | _ => false),
      !mustRelease (withHand (some 7)) (th (withHand none)) (hand1 none),
      (match exec (.handForceRelease 0 1) (asked (withHand (some 7))) with
        | .next t => (threadOf t 0).any fun u => u.raise.any fun r => r.hands.isEmpty && r.pool == [7, 3, 2]
        | _ => false)] = true := by
  decide +kernel

/-! ### Matrix quarters -/

def shp (base stride type cols rows : Nat) : BitVec 128 :=
  BitVec.ofNat 128 (base * 2 ^ 64 + stride * 2 ^ 40 + type * 2 ^ 35 + cols * 2 ^ 16 + rows)
/-- A matrix thread bound to quarter 0, its records a B tile of 2 by 32 at 0x50800, an A row of 2 and an accumulator of 1 by 32 at 0x50A00. -/
def mx (f : Quarter → Quarter) (g : Thread → Thread) : State :=
  { mt fun v => g { v with control := true, recs := [(1, shp 0x50800 64 5 32 2), (2, shp 0 4 5 2 1), (3, shp 0x50A00 128 4 32 1), (4, shp 0x50800 64 4 32 2)] } with
    bents := [(1, codeBent (some 0))]
    quarters := [(0, f { Quarter.reset with bound := some 1 })] }
/-- The state some instructions and steps lead to, one after the other. -/
def goes (s : State) (is : List Instr) : State := is.foldl (fun s i => match exec i s with
  | .next t => t
  | _ => s) s
def mldb : Instr := .mldb 1 x0
def mrow (o : Bool) : Instr := .mrow 2 3 true o false { x0 with va := 2, vc := 4 }

/-- R165-R168, R176, R178, R180, R441, R444-R446: the record packed; each check of MLDB at its bound; the queue at 7 and 8; MSYNC and MSTAT. -/
theorem test_matrix_instructions :
    let desc : Instr := .mdesc 5 { x0 with va := 2, vb := 4, vc := 5 }
    let shape (d : BitVec 128) : State := mx id fun v => { v with recs := [(1, d)] }
    let ops (n : Nat) : Quarter → Quarter := fun q => { q with ops := List.replicate n { MatOp.plain with kind := .zero } }
    let bad : Kept := kept .pageProt 0x123
    every [decide (controlQuarter (mx id id) (th (mx id id)) = some 0),
      after desc (mx id (rs [(2, 0x50800), (4, 0x01000020), (5, 0x1004)])) fun _ u => Tab.getD u.recs 5 0 == shp 0x50800 16 4 256 32,
      ready mldb (mx id id) && after mldb (mx id id) fun t _ => (quarterOf t 0).ops.length == 1 && (quarterOf t 0).issued == some (2, 32),
      trapsWith mldb (mx (fun q => { q with deferred := some bad }) id) 0x111 0x123,
      trapsWith mldb (shape (shp 0x50800 64 4 32 2)) 0x1C 0x101, trapsWith mldb (shape (shp 0x50800 64 5 257 2)) 0x1C 0x201, trapsWith mldb (shape (shp 0x50800 64 5 32 1025)) 0x1C 0x201,
      trapsWith mldb (shape (shp 0x50800 62 5 32 2)) 0x1C 0x301, trapsWith mldb (shape (shp 0x50801 64 5 32 2)) 0x1C 0x301,
      after mldb (mx (ops 7) id) fun t _ => (quarterOf t 0).ops.length == 8, stalls mldb (mx (ops 8) id),
      ready (.mzero 3 { x0 with va := 2 }) (mx id (rs [(2, 255)])) && after (.mzero 3 { x0 with va := 2 }) (mx id (rs [(2, 255)])) fun t _ => (quarterOf t 0).ops.length == 1,
      trapsWith (.mzero 3 { x0 with va := 2 }) (mx id (rs [(2, 256)])) 0x1C 0x803, stalls (.mzero 3 { x0 with va := 2 }) (mx (ops 8) id),
      ready (mrow false) (mx (fun q => { q with issued := some (2, 32) }) (rs [(2, 1)])) && after (mrow false) (mx (fun q => { q with issued := some (2, 32) }) (rs [(2, 1)])) fun t _ => (quarterOf t 0).ops.length == 1,
      trapsWith (mrow false) (mx (fun q => { q with issued := some (3, 32) }) (rs [(2, 1)])) 0x1C 0x402, trapsWith (mrow false) (mx (fun q => { q with issued := some (2, 32) }) (rs [(2, 2)])) 0x1C 0x602,
      ready (.msync { x0 with vd := 8 }) (mx (fun q => { q with order := true }) id) && after (.msync { x0 with vd := 8 }) (mx (fun q => { q with order := true }) id) fun t u => regNum u 8 1 == 2 && !(quarterOf t 0).order,
      stalls (.msync { x0 with vd := 8 }) (mx (ops 1) id), after (.mstat { x0 with vd := 8 }) (mx id id) fun _ u => regNum u 8 2 == 0,
      after (.mstat { x0 with vd := 8 }) (mx (fun q => { q with errs := [5, 9], more := 3 }) id) fun t u => regNum u 8 2 == 5 + 3 * 2 ^ 56 && (quarterOf t 0).errs == [9]] = true := by
  decide +kernel

/-- R159, R167, R169-R175: one product through the quarter to memory: B is 1.0 and 2.0 in column 0, A is 3.0 and 4.0, the accumulator 0.5. -/
theorem test_quarter :
    let s0 : State := mx id (rs [(2, 1)])
    let s : State := { s0 with mem := Memory.writeBytes (Memory.writeBytes (Memory.writeBytes s0.mem 0x50800 (toBytes 2 0x3F80)) 0x50840 (toBytes 2 0x4000)) 0x50A00 (toBytes 4 0x3F000000)
                               quarters := [(0, { Quarter.reset with bound := some 1, pushes := [{ thread := 0, word := 0x40804040, was := th m0, next := 0 }] })] }
    let cold (s : State) : State := { s with l2 := [], ms := [] }
    let a := goes s [mldb, .feedPushAccepted 0]
    let b := goes (cold (fillShadow (cold a) 0)) [.bankSwap 0 []]
    let c := goes (cold b) [mrow false, .rowAccept 0 []]
    let d := goes (cold c) [.segmentArrive 0]
    let z := zeroLine (cold d) 0 7 0x50A00 128
    every [(quarterOf a 0).feed == [0x40804040], (quarterOf a 0).pushes.isEmpty, (quarterOf b 0).active.isSome && (quarterOf b 0).ops.isEmpty,
      c.segments.length == 1, (quarterOf c 0).accepted == 1, (quarterOf c 0).ops.isEmpty, (clusterOfPkg c 0).credit == (clusterOfPkg b 0).credit - 40960,
      d.segments.isEmpty, Memory.num d.mem 0x50A00 4 == 0x41380000, Memory.num d.mem 0x50A04 4 == 0, Memory.num z.mem 0x50A00 4 == 0, sideOf z (0x50A00 / 128) == { Side.clean with next := 0, count := 7, poison := 0 }] = true := by
  decide +kernel

/-- R153, R154: the worked group, and the same with its third product negated. -/
theorem test_group_truncation :
    every [groupSum [(FVal.mul (cimValue 0x3F80) (cimValue 0x3F80)).1, (FVal.mul (cimValue 0x3F80) (cimValue 0xBF80)).1, (FVal.mul (cimValue 0x3340) (cimValue 0x3300)).1] == 0,
      groupSum [(FVal.mul (cimValue 0x3F80) (cimValue 0x3F80)).1, (FVal.mul (cimValue 0x3F80) (cimValue 0xBF80)).1, (FVal.mul (cimValue 0x3340) (cimValue 0xB300)).1] == 0xA7800000] = true := by
  decide +kernel

/-- R159, R179: binding in service and out of it; a fill that fails drops the MROW behind it and defers its fault. -/
theorem test_bind_and_fault :
    let free : State := { mx id id with bents := [(1, codeBent none)], quarters := [], launches := m0.launches.map fun (k, l) => (k, { l with hdr := { l.hdr with ctxt := 1 } }) }
    let out : State := { free with clusters := [(0, { Cluster.reset with qsvc := 0xE })] }
    let bind (s : State) : State := goes s [.quarterBind 0]
    let lost : MatOp := { MatOp.plain with a := shp 0x90000 64 5 32 1 }
    let s : State := mx (fun q => { q with ops := [lost, { MatOp.plain with kind := .rows, seq := 1 }, { lost with seq := 2 }] }) id
    every [decide (nextBinder free 0 = some 1), (matrixThread free 1).isSome, inService free 0, (quarterOf (bind free) 0).bound == some 1, ((bentOf (bind free) 1).any fun b => b.control == some 0),
      !inService out 0, (bentOf (bind out) 1).isNone, (match loadTile s 0 lost with | .trap _ => true | _ => false), quarterLive s 0,
      (quarterOf (goes s [.fillFault 0]) 0).deferred.isSome, (quarterOf (goes s [.fillFault 0]) 0).ops.length == 1] = true := by
  decide +kernel

/-- R173-R175: a segment in order, behind, ahead, at the count, and with the line's next chunk at the end of its range. -/
theorem test_segments :
    let seg (o : Bool) (c : Nat) : Segment := { line := 0x50A00 / 128, desc := 0x50980 / 128, ord := o, chunk := c, pair := false, data := List.replicate 32 0x3F800000, quarter := 0, ticket := 1, op := 0, held := false, refused := false, va := 0x50A00, descVa := 0x50980 }
    let s (g : Segment) (n m : BitVec 8) : State := { mx id id with segments := [g], side := [(0x50A00 / 128, { Side.clean with next := n, count := m, poison := 0 })] }
    let go (g : Segment) (n m : BitVec 8) : State := goes (s g n m) [.segmentArrive 0]
    let word (t : State) : Nat := Memory.num t.mem 0x50A00 4
    every [word (go (seg false 7) 0 0) == 0x3F800000, word (go (seg true 2) 2 3) == 0x3F800000, (sideOf (go (seg true 2) 2 3) (0x50A00 / 128)).next == 3,
      word (go (seg true 1) 2 3) == 0 && (quarterOf (go (seg true 1) 2 3) 0).order && Memory.num (go (seg true 1) 2 3).mem 0x50980 4 == 2,
      (quarterOf (go (seg true 3) 2 3) 0).order, (go (seg true 2) 0 3).segments.map (·.held) == [true], word (go (seg true 2) 0 3) == 0,
      (sideOf (go (seg true 254) 254 255) (0x50A00 / 128)).next == 255] = true := by
  decide +kernel

/-! ### System instructions -/

def withDebug (s : State) : State := { s with enclaves := s.enclaves.map fun (k, e) => (k, { e with debug := true }), pcfg := [(0, (0, true))] }

/-- R97-R99, R161, R461, R480: special registers of a vector thread and of a matrix thread, and the three that may be written. -/
theorem test_special_registers :
    let s : State := mt fun v => { v with fields := [5, 2, 1, 0, 0, 3], seed := 0x1234, tpc := 0x123456789, fpen := 3, stack := [1, 2], tdst := 0x403FF }
    let r (i : BitVec 8) : Instr := .sreg i { x0 with vd := 8 }
    let is (i : BitVec 8) (n : Nat) : Bool := ready (r i) s && after (r i) s fun _ u => regNum u 8 (destWidth (r i)) == n
    let set (i : BitVec 8) (p : Thread → Bool) : Bool := ready (.sset i { x0 with va := 2 }) (mt (rs [(2, 0xFFFFFFFF)])) && after (.sset i { x0 with va := 2 }) (mt (rs [(2, 0xFFFFFFFF)])) fun _ u => p u
    every [is 0x01 5, is 0x02 2, is 0x06 3, is 0x08 5, is 0x09 5, is 0x0B 0, is 0x18 0x1234, is 0x21 0x123456789, is 0x25 3, is 0x26 2, is 0x27 0x403FF, gives (r 0x00) [] 0,
      after (r 0x08) (mx id id) fun _ u => regNum u 8 1 == 0xFFFFFFFF, set 0x18 fun u => u.seed == 0xFFFFFFFF, set 0x24 fun u => u.fpsr == 31,
      set 0x25 fun u => u.fpen == 31, gives (r 0x10) [] 0] = true := by
  decide +kernel

/-- R7, R317, R323, R357, R379, R380: BRK and the debugger with and without a debug-enabled partition, PLUMB, and an unassigned word. -/
theorem test_debug :
    let brk : Instr := .brk { x0 with imm := 3 }
    let stop : State := withDebug (mt fun v => { v with status := .debugStop })
    let said (s : State) (c : DebugCmd) (p : Thread → Bool) : Bool := match exec (.debuggerCommand 0 0 c) s with
      | .next t => (threadOf t 0).any p && t.root.log.length == 1
      | _ => false
    every [ready brk m0, !threadDebug m0 (th m0), trapsWith brk m0 0x3F (2 ^ 63 + 3), threadDebug stop (th stop), after brk (withDebug m0) fun t u => u.status == .debugStop && u.pc == 0x5000C && t.root.log.length == 1,
      said stop .release fun u => u.status == .running, said stop (.writePc 0x51000) fun u => u.pc == 0x51000, said (withDebug m0) (.writePc 0x51000) fun u => u.pc == 0x50000,
      ready (.plumb x0) m0, after (.plumb x0) m0 fun t _ => t.mgmt.triggers == 0, after (.plumb x0) (withDebug m0) fun t u => t.mgmt.triggers == 1 && u.pc == 0x5000C,
      after (.unassignedEncoding 0x83600000) m0 fun _ u => u.tcause == 1 && u.tinfo == 0x83600000 && u.tlen == 12] = true := by
  decide +kernel

/-- R346-R351: a request posted, taken and answered; a misaligned block, a block that holds a reserved bit, a ring that is full. -/
theorem test_services :
    let call (n : BitVec 8) : Instr := .sysc n { x0 with vd := 8, va := 2, vb := 4 }
    let s : State := mt (rs [(2, 0x50800), (4, 7)])
    let req (n : Nat) : SyscReq := { die := 0, io := 0, thread := 9, svc := n, vb := 0, args := [], taken := false, sent := false }
    let full : State := { s with requests := List.replicate 256 (req 6) }
    let back (n : BitVec 8) : State := goes (goes s [call n]) [.syscRequestTaken 0 0, .syscReply 0 5 6 []]
    every [ready (call 6) s, (match syscCheck s (th s) 0x50800 with | .ok _ => true | _ => false), after (call 6) s fun t u => t.requests.length == 1 && u.pc == 0x50000 && u.sysc.isSome,
      after (call 6) full fun t u => t.requests.length == 256 && u.pc == 0x50000 && (match u.sysc with | some (.released ..) => true | _ => false), ringLoad full 0 0 == 256, (goes s [call 6, .syscRequestTaken 0 0]).requests.map (·.taken) == [true],
      (th (back 6)).pc == 0x5000C && regNum (th (back 6)) 8 2 == 1 && (back 6).requests.isEmpty, regNum (th (back 0)) 8 2 == 0 && (th (back 0)).sysc.isNone,
      trapsWith (call 6) (mt (rs [(2, 0x50820)])) 0x14 0x50820, trapsWith (call 6) (withBytes s [4]) 0x17 0x50800, trapsWith (call 6) (mt (rs [(2, 0x90000)])) 0x10 0x90000] = true := by
  decide +kernel

/-- R432-R434: each status, and the header at its place in the ring. -/
theorem test_launch :
    let l : Instr := .launch 3 { x0 with vd := 8, va := 2 }
    let q (f : KickQueue → KickQueue) (s : State) : State :=
      { s with enclaves := s.enclaves.map fun (k, e) => (k, { e with kq := [(3, f { KickQueue.reset with ring := 0x50, logd := 4, en := true, head := 5, tail := 24 })] }) }
    let s : State := warm [0x50800 / 128, 0x50200 / 128] (withBytes (mt (rs [(2, 0x50800)])) [1, 2, 3, 4])
    let status (s : State) (n : Nat) : Bool := ready l s && after l s fun _ u => regNum u 8 1 == n && u.pc == 0x5000C
    every [status (q (fun k => { k with tail := 20 }) s) (20 * 2 ^ 16), status s 1, status (q (fun k => { k with en := false }) s) 1, status (q (fun k => { k with head := 8 }) s) 2,
      status (q (fun k => { k with ring := 0x90, tail := 20 }) s) 3, after l (q (fun k => { k with tail := 20 }) s) fun t _ => Memory.num t.mem 0x50200 4 == 0x04030201,
      trapsWith l (mt (rs [(2, 0x50808)])) 0x14 0x50808, trapsWith l (mt (rs [(2, 0x90000)])) 0x10 0x90000, (enclaveOf s (threadEnclave s (th s))).isSome] = true := by
  decide +kernel

/-! ### Enclave instructions -/

/-- A hart of the sill cores with register values, beside the placed machine and 8-byte words of memory. -/
def hs (mode : HMode) (regs : List (Nat × Nat)) (words : List (Nat × Nat)) : State :=
  { m0 with
    cur := some (.hart 0)
    harts := [(0, { codeHart with mode := mode, x := regs.map fun (k, x) => (k, BitVec.ofNat 64 x) })]
    mem := words.foldl (fun m (a, x) => Memory.writeBytes m a (toBytes 8 x)) m0.mem
    root := { m0.root with keys := [(0, 7), (1, 8)] } }
/-- A test of the state after an instruction of the hart, and of the hart. -/
def hart (i : Instr) (s : State) (p : State → Hart → Bool) : Bool := match exec i s with
  | .next t => (hartOf t 0).any (p t)
  | _ => false
/-- The status an instruction leaves in x5, its hart four bytes on. -/
def leaves (i : Instr) (s : State) (n : Nat) : Bool := hart i s fun _ h => (h.getX 5).toNat == n && h.pc == 0x50004
/-- Illegal instruction taken. -/
def illegal (i : Instr) (s : State) : Bool := hart i s fun _ h => h.cause == causeIllegal && h.epc == 0x50000

/-- R295: each enclave instruction in modes that may not run it. -/
theorem test_enclave_admission :
    let inside : State := { hs .u [(10, 2)] [] with harts := [(0, { codeHart with mode := .u, enclave := some 1 })] }
    every [illegal (.encCreate 5 10) (hs .u [] []), illegal (.encAddpg 5 10 11) (hs .m [] []), illegal (.encSeal 5 10 11) (hs .vs [] []), illegal (.encEnter 5 10 11) inside,
      illegal (.encDestroy 5 10) inside, illegal (.encUnseal 5 10 11) (hs .hs [] []), illegal (.encUnseal 5 10 11) inside, illegal .encExit (hs .s [] []),
      leaves (.encCreate 5 10) (hs .hs [] []) (2 ^ 63 + 2), leaves (.encAddpg 5 10 11) (hs .s [(10, 9)] []) 4, leaves (.encUnseal 5 10 11) (hs .s [(10, 9)] []) 4,
      leaves (.encEnter 5 10 11) (hs .s [(10, 9)] []) 4, leaves (.encDestroy 5 10) (hs .s [(10, 9)] []) 4, leaves (.encSeal 5 10 11) (hs .s [(10, 9)] []) 4] = true := by
  decide +kernel

/-- R303: a frame for the free stack, a table where the first is missing, a frame held, and a frame already owned. -/
theorem test_enclave_pages :
    let add (kind frame va : Nat) : State := hs .hs [(10, 1), (11, 0x80000)] [(0x80000, kind), (0x80008, 65536 * frame), (0x80010, va)]
    let i : Instr := .encAddpg 5 10 11
    every [leaves i (add 0 9 0) 0, hart i (add 0 9 0) fun t _ => (enclaveOf t 1).any (fun e => e.stack == [9]) && (potOf t (9 * 65536)).type == 3, leaves i (add 0 5 0) 3,
      leaves i (add 4 9 0) 2, leaves i (add 1 9 0x200000) 0, hart i (add 1 9 0x200000) fun t _ => (potOf t (9 * 65536)).type == 2 && Memory.num t.mem 0x30008 8 == 9 * 65536 / 256 * 64 + 1,
      hart i (add 3 9 0) fun t _ => t.root.held == [9], leaves i (add 2 9 0) 2] = true := by
  decide +kernel

/-- R304: a page that is sealed (its record holds the root's cipher text, so the state after it is not evaluated), one that is not present, one with RSTR, and a misaligned destination. -/
theorem test_enclave_seal :
    let s (va dst : Nat) : State := { hs .hs [(10, 1), (11, 0xA0000)] [(0xA0000, va), (0xA0008, dst)] with root := { m0.root with held := [0x500], keys := [(1, 8)] } }
    let i : Instr := .encSeal 5 10 11
    every [(match sealPage (s 0x50000 0x80000) 1 0xA0000 with | some (.ok _) => true | _ => false), leaves i (s 0x60000 0x80000) 3, leaves i (s 0x50000 0x80040) 2, leaves i { s 0x50000 0x80000 with pot := codePot.map fun (f, p) => (f, { p with rstr := true }) } 6,
      leaves i { s 0x50000 0x80000 with root := { m0.root with keys := [(1, 8)] } } 5] = true := by
  decide +kernel

/-- R306, R399: entry to a fresh save area, to one that holds registers, and refused; exit and asynchronous exit (its save area out of
reach of the enclave, so that nothing is stored). -/
theorem test_enclave_modes :
    let i : Instr := .encEnter 5 10 11
    let s (pc : Nat) (l : List (Nat × Nat)) : State :=
      { hs .hs [(3, 77), (10, 1), (11, 0x80000)] ([(0x80000, pc), (0x80008, 0x1234), (0x80010, 0x50C00)] ++ l) with
        tlb := [{ core := noCore, enclave := 1, page := 5, big := false, pot := potOf m0 0x50000, entry := 5 * 64 + 15 }] }
    let out : Outside := { pc := 0x50000, mode := .hs, x := [(3, 77)], f := [], fcsr := 0, rd := 5, save := 0x1000000000000 }
    let inE : State := { m0 with cur := some (.hart 0), harts := [(0, { codeHart with mode := .u, enclave := some 1, outside := some out })] }
    every [hart i (s 0x50100 []) fun _ h => h.pc == 0x50100 && h.mode == .u && h.enclave == some 1 && h.getX 2 == 0x1234 && h.getX 3 == 0, leaves i (s 0x50101 []) 2,
      hart i (s 0x50100 [(0x50C00, 1), (0x50C08, 0x50200), (0x50C10, 5)]) fun t h => h.pc == 0x50200 && h.getX 1 == 5 && Memory.num t.mem 0x50C00 8 == 0,
      hart .encExit inE fun _ h => h.pc == 0x50004 && h.mode == .hs && h.enclave == none && h.getX 3 == 77 && h.getX 5 == 0,
      hart (.enclaveAsyncExit 0 9) inE fun _ h => h.enclave == none && h.cause == 9 && h.epc == 0x50000 && h.getX 3 == 77] = true := by
  decide +kernel

/-- R302, R326. -/
theorem test_enclave_ends : every [
      hart (.encDestroy 5 10) (hs .hs [(10, 1)] []) fun t h => t.enclaves.isEmpty && t.bents.isEmpty && t.threads.isEmpty && t.pot.isEmpty && h.getX 5 == 0,
      (match exec (.keyTransfer 1 true) { m0 with enclaves := [(1, { codeEnclave with slot := none, wrapped := some 8 })] } with | .next t => t.root.log.length == 1 | _ => false)] = true := by
  decide +kernel

/-- R312: with keys that open, a blob of no page is unsealed. -/
theorem test_enclave_unseal (hk : ∀ x, Config.sm2Open x = some 0) (hg : ∀ k n h b t, Config.gcmOpen k n h b t = some []) :
    ∃ t, unsealBlob State.reset 1 codeEnclave 0x50800 0x60000 0 0 = .ok t := by
  have h : openBlob State.reset codeEnclave 0x50800 = some [] := by
    unfold openBlob
    rw [hk, Option.bind_some, if_neg (by decide +kernel), if_neg (by decide +kernel), if_neg (by decide +kernel), hg]
  have n : Memory.num State.reset.mem (0x50800 + 0x30) 8 = 0 := by decide +kernel
  unfold unsealBlob
  rw [if_neg (by decide +kernel), h]
  simp only [n]
  exact ⟨_, rfl⟩


/-! ### Kick queues, dispatch, pre-emption -/

def q3 (s : State) : KickQueue := ((enclaveOf s 1).map fun e => e.queue 3).getD KickQueue.reset
/-- Queue 3 of the enclave, its ring at 0x50000, its header of slot 1 due, bay column 0 owned by partition 0; a header's fields at their offsets. -/
def queued (k : KickQueue → KickQueue) (l : List (Nat × Nat × Nat)) : State :=
  { m0 with
    bents := [], threads := [], launches := [], launchSeq := 4, colown := [(0, 1)]
    enclaves := [(1, { codeEnclave with kq := [(3, k { KickQueue.reset with ring := 0x50, logd := 4, en := true, head := 1, tail := 2 })] })]
    mem := ([(0, 8, 0x50400), (0x10, 1, 2), (0x18, 4, 3), (0x30, 2, 24), (0x48, 4, 0x55)] ++ l).foldl (fun m (o, n, x) => Memory.writeBytes m (0x50080 + o) (toBytes n x)) m0.mem }

/-- R67, R68: KQCFG written, with LOGD above 8, and on a queue that is not empty; TAIL at the ring's size and above; enabling; reads of four bytes. -/
theorem test_kick_registers :
    let s (h t : Nat) : State := queued (fun k => { k with head := h, tail := t, nref := 3, lasterr := 2 }) []
    let cfg (s : State) (v : DWord) : State := goes s [.kqcfgWrite 1 3 v]
    let tail (h n : Nat) : Nat := (q3 (goes (s h 9) [.kqdoorTailWrite 1 3 (BitVec.ofNat 64 n)])).tail
    let off : State := queued (fun k => { k with en := false, head := 9, tail := 9 }) []
    every [(enclaveOf (s 9 9) 1).isSome, (q3 (cfg (s 9 9) 0x70881)).cfg == 0x70881, (q3 (cfg (s 9 9) 0x708BF)).cfg == 0x70881, (q3 (cfg (s 9 9) 0x70881)).head == 9,
      (q3 (cfg (s 9 9) 0x70981)).cfg == 0x50401, (q3 (cfg (s 8 9) 0x70881)).cfg == 0x50401, (q3 (cfg off 0x70881)).head == 0 && (q3 (cfg off 0x70881)).tail == 0,
      kickRead (s 8 9) 1 48 8 == 0x50401, kickRead (s 8 9) 1 56 8 == 9 + 8 * 2 ^ 16 + 3 * 2 ^ 32 + 2 * 2 ^ 40, kickRead (s 8 9) 1 48 4 == 0, kickRead (s 8 9) 1 0x418 8 == 0,
      tail 9 25 == 25, tail 9 26 == 9, tail 65530 10 == 10] = true := by
  decide +kernel

/-- R69, R71: each refusal but those of whole partitions, the slot's first, and an accepted header. -/
theorem test_headers :
    let code (k : KickQueue → KickQueue) (l : List (Nat × Nat × Nat)) : Nat × Nat × Nat :=
      let k := q3 (goes (queued k l) [.headerCheck 1 3])
      (k.lasterr, k.nref, k.head)
    let c (l : List (Nat × Nat × Nat)) (n : Nat) : Bool := code id l == (n, 1, 2)
    let ok : State := goes (queued id []) [.headerCheck 1 3]
    every [headerDue (q3 (queued id [])), !headerDue (q3 (queued (fun k => { k with head := 2 }) [])), (headSlot (queued id []) 1 (q3 (queued id []))).2.isSome,
      c [(0x16, 1, 8)] 1, c [(0x10, 1, 1)] 1, c [(0x18, 4, 4), (0x10, 1, 3)] 1, c [(0x30, 2, 0)] 2, c [(0x30, 2, 769)] 2, c [(0x32, 2, 65)] 2, c [(0x34, 4, 131073)] 2,
      c [(0, 8, 0x50408)] 3, c [(0x50, 8, 0x50404)] 3, c [(0, 8, 0x90000)] 4, c [(0x70, 8, 0x90000)] 4, c [(0x17, 1, 1)] 5, c [(0x16, 1, 2)] 8,
      code (fun k => { k with ring := 0x90 }) [(0x30, 2, 0)] == (4, 1, 2), code id [] == (0, 0, 2),
      (q3 ok).cur == some 4 && (Tab.get? ok.launches 4).any fun l => l.hdr.entry == 0x50400 && l.hdr.blockSize == 4 && l.hdr.bentCount == 1 && l.hdr.regs == 24 && l.hdr.seed == 0x55] = true := by
  decide +kernel

/-- R35-R42, R72-R75, R495: a token behind and at its value; a bent placed with its threads; retirement with its add of 1 and without. -/
theorem test_dispatch :
    let a (v : Nat) : State := goes (queued id [(0x50, 8, 0x50800), (0x58, 8, v), (0x70, 8, 0x50808), (0x780, 8, 5), (0x788, 8, 2 ^ 64 - 1)]) [.headerCheck 1 3, .tokenReady 4]
    let placed : State := match Tab.get? (a 5).launches 4, queueGroup (a 5) 1 3 (q3 (a 5)) with
      | some l, some g => match planGroup (a 5) g with
        | some [p] => placeBent (a 5) 4 l 0 p
        | _ => a 5
      | _, _ => a 5
    let ended : State := { placed with bents := [], threads := [], launches := placed.launches.map fun (k, l) => (k, { l with ended := 1 }) }
    let h2 : Header := { codeHeader with extents := [64, 1, 3, 2, 5, 1] }
    every [(Tab.get? (a 5).launches 4).isSome, (q3 (a 5)).readySince.isSome, (q3 (a 6)).readySince.isNone, (servable (a 6)).isEmpty, (servable (a 5)).length == 1,
      (placed.bents.map fun (t, b) => (t, b.launch, b.cluster, b.c0, b.order)) == [(1, 4, 0, 0, 0)] && placed.threads.length == 4,
      (Tab.values placed.threads).map (fun v => (v.fields.headD 9, v.lane, v.pc, v.seed)) == [(0, 0, 0x50400, 0x55), (1, 1, 0x50400, 0x55), (2, 2, 0x50400, 0x55), (3, 3, 0x50400, 0x55)],
      (goes placed [.launchRetire 4]).launches.length == 1, !launchBusy ended 4, (goes ended [.launchRetire 4]).launches.isEmpty,
      Memory.num (goes ended [.launchRetire 4]).mem 0x50808 8 == 0, Memory.num (goes { ended with launches := ended.launches.map fun (k, l) => (k, { l with halted := true }) } [.launchRetire 4]).mem 0x50808 8 == 2 ^ 64 - 1,
      h2.bentCount == 30 && upperFields h2 29 == [2, 1, 4, 0] && upperFields h2 4 == [1, 1, 0, 0]] = true := by
  decide +kernel

/-- R83-R89, R290, R292: a request with room and without; the mapped save of a thread at a point, its live registers alone; the full save of
one that sleeps; the record resumed, and one the root does not know. -/
theorem test_preemption :
    let s (f : Thread → Thread) (region : Nat) : State :=
      { mt f with
        launches := [(0, { enclave := 1, queue := 3, hdr := { codeHeader with livemap := 0x51, regs := 24, hands := 0, coop := false, scratch := 0, extents := [4, 1, 1, 1, 1, 1] }, next := 1, ended := 0, halted := false })]
        enclaves := [(1, { codeEnclave with svcfg := BitVec.ofNat 64 region })], colown := [(0, 1)]
        mem := Memory.writeBytes m0.mem 0x51000 (toBytes 4 (2 * 2 ^ 22 + 2 * 2 ^ 12 + 2 * 2 ^ 10)) }
    let point (v : Thread) : Thread := rs [(2, 0x11223344), (3, 0xFF), (5, 7)] { v with status := .bar 0, masks := 3 }
    let asks : State := goes (s point 7) [.preemptRequest 1]
    let sealed (s : State) (full : Bool) : State := match bentOf s 1, launchOfBent s 1 with
      | some b, some l =>
        let r := bentRecord s (stopCores s b) 1 b l full
        let t := takeOff (stopCores s b) b r
        { t with saved := [{ r with place := 0x50A00, image := toBytes 144 0 }], root := { t.root with saves := [(1, r.counter)] } }
      | _, _ => s
    let saved : State := sealed asks false
    let sleeps : State := goes (s (fun v => rs [(5, 7)] { v with status := .sleep 9 }) 7) [.preemptRequest 1]
    let full : State := sealed sleeps true
    let back : State := goes saved [.bentResume 1]
    let lost : State := goes { saved with root := { saved.root with saves := [] } } [.bentResume 1]
    let tight : State := { s point 7 with saved := (full.saved.map fun r => { r with ticket := 9, place := 512, size := 8 * 65536 - 1024 }) }
    every [saved.saved.length == 1 && (saved.saved.map (·.counter)) == [1], (bentOf (s point 7) 1).any (fun b => b.request.isNone) && mayStop (s point 7) 1, !mayStop tight 1, (bentOf (goes tight [.preemptRequest 1]) 1).any (fun b => b.asked && b.request.isNone),
      (threadOf asks 0).any fun v => v.status == .stopped (some 0), saveTableRoom asks && (bentOf asks 1).any (drained asks 1) && (launchOfBent asks 1).any fun l => allAtPoints asks l 1,
      saved.bents.isEmpty && saved.threads.isEmpty && saved.saved.map (fun r => (r.ticket, r.full)) == [(1, false)] && saved.root.saves.length == 1,
      (saved.saved.flatMap fun r => (Tab.values r.threads).flatMap fun v => [regVal v 2, regVal v 3, regVal v 5, v.masks.setWidth 32]) == [0x44, 0xFF, 0, 1],
      (bentOf sleeps 1).any (fun b => (launchOfBent sleeps 1).any fun l => fullDue sleeps l 1 b) && (bentOf sleeps 1).any (drained sleeps 1),
      full.bents.isEmpty && full.saved.map (fun r => (r.ticket, r.full, (Tab.values r.threads).map fun v => regVal v 5)) == [(1, true, [7])],
      (bentOf back 1).any (fun b => b.request.isNone && b.placement == 1 && b.cluster == 0) && back.saved.isEmpty && back.root.saves.isEmpty,
      (Tab.values back.threads).map (fun v => (v.status, regVal v 2)) == [(.running, 0x44)],
      lost.bents.isEmpty && lost.threads.isEmpty && (Tab.values lost.launches).map (fun l => (l.halted, l.ended)) == [(true, 1)]] = true := by
  decide +kernel

/-! ### Bays, attestation, egress, partitions, migration, management -/

/-- The machine with port 0 holding MGSEM. -/
def owned : State := { m0 with mgmt := { m0.mgmt with semOwner := 1 } }
def enc1 (f : Enclave → Enclave) (s : State) : State := { s with enclaves := s.enclaves.map fun (k, e) => (k, f e) }

/-- R30, R31, R46, R79-R81: two threads at different PCs in one slice, the lower in the bundle that issues; a thread at age 128 forced; the
window's credit, and the budget at and below its least. -/
theorem test_bay :
    let s : State := { two id (fun v => { v with pc := 0x50010, slot := 1, age := 128, fields := [1, 0, 0, 0, 0, 0] }) with issue := [] }
    let b : State := goes s [.planerRegroup 0]
    let t : State := goes b [.issueSelect 0]
    let debt : State := { s with clusters := [(0, { Cluster.reset with credit := -5 })] }
    let bud (s : State) (v : DWord) : Nat := (clusterOfPkg (goes s [.clbudgetWrite (.port 0) 0 v]) 0).budget
    every [arithCycles s 0 % 4 == 0, (runnableIn s 0).length == 2, (runnableIn s 0).all fun c => c.slot < 8 && c.lane < 4 && c.slice < 32,
      (bayState b 0).bundles.map (fun x => (x.pc, x.members)) == [(0x50000, [Who.thread 0])], t.issue == [[Who.thread 0]], (clusterOfPkg t 0).credit == 64 * 1024 * 22 - 1,
      (let broke := goes { s with clusters := [(0, { Cluster.reset with credit := 0 })] } [.planerRegroup 0, .issueSelect 0]
       (bayState broke 0).hold == powerWindow s + 1 && broke.issue.isEmpty && (threadOf broke 0).any (fun v => v.age == 0)),
      (threadOf t 1).any (fun v => v.age == 129) && (threadOf t 0).any (fun v => v.age == 0), (bayState (goes s [.starvationForce 0]) 0).forced == [Who.thread 1],
      (goes (goes s [.starvationForce 0]) [.planerRegroup 0, .issueSelect 0]).issue == [[Who.thread 1]], (goes { s with time := 1 } [.planerRegroup 0]).bays.isEmpty,
      (clusterOfPkg (goes debt [.powerWindow 0]) 0).credit == 64 * 1024 * 22 - 5, (clusterOfPkg (goes { debt with time := 63 } [.powerWindow 0]) 0).credit == -5,
      accepts owned (.port 0) 20 (.clbudget 0) && bud owned 20 == 20 && bud owned 28 == 28 && bud owned 19 == 22 && bud owned 29 == 22 && bud m0 20 == 22] = true := by
  decide +kernel

/-- R193, R215, R216, R220, R287: a translation kept and removed; a demand-zero page filled from the stack; 65 live lines; a forged line. -/
theorem test_translations :
    let s : State := goes m0 [.tlbMissWalk 0 1 0x50000]
    let z : State := { enc1 (fun e => { e with stack := [9] }) m0 with mem := Memory.writeBytes m0.mem 0x40030 (toBytes 8 0x22) }
    let f : State := goes z [.demandZeroFill 1 0x60000]
    let kept_ (k : Nat) : Retained := { cache := 0, bay := 0, line := k, key := 1, data := 0, valid := 1, mark := 0, page := none }
    let r : State := enc1 (fun e => { e with stack := [9] }) { m0 with retained := (List.range 65).map fun k => kept_ (0x280 + k) }
    every [(match translate m0 0 1 .read 0x50000 with | .ok p => p.pa == 0x50000 | _ => false), s.tlb.length == 1, (goes s [.tlbInvalidate 1 0x50000]).tlb.isEmpty, (goes s [.tlbInvalidate 2 0x50000]).tlb.length == 1,
      (enclaveOf z 1).any (fun e => (walk z.mem 0x60000 tableLevels e.root).getLast?.any fun w => w.demandZero), Memory.num f.mem 0x40030 8 == 64 * 9 + 7, (potOf f 0x90000).owner == 1 && (potOf f 0x90000).type == 1,
      (enclaveOf f 1).any fun e => e.stack.isEmpty, overfull r 0 0, !overfull (goes r [.retentionOverflow 0 0]) 0 0, !overfull m0 0 0,
      (sideOf (goes m0 [.integrityHalt none 0xA10 true]) 0xA10).poison == 0x29, (sideOf (goes m0 [.integrityHalt none 0xA10 false]) 0xA10).poison == 0x28] = true := by
  decide +kernel

/-- R319, R320, R337: requests in and out of their order, slots and indexes at their bounds, a session, an absent enclave. -/
theorem test_attestation :
    let s (p : Spdm) : State := { m0 with spdm := p }
    let n : Spdm := { report := none, peerAuth := 0, asked := [], peers := [], ide := [], version := false, caps := false, algs := false, session := 0, replies := [] }
    let all_ : Spdm := { n with version := true, caps := true, algs := true }
    let codes (p : Spdm) (i : Instr) (c : Nat) : Bool := (goes (s p) [i]).spdm.replies.map (·.1) == [c]
    every [codes n .getVersion 4, codes n .getCapabilities 0x7F, codes { n with version := true } .getCapabilities 0x61, codes n (.negotiateAlgorithms true ⟨true, true, true⟩) 0x7F,
      codes { all_ with algs := false } (.negotiateAlgorithms true ⟨true, true, true⟩) 0x63, codes { all_ with algs := false } (.negotiateAlgorithms true ⟨false, true, true⟩) 0x7F,
      codes { all_ with algs := false } (.negotiateAlgorithms true ⟨true, false, true⟩) 0x7F, codes { all_ with algs := false } (.negotiateAlgorithms true ⟨true, true, false⟩) 0x7F, codes n .getDigests 0x7F, codes all_ .getDigests 1,
      codes all_ (.getCertificate 1) 2, codes all_ (.getCertificate 2) 0x7F, codes all_ (.challenge 1 5) 3, codes all_ (.challenge 2 5) 0x7F, codes all_ (.getMeasurements 4 5) 0x60,
      codes all_ (.getMeasurements 0 5) 0x7F, codes all_ (.getMeasurements 5 5) 0x7F, codes all_ .keyExchange 0x64, codes { all_ with session := 1 } (.finish true) 0x65,
      codes { all_ with session := 2 } .heartbeat 0x68, codes { all_ with session := 1 } .heartbeat 0x7F, codes { all_ with session := 2, report := some 1 } (.vendorDefinedRequest 1 5 (some (7, 8))) 0x7E,
      codes { all_ with session := 2 } (.vendorDefinedRequest 1 5 (some (7, 8))) 0x7F,
      (enclaveOf (goes (s { all_ with session := 2, report := some 1 }) [.vendorDefinedRequest 1 5 (some (7, 8))]) 1).any (fun e => e.ckpt == some (7, 8)), codes n (.vendorDefinedRequest 9 5 none) 0x7E,
      codes n (.vendorDefinedRequest 1 5 none) 0x7E, codes n (.unsupportedRequest 0x55) 0x7F,
      (keyed (s all_) true).spdm.peerAuth == 1, (keyed (s all_) false).spdm.peerAuth == 0, codes { all_ with session := 1, peerAuth := 1 } (.finish true) 0x7F, codes { all_ with peerAuth := 1 } (.unsupportedRequest 0xEA) 0x6A,
      (goes { s all_ with mgmt := { m0.mgmt with state := 1 } } [.getMeasurements 4 5]).spdm.replies.isEmpty] = true := by
  decide +kernel

/-- R314-R316: a transfer within its budget, one beyond it that waits over the window, none of an enclave with no restricted page; EGCFG at
the least window and below, and against a ceiling. -/
theorem test_egress :
    let s (b : Nat) : State := { enc1 (fun e => { e with cap := some (4096 * 10 ^ 8) }) owned with
      pot := codePot.map fun (f, p) => (f, { p with rstr := true }), egress := [(1, { Egress.reset with budget := 1, win := 16, remaining := b })] }
    let e (s : State) (n : Nat) : Egress := egressOf (goes s [.egressTransfer 0 ⟨1, none⟩ n]) 0 1
    let w : Egress := egressOf (goes { s 64 with time := 0 } [.egressTransfer 0 ⟨1, none⟩ 100, .egressWindow 0 1]) 0 1
    let cfg (v : Nat) : Egress := egressOf (goes (s 0) [.egcfgWrite (.port 0) 0 1 (BitVec.ofNat 64 v)]) 0 1
    every [restricted (s 64) 1, !restricted m0 1, (e (s 64) 33).bytes == 64 && (e (s 64) 33).remaining == 0 && (e (s 64) 33).waiting == [], (e (s 64) 65).waiting == [64] && (e (s 64) 65).stalled,
      (e { s 64 with pot := [] } 65).bytes == 0, w.waiting == [] && w.bytes == 64 && w.remaining == 4032 && w.stalls == 1 && !w.stalled,
      egressOf (goes { s 64 with time := 8 } [.egressWindow 0 1]) 0 1 == egressOf (s 64) 0 1, accepts (s 0) (.port 0) 0 (.egcfg 0 1),
      (cfg (16 * 2 ^ 35 + 5 * 2 ^ 40)).next == some (5, 16), (cfg (15 * 2 ^ 35 + 5 * 2 ^ 40)).next == none, (cfg (16 * 2 ^ 35 + 65537 * 2 ^ 40)).next == none, (cfg (16 * 2 ^ 35 + 65536 * 2 ^ 40)).next == some (65536, 16)] = true := by
  decide +kernel

/-- R250, R321, R322, R352: a stream opened, fed, and closed by its third bad frame; an interface locked, run and stopped; records of a
payload that lands, of one refused, and of an interface not in RUN. -/
theorem test_streams :
    let known : State := { m0 with spdm := { m0.spdm with peers := [(2, 77)] } }
    let o : State := goes known [.dreushStreamOpen 5 1 2 3 true true]
    let five (s : State) : Option Stream := Tab.get? s.streams 5
    let bad (n : Nat) : State := (List.range n).foldl (fun s _ => ((five s).map (badFrame s 5)).getD s) o
    let data (s : State) : State := ((five s).map fun t => receiveFrame s t (.data 0x50800) [9]).getD s
    let line (img : BitVec 256) : State := ((five o).map fun t => receiveFrame (warm [0xA10] o) { t with peerImg := img } (.line 0x50800) (List.replicate 128 6)).getD o
    let lock : State := goes m0 [.tdispStateChange 7 1 .configLocked]
    let run : State := goes lock [.tdispStateChange 7 1 .run]
    let io (s : State) (e : Nat) (i : Option Nat) (va : DWord) : List Byte := Memory.bytes (goes (warm [0x50800 / 128, 0x50880 / 128] s) [.ioWriteCompletion e i va [7] 0x50880 [8]]).mem 0x50880 1
    every [(Tab.get? o.streams 5).any (fun x => x.enclave == 1 && x.peer == 2 && x.peerEnclave == 3 && x.failures == 0), (goes known [.dreushStreamOpen 5 9 2 3 true true]).streams.isEmpty, (goes known [.dreushStreamOpen 5 1 2 3 true false]).streams.isEmpty,
      Memory.bytes (data o).mem 0x50800 1 == [9], Memory.bytes (line codeEnclave.imgroot).mem 0x50870 16 == List.replicate 16 6, Memory.bytes (line (codeEnclave.imgroot + 1)).mem 0x50870 1 == [0],
      (Tab.get? lock.spdm.ide 7).isSome && (Tab.get? run.spdm.ide 7).isSome && (goes run [.tdispStateChange 7 1 .error]).spdm.ide.isEmpty, (bad 2).streams.length == 1 && (bad 3).streams.isEmpty && (bad 3).root.log.length == 1,
      Tab.get? lock.tdisp 7 == some (1, .configLocked), Tab.get? run.tdisp 7 == some (1, .run), goes m0 [.tdispStateChange 7 1 .run] == m0, Tab.get? (goes run [.tdispStateChange 7 2 .configUnlocked]).tdisp 7 == some (1, .run),
      io m0 1 none 0x50800 == [8], io m0 1 none 0x90000 == [0], io lock 1 (some 7) 0x50800 == [0], (Tab.get? (goes run [.egressTransfer 0 ⟨1, some 7⟩ 64]).spdm.ide 7).any (fun k => k.sent == 1 && k.got == 0), io m0 0 none 0x50800 == [0], io m0 0 none 0x80000 == [0],
      (match agentWriteVa m0 .io 1 0x50800 [7] with | (_, ok) => ok), !(match agentWriteVa m0 .io 1 0x90000 [7] with | (_, ok) => ok)] = true := by
  decide +kernel

/-! ### Clauses that only some states meet -/

/-- The executing thread with a load outstanding. -/
def loading (s : State) : State := { s with threads := s.threads.map fun (k, v) => (k, { v with loads := [{ writes := [] }] }) }

/-- R232, R234: what releases waits for an earlier load; the halves of a 128-bit access in the scratchpad (R228); a 128-bit access that traps; a
DPUT that moves a frame, one that its service refuses, and one on another enclave's stream (R321, R351). -/
theorem test_waits_and_halves :
    let rel : Instr := .stExt .rel .sy false .b32 { x0 with vd := 4, va := 2 }
    let wide : Instr := .stsExt .b128 { x0 with vd := 4, va := 3 }
    let read : Instr := .ldsExt .b128 { x0 with vd := 8, va := 3 }
    let half (no : Nat) : State := mt fun v => rs [(3, 64), (4, 1), (5, 2), (6, 3), (7, 4)] (inHalf (halfOf wide no (.scratch 0) 64 (toBytes 16 0xD000000000000000C)) v)
    let half8 (no : Nat) : State := mt (inHalf (halfOf read no .load 64 (toBytes 8 9)))
    let call : Instr := .sysc 6 { x0 with vd := 8, va := 2, vb := 4 }
    let rung (n : Nat) : State := { mt (fun v => rs [(2, 0x50800), (4, 7)] { v with sysc := some (.released call 7 []) }) with
      requests := List.replicate n { die := 0, io := 0, thread := 9, svc := 6, vb := 0, args := [], taken := false, sent := false } }
    let block : List Byte := [2, 0, 0x50880, 8, 0x50890, 8].flatMap (toBytes 8)
    let move (n : Nat) (code : Nat) : State := goes { mt (rs [(2, 0x50800), (4, 7)]) with mem := Memory.writeBytes m0.mem 0x50800 block, streams := [(7, { port := 0, enclave := n, peer := 2, peerEnclave := 3, peerImg := 0, key := 0, sent := 0, got := 0, failures := 0 })] }
      [.sysc 3 { x0 with vd := 8, va := 2, vb := 4 }, .syscRequestTaken 0 0, .syscReply 0 code 6 []]
    every [stalls rel (loading (mt base)), stalls (.fence .ar .dv x0) (loading m0), stalls call (loading (mt (rs [(2, 0x50800)]))), stalls (.launch 3 { x0 with vd := 8, va := 2 }) (loading (mt (rs [(2, 0x50800)]))),
      ready wide (half 0) && after wide (half 0) fun t u => scratchRead t 1 0 72 8 == toBytes 8 0xD && scratchRead t 1 0 64 8 == toBytes 8 0 && u.stores == 1,
      ready wide (half 1) && after wide (half 1) fun t _ => scratchRead t 1 0 72 8 == toBytes 8 0 && scratchRead t 1 0 64 8 == toBytes 8 0xC,
      brings read (half8 0) [9, 0, 0, 0], brings read (half8 1) [0, 0, 9, 0],
      trapsWith (.ldExt .none .cr false .b128 { x0 with vd := 8, va := 2 }) (mt (rs [(2, 0x50808)])) 0x14 0x50808,
      after call (rung 0) fun t u => t.requests.length == 1 && (match u.sysc with | some (.posted _) => true | _ => false), after call (rung 256) fun t _ => t.requests.length == 256,
      regNum (th (move 1 0)) 8 2 == 6 * 2 ^ 32, (Tab.get? (move 1 0).streams 7).any (fun m => m.sent == 1 && m.frames.map (·.1) == [0] && !m.here m0), regNum (th (move 1 1)) 8 2 == 2 + 6 * 2 ^ 32, regNum (th (move 2 0)) 8 2 == 2 + 6 * 2 ^ 32] = true := by
  decide +kernel

/-- R83, R89: the dispatcher places what is served: a fresh bent, or the resume of a saved one; a decision before its time. -/
theorem test_dispatch_decision :
    let a : State := goes (queued id []) [.headerCheck 1 3, .tokenReady 4]
    let t : State := goes a [.dispatchDecision]
    let early : State := { a with lastPlaced := 1 }
    every [a.lastPlaced ≤ dispatchCycle a, (servable a).map (fun x => (x.2.1, x.2.2.1)) == [(1, 3)], a.tickets < 2 ^ 32, (Tab.get? a.launches 4).any (fun l => l.hdr.ctxt == 0),
      t.bents.map (fun (_, b) => (b.launch, b.order)) == [(4, 0)] && (Tab.get? t.launches 4).any (fun l => l.next == 1), t.lastPlaced == dispatchCycle a + 8, (goes early [.dispatchDecision]).bents.isEmpty && dispatchCycle early < early.lastPlaced] = true := by
  decide +kernel

/-- R216, R337: a translation that a queued tenon uses; a machine whose checkpoint is to be taken. -/
theorem test_in_use :
    let used : State := { warm [] m0 with tenons := ((sent (claims 5) false).tenons) }
    let due : State := { owned with bents := [], threads := [], mgmt := { owned.mgmt with ckpt := true } }
    every [translationInUse used 1 0x50000, (goes used [.tlbInvalidate 1 0x50000]).waits == [.tlbInvalidate 1 0x50000] && (goes used [.tlbInvalidate 1 0x50000]).tlb.length == 1,
      due.mgmt.ckpt && !due.mgmt.writing && due.bents.isEmpty] = true := by
  decide +kernel

/-- R306: an exit for an event that M mode has delegated goes to the supervisor. -/
theorem test_delegated_exit :
    let out : Outside := { pc := 0x50000, mode := .hs, x := [(3, 77)], f := [], fcsr := 0, rd := 5, save := 0x1000000000000 }
    let s : State := { m0 with cur := some (.hart 0), harts := [(0, { codeHart with mode := .u, enclave := some 1, outside := some out, csr := [(csrMedeleg, 512)] })] }
    hart (.enclaveAsyncExit 0 9) s (fun _ h => h.csrOf csrScause == 9 && h.csrOf csrSepc == 0x50000 && h.mode == .hs && h.getX 3 == 77) = true := by
  decide +kernel

/-- R342, R352: a host writes the mailbox of its endpoint. -/
theorem test_mailbox (hp : Config.pcieEndpoint 1 = true) :
    ∃ t, exec (.registerWrite (.host 1) 0x100 (some 5)) owned = .next t ∧ Memory.bytes t.mailbox 0x10100 8 = toBytes 8 5 := by
  have e : isEndpoint 1 = true := by simp [isEndpoint, hp]
  refine ⟨_, rfl, ?_⟩
  show Memory.bytes (mailboxWrite owned 1 0x100 5).mailbox 0x10100 8 = _
  have l : linksUp owned = true := by decide +kernel
  unfold mailboxWrite
  rw [l, e]
  decide +kernel

/-! ### Clauses of waiting, joining, batches and caches -/

/-- R224, R485: a truss barrier of both threads, and of one with the other still to arrive. -/
theorem test_truss_barrier :
    let at_ (v : Thread) : Thread := { v with status := .tbar .pkg }
    let s : State := two at_ at_
    let t : State := tbarComplete s .pkg (th s)
    every [(Tab.values s.threads).all (fun v => tbarMember s .pkg (th s) v), !tbarWaits s .pkg (th s),
      (Tab.values t.threads).map (fun v => (v.status, v.pc, v.phaseStart)) == [(.running, 0x5000C, (th m0).phaseStart + 1), (.running, 0x5000C, (th m0).phaseStart + 2)],
      tbarComplete (two at_ id) .pkg (th s) == two at_ id] = true := by
  decide +kernel

/-- R62, R63, R431: JOINH with indices left, with a faulted one, with a fold, and with its counts sent to vz. -/
theorem test_join_outcomes :
    let join (f : Bool) : Instr := .joinh f { x0 with vd := 8, vc := if f then 20 else 1023 }
    let left : State := foreman id none
    let bad : State := foreman (fun r => { r with pool := [], unfinished := [2], faulted := [(7, kept .misalign 0, 0), (5, kept .misalign 0, 0)] }) none
    let fin : State := foreman (fun r => { r with pool := [], n := 2, red := some 0 }) none
    let filled : State := scratchWrite fin 1 0 0 (toBytes 4 0x3F800000 ++ toBytes 4 0x40000000)
    every [ready (join false) left, after (join false) left fun t u => !u.handMode && u.status == .running && u.pc == 0x5000C && regNum u 8 2 == 2 &&
        (u.raise.any fun r => r.unfinished == [2, 3] && r.pool.isEmpty) && scratchRead t 1 0 0 8 == toBytes 4 2 ++ toBytes 4 3,
      ready (.joinh false x0) left && after (.joinh false x0) left fun _ u => u.pc == 0x5000C && regNum u 8 2 == 0, !(th bad).control && !(th bad).trapActive && (headerOf bad (th bad)).any (fun h => h.handler != 0),
      after (join false) bad fun t u => u.trapActive && u.tcause == 0x1B && u.tinfo == 5 && regNum u 8 2 == 2 * 2 ^ 32 + 1 && scratchRead t 1 0 0 12 == toBytes 4 2 ++ toBytes 4 5 ++ toBytes 4 7,
      ready (join true) filled, trapFlags (th filled) (foldBuffer filled (th filled) ((th filled).raise.getD rec0)).2 == 0,
      after (join true) filled fun _ u => u.raise.isNone && !u.handMode && regNum u 20 1 == 0x40400000] = true := by
  decide +kernel

/-- R208, R209, R251: a batch with a command to come, a complete one, one awaited and one awaited with a fault; a multicast to a rank that
lives. -/
theorem test_batch_completion :
    let b : Batch := { num := 3, promise := 10, sealed := 0, armed := false }
    let wait : Instr := .cbwait false { x0 with va := 4 }
    let s (st : Status) (c : CopyState) (f : Option Kept) : State :=
      withCmds (mt fun v => rs [(4, 3)] { v with batches := [b], batchCount := 4, status := st }) [copyOf none c (some 3) f]
    let t (st : Status) (f : Option Kept) : Thread := (threadOf (settleBatch (s st .done f) 0 3) 0).getD (th m0)
    let parked : Status := .cbwait 3 wait
    let cast : CopyCmd := { copyOf none .begun none none with what := .cpy .spToRm (some 1) }
    every [settleBatch (s parked .begun none) 0 3 == s parked .begun none, (t .running none).batches.isEmpty && (t .running none).pc == 0x50000,
      (t parked none).status == .running && (t parked none).pc == 0x5000C && (t parked none).phaseStart == (th m0).phaseStart + 1,
      mayTrap (s parked .done none), (t parked (some (kept .pageProt 5))).tcause == 0x111 && (t parked (some (kept .pageProt 5))).tpc == 0x50000,
      cast.ranks == [0] && (blockOf m0 (clientOf m0 (th m0)).ticket 0).any (fun k => !k.ended),
      (settleBatch (s .running .done (some (kept .pageProt 5))) 0 3).cmds.length == 1] = true := by
  decide +kernel

/-- R190, R192, R193: a load from the ways of its bay, and from a retained copy of its phase, whatever the home holds. -/
theorem test_load_hits :
    let s : State := withBytes (mt base) [1, 2, 3, 4]
    let cold : State := withBytes (mt base) [9]
    let held (n : Nat) : BitVec 1024 := BitVec.ofNat 1024 n
    let way : State := { cold with l1 := [{ cache := cacheOf s 0, bay := threadBay s (th s), line := 0xA10, key := keyOf s 0xA10, data := held 0x55, filled := 15, dirty := [], mark := none }] }
    let kept_ (m : Word) : State := { way with retained := [{ cache := cacheOf s 0, bay := threadBay s (th s), line := 0xA10, key := keyOf s 0xA10, data := held 0x66, valid := 1, mark := m, page := none }] }
    let reads_ (s : State) (n : Nat) : Bool := match loadGlobal s (th s) 0x50800 1 .none .cr false with
      | .ok (bs, t) => bs == toBytes 1 n && t.mem == s.mem
      | _ => false
    every [reads_ cold 9, reads_ way 0x55, atOrAbove (th s).phaseStart (th s).phaseStart, reads_ (kept_ (th s).phaseStart) 0x66, reads_ (kept_ ((th s).phaseStart - 1)) 0x55] = true := by
  decide +kernel

/-- R433, R484: the LAUNCH of a thread, and the request of its SYSC, wait for one of lower `wid` in its bundle; PGALLOC at a poisoned table line halts its bent (R287); ENTER of
a descriptor on a poisoned line (R296). -/
theorem test_waits_and_poison :
    let l : Instr := .launch 3 { x0 with vd := 8, va := 2 }
    let g (v : Thread) : Thread := rs [(2, 0x50800)] v
    let s (ks : List Who) : State := { two g g with cur := some (.thread 1), bays := [(0, { bundles := [{ pc := 0x50000, members := ks, last := 0 }], forced := [], issued := 0, hold := 0 })] }
    let both : State := s [.thread 0, .thread 1]
    let page : State := { mt (rs [(2, 0x60000)]) with side := [(0x40000 / 128, { Side.clean with next := 0, count := 0, poison := 0x28 })] }
    let pa : Instr := .pgalloc { x0 with vd := 8, va := 2 }
    let c : Instr := .sysc 6 { x0 with vd := 8, va := 2, vb := 4 }
    let bad : State := { hs .hs [(3, 77), (10, 1), (11, 0x80000)] [(0x80000, 0x50100)] with side := [(0x80000 / 128, { Side.clean with next := 0, count := 0, poison := 0x28 })] }
    every [ready l both && launchBefore l both (.thread 1) (th both), (match exec l both with | .next t => t == both | _ => false), !launchBefore l (s [.thread 1]) (.thread 1) (th both),
      after c both fun t u => t.requests.isEmpty && (match u.sysc with | some (.released ..) => true | _ => false), after c (s [.thread 1]) fun t _ => t.requests.length == 1,
      ready pa page, walkPoison page 1 0x60000 == some (0x40000 / 128), (match exec pa page with | .next t => t.bents.isEmpty | _ => false),
      leaves (.encEnter 5 10 11) bad 3] = true := by
  decide +kernel

/-- R282, R285: RTE.sub to a result queue, to a feed queue with room, and after RSTACK_FILL with a misaligned address. -/
theorem test_substituting_returns :
    let sub : Instr := .rteSub { x0 with va := 4 }
    let s (r d c : Nat) : State := mt fun v => rs [(4, r)] { v with trapActive := true, trapBank := true, tpc := 0x51230, tlen := 12, tdst := BitVec.ofNat 32 d, tcause := BitVec.ofNat 32 c }
    let fed : State := { s 9 772 0x12 with bents := [(1, codeBent (some 0))], quarters := [(0, { Quarter.reset with bound := some 1 })] }
    every [ready sub (s 9 768 0x12), decide (subCheck sub (th (s 9 768 0x12)) 4 = none), reaches sub (s 9 768 0x12) 0x5123C,
      after sub (s 9 768 0x12) fun _ u => Tab.getD u.queues 0 [] == [{ value := 9, flags := 0, arrived := true }],
      (match pushCheck fed (th fed) 0 with | .free => true | _ => false), threadQuarter fed (th fed) 0 == 0, reaches sub fed 0x5123C,
      after sub fed fun t u => u.tl == 1 && (quarterOf t 0).pushes.map (fun p => (p.thread, p.word)) == [(0, 9)],
      decide (subCheck sub (th (s 0x60004 0x403FF 6)) 4 = none), ready sub (s 0x60004 0x403FF 6) && after sub (s 0x60004 0x403FF 6) fun _ u =>
        u.trapActive && u.tcause == 3 && u.tinfo == 0x60004 && u.tpc == 0x51230] = true := by
  decide +kernel

/-- R199, R308, R327-R330: a free column assigned and a busy one kept, its sectors gone; PCFG with and without a debug-enabled enclave; a fill
mask that a gate empties; a gate that leaves no way, and one of a protected way. -/
theorem test_partitions :
    let s : State := { owned with l1 := [{ cache := 0, bay := 1, line := 5, key := 1, data := 0, filled := 1, dirty := [], mark := none }] }
    let gated : State := { owned with sliceRegs := [(3, { sliceOf owned 3 with gate := 0xFF })] }
    let col (k : Nat) (v : DWord) : State := goes s [.colownWrite (.port 0) k v]
    every [accepts s (.port 0) 0x701 (.colown 1), columnBusy s 0, !columnBusy s 1, (col 0 0x701).colown.isEmpty, Tab.getD (col 1 0x7FF).colown 1 0 == 0x701 && (col 1 0x701).l1.isEmpty, (col 2 0x701).l1.length == 1,
      (goes m0 [.colownWrite (.port 0) 1 0x701]).colown.isEmpty, (goes owned [.pcfgWrite (.port 0) 0 0x10005]).pcfg.isEmpty, (goes owned [.pcfgWrite (.port 0) 1 0x10005]).pcfg == [(1, (5, true))],
      (goes owned [.pcfgWrite (.port 0) 0 5]).pcfg == [(0, (5, false))], effective gated 3 0xFF == 0, (goes gated [.wmaskWrite (.port 0) 3 2 0xFF]).sliceRegs == gated.sliceRegs,
      Tab.getD (sliceOf (goes gated [.wmaskWrite (.port 0) 3 2 0x1FF00]) 3).fill 2 0 == 0xFF00 && Tab.getD (sliceOf (goes gated [.wmaskWrite (.port 0) 3 2 0x1FF00]) 3).comp 2 false,
      (sliceOf (goes owned [.wgateWrite (.port 0) 3 0xFFFE]) 3).gate == 0xFFFE, (sliceOf (goes owned [.wgateWrite (.port 0) 3 0xFFFF]) 3).gate == 0,
      protectedWays (enc1 (fun e => { e with pways := [0] }) owned) == 0x8000 || protectedWays (enc1 (fun e => { e with pways := [0] }) owned) == 1,
      (sliceOf (goes (enc1 (fun e => { e with pways := [0] }) owned) [.wgateWrite (.port 0) 3 0x8001]) 3).gate == 0] = true := by
  decide +kernel

/-- R333-R336: tracking on marks every line of the data page; GO without a stream and with one; a marked line sent and the round ended by
its list; the final round asks the bents, waits for them, and ends with the enclave handed over. -/
theorem test_migration :
    let on : State := goes owned [.migctlEnWrite (.port 0) 1 1]
    let st : State := { on with
      streams := [(5, { port := 0, enclave := 1, peer := 2, peerEnclave := 3, peerImg := codeEnclave.imgroot, key := 0, sent := 0, got := 0, failures := 0 })]
      dirtyMaps := on.dirtyMaps.map fun d => { d with map := 4 } }
    let mig (s : State) : MigCtl := ((enclaveOf s 1).map fun e => e.mig).getD { dirty := 0, round := 9, busy := false, final := false, en := false, stage := 0, cursor := 0, out := none, changes := [] }
    let go : State := goes st [.migctlGo (.port 0) 1 1]
    let fin : State := goes st [.migctlFinal (.port 0) 1 1]
    let port : Nat × Stream := (5, { port := 0, enclave := 1, peer := 2, peerEnclave := 3, peerImg := codeEnclave.imgroot, key := 0, sent := 0, got := 0, failures := 0 })
    let e1 (s : State) : Enclave := (enclaveOf s 1).getD codeEnclave
    let steps (s : State) (n : Nat) : State := goes s (List.replicate n (.migrationRoundDone 1))
    let visited : State := steps go 2
    let done : State := steps visited 3
    let last : State := { fin with bents := [], threads := [] }
    every [(mig on).en && on.dirtyMaps.map (fun d => (d.enclave, d.frame, d.map)) == [(1, 5, BitVec.allOnes 512)], mig (goes on [.migctlGo (.port 0) 1 1]) == mig on,
      mig go == { dirty := 1, round := 0, busy := true, final := false, en := true, stage := 1, cursor := 0, out := none, changes := [] },
      visited.migrated.map (fun i => (i.stream, i.item)) == [(5, .line 0x50100 (Memory.bytes go.mem 0x50100 128))] && visited.dirtyMaps.all (fun d => d.map == 0) && (mig visited).cursor == 0x50180,
      (mig done).round == 1 && !(mig done).busy && done.migrated.map (·.item) == visited.migrated.map (·.item) ++ [.pages []] && streamOf go 1 (e1 go) == some port, nextMarked go 1 (e1 go) == some (0x50100, 0x50100 / 128) && passed go 0 1, nextMarked visited 1 (e1 visited) == none,
      (mig fin).final && (bentOf fin 1).any (fun b => b.request.isSome || b.asked), mig (goes fin [.migrationRoundDone 1]) == mig fin, bentsOfEnclave fin 1 == [1],
      (mig (steps last 1)).stage == 1, (enclaveOf (steps last 6) 1).isSome && (enclaveOf (steps last 7) 1).isNone,
      mig (goes on [.migrationRoundDone 1]) == mig on, !(mig (goes on [.migctlEnWrite (.port 0) 1 0])).en && (goes on [.migctlEnWrite (.port 0) 1 0]).dirtyMaps.isEmpty,
      accepts owned (.port 0) 1 (.migctl 1), accepts on (.port 0) 3 (.migctl 1), accepts on (.port 0) 5 (.migctl 1)] = true := by
  decide +kernel

/-- R337: a checkpoint asked by the port that may: dispatch stops and the bents are asked; while one is left nothing is taken; its end when every
byte has passed. -/
theorem test_checkpoint :
    let s : State := enc1 (fun e => { e with ckpt := some (7, 1), kq := [(3, KickQueue.reset)] }) { owned with images := [] }
    let asked : State := goes s [.checkpoint (.port 0)]
    let writing : State := { s with mgmt := { s.mgmt with ckpt := true, writing := true } }
    every [asked.mgmt.ckpt && (servable asked).isEmpty && (bentOf asked 1).any (fun b => b.request.isSome || b.asked), (goes asked [.checkpoint (.hart 0)]).images.isEmpty, !(goes m0 [.checkpoint (.port 0)]).mgmt.ckpt, !(goes s [.checkpoint (.port 1)]).mgmt.ckpt,
      !(goes writing [.checkpoint (.hart 0)]).mgmt.ckpt && !(goes writing [.checkpoint (.hart 0)]).mgmt.writing] = true := by
  decide +kernel

/-- R338, R339: an image whose tag verifies is restored at its epoch, and refused below the minimum. -/
theorem test_checkpoint_restore (hv : ∀ (m : Image) k, m.verifies k = true) :
    let image : Image := { enclave := 1, epoch := 1, pages := [], tables := [], saves := [], launches := [], queues := [(3, KickQueue.reset)], sealed := [], tag := 0 }
    let again (low : Nat) : State := enc1 (fun e => { e with ckpt := some (7, low), kq := [] }) { m0 with bents := [], threads := [], launches := [], images := [image] }
    exec (.checkpointRestore 0) (again 1) = .next (restoreImage (again 1) 1 image) ∧ exec (.checkpointRestore 0) (again 2) = .next (again 2) := by
  intro image again
  have e (low : Nat) : (again low).images[0]? = some image := rfl
  have f (low : Nat) (p : Nat × Enclave → Bool) : (again low).enclaves.find? p = if p (1, { codeEnclave with ckpt := some (7, low), kq := [] }) then some (1, { codeEnclave with ckpt := some (7, low), kq := [] }) else none := by
    show List.find? p [(1, _)] = _
    rw [List.find?_cons]; split <;> simp_all
  constructor
  · show execCheckpointRestore 0 (again 1) = _
    unfold execCheckpointRestore
    simp only [e, f, hv]
    rfl
  · show execCheckpointRestore 0 (again 2) = _
    unfold execCheckpointRestore
    simp only [e, f, hv]
    rfl

/-- R338: what the restore leaves: the queues of the image and the minimum one above its epoch. -/
theorem test_checkpoint_restored :
    let image : Image := { enclave := 1, epoch := 1, pages := [], tables := [], saves := [], launches := [], queues := [(3, KickQueue.reset)], sealed := [], tag := 0 }
    let s : State := enc1 (fun e => { e with ckpt := some (7, 1), kq := [] }) { m0 with bents := [], threads := [], launches := [] }
    (enclaveOf (restoreImage s 1 image) 1).any (fun e => e.ckpt == some (7, 2) && e.kq.length == 1) = true := by
  decide +kernel

/-- R33, R194, R345, R354, R355: writes by the holder of MGSEM, by the other port, by a hart in each mode and in FAILED; MGSEM's take, tie and
time; the error queue's registers. -/
theorem test_management :
    let h (md : HMode) : State := { m0 with harts := [(0, { codeHart with mode := md })] }
    let sem (o l t : Nat) : State := { m0 with time := 8 * t, mgmt := { m0.mgmt with semOwner := o, semLast := l, semTick := some l } }
    let take (s : State) (p : Nat) (v : DWord) : Nat := (goes s [.mgsemWrite p v]).mgmt.semOwner
    every [devReg 0x8106000020 == some .pkid, devReg 0x8106000028 == none, devReg 0x8100000044 == none, (goes owned [.registerWrite (.port 0) 0x8106000020 (some 0x12345)]).mgmt.pkid == 0x2345, (goes owned [.pkidWrite (.port 1) 5]).mgmt.pkid == 0,
      (let t := goes owned [.registerWrite (.port 0) 0x8106000028 (some 5)]
       t.mgmt == { owned.mgmt with answers := [(0, some 0)], semLast := governorTicks owned 0 } && t.root.log.map (·.kind) == [7] && t.root.log.map (·.actor) == [1]), (goes m0 [.registerWrite (.port 0) 0x8106000028 (some 5)]) == { m0 with mgmt := { m0.mgmt with answers := [(0, none)] } },
      (goes { owned with mgmt := { owned.mgmt with pkid := 6 } } [.registerWrite (.port 0) 0x8106000020 none]).mgmt.answers == [(0, some 6)], accepts (h .hs) (.hart 0) 5 .pkid && accepts (h .m) (.hart 0) 5 .pkid && !accepts (h .s) (.hart 0) 5 .pkid && !accepts (h .hs) (.hart 0) 1 .mgsem,
      accepts { owned with mgmt := { owned.mgmt with state := stFailed } } (.port 0) 2 .pkctl && !accepts { owned with mgmt := { owned.mgmt with state := stFailed } } (.port 0) 1 .pkctl,
      take (sem 0 0 0) 1 1 == 2, take (sem 2 5 5) 0 1 == 1, take (sem 2 5 6) 0 1 == 2, take (sem 1 5 5) 1 1 == 1, take (sem 1 5 5) 0 0 == 0, take (sem 1 5 5) 1 0 == 1,
      (goes (sem 1 0 (2 ^ 28 - 1)) [.mgsemTimeout]).mgmt.semOwner == 1, (goes (sem 1 0 (2 ^ 28)) [.mgsemTimeout]).mgmt.semOwner == 0,
      (clusterOfPkg (goes owned [.clmodeWrite (.port 0) 1 1]) 1).fused && !(clusterOfPkg (goes owned [.clmodeWrite (.port 0) 0 1]) 0).fused, (clusterOfPkg (goes owned [.coresvcWrite (.port 0) 1 0x71234]) 1).csvc == 0x1234 && (clusterOfPkg (goes owned [.coresvcWrite (.port 0) 1 0x71234]) 1).qsvc == 7,
      (enclaveOf (goes m0 [.eqcfgWrite 1 0x70801]) 1).any (fun e => e.eq.ring == 0x70 && e.eq.logd == 8 && e.eq.en), (enclaveOf (goes (enc1 (fun e => { e with eq := { e.eq with tail := 5 } }) m0) [.eqdoorHeadWrite 1 6]) 1).any (fun e => e.eq.head == 0),
      (enclaveOf (goes (enc1 (fun e => { e with eq := { e.eq with tail := 5 } }) m0) [.eqdoorHeadWrite 1 5]) 1).any fun e => e.eq.head == 5] = true := by
  decide +kernel

/-- R34, R325, R343, R356, R358: each reset, the bring-up stages in turn and out of turn, and the thresholds of heat. -/
theorem test_resets :
    let at_ (n : Nat) : State := { m0 with mgmt := { owned.mgmt with state := n } }
    let st (s : State) : Nat := s.mgmt.state
    let heat (n : Nat) (t : Bool) : Tstat := tstatOf (goes { m0 with tstat := [(2, { temp := 0, throt := t, trip := false })] } [.thermalThrottle 2 n]) 2
    every [st (goes m0 [.powerOn]) == 0 && (goes m0 [.powerOn]).threads.isEmpty, st (goes owned [.pkctlWarmReset (.port 0)]) == 0 && (goes owned [.pkctlWarmReset (.port 0)]).mgmt.lastrst == 1, st (goes (at_ 3) [.pkctlWarmReset (.port 0)]) == 3,
      st (goes (at_ 5) [.pkctlWarmReset (.port 0)]) == 5, st (goes (at_ 5) [.pkctlColdReset (.port 0)]) == 0, st (goes m0 [.watchdogReset]) == 0 && (goes m0 [.watchdogReset]).mgmt.lastrst == 2, st (goes (at_ 5) [.watchdogReset]) == 5,
      st (goes State.reset [.rootbootDone]) == 1, st (goes { State.reset with mgmt := { State.reset.mgmt with resetKind := 1 } } [.rootbootDone]) == 2, st (goes (at_ 1) [.phyTrainingDone]) == 2, st (goes (at_ 2) [.phyTrainingDone]) == 2,
      st (goes (at_ 2) [.scrub]) == 3 && (goes (at_ 2) [.scrub]).mem.isEmpty && (goes (at_ 2) [.scrub]).root.log.map (·.kind) == [9], st (goes (at_ 3) [.scrub]) == 3, st (goes (at_ 3) [.linksDone]) == 4 && (goes (at_ 3) [.linksDone]).harts.length == 128,
      st (goes m0 [.packageFailure 7]) == 5 && (goes m0 [.packageFailure 7]).enclaves.isEmpty, (heat 100 false).throt, !(heat 99 false).throt, (heat 95 true).throt, !(heat 94 true).throt, (heat 114 false).temp == 114,
      st (goes m0 [.thermalTrip 2 115]) == 5 && (tstatOf (goes m0 [.thermalTrip 2 115]) 2).trip, st (goes m0 [.thermalTrip 2 114]) == 4] = true := by
  decide +kernel

/-- R149, R340-R345, R357: a trigger taken, one dropped, a pair latched; a hart's timer, message, fence, loads in and out of memory, store, and
cache operation. -/
theorem test_plumb_and_harts :
    let s : State := { m0 with mgmt := { m0.mgmt with triggers := 1, plumb := 0xFFFF } }
    let p : State := goes s [.plumbTrigger]
    let busy : State := { p with mgmt := { p.mgmt with triggers := 1, unacked := [.governor 1] } }
    let h : State := { hs .hs [(10, 7)] [(0x80000, 0x1122334455667788)] with time := 80 }
    let does (op : SillOp) (q : State → Hart → Bool) : Bool := hart (.sillCoreInstruction 0 op) h q
    every [p.mgmt.plumb == 0 && p.mgmt.fired == 1 && p.mgmt.triggers == 0 && p.mgmt.unacked.contains (.governor 1), (goes busy [.plumbTrigger]).mgmt.dropped == 1 && (goes busy [.plumbTrigger]).mgmt.plumb == 0,
      Tab.getD (goes busy [.snapshotLatch (.governor 1)]).mgmt.snaps 16385 (9, 9) == (0, 0) && (goes busy [.snapshotLatch (.governor 1)]).mgmt.unacked.isEmpty, goes busy [.snapshotLatch (.governor 0)] == busy, (goes m0 [.plumbTrigger]) == m0,
      accepts owned (.port 0) 4 .pkctl && (goes owned [.pkctlPlumb (.port 0)]).mgmt.triggers == 1, (traceRecord (withDebug m0) 1 5).mgmt.triggers == 1, (traceRecord (withDebug m0) 1 5).trace == [{ world := 1, content := 5 }], traceRecord (withDebug m0) 0 5 == withDebug m0, traceRecord m0 1 5 == m0,
      hart (.mtimecmpInterrupt 0) h (fun _ x => x.mtip), hart (.deviceMsi 0 5) h (fun _ x => x.msi == [5]), does (.fence 3 3) (fun _ x => x.pc == 0x50004),
      does (.load 6 0x80004 4 true false) (fun _ x => x.getX 6 == 0x11223344 && x.pc == 0x50004), does (.load 6 0x80000 1 true false) (fun _ x => x.getX 6 == 0xFFFFFFFFFFFFFF88), does (.load 6 0x80000 1 false false) (fun _ x => x.getX 6 == 0x88),
      does (.store 0x80010 2 0xABCDEF false) (fun t x => Memory.num t.mem 0x80010 4 == 0xCDEF && x.pc == 0x50004), does (.load 6 0x50800 8 false false) (fun _ x => x.cause == 5 && x.tval == 0x50800),
      does (.store 0x50800 8 1 false) (fun _ x => x.cause == 7), does (.illegal 0x57) (fun _ x => x.cause == 2 && x.tval == 0x57 && x.mode == .m), does (.cbo .clean 0x80000) (fun _ x => x.pc == 0x50004),
      deviceOwned h 0x80010 2, (hartRead { h with harts := [(0, { codeHart with mode := .u, enclave := some 1 })], mem := Memory.writeBytes m0.mem 0x40030 (toBytes 8 (5 * 64 + 3 + 2 ^ 38)) } 0 { codeHart with mode := .u, enclave := some 1 } 0x60000 4).2 matches .error _] = true := by
  decide +kernel

/-- R340, R342: a step of a hart at words of RISC-V: `time`, mhartid, CBIE written 01 and 11, ECALL and MRET, AMOADD.W, LR.W. -/
theorem test_hart_words :
    let at_ (w : Nat) (f : Hart → Hart) : State := { warm [0x80000 / 128, 0x90000 / 128] (hs .m [] [(0x80000, 0xFFFFFFFF00000005), (0x90000, w)]) with
      time := 80, cur := none, pending := [], issue := [[Who.hart 3]], harts := [(3, f { codeHart with mode := .m, pc := 0x90000, x := [(6, 3), (10, 0x80000)], tvec := 0x400, epc := 0x500 })] }
    let does (w : Nat) (f : Hart → Hart) (p : State → Hart → Bool) : Bool := match step (at_ w f) with
      | .next t => (hartOf t 3).any (p t)
      | _ => false
    every [does 0xC01022F3 id fun _ h => h.getX 5 == 10 && h.pc == 0x90004, does 0xF14022F3 id fun _ h => h.getX 5 == 3, does 0xF14312F3 id fun _ h => h.cause == 2 && h.epc == 0x90000,
      does 0x30A85073 id fun _ h => Tab.getD h.csr csrMenvcfg 0 == 16, does 0x30A31073 (fun h => { h with x := [(6, 0x30)] }) fun _ h => Tab.getD h.csr csrMenvcfg 0 == 0,
      does 0x00000073 (fun h => { h with mode := .u }) fun _ h => h.cause == 8 && h.mode == .m && h.pc == 0x400 && h.prev == .u && h.epc == 0x90000, does 0x30200073 (fun h => { h with prev := .s }) fun _ h => h.mode == .s && h.pc == 0x500,
      does 0x006522AF id fun t h => h.getX 5 == 5 && Memory.num t.mem 0x80000 8 == 0xFFFFFFFF00000008, does 0x100522AF id fun t h => t.reservations.length == 1 && h.getX 5 == 5] = true := by
  decide +kernel

/-- R340, R342: CSRRS of mip leaves the interrupt file's bit alone, a write of minstret is not counted, mvip shows mip's bits, an odd siselect
names nothing, identity 0 stays disabled; of two interrupts the one for M mode comes first; hvictl's interrupt of a virtual machine. -/
theorem test_interrupt_files :
    let at_ (w : Nat) (f : Hart → Hart) : State := { warm [0x80000 / 128, 0x90000 / 128] (hs .m [] [(0x90000, w)]) with
      cur := none, pending := [], issue := [[Who.hart 3]], harts := [(3, f { codeHart with mode := .m, pc := 0x90000, x := [(6, 2)], tvec := 0x400 })] }
    let does (w : Nat) (f : Hart → Hart) (p : Hart → Bool) : Bool := match step (at_ w f) with
      | .next t => (hartOf t 3).any p
      | _ => false
    let file (h : Hart) : Hart := ((h.setCsr (fileReg false selDelivery) 1).setCsr (fileReg false selEnable) 8).setMsis false [3]
    let both : Hart := { ((file codeHart).setCsr csrMie 0x220).setCsr csrMideleg 0x200 with mode := .u }
    let guest : Hart := { codeHart.setCsr csrHvictl (2 ^ 30 + 13 * 2 ^ 16 + 5) with mode := .vu }
    every [does 0x344322F3 file fun h => h.csrOf csrMip == 2 && h.getX 5 == 0x200, does 0xB0231073 id fun h => h.csrOf csrMinstret == 2,
      does 0x309022F3 (fun h => h.setCsr csrMip 0x22) fun h => h.getX 5 == 0x22, does 0x151022F3 (fun h => h.setCsr 0x150 0x81) fun h => h.cause == 2,
      does 0x15131073 (fun h => { h.setCsr 0x150 0xC0 with x := [(6, 3)] }) fun h => h.csrOf (fileReg false selEnable) == 2,
      (both.setCsr csrMip 0x20).interrupt == some (2 ^ 63 + 5), both.interrupt == some (2 ^ 63 + 9), guest.interrupt == some (causeInjected 13),
      (guest.take (causeInjected 13) 0).csrOf csrVscause == 2 ^ 63 + 13 && (guest.take (causeInjected 13) 0).mode == .vs] = true := by
  decide +kernel

/-! ### Encodings, the step, reset, the invariant -/

/-- R46, R79, R123, R295: an instruction of a thread and of a hart run by the step, the end of a bundle, a trap in a fetch. -/
theorem test_step :
    let s : State := State.reset.withFetchWord 32 0x0281040C
    let e : State := State.reset.withFetchWord 32 0x0005850B
    let runs (s : State) (p : State → Bool) : Bool := match step s with
      | .next t => p t
      | _ => false
    let trap : State := { s with threads := s.threads.map fun (k, v) => (k, { v with pc := 0x90000 }) }
    every [s.pending.isEmpty && s.issue == [[Who.thread 0]], (match fetchInsn s (th { s with cur := some (.thread 0) }) 0x50000 with | .ok ws => ws.headD 0 == 0x0281040C | _ => false), runs s fun t => (threadOf t 0).any fun v => v.pc == 0x50004 && v.status == .running,
      e.issue == [[Who.hart 0]] && deviceOwned e 0x50000 4, runs e fun t => (hartOf t 0).any fun h => h.pc == 0x50004 && h.getX 10 == 2 ^ 63 + 2, runs { s with issue := [[]] } fun t => t.issue.isEmpty, runs (State.reset.withFetchWord 32 0x83600000) fun t => (threadOf t 0).any fun v => v.tcause == 1 && v.trapActive,
      runs trap fun t => (threadOf t 0).any fun v => v.tcause == 0x10 && v.tinfo == 0x90000 && v.tpc == 0x90000, !atMeet (th { s with cur := some (.thread 0) })] = true := by
  decide +kernel

/-- R46: an event that is due runs ahead of what no bundle at issue holds any more. -/
theorem test_pending_event :
    let s : State := { State.reset.withFetchWord 32 0x0281040C with pending := [.pkctlPlumb (.hart 0)], harts := [(0, { codeHart with mode := .hs })] }
    (match step { s with issue := [] } with
      | .next t => t.mgmt.triggers == 1 && t.issue.isEmpty
      | _ => false) = true := by
  decide +kernel

/-- Witness of `DecodeEncodeRoundTrip`: a well-formed extended instruction of three words and a literal of two, and an enclave word. -/
theorem test_round_trip :
    let i : Instr := .ffmaExt .f32 { x0 with vd := 20, va := 21, vc := 22, lit := some 0x3F000000 }
    every [i.wellFormed, encode i != [], decide (decode (encode i ++ [1, 2]) = .ok i), encode (.encExit) == [0x0600000B], decodeEnc 0x0600000B == some .encExit] = true := by
  decide +kernel

/-- Witness of `StepKeepsCanonical`: reset and the placed machine. -/
theorem test_canonical : Canonical State.reset ∧ (State.reset.withFetchWord 32 0).threads.Pairwise (fun a b => a.1 < b.1) ∧
    Memory.wf (State.reset.withFetchWord 32 0x0281040C).mem = true := by
  refine ⟨?_, ?_, ?_⟩
  · unfold Canonical; decide +kernel
  · decide +kernel
  · decide +kernel


end Sys2Proof.Tests
end

/-! SUPPORT. An instruction that is not predicated (R13): what `skipped` leaves in a context, and that every predicable instruction
runs through `run`. -/

namespace Sys2Proof.Machine

open Sys2Proof.Safety Sys2Proof.Claims

/-! ### Registers zeroed -/

theorem regVal_eq_zero_of_not_isReg {k : Nat} (v : Thread) (h : ¬ isReg k) : regVal v k = 0 := by
  unfold isReg at h
  unfold regVal
  rw [if_neg (by omega), if_neg (by omega)]

theorem regVal_setReg_zero (v : Thread) (n : Nat) : regVal (setReg v n 0) n = 0 := by
  by_cases hn : isReg n
  · rw [regVal_setReg v n n 0 hn, if_pos rfl]
  · exact regVal_eq_zero_of_not_isReg _ hn

theorem setReg_of_not_isReg (v : Thread) {n : Nat} (x : Word) (h : ¬ isReg n) : setReg v n x = v := by
  unfold isReg at h
  unfold setReg
  rw [if_neg (by omega), if_neg (by omega)]

/-- Zero written to a run of registers reads zero all along the run, whatever the run names. -/
theorem regVal_setRegs_zero (w : Nat) : ∀ (v : Thread) (n k : Nat), n ≤ k → k < n + w → regVal (setRegs v n w 0) k = 0 := by
  induction w with
  | zero => intro v n k h1 h2; omega
  | succ w ih =>
    intro v n k h1 h2
    unfold setRegs
    split
    · rename_i hz
      exact regVal_eq_zero_of_not_isReg _ (by unfold isReg; unfold vzero at hz; omega)
    · rcases Nat.eq_or_lt_of_le h1 with rfl | hlt
      · rw [regVal_setRegs_out _ _ _ _ _ (by omega)]
        exact regVal_setReg_zero v n
      · rw [Nat.zero_div]
        exact ih _ _ _ hlt (by omega)

/-- A run of registers that all read zero is the number zero. -/
theorem foldr_regVal_eq_zero {v : Thread} (w : Nat) : ∀ n, (∀ k, n ≤ k → k < n + w → regVal v k = 0) →
    ((upFrom n w).map fun k => (regVal v k).toNat).foldr (fun x r => x + 2 ^ 32 * r) 0 = 0 := by
  induction w with
  | zero => intro n _; rfl
  | succ w ih =>
    intro n h
    have hrest := ih (n + 1) fun k h1 h2 => h k (by omega) (by omega)
    rw [upFrom, List.map_cons, List.foldr_cons, hrest, h n (by omega) (by omega)]
    rfl

theorem regNum_setRegs_zero (v : Thread) (n w : Nat) : regNum (setRegs v n w 0) n w = 0 := by
  unfold regNum
  split
  · rfl
  · exact foldr_regVal_eq_zero w n (regVal_setRegs_zero w v n)

/-! ### Masks cleared -/

theorem maskBit_setMask_false (v : Thread) (m k : Nat) (hk : k ≠ 0) :
    maskBit (setMask v m false) k = if m = k then false else maskBit v k := by
  by_cases h : m = k
  · subst h; simp [maskBit, setMask, hk]
  · have hb : v.masks.getLsbD k = true → k < 16 := BitVec.lt_of_getLsbD
    cases hm : v.masks.getLsbD k <;> simp_all [maskBit, setMask, BitVec.getLsbD_twoPow, Ne.symm h]

/-- A thread with the mask an instruction names cleared, when it names one. -/
def clearMask (i : Instr) (v : Thread) : Thread := i.maskDest.elim v fun m => setMask v m false

theorem clearMask_eq (i : Instr) (v : Thread) : clearMask i v = { v with masks := (clearMask i v).masks } := by
  unfold clearMask
  cases i.maskDest <;> rfl

theorem clearMask_of_none {i : Instr} (v : Thread) (h : i.maskDest = none) : clearMask i v = v := by simp [clearMask, h]

theorem maskBit_clearMask (i : Instr) (v : Thread) (k : Nat) (hk : k ≠ 0) :
    maskBit (clearMask i v) k = if i.maskDest = some k then false else maskBit v k := by
  unfold clearMask
  cases h : i.maskDest with
  | none => simp
  | some m => simp [maskBit_setMask_false v m k hk]

/-! ### What `skipped` does -/

theorem skipped_of_merge {i : Instr} (v : Thread) (h : i.pred.2.2 = false) : skipped i v = { v with pc := v.next i } := by
  simp [skipped, h]

/-- A thread with the registers of an instruction's destination and the mask it writes zeroed. -/
def zeroed (i : Instr) (v : Thread) : Thread := clearMask i (setRegs v (destReg i) (destWidth i) 0)

/-- Under zeroing the destination's registers and the mask are zeroed. The destination of SFQ and IDIVQ is a queue, which no register
write reaches. -/
theorem skipped_of_zeroing {i : Instr} (v : Thread) (hw : i.wellFormed = true) (h : i.pred.2.2 = true) :
    skipped i v = { zeroed i v with pc := (zeroed i v).next i } := by
  unfold skipped
  rw [if_pos h]
  unfold zeroed clearMask
  cases ho : i.operands.head? with
  | none => cases i.maskDest <;> simp only [Instr.dest, ho, destReg, destWidth, setRegs, Option.map_none, Option.getD_none] <;> rfl
  | some o =>
    obtain ⟨r, f⟩ := o
    cases r with
    | queue =>
      have hq := wellFormed_admits hw _ (List.mem_of_head? ho)
      simp only [Role.admits, Bool.and_eq_true, decide_eq_true_eq] at hq
      have hf : ¬ isReg f.toNat := by unfold isReg; omega
      have hz : f.toNat ≠ vzero := by unfold vzero; omega
      have hlow : ¬ f.toNat < 768 := by omega
      cases i.maskDest <;>
        simp only [Instr.dest, ho, destReg, destWidth, Option.map_some, Option.getD_some, setRegs, if_neg hz,
          setReg_of_not_isReg v _ hf, if_neg hlow] <;> rfl
    | _ =>
      cases i.maskDest <;>
        simp only [Instr.dest, ho, destReg, destWidth, setRegs, Option.map_some, Option.getD_some, Option.map_none,
          Option.getD_none] <;> rfl

/-- Zeroing changes registers and masks alone. -/
theorem zeroed_eq (i : Instr) (v : Thread) :
    ∃ R H, zeroed i v = { v with regs := R, hctx := { v.hctx with h := H }, masks := (zeroed i v).masks } := by
  obtain ⟨R, H, hS⟩ := setRegs_eq (destWidth i) v (destReg i) 0
  refine ⟨R, H, ?_⟩
  unfold zeroed
  rw [clearMask_eq, hS]

theorem clearMask_regs (i : Instr) (v : Thread) : (clearMask i v).regs = v.regs := by rw [clearMask_eq]

theorem clearMask_h (i : Instr) (v : Thread) : (clearMask i v).hctx.h = v.hctx.h := by rw [clearMask_eq]

theorem regNum_zeroed (i : Instr) (v : Thread) : regNum (zeroed i v) (destReg i) (destWidth i) = 0 :=
  (regNum_congr (clearMask_regs i _) (clearMask_h i _) _ _).trans (regNum_setRegs_zero v _ _)

theorem sameRegsBut_zeroed (i : Instr) (v : Thread) : SameRegsBut v (zeroed i v) (destReg i) (destWidth i) := fun k hk =>
  (regVal_congr (clearMask_regs i _) (clearMask_h i _) k).trans (regVal_setRegs_out _ v _ 0 k hk)

theorem maskBit_zeroed (i : Instr) (v : Thread) {m : Nat} (hm : m ≠ 0) :
    maskBit (zeroed i v) m = if i.maskDest = some m then false else maskBit v m := by
  obtain ⟨R, H, hS⟩ := setRegs_eq (destWidth i) v (destReg i) 0
  unfold zeroed
  rw [maskBit_clearMask i _ m hm, hS]
  rfl

/-! ### Hands -/

/-- In hand mode an instruction that passes its context checks writes no mask (R58). -/
theorem maskDest_none_of_hand {i : Instr} {v : Thread} (hc : contextCheck i v = none) (hh : v.handMode = true) :
    i.maskDest = none := by
  unfold contextCheck at hc
  split at hc
  · cases hc
  · split at hc
    · cases hc
    · rename_i hbad
      simp only [hh, Bool.true_and, Bool.or_eq_true, not_or, Option.not_isSome_iff_eq_none] at hbad
      exact hbad.2

theorem admitted_of_contextCheck {i : Instr} {v : Thread} (hc : contextCheck i v = none) : i.admitted v = true := by
  unfold contextCheck at hc
  split at hc
  · cases hc
  · rename_i h; simpa using h

/-- The instructions whose destination is a run of registers, TNX and RAISE, run neither in hand mode nor on a control core. -/
theorem not_run_dest_of_hand {i : Instr} {v : Thread} {n : Nat} {z : Bool} {f : Reg} (ha : i.admitted v = true)
    (hh : v.handMode = true) : i.operands.head? ≠ some (.run n z, f) := by
  intro ho
  have hout : i.inHand = false ∧ i.onControl = false := by
    cases i <;> simp [Instr.operands, Instr.form?, Instr.baseOperands, Form.operands, formInt, formInt1, formFlt] at ho
    case tnx | raise => exact ⟨rfl, rfl⟩
    case icmp c m md t x | fcmp c m md t x | mmov m md x => cases m <;> simp at ho
  cases hv : v.control <;> simp [Instr.admitted, hv, hh, hout] at ha

/-- JOINH takes no predicate (R430). -/
theorem predicated_joinh {fold : Bool} {x : Ext} (hw : (Instr.joinh fold x).wellFormed = true) (v : Thread) :
    predicated (.joinh fold x) v = true := by
  have hp : PredUse.ok .none x = true := by
    simp only [Instr.wellFormed, Instr.form?, Form.ok, Bool.and_eq_true] at hw
    exact hw.2.1.2
  simp only [PredUse.ok, Bool.and_eq_true, beq_iff_eq, Bool.not_eq_true'] at hp
  obtain ⟨⟨hm, hi⟩, -⟩ := hp
  simp [predicated, Instr.pred, Instr.form?, hm, hi, maskBit]

/-- In hand mode a destination is no v register, JOINH's aside (R58). -/
theorem hand_destReg {i : Instr} {v : Thread} (hc : contextCheck i v = none) (hh : v.handMode = true)
    (hj : ∀ fold x, i ≠ .joinh fold x) : destWidth i = 0 ∨ 768 ≤ destReg i := by
  cases ho : i.operands.head? with
  | none => left; simp [destWidth, Instr.dest, ho]
  | some o =>
    obtain ⟨r, f⟩ := o
    have hmem : (r, f) ∈ i.operands := List.mem_of_head? ho
    cases r with
    | dst | queue | hand =>
      right
      have h := hand_dest hc hh hmem rfl hj
      simpa [destReg, Instr.dest, ho] using h
    | run => exact absurd ho (not_run_dest_of_hand (admitted_of_contextCheck hc) hh)
    | _ => left; simp [destWidth, Instr.dest, ho]

/-- In hand mode zeroing writes h registers alone. -/
theorem zeroed_of_hand {i : Instr} {v : Thread} (hc : contextCheck i v = none) (hh : v.handMode = true)
    (hj : ∀ fold x, i ≠ .joinh fold x) : ∃ H, zeroed i v = { v with hctx := { v.hctx with h := H } } := by
  have hregs : (setRegs v (destReg i) (destWidth i) 0).regs = v.regs := by
    rcases hand_destReg hc hh hj with h | h
    · rw [h]; rfl
    · exact setRegs_regs _ _ _ _ h
  obtain ⟨R, H, hS⟩ := setRegs_eq (destWidth i) v (destReg i) 0
  rw [hS] at hregs
  refine ⟨H, ?_⟩
  rw [zeroed, clearMask_of_none _ (maskDest_none_of_hand hc hh), hS, show R = v.regs from hregs]

/-- A view put back reads as it was put, but for the raise record, which holds a hand's part: in a thread whatever was changed, in a hand
what is its own (R58). -/
theorem viewOf_putView {s : State} {w : Who} {v u : Thread} (hv : viewOf s w = some v)
    (hu : ∀ t h, w = .hand t h → u = { v with
      hctx := { u.hctx with no := v.hctx.no, phase := v.hctx.phase }, pc := u.pc, queues := u.queues, loads := u.loads,
      fpsr := u.fpsr }) :
    ∃ r, viewOf (putView s w u) w = some { u with raise := r } ∧ ∀ t, w = .thread t → r = u.raise := by
  cases w with
  | thread t => exact ⟨u.raise, viewOf_putView_thread s t u, fun _ _ => rfl⟩
  | hand t h =>
    obtain ⟨f, ra, x, hf, hra, hx, rfl⟩ := viewOf_hand hv
    have hu := hu t h rfl
    have hno : u.hctx.no = x.ctx.no := by rw [hu]; rfl
    have hra' : u.raise = some ra := by rw [hu]; exact hra
    refine ⟨(putHand f u h).raise, (viewOf_putView_hand hf hx hno hra').trans ?_, fun t h => by cases h⟩
    rw [hu]
    rfl
  | hart n => exact absurd hv (by simp [viewOf])

/-! ### An instruction that is not predicated -/

/-- Every predicable instruction runs through `run`. -/
theorem exec_eq_run_of_predicable {i : Instr} (s : State) (hp : predicable i = true) : ∃ body, exec i s = run i s body := by
  cases i <;> simp [predicable, Instr.form?, Instr.baseOperands] at hp
  case icmp c m md t x | fcmp c m md t x | mmov m md x => cases m <;> exact ⟨_, rfl⟩
  all_goals exact ⟨_, rfl⟩

/-- An instruction that passes its context checks and is not predicated is skipped. -/
theorem run_of_not_predicated {i : Instr} {s : State} {w : Who} {v : Thread} (body : Who → Thread → Eff) (hw : s.cur = some w)
    (hv : viewOf s w = some v) (hc : contextCheck i v = none) (hp : predicated i v = false) :
    run i s body = .next (putView s w (skipped i v)) := by
  simp [run, runAny, hw, hv, hc, hp, settleEff]

/-- What `skipped` leaves: the PC past the instruction, and under zeroing the destination and the mask zeroed. -/
theorem skipped_eq {i : Instr} (v : Thread) (hw : i.wellFormed = true) :
    skipped i v = { (if i.pred.2.2 then zeroed i v else v) with pc := v.next i } := by
  cases hz : i.pred.2.2 with
  | false => exact skipped_of_merge v hz
  | true =>
    obtain ⟨R, H, hS⟩ := zeroed_eq i v
    rw [skipped_of_zeroing v hw hz, if_pos rfl, hS]
    rfl

theorem skipped_regs (i : Instr) (v : Thread) (hw : i.wellFormed = true) :
    (skipped i v).regs = (if i.pred.2.2 then zeroed i v else v).regs ∧
      (skipped i v).hctx.h = (if i.pred.2.2 then zeroed i v else v).hctx.h := by
  rw [skipped_eq v hw]
  exact ⟨rfl, rfl⟩

theorem regNum_skipped {i : Instr} (v : Thread) (hw : i.wellFormed = true) :
    regNum (skipped i v) (destReg i) (destWidth i) = if i.pred.2.2 then 0 else regNum v (destReg i) (destWidth i) := by
  obtain ⟨hr, hh⟩ := skipped_regs i v hw
  rw [regNum_congr hr hh]
  split
  · exact regNum_zeroed i v
  · rfl

theorem sameRegsBut_skipped {i : Instr} (v : Thread) (hw : i.wellFormed = true) :
    SameRegsBut v (skipped i v) (destReg i) (destWidth i) := by
  intro k hk
  obtain ⟨hr, hh⟩ := skipped_regs i v hw
  rw [regVal_congr hr hh]
  split
  · exact sameRegsBut_zeroed i v k hk
  · rfl

theorem maskBit_skipped {i : Instr} (v : Thread) (hw : i.wellFormed = true) {m : Nat} (hm : m ≠ 0) :
    maskBit (skipped i v) m = if i.pred.2.2 ∧ i.maskDest = some m then false else maskBit v m := by
  rw [skipped_eq v hw]
  cases i.pred.2.2 with
  | false => simp [maskBit]
  | true => simpa [maskBit] using maskBit_zeroed i v hm

/-- Registers, masks and the PC aside, a skipped instruction changes nothing. -/
theorem skipped_same {i : Instr} (v : Thread) (hw : i.wellFormed = true) : ∃ R H, skipped i v =
    { v with regs := R, hctx := { v.hctx with h := H }, masks := (skipped i v).masks, pc := v.next i } := by
  rw [skipped_eq v hw]
  cases i.pred.2.2 with
  | false => exact ⟨v.regs, v.hctx.h, rfl⟩
  | true =>
    obtain ⟨R, H, hS⟩ := zeroed_eq i v
    refine ⟨R, H, ?_⟩
    rw [if_pos rfl]
    conv_lhs => rw [hS]

/-- In a hand a skipped instruction changes h registers and the PC alone. -/
theorem skipped_of_hand {i : Instr} {v : Thread} (hw : i.wellFormed = true) (hc : contextCheck i v = none) (hh : v.handMode = true)
    (hj : ∀ fold x, i ≠ .joinh fold x) : ∃ H, skipped i v = { v with hctx := { v.hctx with h := H }, pc := v.next i } := by
  rw [skipped_eq v hw]
  cases i.pred.2.2 with
  | false => exact ⟨v.hctx.h, rfl⟩
  | true =>
    obtain ⟨H, hS⟩ := zeroed_of_hand hc hh hj
    exact ⟨H, by rw [if_pos rfl, hS]⟩

/-- A context whose instruction was skipped, put back, reads as it was put, but for a hand's part in the raise record. -/
theorem viewOf_putView_skipped {i : Instr} {s : State} {w : Who} {v : Thread} (hv : viewOf s w = some v) (hw : i.wellFormed = true)
    (hc : contextCheck i v = none) (hj : ∀ fold x, i ≠ .joinh fold x) :
    ∃ r, viewOf (putView s w (skipped i v)) w = some { skipped i v with raise := r } ∧
      ∀ t, w = .thread t → r = (skipped i v).raise := by
  refine viewOf_putView hv fun t h ht => ?_
  subst ht
  obtain ⟨f, ra, x, -, -, -, rfl⟩ := viewOf_hand hv
  obtain ⟨H, hS⟩ := skipped_of_hand hw hc rfl hj
  rw [hS]

end Sys2Proof.Machine

namespace Sys2Proof.Proofs

open Sys2Proof.Machine Sys2Proof.Safety Sys2Proof.Claims

/-- Settles O8: every predicable instruction is a `run`, which skips it (R13). -/
theorem unpredicatedInstructionOnlyZeroes : Obligations.UnpredicatedInstructionOnlyZeroes := by
  intro i s w v hp hwf hw hv hc hn
  obtain ⟨body, hexec⟩ := exec_eq_run_of_predicable s hp
  have hj : ∀ fold x, i ≠ .joinh fold x := by
    rintro fold x rfl
    simp [predicated_joinh hwf v] at hn
  obtain ⟨r, hview, hraise⟩ := viewOf_putView_skipped hv hwf hc hj
  obtain ⟨R, H, hS⟩ := skipped_same v hwf
  have hnum : regNum { skipped i v with raise := r } (destReg i) (destWidth i) = regNum (skipped i v) (destReg i) (destWidth i) :=
    regNum_congr rfl rfl _ _
  refine ⟨_, _, hexec.trans (run_of_not_predicated body hw hv hc hn), hview, onlyThread_putView s w _, ?_,
    hnum.trans (regNum_skipped v hwf), fun k hk => (regVal_congr rfl rfl k).trans (sameRegsBut_skipped v hwf k hk),
    fun m hm => maskBit_skipped v hwf hm, ?_, ?_, ?_, fun t ht => ?_⟩
  · rw [hS]; rfl
  · rw [hS]
  · rw [hS]
  · rw [hS]
  · rw [hraise t ht, hS]

end Sys2Proof.Proofs

/-! SUPPORT. The system class: results cut to their destination, special registers, the access log, and what BRK, PLUMB and a debugger
do. -/

namespace Sys2Proof.Machine

open Sys2Proof.Safety Sys2Proof.Claims

/-! ### Results wider than their destination -/

/-- A register run keeps the low bits of a number: what lies above its width is discarded. -/
theorem setRegs_mod (w : Nat) : ∀ (v : Thread) (n x : Nat), setRegs v n w (x % 2 ^ (32 * w)) = setRegs v n w x := by
  induction w with
  | zero => intro v n x; rfl
  | succ w ih =>
    intro v n x
    have hpow : 2 ^ (32 * (w + 1)) = 2 ^ 32 * 2 ^ (32 * w) := by rw [← pow_add]; congr 1; omega
    have hlow : BitVec.ofNat 32 (x % (2 ^ 32 * 2 ^ (32 * w))) = BitVec.ofNat 32 x :=
      BitVec.eq_of_toNat_eq (by simp only [BitVec.toNat_ofNat, Nat.mod_mul_right_mod])
    rw [setRegs, setRegs, hpow, hlow, Nat.mod_mul_right_div_self, ih]

/-- An instruction of the shape that reads no source and sets no flag completes: the low bits of its result stand in its
destination. -/
theorem aluM_writes_low {i : Instr} {f : State → Thread → Nat → Nat → Nat → Got (Nat × Flags)} {s : State} {w : Who} {v : Thread}
    {n : Nat} {p : Bool} {d : Reg} {r : Nat} (hd : i.operands.head? = some (.dst n p, d)) (hj : ∀ j x, i ≠ Instr.joinh j x)
    (hn : n = 1 ∨ n = 2) (R : Ready i s w v) (np : NoPush i) (hf : f s v 0 0 0 = .ok (r, 0)) :
    ∃ t u, aluM i .no .no .no f s = .next t ∧ Wrote i w s t v v u (r % 2 ^ (32 * n)) 0 := by
  have hdest : i.dest = some (n, d) := by simp [Instr.dest, hd]
  have hpush : feedOf d = none := by simpa [NoPush, hdest] using np
  have hs : readSrcs v .no .no .no = some (0, 0, 0, 0, v) := rfl
  have h0 : (0 : Flags) ||| 0 = 0 := rfl
  have ht : trapFlags v 0 = 0 := by simp [trapFlags]
  obtain ⟨u, hu⟩ := wrote_of_put (v' := v) (f := 0) hd hj R np hn rfl (Nat.mod_lt r (Nat.two_pow_pos (32 * n)))
  rw [setRegs_mod] at hu
  refine ⟨_, u, ?_, hu⟩
  unfold aluM
  rw [run_ready R]
  simp only [hdest, Option.map_some, Option.getD_some, hpush, hs, onGot_ok (g := fun s => f s v 0 0 0) _ hf, writeDest, complete,
    completeAt, h0, ht, if_true, settleEff]

/-! ### SREG (R97, R99, R161) -/

theorem sregValue_eq_special (s : State) {v : Thread} (hc : v.control = false) :
    ∀ n ∈ sregIndices, sregValue s v n = special s v n := by
  simp [sregIndices, sregValue, special, clockOf, hc]

theorem sregValue_eq_specialControl {s : State} {v : Thread} {q : Nat} (hc : v.control = true)
    (hq : controlQuarter s v = some q) : ∀ n ∈ sregIndices, sregValue s v n = specialControl s v q n := by
  unfold controlQuarter at hq
  simp [sregIndices, sregValue, special, specialControl, clockOf, hc, hq]

/-- The index of a well-formed SREG is one of R97's. -/
theorem sreg_index {idx : BitVec 8} {x : Ext} (hw : (Instr.sreg idx x).wellFormed = true) : idx.toNat ∈ sregIndices := by
  simp only [Instr.wellFormed, Instr.codesOk, Bool.and_eq_true, List.contains_iff_mem] at hw
  exact hw.1.1

/-- SREG writes the low bits of its special register's value. -/
theorem execSreg_writes {idx : BitVec 8} {x : Ext} {s : State} {w : Who} {v : Thread} (R : Ready (.sreg idx x) s w v)
    (np : NoPush (.sreg idx x)) : ∃ t u, exec (.sreg idx x) s = .next t ∧
      Wrote (.sreg idx x) w s t v v u (sregValue s v idx.toNat % 2 ^ (32 * destWidth (.sreg idx x))) 0 := by
  have hwidth : (if idx = 0x00 ∨ idx = 0x10 ∨ idx = 0x21 ∨ idx = 0x22 ∨ idx = 0x23 then 2 else 1) = 1 ∨
      (if idx = 0x00 ∨ idx = 0x10 ∨ idx = 0x21 ∨ idx = 0x22 ∨ idx = 0x23 then 2 else 1) = 2 := by
    split <;> simp
  exact aluM_writes_low (f := fun s v _ _ _ => .ok (sregValue s v idx.toNat, 0)) rfl (fun _ _ h => by cases h) hwidth R np rfl

/-- On a control core no operand names a queue (R93). -/
theorem noPush_of_control {i : Instr} {v : Thread} {n : Nat} {p : Bool} {d : Reg} (hd : i.operands.head? = some (.dst n p, d))
    (hc : contextCheck i v = none) (hv : v.control = true) : NoPush i := by
  unfold contextCheck at hc
  split at hc
  · cases hc
  · split at hc
    · cases hc
    · rename_i hbad
      simp only [Bool.or_eq_true, not_or, List.any_eq_true, not_exists, not_and] at hbad
      have hq := hbad.1 _ (List.mem_of_head? hd)
      have hq : ¬ (768 ≤ d.toNat ∧ d.toNat < 776) := by
        intro h
        simp [badClass, hv, h] at hq
      simp only [NoPush, Instr.dest, hd, Option.map_some, Option.getD_some, feedOf, ite_eq_right_iff]
      intro h
      omega

/-! ### Contexts that are threads -/

/-- A context outside hand mode is a thread. -/
theorem thread_of_not_handMode {s : State} {w : Who} {v : Thread} (hv : viewOf s w = some v) (hh : v.handMode = false) :
    ∃ t, w = .thread t := by
  cases w with
  | thread t => exact ⟨t, rfl⟩
  | hand t h =>
    obtain ⟨f, r, x, -, -, -, rfl⟩ := viewOf_hand hv
    cases hh
  | hart n => exact absurd hv (by simp [viewOf])

/-! ### SSET (R480) -/

theorem setFlags_of_not_handMode {v : Thread} (g : Flags) (h : v.handMode = false) : setFlags v g = { v with fpsr := v.fpsr ||| g } := by
  simp [setFlags, h]

/-- SSET replaces a special register: the seed, `fpsr` or `fpen`, and changes nothing else. -/
theorem ssetValue_eq (v : Thread) (idx x : Nat) : ssetValue v idx x = { v with
    seed := if idx = 0x18 then BitVec.ofNat 32 x else v.seed
    fpsr := if idx = 0x24 then BitVec.ofNat 5 x else v.fpsr
    fpen := if idx = 0x25 then BitVec.ofNat 5 x else v.fpen } := by
  unfold ssetValue
  split
  · rfl
  · rfl
  · rfl
  · rename_i h1 h2 h3
    rw [if_neg h1, if_neg h2, if_neg h3]

/-- SSET outside hand mode whose source raises no enabled flag. -/
theorem execSset_done {idx : BitVec 8} {x : Ext} {s : State} {w : Who} {v v' : Thread} {a : Nat} {g : Flags}
    (R : Ready (.sset idx x) s w v) (hs : readSrc v (.reg 1 x.va) = some (a, g, v')) (ht : trapFlags v g = 0) :
    exec (.sset idx x) s =
      .next (putView s w { ssetValue (setFlags v' g) idx.toNat a with pc := v.next (.sset idx x) }) := by
  show execSset idx x s = _
  unfold execSset
  rw [run_ready R]
  simp only [hs, ht, if_true, settleEff]

/-! ### The access log (R317, R318) -/

/-- A ring of two records or more keeps its latest one and one after it. -/
theorem drop_ring_append {ring : Nat} (hring : 2 ≤ ring) (l : List LogRec) (r : LogRec) (post : List LogRec) (h : post.length ≤ 1) :
    (l ++ r :: post).drop ((l ++ r :: post).length - ring) = l.drop ((l ++ r :: post).length - ring) ++ r :: post := by
  rw [List.drop_append_of_le_length]
  simp only [List.length_append, List.length_cons]
  omega

/-- The record that the log's next append makes. -/
def nextRecord (s : State) (kind enclave actor : Nat) (body : List Byte) : LogRec :=
  { seq := s.root.seq, kind := kind, enclave := enclave, actor := actor, prev := s.root.head, body := fitBytes 80 body }

theorem logOne_log (s : State) (kind enclave actor : Nat) (body : List Byte) : (logOne s kind enclave actor body).root.log =
    (s.root.log ++ [nextRecord s kind enclave actor body]).drop
      ((s.root.log ++ [nextRecord s kind enclave actor body]).length - logRing) := by
  simp only [logOne, nextRecord]

theorem two_le_logRing : 2 ≤ logRing := by decide

/-- The latest record stands in the log behind the one appended after it. -/
theorem logOne_log_of_last {s : State} {kind enclave actor : Nat} {body : List Byte} {pre : List LogRec} {r : LogRec}
    (h : s.root.log = pre ++ [r]) : ∃ pre' r', (logOne s kind enclave actor body).root.log = pre' ++ [r, r'] := by
  have hdrop := drop_ring_append two_le_logRing pre r [nextRecord s kind enclave actor body] (le_refl 1)
  rw [logOne_log, h, List.append_assoc, List.singleton_append]
  exact ⟨_, _, hdrop⟩

/-- An appended record is the latest but for a signature record. -/
theorem logAppend_logged (s : State) (kind enclave actor : Nat) (body : List Byte) :
    Logged s (logAppend s kind enclave actor body) kind enclave actor body := by
  have hone := (logOne_log s kind enclave actor body).trans (drop_ring_append two_le_logRing s.root.log _ [] (Nat.zero_le 1))
  refine ⟨nextRecord s kind enclave actor body, ?_, rfl, rfl, rfl, rfl, rfl, rfl⟩
  unfold logAppend
  dsimp only
  split
  · obtain ⟨pre, r, hlog⟩ := logOne_log_of_last (kind := 0x0F) (enclave := 0) (actor := 0) (body := _) hone
    exact ⟨pre, [r], hlog, le_refl 1⟩
  · exact ⟨_, [], hone, Nat.zero_le 1⟩

/-- A record appended changes the root's state alone. -/
theorem logOne_eq (s : State) (kind enclave actor : Nat) (body : List Byte) :
    ∃ r, logOne s kind enclave actor body = { s with root := r } := by
  simp only [logOne]
  exact ⟨_, rfl⟩

theorem logAppend_eq (s : State) (kind enclave actor : Nat) (body : List Byte) :
    ∃ r, logAppend s kind enclave actor body = { s with root := r } := by
  obtain ⟨r, hr⟩ := logOne_eq s kind enclave actor body
  unfold logAppend
  rw [hr]
  dsimp only
  split
  · exact logOne_eq _ _ _ _ _
  · exact ⟨r, rfl⟩

theorem logDebug_eq (s : State) (actor : Nat) (v : Thread) (allowed : Bool) :
    ∃ r, logDebug s actor v allowed = { s with root := r } := logAppend_eq s _ _ _ _

theorem threadDebug_logDebug (s : State) (actor : Nat) (v : Thread) (allowed : Bool) :
    threadDebug (logDebug s actor v allowed) v = threadDebug s v := by
  obtain ⟨r, hr⟩ := logDebug_eq s actor v allowed
  rw [hr]
  rfl

/-! ### BRK, PLUMB and the debugger (R323, R357, R379, R461) -/

theorem execBrk_stops {x : Ext} {s : State} {w : Who} {v : Thread} (R : Ready (.brk x) s w v) (h : threadDebug s v = true) :
    exec (.brk x) s =
      .next (putView (logDebug s 4 v (threadDebug s v)) w { v with status := .debugStop, pc := v.next (.brk x) }) := by
  show execBrk x s = _
  rw [execBrk, run_ready R]
  simp only [h, if_true, settleEff]

theorem execBrk_traps {x : Ext} {s : State} {w : Who} {v : Thread} (R : Ready (.brk x) s w v) (h : threadDebug s v = false) :
    exec (.brk x) s =
      .next (takeTrap (logDebug s 4 v (threadDebug s v)) w v (kept .soft (brkInfo x.imm)) (trapHere (.brk x) v)) := by
  show execBrk x s = _
  rw [execBrk, run_ready R]
  simp only [h, Bool.false_eq_true, if_false, settleEff]

/-- PLUMB runs in no hand (R461). -/
theorem not_handMode_of_plumb {x : Ext} {v : Thread} (hc : contextCheck (.plumb x) v = none) : v.handMode = false := by
  have ha := admitted_of_contextCheck hc
  have hcontrol : (Instr.plumb x).onControl = false := rfl
  have hhand : (Instr.plumb x).inHand = false := rfl
  unfold Instr.admitted at ha
  by_contra hh
  simp [hcontrol, hhand, hh] at ha

/-- A state after a PLUMB was logged, with its trigger when it fires one. -/
def plumbed (s : State) (v : Thread) (fires : Bool) : State :=
  if fires then fireTrigger (logDebug s 4 v (threadDebug s v)) else logDebug s 4 v (threadDebug s v)

theorem execPlumb_done {x : Ext} {s : State} {w : Who} {v : Thread} (R : Ready (.plumb x) s w v) : exec (.plumb x) s =
    .next (putView (plumbed s v (threadDebug s v && !laterPlumb (.plumb x) s v)) w
      { v with pc := v.next (.plumb x) }) := by
  show execPlumb x s = _
  unfold execPlumb
  rw [run_ready R]
  rfl

theorem plumbed_mem (s : State) (v : Thread) (fires : Bool) : (plumbed s v fires).mem = s.mem := by
  obtain ⟨r, hr⟩ := logDebug_eq s 4 v (threadDebug s v)
  cases fires <;> simp [plumbed, fireTrigger, hr]

theorem plumbed_root (s : State) (v : Thread) (fires : Bool) :
    (plumbed s v fires).root = (logDebug s 4 v (threadDebug s v)).root := by
  cases fires <;> rfl

theorem plumbed_triggers (s : State) (v : Thread) (fires : Bool) :
    (plumbed s v fires).mgmt.triggers = s.mgmt.triggers + if fires then 1 else 0 := by
  obtain ⟨r, hr⟩ := logDebug_eq s 4 v (threadDebug s v)
  cases fires <;> simp [plumbed, fireTrigger, hr]

/-- What a debugger's command makes of a stopped thread (R323, R380). -/
def debugged (v : Thread) : DebugCmd → Thread
  | .release => { v with status := .running, fetched := [] }
  | .writePc pc => { v with pc := pc, fetched := [] }

theorem execDebuggerCommand_of_stopped {s : State} {t : Nat} {v : Thread} (port : Nat) (c : DebugCmd) (ht : threadOf s t = some v)
    (hd : threadDebug s v = true) (hs : v.status = .debugStop) : exec (.debuggerCommand port t c) s =
      .next (setThread (logDebug s (1 + port) v (threadDebug s v)) t (debugged v c)) := by
  show execDebuggerCommand port t c s = _
  cases c <;> simp only [execDebuggerCommand, ht, threadDebug_logDebug, hd, hs, BEq.rfl, Bool.and_self, if_true, debugged]

theorem execDebuggerCommand_of_refused {s : State} {t : Nat} {v : Thread} (port : Nat) (c : DebugCmd) (ht : threadOf s t = some v)
    (h : threadDebug s v = false ∨ v.status ≠ .debugStop) :
    exec (.debuggerCommand port t c) s = .next (logDebug s (1 + port) v (threadDebug s v)) := by
  show execDebuggerCommand port t c s = _
  have hno : (v.status == .debugStop && threadDebug s v) = false := by
    rcases h with h | h <;> simp [h]
  simp [execDebuggerCommand, ht, threadDebug_logDebug, hno]

end Sys2Proof.Machine

namespace Sys2Proof.Proofs

open Sys2Proof.Machine Sys2Proof.Safety Sys2Proof.Claims

/-- SSET outside hand mode replaces its special register after the flags popped with its source. -/
theorem sset_done {idx : BitVec 8} {x : Ext} {s : State} {w : Who} {v v' : Thread} {a : Nat} {g : Flags} (R : Ready (.sset idx x) s w v)
    (hs : readSrc v (.reg 1 x.va) = some (a, g, v')) (ht : trapFlags v g = 0) (hh : v.handMode = false) :
    ∃ t u, exec (.sset idx x) s = .next t ∧ viewOf t w = some u ∧ OnlyThread w s t ∧ SameRegsBut v u 0 0 ∧
      u.pc = v.pc + BitVec.ofNat 64 (Instr.len (.sset idx x)) ∧ u.queues = v'.queues ∧
      (idx = 0x18 → u.seed = BitVec.ofNat 32 a ∧ u.fpsr = v.fpsr ||| g ∧ u.fpen = v.fpen) ∧
      (idx = 0x24 → u.seed = v.seed ∧ u.fpsr = BitVec.ofNat 5 a ∧ u.fpen = v.fpen) ∧
      (idx = 0x25 → u.seed = v.seed ∧ u.fpsr = v.fpsr ||| g ∧ u.fpen = BitVec.ofNat 5 a) := by
  obtain ⟨n, rfl⟩ := thread_of_not_handMode R.view hh
  have hv' := readSrc_same hs
  generalize v'.queues = Q at hv'
  subst hv'
  refine ⟨_, _, execSset_done R hs ht, viewOf_putView_thread s n _, onlyThread_putView s _ _, ?_, ?_⟩
  all_goals rw [ssetValue_eq, setFlags_of_not_handMode (v := { v with queues := Q }) g hh]
  · exact fun k _ => regVal_congr rfl rfl k
  · refine ⟨rfl, rfl, ?_, ?_, ?_⟩ <;> rintro rfl <;> exact ⟨rfl, rfl, rfl⟩

/-- PLUMB logs its attempt, and fires one trigger for the last thread of its bundle to execute it in a debug-enabled partition. -/
theorem plumb_done {x : Ext} {s : State} {w : Who} {v : Thread} (R : Ready (.plumb x) s w v) :
    ∃ t u, exec (.plumb x) s = .next t ∧ viewOf t w = some u ∧ u.pc = v.pc + BitVec.ofNat 64 (Instr.len (.plumb x)) ∧
      SameRegsBut v u 0 0 ∧ u.masks = v.masks ∧ t.mem = s.mem ∧ t.root = (logDebug s 4 v (threadDebug s v)).root ∧
      t.mgmt.triggers = s.mgmt.triggers + (if threadDebug s v = true ∧ laterPlumb (.plumb x) s v = false then 1 else 0) := by
  obtain ⟨n, rfl⟩ := thread_of_not_handMode R.view (not_handMode_of_plumb R.checks)
  refine ⟨_, _, execPlumb_done R, viewOf_putView_thread _ n _, rfl, fun k _ => regVal_congr rfl rfl k, rfl, plumbed_mem s v _,
    plumbed_root s v _, (plumbed_triggers s v _).trans ?_⟩
  simp

/-- Settles O47: each instruction is run for its context, and each attempt at debugging is logged, by the lemmas above. -/
theorem systemInstructions : Obligations.SystemInstructions := by
  intro s w v
  refine ⟨fun idx x R np hc => ?_, fun idx x q R hc hq => ?_, fun idx x a g v' R hs ht hh => sset_done R hs ht hh,
    fun x R => ⟨execBrk_stops R, fun h => (execBrk_traps R h).trans (by rw [brkInfo])⟩, fun word hw hv => ?_,
    fun word hh => by simp [wordsTrap, hh],
    fun port t c ht => ⟨execDebuggerCommand_of_stopped port c ht, execDebuggerCommand_of_refused port c ht⟩,
    fun x R => plumb_done R, fun actor allowed => ?_⟩
  · rw [← sregValue_eq_special s hc _ (sreg_index R.wf)]
    exact execSreg_writes R np
  · rw [← sregValue_eq_specialControl hc hq _ (sreg_index R.wf)]
    exact execSreg_writes R (noPush_of_control rfl R.checks hc)
  · show execUnassignedEncoding word s = _
    simp [execUnassignedEncoding, hw, hv]
  · have h := logAppend_logged s 0x06 (threadEnclave s v) actor (bodyWords [((headerOf s v).map (·.part)).getD 0, ofBool allowed])
    cases allowed <;> exact h

end Sys2Proof.Proofs

/-! SUPPORT. What reset leaves in the registers of device space, and with what threads and harts start. -/

namespace Sys2Proof.Machine

open Sys2Proof.Safety Sys2Proof.Claims

/-! ### Registers of device space after reset (R327-R330, R345, R354-R358) -/

/-- An entry of a table in which nothing is listed is its default. -/
@[simp] theorem Tab.getD_nil {α : Type} (k : Nat) (d : α) : Tab.getD ([] : Tab α) k d = d := rfl

@[simp] theorem clusterOfPkg_reset (k : Nat) : clusterOfPkg State.reset k = Cluster.reset := rfl
@[simp] theorem tstatOf_reset (k : Nat) : tstatOf State.reset k = { temp := 0, throt := false, trip := false } := rfl
@[simp] theorem egressOf_reset (g id : Nat) : egressOf State.reset g id = Egress.reset := rfl
@[simp] theorem sliceOf_reset (n : Nat) :
    sliceOf State.reset n = { fill := [], comp := [], gate := 0, log := [], logN := 0, served := 0, fixed := 0 } := rfl

theorem regRead_reset_cluster (k : Nat) : regRead State.reset (.clbudget k) = 0x16 ∧ regRead State.reset (.clmode k) = 0 ∧
    regRead State.reset (.coresvc k) = 0xFFFFF ∧ regRead State.reset (.tstat k) = 0 := by
  simp [regRead, Cluster.reset, pack, ofBool]

theorem regRead_reset_colown (c : Nat) : regRead State.reset (.colown c) = 0 := rfl

theorem regRead_reset_pcfg (p : Nat) : regRead State.reset (.pcfg p) = 0 := rfl

/-- The masks of a slice are full, nothing occupies it and nothing is gated. -/
theorem regRead_reset_slice (n p : Nat) : regRead State.reset (.wmask n p) = 0xFFFF ∧ regRead State.reset (.occ n p) = 0 ∧
    regRead State.reset (.wgate n) = 0 ∧ regRead State.reset (.msGate n) = 0 := by
  refine ⟨?_, rfl, ?_, rfl⟩ <;> simp [regRead, pack, ofBool]

theorem regRead_reset_irq (k : Nat) (d : Bool) : regRead State.reset (.irq k d) = 0 := by
  cases d <;> rfl

theorem regRead_reset_egcfg (g id : Nat) : regRead State.reset (.egcfg g id) = 0x14 * 2 ^ 35 := by
  have hvalue : Egress.reset.value = 0x14 * 2 ^ 35 := by decide
  exact (congrArg Egress.value (egressOf_reset g id)).trans hvalue

/-- MGID names the maker and the part above the fused step, over 24 zero bits. -/
theorem regRead_mgid (s : State) : regRead s .mgid = 2 ^ 24 * (Config.fuseStep.toNat % 2 ^ 8 + 2 ^ 8 * 0x1B7E0640) := by
  have hmaker : pack [(16, 0x0640), (16, 0x1B7E)] = 0x1B7E0640 := by decide
  show pack [(24, 0), (8, Config.fuseStep.toNat), (16, 0x0640), (16, 0x1B7E)] = _
  rw [pack, pack, hmaker, Nat.zero_mod, Nat.zero_add]

theorem regRead_mgid_parts (s : State) : regRead s .mgid / 2 ^ 32 = 0x1B7E0640 ∧ regRead s .mgid % 2 ^ 24 = 0 := by
  have hstep : Config.fuseStep.toNat % 2 ^ 8 < 2 ^ 8 := Nat.mod_lt _ (by decide)
  have hpow : 2 ^ 32 = 2 ^ 24 * 2 ^ 8 := by decide
  rw [regRead_mgid]
  constructor
  · rw [hpow, Nat.mul_div_mul_left _ _ (by decide), Nat.add_mul_div_left _ _ (by decide), Nat.div_eq_of_lt hstep, Nat.zero_add]
  · exact Nat.mul_mod_right _ _

/-- A snapshot pair reads zero after reset, hidden or not. -/
theorem regRead_reset_snap (u : SnapUnit) (v : Bool) : regRead State.reset (.snap u v) = 0 := by
  have hpair : (if snapHidden State.reset u then (0, 0) else Tab.getD State.reset.mgmt.snaps (unitKey u) (0, 0)) = (0, 0) := by
    split <;> rfl
  simp only [regRead, hpair]
  cases v <;> rfl

/-! ### Threads and harts at their start (R31, R276, R277, R345) -/

/-- A thread starts with mask m0 alone set. -/
theorem maskBit_newThread (b k : Nat) (fs : List Nat) (n : Nat) (pc : DWord) (seed ph : Word) {m : Nat} (h1 : 1 ≤ m) :
    maskBit (newThread b k fs n pc seed ph) m = false := by
  have hm : m ≠ 0 := by omega
  simp [maskBit, newThread, hm]

theorem regVal_newThread (b k : Nat) (fs : List Nat) (n : Nat) (pc : DWord) (seed ph : Word) (r : Nat) :
    regVal (newThread b k fs n pc seed ph) r = 0 := by
  unfold regVal
  split
  · rfl
  · split <;> rfl

end Sys2Proof.Machine

namespace Sys2Proof.Proofs

open Sys2Proof.Machine Sys2Proof.Safety Sys2Proof.Claims

/-- Settles O59: each register's reset value is read off the state after reset; the rest is what `newThread` and `Hart.start` say. -/
theorem resetValues : Obligations.ResetValues := by
  obtain ⟨hmaker, hlow⟩ := regRead_mgid_parts State.reset
  refine ⟨⟨rfl, rfl, rfl, rfl, rfl, rfl, rfl, rfl⟩, regRead_reset_cluster, regRead_reset_colown, regRead_reset_pcfg,
    regRead_reset_slice, regRead_reset_irq, regRead_reset_egcfg, ⟨rfl, rfl, rfl, hmaker, hlow⟩, regRead_reset_snap,
    ⟨rfl, rfl, rfl, rfl⟩, fun b k fs n pc seed ph => ?_, fun k => ⟨rfl, rfl, rfl⟩⟩
  exact ⟨rfl, rfl, rfl, rfl, rfl, rfl, rfl, rfl, rfl, rfl, fun m h1 _ => maskBit_newThread b k fs n pc seed ph h1,
    regVal_newThread b k fs n pc seed ph⟩

end Sys2Proof.Proofs

/-! SUPPORT. A walk that misses may push a dirty line out of the memory-side cache; what that line meets on its way to HBM is noted in its
side-band (R198, R215, R286). -/

namespace Sys2Proof.Machine

open Sys2Proof.Safety Sys2Proof.Claims

/-! ### The side-band after a walk's fills -/

@[simp] theorem fillTlb1_side (s : State) (x : TlbEntry) : (fillTlb1 s x).side = s.side := rfl
@[simp] theorem fillTlb2_side (s : State) (x : TlbEntry) : (fillTlb2 s x).side = s.side := rfl
@[simp] theorem fillWalks_side (s : State) (cluster enclave va : Nat) (ws : List WalkStep) :
    (fillWalks s cluster enclave va ws).side = s.side := rfl

/-- A walk leaves the side-band as the fills of its entries' lines do. -/
theorem fillTlb_side {s : State} {part core enclave va : Nat} {e : Enclave} (h1 : s.tlb = []) (h2 : s.tlb2 = [])
    (he : Tab.get? s.enclaves enclave = some e) (hva : canonicalVa va = true) :
    (fillTlb s part core enclave va).side =
      (((coreWalk s core enclave e va).filter fun w => cacheable w.addr).foldl (fun s w => touchL2 s part (lineOf w.addr) false) s).side := by
  simp only [fillTlb, h1, h2, he, hva, List.find?_nil, if_true]
  split
  · simp
  · rfl

/-- Nothing is taken out of an empty set. -/
theorem placeLine_nil_out (s : State) (mask need : Nat) (l : L2Line) (fuel : Nat) : (placeLine s mask need l fuel [] []).2 = [] := by
  cases fuel with
  | zero => rfl
  | succ fuel =>
    unfold placeLine
    split
    · rfl
    · have hvictim : victim s l.slice mask [] = none := rfl
      rw [hvictim]

/-- A clean line filled into an empty L2 writes nothing back. -/
theorem fillLineL2_side {s : State} {l : L2Line} (hl2 : s.l2 = []) (hclean : l.dirty = false) : (fillLineL2 s l).side = s.side := by
  have hback : writeBackL2 s l = s := by simp [writeBackL2, hclean]
  have hfold (c : Bool) : ((if c then [] else [l]).foldl writeBackL2 s).side = s.side := by
    cases c
    · exact congrArg State.side hback
    · rfl
  unfold fillLineL2
  simp only [hl2, List.filter_nil]
  split
  · rw [placeLine_nil_out]
    exact hfold _
  · rw [placeLine_nil_out]
    exact hfold _

/-- The machine with one more access served by a slice. -/
def noteServed (s : State) (slice : Nat) : State :=
  { s with sliceRegs := Tab.set s.sliceRegs slice { sliceOf s slice with served := (sliceOf s slice).served + 1 } }

/-- A read of an intact line that the empty L2 misses leaves the side-band as the memory-side cache's fill does. -/
theorem touchL2_side_of_miss {s : State} {part line : Nat} (hl2 : s.l2 = []) (hside : (sideOf s line).finding = .clean)
    (hms : (msTouch (noteServed s (homeSlice (line * 128))) line false).l2 = []) :
    (touchL2 s part line false).side = (msTouch (noteServed s (homeSlice (line * 128))) line false).side := by
  have hdrop : dropL2 (noteServed s (homeSlice (line * 128))) (fun l => l.line == line) = noteServed s (homeSlice (line * 128)) := by
    simp [dropL2, noteServed, hl2]
  have hread : dramRead (noteServed s (homeSlice (line * 128))) line = noteServed s (homeSlice (line * 128)) := by
    have hclean : (sideOf (noteServed s (homeSlice (line * 128))) line).finding = .clean := hside
    simp [dramRead, hclean]
  show (accessL2 s part line false).side = _
  unfold accessL2
  dsimp only
  split
  · rename_i l hfind
    have hmem : l ∈ s.l2 := List.mem_of_find?_eq_some hfind
    rw [hl2] at hmem
    exact absurd hmem List.not_mem_nil
  · show (fillLineL2 (msTouch (dramRead (dropL2 (noteServed s (homeSlice (line * 128))) _) line) line false) _).side = _
    rw [hdrop, hread]
    exact fillLineL2_side hms rfl

/-- With one way of a slice left, a read that misses writes the dirty line that stands there back to HBM. -/
theorem msTouch_evicts {s : State} {line : Nat} {m : MsLine} (hms : s.ms = [m]) (hne : m.line ≠ line) (hdirty : m.dirty = true)
    (hways : msWays s (msSlice (line * 128)) = [m.way]) (hslice : m.slice = msSlice (line * 128))
    (hset : Config.msSet m.line % Config.msSets = Config.msSet line % Config.msSets) :
    (msTouch s line false).side = (msOut s m).side ∧ (msTouch s line false).l2 = (msOut s m).l2 := by
  have hmiss : s.ms.find? (fun x => x.line == line) = none := by simp [hms, hne]
  have hold : ([m].filter fun x => x.slice == msSlice (line * 128) && x.way == m.way &&
      Config.msSet x.line % Config.msSets == Config.msSet line % Config.msSets) = [m] := by simp [hslice, hset]
  have hout : ([m].filter fun x => x.dirty) = [m] := by simp [hdirty]
  unfold msTouch
  dsimp only
  rw [hmiss, hways]
  simp only [List.length_nil, Nat.zero_add, Nat.mod_one, List.getD_cons_zero, hms, hold, hout, List.foldl_cons, List.foldl_nil, and_self]

/-- The machine with one more corrected error counted by a slice. -/
def noteFixed (s : State) (slice : Nat) : State :=
  { s with sliceRegs := Tab.set s.sliceRegs slice { sliceOf s slice with fixed := (sliceOf s slice).fixed + 1 } }

/-- A dirty line written back with an error that its code corrects is whole again. -/
theorem msOut_corrected {s : State} {m : MsLine} (h : (sideOf s m.line).finding = .corrected) :
    (msOut s m).side = Tab.set s.side m.line { sideOf s m.line with flips := [], forged := false } ∧ (msOut s m).l2 = s.l2 := by
  have hflips : (sideOf s m.line).flips.isEmpty = false := by
    cases hf : (sideOf s m.line).flips with
    | nil =>
      cases hforged : (sideOf s m.line).forged <;> simp [Side.finding, hf, hforged] at h
    | cons _ _ => rfl
  have hout (t : State) (ht : t.side = s.side) : (unflip t m.line false).side =
      Tab.set s.side m.line { sideOf s m.line with flips := [], forged := false } ∧ (unflip t m.line false).l2 = t.l2 := by
    have hside : sideOf t m.line = sideOf s m.line := by rw [sideOf, sideOf, ht]
    simp [unflip, hside, hflips, ht]
  have hread : dramRead s m.line = noteFixed s (homeSlice (m.line * 128)) := by simp only [dramRead, h, if_true, noteFixed]
  have hfind : (sideOf (toHbm (noteFixed s (homeSlice (m.line * 128))) m.line m.data) m.line).finding = .corrected := h
  unfold msOut
  dsimp only
  rw [hread, hfind]
  exact hout (toHbm (noteFixed s (homeSlice (m.line * 128))) m.line m.data) rfl

/-- An enclave with its table at an address and nothing else. -/
def bareEnclave (root : Nat) : Enclave :=
  { kickVa := 0, root := root, partmask := 0, debug := false, pways := [], imgroot := 0, slot := none, wrapped := none, stack := [], kq := [],
    eq := ErrQueue.reset, svcfg := 0, saveCounter := 0, blobs := [], cap := none,
    mig := { dirty := 0, round := 0, busy := false, final := false, en := false, stage := 0, cursor := 0, out := none, changes := [] },
    awaiting := [], awaitAll := false, ckpt := none }

/-- The side-band of a line of which one symbol has flipped in DRAM. -/
def flippedSide : Side := { Side.clean with flips := [(0, 1)] }

/-- A dirty line that stands in the memory-side cache slice of another. -/
def neighbour (line other : Nat) : MsLine := { slice := msSlice (line * 128), line := other, way := 0, dirty := true, data := 0 }

/-- A package whose enclave has its outermost table on one line, while the only way left of that line's memory-side cache slice holds another line,
dirty and with a flipped symbol. -/
def crowded (line other : Nat) : State :=
  { State.reset with
    enclaves := [(1, bareEnclave (line * 128))]
    side := [(other, flippedSide)]
    ms := [neighbour line other]
    msGate := [(msSlice (line * 128), 0xFFFE)] }

theorem exists_lines_of_one_set : ∃ line other : Nat, line < 4097 ∧ other ≠ line ∧
    Config.msSet other % Config.msSets = Config.msSet line % Config.msSets := by
  obtain ⟨a, b, hne, hab⟩ := Fintype.exists_ne_map_eq_of_card_lt
    (fun i : Fin 4097 => (⟨Config.msSet i % Config.msSets, Nat.mod_lt _ (by decide)⟩ : Fin Config.msSets)) (by
      rw [Fintype.card_fin, Fintype.card_fin]
      decide)
  exact ⟨b, a, b.isLt, fun h => hne (Fin.ext h), Fin.mk.inj_iff.mp hab⟩

theorem sideOf_crowded_self {line other : Nat} (h : other ≠ line) : sideOf (crowded line other) line = Side.clean := by
  simp [sideOf, crowded, Tab.getD, Tab.get?, h]

theorem sideOf_crowded_other (line other : Nat) : sideOf (crowded line other) other = flippedSide := by
  simp [sideOf, crowded, Tab.getD, Tab.get?]

theorem msWays_crowded (line other : Nat) : msWays (crowded line other) (msSlice (line * 128)) = [0] := by
  have hgate : Tab.getD (crowded line other).msGate (msSlice (line * 128)) 0 = 0xFFFE := by simp [crowded, Tab.getD, Tab.get?]
  rw [msWays, hgate]
  decide

theorem num_nil (a n : Nat) : Memory.num [] a n = 0 := by
  unfold Memory.num
  induction n generalizing a with
  | zero => rfl
  | succ n ih => simp [Memory.bytes, Memory.read, ofBytes, ih]

theorem cacheable_of_lt {line : Nat} (h : line < 4097) : cacheable (line * 128) = true :=
  decide_eq_true (Nat.lt_trans (Nat.mul_lt_mul_of_pos_right h (by decide)) (by decide : 4097 * 128 < Config.hbmBytes))

/-- The walk of address 0 reads the one invalid entry of the outermost table. -/
theorem coreWalk_crowded {line other : Nat} (h : line < 4097) : coreWalk (crowded line other) 0 1 (bareEnclave (line * 128)) 0 =
    [{ level := 3, addr := line * 128, entry := 0 }] := by
  have hcache := cacheable_of_lt h
  have hnum : Memory.num (crowded line other).mem (line * 128) 8 = 0 := num_nil _ _
  have hinvalid : WalkStep.valid { level := 3, addr := line * 128, entry := 0 } = false := by simp [WalkStep.valid, bit]
  have haddr : line * 128 + 8 * bits 0 56 45 = line * 128 := by simp [bits]
  show walk (crowded line other).mem 0 tableLevels (line * 128) = _
  unfold tableLevels walk
  dsimp only
  rw [haddr, hcache, hnum, if_neg (by decide), hinvalid]
  rfl

/-- The walk's fill writes the other line back, which leaves it whole. -/
theorem fillTlb_crowded {line other part : Nat} (h : line < 4097) (hne : other ≠ line)
    (hset : Config.msSet other % Config.msSets = Config.msSet line % Config.msSets) :
    sideOf (fillTlb (crowded line other) part 0 1 0) other = Side.clean := by
  have henclave : Tab.get? (crowded line other).enclaves 1 = some (bareEnclave (line * 128)) := rfl
  have hva : canonicalVa 0 = true := by decide
  have hline : lineOf (line * 128) = line := Nat.mul_div_cancel line (by decide)
  have hfilter : ([{ level := 3, addr := line * 128, entry := 0 }] : List WalkStep).filter (fun w => cacheable w.addr) = _ :=
    List.filter_cons_of_pos (cacheable_of_lt h)
  obtain ⟨hside, hl2⟩ := msTouch_evicts (s := noteServed (crowded line other) (homeSlice (line * 128))) (m := neighbour line other) rfl hne rfl (msWays_crowded line other) rfl hset
  have hfind : (sideOf (noteServed (crowded line other) (homeSlice (line * 128))) other).finding = .corrected := by
    show (sideOf (crowded line other) other).finding = .corrected
    rw [sideOf_crowded_other]
    decide
  have hclean : (sideOf (crowded line other) line).finding = .clean := by
    rw [sideOf_crowded_self hne]
    decide
  obtain ⟨hwhole, hout⟩ := msOut_corrected (m := neighbour line other) hfind
  have htouch := touchL2_side_of_miss (part := part) rfl hclean (hl2.trans hout)
  have hfill := fillTlb_side (part := part) (core := 0) rfl rfl henclave hva
  rw [coreWalk_crowded h, hfilter, List.filter_nil, List.foldl_cons, List.foldl_nil, hline, htouch, hside, hwhole] at hfill
  have hother : Tab.getD (Tab.set (crowded line other).side other _) other Side.clean =
      { sideOf (crowded line other) other with flips := [], forged := false } := Tab.getD_set_self _ _ _ _
  rw [sideOf, hfill]
  refine hother.trans ?_
  rw [sideOf_crowded_other]
  rfl

end Sys2Proof.Machine

namespace Sys2Proof.Proofs

open Sys2Proof.Machine Sys2Proof.Safety Sys2Proof.Claims

/-- Refutes O51: the walk of a core's TLB miss may change more than the translations, the caches and the registers that `TranslationsAndLines`
names. The line of a table entry that it fetches takes the place of a dirty line in the memory-side cache, and that line, read from its DRAM
layer with a flipped symbol, is corrected on its way to HBM (R198, R215, R286), so its side-band changes. -/
theorem not_baysIssueAndCaches : ¬ Obligations.BaysIssueAndCaches := by
  rintro ⟨-, -, hlines⟩
  obtain ⟨line, other, hlt, hne, hset⟩ := exists_lines_of_one_set
  obtain ⟨hwalk, -⟩ := hlines (crowded line other) 1 0
  obtain ⟨t, hexec, hframe, -⟩ := hwalk 0
  have ht : fillTlb (crowded line other) (walkPart (crowded line other) 0 1) 0 1 0 = t := Host.Outcome.next.inj hexec
  have hkept := congrArg State.side hframe
  change t.side = (crowded line other).side at hkept
  have hclean : sideOf t other = Side.clean := ht ▸ fillTlb_crowded hlt hne hset
  rw [sideOf, hkept, ← sideOf, sideOf_crowded_other] at hclean
  exact absurd hclean (by decide)

end Sys2Proof.Proofs

/-! SUPPORT. What accesses to memory leave alone: the package's management, its root, its harts, its sensors, its file store and its clusters'
registers. -/

namespace Sys2Proof.Machine

open Sys2Proof.Safety Sys2Proof.Claims

/-- The part of the state that no access to memory changes. -/
structure ControlPart where
  mgmt : Mgmt
  root : Root
  harts : Tab Hart
  tstat : Tab Tstat
  images : List Image
  clusters : Tab Cluster

/-- That part of a state. -/
def control (s : State) : ControlPart :=
  { mgmt := s.mgmt, root := s.root, harts := s.harts, tstat := s.tstat, images := s.images, clusters := s.clusters }

theorem mgmt_of_control {s t : State} (h : control t = control s) : t.mgmt = s.mgmt := congrArg ControlPart.mgmt h
theorem root_of_control {s t : State} (h : control t = control s) : t.root = s.root := congrArg ControlPart.root h
theorem harts_of_control {s t : State} (h : control t = control s) : t.harts = s.harts := congrArg ControlPart.harts h
theorem tstat_of_control {s t : State} (h : control t = control s) : t.tstat = s.tstat := congrArg ControlPart.tstat h
theorem images_of_control {s t : State} (h : control t = control s) : t.images = s.images := congrArg ControlPart.images h
theorem clusters_of_control {s t : State} (h : control t = control s) : t.clusters = s.clusters := congrArg ControlPart.clusters h

/-- What every step of a fold leaves alone, the fold leaves alone. -/
theorem foldl_keeps {σ α β : Type} (g : σ → β) {f : σ → α → σ} (h : ∀ s x, g (f s x) = g s) (l : List α) (s : σ) :
    g (l.foldl f s) = g s := by
  induction l generalizing s with
  | nil => rfl
  | cons x l ih => exact (ih (f s x)).trans (h s x)

/-! ### The homes -/

@[simp] theorem control_keepHbm (s : State) (line : Nat) : control (keepHbm s line) = control s := by
  unfold keepHbm
  split <;> rfl

@[simp] theorem control_markDirty (s : State) (line : Nat) : control (markDirty s line) = control s := rfl
@[simp] theorem control_toHbm (s : State) (line : Nat) (d : BitVec 1024) : control (toHbm s line d) = control s := rfl

@[simp] theorem control_noteFailure (s : State) (line : Nat) : control (noteFailure s line) = control s := by
  unfold noteFailure
  dsimp only
  split <;> rfl

@[simp] theorem control_dramRead (s : State) (line : Nat) : control (dramRead s line) = control s := by
  unfold dramRead
  split <;> rfl

@[simp] theorem control_unflip (s : State) (line : Nat) (forged : Bool) : control (unflip s line forged) = control s := by
  unfold unflip
  split <;> rfl

@[simp] theorem control_msOut (s : State) (m : MsLine) : control (msOut s m) = control s := by
  unfold msOut
  dsimp only
  split <;> simp

@[simp] theorem control_msTouch (s : State) (line : Nat) (write : Bool) : control (msTouch s line write) = control s := by
  have hout (l : List MsLine) : control (l.foldl msOut s) = control s := foldl_keeps control control_msOut l s
  unfold msTouch
  dsimp only
  split
  · split <;> rfl
  · split
    · split <;> simp
    · exact hout _

@[simp] theorem control_msDrop (s : State) (sel : MsLine → Bool) : control (msDrop s sel) = control s :=
  foldl_keeps control control_msOut _ s

@[simp] theorem control_writeBackL2 (s : State) (l : L2Line) : control (writeBackL2 s l) = control s := by
  unfold writeBackL2
  split <;> simp

@[simp] theorem control_dropL2 (s : State) (sel : L2Line → Bool) : control (dropL2 s sel) = control s :=
  foldl_keeps control control_writeBackL2 _ s

@[simp] theorem control_touchL2 (s : State) (part line : Nat) (write : Bool) : control (touchL2 s part line write) = control s := rfl
@[simp] theorem control_wakeMonitors (s : State) (line : Nat) : control (wakeMonitors s line) = control s := rfl
@[simp] theorem control_unreserve (s : State) (line : Nat) : control (unreserve s line) = control s := rfl

@[simp] theorem control_clearCount (s : State) (line : Nat) : control (clearCount s line) = control s := by
  unfold clearCount
  split <;> rfl

@[simp] theorem control_lineWritten (s : State) (part line : Nat) : control (lineWritten s part line) = control s := by
  simp [lineWritten, homeWritten]

@[simp] theorem control_partWritten (s : State) (line : Nat) : control (partWritten s line) = control s := by simp [partWritten]

@[simp] theorem control_writeHome (s : State) (part pa : Nat) (bs : List Byte) : control (writeHome s part pa bs) = control s := by
  have hmem (t : State) (m : Memory) : control { t with mem := m } = control t := rfl
  simp [writeHome, writeOver, hmem]

@[simp] theorem control_writeHomeCells (s : State) (part line : Nat) (cs : List Host.Cell) :
    control (writeHomeCells s part line cs) = control s := by
  have hmem (t : State) (m : Memory) : control { t with mem := m } = control t := rfl
  unfold writeHomeCells
  split
  · rfl
  · simp [hmem]

/-! ### The L1 and fused caches -/

@[simp] theorem control_writeBack (s : State) (sel : L1Line → BitVec 128) : control (writeBack s sel) = control s := by
  unfold writeBack
  dsimp only
  split
  · rfl
  · exact foldl_keeps control (fun s x => control_writeHomeCells s _ _ _) _ _

@[simp] theorem control_retain (s : State) (x : L1Line) : control (retain s x) = control s := by
  unfold retain
  split
  · split <;> rfl
  · rfl

@[simp] theorem control_flushL1 (s : State) (sel : L1Line → Bool) : control (flushL1 s sel) = control s :=
  (foldl_keeps control control_retain _ _).trans (control_writeBack s (allOf sel))

/-! ### Translations and pages -/

@[simp] theorem control_setEnclave (s : State) (id : Nat) (f : Enclave → Enclave) : control (setEnclave s id f) = control s := rfl

@[simp] theorem control_fillTlb1 (s : State) (x : TlbEntry) : control (fillTlb1 s x) = control s := rfl
@[simp] theorem control_fillTlb2 (s : State) (x : TlbEntry) : control (fillTlb2 s x) = control s := rfl
@[simp] theorem control_fillWalks (s : State) (cluster enclave va : Nat) (ws : List WalkStep) :
    control (fillWalks s cluster enclave va ws) = control s := rfl

@[simp] theorem control_fillTlb (s : State) (part core enclave va : Nat) : control (fillTlb s part core enclave va) = control s := by
  have hlines (ws : List WalkStep) : control (ws.foldl (fun s w => touchL2 s part (lineOf w.addr) false) s) = control s :=
    foldl_keeps control (fun s w => control_touchL2 s part (lineOf w.addr) false) ws s
  unfold fillTlb
  dsimp only
  split
  · rfl
  · split
    · rfl
    · split
      · rfl
      · split
        · simp only [control_fillWalks, control_fillTlb1, control_fillTlb2]
          split
          · exact hlines _
          · rfl
        · split
          · exact hlines _
          · rfl

@[simp] theorem control_trackPage (s : State) (enclave va frame : Nat) : control (trackPage s enclave va frame) = control s := by
  unfold trackPage
  split
  · split <;> rfl
  · rfl

@[simp] theorem control_mapFresh (s : State) (enclave : Nat) (e : Enclave) (va addr frame : Nat) (rest : List Nat) :
    control (mapFresh s enclave e va addr frame rest) = control s := by
  unfold mapFresh writeEntry
  rw [control_trackPage, control_writeHome]
  rfl

@[simp] theorem control_demandZero (s : State) (enclave va : Nat) : control (demandZero s enclave va) = control s := by
  unfold demandZero
  split
  · rfl
  · split
    · split <;> simp
    · rfl

@[simp] theorem control_touch (s : State) (core enclave : Nat) (a : Access) (va : Nat) : control (touch s core enclave a va).1 = control s := by
  unfold touch touchFor
  dsimp only
  split <;> simp

@[simp] theorem control_track (s : State) (line : Nat) (e : ScopeEntry) : control (track s line e).2 = control s := by
  unfold track
  dsimp only
  split
  · rfl
  · split_ifs <;> rfl

/-! ### Writes of agents -/

@[simp] theorem control_agentWriteVa (u : UnitId) (enclave : Nat) (bs : List Byte) : ∀ (s : State) (va : Nat),
    control (agentWriteVa s u enclave va bs).1 = control s := by
  induction bs with
  | nil => intro s va; rfl
  | cons b bs ih =>
    intro s va
    have htouch := control_touch s noCore enclave .write va
    unfold agentWriteVa
    split
    · rename_i t p hp
      rw [hp] at htouch
      split
      · exact htouch
      · rw [ih, control_writeHome, control_track]
        exact htouch
    · rename_i t g hg
      rw [hg] at htouch
      exact htouch

@[simp] theorem control_trackSy (s : State) (u : UnitId) (pa n : Nat) : control (trackSy s u pa n) = control s :=
  foldl_keeps control (fun s line => control_track s line _) _ s

@[simp] theorem control_writePhys (s : State) (pa : Nat) (bs : List Byte) : control (writePhys s pa bs) = control s :=
  foldl_keeps control (fun s _ => control_writeHome s _ _ _) _ s

end Sys2Proof.Machine

/-! SUPPORT. Writes of device space: where the registers stand, what a port's access leaves noted, and what a write does at a register
(R33, R194, R345, R354, R355). -/

namespace Sys2Proof.Machine

open Sys2Proof.Safety Sys2Proof.Claims

/-! ### Where the registers stand (R344) -/

theorem devReg_cluster {k off : Nat} (hk : k < 40) (hoff : off < 65536) (h8 : off % 8 = 0) : devReg (clusterAt k off) = clusterReg k off := by
  have hlow : ¬ clusterAt k off < clusterBlock := by unfold clusterAt; omega
  have hhigh : clusterAt k off < clusterBlock + 40 * 65536 := by unfold clusterAt; omega
  have halign : ¬ clusterAt k off % 8 ≠ 0 := by unfold clusterAt clusterBlock; omega
  have hunit : (clusterAt k off - clusterBlock) / 65536 = k := by unfold clusterAt; omega
  have hplace : clusterAt k off % 65536 = off := by unfold clusterAt clusterBlock; omega
  unfold devReg
  rw [if_neg halign, if_neg hlow, if_pos hhigh, hunit, hplace]

theorem devReg_clmode {k : Nat} (hk : k < 40) : devReg (clusterAt k 8) = some (.clmode k) := devReg_cluster hk (by decide) (by decide)
theorem devReg_coresvc {k : Nat} (hk : k < 40) : devReg (clusterAt k 0x40) = some (.coresvc k) := devReg_cluster hk (by decide) (by decide)
theorem devReg_pkid : devReg (packageBlock + 0x20) = some .pkid := by decide
theorem devReg_mgsem : devReg (packageBlock + 0x10) = some .mgsem := by decide
theorem devReg_pkctl : devReg (packageBlock + 0x18) = some .pkctl := by decide

/-! ### What an access of a port leaves (R317, R354, R355) -/

theorem mailboxWrite_beyond (s : State) (p : Nat) {a : Nat} (v : Nat) (ha : 65536 ≤ a) : mailboxWrite s p a v = s := by
  unfold mailboxWrite
  rw [if_neg]
  simp
  omega

theorem noteAccess_port (s : State) (p : Nat) : noteAccess s (.port p) = { s with mgmt := { s.mgmt with semLast := semTouched s p } } := by
  unfold noteAccess semTouched
  dsimp only
  split <;> rfl

/-- A refused access of a port: its answer is an error reply, and it counts for its hold of MGSEM. -/
theorem answerPort_noteAccess (s : State) (p : Nat) (r : Option Nat) : answerPort (noteAccess s (.port p)) (.port p) r =
    { s with mgmt := { s.mgmt with answers := s.mgmt.answers ++ [(p, r)], semLast := semTouched s p } } := by
  rw [noteAccess_port]
  rfl

/-- The state in which an accepted write is made: logged, counted and answered where it is a port's. -/
def admitted (s : State) (src : Source) (a v : Nat) : State := answerPort (noteWrite s src a v) src (some 0)

theorem logScrubbed_eq (s : State) (kind enclave actor : Nat) (body : List Byte) :
    ∃ r, logScrubbed s kind enclave actor body = { s with root := r } := by
  unfold logScrubbed
  split
  · exact logAppend_eq s kind enclave actor body
  · exact ⟨s.root, rfl⟩

/-- A port's accepted write noted: in the root's log, in its answers and as its last access. -/
def noted (s : State) (p : Nat) (r : Root) : State :=
  { s with root := r, mgmt := { s.mgmt with answers := s.mgmt.answers ++ [(p, some 0)], semLast := semTouched s p } }

theorem admitted_port (s : State) (p a v : Nat) : ∃ r, admitted s (.port p) a v = noted s p r := by
  obtain ⟨r, hr⟩ := logScrubbed_eq s 0x07 0 (1 + p) (bodyWords [p, a, v])
  refine ⟨r, ?_⟩
  show answerPort (noteAccess (logScrubbed s 0x07 0 (1 + p) (bodyWords [p, a, v])) (.port p)) (.port p) (some 0) = _
  rw [hr, answerPort_noteAccess]
  rfl

/-- An accepted write's admission changes the root, the answers and the last access alone. -/
theorem admitted_eq (s : State) (src : Source) (a v : Nat) : ∃ r ans last,
    admitted s src a v = { s with root := r, mgmt := { s.mgmt with answers := ans, semLast := last } } := by
  cases src with
  | port p =>
    obtain ⟨r, hr⟩ := admitted_port s p a v
    exact ⟨r, _, _, hr⟩
  | hart h => exact ⟨s.root, s.mgmt.answers, s.mgmt.semLast, rfl⟩
  | host p => exact ⟨s.root, s.mgmt.answers, s.mgmt.semLast, rfl⟩

/-- A logged record moves the log on. -/
theorem logAppend_seq (s : State) (kind enclave actor : Nat) (body : List Byte) : s.root.seq < (logAppend s kind enclave actor body).root.seq := by
  unfold logAppend
  dsimp only
  split
  · exact Nat.lt_succ_of_lt (Nat.lt_succ_self s.root.seq)
  · exact Nat.lt_succ_self s.root.seq

/-- A port's accepted write in READY is logged. -/
theorem admitted_seq {s : State} (hready : s.mgmt.state = stReady) (p a v : Nat) : s.root.seq < (admitted s (.port p) a v).root.seq := by
  have hscrub : scrubbed s = true := by simp [scrubbed, hready]
  have hroot : (admitted s (.port p) a v).root = (logAppend s 0x07 0 (1 + p) (bodyWords [p, a, v])).root := by
    show (answerPort (noteAccess (logScrubbed s 0x07 0 (1 + p) (bodyWords [p, a, v])) (.port p)) (.port p) (some 0)).root = _
    rw [answerPort_noteAccess, logScrubbed, if_pos hscrub]
  rw [hroot]
  exact logAppend_seq s _ _ _ _

/-! ### A write of device space -/

theorem agentWrite_host (s : State) (p a v : Nat) : agentWrite s (.host p) a v = mailboxWrite s p a v := by
  unfold agentWrite
  rfl

theorem agentWrite_port_none {a : Nat} (s : State) (p v : Nat) (h : devReg a = none) : agentWrite s (.port p) a v =
    if refusedPort s (.port p) then answerPort (noteAccess s (.port p)) (.port p) none else admitted s (.port p) a v := by
  unfold agentWrite
  rw [h]
  rfl

theorem agentWrite_hart_none {a : Nat} (s : State) (h v : Nat) (hnone : devReg a = none) : agentWrite s (.hart h) a v = s := by
  unfold agentWrite
  rw [hnone]
  rfl

theorem agentWrite_port_refused {s : State} {a v : Nat} {r : DevReg} (p : Nat) (h : devReg a = some r) (hacc : accepts s (.port p) v r = false) :
    agentWrite s (.port p) a v = answerPort (noteAccess s (.port p)) (.port p) none := by
  unfold agentWrite
  rw [h]
  simp only [hacc]
  rfl

theorem agentWrite_hart_refused {s : State} {a v : Nat} {r : DevReg} (n : Nat) (h : devReg a = some r) (hacc : accepts s (.hart n) v r = false) :
    agentWrite s (.hart n) a v = s := by
  unfold agentWrite
  rw [h]
  simp only [hacc]
  rfl

/-- A register's accepted write. That of MGSEM has rules of its own. -/
theorem agentWrite_accepted {s : State} {src : Source} {a v : Nat} {r : DevReg} (h : devReg a = some r) (hacc : accepts s src v r = true)
    (hr : r ≠ .mgsem) : agentWrite s src a v = regWrite (admitted s src a v) src v r := by
  cases src with
  | host p => simp [accepts] at hacc
  | port p =>
    unfold agentWrite
    rw [h]
    simp only [hacc]
    cases r with
    | mgsem => exact absurd rfl hr
    | _ => rfl
  | hart n =>
    unfold agentWrite
    rw [h]
    simp only [hacc]
    cases r <;> rfl

theorem agentWrite_mgsem {s : State} {p a v : Nat} (h : devReg a = some .mgsem) (hacc : accepts s (.port p) v .mgsem = true) :
    agentWrite s (.port p) a v = writeMgsem (admitted s (.port p) a v) p v := by
  unfold agentWrite
  rw [h]
  simp only [hacc]
  rfl

/-- A register's write: an accepted one is made in the admitted state, another leaves a port's answer and last access at most. -/
theorem agentWrite_cases {a : Nat} {r : DevReg} (s : State) (src : Source) (v : Nat) (h : devReg a = some r) (ha : 65536 ≤ a) (hr : r ≠ .mgsem) :
    (accepts s src v r = true ∧ agentWrite s src a v = regWrite (admitted s src a v) src v r) ∨
    (accepts s src v r = false ∧ ∃ ans last, agentWrite s src a v = { s with mgmt := { s.mgmt with answers := ans, semLast := last } }) := by
  cases hacc : accepts s src v r with
  | true => exact .inl ⟨rfl, agentWrite_accepted h hacc hr⟩
  | false =>
    refine .inr ⟨rfl, ?_⟩
    cases src with
    | port p =>
      rw [agentWrite_port_refused p h hacc, answerPort_noteAccess]
      exact ⟨_, _, rfl⟩
    | hart n =>
      rw [agentWrite_hart_refused n h hacc]
      exact ⟨s.mgmt.answers, s.mgmt.semLast, rfl⟩
    | host p =>
      rw [agentWrite_host, mailboxWrite_beyond s p v ha]
      exact ⟨s.mgmt.answers, s.mgmt.semLast, rfl⟩

end Sys2Proof.Machine

/-! SUPPORT. What a write does at each register of device space, and what it leaves of the log and of a port's answers. -/

namespace Sys2Proof.Machine

open Sys2Proof.Safety Sys2Proof.Claims

/-! ### Bents asked to stop, and a round of a migration begun -/

theorem control_keepRoom {s t : State} {ticket : Nat} (h : keepRoom s ticket = some t) : control t = control s := by
  unfold keepRoom at h
  split at h
  · split at h
    · exact congrArg control (Option.some.inj h).symm
    · obtain ⟨p, -, rfl⟩ := Option.map_eq_some_iff.mp h
      rfl
  · cases h

theorem control_foldlM_keepRoom (l : List Nat) : ∀ {s t : State}, l.foldlM keepRoom s = some t → control t = control s := by
  induction l with
  | nil =>
    intro s t h
    exact congrArg control (Option.some.inj h).symm
  | cons x l ih =>
    intro s t h
    rw [List.foldlM_cons] at h
    obtain ⟨u, hu, hrest⟩ := Option.bind_eq_some_iff.mp h
    exact (ih hrest).trans (control_keepRoom hu)

theorem control_requestBent (s : State) (ticket : Nat) : control (requestBent s ticket) = control s := rfl

theorem control_askStop (s : State) (ticket : Nat) : control (askStop s ticket) = control s := by
  unfold askStop
  split
  · rfl
  · split
    · rfl
    · split
      · rename_i u hu
        exact (foldl_keeps control control_requestBent _ u).trans (control_foldlM_keepRoom _ hu)
      · rfl

theorem control_setTracking (s : State) (id : Nat) (on : Bool) : control (setTracking s id on) = control s := by
  unfold setTracking
  split
  · rfl
  · dsimp only
    split
    · rfl
    · split <;> rfl

/-- The log and the management state: what a write of MIGCTL leaves, harts or no harts. -/
def ledger (s : State) : Mgmt × Root := (s.mgmt, s.root)

theorem ledger_of_control {s t : State} (h : control t = control s) : ledger t = ledger s :=
  Prod.ext (mgmt_of_control h) (root_of_control h)

theorem ledger_setHart (s : State) (n : Nat) (f : Hart → Hart) : ledger (setHart s n f) = ledger s := rfl

theorem ledger_expelHarts (s : State) (id : Nat) : ledger (expelHarts s id) = ledger s := by
  refine foldl_keeps ledger (fun s x => ?_) s.harts s
  dsimp only
  split
  · rw [ledger_setHart]
    exact ledger_of_control (control_agentWriteVa _ _ _ s _)
  · rfl

theorem ledger_startRound (s : State) (id : Nat) (final : Bool) : ledger (startRound s id final) = ledger s := by
  unfold startRound
  dsimp only
  split
  · exact (foldl_keeps ledger (fun s x => ledger_of_control (control_askStop s x)) _ _).trans (ledger_expelHarts _ id)
  · rfl

theorem ledger_writeMigctl (s : State) (id v : Nat) : ledger (writeMigctl s id v) = ledger s := by
  have htrack := ledger_of_control (control_setTracking s id (bit v 0))
  unfold writeMigctl
  split
  · rfl
  · dsimp only
    split
    · rfl
    · split
      · exact (ledger_startRound _ id _).trans htrack
      · exact htrack

/-! ### Answers and the log after a write -/

/-- The answers of the ports stand, and the log has at most moved on. -/
def LogGoesOn (s t : State) : Prop := t.mgmt.answers = s.mgmt.answers ∧ s.root.seq ≤ t.root.seq

theorem logGoesOn_of_ledger {s t : State} (h : ledger t = ledger s) : LogGoesOn s t := by
  obtain ⟨hmgmt, hroot⟩ := Prod.mk.inj h
  exact ⟨congrArg Mgmt.answers hmgmt, le_of_eq (congrArg Root.seq hroot).symm⟩

theorem logGoesOn_of_control {s t : State} (h : control t = control s) : LogGoesOn s t := logGoesOn_of_ledger (ledger_of_control h)

theorem control_writeColown (s : State) (c v : Nat) : control (writeColown s c v) = control s := by
  unfold writeColown
  dsimp only
  split
  · rfl
  · split
    · rfl
    · exact control_flushL1 s (inColumn c)

theorem ledger_writeClmode (s : State) (k : Nat) (fused : Bool) : ledger (writeClmode s k fused) = ledger s := by
  unfold writeClmode
  dsimp only
  split
  · rfl
  · show ledger (flushL1 s _) = ledger s
    exact ledger_of_control (control_flushL1 s _)

theorem control_writeWmask (s : State) (n p v : Nat) : control (writeWmask s n p v) = control s := by
  unfold writeWmask
  split <;> rfl

theorem control_writeWgate (s : State) (n v : Nat) : control (writeWgate s n v) = control s := by
  unfold writeWgate
  dsimp only
  split
  · rfl
  · exact (control_dropL2 _ _).trans rfl

theorem control_writeMsGate (s : State) (m v : Nat) : control (writeMsGate s m v) = control s := control_msDrop s _

theorem control_writeEgcfg (s : State) (g id v : Nat) : control (writeEgcfg s g id v) = control s := by
  unfold writeEgcfg
  dsimp only
  split
  · rfl
  · split <;> rfl

theorem writePcfg_logGoesOn (s : State) (src : Source) (p v : Nat) : LogGoesOn s (writePcfg s src p v) := by
  have hseq := logAppend_seq s 0x06 0 (actorOf src) (bodyWords [p, ofBool (debuggable s p)])
  obtain ⟨r, hr⟩ := logAppend_eq s 0x06 0 (actorOf src) (bodyWords [p, ofBool (debuggable s p)])
  unfold writePcfg
  dsimp only
  rw [hr] at hseq ⊢
  split
  · exact logGoesOn_of_control rfl
  · split <;> exact ⟨rfl, le_of_lt hseq⟩

/-- A write of any register but PKCTL keeps the ports' answers and what is logged. -/
theorem regWrite_logGoesOn {r : DevReg} (s : State) (src : Source) (v : Nat) (hr : r ≠ .pkctl) : LogGoesOn s (regWrite s src v r) := by
  have hsame : LogGoesOn s s := logGoesOn_of_control rfl
  cases r with
  | pkctl => exact absurd rfl hr
  | clbudget k =>
    simp only [regWrite]
    split <;> exact hsame
  | clmode k => exact logGoesOn_of_ledger (ledger_writeClmode s k _)
  | colown c => exact logGoesOn_of_control (control_writeColown s c v)
  | wmask n p => exact logGoesOn_of_control (control_writeWmask s n p v)
  | wgate n => exact logGoesOn_of_control (control_writeWgate s n v)
  | msGate m => exact logGoesOn_of_control (control_writeMsGate s m v)
  | pcfg p => exact writePcfg_logGoesOn s src p v
  | egcfg g id => exact logGoesOn_of_control (control_writeEgcfg s g id v)
  | migctl id => exact logGoesOn_of_ledger (ledger_writeMigctl s id v)
  | cxl off =>
    simp only [regWrite]
    split <;> exact hsame
  | coresvc | pkid | irq | mtimecmp | snap | occ | faultLog | mgid | mgstat | mgsem | tstat | pkgSnap | log => exact hsame

theorem writeMgsem_eq (s : State) (p v : Nat) : ∃ owner last tick,
    writeMgsem s p v = { s with mgmt := { s.mgmt with semOwner := owner, semLast := last, semTick := tick } } := by
  unfold writeMgsem
  dsimp only
  split
  · split
    · exact ⟨_, _, _, rfl⟩
    · exact ⟨s.mgmt.semOwner, s.mgmt.semLast, s.mgmt.semTick, rfl⟩
  · split
    · exact ⟨0, s.mgmt.semLast, s.mgmt.semTick, rfl⟩
    · exact ⟨s.mgmt.semOwner, s.mgmt.semLast, s.mgmt.semTick, rfl⟩

/-- A port's accepted write of any register but PKCTL is answered, and in READY logged. -/
theorem agentWrite_port_logged {s : State} {p a v : Nat} {r : DevReg} (h : devReg a = some r) (hacc : accepts s (.port p) v r = true)
    (hr : r ≠ .pkctl) : (agentWrite s (.port p) a v).mgmt.answers = s.mgmt.answers ++ [(p, some 0)] ∧
      (s.mgmt.state = stReady → (agentWrite s (.port p) a v).root.seq ≠ s.root.seq) := by
  have hgo : LogGoesOn (admitted s (.port p) a v) (agentWrite s (.port p) a v) := by
    by_cases hsem : r = .mgsem
    · subst hsem
      obtain ⟨owner, last, tick, hw⟩ := writeMgsem_eq (admitted s (.port p) a v) p v
      rw [agentWrite_mgsem h hacc, hw]
      exact ⟨rfl, le_refl _⟩
    · rw [agentWrite_accepted h hacc hsem]
      exact regWrite_logGoesOn _ _ v hr
  obtain ⟨hanswers, hseq⟩ := hgo
  obtain ⟨root, hadm⟩ := admitted_port s p a v
  refine ⟨hanswers.trans (by rw [hadm]; rfl), fun hready => ?_⟩
  have hlog := admitted_seq hready p a v
  omega

end Sys2Proof.Machine

/-! SUPPORT. Reads of device space after writes, and the registers of clusters and of the package (R33, R194, R345, R354, R355). -/

namespace Sys2Proof.Machine

open Sys2Proof.Safety Sys2Proof.Claims

/-! ### Numbers as bytes -/

theorem toBytes_length (n x : Nat) : (toBytes n x).length = n := by
  induction n generalizing x with
  | zero => rfl
  | succ n ih => rw [toBytes, List.length_cons, ih]

theorem ofBytes_toBytes (n x : Nat) : ofBytes (toBytes n x) = x % 256 ^ n := by
  induction n generalizing x with
  | zero => simp [toBytes, ofBytes, Nat.mod_one]
  | succ n ih =>
    have hpow : 256 ^ (n + 1) = 256 * 256 ^ n := Nat.pow_succ'
    rw [toBytes, ofBytes, ih, BitVec.toNat_ofNat, hpow, Nat.mod_mul]

/-- A number written as bytes reads back as bytes. -/
theorem bytes_writeBytes_toBytes (m : Memory) (a n x : Nat) : Memory.bytes (Memory.writeBytes m a (toBytes n x)) a n = toBytes n x := by
  have h := Memory.bytes_writeBytes (toBytes n x) m a
  rwa [toBytes_length] at h

theorem num_writeBytes_toBytes (m : Memory) (a n x : Nat) : Memory.num (Memory.writeBytes m a (toBytes n x)) a n = x % 256 ^ n := by
  rw [Memory.num, bytes_writeBytes_toBytes, ofBytes_toBytes]

/-! ### Registers read back -/

theorem regRead_regWrite_pkid (s : State) (src : Source) (v : Nat) : regRead (regWrite s src v .pkid) .pkid = v % 65536 := by
  show bits v 15 0 = v % 65536
  simp [bits]

theorem regRead_regWrite_irq (s : State) (src : Source) (v k : Nat) (d : Bool) :
    regRead (regWrite s src v (.irq k d)) (.irq k d) = v % 2 ^ 64 := by
  cases d <;> simp [regRead, regWrite, Tab.update]

theorem regRead_regWrite_mtimecmp {s : State} {h : Nat} {x : Hart} (src : Source) (v : Nat) (hx : hartOf s h = some x) :
    regRead (regWrite s src v (.mtimecmp h)) (.mtimecmp h) = v % 2 ^ 64 := by
  simp [regRead, regWrite, hartOf_setHart, hx, Hart.deadline]

theorem regRead_regWrite_cxl {off : Nat} (s : State) (src : Source) (v : Nat) (hport : Config.cxlPort = true) :
    regRead (regWrite s src v (.cxl off)) (.cxl off) = v % 2 ^ 64 := by
  simp only [regRead, regWrite, hport, if_true]
  exact num_writeBytes_toBytes s.cxl off 8 v

theorem regRead_regWrite_msGate (s : State) (src : Source) (v m : Nat) : regRead (regWrite s src v (.msGate m)) (.msGate m) = v % 65536 := by
  simp [regRead, regWrite, writeMsGate]

/-- No line is left in a gated way of a memory-side cache slice. -/
theorem msGate_empties {s : State} {src : Source} {v m : Nat} {l : MsLine} (h : l ∈ (regWrite s src v (.msGate m)).ms) (hm : l.slice = m)
    (hway : l.way < 16) : v.testBit l.way = false := by
  have hmem : l ∈ (msDrop s fun l => l.slice == m && (BitVec.ofNat 16 v).getLsbD l.way).ms := h
  have hkept : (!(l.slice == m && (BitVec.ofNat 16 v).getLsbD l.way)) = true := (List.mem_filter.mp hmem).2
  rw [hm, beq_self_eq_true, Bool.true_and, BitVec.getLsbD_ofNat, decide_eq_true hway, Bool.true_and] at hkept
  simpa using hkept

/-! ### A write of device space as `Written` tells it -/

theorem raiseSource_eq (s : State) (k : Nat) : ∃ q, raiseSource s k = { s with pending := q } := by
  unfold raiseSource
  split
  · exact ⟨_, rfl⟩
  · exact ⟨s.pending, rfl⟩

/-- A host's write reaches the mailbox of its endpoint, and else nothing. -/
theorem mailboxWrite_written (s : State) (p a n : Nat) :
    (linksUp s = true → isEndpoint p = true → a + 8 ≤ 65536 →
      Memory.bytes (mailboxWrite s p a n).mailbox (p * 65536 + a) 8 = toBytes 8 n ∧
      { mailboxWrite s p a n with mailbox := s.mailbox, pending := s.pending } = s) ∧
    (¬ (linksUp s = true ∧ isEndpoint p = true ∧ a + 8 ≤ 65536) → mailboxWrite s p a n = s) := by
  constructor
  · intro hup hend ha
    obtain ⟨q, hq⟩ := raiseSource_eq { s with mailbox := Memory.writeBytes s.mailbox (p * 65536 + a) (toBytes 8 n) } (sourceMailbox (pcieDie p))
    have hwrite : mailboxWrite s p a n = { s with mailbox := Memory.writeBytes s.mailbox (p * 65536 + a) (toBytes 8 n), pending := q } := by
      unfold mailboxWrite
      rw [if_pos (by simp [hup, hend, ha]), hq]
    rw [hwrite]
    exact ⟨bytes_writeBytes_toBytes _ _ _ _, rfl⟩
  · intro h
    unfold mailboxWrite
    rw [if_neg]
    simpa [and_assoc] using h

theorem agentWrite_written (s : State) (src : Source) (a n : Nat) : Written s (agentWrite s src a n) src a n := by
  refine ⟨?_, ?_, ?_, ?_, ?_⟩
  · rintro p rfl
    rw [agentWrite_host]
    exact mailboxWrite_written s p a n
  · rintro p rfl (⟨hnone, href⟩ | ⟨r, hr, hacc⟩)
    · rw [agentWrite_port_none s p n hnone, if_pos href]
      exact answerPort_noteAccess s p none
    · rw [agentWrite_port_refused p hr hacc]
      exact answerPort_noteAccess s p none
  · rintro p rfl hnone hok
    obtain ⟨hready, howner⟩ : s.mgmt.state = stReady ∧ s.mgmt.semOwner = p + 1 := by simpa [refusedPort] using hok
    obtain ⟨root, hadm⟩ := admitted_port s p a n
    have hlog := admitted_seq hready p a n
    have hlast : semTouched s p = governorTicks s 0 := if_pos howner
    rw [agentWrite_port_none s p n hnone, if_neg (by simp [hok])]
    rw [hadm] at *
    unfold noted
    rw [hlast]
    exact ⟨rfl, ne_of_gt hlog, rfl⟩
  · rintro h rfl (hnone | ⟨r, hr, hacc⟩)
    · exact agentWrite_hart_none s h n hnone
    · exact agentWrite_hart_refused h hr hacc
  · intro r hr hacc
    obtain ⟨root, ans, last, hadm⟩ := admitted_eq s src a n
    have hwrite (hsem : r ≠ .mgsem) := hadm ▸ agentWrite_accepted hr hacc hsem
    refine ⟨?_, ?_, ?_, ?_, ?_, ?_⟩
    · rintro p rfl hctl
      exact agentWrite_port_logged hr hacc hctl
    · rintro rfl
      rw [hwrite (by simp)]
      exact regRead_regWrite_pkid _ src n
    · rintro k d rfl
      rw [hwrite (by simp)]
      exact regRead_regWrite_irq _ src n k d
    · rintro m rfl
      rw [hwrite (by simp)]
      exact ⟨regRead_regWrite_msGate _ src n m, fun l hl hm hway => msGate_empties hl hm hway⟩
    · rintro h x rfl hx
      rw [hwrite (by simp)]
      exact regRead_regWrite_mtimecmp src n hx
    · rintro off rfl hport
      rw [hwrite (by simp)]
      exact regRead_regWrite_cxl _ src n hport

theorem agentRead_readBack (s : State) (src : Source) (a : Nat) : ReadBack s (agentRead s src a) src a := by
  constructor
  · rintro p rfl
    have hread : agentRead s (.port p) a = answerPort (noteAccess s (.port p)) (.port p)
        (if a < clusterBlock || (devReg a).any DevReg.inCxl then none else some (deviceRead s a)) := rfl
    rw [hread, answerPort_noteAccess]
    refine ⟨rfl, ?_, rfl, rfl, rfl⟩
    simp
  · intro hport
    cases src with
    | port p => exact absurd rfl (hport p)
    | hart h => rfl
    | host p => rfl

/-! ### Who may write (R33, R345, R354) -/

theorem accepts_state {s : State} {src : Source} {n : Nat} {r : DevReg} (h : accepts s src n r = true) :
    s.mgmt.state = stReady ∨ s.mgmt.state = stFailed := by
  simp only [accepts, Bool.and_eq_true, Bool.or_eq_true, beq_iff_eq] at h
  exact h.1.imp_right And.left

theorem accepts_port {s : State} {p n : Nat} {r : DevReg} (h : accepts s (.port p) n r = true) :
    p < 2 ∧ (r = .mgsem ∨ s.mgmt.semOwner = p + 1) := by
  simp only [accepts, Bool.and_eq_true, Bool.or_eq_true, beq_iff_eq, decide_eq_true_eq] at h
  obtain ⟨-, ⟨hp, -⟩, hr⟩ := h
  exact ⟨hp, hr⟩

theorem accepts_host (s : State) (p n : Nat) (r : DevReg) : accepts s (.host p) n r = false := by simp [accepts]

theorem accepts_hart {s : State} {h n : Nat} {r : DevReg} (hacc : accepts s (.hart h) n r = true) :
    r ≠ .mgsem ∧ ∃ x, hartOf s h = some x ∧ x.enclave = none ∧ (x.mode = .hs ∨ x.mode = .m) := by
  simp only [accepts, Bool.and_eq_true, hartReaches, Option.any_eq_true, bne_iff_ne, Bool.or_eq_true, beq_iff_eq, Option.isNone_iff_eq_none] at hacc
  obtain ⟨-, ⟨x, hx, henc, hmode⟩, hr⟩ := hacc
  exact ⟨hr, x, hx, henc, hmode⟩

end Sys2Proof.Machine

namespace Sys2Proof.Machine

open Sys2Proof.Safety Sys2Proof.Claims

/-! ### Registers of clusters (R33, R194) -/

/-- A cluster's registers changed: that cluster's alone. -/
theorem clusterOfPkg_update (s : State) (k j : Nat) (f : Cluster → Cluster) :
    clusterOfPkg { s with clusters := Tab.update s.clusters k Cluster.reset f } j = if j = k then f (clusterOfPkg s k) else clusterOfPkg s j := by
  unfold clusterOfPkg Tab.update
  by_cases h : j = k
  · subst h
    simp
  · simp [h, Tab.getD_set_ne _ _ _ h]

/-- A cluster's L1s and its fused cache. -/
def inCluster (k : Nat) (x : L1Line) : Bool := x.cache == Config.cores + k || (x.cache < Config.cores && pkgCluster x.cache == k)

/-- A write of CLMODE is ignored while the cluster holds a bent or the mode stands; else the cluster's caches are emptied and its mode set. -/
theorem writeClmode_cases (s : State) (k : Nat) (fused : Bool) :
    (((∃ x ∈ s.bents, x.2.cluster = k) ∨ (clusterOfPkg s k).fused = fused) ∧ writeClmode s k fused = s) ∨
    ((∀ x ∈ s.bents, x.2.cluster ≠ k) ∧ writeClmode s k fused = { flushL1 s (inCluster k) with
      clusters := Tab.update (flushL1 s (inCluster k)).clusters k Cluster.reset fun c => { c with fused := fused } }) := by
  have hbusy : (Tab.values s.bents).any (·.cluster == k) = true ↔ ∃ x ∈ s.bents, x.2.cluster = k := by
    simp [Tab.values, List.any_eq_true]
  unfold writeClmode
  split
  · rename_i h
    rw [Bool.or_eq_true, hbusy, beq_iff_eq] at h
    exact .inl ⟨h, rfl⟩
  · rename_i h
    rw [Bool.or_eq_true, hbusy] at h
    exact .inr ⟨fun x hx hk => h (.inl ⟨x, hx, hk⟩), rfl⟩

theorem clusterOfPkg_writeClmode (s : State) (k j : Nat) (fused : Bool) [Decidable (∀ x ∈ s.bents, x.2.cluster ≠ k)] :
    clusterOfPkg (writeClmode s k fused) j =
      if j = k ∧ ∀ x ∈ s.bents, x.2.cluster ≠ k then { clusterOfPkg s k with fused := fused } else clusterOfPkg s j := by
  rcases writeClmode_cases s k fused with ⟨hwhy, heq⟩ | ⟨hidle, heq⟩
  · rw [heq]
    split
    · rename_i h
      obtain ⟨rfl, hidle⟩ := h
      rcases hwhy with ⟨x, hx, hk⟩ | hsame
      · exact absurd hk (hidle x hx)
      · rw [← hsame]
    · rfl
  · have hclusters (i : Nat) : clusterOfPkg (flushL1 s (inCluster k)) i = clusterOfPkg s i := by
      rw [clusterOfPkg, clusters_of_control (control_flushL1 s _), ← clusterOfPkg]
    rw [heq, clusterOfPkg_update, hclusters, hclusters]
    by_cases hj : j = k
    · rw [if_pos hj, if_pos ⟨hj, hidle⟩]
    · rw [if_neg hj, if_neg fun h => hj h.1]

/-- A changed mode leaves nothing in the cluster's caches. -/
theorem writeClmode_empties {s : State} {k : Nat} {fused : Bool} (h : clusterOfPkg (writeClmode s k fused) k ≠ clusterOfPkg s k) :
    ∀ x ∈ (writeClmode s k fused).l1, x.cache ≠ Config.cores + k ∧ (x.cache < Config.cores → pkgCluster x.cache ≠ k) := by
  rcases writeClmode_cases s k fused with ⟨-, heq⟩ | ⟨-, heq⟩
  · exact absurd (by rw [heq]) h
  · rw [heq]
    intro x hx
    have hkept : (!inCluster k x) = true := (List.mem_filter.mp (show x ∈ (discard (writeBack s _) (inCluster k)).l1 from hx)).2
    obtain ⟨hfused, hl1⟩ : x.cache ≠ Config.cores + k ∧ (Config.cores ≤ x.cache ∨ pkgCluster x.cache ≠ k) := by
      simpa [inCluster] using hkept
    exact ⟨hfused, fun hlt => hl1.resolve_left (Nat.not_le.mpr hlt)⟩

theorem clusterAt_beyond (k off : Nat) : 65536 ≤ clusterAt k off := by
  unfold clusterAt clusterBlock
  omega

theorem clmodeWrite_does (s : State) (src : Source) (v : DWord) {k : Nat} (hk : k < 40) [Decidable (∀ x ∈ s.bents, x.2.cluster ≠ k)] :
    ∃ t, exec (.clmodeWrite src k v) s = .next t ∧ (∀ j, j ≠ k → clusterOfPkg t j = clusterOfPkg s j) ∧
      clusterOfPkg t k = (if accepts s src v.toNat (.clmode k) = true ∧ (∀ x ∈ s.bents, x.2.cluster ≠ k)
        then { clusterOfPkg s k with fused := bit v.toNat 0 } else clusterOfPkg s k) ∧
      (clusterOfPkg t k ≠ clusterOfPkg s k → ∀ x ∈ t.l1, x.cache ≠ Config.cores + k ∧ (x.cache < Config.cores → pkgCluster x.cache ≠ k)) := by
  refine ⟨agentWrite s src (clusterAt k 8) v.toNat, ?_, ?_⟩
  · show Host.Outcome.next (if decide (k < 40) then _ else _) = _
    rw [if_pos (decide_eq_true hk)]
  · rcases agentWrite_cases s src v.toNat (devReg_clmode hk) (clusterAt_beyond k 8) (by simp) with ⟨hacc, heq⟩ | ⟨hacc, ans, last, heq⟩
    · obtain ⟨root, ans, last, hadm⟩ := admitted_eq s src (clusterAt k 8) v.toNat
      rw [hadm] at heq
      change _ = writeClmode _ k (bit v.toNat 0) at heq
      rw [heq]
      refine ⟨fun j hj => ?_, ?_, writeClmode_empties⟩
      · rw [clusterOfPkg_writeClmode, if_neg (fun h => hj h.1)]
        rfl
      · rw [clusterOfPkg_writeClmode]
        simp only [hacc, true_and]
        rfl
    · rw [heq, hacc]
      simp
      exact ⟨fun j _ => rfl, rfl, fun h => absurd rfl h⟩

theorem coresvcWrite_does (s : State) (src : Source) (v : DWord) {k : Nat} (hk : k < 40) :
    ∃ t, exec (.coresvcWrite src k v) s = .next t ∧ t.mem = s.mem ∧
      clusterOfPkg t k = (if accepts s src v.toNat (.coresvc k) = true
        then { clusterOfPkg s k with csvc := BitVec.ofNat 16 v.toNat, qsvc := BitVec.ofNat 4 (v.toNat / 65536) } else clusterOfPkg s k) := by
  refine ⟨agentWrite s src (clusterAt k 0x40) v.toNat, ?_, ?_⟩
  · show Host.Outcome.next (if decide (k < 40) then _ else _) = _
    rw [if_pos (decide_eq_true hk)]
  · rcases agentWrite_cases s src v.toNat (devReg_coresvc hk) (clusterAt_beyond k 0x40) (by simp) with ⟨hacc, heq⟩ | ⟨hacc, ans, last, heq⟩
    · obtain ⟨root, ans, last, hadm⟩ := admitted_eq s src (clusterAt k 0x40) v.toNat
      rw [heq, hadm, if_pos hacc]
      exact ⟨rfl, (clusterOfPkg_update _ k k _).trans (if_pos rfl)⟩
    · rw [heq, hacc]
      exact ⟨rfl, rfl⟩

/-! ### PKID and MGSEM (R354, R355) -/

theorem pkidWrite_does (s : State) (src : Source) (v : DWord) :
    ∃ t, exec (.pkidWrite src v) s = .next t ∧ t.mgmt.pkid = (if accepts s src v.toNat .pkid = true then v.toNat % 65536 else s.mgmt.pkid) := by
  refine ⟨agentWrite s src (packageBlock + 0x20) v.toNat, rfl, ?_⟩
  rcases agentWrite_cases s src v.toNat devReg_pkid (by decide) (by simp) with ⟨hacc, heq⟩ | ⟨hacc, ans, last, heq⟩
  · rw [heq, if_pos hacc]
    exact regRead_regWrite_pkid _ src v.toNat
  · rw [heq, hacc]
    rfl

/-- A port's take of MGSEM: of a free one, or by port 0 of one that port 1 took in the same tick. -/
def mayTake (s : State) (p : Nat) : Prop := s.mgmt.semOwner = 0 ∨ (p = 0 ∧ s.mgmt.semOwner = 2 ∧ s.mgmt.semTick = some (governorTicks s 0))

theorem writeMgsem_take {s : State} {p v : Nat} (hv : bit v 0 = true) (h : mayTake s p) : writeMgsem s p v =
    { s with mgmt := { s.mgmt with semOwner := p + 1, semLast := governorTicks s 0, semTick := some (governorTicks s 0) } } := by
  unfold writeMgsem
  dsimp only
  rw [if_pos hv]
  exact if_pos h

theorem writeMgsem_held {s : State} {p v : Nat} (hv : bit v 0 = true) (h : ¬ mayTake s p) : writeMgsem s p v = s := by
  unfold writeMgsem
  dsimp only
  rw [if_pos hv]
  exact if_neg h

theorem writeMgsem_release {s : State} {p v : Nat} (hv : bit v 0 = false) :
    (writeMgsem s p v).mgmt.semOwner = if s.mgmt.semOwner = p + 1 then 0 else s.mgmt.semOwner := by
  unfold writeMgsem
  dsimp only
  rw [if_neg (by simp [hv])]
  split <;> rfl

theorem mgsemWrite_does (s : State) (v : DWord) {p : Nat} (hp : p < 2) (hready : s.mgmt.state = stReady) :
    ∃ t, exec (.mgsemWrite p v) s = .next t ∧ t.mem = s.mem ∧
      (bit v.toNat 0 = true → s.mgmt.semOwner = 0 → t.mgmt.semOwner = p + 1 ∧ t.mgmt.semLast = governorTicks s 0) ∧
      (bit v.toNat 0 = true → s.mgmt.semOwner = 2 → p = 0 → s.mgmt.semTick = some (governorTicks s 0) → t.mgmt.semOwner = 1) ∧
      (bit v.toNat 0 = true → s.mgmt.semOwner ≠ 0 → (p ≠ 0 ∨ s.mgmt.semOwner ≠ 2 ∨ s.mgmt.semTick ≠ some (governorTicks s 0)) →
        t.mgmt.semOwner = s.mgmt.semOwner) ∧
      (bit v.toNat 0 = false → t.mgmt.semOwner = (if s.mgmt.semOwner = p + 1 then 0 else s.mgmt.semOwner)) := by
  have hacc : accepts s (.port p) v.toNat .mgsem = true := by simp [accepts, hready, hp, DevReg.inCxl]
  obtain ⟨root, hadm⟩ := admitted_port s p (packageBlock + 0x10) v.toNat
  have heq := agentWrite_mgsem devReg_mgsem hacc
  rw [hadm] at heq
  refine ⟨agentWrite s (.port p) (packageBlock + 0x10) v.toNat, rfl, ?_⟩
  rw [heq]
  refine ⟨?_, fun hv hfree => ?_, fun hv howner hp0 htick => ?_, fun hv howner hother => ?_, fun hv => writeMgsem_release hv⟩
  · obtain ⟨owner, last, tick, hw⟩ := writeMgsem_eq (noted s p root) p v.toNat
    rw [hw]
    rfl
  · rw [writeMgsem_take hv (show mayTake (noted s p root) p from .inl hfree)]
    exact ⟨rfl, rfl⟩
  · rw [writeMgsem_take hv (show mayTake (noted s p root) p from .inr ⟨hp0, howner, htick⟩)]
    exact congrArg (· + 1) hp0
  · have hheld : ¬ mayTake (noted s p root) p := by
      rintro (hfree | ⟨hp0, htwo, htick⟩)
      · exact howner hfree
      · rcases hother with h | h | h
        · exact h hp0
        · exact h htwo
        · exact h htick
    rw [writeMgsem_held hv hheld]
    rfl

theorem mgsemTimeout_does (s : State) : ∃ t, exec .mgsemTimeout s = .next t ∧ t.mem = s.mem ∧
    t.mgmt.semOwner = (if s.mgmt.semLast + 2 ^ 28 ≤ governorTicks s 0 then 0 else s.mgmt.semOwner) := by
  have hexec : exec .mgsemTimeout s = execMgsemTimeout s := rfl
  rw [hexec]
  unfold execMgsemTimeout
  split
  · rename_i h
    refine ⟨s, rfl, rfl, ?_⟩
    split
    · rcases h with h | h
      · exact h
      · omega
    · rfl
  · rename_i h
    obtain ⟨r, hr⟩ := logScrubbed_eq s 0x07 0 0 (bodyWords [s.mgmt.semOwner - 1, packageBlock + 0x10, 0])
    rw [if_pos (by omega)]
    dsimp only
    rw [hr]
    exact ⟨_, rfl, rfl, rfl⟩

/-! ### The error queue's registers (R288) -/

theorem eqcfgWrite_does {s : State} {id : Nat} {e : Enclave} (v : DWord) (he : enclaveOf s id = some e) :
    ∃ t, exec (.eqcfgWrite id v) s = .next t ∧ enclaveOf t id = some { e with eq := e.eq.writeCfg v.toNat } ∧ t.mem = s.mem := by
  refine ⟨setEnclave s id fun e => { e with eq := e.eq.writeCfg v.toNat }, rfl, ?_, rfl⟩
  rw [enclaveOf_setEnclave, if_pos rfl, he]
  rfl

theorem eqdoorHeadWrite_does {s : State} {id : Nat} {e : Enclave} (v : DWord) (he : enclaveOf s id = some e) :
    ∃ t, exec (.eqdoorHeadWrite id v) s = .next t ∧ t.mem = s.mem ∧ enclaveOf t id =
      some { e with eq := if used e.eq.tail e.eq.head < used (v.toNat % 65536) e.eq.head then e.eq else { e.eq with head := v.toNat % 65536 } } := by
  have hlow : bits v.toNat 15 0 = v.toNat % 65536 := by simp [bits]
  refine ⟨setEnclave s id fun e => { e with eq := e.eq.writeHead v.toNat }, rfl, rfl, ?_⟩
  rw [enclaveOf_setEnclave, if_pos rfl, he, ← hlow]
  rfl

/-! ### What `ManagementWrites` claims -/

theorem managementWrites : ManagementWrites := by
  intro s src v n
  refine ⟨fun a => ⟨_, rfl, agentWrite_written s src a n⟩, fun a => ⟨_, rfl, agentRead_readBack s src a⟩, fun r p =>
    ⟨accepts_host s p n r, accepts_port, fun h => accepts_hart, accepts_state⟩, fun k hk => ?_, fun k hk => coresvcWrite_does s src v hk,
    pkidWrite_does s src v, fun p hp hready => mgsemWrite_does s v hp hready, mgsemTimeout_does s,
    fun id e he => ⟨eqcfgWrite_does v he, eqdoorHeadWrite_does v he⟩⟩
  exact clmodeWrite_does s src v hk

end Sys2Proof.Machine

/-! SUPPORT. Resets, bring-up, failure and heat (R34, R325, R343, R356, R358). -/

namespace Sys2Proof.Machine

open Sys2Proof.Safety Sys2Proof.Claims

/-! ### Resets asked for (R356) -/

theorem startReset_ready {s : State} (h : s.mgmt.state = stReady) (kind : Nat) : startReset s kind = resetState s kind := by
  unfold startReset
  rw [if_neg]
  simp [h, stReady, stFailed]

theorem startReset_failed_cold {s : State} (h : s.mgmt.state = stFailed) : startReset s coldKind = resetState s coldKind := by
  unfold startReset
  rw [if_neg]
  simp [h, stReady, stFailed]

theorem watchdogReset_ignored {s : State} (h : s.mgmt.state < stReady ∨ s.mgmt.state = stFailed) : exec .watchdogReset s = .next s := by
  have hstart : startReset s watchdogKind = s := by
    unfold startReset
    rw [if_pos]
    rcases h with h | h <;> simp [h, watchdogKind, coldKind]
  exact congrArg Host.Outcome.next hstart

/-- Below READY no register is written. -/
theorem not_accepts_below {s : State} (h : s.mgmt.state < stReady) (src : Source) (v : Nat) (r : DevReg) : accepts s src v r = false := by
  have hready : s.mgmt.state ≠ stReady := ne_of_lt h
  have hfailed : s.mgmt.state ≠ stFailed := ne_of_lt (Nat.lt_trans h (by decide))
  simp [accepts, hready, hfailed]

/-- A write of PKCTL below READY leaves a port's answer and last access at most. -/
theorem pkctl_below {s : State} (h : s.mgmt.state < stReady) (src : Source) (v : Nat) :
    { agentWrite s src (packageBlock + 0x18) v with
      mgmt := { (agentWrite s src (packageBlock + 0x18) v).mgmt with answers := s.mgmt.answers, semLast := s.mgmt.semLast } } = s := by
  rcases agentWrite_cases s src v devReg_pkctl (by decide) (by simp) with ⟨hacc, -⟩ | ⟨-, ans, last, heq⟩
  · exact absurd hacc (by simp [not_accepts_below h])
  · rw [heq]

/-- PKCTL's accepted write acts on a state that stands where the package does. -/
theorem pkctl_accepted {s : State} {src : Source} {v : Nat} (hacc : accepts s src v .pkctl = true) :
    ∃ s', agentWrite s src (packageBlock + 0x18) v = writePkctl s' v ∧ s'.mgmt.state = s.mgmt.state ∧
      s'.mgmt.triggers = s.mgmt.triggers := by
  obtain ⟨root, ans, last, hadm⟩ := admitted_eq s src (packageBlock + 0x18) v
  refine ⟨admitted s src (packageBlock + 0x18) v, agentWrite_accepted devReg_pkctl hacc (by simp), ?_, ?_⟩ <;> rw [hadm]

theorem writePkctl_warm (s : State) : writePkctl s 1 = startReset s warmKind := rfl
theorem writePkctl_cold (s : State) : writePkctl s 2 = startReset s coldKind := rfl
theorem writePkctl_plumb (s : State) : writePkctl s 4 = fireTrigger s := rfl

theorem pkctlWarmReset_does {s : State} {src : Source} (hacc : accepts s src 1 .pkctl = true) (hready : s.mgmt.state = stReady) :
    ∃ t, exec (.pkctlWarmReset src) s = .next t ∧ t.mgmt.state = stRootboot ∧ t.mgmt.lastrst = 1 := by
  obtain ⟨s', heq, hstate, -⟩ := pkctl_accepted hacc
  refine ⟨agentWrite s src (packageBlock + 0x18) 1, rfl, ?_⟩
  rw [heq, writePkctl_warm, startReset_ready (hstate.trans hready)]
  exact ⟨rfl, rfl⟩

theorem pkctlColdReset_does {s : State} {src : Source} (hacc : accepts s src 2 .pkctl = true) :
    ∃ t, exec (.pkctlColdReset src) s = .next t ∧ t.mgmt.state = stRootboot ∧ t.mgmt.lastrst = 0 := by
  obtain ⟨s', heq, hstate, -⟩ := pkctl_accepted hacc
  refine ⟨agentWrite s src (packageBlock + 0x18) 2, rfl, ?_⟩
  have hreset : startReset s' coldKind = resetState s' coldKind := by
    rcases accepts_state hacc with h | h
    · exact startReset_ready (hstate.trans h) coldKind
    · exact startReset_failed_cold (hstate.trans h)
  rw [heq, writePkctl_cold, hreset]
  exact ⟨rfl, rfl⟩

theorem pkctlPlumb_does {s : State} {src : Source} (hacc : accepts s src 4 .pkctl = true) :
    ∃ t, exec (.pkctlPlumb src) s = .next t ∧ t.mgmt.triggers = s.mgmt.triggers + 1 ∧ t.mgmt.state = s.mgmt.state := by
  obtain ⟨s', heq, hstate, htriggers⟩ := pkctl_accepted hacc
  refine ⟨agentWrite s src (packageBlock + 0x18) 4, rfl, ?_⟩
  rw [heq, writePkctl_plumb]
  exact ⟨congrArg (· + 1) htriggers, hstate⟩

/-! ### Bring-up (R325, R343, R356) -/

theorem rootbootDone_does (s : State) : ∃ t, exec .rootbootDone s = .next t ∧ t.mgmt.state =
    (if s.mgmt.state = stRootboot then (if s.mgmt.resetKind = coldKind then stTrain else stScrub) else s.mgmt.state) := by
  have hexec : exec .rootbootDone s = execRootbootDone s := rfl
  rw [hexec]
  unfold execRootbootDone
  by_cases h : s.mgmt.state = stRootboot
  · rw [if_neg (not_not.mpr h), if_pos h]
    exact ⟨_, rfl, rfl⟩
  · rw [if_pos h, if_neg h]
    exact ⟨s, rfl, rfl⟩

theorem phyTrainingDone_does (s : State) :
    ∃ t, exec .phyTrainingDone s = .next t ∧ t.mgmt.state = (if s.mgmt.state = stTrain then stScrub else s.mgmt.state) := by
  have hexec : exec .phyTrainingDone s = execPhyTrainingDone s := rfl
  rw [hexec]
  unfold execPhyTrainingDone
  by_cases h : s.mgmt.state = stTrain
  · rw [if_neg (not_not.mpr h), if_pos h]
    exact ⟨_, rfl, rfl⟩
  · rw [if_pos h, if_neg h]
    exact ⟨s, rfl, rfl⟩

theorem scrub_ignored {s : State} (h : s.mgmt.state ≠ stScrub) : exec .scrub s = .next s := if_pos h
theorem linksDone_ignored {s : State} (h : s.mgmt.state ≠ stLinks) : exec .linksDone s = .next s := if_pos h

/-- The machine as the scrub leaves it, before its record. -/
def wiped (s : State) : State :=
  { s with
    mem := [], side := [], pot := [], l1 := [], l2 := [], ms := [], icache := [], retained := [], tlb := [], tlb2 := [], walks := []
    hbm := [], reservations := [], monitors := [], scopes := [], dirtyMaps := []
    root := { s.root with keys := [(0, Config.randomKey s.root.drawn)], drawn := s.root.drawn + 1, log := [] } }

theorem logOne_root (s : State) (kind enclave actor : Nat) (body : List Byte) :
    ∃ seq head log, (logOne s kind enclave actor body).root = { s.root with seq := seq, head := head, log := log } := ⟨_, _, _, rfl⟩

/-- A record appended leaves the root's keys and their count. -/
theorem logAppend_keys (s : State) (kind enclave actor : Nat) (body : List Byte) :
    (logAppend s kind enclave actor body).root.keys = s.root.keys ∧ (logAppend s kind enclave actor body).root.drawn = s.root.drawn := by
  obtain ⟨seq, head, log, hone⟩ := logOne_root s kind enclave actor body
  unfold logAppend
  dsimp only
  split
  · obtain ⟨seq', head', log', htwo⟩ := logOne_root (logOne s kind enclave actor body) 0x0F 0 0 (toBytes 64 (Config.sm2Sign 0
      (toBytes 8 (logOne s kind enclave actor body).root.seq ++ digestBytes (logOne s kind enclave actor body).root.head)).toNat)
    rw [htwo, hone]
    exact ⟨rfl, rfl⟩
  · rw [hone]
    exact ⟨rfl, rfl⟩

/-- Body of the log record that a reset leaves. -/
def resetBody (s : State) : List Byte := toBytes 8 s.mgmt.resetKind ++ toBytes 8 s.root.seq ++ digestBytes s.root.head

theorem scrub_does {s : State} (h : s.mgmt.state = stScrub) : ∃ t, exec .scrub s = .next t ∧ t.mgmt.state = stLinks ∧
    (∀ a, Memory.read t.mem a = 0) ∧ t.pot = [] ∧ t.side = [] ∧ t.l1 = [] ∧ t.l2 = [] ∧ t.ms = [] ∧ t.retained = [] ∧ t.tlb = [] ∧ t.tlb2 = [] ∧
    Tab.keys t.root.keys = [0] ∧ t.root.drawn = s.root.drawn + 1 ∧ ∃ r ∈ t.root.log, r.kind = 9 ∧ r.seq = s.root.seq := by
  obtain ⟨root, hlog⟩ := logAppend_eq (wiped s) 0x09 0 0 (resetBody s)
  obtain ⟨hkeys, hdrawn⟩ := logAppend_keys (wiped s) 0x09 0 0 (resetBody s)
  have hexec : exec .scrub s = .next (setStatus (logAppend (wiped s) 0x09 0 0 (resetBody s)) stLinks) := if_neg (not_not.mpr h)
  obtain ⟨r, ⟨pre, post, hr, -⟩, hseq, -, hkind, -⟩ := logAppend_logged (wiped s) 0x09 0 0 (resetBody s)
  refine ⟨_, hexec, ?_⟩
  rw [hlog] at hkeys hdrawn hr ⊢
  refine ⟨rfl, fun a => rfl, rfl, rfl, rfl, rfl, rfl, rfl, rfl, rfl, congrArg Tab.keys hkeys, hdrawn, r, ?_, hkind, hseq⟩
  show r ∈ root.log
  have hroot : root.log = _ := hr
  rw [hroot]
  simp

theorem get?_map_upFrom {α : Type} (f : Nat → α) (n : Nat) : ∀ a k, a ≤ k → k < a + n → Tab.get? ((upFrom a n).map fun h => (h, f h)) k = some (f k) := by
  induction n with
  | zero => intro a k h1 h2; omega
  | succ n ih =>
    intro a k h1 h2
    rw [upFrom, List.map_cons, Tab.get?]
    split
    · rename_i h
      rw [h]
    · exact ih (a + 1) k (by omega) (by omega)

/-- In READY every hart stands at its start. -/
theorem linksDone_does {s : State} (h : s.mgmt.state = stLinks) : ∃ t, exec .linksDone s = .next t ∧ t.mgmt.state = stReady ∧
    ∀ k, k < 128 → ∃ h, hartOf t k = some h ∧ h.pc = 0 ∧ h.mode = .m ∧ h.getX 10 = BitVec.ofNat 64 k ∧ h.enclave = none := by
  have hexec : exec .linksDone s = .next (setStatus (startHarts s) stReady) := if_neg (not_not.mpr h)
  refine ⟨_, hexec, rfl, fun k hk => ⟨Hart.start k, ?_, rfl, rfl, rfl, rfl⟩⟩
  exact get?_map_upFrom Hart.start 128 0 k (Nat.zero_le k) (by omega)

/-! ### Package failure (R34, R356) -/

theorem control_slotPage (s : State) (enclave va : Nat) : control (slotPage s enclave va).1 = control s := by
  have htouch := control_touch s noCore enclave .write va
  unfold slotPage
  split
  · rename_i s' k hk
    rw [hk] at htouch
    split
    · exact (control_touch s' noCore enclave .read va).trans htouch
    · exact htouch
  · exact htouch

/-- What no failure of the package takes away: the readings of the sensors and the file store. -/
def sensorsAndFiles (s : State) : Tab Tstat × List Image := (s.tstat, s.images)

theorem sensorsAndFiles_of_control {s t : State} (h : control t = control s) : sensorsAndFiles t = sensorsAndFiles s :=
  Prod.ext (tstat_of_control h) (images_of_control h)

theorem sensorsAndFiles_errorRecord (s : State) (enclave cls code queue ticket pc info unit : Nat) :
    sensorsAndFiles (errorRecord s enclave cls code queue ticket pc info unit) = sensorsAndFiles s := by
  unfold errorRecord
  split
  · rfl
  · rename_i e he
    dsimp only
    split
    · rfl
    · have hslot := control_slotPage { s with mgmt := { s.mgmt with counts := Tab.update s.mgmt.counts (enclave * 256 + cls) 0 (· + 1) } } enclave
        (e.eq.ring * 4096 + 64 * (e.eq.tail % 2 ^ e.eq.logd))
      split
      · rename_i s' p hp
        rw [hp] at hslot
        split
        · rfl
        · have hs' : sensorsAndFiles s' = sensorsAndFiles s := (sensorsAndFiles_of_control hslot).trans rfl
          exact (sensorsAndFiles_of_control ((control_setEnclave _ _ _).trans (control_writeHome s' 0 _ _))).trans hs'
      · rfl

theorem failPackage_eq (s : State) (unit : Nat) : (failPackage s unit).mgmt.state = stFailed ∧ (failPackage s unit).enclaves = [] ∧
    (failPackage s unit).threads = [] ∧ (failPackage s unit).harts = [] ∧ sensorsAndFiles (failPackage s unit) = sensorsAndFiles s := by
  refine ⟨rfl, rfl, rfl, rfl, ?_⟩
  exact foldl_keeps sensorsAndFiles (fun s id => sensorsAndFiles_errorRecord s id 0x07 0 0xFFFF 0 0 0 unit) (Tab.keys s.enclaves) s

theorem packageFailure_does {s : State} (unit : Nat) (h : s.mgmt.state ≠ stFailed) : ∃ t, exec (.packageFailure unit) s = .next t ∧
    t.mgmt.state = stFailed ∧ t.enclaves = [] ∧ t.threads = [] ∧ t.harts = [] ∧ t.images = s.images := by
  obtain ⟨hstate, henclaves, hthreads, hharts, hkept⟩ := failPackage_eq s unit
  exact ⟨failPackage s unit, if_neg (by simpa using h), hstate, henclaves, hthreads, hharts, congrArg Prod.snd hkept⟩

theorem packageFailure_ignored {s : State} (unit : Nat) (h : s.mgmt.state = stFailed) : exec (.packageFailure unit) s = .next s :=
  if_pos (by simpa using h)

/-! ### Heat (R358) -/

theorem tstatOf_set (s : State) (die d : Nat) (x : Tstat) :
    tstatOf { s with tstat := Tab.set s.tstat die x } d = if d = die then x else tstatOf s d := by
  unfold tstatOf
  by_cases h : d = die
  · subst h
    simp
  · simp [h, Tab.getD_set_ne _ _ _ h]

/-- Whether THROT stands after a reading. -/
def throttles (t : Tstat) (temp : Nat) : Bool := 100 ≤ temp || (t.throt && 95 ≤ temp)

/-- A die's sensor after a reading. -/
def sensed (s : State) (die temp : Nat) : State :=
  { s with tstat := Tab.set s.tstat die { tstatOf s die with temp := min 255 temp, throt := throttles (tstatOf s die) temp } }

theorem readTemp_eq (s : State) (die temp : Nat) : readTemp s die temp =
    if throttles (tstatOf s die) temp = (tstatOf s die).throt then sensed s die temp else raiseSource (sensed s die temp) sourceThermal := by
  unfold readTemp
  simp only [beq_iff_eq]
  rfl

theorem readTemp_pending (s : State) (die temp : Nat) : ∃ q, readTemp s die temp = { sensed s die temp with pending := q } := by
  rw [readTemp_eq]
  split
  · exact ⟨s.pending, rfl⟩
  · exact raiseSource_eq _ _

theorem tstatOf_readTemp (s : State) (die temp d : Nat) : tstatOf (readTemp s die temp) d =
    if d = die then { tstatOf s die with temp := min 255 temp, throt := throttles (tstatOf s die) temp } else tstatOf s d := by
  obtain ⟨q, hq⟩ := readTemp_pending s die temp
  rw [hq]
  exact tstatOf_set s die d _

theorem raiseSource_set {s : State} {k target data : Nat} (h : Tab.get? s.irq k = some (target, data)) :
    raiseSource s k = { s with pending := s.pending ++ [.deviceMsi target data] } := by
  unfold raiseSource
  rw [h]

theorem thermalThrottle_does (s : State) {die temp : Nat} (hdie : die < 6) (htemp : temp < 115) :
    ∃ t, exec (.thermalThrottle die temp) s = .next t ∧ { t with tstat := s.tstat, pending := s.pending } = s ∧
      (tstatOf t die).temp = temp ∧ (tstatOf t die).trip = (tstatOf s die).trip ∧
      (100 ≤ temp → (tstatOf t die).throt = true) ∧ (temp < 95 → (tstatOf t die).throt = false) ∧
      (95 ≤ temp → temp < 100 → (tstatOf t die).throt = (tstatOf s die).throt) ∧
      (∀ d, d ≠ die → tstatOf t d = tstatOf s d) ∧
      ((tstatOf t die).throt = (tstatOf s die).throt → t.pending = s.pending) ∧
      ((tstatOf t die).throt ≠ (tstatOf s die).throt → ∀ h k, Tab.get? s.irq sourceThermal = some (h, k) →
        t.pending = s.pending ++ [.deviceMsi h k]) := by
  have hself := tstatOf_readTemp s die temp die
  rw [if_pos rfl] at hself
  refine ⟨readTemp s die temp, if_neg (by simp; omega), ?_, ?_, ?_, ?_, ?_, ?_, fun d hd => ?_, ?_, ?_⟩
  · obtain ⟨q, hq⟩ := readTemp_pending s die temp
    rw [hq]
    rfl
  · rw [hself]
    exact Nat.min_eq_right (by omega)
  · rw [hself]
  · intro h
    simp [hself, throttles, h]
  · intro h
    simp [hself, throttles]
    omega
  · intro h1 h2
    rw [hself]
    simp [throttles, h1]
    omega
  · rw [tstatOf_readTemp, if_neg hd]
  · rw [hself, readTemp_eq]
    intro h
    rw [if_pos h]
    rfl
  · rw [hself, readTemp_eq]
    intro h target data hirq
    rw [if_neg h, raiseSource_set (show Tab.get? (sensed s die temp).irq sourceThermal = _ from hirq)]
    rfl

theorem thermalTrip_ignored (s : State) {die temp : Nat} (htemp : temp < 115) : exec (.thermalTrip die temp) s = .next s :=
  if_pos (by simp [htemp])

/-- A die whose trip stands. -/
def tripped (s : State) (die : Nat) : State := { s with tstat := Tab.set s.tstat die { tstatOf s die with trip := true } }

theorem tstatOf_tripped (s : State) (die : Nat) : (tstatOf (tripped s die) die).trip = true := by
  rw [tripped, tstatOf_set, if_pos rfl]

theorem thermalTrip_does (s : State) {die temp : Nat} (hdie : die < 6) (htemp : 115 ≤ temp) :
    ∃ t, exec (.thermalTrip die temp) s = .next t ∧ (tstatOf t die).trip = true ∧ t.mgmt.state = stFailed := by
  have hexec : exec (.thermalTrip die temp) s = .next
      (if (tripped (readTemp s die temp) die).mgmt.state == stFailed then tripped (readTemp s die temp) die
        else failPackage (tripped (readTemp s die temp) die) (otherUnit die)) := if_neg (by simp; omega)
  refine ⟨_, hexec, ?_⟩
  split
  · rename_i hstate
    exact ⟨tstatOf_tripped _ die, by simpa using hstate⟩
  · obtain ⟨hstate, -, -, -, hkept⟩ := failPackage_eq (tripped (readTemp s die temp) die) (otherUnit die)
    have htstat : (failPackage (tripped (readTemp s die temp) die) (otherUnit die)).tstat = (tripped (readTemp s die temp) die).tstat :=
      congrArg Prod.fst hkept
    rw [tstatOf, htstat]
    exact ⟨tstatOf_tripped _ die, hstate⟩

/-! ### What `ResetsAndHeat` claims -/

theorem resetsAndHeat : ResetsAndHeat := by
  intro s
  refine ⟨rfl, fun src => ⟨watchdogReset_ignored, fun h i hi => ?_, pkctlWarmReset_does, pkctlColdReset_does⟩, fun h =>
    ⟨_, congrArg Host.Outcome.next (startReset_ready h watchdogKind), rfl⟩,
    fun kind => ⟨rfl, rfl, rfl, rfl, rfl, rfl, rfl, rfl, rfl, rfl, rfl, rfl, rfl, rfl, rfl, rfl, rfl, rfl, rfl, rfl, rfl, rfl⟩,
    rootbootDone_does s, phyTrainingDone_does s, scrub_ignored, scrub_does, linksDone_ignored, linksDone_does,
    fun u => ⟨packageFailure_ignored u, packageFailure_does u⟩, fun die temp hdie =>
    ⟨thermalThrottle_does s hdie, thermalTrip_does s hdie, thermalTrip_ignored s⟩⟩
  simp only [List.mem_cons, List.not_mem_nil, or_false] at hi
  rcases hi with rfl | rfl
  · exact ⟨_, rfl, pkctl_below h src 1⟩
  · exact ⟨_, rfl, pkctl_below h src 2⟩

end Sys2Proof.Machine

/-! SUPPORT. Bytes written line by line, and what the harts' accesses read and write (R149, R250, R340, R341, R345). -/

namespace Sys2Proof.Machine

open Sys2Proof.Safety Sys2Proof.Claims

/-! ### Memory after a write at the homes -/

theorem mem_noteFailure (s : State) (line : Nat) : (noteFailure s line).mem = s.mem := by
  unfold noteFailure
  dsimp only
  split <;> rfl

theorem mem_unflip (s : State) (line : Nat) (forged : Bool) : (unflip s line forged).mem = s.mem := by
  unfold unflip
  split <;> rfl

theorem mem_clearCount (s : State) (line : Nat) : (clearCount s line).mem = s.mem := by
  unfold clearCount
  split <;> rfl

theorem mem_lineWritten (s : State) (part line : Nat) : (lineWritten s part line).mem = s.mem := mem_clearCount s line

/-- A write at the home puts its bytes there and nothing else. -/
theorem mem_writeHome (s : State) (part pa : Nat) (bs : List Byte) : (writeHome s part pa bs).mem = Memory.writeBytes s.mem pa bs := by
  unfold writeHome partWritten writeOver
  rw [mem_unflip, mem_noteFailure, mem_lineWritten]

theorem mem_track (s : State) (line : Nat) (e : ScopeEntry) : (track s line e).2.mem = s.mem := by
  unfold track
  dsimp only
  split
  · rfl
  · split_ifs <;> rfl

theorem mem_trackSy (s : State) (u : UnitId) (pa n : Nat) : (trackSy s u pa n).mem = s.mem :=
  foldl_keeps State.mem (fun s line => mem_track s line _) _ s

/-! ### Bytes of several lines -/

theorem writeBytes_append (xs ys : List Byte) : ∀ (m : Memory) (a : Nat),
    Memory.writeBytes m a (xs ++ ys) = Memory.writeBytes (Memory.writeBytes m a xs) (a + xs.length) ys := by
  induction xs with
  | nil => intro m a; rfl
  | cons x xs ih =>
    intro m a
    rw [List.cons_append, Memory.writeBytes, Memory.writeBytes, ih, List.length_cons, Nat.add_assoc, Nat.add_comm 1]

/-- Bytes written in two parts, the first of at most c bytes. -/
theorem writeBytes_take_drop (m : Memory) (a c : Nat) (bs : List Byte) :
    Memory.writeBytes (Memory.writeBytes m a (bs.take c)) (a + c) (bs.drop c) = Memory.writeBytes m a bs := by
  by_cases hc : c ≤ bs.length
  · have hwhole := writeBytes_append (bs.take c) (bs.drop c) m a
    rw [List.take_append_drop, List.length_take, Nat.min_eq_left hc] at hwhole
    exact hwhole.symm
  · rw [List.drop_eq_nil_of_le (by omega), List.take_of_length_le (by omega)]
    rfl

/-- Where the i-th line of a write from an address begins. -/
def lineStart (pa i : Nat) : Nat := if i = 0 then pa else (pa / 128 + i) * 128

theorem lineStart_succ (pa i : Nat) : lineStart pa (i + 1) = lineStart pa i + (128 - lineStart pa i % 128) := by
  unfold lineStart
  split <;> split <;> omega

theorem lineStart_succ_mod (pa i : Nat) : lineStart pa (i + 1) % 128 = 0 := by
  unfold lineStart
  split <;> omega

theorem le_lineStart (pa i : Nat) : pa ≤ lineStart pa i := by
  unfold lineStart
  split <;> omega

/-- Bytes of a write that stand in its i-th line, put there. -/
def writeLine (pa : Nat) (bs : List Byte) (s : State) (i : Nat) : State :=
  writeHome s 0 (lineStart pa i) ((bs.drop (lineStart pa i - pa)).take (128 - lineStart pa i % 128))

theorem mem_foldl_writeLine (pa : Nat) (bs : List Byte) (m : Nat) : ∀ (i : Nat) (s : State),
    ((upFrom i m).foldl (writeLine pa bs) s).mem =
      Memory.writeBytes s.mem (lineStart pa i) ((bs.drop (lineStart pa i - pa)).take (128 * m - lineStart pa i % 128)) := by
  induction m with
  | zero =>
    intro i s
    simp [upFrom, Memory.writeBytes]
  | succ m ih =>
    intro i s
    let c := 128 - lineStart pa i % 128
    have hstart : lineStart pa (i + 1) = lineStart pa i + c := lineStart_succ pa i
    have hle := le_lineStart pa i
    have hdrop : bs.drop (lineStart pa (i + 1) - pa) = (bs.drop (lineStart pa i - pa)).drop c := by
      rw [List.drop_drop, hstart]
      congr 1
      omega
    have hlen : 128 * (m + 1) - lineStart pa i % 128 = c + 128 * m := by
      show _ = 128 - lineStart pa i % 128 + 128 * m
      omega
    have hsplit := writeBytes_take_drop s.mem (lineStart pa i) c ((bs.drop (lineStart pa i - pa)).take (c + 128 * m))
    rw [List.take_take, List.drop_take, Nat.min_eq_left (Nat.le_add_right c _), Nat.add_sub_cancel_left] at hsplit
    rw [upFrom, List.foldl_cons, ih, lineStart_succ_mod, Nat.sub_zero, hdrop, hlen, hstart, writeLine, mem_writeHome]
    exact hsplit

/-- Physical bytes written line by line stand in memory as if written at once. -/
theorem mem_writePhys (s : State) (pa : Nat) (bs : List Byte) : (writePhys s pa bs).mem = Memory.writeBytes s.mem pa bs := by
  have h := mem_foldl_writeLine pa bs ((pa % 128 + bs.length + 127) / 128) 0 s
  have hstart : lineStart pa 0 = pa := rfl
  rw [hstart, Nat.sub_self, List.drop_zero, List.take_of_length_le (by omega)] at h
  exact h

/-! ### Harts past an instruction -/

theorem setCsr_eq (h : Hart) (c v : Nat) : ∃ csr, h.setCsr c v = { h with csr := csr } := by
  unfold Hart.setCsr
  split
  · exact ⟨h.csr, rfl⟩
  · exact ⟨_, rfl⟩

/-- A hart past its instruction has its PC moved, and the count of those retired. -/
theorem step_eq (h : Hart) : ∃ csr, h.step = { h with pc := h.pc + BitVec.ofNat 64 h.len, csr := csr } := by
  unfold Hart.step Hart.goto
  dsimp only
  split
  · exact ⟨h.csr, rfl⟩
  · exact setCsr_eq { h with pc := h.pc + BitVec.ofNat 64 h.len } _ _

theorem setX_eq (h : Hart) (r : BitVec 5) (v : DWord) : ∃ x, h.setX r v = { h with x := x } := by
  unfold Hart.setX
  split
  · exact ⟨h.x, rfl⟩
  · exact ⟨_, rfl⟩

theorem getX_setX_self (h : Hart) {r : BitVec 5} (v : DWord) (hr : r ≠ 0) : (h.setX r v).getX r = v := by
  rw [Hart.setX, if_neg hr, Hart.getX, if_neg hr]
  exact Tab.getD_set_self h.x r.toNat v 0

theorem getX_setX_ne (h : Hart) {r k : BitVec 5} (v : DWord) (hk : k ≠ r) : (h.setX r v).getX k = h.getX k := by
  have hnum : k.toNat ≠ r.toNat := fun h => hk (BitVec.eq_of_toNat_eq h)
  by_cases hr : r = 0
  · rw [Hart.setX, if_pos hr]
  · rw [Hart.setX, if_neg hr]
    unfold Hart.getX
    split
    · rfl
    · exact Tab.getD_set_ne h.x v 0 hnum

theorem getX_step (h : Hart) (k : BitVec 5) : h.step.getX k = h.getX k := by
  obtain ⟨csr, hs⟩ := step_eq h
  rw [hs]
  rfl

theorem step_pc (h : Hart) : h.step.pc = h.pc + BitVec.ofNat 64 h.len := by
  obtain ⟨csr, hs⟩ := step_eq h
  rw [hs]

theorem step_setX_pc (h : Hart) (r : BitVec 5) (v : DWord) : (h.setX r v).step.pc = h.pc + BitVec.ofNat 64 h.len := by
  obtain ⟨x, hx⟩ := setX_eq h r v
  rw [step_pc, hx]

theorem hartOf_setHart_self {s : State} {n : Nat} {h : Hart} (f : Hart → Hart) (hh : hartOf s n = some h) :
    hartOf (setHart s n f) n = some (f h) := by
  rw [hartOf_setHart, if_pos rfl, hh]
  rfl

theorem hartOf_of_control {s t : State} (h : control t = control s) (n : Nat) : hartOf t n = hartOf s n := by
  rw [hartOf, hartOf, harts_of_control h]

/-! ### Reads of harts -/

theorem control_enclaveRead (id n : Nat) : ∀ (s : State) (va : Nat), control (enclaveRead s id va n).1 = control s := by
  induction n with
  | zero => intro s va; rfl
  | succ n ih =>
    intro s va
    have htouch := control_touch s noCore id .read va
    unfold enclaveRead
    split
    · rename_i t p hp
      rw [hp] at htouch
      split
      · exact htouch
      · exact (ih t _).trans htouch
    · rename_i t g hg
      rw [hg] at htouch
      exact htouch

theorem control_enclaveLoad (s : State) (id a size : Nat) : control (enclaveLoad s id a size).1 = control s := by
  unfold enclaveLoad
  split
  · split
    · rfl
    · exact control_enclaveRead id size s a
  · exact control_enclaveRead id size s a

theorem control_physRead (s : State) (n pa size : Nat) : control (physRead s n pa size).1 = control s := by
  unfold physRead
  split
  · split
    · rfl
    · split <;> rfl
  · split
    · rfl
    · rfl

/-- One page's part of a hart's read outside enclave mode. -/
def readPart (n : Nat) (h : Hart) (acc : Acc) (a : Nat) (p : State × Except Xcpt Nat × Nat) (part : Nat × Nat) : State × Except Xcpt Nat × Nat :=
  match p.2.1 with
  | .error _ => p
  | .ok v => match hartTranslate p.1 h acc .load part.1 with
    | .error e => (p.1, .error e, 0)
    | .ok pa => match physRead p.1 n pa part.2 with
      | (s, some x) => (s, .ok (v + x * 2 ^ (8 * p.2.2)), p.2.2 + part.2)
      | (s, none) => (s, .error (accessFault .load acc a), 0)

theorem hartReadAs_outside {h : Hart} (s : State) (n : Nat) (acc : Acc) (a size : Nat) (hout : h.enclave = none) :
    hartReadAs s n h acc a size = (((accessParts a size).foldl (readPart n h acc a) (s, .ok 0, 0)).1,
      ((accessParts a size).foldl (readPart n h acc a) (s, .ok 0, 0)).2.1) := by
  unfold hartReadAs
  rw [hout]
  rfl

theorem hartReadAs_inside {h : Hart} {id : Nat} (s : State) (n : Nat) (acc : Acc) (a size : Nat) (hid : h.enclave = some id) :
    hartReadAs s n h acc a size = ((enclaveLoad s id a size).1,
      (enclaveLoad s id a size).2.elim (.error (xcpt causeLoad (BitVec.ofNat 64 a))) .ok) := by
  unfold hartReadAs
  rw [hid]
  dsimp only
  generalize enclaveLoad s id a size = got
  obtain ⟨t, v⟩ := got
  cases v <;> rfl

theorem control_readPart (n : Nat) (h : Hart) (acc : Acc) (a : Nat) (p : State × Except Xcpt Nat × Nat) (part : Nat × Nat) :
    control (readPart n h acc a p part).1 = control p.1 := by
  unfold readPart
  split
  · rfl
  · split
    · rfl
    · rename_i pa hpa
      have hread := control_physRead p.1 n pa part.2
      split
      · rename_i t x hx
        rw [hx] at hread
        exact hread
      · rename_i t hx
        rw [hx] at hread
        exact hread

theorem control_hartReadAs (s : State) (n : Nat) (h : Hart) (acc : Acc) (a size : Nat) :
    control (hartReadAs s n h acc a size).1 = control s := by
  cases hid : h.enclave with
  | some id =>
    rw [hartReadAs_inside s n acc a size hid]
    exact control_enclaveLoad s id a size
  | none =>
    rw [hartReadAs_outside s n acc a size hid]
    exact foldl_keeps (fun p => control p.1) (control_readPart n h acc a) (accessParts a size) (s, .ok 0, 0)

theorem hartOf_hartRead {s t : State} {n : Nat} {h : Hart} {a size : Nat} {r : Except Xcpt Nat} (hread : hartRead s n h a size = (t, r)) (k : Nat) :
    hartOf t k = hartOf s k := by
  have hkeep := control_hartReadAs s n h h.dataAcc a size
  rw [show hartReadAs s n h h.dataAcc a size = (t, r) from hread] at hkeep
  exact hartOf_of_control hkeep k

/-- A decoded view is refused a hart (R149). -/
theorem hartRead_view {s : State} {n : Nat} {h : Hart} {id va size : Nat} {p : Page} (hid : h.enclave = some id) (hsize : 0 < size)
    (hp : translate s noCore id .read va = .ok p) (hdev : p.device = false) (hfmt : p.fmt ≠ 0) :
    (hartRead s n h va size).2 = .error (xcpt causeLoad (BitVec.ofNat 64 va)) := by
  obtain ⟨m, rfl⟩ : ∃ m, size = m + 1 := ⟨size - 1, by omega⟩
  have htouch : touch s noCore id .read va = (fillTlb s 0 noCore id va, .ok p) := by
    simp only [touch, touchFor, hp]
  have hread : enclaveRead s id va (m + 1) = (fillTlb s 0 noCore id va, none) := by
    unfold enclaveRead
    rw [htouch]
    simp [hfmt]
  have hload : (enclaveLoad s id va (m + 1)).2 = none := by
    unfold enclaveLoad
    rw [hp]
    simp only [hdev, hread]
    rfl
  rw [hartRead, hartReadAs_inside s n h.dataAcc va (m + 1) hid, hload]
  rfl

/-! ### Writes of harts -/

/-- An access within a page is one part. -/
theorem accessParts_one {a size : Nat} (h : a % 4096 + size ≤ 4096) : accessParts a size = [(a, size)] := by
  have hmin : min size (4096 - a % 4096) = size := by omega
  unfold accessParts
  simp [hmin]

/-- A hart's store to memory of the device, outside enclave mode. -/
theorem hartWrite_phys {s : State} {n : Nat} {h : Hart} {a size pa : Nat} (v : Nat) (hout : h.enclave = none) (hpage : a % 4096 + size ≤ 4096)
    (hpa : hartTranslate s h h.dataAcc .store a = .ok pa) (hlow : pa < Config.hbmBytes) (hown : deviceOwned s pa size = true) :
    hartWrite s n h a size v = .ok (writePhys (trackSy s (.sill n) pa size) pa (toBytes size v)) := by
  have hmay : physWritable s n pa size = true := by
    unfold physWritable
    rw [if_pos hlow, hown]
  unfold hartWrite hartWriteAs
  rw [hout, accessParts_one hpage]
  simp [hpa, hmay, physWrite, hlow]

end Sys2Proof.Machine

/-! SUPPORT. Plumb triggers and snapshots, and what the instructions of harts do (R149, R324, R340-R345, R357). -/

namespace Sys2Proof.Machine

open Sys2Proof.Safety Sys2Proof.Claims

/-! ### Plumb (R324, R357) -/

theorem traceRecord_blocked {s : State} {w : Nat} (c : Word) (h : w = 0 ∨ ∀ e, enclaveOf s w = some e → e.debug = false) :
    traceRecord s w c = s := by
  have hpass : tracePasses s w = false := by
    unfold tracePasses
    rcases h with rfl | h
    · rfl
    · rw [Bool.and_eq_false_iff, Option.any_eq_false]
      exact .inr fun e he => Bool.not_eq_true _ ▸ h e he
  unfold traceRecord
  rw [hpass]
  rfl

theorem traceRecord_passed {s : State} {w : Nat} {e : Enclave} (c : Word) (hw : w ≠ 0) (he : enclaveOf s w = some e) (hdebug : e.debug = true) :
    traceRecord s w c = fireTrigger { s with trace := s.trace ++ [{ world := w, content := c }] } := by
  have hpass : tracePasses s w = true := by
    unfold tracePasses
    simp [hw, he, hdebug]
  unfold traceRecord
  rw [if_pos hpass]

/-- A trigger while no snapshot is under way starts one; another is dropped and counted. -/
theorem plumbTrigger_does {s : State} (h : s.mgmt.triggers ≠ 0) :
    ∃ t, exec .plumbTrigger s = .next t ∧ { t with mgmt := s.mgmt } = s ∧ t.mgmt.triggers = s.mgmt.triggers - 1 ∧
      t.mgmt.fired = (s.mgmt.fired + 1) % 2 ^ 32 ∧
      (s.mgmt.unacked = [] → t.mgmt.plumb = (s.mgmt.plumb + 1) % 65536 ∧ t.mgmt.unacked = allUnits ∧ t.mgmt.dropped = s.mgmt.dropped) ∧
      (s.mgmt.unacked ≠ [] → t.mgmt.plumb = s.mgmt.plumb ∧ t.mgmt.unacked = s.mgmt.unacked ∧
        t.mgmt.dropped = min (2 ^ 32 - 1) (s.mgmt.dropped + 1)) := by
  have hexec : exec .plumbTrigger s = execPlumbTrigger s := rfl
  rw [hexec]
  unfold execPlumbTrigger
  rw [if_neg h]
  refine ⟨_, rfl, rfl, ?_⟩
  by_cases hidle : s.mgmt.unacked = []
  · simp [hidle]
  · simp [hidle]

theorem snapshotLatch_acked {s : State} {u : SnapUnit} (h : u ∉ s.mgmt.unacked) : exec (.snapshotLatch u) s = .next s := by
  have hexec : exec (.snapshotLatch u) s = execSnapshotLatch u s := rfl
  rw [hexec]
  unfold execSnapshotLatch
  simp [h]

/-- A unit asked for its snapshot latches the pair and is asked no more. -/
theorem snapshotLatch_does {s : State} {u : SnapUnit} (h : u ∈ s.mgmt.unacked) :
    ∃ t, exec (.snapshotLatch u) s = .next t ∧ { t with mgmt := s.mgmt } = s ∧ u ∉ t.mgmt.unacked ∧
      (∀ x ∈ s.mgmt.unacked, x ≠ u → x ∈ t.mgmt.unacked) ∧
      Tab.getD t.mgmt.snaps (unitKey u) (0, 0) =
        ((unitCounter s u) % 2 ^ 48 + 2 ^ 48 * (s.mgmt.plumb % 2 ^ 16), unitValue s u) := by
  have hexec : exec (.snapshotLatch u) s = execSnapshotLatch u s := rfl
  rw [hexec]
  unfold execSnapshotLatch
  rw [if_neg (by simp [h])]
  refine ⟨_, rfl, rfl, by simp, fun x hx hne => by simp [hx, hne], ?_⟩
  rw [Tab.getD_set_self]
  rfl

/-! ### Interrupts of harts (R342) -/

/-- Identities pending in an interrupt file once one more has arrived. -/
def msisWith (h : Hart) (m : Bool) (k : Nat) : List Nat := if (h.msis m).contains k then h.msis m else h.msis m ++ [k]

theorem mem_msisWith_self (h : Hart) (m : Bool) (k : Nat) : k ∈ msisWith h m k := by
  unfold msisWith
  split_ifs with hk
  · exact List.contains_iff_mem.mp hk
  · simp

theorem mem_msisWith_of_mem {h : Hart} {m : Bool} {j : Nat} (k : Nat) (hj : j ∈ h.msis m) : j ∈ msisWith h m k := by
  unfold msisWith
  split_ifs
  · exact hj
  · exact List.mem_append_left _ hj

/-- An MSI reaches the file that bit 16 of its target names, of the hart that its low 16 bits name. -/
theorem deviceMsi_does {s : State} {n target : Nat} {h : Hart} {m : Bool} (k : Nat) (hh : hartOf s n = some h) (hlow : target % 65536 = n)
    (hfile : bit target 16 = m) :
    ∃ t, exec (.deviceMsi target k) s = .next t ∧ hartOf t n = some (h.setMsis m (msisWith h m k)) := by
  subst hfile hlow
  exact ⟨_, rfl, hartOf_setHart_self _ hh⟩

theorem deviceMsi_supervisor {s : State} {n : Nat} {h : Hart} (k : Nat) (hh : hartOf s n = some h) (hn : n < 2 ^ 16) :
    ∃ t u, exec (.deviceMsi n k) s = .next t ∧ hartOf t n = some u ∧ k ∈ u.msi ∧ (∀ j ∈ h.msi, j ∈ u.msi) ∧ { u with msi := h.msi } = h := by
  have hfile : bit n 16 = false := by
    rw [bit, Nat.div_eq_of_lt hn]
    rfl
  obtain ⟨t, hexec, ht⟩ := deviceMsi_does k hh (Nat.mod_eq_of_lt hn) hfile
  exact ⟨t, _, hexec, ht, mem_msisWith_self h false k, fun j hj => mem_msisWith_of_mem (m := false) k hj, rfl⟩

theorem deviceMsi_machine {s : State} {n : Nat} {h : Hart} (k : Nat) (hh : hartOf s n = some h) (hn : n < 2 ^ 16) :
    ∃ t u, exec (.deviceMsi (n + 2 ^ 16) k) s = .next t ∧ hartOf t n = some u ∧ k ∈ u.msiM ∧ (∀ j ∈ h.msiM, j ∈ u.msiM) ∧
      { u with msiM := h.msiM } = h := by
  have hlow : (n + 2 ^ 16) % 65536 = n := by omega
  have hfile : bit (n + 2 ^ 16) 16 = true := by
    rw [bit, Nat.add_div_right n (Nat.two_pow_pos 16), Nat.div_eq_of_lt hn]
    rfl
  obtain ⟨t, hexec, ht⟩ := deviceMsi_does k hh hlow hfile
  exact ⟨t, _, hexec, ht, mem_msisWith_self h true k, fun j hj => mem_msisWith_of_mem (m := true) k hj, rfl⟩

/-! ### Instructions of harts (R340, R341, R345) -/

section
variable {s : State} {n : Nat} {h : Hart} (hh : hartOf s n = some h)
include hh

/-- A hart that the instruction leaves behind moves past it, its registers and mode kept. -/
theorem hartOf_stepped : ∃ u, hartOf (setHart s n Hart.step) n = some u ∧ u.pc = h.pc + BitVec.ofNat 64 h.len ∧ u.x = h.x ∧ u.mode = h.mode := by
  obtain ⟨csr, hs⟩ := step_eq h
  refine ⟨h.step, hartOf_setHart_self Hart.step hh, ?_⟩
  rw [hs]
  exact ⟨rfl, rfl, rfl⟩

theorem sillFence_does (a b : BitVec 4) : ∃ t u, exec (.sillCoreInstruction n (.fence a b)) s = .next t ∧ hartOf t n = some u ∧
    u.pc = h.pc + BitVec.ofNat 64 h.len ∧ u.x = h.x ∧ u.mode = h.mode ∧ t.mem = s.mem := by
  have hexec : exec (.sillCoreInstruction n (.fence a b)) s = execSillCoreInstruction n (.fence a b) s := rfl
  obtain ⟨u, hu, hpc, hx, hmode⟩ := hartOf_stepped hh
  refine ⟨setHart s n Hart.step, u, ?_, hu, hpc, hx, hmode, rfl⟩
  rw [hexec, execSillCoreInstruction, hh]

theorem sillLoad_does {rd : BitVec 5} {a size x : Nat} {sg o : Bool} {t : State} (hread : hartRead s n h a size = (t, .ok x)) :
    ∃ r u, exec (.sillCoreInstruction n (.load rd a size sg o)) s = .next r ∧ hartOf r n = some u ∧
      u.pc = h.pc + BitVec.ofNat 64 h.len ∧ (rd ≠ 0 → u.getX rd = extend sg size x) ∧ ∀ k, k ≠ rd → u.getX k = h.getX k := by
  have hexec : exec (.sillCoreInstruction n (.load rd a size sg o)) s = execSillCoreInstruction n (.load rd a size sg o) s := rfl
  have ht : hartOf t n = some h := (hartOf_hartRead hread n).trans hh
  refine ⟨setHart t n fun h => (h.setX rd (extend sg size x)).step, _, ?_, hartOf_setHart_self _ ht, step_setX_pc h rd _, fun hrd => ?_,
    fun k hk => ?_⟩
  · rw [hexec, execSillCoreInstruction, hh]
    simp only [hread]
  · rw [getX_step, getX_setX_self h _ hrd]
  · rw [getX_step, getX_setX_ne h _ hk]

theorem sillLoad_fault {rd : BitVec 5} {a size : Nat} {sg o : Bool} {t : State} {e : Xcpt} (hread : hartRead s n h a size = (t, .error e)) :
    exec (.sillCoreInstruction n (.load rd a size sg o)) s = .next (hartTrap t n h e) := by
  have hexec : exec (.sillCoreInstruction n (.load rd a size sg o)) s = execSillCoreInstruction n (.load rd a size sg o) s := rfl
  rw [hexec, execSillCoreInstruction, hh]
  simp only [hread]

theorem sillStore_fault {a size : Nat} {x : DWord} {o : Bool} {e : Xcpt} (hwrite : hartWrite s n h a size x.toNat = .error e) :
    exec (.sillCoreInstruction n (.store a size x o)) s = .next (hartTrap s n h e) := by
  have hexec : exec (.sillCoreInstruction n (.store a size x o)) s = execSillCoreInstruction n (.store a size x o) s := rfl
  rw [hexec, execSillCoreInstruction, hh]
  simp only [hwrite]

/-- A store to memory of the device puts its bytes there and nothing else. -/
theorem sillStore_does {a size pa : Nat} (x : DWord) (o : Bool) (hout : h.enclave = none) (hpage : a % 4096 + size ≤ 4096) (hsize : 0 < size)
    (hpa : hartTranslate s h h.dataAcc .store a = .ok pa) (hlow : pa + size ≤ Config.hbmBytes) (hown : deviceOwned s pa size = true) :
    ∃ t u, exec (.sillCoreInstruction n (.store a size x o)) s = .next t ∧ hartOf t n = some u ∧ u.pc = h.pc + BitVec.ofNat 64 h.len ∧
      Memory.bytes t.mem pa size = toBytes size x.toNat ∧ SameMemBut s t pa size := by
  have hexec : exec (.sillCoreInstruction n (.store a size x o)) s = execSillCoreInstruction n (.store a size x o) s := rfl
  have hwrite := hartWrite_phys (n := n) x.toNat hout hpage hpa (by omega) hown
  have hkept : control (writePhys (trackSy s (.sill n) pa size) pa (toBytes size x.toNat)) = control s :=
    (control_writePhys _ _ _).trans (control_trackSy _ _ _ _)
  have hmem : (writePhys (trackSy s (.sill n) pa size) pa (toBytes size x.toNat)).mem = Memory.writeBytes s.mem pa (toBytes size x.toNat) := by
    rw [mem_writePhys, mem_trackSy]
  obtain ⟨u, hu, hpc, -, -⟩ := hartOf_stepped ((hartOf_of_control hkept n).trans hh)
  refine ⟨_, u, ?_, hu, hpc, ?_, fun b hb => ?_⟩
  · rw [hexec, execSillCoreInstruction, hh]
    simp only [hwrite]
  · exact (congrArg (Memory.bytes · pa size) hmem).trans (bytes_writeBytes_toBytes s.mem pa size x.toNat)
  · refine (congrArg (Memory.read · b) hmem).trans (Memory.read_writeBytes_out _ s.mem pa b ?_)
    rwa [toBytes_length]

theorem sillIllegal_traps (w : Word) :
    exec (.sillCoreInstruction n (.illegal w)) s = .next (asyncExit s n h causeIllegal (BitVec.ofNat 64 w.toNat)) := by
  have hexec : exec (.sillCoreInstruction n (.illegal w)) s = execSillCoreInstruction n (.illegal w) s := rfl
  rw [hexec, execSillCoreInstruction, hh]

theorem sillCbo_does {z : Cbo} {a : Nat} (hok : cboFault s n h a = none) :
    ∃ t u, exec (.sillCoreInstruction n (.cbo z a)) s = .next t ∧ hartOf t n = some u ∧ u.pc = h.pc + BitVec.ofNat 64 h.len ∧ t.mem = s.mem := by
  have hexec : exec (.sillCoreInstruction n (.cbo z a)) s = execSillCoreInstruction n (.cbo z a) s := rfl
  obtain ⟨u, hu, hpc, -, -⟩ := hartOf_stepped hh
  refine ⟨setHart s n Hart.step, u, ?_, hu, hpc, rfl⟩
  rw [hexec, execSillCoreInstruction, hh]
  simp only [hok]

theorem sillCbo_fault {z : Cbo} {a : Nat} {e : Xcpt} (hfault : cboFault s n h a = some e) :
    exec (.sillCoreInstruction n (.cbo z a)) s = .next (hartTrap s n h e) := by
  have hexec : exec (.sillCoreInstruction n (.cbo z a)) s = execSillCoreInstruction n (.cbo z a) s := rfl
  rw [hexec, execSillCoreInstruction, hh]
  simp only [hfault]

end

/-- A cache-block operation on a decoded view faults as a store (R149). -/
theorem cboFault_view {s : State} {n id a : Nat} {h : Hart} {p : Page} (hid : h.enclave = some id) (hp : translate s noCore id .read a = .ok p)
    (hfmt : p.fmt ≠ 0) : ∃ e, cboFault s n h a = some e ∧ e.cause = causeStore := by
  refine ⟨xcpt causeStore (BitVec.ofNat 64 a), ?_, rfl⟩
  unfold cboFault
  simp [hid, hp, hfmt]

/-- A cache-block operation on device space that the hart does not reach faults as a store (R345). -/
theorem cboFault_unreached {s : State} {n a pa : Nat} {h : Hart} (hout : h.enclave = none) (hpa : hartTranslate s h h.dataAcc .load a = .ok pa)
    (hhigh : Config.hbmBytes ≤ pa) (hreach : hartReaches s n = false) : ∃ e, cboFault s n h a = some e ∧ e.cause = causeStore := by
  refine ⟨accessFault .store h.dataAcc a, ?_, rfl⟩
  unfold cboFault
  simp [hout, hpa, Nat.not_lt.mpr hhigh, hreach]

theorem plumbAndHarts : PlumbAndHarts := fun s =>
  ⟨rfl, fun _ c hw => traceRecord_blocked c hw,
    fun w c e hw he hdebug => by
      rw [traceRecord_passed c hw he hdebug]
      exact ⟨rfl, rfl, rfl⟩,
    fun _ hacc => pkctlPlumb_does hacc,
    fun h => by
      show execPlumbTrigger s = .next s
      rw [execPlumbTrigger, if_pos h],
    fun h => plumbTrigger_does h,
    fun _ => ⟨fun h => snapshotLatch_acked h, fun h => snapshotLatch_does h⟩,
    fun n h hh => ⟨rfl, fun k hn => deviceMsi_supervisor k hh hn, fun k hn => deviceMsi_machine k hh hn, sillFence_does hh,
      fun _ _ _ _ _ _ _ hread => sillLoad_does hh hread, fun _ _ _ _ _ _ _ hread => sillLoad_fault hh hread,
      fun _ _ _ _ _ hwrite => sillStore_fault hh hwrite,
      fun _ _ x o _ hout hpage hsize hpa hlow hown => sillStore_does hh x o hout hpage hsize hpa hlow hown,
      sillIllegal_traps hh, fun _ _ _ _ hid hsize hp hdev hfmt => hartRead_view hid hsize hp hdev hfmt,
      fun _ _ => ⟨fun hok => sillCbo_does hh hok, fun _ hfault => sillCbo_fault hh hfault⟩,
      fun _ _ _ hid hp hfmt => cboFault_view hid hp hfmt,
      fun _ _ hout hpa hhigh hreach => cboFault_unreached hout hpa hhigh hreach⟩⟩

end Sys2Proof.Machine

namespace Sys2Proof.Proofs

open Sys2Proof.Machine Sys2Proof.Safety Sys2Proof.Claims

/-- Settles O55: an accepted write is a write of its register after its admission, which keeps what no register write may touch; resets
and bring-up are read off their states; a hart's accesses leave the part of the state that the harts and the management registers are. -/
theorem managementResetsHarts : Obligations.ManagementResetsHarts := ⟨managementWrites, resetsAndHeat, plumbAndHarts⟩

end Sys2Proof.Proofs

/-! SUPPORT. Barriers and pre-emption points: what an acquire leaves alone, and what the resumption of chosen threads leaves of each thread. -/

namespace Sys2Proof.Machine

open Sys2Proof.Safety Sys2Proof.Claims

/-! ### What flushes and acquires leave alone -/

/-- A state without its caches and memory, and without what a write at a home brings with it: threads, bents, clusters and phases stay. -/
def withoutCaches (s : State) : State :=
  { s with mem := [], l1 := [], retained := [], l2 := [], ms := [], hbm := [], dirtyMaps := [], sliceRegs := [], side := [], pending := [],
           monitors := [], reservations := [] }

theorem withoutCaches_keepHbm (s : State) (line : Nat) : withoutCaches (keepHbm s line) = withoutCaches s := by
  unfold keepHbm
  split <;> rfl

theorem withoutCaches_clearCount (s : State) (line : Nat) : withoutCaches (clearCount s line) = withoutCaches s := by
  unfold clearCount
  split <;> rfl

theorem withoutCaches_noteFailure (s : State) (line : Nat) : withoutCaches (noteFailure s line) = withoutCaches s := by
  unfold noteFailure
  dsimp only
  split <;> rfl

theorem withoutCaches_unflip (s : State) (line : Nat) (forged : Bool) : withoutCaches (unflip s line forged) = withoutCaches s := by
  unfold unflip
  split <;> rfl

theorem withoutCaches_homeWritten (s : State) (part line : Nat) : withoutCaches (homeWritten s part line) = withoutCaches s := rfl

theorem withoutCaches_writeHomeCells (s : State) (part line : Nat) (cs : List Host.Cell) :
    withoutCaches (writeHomeCells s part line cs) = withoutCaches s := by
  have hmem (t : State) (m : Memory) : withoutCaches { t with mem := m } = withoutCaches t := rfl
  unfold writeHomeCells
  split
  · rfl
  · rw [partWritten, withoutCaches_unflip, withoutCaches_noteFailure, lineWritten, withoutCaches_homeWritten,
      withoutCaches_clearCount, hmem, withoutCaches_keepHbm]

theorem withoutCaches_writeBack (s : State) (sel : L1Line → BitVec 128) : withoutCaches (writeBack s sel) = withoutCaches s := by
  unfold writeBack
  dsimp only
  split
  · rfl
  · exact foldl_keeps withoutCaches (fun s x => withoutCaches_writeHomeCells s _ _ _) _ _

theorem withoutCaches_retain (s : State) (x : L1Line) : withoutCaches (retain s x) = withoutCaches s := by
  unfold retain
  split
  · split <;> rfl
  · rfl

theorem withoutCaches_flushL1 (s : State) (sel : L1Line → Bool) : withoutCaches (flushL1 s sel) = withoutCaches s :=
  (foldl_keeps withoutCaches withoutCaches_retain _ _).trans (withoutCaches_writeBack s (allOf sel))

/-- An acquire changes what a state's caches hold and what its write-backs bring with them, and nothing else (R233). -/
theorem withoutCaches_acquireAt (s : State) (control : Bool) (core : Nat) (sc : Scope) :
    withoutCaches (acquireAt s control core sc) = withoutCaches s := by
  unfold acquireAt
  split
  · exact withoutCaches_flushL1 s _
  · rfl

/-! ### Tables with rising keys -/

theorem Tab.mem_of_get? {α : Type} {t : Tab α} {k : Nat} {v : α} (h : Tab.get? t k = some v) : (k, v) ∈ t := by
  induction t with
  | nil => cases h
  | cons e t ih =>
    obtain ⟨k', v'⟩ := e
    unfold Tab.get? at h
    split at h
    · rename_i hk
      cases h
      rw [hk]
      exact List.mem_cons_self
    · exact List.mem_cons_of_mem _ (ih h)

theorem Tab.get?_of_mem {α : Type} {t : Tab α} (ht : (Tab.keys t).Pairwise (· < ·)) {k : Nat} {v : α} (h : (k, v) ∈ t) :
    Tab.get? t k = some v := by
  induction t with
  | nil => cases h
  | cons e t ih =>
    obtain ⟨k', v'⟩ := e
    obtain ⟨hhead, htail⟩ := List.pairwise_cons.1 ht
    rcases List.mem_cons.1 h with h | h
    · cases h
      simp [Tab.get?]
    · have hlt : k' < k := hhead k (List.mem_map_of_mem h)
      rw [Tab.get?, if_neg hlt.ne, ih htail h]

/-! ### The resumption of chosen threads (R224) -/

/-- The store a thread's core loads through. -/
def threadCache (s : State) (v : Thread) : Nat := cacheOf s (threadCore s v)

/-- A thread resumed at a phase start. -/
def resumedAt (v : Thread) (phase : Word) : Thread := { v with status := .running, pc := v.pc + 12, phaseStart := phase, late := [] }

/-- One entry of the thread table visited by `resumeAll`. -/
def resumeStep (sel : Thread → Bool) (s : State) (e : Nat × Thread) : State :=
  if sel e.2 then setThread (boundary s (threadCore s e.2)).1 e.1 (resumedAt e.2 (boundary s (threadCore s e.2)).2) else s

theorem resumeAll_eq_foldl (s : State) (sel : Thread → Bool) : resumeAll s sel = s.threads.foldl (resumeStep sel) s := rfl

/-- Entries up to a key whose threads are chosen and load through a store. -/
def chosenUpTo (s : State) (sel : Thread → Bool) (cache k : Nat) (l : Tab Thread) : Tab Thread :=
  l.filter fun e => decide (e.1 ≤ k) && sel e.2 && threadCache s e.2 == cache

theorem phaseOf_setThread (s : State) (k : Nat) (v : Thread) (cache : Nat) : phaseOf (setThread s k v) cache = phaseOf s cache := rfl

/-- A phase boundary advances the count of its core's store alone (R192). -/
theorem phaseOf_boundary (s : State) (core cache : Nat) :
    phaseOf (boundary s core).1 cache = phaseOf s cache + if cacheOf s core == cache then 1 else 0 := by
  by_cases hc : cacheOf s core = cache
  · subst hc
    simp [phaseOf, boundary]
  · have hother : phaseOf (boundary s core).1 cache = phaseOf s cache := Tab.getD_set_ne s.phases _ 0 (Ne.symm hc)
    simpa [hc] using hother

section
variable (sel : Thread → Bool) (s : State) (e : Nat × Thread)

theorem threadCache_resumeStep (v : Thread) : threadCache (resumeStep sel s e) v = threadCache s v := by
  unfold resumeStep
  split <;> rfl

theorem chosenUpTo_resumeStep (cache k : Nat) (l : Tab Thread) :
    chosenUpTo (resumeStep sel s e) sel cache k l = chosenUpTo s sel cache k l := by
  simp only [chosenUpTo, threadCache_resumeStep]

theorem phaseOf_resumeStep (cache : Nat) :
    phaseOf (resumeStep sel s e) cache = phaseOf s cache + if sel e.2 && threadCache s e.2 == cache then 1 else 0 := by
  unfold resumeStep
  split
  · rename_i hsel
    rw [phaseOf_setThread, phaseOf_boundary, hsel, Bool.true_and, threadCache]
  · rename_i hsel
    simp [hsel]

theorem threadOf_resumeStep_kept {k : Nat} (h : e.1 = k → sel e.2 = false) :
    threadOf (resumeStep sel s e) k = threadOf s k := by
  unfold resumeStep
  split
  · rename_i hsel
    have hne : k ≠ e.1 := fun hk => by simp [h hk.symm] at hsel
    exact threadOf_setThread_ne _ _ hne
  · rfl

theorem threadOf_resumeStep_resumed (hsel : sel e.2 = true) :
    threadOf (resumeStep sel s e) e.1 = some (resumedAt e.2 (phaseOf s (threadCache s e.2) + 1)) := by
  rw [resumeStep, if_pos hsel, threadOf_setThread_self]
  rfl

end

/-- A thread that no visited entry chooses stays as it is. -/
theorem threadOf_foldl_resumeStep_kept {sel : Thread → Bool} {k : Nat} {l : Tab Thread} (h : ∀ e ∈ l, e.1 = k → sel e.2 = false) (s : State) :
    threadOf (l.foldl (resumeStep sel) s) k = threadOf s k := by
  induction l generalizing s with
  | nil => rfl
  | cons e l ih =>
    rw [List.foldl_cons, ih fun e' he' => h e' (List.mem_cons_of_mem _ he')]
    exact threadOf_resumeStep_kept sel s e (h e List.mem_cons_self)

theorem chosenUpTo_nil {s : State} {sel : Thread → Bool} {cache k : Nat} {l : Tab Thread} (h : ∀ e ∈ l, k < e.1) :
    chosenUpTo s sel cache k l = [] := by
  refine List.filter_eq_nil_iff.2 fun e he => ?_
  simp [Nat.not_le.mpr (h e he)]

/-- A visited entry that is chosen is resumed in a phase that counts the chosen entries of its store up to it. -/
theorem threadOf_foldl_resumeStep_resumed {sel : Thread → Bool} {k : Nat} {v : Thread} {l : Tab Thread}
    (hl : (Tab.keys l).Pairwise (· < ·)) (hv : (k, v) ∈ l) (hsel : sel v = true) (s : State) :
    threadOf (l.foldl (resumeStep sel) s) k = some (resumedAt v
      (phaseOf s (threadCache s v) + BitVec.ofNat 32 (chosenUpTo s sel (threadCache s v) k l).length)) := by
  induction l generalizing s with
  | nil => cases hv
  | cons e l ih =>
    obtain ⟨hhead, htail⟩ := List.pairwise_cons.1 hl
    have hlater : ∀ e' ∈ l, e.1 < e'.1 := fun e' he' => hhead e'.1 (List.mem_map_of_mem he')
    rw [List.foldl_cons]
    rcases List.mem_cons.1 hv with rfl | hv
    · rw [threadOf_foldl_resumeStep_kept fun e' he' hk => absurd hk (hlater e' he').ne',
        threadOf_resumeStep_resumed sel s (k, v) hsel]
      have hcount : chosenUpTo s sel (threadCache s v) k ((k, v) :: l) = (k, v) :: chosenUpTo s sel (threadCache s v) k l := by
        simp [chosenUpTo, hsel]
      rw [hcount, chosenUpTo_nil hlater]
      rfl
    · have hle : e.1 ≤ k := (hlater (k, v) hv).le
      have hcount : chosenUpTo s sel (threadCache s v) k (e :: l) =
          if sel e.2 && threadCache s e.2 == threadCache s v then e :: chosenUpTo s sel (threadCache s v) k l
          else chosenUpTo s sel (threadCache s v) k l := by
        simp [chosenUpTo, List.filter_cons, hle]
      rw [ih htail hv, threadCache_resumeStep, phaseOf_resumeStep, chosenUpTo_resumeStep, hcount]
      split
      · rw [List.length_cons, BitVec.ofNat_add, BitVec.add_assoc, BitVec.add_comm (BitVec.ofNat 32 _)]
        rfl
      · rw [show (0 : Word) = 0#32 from rfl, BitVec.add_zero]

/-- Every thread after a resumption: a chosen one is resumed, another is as before. -/
theorem resumeAll_thread {s : State} (hs : (Tab.keys s.threads).Pairwise (· < ·)) (sel : Thread → Bool) {k : Nat} {v : Thread}
    (hv : Tab.get? s.threads k = some v) :
    ∃ u, threadOf (resumeAll s sel) k = some u ∧ (sel v = true → Resumed s sel k v u) ∧ (sel v = false → u = v) := by
  rw [resumeAll_eq_foldl]
  cases hsel : sel v with
  | true => exact ⟨_, threadOf_foldl_resumeStep_resumed hs (Tab.mem_of_get? hv) hsel s, fun _ => rfl, nofun⟩
  | false =>
    refine ⟨v, ?_, nofun, fun _ => rfl⟩
    rw [threadOf_foldl_resumeStep_kept _ s]
    · exact hv
    · rintro ⟨k', v'⟩ he rfl
      cases hv.symm.trans (Tab.get?_of_mem hs he)
      exact hsel

/-- A resumption that chooses no thread changes nothing. -/
theorem resumeAll_of_none {s : State} {sel : Thread → Bool} (h : ∀ v ∈ Tab.values s.threads, sel v = false) : resumeAll s sel = s := by
  have hfold : ∀ l : Tab Thread, (∀ v ∈ Tab.values l, sel v = false) → l.foldl (resumeStep sel) s = s := by
    intro l
    induction l with
    | nil => exact fun _ => rfl
    | cons e l ih =>
      intro hl
      rw [List.foldl_cons, resumeStep, if_neg (by simp [hl e.2 List.mem_cons_self])]
      exact ih fun v hv => hl v (List.mem_cons_of_mem _ hv)
  exact hfold s.threads h

/-! ### A block's barrier (R224, R371) -/

theorem barComplete_of_missing {s : State} {ticket block : Nat}
    (h : ∃ v ∈ (Tab.values s.threads).filter fun v => inBlock ticket block v && v.status != .exited, atBar v = false) :
    barComplete s ticket block = s := by
  obtain ⟨v, hv, hbar⟩ := h
  rw [barComplete, if_neg]
  intro hall
  simp only [Bool.and_eq_true, List.all_eq_true] at hall
  simp [hall.2 v hv] at hbar

theorem not_exited_of_atBar {v : Thread} (h : atBar v = true) : v.status ≠ .exited := by
  intro he
  simp [atBar, he] at h

/-- A barrier at which every live thread of the block has arrived resumes the threads at it; with none there it has nothing to do. -/
theorem barComplete_of_arrived {s : State} {ticket block : Nat}
    (h : ∀ v ∈ (Tab.values s.threads).filter fun v => inBlock ticket block v && v.status != .exited, atBar v = true) :
    barComplete s ticket block = resumeAll s fun v => inBlock ticket block v && atBar v := by
  unfold barComplete
  dsimp only
  split
  · rfl
  · rename_i hno
    have hempty : ((Tab.values s.threads).filter fun v => inBlock ticket block v && v.status != .exited) = [] := by
      by_contra hne
      simp [List.all_eq_true.2 h, hne] at hno
    refine (resumeAll_of_none fun v hv => ?_).symm
    by_contra hsel
    simp only [Bool.not_eq_false, Bool.and_eq_true] at hsel
    obtain ⟨hin, hbar⟩ := hsel
    exact List.filter_eq_nil_iff.1 hempty v hv (by simp [hin, not_exited_of_atBar hbar])

theorem blockBarrierCompletes : BlockBarrierCompletes := by
  intro s ticket block hs
  refine ⟨barComplete_of_missing, fun hall k v hv => ?_⟩
  obtain ⟨u, hu, hchosen, hkept⟩ := resumeAll_thread hs (fun v => inBlock ticket block v && atBar v) hv
  refine ⟨u, (barComplete_of_arrived hall).symm ▸ hu, fun hin hbar => hchosen (by simp [hin, hbar]), fun hnot => hkept ?_⟩
  rcases hnot with h | h <;> simp [h]

/-! ### A truss barrier (R224, R485, R486) -/

/-- The acquires that a truss barrier makes for the cores of its live participants. -/
def tbarAcquired (s : State) (l : Level) (cores : List Nat) : State :=
  if l = .bent then cores.foldl (fun s c => acquireAt s false c .cl) s else cores.foldl (fun s c => acquireAt s false c .dv) s

theorem withoutCaches_tbarAcquired (s : State) (l : Level) (cores : List Nat) :
    withoutCaches (tbarAcquired s l cores) = withoutCaches s := by
  unfold tbarAcquired
  split
  · exact foldl_keeps withoutCaches (fun s c => withoutCaches_acquireAt s false c .cl) cores s
  · exact foldl_keeps withoutCaches (fun s c => withoutCaches_acquireAt s false c .dv) cores s

/-- The live participants of a truss barrier. -/
def tbarLive (s : State) (l : Level) (a : Thread) : List Thread :=
  (Tab.values s.threads).filter fun v => tbarMember s l a v && v.status != .exited

/-- Whether a thread has arrived at a truss barrier that it takes part in. -/
def tbarArrived (s : State) (l : Level) (a v : Thread) : Bool := tbarMember s l a v && v.status == .tbar l

section
variable {s t : State} (h : withoutCaches t = withoutCaches s)
include h

theorem threads_of_withoutCaches : t.threads = s.threads := by
  show (withoutCaches t).threads = (withoutCaches s).threads
  rw [h]

/-- Who has arrived at a truss barrier does not depend on the caches. -/
theorem tbarArrived_of_withoutCaches (l : Level) (a : Thread) : tbarArrived t l a = tbarArrived s l a := by
  show tbarArrived (withoutCaches t) l a = tbarArrived (withoutCaches s) l a
  rw [h]

/-- Nor does how a thread is resumed. -/
theorem resumed_of_withoutCaches (sel : Thread → Bool) (k : Nat) (v u : Thread) : Resumed t sel k v u = Resumed s sel k v u := by
  show Resumed (withoutCaches t) sel k v u = Resumed (withoutCaches s) sel k v u
  rw [h]

end

/-- The state after a truss barrier's acquires, one for each core of a live participant. -/
def tbarAcquires (s : State) (l : Level) (a : Thread) : State :=
  tbarAcquired s l ((tbarLive s l a).map fun v => threadCore s v).eraseDups

theorem withoutCaches_tbarAcquires (s : State) (l : Level) (a : Thread) : withoutCaches (tbarAcquires s l a) = withoutCaches s :=
  withoutCaches_tbarAcquired s l _

theorem tbarComplete_eq (s : State) (l : Level) (a : Thread) : tbarComplete s l a =
    if !(tbarLive s l a).isEmpty && !tbarWaits s l a && (tbarLive s l a).all fun v => v.status == .tbar l then
      resumeAll (tbarAcquires s l a) (tbarArrived (tbarAcquires s l a) l a)
    else s := rfl

theorem tbarComplete_of_missing {s : State} {l : Level} {a : Thread}
    (h : (∃ v ∈ tbarLive s l a, v.status ≠ .tbar l) ∨ tbarWaits s l a = true) : tbarComplete s l a = s := by
  rw [tbarComplete_eq, if_neg]
  intro hall
  simp only [Bool.and_eq_true, List.all_eq_true, Bool.not_eq_true'] at hall
  obtain ⟨⟨-, hwaits⟩, harrived⟩ := hall
  rcases h with ⟨v, hv, hst⟩ | h
  · exact hst (by simpa using harrived v hv)
  · simp [h] at hwaits

/-- A truss barrier at which every live participant has arrived, and which waits for no saved bent, acquires and resumes the threads at it;
with none there it has nothing to do. -/
theorem tbarComplete_of_arrived {s : State} {l : Level} {a : Thread} (h : ∀ v ∈ tbarLive s l a, v.status = .tbar l)
    (hwaits : tbarWaits s l a = false) : tbarComplete s l a = resumeAll (tbarAcquires s l a) (tbarArrived s l a) := by
  rw [tbarComplete_eq, tbarArrived_of_withoutCaches (withoutCaches_tbarAcquires s l a)]
  split
  · rfl
  · rename_i hno
    have hempty : tbarLive s l a = [] := by
      by_contra hne
      exact hno (by simpa [hne, hwaits] using h)
    have hacquired : tbarAcquires s l a = s := by simp [tbarAcquires, tbarAcquired, hempty]
    rw [hacquired]
    refine (resumeAll_of_none fun v hv => ?_).symm
    by_contra hsel
    simp only [tbarArrived, Bool.not_eq_false, Bool.and_eq_true, beq_iff_eq] at hsel
    obtain ⟨hin, hst⟩ := hsel
    exact List.filter_eq_nil_iff.1 hempty v hv (by simp [hin, hst])

theorem trussBarrierCompletes : TrussBarrierCompletes := by
  intro s l a hs
  refine ⟨tbarComplete_of_missing, fun hall hwaits k v hv => ?_⟩
  have hsame := withoutCaches_tbarAcquires s l a
  have hthreads := threads_of_withoutCaches hsame
  obtain ⟨u, hu, hchosen, hkept⟩ := resumeAll_thread (hthreads.symm ▸ hs) (tbarArrived s l a) (hthreads.symm ▸ hv)
  rw [resumed_of_withoutCaches hsame] at hchosen
  refine ⟨u, (tbarComplete_of_arrived hall hwaits).symm ▸ hu, fun hin hst => hchosen (by simp [tbarArrived, hin, hst]), fun hnot => hkept ?_⟩
  rcases hnot with h | h <;> simp [tbarArrived, h]

/-! ### BAR, TBAR and YPT (R84, R371, R486, R493) -/

/-- A thread that executes an instruction of no hand and no control core is outside hand mode. -/
theorem not_handMode_of_contextCheck {i : Instr} {v : Thread} (hcontrol : i.onControl = false) (hhand : i.inHand = false)
    (hc : contextCheck i v = none) : v.handMode = false := by
  have ha := admitted_of_contextCheck hc
  unfold Instr.admitted at ha
  by_contra hh
  simp [hcontrol, hhand, hh] at ha

theorem loadsOut_eq_true {v : Thread} (h : v.loads ≠ []) : loadsOut v = true := by simp [loadsOut, h]

theorem loadsOut_eq_false {v : Thread} (h : v.loads = []) : loadsOut v = false := by simp [loadsOut, h]

/-- An instruction with no effect but on the PC advances its context. -/
theorem local'_advances {i : Instr} {s : State} {w : Who} {v : Thread} (hv : viewOf s w = some v) :
    ∃ t u, settleEff i s w v (local' i s w v) = .next t ∧ Advanced i w s t v u := by
  obtain ⟨r, hview, -⟩ := viewOf_putView (u := { v with pc := v.next i }) hv fun _ _ _ => rfl
  exact ⟨_, _, rfl, hview, rfl, rfl, onlyThread_putView s w _⟩

/-- A thread stopped at a point has not executed it, and no other thread changes (R84). -/
theorem stopAtPoint_stops (s : State) (n : Nat) (v : Thread) (idx : Nat) : ∃ u, viewOf (stopAtPoint s (.thread n) v idx) (.thread n) = some u ∧
    u.status = .stopped (some idx) ∧ u.pc = v.pc ∧ OnlyThread (.thread n) s (stopAtPoint s (.thread n) v idx) :=
  ⟨_, viewOf_putView_thread s n _, rfl, rfl, onlyThread_putView s (.thread n) _⟩

section
variable {s : State} {w : Who} {v : Thread}

theorem execBar_ready {x : Ext} (R : Ready (.bar x) s w v) : exec (.bar x) s = settleEff (.bar x) s w v
    (if requested s v then .done (stopAtPoint s w v x.imm.toNat) else if loadsOut v then .stall
      else .done (barComplete (putView s w { v with status := .bar x.imm.toNat }) v.bent v.block)) :=
  run_ready R _

theorem bar_stops {x : Ext} (R : Ready (.bar x) s w v) (hreq : requested s v = true) :
    ∃ t u, exec (.bar x) s = .next t ∧ viewOf t w = some u ∧ u.status = .stopped (some x.imm.toNat) ∧ u.pc = v.pc ∧ OnlyThread w s t := by
  obtain ⟨n, rfl⟩ := thread_of_not_handMode R.view (not_handMode_of_contextCheck rfl rfl R.checks)
  obtain ⟨u, hu⟩ := stopAtPoint_stops s n v x.imm.toNat
  refine ⟨_, u, ?_, hu⟩
  rw [execBar_ready R, if_pos hreq, settleEff]

/-- TBAR of a level that its launch admits waits for loads, or arrives behind the release of its level. -/
theorem execTbar_ready {l : Level} {x : Ext} {h : Header} (R : Ready (.tbar l x) s w v) (hh : headerOf s v = some h)
    (hl : l = .bent ∨ h.coop = true) : exec (.tbar l x) s = settleEff (.tbar l x) s w v (if loadsOut v then .stall
      else .done (tbarComplete (putView (releaseAt s false (threadCore s v) (if l = .bent then .cl else .dv)) w
        { v with status := .tbar l }) l v)) := by
  have hadmits : ¬ (l ≠ .bent ∧ !((headerOf s v).any (·.coop))) := by
    rintro ⟨hne, hcoop⟩
    rcases hl with rfl | hl
    · exact hne rfl
    · simp [hh, hl] at hcoop
  refine (run_ready R _).trans ?_
  rw [if_neg hadmits]

theorem ypt_stops {x : Ext} {n : Nat} (R : Ready (.ypt x) s (.thread n) v) (hreq : requested s v = true) (hiter : v.hctx.iter = none) :
    ∃ t u, exec (.ypt x) s = .next t ∧ viewOf t (.thread n) = some u ∧ u.status = .stopped (some x.imm.toNat) ∧ u.pc = v.pc ∧
      OnlyThread (.thread n) s t := by
  obtain ⟨u, hu⟩ := stopAtPoint_stops s n v x.imm.toNat
  refine ⟨_, u, (run_ready R _).trans ?_, hu⟩
  simp [hreq, hiter, settleEff]

theorem ypt_advances {x : Ext} (R : Ready (.ypt x) s w v)
    (h : requested s v = false ∨ v.hctx.iter ≠ none ∨ ∃ n h, w = .hand n h) :
    ∃ t u, exec (.ypt x) s = .next t ∧ Advanced (.ypt x) w s t v u := by
  have hexec : exec (.ypt x) s = settleEff (.ypt x) s w v (local' (.ypt x) s w v) := by
    refine (run_ready R _).trans ?_
    cases w with
    | thread n =>
      have hno : (requested s v && v.hctx.iter.isNone) = false := by
        rcases h with h | h | ⟨_, _, h⟩
        · rw [h, Bool.false_and]
        · rw [Option.isNone_eq_false_iff.2 (Option.isSome_iff_ne_none.2 h), Bool.and_false]
        · cases h
      simp only [hno, Bool.false_eq_true, if_false]
    | hand n k => rfl
    | hart n => rfl
  rw [hexec]
  exact local'_advances R.view

end

theorem barriersAndPoints : BarriersAndPoints := by
  intro s w v
  refine ⟨fun x R hreq hloads => ?_, fun x R hreq hloads => ?_, fun x R => bar_stops R, fun l x h R hh hl hloads => ?_,
    fun l x h R hh hl hloads => ?_, fun x n hw R => ?_, fun x R => ypt_advances R⟩
  · rw [execBar_ready R, hreq, loadsOut_eq_true hloads]
    rfl
  · rw [execBar_ready R, hreq, loadsOut_eq_false hloads]
    rfl
  · rw [execTbar_ready R hh hl, loadsOut_eq_true hloads]
    rfl
  · rw [execTbar_ready R hh hl, loadsOut_eq_false hloads]
    rfl
  · subst hw
    exact ypt_stops R

end Sys2Proof.Machine

namespace Sys2Proof.Proofs

open Sys2Proof.Machine Sys2Proof.Safety Sys2Proof.Claims

/-- Settles O22: BAR, TBAR and YPT read off their effects; a barrier's completion resumes the threads at it one by one in table order, each
in a phase that counts those of its store before it, and the acquires before it leave threads, places and phases alone. -/
theorem barriersAndPreemptionPoints : Obligations.BarriersAndPreemptionPoints :=
  ⟨barriersAndPoints, blockBarrierCompletes, trussBarrierCompletes⟩

end Sys2Proof.Proofs

/-! SUPPORT. Rounding of values that lie on a format's grid (R138). -/

namespace Sys2Proof.Machine

open Sys2Proof.Safety Sys2Proof.Claims

/-! ### Rounding on the grid -/

/-- A number whose last place is the spacing of its format where it lies, as that of every finite pattern is (R133, R138). -/
def Fmt.OnGrid (f : Fmt) (mag : Nat) (exp : Int) : Prop := exp = max f.qmin (exp + Nat.log2 mag - f.mbits)

/-- The code of a number on the grid: its place in the rising order of magnitudes. -/
def Fmt.gridCode (f : Fmt) (mag : Nat) (exp : Int) : Nat := (exp - f.qmin).toNat * 2 ^ f.mbits + mag

theorem Fmt.onGrid_subnormal (f : Fmt) {mag : Nat} (hmag : mag < 2 ^ f.mbits) : f.OnGrid mag f.qmin := by
  have hlog : Nat.log2 mag ≤ f.mbits := by
    by_cases h : mag = 0
    · simp [h]
    · exact le_of_lt ((Nat.log2_lt h).2 hmag)
  unfold Fmt.OnGrid
  omega

theorem Fmt.onGrid_normal (f : Fmt) {m : Nat} (hm : m < 2 ^ f.mbits) (k : Nat) : f.OnGrid (2 ^ f.mbits + m) (f.qmin + k) := by
  have hlog : Nat.log2 (2 ^ f.mbits + m) = f.mbits := (Nat.log2_eq_iff (by omega)).2 ⟨by omega, by omega⟩
  unfold Fmt.OnGrid
  omega

/-- The lower neighbour of a number on the grid is the number itself, and nothing lies above it. -/
theorem Fmt.magnitude_onGrid {f : Fmt} {mag : Nat} {exp : Int} (hgrid : f.OnGrid mag exp) (mode : Rnd) (h : Nat) (neg : Bool) :
    f.magnitude mode h neg mag exp = (f.gridCode mag exp, false) := by
  unfold Fmt.OnGrid at hgrid
  have htop : ¬ exp + (Nat.log2 mag : Int) < f.qmin - 40 := by omega
  simp only [Fmt.magnitude, if_neg htop, ← hgrid]
  simp [Fmt.gridCode]

/-- A number on the grid, and not past the largest finite one, rounds to its own code without a flag. -/
theorem Fmt.roundNum_onGrid {f : Fmt} {mag : Nat} {exp : Int} (hgrid : f.OnGrid mag exp) (hmag : mag ≠ 0)
    (hmax : f.gridCode mag exp ≤ f.maxCode) (mode : Rnd) (h : Nat) (sat neg : Bool) :
    f.roundNum mode h sat neg mag exp = ((if neg then f.signBit else 0) + f.gridCode mag exp, 0) := by
  simp [Fmt.roundNum, if_neg hmag, magnitude_onGrid hgrid, if_neg (Nat.not_lt.2 hmax), flagIf]

/-- The value of a sign and a finite code rounds back to them, in every mode (R138). -/
theorem Fmt.round_decode {f : Fmt} {p : Nat} (hmax : p % f.signBit ≤ f.maxCode) (mode : Rnd) (h : Nat) (sat : Bool) :
    f.round mode h sat (f.decode p) = ((if p / f.signBit % 2 = 1 then f.signBit else 0) + p % f.signBit, 0) := by
  generalize hcode : p % f.signBit = code at hmax
  have hfrac : code % 2 ^ f.mbits < 2 ^ f.mbits := Nat.mod_lt _ (Nat.two_pow_pos _)
  have hsplit : 2 ^ f.mbits * (code / 2 ^ f.mbits) + code % 2 ^ f.mbits = code := Nat.div_add_mod code _
  simp only [Fmt.decode, hcode, if_pos hmax]
  cases he : code / 2 ^ f.mbits with
  | zero =>
    have hmag : code % 2 ^ f.mbits = code := by simpa [he] using hsplit
    simp only [if_true, Fmt.round, hmag]
    by_cases hzero : code = 0
    · simp [Fmt.roundNum, hzero]
    · have hgrid : f.OnGrid code f.qmin := f.onGrid_subnormal (hmag ▸ hfrac)
      have hself : f.gridCode code f.qmin = code := by simp [Fmt.gridCode]
      simp [roundNum_onGrid hgrid hzero (hself.le.trans hmax), hself]
  | succ k =>
    have hexp : f.qmin + ((k + 1 : Nat) : Int) - 1 = f.qmin + k := by omega
    have hgrid := f.onGrid_normal hfrac k
    have hself : f.gridCode (2 ^ f.mbits + code % 2 ^ f.mbits) (f.qmin + k) = code := by
      simp only [Fmt.gridCode, add_sub_cancel_left, Int.toNat_natCast]
      rw [he] at hsplit
      linarith
    simp only [Nat.succ_ne_zero, if_false, Fmt.round, hexp]
    simp [roundNum_onGrid hgrid (by have := Nat.two_pow_pos f.mbits; omega) (hself.le.trans hmax), hself]

/-- A pattern is its sign bit and its code. -/
theorem Fmt.sign_add_code {f : Fmt} {p : Nat} (hp : p < 2 * f.signBit) :
    (if p / f.signBit % 2 = 1 then f.signBit else 0) + p % f.signBit = p := by
  have hsplit := Nat.div_add_mod p f.signBit
  have hsign : p / f.signBit < 2 := Nat.div_lt_of_lt_mul (by rwa [Nat.mul_comm] at hp)
  obtain h | h := Nat.le_one_iff_eq_zero_or_eq_one.1 (Nat.lt_succ_iff.1 hsign)
  · simpa [h] using hsplit
  · simpa [h] using hsplit

end Sys2Proof.Machine

namespace Sys2Proof.Proofs

open Sys2Proof.Machine Sys2Proof.Safety Sys2Proof.Claims

/-- Settles O14: every finite pattern denotes a number on its format's grid, where rounding has nothing to choose. -/
theorem roundingKeepsRepresentableValues : Obligations.RoundingKeepsRepresentableValues := by
  intro f p h m sat _ hp hmax
  have hsign : p < 2 * f.signBit := by rwa [Nat.add_assoc, Nat.pow_add, Nat.pow_one] at hp
  rw [Fmt.round_decode hmax, Fmt.sign_add_code hsign]

end Sys2Proof.Proofs

/-! SUPPORT. What the end of a bent and the writes at a line's home leave of memory and of merge tags (R44, R173). -/

namespace Sys2Proof.Machine

open Sys2Proof.Safety Sys2Proof.Claims

/-! ### The end of a bent -/

/-- Memory and the side-band of its lines. -/
def memAndSide (s : State) : Memory × Tab Side := (s.mem, s.side)

theorem memAndSide_unbindQuarter (s : State) (q : Nat) : memAndSide (unbindQuarter s q) = memAndSide s := by
  refine (foldl_keeps memAndSide ?_ _ _).trans rfl
  exact fun _ _ => rfl

/-- A bent whose blocks have all ended has nothing left to release (R255). -/
theorem memAndSide_removeBent {s : State} {ticket : Nat} {b : Bent} (hb : bentOf s ticket = some b) (hend : ∀ k ∈ Tab.values b.blocks, k.ended = true)
    (halted : Bool) : memAndSide (removeBent s ticket halted) = memAndSide s := by
  have hrelease : (Tab.values b.blocks).foldl (fun s k => if k.ended then s else releaseHome s k.core) s = s :=
    (List.foldl_ext _ (fun s _ => s) s fun _ k hk => if_pos (hend k hk)).trans (List.foldl_fixed _)
  simp only [removeBent, hb, hrelease]
  cases b.control with
  | none => rfl
  | some q => exact memAndSide_unbindQuarter s q

theorem memAndSide_finishBent (s : State) (ticket : Nat) : memAndSide (finishBent s ticket) = memAndSide s := by
  have hremove {b : Bent} (hb : bentOf s ticket = some b) (hend : (Tab.values b.blocks).all (·.ended) = true) (f : Nat → Thread → Thread) :
      memAndSide (removeBent (mapThreads s f) ticket false) = memAndSide s :=
    memAndSide_removeBent (s := mapThreads s f) hb (List.all_eq_true.1 hend) false
  unfold finishBent
  split
  · rfl
  · rename_i b hb
    dsimp only
    split
    · rename_i hend
      obtain ⟨hended, -⟩ := Bool.and_eq_true_iff.1 hend
      split
      · split
        · exact hremove hb hended _
        · rfl
      · split
        · rfl
        · exact hremove hb hended _
    · rfl

/-- A bent with a block that has not ended goes on. -/
theorem finishBent_of_block {s : State} {ticket : Nat} (h : ∀ b, bentOf s ticket = some b → ∃ e ∈ b.blocks, e.2.ended = false) :
    finishBent s ticket = s := by
  cases hb : bentOf s ticket with
  | none => simp only [finishBent, hb]
  | some b =>
    obtain ⟨e, he, hgoing⟩ := h b hb
    have hnot : (Tab.values b.blocks).all (·.ended) = false :=
      List.all_eq_false.2 ⟨e.2, List.mem_map_of_mem he, by simp [hgoing]⟩
    simp [finishBent, hb, hnot]

theorem memAndSide_settleQuarter (s : State) (q : Nat) : memAndSide (settleQuarter s q) = memAndSide s := by
  unfold settleQuarter
  split
  · exact memAndSide_finishBent s _
  · rfl

theorem settleQuarter_of_block {s : State} {q : Nat}
    (h : ∀ t b, (quarterOf s q).bound = some t → bentOf s t = some b → ∃ e ∈ b.blocks, e.2.ended = false) : settleQuarter s q = s := by
  cases ht : (quarterOf s q).bound with
  | none => simp only [settleQuarter, ht]
  | some t =>
    simp only [settleQuarter, ht]
    exact finishBent_of_block (h t · ht)

theorem mem_of_memAndSide {s t : State} (h : memAndSide t = memAndSide s) : t.mem = s.mem := congrArg Prod.fst h

theorem sideOf_of_memAndSide {s t : State} (h : memAndSide t = memAndSide s) (line : Nat) : sideOf t line = sideOf s line := by
  rw [sideOf, sideOf, show t.side = s.side from congrArg Prod.snd h]

/-! ### Merge tags -/

/-- The chunk that each line's merge tag expects next (R173). -/
def nextChunks (s : State) (line : Nat) : BitVec 8 := (sideOf s line).next

/-- One line's side-band changed, but not its merge tag. -/
theorem nextChunks_of_side {s t : State} {line : Nat} {d : Side} (hside : t.side = Tab.set s.side line d) (hd : d.next = (sideOf s line).next) :
    nextChunks t = nextChunks s := by
  funext k
  unfold nextChunks sideOf
  rw [hside]
  by_cases hk : k = line
  · rw [hk, Tab.getD_set_self]
    exact hd
  · rw [Tab.getD_set_ne _ _ _ hk]

@[simp] theorem nextChunks_keepHbm (s : State) (line : Nat) : nextChunks (keepHbm s line) = nextChunks s := by
  unfold keepHbm
  split <;> rfl

@[simp] theorem nextChunks_markDirty (s : State) (line : Nat) : nextChunks (markDirty s line) = nextChunks s := rfl
@[simp] theorem nextChunks_toHbm (s : State) (line : Nat) (d : BitVec 1024) : nextChunks (toHbm s line d) = nextChunks s := rfl

@[simp] theorem nextChunks_noteFailure (s : State) (line : Nat) : nextChunks (noteFailure s line) = nextChunks s := by
  unfold noteFailure
  dsimp only
  split
  · rfl
  · exact nextChunks_of_side rfl rfl

@[simp] theorem nextChunks_dramRead (s : State) (line : Nat) : nextChunks (dramRead s line) = nextChunks s := by
  unfold dramRead
  split <;> rfl

@[simp] theorem nextChunks_unflip (s : State) (line : Nat) (forged : Bool) : nextChunks (unflip s line forged) = nextChunks s := by
  unfold unflip
  split
  · rfl
  · exact nextChunks_of_side rfl rfl

@[simp] theorem nextChunks_msOut (s : State) (m : MsLine) : nextChunks (msOut s m) = nextChunks s := by
  unfold msOut
  dsimp only
  split <;> simp

@[simp] theorem nextChunks_msTouch (s : State) (line : Nat) (write : Bool) : nextChunks (msTouch s line write) = nextChunks s := by
  unfold msTouch
  dsimp only
  split
  · split <;> rfl
  · split
    · split <;> simp
    · exact foldl_keeps nextChunks nextChunks_msOut _ s

@[simp] theorem nextChunks_writeBackL2 (s : State) (l : L2Line) : nextChunks (writeBackL2 s l) = nextChunks s := by
  unfold writeBackL2
  split <;> simp

@[simp] theorem nextChunks_dropL2 (s : State) (sel : L2Line → Bool) : nextChunks (dropL2 s sel) = nextChunks s :=
  foldl_keeps nextChunks nextChunks_writeBackL2 _ s

@[simp] theorem nextChunks_fillLineL2 (s : State) (l : L2Line) : nextChunks (fillLineL2 s l) = nextChunks s := by
  unfold fillLineL2
  dsimp only
  split <;> exact foldl_keeps nextChunks nextChunks_writeBackL2 _ s

@[simp] theorem nextChunks_accessL2 (s : State) (part line : Nat) (write : Bool) : nextChunks (accessL2 s part line write) = nextChunks s := by
  have hcaches (t : State) (r : Tab SliceRegs) (l : List L2Line) : nextChunks { t with sliceRegs := r, l2 := l } = nextChunks t := rfl
  unfold accessL2
  dsimp only
  split
  · simp only [apply_ite nextChunks, hcaches, nextChunks_fillLineL2, ite_self]
  · simp [hcaches]

@[simp] theorem nextChunks_homeWritten (s : State) (part line : Nat) : nextChunks (homeWritten s part line) = nextChunks s :=
  nextChunks_accessL2 (unreserve s line) part line true

@[simp] theorem nextChunks_partWritten (s : State) (line : Nat) : nextChunks (partWritten s line) = nextChunks s := by simp [partWritten]

/-! ### What writes at the homes leave alone -/

theorem mem_partWritten (s : State) (line : Nat) : (partWritten s line).mem = s.mem := by
  rw [partWritten, mem_unflip, mem_noteFailure]

theorem quarterOf_of_withoutCaches {s t : State} (h : withoutCaches t = withoutCaches s) (q : Nat) : quarterOf t q = quarterOf s q := by
  show quarterOf (withoutCaches t) q = quarterOf (withoutCaches s) q
  rw [h]

theorem bentOf_of_withoutCaches {s t : State} (h : withoutCaches t = withoutCaches s) (ticket : Nat) : bentOf t ticket = bentOf s ticket := by
  show bentOf (withoutCaches t) ticket = bentOf (withoutCaches s) ticket
  rw [h]

theorem withoutCaches_partWritten (s : State) (line : Nat) : withoutCaches (partWritten s line) = withoutCaches s := by
  rw [partWritten, withoutCaches_unflip, withoutCaches_noteFailure]

theorem withoutCaches_writeHome (s : State) (part pa : Nat) (bs : List Byte) : withoutCaches (writeHome s part pa bs) = withoutCaches s := by
  have hmem (t : State) (m : Memory) : withoutCaches { t with mem := m } = withoutCaches t := rfl
  rw [writeHome, withoutCaches_partWritten, writeOver, lineWritten, withoutCaches_homeWritten, withoutCaches_clearCount, hmem,
    withoutCaches_keepHbm]

end Sys2Proof.Machine

/-! SUPPORT. Words in memory, and the words that a merge writes (R154). -/

namespace Sys2Proof.Machine

open Sys2Proof.Safety Sys2Proof.Claims

/-! ### Words written and read back -/

theorem upFrom_eq_range' (n : Nat) : ∀ a, upFrom a n = List.range' a n := by
  induction n with
  | zero => exact fun _ => rfl
  | succ n ih => exact fun a => congrArg (a :: ·) (ih (a + 1))

theorem bytes_congr {m m' : Memory} (n : Nat) : ∀ {a : Nat}, (∀ x, a ≤ x → x < a + n → Memory.read m x = Memory.read m' x) →
    Memory.bytes m a n = Memory.bytes m' a n := by
  induction n with
  | zero => exact fun _ => rfl
  | succ n ih =>
    intro a h
    rw [Memory.bytes, Memory.bytes, h a le_rfl (by omega), ih fun x hlo hhi => h x (by omega) (by omega)]

/-- A number is untouched by bytes written beyond it. -/
theorem num_writeBytes_above (m : Memory) {a b n : Nat} (bs : List Byte) (h : a + n ≤ b) :
    Memory.num (Memory.writeBytes m b bs) a n = Memory.num m a n :=
  congrArg ofBytes (bytes_congr n fun x _ _ => Memory.read_writeBytes_out bs m b x (by omega))

theorem ofBytes_lt (bs : List Byte) : ofBytes bs < 256 ^ bs.length := by
  induction bs with
  | nil => exact Nat.one_pos
  | cons b bs ih =>
    have hb := b.isLt
    rw [ofBytes, List.length_cons, Nat.pow_succ']
    omega

theorem bytes_length (m : Memory) (n : Nat) : ∀ a, (Memory.bytes m a n).length = n := by
  induction n with
  | zero => exact fun _ => rfl
  | succ n ih => exact fun a => congrArg (· + 1) (ih (a + 1))

theorem num_lt (m : Memory) (a n : Nat) : Memory.num m a n < 256 ^ n := by
  have h := ofBytes_lt (Memory.bytes m a n)
  rwa [bytes_length] at h

/-- 32-bit words as bytes in a row (R3). -/
def wordBytes (ws : List Nat) : List Byte := ws.flatMap (toBytes 4)

theorem wordBytes_length (ws : List Nat) : (wordBytes ws).length = 4 * ws.length := by
  induction ws with
  | nil => rfl
  | cons w ws ih =>
    rw [wordBytes, List.flatMap_cons, List.length_append, toBytes_length, List.length_cons]
    have hrest : (ws.flatMap (toBytes 4)).length = 4 * ws.length := ih
    omega

/-- Each of some words written in a row reads back. -/
theorem num_writeBytes_wordBytes (ws : List Nat) : ∀ (m : Memory) (a i w : Nat), ws[i]? = some w →
    Memory.num (Memory.writeBytes m a (wordBytes ws)) (a + 4 * i) 4 = w % 2 ^ 32 := by
  induction ws with
  | nil => exact fun _ _ _ _ h => nomatch h
  | cons x ws ih =>
    intro m a i w hw
    have hsplit : Memory.writeBytes m a (wordBytes (x :: ws)) =
        Memory.writeBytes (Memory.writeBytes m a (toBytes 4 x)) (a + 4) (wordBytes ws) := by
      rw [wordBytes, List.flatMap_cons, writeBytes_append, toBytes_length]
      rfl
    rw [hsplit]
    cases i with
    | zero =>
      obtain rfl : x = w := by simpa using hw
      show Memory.num _ a 4 = _
      rw [num_writeBytes_above _ _ le_rfl]
      exact num_writeBytes_toBytes m a 4 x
    | succ i =>
      rw [show a + 4 * (i + 1) = a + 4 + 4 * i by omega]
      exact ih _ _ _ _ (by simpa using hw)

/-! ### f32 sums -/

/-- A rounding to f32 gives a pattern of 32 bits. -/
theorem Fmt.round_f32_lt (mode : Rnd) (h : Nat) (sat : Bool) (v : FVal) : (Fmt.f32.round mode h sat v).1 < 2 ^ 32 := by
  have hsign (neg : Bool) {c : Nat} (hc : c < 2 ^ 31) : (if neg then Fmt.f32.signBit else 0) + c < 2 ^ 32 := by
    have hbit : Fmt.f32.signBit = 2 ^ 31 := rfl
    split <;> omega
  have hmax : Fmt.f32.maxCode < 2 ^ 31 := by decide
  cases v with
  | num neg mag exp =>
    simp only [Fmt.round, Fmt.roundNum]
    split
    · exact hsign neg (c := 0) (by decide)
    · split
      · refine hsign neg ?_
        show (if _ then 0x7F800000 else _) < 2 ^ 31
        split
        · decide
        · exact hmax
      · exact hsign neg (by omega)
  | inf neg =>
    show (if sat then _ else _ : Nat × Flags).1 < 2 ^ 32
    split
    · exact hsign neg hmax
    · exact hsign neg (by decide)
  | nan s => exact (by decide : 0x7FC00000 < 2 ^ 32)

theorem addF32_lt (x y : Nat) : addF32 x y < 2 ^ 32 := Fmt.round_f32_lt _ _ _ _

end Sys2Proof.Machine

/-! SUPPORT. The merge of a segment, its discard, and what becomes of one that arrives (R173-R175). -/

namespace Sys2Proof.Machine

open Sys2Proof.Safety Sys2Proof.Claims

/-! ### One segment merged -/

/-- The words of a line with those of a segment added, one rounding each (R154). -/
def mergedWords (s : State) (g : Segment) : List Nat :=
  (((upFrom 0 32).map fun i => lineWord s g.line i).zip g.data).map fun (x, p) => addF32 x p.toNat

theorem mergedWords_length {s : State} {g : Segment} (hlen : g.data.length = 32) : (mergedWords s g).length = 32 := by
  simp [mergedWords, upFrom_eq_range', hlen]

theorem getElem?_mergedWords {s : State} {g : Segment} {i : Nat} {p : Word} (hlen : g.data.length = 32) (hp : g.data[i]? = some p) :
    (mergedWords s g)[i]? = some (addF32 (lineWord s g.line i) p.toNat) := by
  have hi : i < 32 := hlen ▸ (List.getElem?_eq_some_iff.1 hp).1
  simp [mergedWords, upFrom_eq_range', List.getElem?_zip_eq_some, hp, hi]

/-- A line's bytes after a merge, before what a write at its home brings with it. -/
def mergeWritten (s : State) (g : Segment) : State :=
  { keepHbm s g.line with mem := Memory.writeBytes s.mem (g.line * 128) (wordBytes (mergedWords s g)) }

/-- A line's merge tag at its next chunk (R173). -/
def advanceTag (s : State) (line : Nat) : State := { s with side := Tab.set s.side line { sideOf s line with next := (sideOf s line).next + 1 } }

/-- A merge up to what a write at the home brings with it: only an ordered one moves the tag. -/
def mergeTagged (s : State) (g : Segment) : State := if g.ord then advanceTag (mergeWritten s g) g.line else mergeWritten s g

theorem mergeSegment_eq (s : State) (g : Segment) : mergeSegment s g =
    partWritten (homeWritten (mergeTagged s g) (quarterPart (mergeTagged s g) g.quarter) g.line) g.line := by
  have hbytes : wordBytes (mergedWords s g) =
      (((upFrom 0 32).map fun i => Memory.num s.mem (g.line * 128 + 4 * i) 4).zip g.data).flatMap fun (x, p) => toBytes 4 (addF32 x p.toNat) := by
    rw [wordBytes, mergedWords, List.flatMap_map]
    rfl
  simp only [mergeSegment, mergeTagged, mergeWritten, hbytes, advanceTag]

/-- A merge writes its line's words and no other byte. -/
theorem mem_mergeSegment (s : State) (g : Segment) :
    (mergeSegment s g).mem = Memory.writeBytes s.mem (g.line * 128) (wordBytes (mergedWords s g)) := by
  rw [mergeSegment_eq, mem_partWritten]
  show (mergeTagged s g).mem = _
  unfold mergeTagged
  split <;> rfl

theorem withoutCaches_mergeSegment (s : State) (g : Segment) : withoutCaches (mergeSegment s g) = withoutCaches s := by
  have htagged : withoutCaches (mergeTagged s g) = withoutCaches (keepHbm s g.line) := by
    unfold mergeTagged
    split <;> rfl
  rw [mergeSegment_eq, withoutCaches_partWritten, withoutCaches_homeWritten, htagged, withoutCaches_keepHbm]

theorem nextChunks_mergeSegment (s : State) (g : Segment) : nextChunks (mergeSegment s g) = nextChunks (mergeTagged s g) := by
  rw [mergeSegment_eq, nextChunks_partWritten, nextChunks_homeWritten]

theorem nextChunks_mergeWritten (s : State) (g : Segment) : nextChunks (mergeWritten s g) = nextChunks s :=
  nextChunks_keepHbm s g.line

theorem nextChunks_mergeSegment_unordered (s : State) {g : Segment} (hord : g.ord = false) : nextChunks (mergeSegment s g) = nextChunks s := by
  rw [nextChunks_mergeSegment, mergeTagged, hord]
  exact nextChunks_mergeWritten s g

/-- An ordered merge moves its line's tag on by one (R173). -/
theorem nextChunks_mergeSegment_ordered (s : State) {g : Segment} (hord : g.ord = true) :
    nextChunks (mergeSegment s g) g.line = nextChunks s g.line + 1 := by
  rw [nextChunks_mergeSegment, mergeTagged, hord, ← nextChunks_mergeWritten s g]
  simp [nextChunks, sideOf, advanceTag]

/-- One segment has been added to its line, word by word, and no other byte of memory has changed (R154). -/
def Merged (s r : State) (g : Segment) : Prop :=
  (∀ i p, g.data[i]? = some p → lineWord r g.line i = addF32 (lineWord s g.line i) p.toNat) ∧ SameMemBut s r (g.line * 128) 128

theorem merged_of_mem {s r : State} {g : Segment} (hlen : g.data.length = 32)
    (hmem : r.mem = Memory.writeBytes s.mem (g.line * 128) (wordBytes (mergedWords s g))) : Merged s r g := by
  have hbytes : (wordBytes (mergedWords s g)).length = 128 := by rw [wordBytes_length, mergedWords_length hlen]
  refine ⟨fun i p hp => ?_, fun a ha => ?_⟩
  · rw [lineWord, hmem, num_writeBytes_wordBytes _ _ _ _ _ (getElem?_mergedWords hlen hp), Nat.mod_eq_of_lt (addF32_lt _ _)]
  · rw [hmem, Memory.read_writeBytes_out _ _ _ _ (by rwa [hbytes])]

/-! ### One segment discarded -/

theorem mem_discardSegment (s : State) (g : Segment) :
    (discardSegment s g).mem = Memory.writeBytes s.mem (g.desc * 128) (toBytes 4 (lineWord s g.desc 0 ||| 2)) := by
  rw [discardSegment, setQuarter_mem, setTileStatus, mem_writeHome]
  rfl

/-- A discard sets ORDER in the tile's status word and writes nothing else (R174, R175). -/
theorem discarded_of_mem {s r : State} {g : Segment}
    (hmem : r.mem = Memory.writeBytes s.mem (g.desc * 128) (toBytes 4 (lineWord s g.desc 0 ||| 2))) :
    SameMemBut s r (g.desc * 128) 4 ∧ lineWord r g.desc 0 = lineWord s g.desc 0 ||| 2 := by
  have hword : lineWord s g.desc 0 ||| 2 < 2 ^ 32 := Nat.or_lt_two_pow (num_lt _ _ 4) (by decide)
  refine ⟨fun a ha => ?_, ?_⟩
  · rw [hmem, Memory.read_writeBytes_out _ _ _ _ (by rwa [toBytes_length])]
  · refine (congrArg (fun m => Memory.num m (g.desc * 128 + 4 * 0) 4) hmem).trans ?_
    exact (num_writeBytes_toBytes _ _ _ _).trans (Nat.mod_eq_of_lt hword)

theorem withoutCaches_setTileStatus (s : State) (part desc b : Nat) : withoutCaches (setTileStatus s part desc b) = withoutCaches s :=
  withoutCaches_writeHome s part _ _

/-- A discard sets ORDER in the quarter's status and changes nothing else of the quarter. -/
theorem quarterOf_discardSegment (s : State) (g : Segment) :
    quarterOf (discardSegment s g) g.quarter = { quarterOf s g.quarter with order := true } := by
  have hquarters : quarterOf (setTileStatus s (quarterPart s g.quarter) g.desc 1) g.quarter = quarterOf s g.quarter :=
    quarterOf_of_withoutCaches (withoutCaches_setTileStatus s (quarterPart s g.quarter) g.desc 1) g.quarter
  rw [discardSegment, quarterOf_setQuarter_self, hquarters]

theorem bentOf_discardSegment (s : State) (g : Segment) (ticket : Nat) : bentOf (discardSegment s g) ticket = bentOf s ticket := by
  rw [bentOf, discardSegment, setQuarter_bents]
  exact bentOf_of_withoutCaches (withoutCaches_setTileStatus s (quarterPart s g.quarter) g.desc 1) ticket

/-- The quarter's ORDER stands after the discard, unless its bent ends with it. -/
theorem order_settled_discardSegment {s : State} {g : Segment}
    (h : ∀ b x, (quarterOf s g.quarter).bound = some b → bentOf s b = some x → ∃ e ∈ x.blocks, e.2.ended = false) :
    (quarterOf (settleQuarter (discardSegment s g) g.quarter) g.quarter).order = true := by
  rw [settleQuarter_of_block, quarterOf_discardSegment]
  rw [quarterOf_discardSegment]
  exact fun b x hb hx => h b x hb (bentOf_discardSegment s g b ▸ hx)

/-! ### Held segments -/

theorem mergeHeld_of_none {s : State} {line : Nat} (h : ∀ x ∈ s.segments, x.held = true → x.line ≠ line) (n : Nat) : mergeHeld line n s = s := by
  cases n with
  | zero => rfl
  | succ n =>
    have hnone : (s.segments.find? fun g => g.held && g.line == line && g.chunk ≤ (sideOf s line).next.toNat) = none := by
      rw [List.find?_eq_none]
      intro x hx hsel
      simp only [Bool.and_eq_true, beq_iff_eq] at hsel
      obtain ⟨⟨hheld, hline⟩, -⟩ := hsel
      exact h x hx hheld hline
    rw [mergeHeld, hnone]

/-! ### A segment arrives -/

/-- The machine with a segment no longer on its way. -/
def withoutSegment (s : State) (g : Segment) : State := { s with segments := s.segments.erase g }

/-- The chunk of an ordered segment is behind the one its line expects, or past the line's count (R175). -/
abbrev OutOfTurn (s : State) (g : Segment) : Prop :=
  (sideOf s g.line).count.toNat = 0 ∨ (sideOf s g.line).count.toNat ≤ g.chunk ∨ g.chunk < (sideOf s g.line).next.toNat

section
variable {s : State} {k : Nat} {g : Segment} (hk : (s.segments.filter fun x => !x.held)[k]? = some g) (hclean : poisoned s (g.line * 128) = false)
include hk hclean

/-- What becomes of a segment that reaches its home at an intact line (R175). -/
theorem segmentArrive_eq : exec (.segmentArrive k) s = .next (
    if g.ord = false then settleQuarter (mergeSegment (withoutSegment s g) g) g.quarter
    else if OutOfTurn s g then settleQuarter (discardSegment (withoutSegment s g) g) g.quarter
    else if g.chunk = (sideOf s g.line).next.toNat then
      settleQuarter (mergeHeld g.line s.segments.length (mergeSegment (withoutSegment s g) g)) g.quarter
    else { s with segments := s.segments.erase g ++
      [if heldIn s (homeSlice (g.line * 128)) < 256 then { g with held := true, refused := false } else { g with refused := true }] }) := by
  show execSegmentArrive k s = _
  have hroom : Config.mergeSegments = 256 := rfl
  simp only [execSegmentArrive, hk, hclean, Bool.false_eq_true, if_false, hroom, Bool.or_eq_true, decide_eq_true_eq, Bool.not_eq_true', or_assoc,
    OutOfTurn]
  split_ifs <;> rfl

theorem segmentArrive_unordered (hord : g.ord = false) :
    exec (.segmentArrive k) s = .next (settleQuarter (mergeSegment (withoutSegment s g) g) g.quarter) := by
  rw [segmentArrive_eq hk hclean, if_pos hord]

theorem segmentArrive_outOfTurn (hord : g.ord = true) (hout : OutOfTurn s g) :
    exec (.segmentArrive k) s = .next (settleQuarter (discardSegment (withoutSegment s g) g) g.quarter) := by
  rw [segmentArrive_eq hk hclean, if_neg (by simp [hord]), if_pos hout]

theorem segmentArrive_inTurn (hord : g.ord = true) (hcount : g.chunk < (sideOf s g.line).count.toNat)
    (hturn : g.chunk = (sideOf s g.line).next.toNat) : exec (.segmentArrive k) s =
      .next (settleQuarter (mergeHeld g.line s.segments.length (mergeSegment (withoutSegment s g) g)) g.quarter) := by
  rw [segmentArrive_eq hk hclean, if_neg (by simp [hord]), if_neg (by omega), if_pos hturn]

theorem segmentArrive_early (hord : g.ord = true) (hcount : g.chunk < (sideOf s g.line).count.toNat)
    (hearly : (sideOf s g.line).next.toNat < g.chunk) : exec (.segmentArrive k) s = .next { s with segments := s.segments.erase g ++
      [if heldIn s (homeSlice (g.line * 128)) < 256 then { g with held := true, refused := false } else { g with refused := true }] } := by
  rw [segmentArrive_eq hk hclean, if_neg (by simp [hord]), if_neg (by omega), if_neg (by omega)]

end

end Sys2Proof.Machine

namespace Sys2Proof.Proofs

open Sys2Proof.Machine Sys2Proof.Safety Sys2Proof.Claims

/-- Settles O46: each segment's fate is one branch of its arrival; merges and discards write one range each, and neither the write-backs they
bring nor the end of a bent touches memory or a merge tag. -/
theorem segmentsMergeInOrder : Obligations.SegmentsMergeInOrder := by
  intro s k g hk hlen hclean
  refine ⟨fun hord => ?unordered, fun hord hout => ?outOfTurn, fun hord hcount hturn hnext hheld => ?inTurn, fun hord hcount hearly => ?early⟩
  case unordered =>
    refine ⟨_, segmentArrive_unordered hk hclean hord, merged_of_mem hlen ?_, ?_⟩
    · rw [mem_of_memAndSide (memAndSide_settleQuarter _ _), mem_mergeSegment]
      rfl
    · rw [sideOf_of_memAndSide (memAndSide_settleQuarter _ _)]
      exact congrFun (nextChunks_mergeSegment_unordered (withoutSegment s g) hord) g.line
  case outOfTurn =>
    have hmem := (mem_of_memAndSide (memAndSide_settleQuarter (discardSegment (withoutSegment s g) g) g.quarter)).trans (mem_discardSegment _ g)
    obtain ⟨hsame, hword⟩ := discarded_of_mem hmem
    exact ⟨_, segmentArrive_outOfTurn hk hclean hord hout, hsame, hword, fun h => order_settled_discardSegment h⟩
  case inTurn =>
    have hnone : mergeHeld g.line s.segments.length (mergeSegment (withoutSegment s g) g) = mergeSegment (withoutSegment s g) g := by
      refine mergeHeld_of_none (fun x hx => hheld x ?_) _
      have hsegments : (mergeSegment (withoutSegment s g) g).segments = s.segments.erase g :=
        congrArg State.segments (withoutCaches_mergeSegment (withoutSegment s g) g)
      exact List.mem_of_mem_erase (hsegments ▸ hx)
    refine ⟨_, segmentArrive_inTurn hk hclean hord hcount hturn, ?_⟩
    rw [hnone]
    refine ⟨merged_of_mem hlen ?_, ?_⟩
    · rw [mem_of_memAndSide (memAndSide_settleQuarter _ _), mem_mergeSegment]
      rfl
    · rw [sideOf_of_memAndSide (memAndSide_settleQuarter _ _)]
      have htag : (sideOf (mergeSegment (withoutSegment s g) g) g.line).next = (sideOf s g.line).next + 1 :=
        nextChunks_mergeSegment_ordered (withoutSegment s g) hord
      rw [htag]
      bv_omega
  case early =>
    rw [segmentArrive_early hk hclean hord hcount hearly]
    exact ⟨fun hroom => by rw [if_pos hroom], fun hfull => by rw [if_neg (Nat.not_lt.2 hfull)]⟩

end Sys2Proof.Proofs

/-! SUPPORT. Matrix instructions: their shape checks, the deferred fault, entry into the quarter's queue, and what MSYNC and MSTAT return
(R165-R180, R441, R444-R446). -/

namespace Sys2Proof.Machine

open Sys2Proof.Safety Sys2Proof.Claims

/-! ### Fields of a word -/

/-- A field of a 32-bit word, as a number and as its bits (R12). -/
theorem toNat_extractLsb'_ofNat (x : Nat) {hi lo len : Nat} (hlen : hi + 1 = lo + len) (hhi : hi < 32) :
    ((BitVec.ofNat 32 x).extractLsb' lo len).toNat = bits x hi lo := by
  have hwidth : hi + 1 - lo = len := by omega
  refine Nat.eq_of_testBit_eq fun k => ?_
  simp only [BitVec.extractLsb'_toNat, BitVec.toNat_ofNat, bits, hwidth, Nat.testBit_mod_two_pow, Nat.testBit_shiftRight,
    Nat.testBit_div_two_pow]
  by_cases hk : k < len
  · simp [hk, show lo + k < 32 by omega, Nat.add_comm]
  · simp [hk]

theorem ofNat_bits (x : Nat) {hi lo len : Nat} (hlen : hi + 1 = lo + len) (hhi : hi < 32) :
    BitVec.ofNat len (bits x hi lo) = (BitVec.ofNat 32 x).extractLsb' lo len := by
  rw [← toNat_extractLsb'_ofNat x hlen hhi, BitVec.ofNat_toNat, BitVec.setWidth_eq]

/-- Fields packed from bit 0 upward stand side by side, the first one lowest (R3). -/
theorem ofNat_pack_cons (n w v : Nat) (fs : List (Nat × Nat)) :
    BitVec.ofNat (n + w) (pack ((w, v) :: fs)) = BitVec.ofNat n (pack fs) ++ BitVec.ofNat w v := by
  refine BitVec.eq_of_toNat_eq ?_
  have hlow : v % 2 ^ w < 2 ^ w := Nat.mod_lt _ (Nat.two_pow_pos w)
  rw [BitVec.toNat_append, BitVec.toNat_ofNat, BitVec.toNat_ofNat, BitVec.toNat_ofNat, pack, Nat.shiftLeft_eq,
    Nat.add_comm n w, pow_add, Nat.mod_mul, Nat.add_mul_mod_self_left, Nat.mod_mod, Nat.add_mul_div_left _ _ (Nat.two_pow_pos w),
    Nat.div_eq_of_lt hlow, Nat.zero_add, Nat.add_comm]
  rw [Nat.mul_comm _ (2 ^ w)]
  exact Nat.two_pow_add_eq_or_of_lt hlow _

theorem regNum_one_lt (v : Thread) (n : Nat) : regNum v n 1 < 2 ^ 32 := by
  by_cases hn : n = vzero
  · simp [regNum, hn]
  · rw [regNum_one v n hn]
    exact BitVec.isLt _

/-! ### An instruction of a matrix thread -/

/-- No instruction of the matrix class is admitted in hand mode (R59). -/
theorem inHand_of_matrix {i : Instr} (hi : i.matrix = true) : i.inHand = false := by
  unfold Instr.matrix at hi
  split at hi
  case h_7 => cases hi
  all_goals rfl

section
variable {i : Instr} {s : State} {n q : Nat} {v : Thread} (R : Ready i s (.thread n) v) (hq : controlQuarter s v = some q)
include R

/-- A matrix instruction runs on a control core alone (R123, R162). -/
theorem control_of_matrix (hi : i.matrix = true) : v.control = true := by
  have hchecks := R.checks
  unfold contextCheck at hchecks
  split at hchecks
  · cases hchecks
  · rename_i hadmitted
    simp only [Instr.admitted, Bool.not_eq_true', Bool.not_eq_false] at hadmitted
    split at hadmitted
    · assumption
    · simp [inHand_of_matrix hi, hi] at hadmitted

include hq

theorem matrixRun_ready (body : Who → Thread → Nat → Eff) : matrixRun i s body = settleEff i s (.thread n) v (body (.thread n) v q) := by
  rw [matrixRun, run_ready R, hq]

/-- The deferred fault is raised in place of the instruction's own effect, and is then gone from the quarter (R180). -/
theorem matrixRun_deferred {k : Kept} (hk : (quarterOf s q).deferred = some k) (body : Who → Thread → Nat → Eff) :
    matrixRun i s (fun w v q => afterDeferred s q (body w v q)) =
      .next (takeTrap (setQuarter s q fun y => { y with deferred := none }) (.thread n) v k { trapHere i v with deferred := true }) := by
  have hview : viewOf (setQuarter s q fun y => { y with deferred := none }) (.thread n) = some v := R.view
  rw [matrixRun_ready R hq, afterDeferred, hk, settleEff, hview, Option.getD_some]

theorem matrixRun_undeferred (hk : (quarterOf s q).deferred = none) (body : Who → Thread → Nat → Eff) :
    matrixRun i s (fun w v q => afterDeferred s q (body w v q)) = settleEff i s (.thread n) v (body (.thread n) v q) := by
  rw [matrixRun_ready R hq, afterDeferred, hk]

end

/-! ### Checks of shape records (R166) -/

theorem firstShape_cons (b : Bool) (r : BitVec 4) (reason : Nat) (l : List (Bool × BitVec 4 × Nat)) :
    firstShape ((b, r, reason) :: l) = if b then some (shapeTrap r reason) else firstShape l := by
  cases b <;> rfl

@[simp] theorem firstShape_nil : firstShape [] = none := rfl

theorem Shape.bad_b_type (d : Shape) : d.bad .b 1 = true ↔ d.type ≠ 5 ∨ d.rsv ≠ 0 := by simp [Shape.bad]

theorem Shape.bad_b_size (d : Shape) : d.bad .b 2 = true ↔ d.rows = 0 ∨ d.cols = 0 ∨ 1024 < d.rows ∨ 256 < d.cols := by
  simp [Shape.bad, or_assoc]

theorem Shape.bad_b_place (d : Shape) : d.bad .b 3 = true ↔ d.stride < 2 * d.cols ∨ d.stride % 2 ≠ 0 ∨ d.base % 2 ≠ 0 := by
  simp [Shape.bad, or_assoc, Nat.mul_comm]

/-! ### Entry into the command queue (R167) -/

@[simp] theorem quarterOf_putView_thread (s : State) (n q : Nat) (u : Thread) : quarterOf (putView s (.thread n) u) q = quarterOf s q := rfl

/-- A matrix thread moves on from a state in which its quarter alone has changed, by one operation at the tail of its queue. -/
theorem queued_putView {i : Instr} {n q : Nat} {s t : State} {v : Thread} {o : MatOp}
    (hops : (quarterOf t q).ops = (quarterOf s q).ops ++ [{ o with seq := s.cmdSeq }])
    (hrest : { t with quarters := s.quarters, cmdSeq := s.cmdSeq } = s) (hothers : ∀ k, k ≠ q → quarterOf t k = quarterOf s k) :
    Queued i n q s (putView t (.thread n) { v with pc := v.next i }) v { v with pc := v.next i } o where
  view := viewOf_putView_thread _ _ _
  thread := rfl
  pc := rfl
  ops := hops
  rest := congrArg (fun t : State => { t with threads := s.threads }) hrest
  others := hothers

theorem quarterOf_enqueue (s : State) (q : Nat) (o : MatOp) :
    quarterOf (enqueue s q o) q = { quarterOf s q with ops := (quarterOf s q).ops ++ [{ o with seq := s.cmdSeq }] } :=
  quarterOf_setQuarter_self { s with cmdSeq := s.cmdSeq + 1 } q _

theorem quarterOf_enqueue_ne (s : State) {q k : Nat} (o : MatOp) (hk : k ≠ q) : quarterOf (enqueue s q o) k = quarterOf s k :=
  quarterOf_setQuarter_ne { s with cmdSeq := s.cmdSeq + 1 } _ hk

theorem queued_enqueue (i : Instr) (n q : Nat) (s : State) (v : Thread) (o : MatOp) :
    Queued i n q s (putView (enqueue s q o) (.thread n) { v with pc := v.next i }) v { v with pc := v.next i } o :=
  queued_putView (by rw [quarterOf_enqueue]) rfl fun _ hk => quarterOf_enqueue_ne s o hk

/-- An instruction that waits while the queue is full enters it at one operation below its 8 places. -/
theorem room_or_full {i : Instr} {s t : State} {q : Nat} (h : exec i s = .next (if queueFull s q then s else t)) :
    ((quarterOf s q).ops.length < 8 → exec i s = .next t) ∧ (8 ≤ (quarterOf s q).ops.length → exec i s = .next s) := by
  have hfull : queueFull s q = decide (8 ≤ (quarterOf s q).ops.length) := rfl
  rw [hfull] at h
  exact ⟨fun hroom => by rwa [if_neg (by simpa using hroom)] at h, fun hroom => by rwa [if_pos (by simpa using hroom)] at h⟩

/-! ### What MSYNC and MSTAT return (R176, R178) -/

@[simp] theorem setFlags_zero (v : Thread) : setFlags v 0 = v := by
  rcases setFlags_eq v 0 with ⟨-, h⟩ | ⟨-, h⟩ <;> rw [h] <;> simp

theorem status_eq (k : Quarter) :
    k.status = ofBool k.pairFailed + 2 * ofBool k.order + 4 * ofBool (!k.errs.isEmpty) := by
  unfold Quarter.status
  cases k.pairFailed <;> cases k.order <;> cases k.errs.isEmpty <;> rfl

theorem status_lt (k : Quarter) : k.status < 2 ^ 32 := by
  unfold Quarter.status
  cases k.pairFailed <;> cases k.order <;> cases k.errs.isEmpty <;> decide

theorem takeError_nil {k : Quarter} (h : k.errs = []) : takeError k = (0, k) := by
  rw [takeError, h]

theorem takeError_cons {k : Quarter} {e : DWord} {rest : List DWord} (h : k.errs = e :: rest) :
    takeError k = (e.toNat + k.more * 2 ^ 56, { k with errs := rest, more := if rest = [] then 0 else k.more }) := by
  simp only [takeError, h, List.isEmpty_iff]

/-- An instruction that changes its quarter and writes the low bits of a number to its destination. -/
theorem put_setQuarter {i : Instr} {s : State} {n q wd r : Nat} {p : Bool} {v : Thread} {d : Reg} (f : Quarter → Quarter)
    (hd : i.operands.head? = some (.dst wd p, d)) (hwd : wd = 1 ∨ wd = 2) (hi : i.matrix = true) (R : Ready i s (.thread n) v) :
    ∃ u, Put i (.thread n) (putView (setQuarter s q f) (.thread n) { setRegs v d.toNat wd r with pc := v.next i }) v v u
      (r % 2 ^ (32 * wd)) 0 := by
  have R' : Ready i (setQuarter s q f) (.thread n) v := ⟨R.wf, R.cur, R.view, R.checks, R.pred⟩
  have hjoin : ∀ j x, i ≠ .joinh j x := by rintro j x rfl; cases hi
  obtain ⟨u, hu⟩ := wrote_of_put (v' := v) (f := 0) hd hjoin R' (noPush_of_control hd R.checks (control_of_matrix R hi)) hwd rfl
    (Nat.mod_lt r (Nat.two_pow_pos (32 * wd)))
  rw [setRegs_mod, setFlags_zero] at hu
  exact ⟨u, hu.view, hu.result, hu.regs, hu.pc, hu.masks, hu.queues, hu.flags⟩

/-! ### MDESC (R441) -/

/-- The record that MDESC makes of its three sources. -/
def packedRecord (v : Thread) (x : Ext) : BitVec 128 :=
  let a := BitVec.ofNat 64 (regNum v x.va.toNat 2)
  let b := BitVec.ofNat 32 (regNum v x.vb.toNat 1)
  let c := BitVec.ofNat 32 (regNum v x.vc.toNat 1)
  a ++ c.extractLsb' 8 24 ++ c.extractLsb' 0 5 ++ c.extractLsb' 5 3 ++ b.extractLsb' 28 4 ++ b.extractLsb' 16 12 ++ b.extractLsb' 0 16

theorem ofNat_pack_record (base b c : Nat) :
    BitVec.ofNat (64 + 24 + 5 + 3 + 4 + 12 + 16)
        (pack [(16, bits b 15 0), (12, bits b 27 16), (4, bits b 31 28), (3, bits c 7 5), (5, bits c 4 0), (24, bits c 31 8), (64, base)]) =
      BitVec.ofNat 64 base ++ (BitVec.ofNat 32 c).extractLsb' 8 24 ++ (BitVec.ofNat 32 c).extractLsb' 0 5 ++
        (BitVec.ofNat 32 c).extractLsb' 5 3 ++ (BitVec.ofNat 32 b).extractLsb' 28 4 ++ (BitVec.ofNat 32 b).extractLsb' 16 12 ++
        (BitVec.ofNat 32 b).extractLsb' 0 16 := by
  have hbase : BitVec.ofNat 64 (pack [(64, base)]) = BitVec.ofNat 64 base := by
    rw [pack, pack, Nat.mul_zero, Nat.add_zero]
    exact BitVec.eq_of_toNat_eq (by simp)
  simp only [ofNat_pack_cons, hbase, ofNat_bits b (show 15 + 1 = 0 + 16 by rfl) (by decide),
    ofNat_bits b (show 27 + 1 = 16 + 12 by rfl) (by decide), ofNat_bits b (show 31 + 1 = 28 + 4 by rfl) (by decide),
    ofNat_bits c (show 7 + 1 = 5 + 3 by rfl) (by decide), ofNat_bits c (show 4 + 1 = 0 + 5 by rfl) (by decide),
    ofNat_bits c (show 31 + 1 = 8 + 24 by rfl) (by decide)]

section
variable {s : State} {n q : Nat} {v : Thread} (hq : controlQuarter s v = some q)
include hq

theorem mdesc_sets_record {r : BitVec 4} {x : Ext} (R : Ready (.mdesc r x) s (.thread n) v) :
    exec (.mdesc r x) s =
      .next (putView s (.thread n) { v with recs := Tab.set v.recs r.toNat (packedRecord v x), pc := v.next (.mdesc r x) }) := by
  show execMdesc r x s = _
  rw [execMdesc, matrixRun_ready R hq]
  show settleEff _ _ _ _ (.done _) = _
  rw [settleEff, packedRecord, ← ofNat_pack_record]

/-! ### MLDB (R166, R168, R169) -/

/-- The first failing check of an MLDB's record. -/
def fillCheck (r : BitVec 4) (d : Shape) : Option Kept := firstShape [(d.bad .b 1, r, 1), (d.bad .b 2, r, 2), (d.bad .b 3, r, 3)]

section
variable {r : BitVec 4} {x : Ext} (R : Ready (.mldb r x) s (.thread n) v) (hdef : (quarterOf s q).deferred = none)
include R hdef

theorem mldb_traps {k : Kept} (hk : fillCheck r (shapeOf (v.shape r)) = some k) :
    exec (.mldb r x) s = .next (takeTrap s (.thread n) v k (trapHere (.mldb r x) v)) := by
  show execMldb r x s = _
  rw [execMldb, matrixRun_undeferred R hq hdef]
  unfold fillCheck at hk
  simp only [hk, settleEff]

/-- An MLDB whose record and pages are right enters the queue, or waits while it is full. -/
theorem mldb_enters {ps : List Page} (hk : fillCheck r (shapeOf (v.shape r)) = none)
    (hps : captureB s (threadCore s v) (threadEnclave s v) (ctxtNum s v) (shapeOf (v.shape r)) (upFrom 0 (shapeOf (v.shape r)).rows) [] =
      .ok ps) :
    exec (.mldb r x) s = .next (
      if queueFull s q then s
      else putView (setQuarter (enqueue (fillPages s v ps) q { MatOp.plain with kind := .fill, a := v.shape r, pages := ps }) q
        fun k => { k with issued := some ((shapeOf (v.shape r)).rows, (shapeOf (v.shape r)).cols), dead := false })
        (.thread n) { v with pc := v.next (.mldb r x) }) := by
  show execMldb r x s = _
  rw [execMldb, matrixRun_undeferred R hq hdef]
  unfold fillCheck at hk
  simp only [hk, onGot_ok (g := fun s => captureB s (threadCore s v) (threadEnclave s v) (ctxtNum s v) (shapeOf (v.shape r))
    (upFrom 0 (shapeOf (v.shape r)).rows) []) _ hps]
  split <;> rfl

end

/-! ### MROW (R170, R445) -/

section
variable {a c : BitVec 4} {feed ord pair : Bool} {x : Ext} (R : Ready (.mrow a c feed ord pair x) s (.thread n) v)
  (hdef : (quarterOf s q).deferred = none)
include R hdef

theorem mrow_traps {k : Kept} (hk : rowsCheck s v q a c feed ord pair (x.vb.toNat == vzero) (regNum v x.va.toNat 1)
      (regNum v x.vb.toNat 1) (regNum v x.vc.toNat 1) = some k) :
    exec (.mrow a c feed ord pair x) s = .next (takeTrap s (.thread n) v k (trapHere (.mrow a c feed ord pair x) v)) := by
  show execMrow a c feed ord pair x s = _
  rw [execMrow, matrixRun_undeferred R hq hdef]
  simp only [hk, settleEff]

/-- The operation that an MROW enters into the queue. -/
def rowsOp (v : Thread) (a c : BitVec 4) (feed ord pair : Bool) (x : Ext) (ps : List Page) : MatOp :=
  { MatOp.plain with
    kind := .rows, a := v.shape a, c := v.shape c, row := bits (regNum v x.va.toNat 1) 31 16, left := bits (regNum v x.va.toNat 1) 15 0,
    feed := feed, ord := ord, pair := pair, chunk := regNum v x.vc.toNat 1, rank := regNum v x.vb.toNat 1,
    desc := descLine ps (shapeOf (v.shape c)), pages := ps }

/-- An MROW whose records, counts and pages are right enters the queue, or waits while it is full, where a bank is to be had and no tile
is cancelled. -/
theorem mrow_enters {ps : List Page} (hk : rowsCheck s v q a c feed ord pair (x.vb.toNat == vzero) (regNum v x.va.toNat 1)
      (regNum v x.vb.toNat 1) (regNum v x.vc.toNat 1) = none)
    (hps : captureAcc s (threadCore s v) (threadEnclave s v) (shapeOf (v.shape c))
      (upFrom (bits (regNum v x.va.toNat 1) 31 16) (bits (regNum v x.va.toNat 1) 15 0)) = .ok ps)
    (hdead : (quarterOf s q).dead = false) (hcancelled : s.cancelled = []) :
    exec (.mrow a c feed ord pair x) s = .next (
      if queueFull s q then s
      else putView (enqueue (fillPages s v ps) q (rowsOp v a c feed ord pair x ps)) (.thread n)
        { v with pc := v.next (.mrow a c feed ord pair x) }) := by
  show execMrow a c feed ord pair x s = _
  rw [execMrow, matrixRun_undeferred R hq hdef]
  simp only [hk, onGot_ok (g := fun s => captureAcc s (threadCore s v) (threadEnclave s v) (shapeOf (v.shape c))
    (upFrom (bits (regNum v x.va.toNat 1) 31 16) (bits (regNum v x.va.toNat 1) 15 0))) _ hps, hdead, hcancelled, List.contains_nil,
    Bool.and_false, Bool.false_and, Bool.or_self, Bool.false_eq_true, if_false]
  split <;> rfl

end

/-! ### MZERO (R166, R173) -/

/-- The first failing check of an MZERO's record and chunk count. -/
def zeroCheck (r : BitVec 4) (d : Shape) (count : Nat) : Option Kept :=
  firstShape [(d.bad .acc 1, r, 1), (d.bad .acc 2, r, 2), (d.bad .acc 3, r, 3), (255 < count, r, 8)]

section
variable {r : BitVec 4} {x : Ext} (R : Ready (.mzero r x) s (.thread n) v)
include R

theorem mzero_traps {k : Kept} (hk : zeroCheck r (shapeOf (v.shape r)) (regNum v x.va.toNat 1) = some k) :
    exec (.mzero r x) s = .next (takeTrap s (.thread n) v k (trapHere (.mzero r x) v)) := by
  show execMzero r x s = _
  rw [execMzero, matrixRun_ready R hq]
  unfold zeroCheck at hk
  simp only [hk, settleEff]

/-- An MZERO whose record, count and pages are right enters the queue, or waits while it is full. -/
theorem mzero_enters {ps : List Page} (hk : zeroCheck r (shapeOf (v.shape r)) (regNum v x.va.toNat 1) = none)
    (hps : captureAcc s (threadCore s v) (threadEnclave s v) (shapeOf (v.shape r)) (upFrom 0 (shapeOf (v.shape r)).rows) = .ok ps) :
    exec (.mzero r x) s = .next (
      if queueFull s q then s
      else putView (enqueue (fillPages s v ps) q { MatOp.plain with
        kind := .zero, c := v.shape r, chunk := regNum v x.va.toNat 1, desc := descLine ps (shapeOf (v.shape r)), pages := ps })
        (.thread n) { v with pc := v.next (.mzero r x) }) := by
  show execMzero r x s = _
  rw [execMzero, matrixRun_ready R hq]
  unfold zeroCheck at hk
  simp only [hk, onGot_ok (g := fun s => captureAcc s (threadCore s v) (threadEnclave s v) (shapeOf (v.shape r))
    (upFrom 0 (shapeOf (v.shape r)).rows)) _ hps]
  split <;> rfl

end

/-! ### MSYNC and MSTAT (R176, R178) -/

theorem msync_returns {x : Ext} (R : Ready (.msync x) s (.thread n) v) (hdef : (quarterOf s q).deferred = none) :
    exec (.msync x) s = .next (
      if quarterIdle s q then putView (setQuarter s q fun k => { k with order := false, pairFailed := false }) (.thread n)
        { setRegs v x.vd.toNat 1 (quarterOf s q).status with pc := v.next (.msync x) }
      else s) := by
  show execMsync x s = _
  rw [execMsync, matrixRun_undeferred R hq hdef]
  cases quarterIdle s q <;> rfl

theorem mstat_takes_error {x : Ext} (R : Ready (.mstat x) s (.thread n) v) :
    exec (.mstat x) s = .next (putView (setQuarter s q fun k => (takeError k).2) (.thread n)
      { setRegs v x.vd.toNat 2 (takeError (quarterOf s q)).1 with pc := v.next (.mstat x) }) := by
  show execMstat x s = _
  rw [execMstat, matrixRun_ready R hq]
  rfl

end

end Sys2Proof.Machine

namespace Sys2Proof.Proofs

open Sys2Proof.Machine Sys2Proof.Safety Sys2Proof.Claims

/-- Settles O44: each instruction's effect is one of the equations above; what it leaves is the thread moved on and its quarter changed. -/
theorem matrixInstructions : Obligations.MatrixInstructions := by
  intro s n q v hq
  refine ⟨fun r x R => ?mdesc, fun i k hi R hk => ?deferred, fun r x R hdef => ?mldb, fun a c feed ord pair x R hdef => ?mrow,
    fun r x R => ?mzero, fun x R hdef => ?msync, fun x R => ?mstat⟩
  case mdesc =>
    exact ⟨_, _, mdesc_sets_record hq R, viewOf_putView_thread _ _ _, rfl, rfl, onlyThread_putView s (.thread n) _⟩
  case deferred =>
    unfold raisesDeferred at hi
    split at hi
    case h_4 => cases hi
    all_goals exact matrixRun_deferred R hq hk _
  case mldb =>
    refine ⟨fun htype => mldb_traps hq R hdef ?_, fun htype hsize => mldb_traps hq R hdef ?_,
      fun htype hsize hplace => mldb_traps hq R hdef ?_, fun ps htype hsize hplace hps => ?_⟩
    · rw [fillCheck, firstShape_cons, (Shape.bad_b_type _).2 htype]
      rfl
    · rw [fillCheck, firstShape_cons, htype, firstShape_cons, (Shape.bad_b_size _).2 hsize]
      rfl
    · rw [fillCheck, firstShape_cons, htype, firstShape_cons, hsize, firstShape_cons, (Shape.bad_b_place _).2 hplace]
      rfl
    · have hcheck : fillCheck r (shapeOf (v.shape r)) = none := by simp [fillCheck, firstShape_cons, htype, hsize, hplace]
      obtain ⟨henter, hwait⟩ := room_or_full (mldb_enters hq R hdef hcheck hps)
      refine ⟨fun hroom => ⟨_, _, henter hroom, queued_putView ?_ rfl fun k hk => ?_, ?_⟩, hwait⟩
      · rw [quarterOf_setQuarter_self, quarterOf_enqueue]
      · rw [quarterOf_setQuarter_ne _ _ hk, quarterOf_enqueue_ne _ _ hk]
      · rw [quarterOf_putView_thread, quarterOf_setQuarter_self]
  case mrow =>
    have hrows : (BitVec.ofNat 32 (regNum v x.va.toNat 1)).toNat = regNum v x.va.toNat 1 := by
      rw [BitVec.toNat_ofNat, Nat.mod_eq_of_lt (regNum_one_lt _ _)]
    have hrow := toNat_extractLsb'_ofNat (regNum v x.va.toNat 1) (show 31 + 1 = 16 + 16 by rfl) (by decide)
    have hcount := toNat_extractLsb'_ofNat (regNum v x.va.toNat 1) (show 15 + 1 = 0 + 16 by rfl) (by decide)
    simp only [hrows, hrow, hcount]
    refine ⟨fun k hk => mrow_traps hq R hdef hk, fun ps hk hps hdead hcancelled => ?_⟩
    obtain ⟨henter, hwait⟩ := room_or_full (mrow_enters hq R hdef hk hps hdead hcancelled)
    exact ⟨fun hroom => ⟨_, _, henter hroom, queued_enqueue _ n q _ v (rowsOp v a c feed ord pair x ps)⟩, hwait⟩
  case mzero =>
    refine fun ps htype hsize hplace => ⟨fun hlarge => mzero_traps hq R ?_, fun hcount hps => ?_⟩
    · rw [zeroCheck, firstShape_cons, htype, firstShape_cons, hsize, firstShape_cons, hplace, firstShape_cons, decide_eq_true hlarge]
      rfl
    · have hcheck : zeroCheck r (shapeOf (v.shape r)) (regNum v x.va.toNat 1) = none := by
        simp [zeroCheck, firstShape_cons, htype, hsize, hplace, hcount]
      obtain ⟨henter, hwait⟩ := room_or_full (mzero_enters hq R hcheck hps)
      exact ⟨fun hroom => ⟨_, _, henter hroom, queued_enqueue _ n q _ v _⟩, hwait⟩
  case msync =>
    have hexec := msync_returns hq R hdef
    refine ⟨fun hbusy => by rwa [hbusy] at hexec, fun hidle => ?_⟩
    rw [hidle, if_pos rfl] at hexec
    obtain ⟨u, hput⟩ := put_setQuarter (q := q) (r := (quarterOf s q).status) (fun k => { k with order := false, pairFailed := false })
      rfl (.inl rfl) rfl R
    have hquarter := quarterOf_setQuarter_self s q fun k => { k with order := false, pairFailed := false }
    rw [(Nat.mod_eq_of_lt (status_lt _)).trans (status_eq _)] at hput
    exact ⟨_, u, hexec, hput, hquarter, rfl⟩
  case mstat =>
    obtain ⟨u, hput⟩ := put_setQuarter (q := q) (r := (takeError (quarterOf s q)).1) (fun k => (takeError k).2) rfl (.inr rfl) rfl R
    have hquarter := quarterOf_setQuarter_self s q fun k => (takeError k).2
    refine ⟨_, u, mstat_takes_error hq R, rfl, fun hnone => ?_, fun e rest hsome => ?_⟩
    · have hvalue : (takeError (quarterOf s q)).1 % 2 ^ (32 * 2) = 0 := by simp [takeError_nil hnone]
      rw [hvalue] at hput
      exact ⟨hput, hquarter.trans (by rw [takeError_nil hnone])⟩
    · have hvalue : (takeError (quarterOf s q)).1 % 2 ^ (32 * 2) = (e.toNat + (quarterOf s q).more * 2 ^ 56) % 2 ^ 64 := by
        rw [takeError_cons hsome]
      rw [hvalue] at hput
      rw [takeError_cons hsome] at hquarter
      exact ⟨hput, congrArg Quarter.errs hquarter, congrArg Quarter.more hquarter⟩

end Sys2Proof.Proofs

/-! SUPPORT. What the events of a matrix quarter do: binding, pushes, swaps, failed fills, rows and MZERO (R159, R167, R169-R173, R179). -/

namespace Sys2Proof.Machine

open Sys2Proof.Safety Sys2Proof.Claims

/-! ### Binding (R159) -/

/-- A free quarter bound to a bent that brings nothing to it. -/
def freshlyBound (s : State) (q b : Nat) (cut : Bool) : State :=
  setQuarter { s with bents := Tab.modify s.bents b fun x => { x with control := some q, restore := none, pairCut := false } } q
    fun k => { Quarter.reset with bound := some b, pairFailed := cut, accepted := k.accepted }

theorem bindQuarter_fresh {s : State} {b : Nat} {x : Bent} (hx : bentOf s b = some x) (hnew : x.restore = none) (q : Nat) (v : Thread) :
    bindQuarter s q b v = freshlyBound s q b x.pairCut := by
  have hback : (bentOf s b).bind (·.restore) = none := by rw [hx]; exact hnew
  have hcut : ((bentOf s b).map (·.pairCut)).getD false = x.pairCut := by rw [hx]; rfl
  simp only [bindQuarter, hback, hcut]
  rfl

theorem bentOf_freshlyBound {s : State} {b : Nat} {x : Bent} (hx : bentOf s b = some x) (q : Nat) (cut : Bool) :
    bentOf (freshlyBound s q b cut) b = some { x with control := some q, restore := none, pairCut := false } := by
  rw [bentOf, freshlyBound, setQuarter_bents, Tab.get?_modify, if_pos rfl, ← bentOf, hx, Option.map_some]

theorem quarterOf_freshlyBound (s : State) (q b : Nat) (cut : Bool) : quarterOf (freshlyBound s q b cut) q =
    { Quarter.reset with bound := some b, pairFailed := cut, accepted := (quarterOf s q).accepted } :=
  quarterOf_setQuarter_self _ q _

section
variable {s : State} {q b t : Nat} {v : Thread} {x : Bent} (hfree : (quarterOf s q).bound = none) (hnext : nextBinder s q = some b)
  (hthread : matrixThread s b = some (t, v))
include hfree hnext hthread

/-- A quarter in service is bound; the thread under the number of the bent's matrix thread then meets the trap of an unusable entry. -/
theorem quarterBind_inService (hx : bentOf s b = some x) (hnew : x.restore = none) (hgoing : ∃ e ∈ x.blocks, e.2.ended = false)
    (hin : inService s q = true) : exec (.quarterBind q) s =
      .next (((threadOf s t).bind (entryTrap (freshlyBound s q b x.pairCut) t)).getD (freshlyBound s q b x.pairCut)) := by
  have hsettled : settleQuarter (freshlyBound s q b x.pairCut) q = freshlyBound s q b x.pairCut := by
    refine settleQuarter_of_block fun u y hu hy => ?_
    rw [quarterOf_freshlyBound] at hu
    cases hu
    rw [bentOf_freshlyBound hx] at hy
    cases hy
    exact hgoing
  show execQuarterBind q s = _
  simp only [execQuarterBind, hfree, Option.isSome_none, Bool.false_eq_true, if_false, hnext, hthread, hin, Bool.not_true,
    bindQuarter_fresh hx hnew, hsettled]
  rfl

theorem quarterBind_outOfService (hout : inService s q = false) : exec (.quarterBind q) s = .next (haltUnserved s v q) := by
  show execQuarterBind q s = _
  simp only [execQuarterBind, hfree, Option.isSome_none, Bool.false_eq_true, if_false, hnext, hthread, hout, Bool.not_false, if_true]

end

/-- Binding leaves the threads and memory alone where each thread stands under its own number (R159). -/
theorem quarterBind_binds {s : State} {q b t : Nat} {v : Thread} {x : Bent} (hrising : (Tab.keys s.threads).Pairwise (· < ·))
    (hfree : (quarterOf s q).bound = none) (hnext : nextBinder s q = some b) (hthread : matrixThread s b = some (t, v))
    (hx : bentOf s b = some x) (hnew : x.restore = none) (husable : v.mxtrap = none) (hgoing : ∃ e ∈ x.blocks, e.2.ended = false)
    (hin : inService s q = true) : ∃ r, exec (.quarterBind q) s = .next r ∧
      quarterOf r q = { Quarter.reset with bound := some b, pairFailed := x.pairCut, accepted := (quarterOf s q).accepted } ∧
      (bentOf r b).map (·.control) = some (some q) ∧ r.threads = s.threads ∧ r.mem = s.mem := by
  have hlookup : threadOf s t = some v := Tab.get?_of_mem hrising (List.mem_of_find?_eq_some hthread)
  have hruns : entryTrap (freshlyBound s q b x.pairCut) t v = none := by
    simp only [entryTrap, husable]
    split <;> simp_all
  have hexec := quarterBind_inService hfree hnext hthread hx hnew hgoing hin
  rw [hlookup, Option.bind_some, hruns, Option.getD_none] at hexec
  exact ⟨_, hexec, quarterOf_freshlyBound s q b _, by rw [bentOf_freshlyBound hx]; rfl, rfl, rfl⟩

/-! ### Pushes (R171) -/

/-- A quarter whose oldest push has entered its feed queue. -/
def acceptPush (p : Push) (rest : List Push) (k : Quarter) : Quarter := { k with pushes := rest, feed := k.feed ++ [p.word] }

theorem feedPushAccepted_enters {s : State} {q : Nat} {p : Push} {rest : List Push} (hp : (quarterOf s q).pushes = p :: rest)
    (hroom : (quarterOf s q).feed.length < 1024) : exec (.feedPushAccepted q) s =
      .next { setQuarter s q (acceptPush p rest) with
        threads := Tab.modify s.threads p.thread fun v => { v with tl := v.tl - 1 } } := by
  have hnot : ¬ Config.feedWords ≤ (quarterOf s q).feed.length := Nat.not_le.2 hroom
  show execFeedPushAccepted q s = _
  simp only [execFeedPushAccepted, hp, if_neg hnot]
  rfl

theorem feedPushAccepted_waits {s : State} {q : Nat} {p : Push} {rest : List Push} (hp : (quarterOf s q).pushes = p :: rest)
    (hfull : 1024 ≤ (quarterOf s q).feed.length) : exec (.feedPushAccepted q) s = .next s := by
  show execFeedPushAccepted q s = _
  simp only [execFeedPushAccepted, hp, if_pos (show Config.feedWords ≤ (quarterOf s q).feed.length from hfull)]

/-! ### Fills (R169, R179) -/

/-- A fill at the head of the queue is the one that may run, where none is active (R167). -/
theorem nextFill_of_head {k : Quarter} {o : MatOp} {os : List MatOp} (hidle : k.active = none) (hops : k.ops = o :: os) (hkind : o.kind = .fill) :
    nextFill k = some o := by
  simp [nextFill, nextFill.rest, hidle, hops, hkind]

theorem spoil_nil {q : Nat} {k : Quarter} {o : MatOp} {t : BTile} (hactive : k.active = some o) (hloaded : o.loaded = some t) :
    spoil q [] k = k := by
  have hkept : ({ o with loaded := some t } : MatOp) = o := by rw [← hloaded]
  have hactive' : ({ k with active := some o } : Quarter) = k := by rw [← hactive]
  simp [spoil, hactive, hloaded, hkept, hactive']

/-- A loaded fill at the head swaps in, all elements correct (R169). -/
theorem bankSwap_swaps {s : State} {q : Nat} {o : MatOp} {os : List MatOp} {b : BTile} (hidle : (quarterOf s q).active = none)
    (hops : (quarterOf s q).ops = o :: os) (hkind : o.kind = .fill) (hloaded : o.loaded = some b) (hseq : ∀ p ∈ os, p.seq ≠ o.seq)
    (hlive : quarterLive s q = true) : exec (.bankSwap q []) s =
      .next (settleQuarter (setQuarter s q fun k => { k with active := some o, ops := os }) q) := by
  have hkept : ({ o with loaded := some b } : MatOp) = o := by rw [← hloaded]
  have hrest : (o :: os).filter (·.seq != o.seq) = os := by simpa using hseq
  have hspoil : spoil q [] { quarterOf s q with active := some o, ops := os } = { quarterOf s q with active := some o, ops := os } :=
    spoil_nil rfl hloaded
  show execBankSwap q [] s = _
  simp [execBankSwap, nextFill_of_head hidle hops hkind, hidle, hops, hlive, hloaded, hkept, setQuarter, hrest, hspoil]

/-- The MROWs behind a failed fill go, up to the next MLDB. -/
theorem dropRows_append {rows rest : List MatOp} {b : MatOp} (hrows : ∀ p ∈ rows, p.kind = .rows) (hhead : rest.head? = some b)
    (hkind : b.kind = .fill) : dropRows (rows ++ rest) = rest := by
  induction rows with
  | nil =>
    cases rest with
    | nil => cases hhead
    | cons c cs =>
      obtain rfl : c = b := Option.some.inj hhead
      simp [dropRows, hkind]
  | cons p rows ih =>
    rw [List.cons_append, dropRows, hrows p List.mem_cons_self]
    exact ih fun x hx => hrows x (List.mem_cons_of_mem _ hx)

theorem fillFault_defers {s : State} {q : Nat} {o b : MatOp} {rows rest : List MatOp} {k : Kept} (hidle : (quarterOf s q).active = none)
    (hops : (quarterOf s q).ops = o :: (rows ++ rest)) (hkind : o.kind = .fill) (hloaded : o.loaded = none)
    (hfault : loadTile s q o = .trap k) (hrows : ∀ p ∈ rows, p.kind = .rows) (hhead : rest.head? = some b) (hb : b.kind = .fill)
    (hdef : (quarterOf s q).deferred = none) : exec (.fillFault q) s =
      .next (settleQuarter (setQuarter s q fun y => { y with active := none, ops := rest, dead := false, deferred := some k }) q) := by
  have hfill : rest.any (·.kind == .fill) = true :=
    List.any_eq_true.2 ⟨b, List.mem_of_head? hhead, by simp [hb]⟩
  have hfailed : failFill (quarterOf s q) o.seq k =
      { quarterOf s q with active := none, ops := rest, dead := false, deferred := some k } := by
    simp [failFill, hidle, hops, hdef, dropRows_append hrows hhead hb, hfill]
  show execFillFault q s = _
  simp only [execFillFault, nextFill_of_head hidle hops hkind, hloaded, hfault, setQuarter, hfailed]

/-! ### Rows (R170, R172, R175) -/

theorem Tab.set_set {α : Type} (t : Tab α) (k : Nat) (v w : α) : Tab.set (Tab.set t k v) k w = Tab.set t k w := by
  induction t with
  | nil => simp [Tab.set]
  | cons e t ih =>
    obtain ⟨k', v'⟩ := e
    by_cases hlt : k < k'
    · simp [Tab.set, hlt]
    · by_cases heq : k' = k
      · simp [Tab.set, heq]
      · simp [Tab.set, hlt, heq, ih]

theorem setQuarter_setQuarter (s : State) (q : Nat) (f g : Quarter → Quarter) :
    setQuarter (setQuarter s q f) q g = setQuarter s q fun k => g (f k) := by
  simp only [setQuarter, quarterOf, Tab.getD_set_self, Tab.set_set]

theorem map_snd_zip_upFrom {α : Type} (l : List α) : ((upFrom 0 l.length).zip l).map (·.2) = l :=
  List.map_snd_zip (by rw [upFrom_eq_range', List.length_range'])

/-- A quarter that has taken the next row of the MROW at its head, before the operations `os`. -/
def takeRow (o : MatOp) (os : List MatOp) (feed : List Word) (k : Quarter) : Quarter :=
  { k with feed := feed, accepted := k.accepted + 1
           ops := if o.left = 1 then os else { o with row := o.row + 1, left := o.left - 1 } :: os }

/-- The row at the head, all elements correct, is taken, debits the cluster's credit and sends its segments (R30, R170, R172). -/
theorem rowAccept_streams {s : State} {q : Nat} {o : MatOp} {os : List MatOp} {b : BTile} {a : List Nat} {feed : List Word}
    (hops : (quarterOf s q).ops = o :: os) (hbank : (quarterOf s q).active.bind (·.loaded) = some b) (hkind : o.kind = .rows)
    (hleft : o.left ≠ 0) (hlive : quarterLive s q = true) (hsent : ∀ g ∈ s.segments, g.quarter = q → g.refused = false)
    (htile : o.desc ∉ s.cancelled) (hrow : rowData s q o = some (a, feed)) : exec (.rowAccept q []) s =
      .next { setQuarter s q (takeRow o os feed) with
        clusters := Tab.update s.clusters (q / 4) Cluster.reset fun c => { c with credit := c.credit - 40960 }
        segments := s.segments ++ rowSegments q ((quarterOf s q).bound.getD 0) o b a } := by
  have hnone : (s.segments.any fun g => g.quarter == q && g.refused) = false := by
    simpa [List.any_eq_false] using hsent
  have hcancel : s.cancelled.contains o.desc = false := by simpa using htile
  show execRowAccept q [] s = _
  simp only [execRowAccept, hops, List.head?_cons, hbank, hkind, hleft, hlive, hnone, hrow, List.filter_nil,
    List.foldl_nil, setQuarter_setQuarter, setQuarter_clusters, setQuarter_segments, setQuarter_cancelled, hcancel]
  simp [setQuarter, hops, map_snd_zip_upFrom, takeRow, hkind]

theorem rowSegments_of_mem {q ticket : Nat} {o : MatOp} {b : BTile} {a : List Nat} {g : Segment} (hg : g ∈ rowSegments q ticket o b a) :
    g.data.length = 32 ∧ g.chunk = o.chunk ∧ g.ord = o.ord := by
  obtain ⟨j, -, rfl⟩ := List.mem_map.1 hg
  simp [upFrom_eq_range']

theorem rowAccept_held {s : State} {q : Nat} {g : Segment} (bad : List Nat) (hg : g ∈ s.segments) (hq : g.quarter = q)
    (hrefused : g.refused = true) : exec (.rowAccept q bad) s = .next s := by
  have hany : (s.segments.any fun g => g.quarter == q && g.refused) = true := List.any_eq_true.2 ⟨g, hg, by simp [hq, hrefused]⟩
  show execRowAccept q bad s = _
  simp only [execRowAccept, hany, Bool.or_true, if_true]
  split <;> rfl

/-! ### MZERO (R173) -/

theorem mem_zeroLine (s : State) (part count pa n : Nat) : (zeroLine s part count pa n).mem = Memory.zero s.mem pa n := by
  rw [zeroLine, mem_partWritten]
  rfl

theorem withoutCaches_zeroLine (s : State) (part count pa n : Nat) : withoutCaches (zeroLine s part count pa n) = withoutCaches s := by
  rw [zeroLine, withoutCaches_partWritten, withoutCaches_homeWritten]
  exact withoutCaches_keepHbm s (lineOf pa)

/-- The address at which line j of row m of an operation's tile stands. -/
def tilePa (o : MatOp) (m j : Nat) : Nat :=
  paOf o.pages (wrap 64 ((shapeOf o.c).base + m * (shapeOf o.c).stride + 128 * j : Nat))

/-- The bytes of line j that a row has. -/
def tileBytes (o : MatOp) (j : Nat) : Nat := min 128 (4 * (shapeOf o.c).cols - 128 * j)

/-- One row of a tile zeroed. -/
def zeroRow (q : Nat) (o : MatOp) (s : State) (m : Nat) : State :=
  (upFrom 0 (((shapeOf o.c).cols + 31) / 32)).foldl (fun s j => zeroLine s (quarterPart s q) o.chunk (tilePa o m j) (tileBytes o j)) s

def zeroRows (q : Nat) (o : MatOp) (s : State) : State := (upFrom 0 (shapeOf o.c).rows).foldl (zeroRow q o) s

theorem withoutCaches_zeroRow (q : Nat) (o : MatOp) (s : State) (m : Nat) : withoutCaches (zeroRow q o s m) = withoutCaches s :=
  foldl_keeps withoutCaches (fun s _ => withoutCaches_zeroLine s _ _ _ _) _ s

theorem withoutCaches_zeroRows (q : Nat) (o : MatOp) (s : State) : withoutCaches (zeroRows q o s) = withoutCaches s :=
  foldl_keeps withoutCaches (withoutCaches_zeroRow q o) _ s

/-- The descriptor line as MZERO writes it: status 0, the chunk count, zeros (R174). -/
def descBytes (o : MatOp) : List Byte := toBytes 4 0 ++ toBytes 4 o.chunk ++ toBytes 120 0

def descWritten (q : Nat) (o : MatOp) (s : State) : State :=
  clearSide (writeHome s (quarterPart s q) (o.desc * 128) (descBytes o)) o.desc

theorem mzeroComplete_eq {s : State} {q : Nat} {o : MatOp} {os : List MatOp} (hops : (quarterOf s q).ops = o :: os)
    (hkind : o.kind = .zero) (hlive : quarterLive s q = true) : exec (.mzeroComplete q) s =
      .next (settleQuarter (setQuarter { descWritten q o (zeroRows q o s) with
        cancelled := (descWritten q o (zeroRows q o s)).cancelled.filter (· != o.desc) } q fun k => { k with ops := k.ops.drop 1 }) q) := by
  show execMzeroComplete q s = _
  simp only [execMzeroComplete, hops, List.head?_cons, hkind, hlive]
  rfl

/-! ### What the end of a bent leaves alone (R44) -/

/-- A state without what the end of a bent may change. -/
def withoutWork (s : State) : State := { s with threads := [], bents := [], launches := [], quarters := [] }

theorem withoutWork_unbindQuarter (s : State) (q : Nat) : withoutWork (unbindQuarter s q) = withoutWork s := by
  refine (foldl_keeps withoutWork ?_ _ _).trans rfl
  exact fun _ _ => rfl

/-- A bent whose blocks have all ended has nothing left to release (R255). -/
theorem withoutWork_removeBent {s : State} {ticket : Nat} {b : Bent} (hb : bentOf s ticket = some b)
    (hend : ∀ k ∈ Tab.values b.blocks, k.ended = true) (halted : Bool) : withoutWork (removeBent s ticket halted) = withoutWork s := by
  have hrelease : (Tab.values b.blocks).foldl (fun s k => if k.ended then s else releaseHome s k.core) s = s :=
    (List.foldl_ext _ (fun s _ => s) s fun _ k hk => if_pos (hend k hk)).trans (List.foldl_fixed _)
  simp only [removeBent, hb, hrelease]
  cases b.control with
  | none => rfl
  | some q => exact withoutWork_unbindQuarter s q

theorem withoutWork_finishBent (s : State) (ticket : Nat) : withoutWork (finishBent s ticket) = withoutWork s := by
  cases hb : bentOf s ticket with
  | none => simp only [finishBent, hb]
  | some b =>
    have hremove (hend : (Tab.values b.blocks).all (·.ended) = true) (f : Nat → Thread → Thread) :
        withoutWork (removeBent (mapThreads s f) ticket false) = withoutWork s :=
      withoutWork_removeBent (s := mapThreads s f) hb (List.all_eq_true.1 hend) false
    simp only [finishBent, hb]
    split
    · rename_i hend
      obtain ⟨hended, -⟩ := Bool.and_eq_true_iff.1 hend
      cases b.control with
      | some q => exact (apply_ite withoutWork _ _ _).trans (by rw [hremove hended]; exact ite_self _)
      | none => exact (apply_ite withoutWork _ _ _).trans (by rw [hremove hended]; exact ite_self _)
    · rfl

theorem cancelled_settleQuarter (s : State) (q : Nat) : (settleQuarter s q).cancelled = s.cancelled := by
  cases hbound : (quarterOf s q).bound with
  | none => simp only [settleQuarter, hbound]
  | some b =>
    simp only [settleQuarter, hbound]
    have hkept := congrArg State.cancelled (withoutWork_finishBent s b)
    exact hkept

/-! ### Memory after MZERO -/

/-- What one step of a fold brings about, and all keep, holds after it. -/
theorem foldl_establishes {σ α : Type} {P : σ → Prop} {f : σ → α → σ} (hkeep : ∀ s x, P s → P (f s x)) {x : α} (hx : ∀ s, P (f s x)) :
    ∀ {l : List α}, x ∈ l → ∀ s, P (l.foldl f s) := by
  intro l
  induction l with
  | nil => exact fun h => nomatch h
  | cons y l ih =>
    intro hmem s
    rcases List.mem_cons.1 hmem with rfl | hmem
    · exact List.foldlRecOn l f (hx s) fun s hs y _ => hkeep s y hs
    · exact ih hmem _

/-- A range of memory that reads zero. -/
def ZeroAt (pa n : Nat) (s : State) : Prop := ∀ a, pa ≤ a → a < pa + n → Memory.read s.mem a = 0

theorem zeroAt_zeroLine (s : State) (part count pa n : Nat) : ZeroAt pa n (zeroLine s part count pa n) := by
  intro a hlo hhi
  rw [mem_zeroLine, Memory.read_zero, if_pos ⟨hlo, hhi⟩]

theorem ZeroAt.zeroLine {pa n : Nat} {s : State} (h : ZeroAt pa n s) (part count pa' n' : Nat) : ZeroAt pa n (zeroLine s part count pa' n') := by
  intro a hlo hhi
  rw [mem_zeroLine, Memory.read_zero, h a hlo hhi, ite_self]

theorem ZeroAt.zeroRow {pa n : Nat} {s : State} (h : ZeroAt pa n s) (q : Nat) (o : MatOp) (m : Nat) : ZeroAt pa n (zeroRow q o s m) :=
  List.foldlRecOn _ _ h fun _ hs _ _ => hs.zeroLine _ _ _ _

theorem mem_upFrom {n k : Nat} : k ∈ upFrom 0 n ↔ k < n := by
  simp [upFrom_eq_range']

/-- Each row of the tile reads zero after its rows have been zeroed (R173). -/
theorem zeroAt_zeroRows (q : Nat) (o : MatOp) (s : State) {m j : Nat} (hm : m < (shapeOf o.c).rows) (hj : j < ((shapeOf o.c).cols + 31) / 32) :
    ZeroAt (tilePa o m j) (tileBytes o j) (zeroRows q o s) :=
  have hrow (s : State) : ZeroAt (tilePa o m j) (tileBytes o j) (zeroRow q o s m) :=
    foldl_establishes (P := ZeroAt (tilePa o m j) (tileBytes o j)) (fun _ _ h => h.zeroLine _ _ _ _)
      (fun s => zeroAt_zeroLine s _ _ _ _) (mem_upFrom.2 hj) s
  foldl_establishes (P := ZeroAt (tilePa o m j) (tileBytes o j)) (f := zeroRow q o) (fun _ k h => h.zeroRow q o k) hrow (mem_upFrom.2 hm) s

theorem ZeroAt.bytes {pa n : Nat} {s : State} (h : ZeroAt pa n s) : Memory.bytes s.mem pa n = List.replicate n 0 := by
  induction n generalizing pa with
  | zero => rfl
  | succ n ih => rw [Memory.bytes, List.replicate_succ, h pa le_rfl (by omega), ih fun a hlo hhi => h a (by omega) (by omega)]

theorem mem_clearSide (s : State) (line : Nat) : (clearSide s line).mem = s.mem := rfl

theorem mem_descWritten (q : Nat) (o : MatOp) (s : State) :
    (descWritten q o s).mem = Memory.writeBytes s.mem (o.desc * 128) (descBytes o) := by
  rw [descWritten, mem_clearSide, mem_writeHome]

theorem descBytes_length (o : MatOp) : (descBytes o).length = 128 := by simp [descBytes, toBytes_length]

/-- A line of the tile that is not the descriptor's keeps its zeros (R173, R174). -/
theorem ZeroAt.descWritten {pa n : Nat} {s : State} (h : ZeroAt pa n s) (q : Nat) (o : MatOp) (hpa : pa % 128 = 0) (hn : n ≤ 128)
    (hline : lineOf pa ≠ o.desc) : ZeroAt pa n (descWritten q o s) := by
  intro a hlo hhi
  unfold lineOf at hline
  rw [mem_descWritten, Memory.read_writeBytes_out _ _ _ _ (by rw [descBytes_length]; omega), h a hlo hhi]

theorem mzeroComplete_zeroes {s : State} {q : Nat} {o : MatOp} {os : List MatOp} (hops : (quarterOf s q).ops = o :: os)
    (hkind : o.kind = .zero) (hlive : quarterLive s q = true) : ∃ r, exec (.mzeroComplete q) s = .next r ∧
      (∀ d, d ∈ r.cancelled → d ≠ o.desc) ∧ Memory.bytes r.mem (o.desc * 128) 128 = toBytes 4 0 ++ toBytes 4 o.chunk ++ List.replicate 120 0 ∧
      ∀ m j, m < (shapeOf o.c).rows → j < ((shapeOf o.c).cols + 31) / 32 → tilePa o m j % 128 = 0 → lineOf (tilePa o m j) ≠ o.desc →
        Memory.bytes r.mem (tilePa o m j) (tileBytes o j) = List.replicate (tileBytes o j) 0 := by
  have hbytes : (descBytes o).length = 128 := descBytes_length o
  refine ⟨_, mzeroComplete_eq hops hkind hlive, ?_⟩
  rw [cancelled_settleQuarter, mem_of_memAndSide (memAndSide_settleQuarter _ q), setQuarter_cancelled, setQuarter_mem]
  dsimp only
  refine ⟨fun d hd => ?_, ?_, fun m j hm hj hpa hline => ?_⟩
  · simpa using (List.mem_filter.1 hd).2
  · rw [mem_descWritten, ← hbytes, Memory.bytes_writeBytes]
    rfl
  · exact ((zeroAt_zeroRows q o s hm hj).descWritten q o hpa (min_le_left _ _) hline).bytes

/-! ### The clauses together -/

/-- What O45 says of one quarter of one state. -/
def QuarterClauses (s : State) (q : Nat) : Prop :=
  (∀ b t v x, (quarterOf s q).bound = none → nextBinder s q = some b → matrixThread s b = some (t, v) → bentOf s b = some x →
    x.restore = none → v.mxtrap = none → (∃ e ∈ x.blocks, e.2.ended = false) →
    (inService s q = true → ∃ r, exec (.quarterBind q) s = .next r ∧
      quarterOf r q = { Quarter.reset with bound := some b, pairFailed := x.pairCut, accepted := (quarterOf s q).accepted } ∧
      (bentOf r b).map (·.control) = some (some q) ∧ r.threads = s.threads ∧ r.mem = s.mem) ∧
    (inService s q = false → exec (.quarterBind q) s = .next (haltUnserved s v q))) ∧
  (∀ p rest, (quarterOf s q).pushes = p :: rest →
    ((quarterOf s q).feed.length < 1024 → ∃ r, exec (.feedPushAccepted q) s = .next r ∧
      quarterOf r q = { quarterOf s q with pushes := rest, feed := (quarterOf s q).feed ++ [p.word] } ∧
      ∀ v, threadOf s p.thread = some v → threadOf r p.thread = some { v with tl := v.tl - 1 }) ∧
    (1024 ≤ (quarterOf s q).feed.length → exec (.feedPushAccepted q) s = .next s)) ∧
  (∀ o os b, (quarterOf s q).active = none → (quarterOf s q).ops = o :: os → o.kind = .fill → o.loaded = some b →
    (∀ p ∈ os, p.seq ≠ o.seq) → quarterLive s q = true →
      exec (.bankSwap q []) s =
        .next (settleQuarter (setQuarter s q fun k => { k with active := some o, ops := os }) q)) ∧
  (∀ o rows rest b k, (quarterOf s q).active = none → (quarterOf s q).ops = o :: (rows ++ rest) → o.kind = .fill →
    o.loaded = none → loadTile s q o = .trap k → (∀ p ∈ rows, p.kind = .rows) → rest.head? = some b → b.kind = .fill →
    (quarterOf s q).deferred = none →
      exec (.fillFault q) s =
        .next (settleQuarter (setQuarter s q fun y => { y with active := none, ops := rest, dead := false, deferred := some k }) q)) ∧
  (∀ o os b a feed, (quarterOf s q).ops = o :: os → (quarterOf s q).active.bind (·.loaded) = some b → o.kind = .rows → o.left ≠ 0 →
    quarterLive s q = true → (∀ g ∈ s.segments, g.quarter = q → g.refused = false) → o.desc ∉ s.cancelled →
    rowData s q o = some (a, feed) →
      ∃ r, exec (.rowAccept q []) s = .next r ∧ r.mem = s.mem ∧ (quarterOf r q).feed = feed ∧
        (quarterOf r q).accepted = (quarterOf s q).accepted + 1 ∧
        (quarterOf r q).ops = (if o.left = 1 then os else { o with row := o.row + 1, left := o.left - 1 } :: os) ∧
        (clusterOfPkg r (q / 4)).credit = (clusterOfPkg s (q / 4)).credit - 40960 ∧
        r.segments = s.segments ++ rowSegments q ((quarterOf s q).bound.getD 0) o b a ∧
        ∀ g ∈ rowSegments q ((quarterOf s q).bound.getD 0) o b a, g.data.length = 32 ∧ g.chunk = o.chunk ∧ g.ord = o.ord) ∧
  (∀ bad g, g ∈ s.segments → g.quarter = q → g.refused = true → exec (.rowAccept q bad) s = .next s) ∧
  (∀ o os, (quarterOf s q).ops = o :: os → o.kind = .zero → quarterLive s q = true →
    let c := shapeOf o.c
    ∃ r, exec (.mzeroComplete q) s = .next r ∧ (∀ d, d ∈ r.cancelled → d ≠ o.desc) ∧
      Memory.bytes r.mem (o.desc * 128) 128 = toBytes 4 0 ++ toBytes 4 o.chunk ++ List.replicate 120 0 ∧
      ∀ m j, m < c.rows → j < (c.cols + 31) / 32 →
        let pa := paOf o.pages (BitVec.ofNat 64 (c.base + m * c.stride + 128 * j)).toNat
        pa % 128 = 0 → lineOf pa ≠ o.desc →
          Memory.bytes r.mem pa (min 128 (4 * c.cols - 128 * j)) = List.replicate (min 128 (4 * c.cols - 128 * j)) 0)

/-- The clauses hold where each thread stands under a number of its own. -/
theorem quarterClauses_of_rising {s : State} (hrising : (Tab.keys s.threads).Pairwise (· < ·)) (q : Nat) : QuarterClauses s q := by
  refine ⟨fun b t v x hfree hnext hthread hx hnew husable hgoing => ⟨fun hin => ?_, fun hout => ?_⟩,
    fun p rest hp => ⟨fun hroom => ?_, feedPushAccepted_waits hp⟩,
    fun _ _ _ => bankSwap_swaps,
    fun _ _ _ _ _ => fillFault_defers,
    fun o os b a feed hops hbank hkind hleft hlive hsent htile hrow => ?_,
    fun bad _ => rowAccept_held bad,
    fun _ _ => mzeroComplete_zeroes⟩
  · exact quarterBind_binds hrising hfree hnext hthread hx hnew husable hgoing hin
  · exact quarterBind_outOfService hfree hnext hthread hout
  · refine ⟨_, feedPushAccepted_enters hp hroom, quarterOf_setQuarter_self s q (acceptPush p rest), fun v hv => ?_⟩
    rw [threadOf, Tab.get?_modify, if_pos rfl, ← threadOf, hv, Option.map_some]
  · have htaken := quarterOf_setQuarter_self s q (takeRow o os feed)
    exact ⟨_, rowAccept_streams hops hbank hkind hleft hlive hsent htile hrow, rfl, congrArg Quarter.feed htaken,
      congrArg Quarter.accepted htaken, congrArg Quarter.ops htaken, congrArg Cluster.credit (Tab.getD_set_self _ _ _ _), rfl,
      fun _ hg => rowSegments_of_mem hg⟩

/-! ### Two matrix threads under one number -/

/-- The matrix thread of a bent at its entry. -/
def matrixThreadOf (b : Nat) : Thread := { newThread b 0 [] 0 (BitVec.ofNat 64 codeVa) 0 0 with control := true }

/-- The matrix thread of bent 2 at an unusable entry (R160). -/
def stuckThread : Thread := { matrixThreadOf 2 with mxtrap := some (kept .brAlign codeVa) }

/-- Two bents of one launch that wait for quarter 0, the matrix threads of both under number 0. -/
def twoUnderOneNumber : State :=
  { State.reset with
    launches := [(0, { enclave := 1, queue := 0, hdr := codeHeader, next := 2, ended := 0, halted := false })]
    bents := [(1, codeBent none), (2, { codeBent none with stamp := 1 })]
    threads := [(0, stuckThread), (0, matrixThreadOf 1)] }

/-- The thread of bent 2 enters its handler. -/
theorem entryTrap_stuckThread : entryTrap (freshlyBound twoUnderOneNumber 0 1 false) 0 stuckThread =
    some (setThread (freshlyBound twoUnderOneNumber 0 1 false) 0 (enterTrap stuckThread (BitVec.ofNat 64 codeVa) (kept .brAlign codeVa)
      { pc := BitVec.ofNat 64 codeVa, len := 0, tdst := tdstNone } 1)) := by
  decide +kernel

end Sys2Proof.Machine

namespace Sys2Proof.Proofs

open Sys2Proof.Machine Sys2Proof.Safety Sys2Proof.Claims

theorem quartersBindFillAndStream_iff : Obligations.QuartersBindFillAndStream ↔ ∀ s q, QuarterClauses s q := Iff.rfl

/-- Refutes O45: its binding clause does not ask that the numbers of the thread table rise, as others do. Where two matrix threads stand under
one number, the thread that binding looks up by the number of the new bent's thread is the other bent's, and it traps at its unusable
entry: the thread table changes. Where the numbers rise, every clause holds (`quarterClauses_of_rising`). -/
theorem not_quartersBindFillAndStream : ¬ Obligations.QuartersBindFillAndStream := by
  intro h
  have hfree : (quarterOf twoUnderOneNumber 0).bound = none := rfl
  have hnext : nextBinder twoUnderOneNumber 0 = some 1 := by decide +kernel
  have hthread : matrixThread twoUnderOneNumber 1 = some (0, matrixThreadOf 1) := by decide +kernel
  have hgoing : ∃ e ∈ (codeBent none).blocks, e.2.ended = false := ⟨(0, codeBlock), List.mem_cons_self, rfl⟩
  have hin : inService twoUnderOneNumber 0 = true := by decide +kernel
  obtain ⟨hbinds, -⟩ := quartersBindFillAndStream_iff.1 h twoUnderOneNumber 0
  obtain ⟨hserved, -⟩ := hbinds 1 0 (matrixThreadOf 1) (codeBent none) hfree hnext hthread rfl rfl rfl hgoing
  obtain ⟨r, hexec, -, -, hthreads, -⟩ := hserved hin
  have hcut : (codeBent none).pairCut = false := rfl
  have hlookup : threadOf twoUnderOneNumber 0 = some stuckThread := rfl
  rw [quarterBind_inService hfree hnext hthread rfl rfl hgoing hin, hcut, hlookup, Option.bind_some, entryTrap_stuckThread] at hexec
  obtain rfl := Host.Outcome.next.inj hexec
  have htrapped : some true = some false := congrArg (fun l : Tab Thread => (Tab.get? l 0).map Thread.trapActive) hthreads
  cases htrapped

end Sys2Proof.Proofs

/-! SUPPORT. A copy with a dirty mark of no byte, for the refutation of O54. -/

namespace Sys2Proof.Machine

open Sys2Proof.Safety Sys2Proof.Claims

/-- A copy of a line whose dirty table names a core without any byte. -/
def idleCopy : L1Line := { cache := 0, bay := 0, line := 0, key := 0, data := 0, filled := 1, dirty := [(0, 0)], mark := none }

/-- A package of whose checkpoint the images are due, with that copy in an L1. -/
def dueCheckpoint : State := { State.reset with mgmt := { Mgmt.reset with ckpt := true }, l1 := [idleCopy] }

/-- The checkpoint's write-back finds no dirty byte in the copy and leaves it as it is. -/
theorem l1_takeCheckpoint_due : (takeCheckpoint dueCheckpoint).l1 = [idleCopy] := rfl

theorem execCheckpoint_due (src : Source) : exec (.checkpoint src) dueCheckpoint = .next (takeCheckpoint dueCheckpoint) := rfl

end Sys2Proof.Machine

namespace Sys2Proof.Proofs

open Sys2Proof.Machine Sys2Proof.Safety Sys2Proof.Claims

/-- Refutes O54: a checkpoint writes back the dirty bytes of every copy, and a copy whose dirty table names a core without any byte
has none, so the table keeps that core's entry, which `WrittenBack` wants gone. -/
theorem not_partitionsMigrationCheckpoints : ¬ Obligations.PartitionsMigrationCheckpoints := by
  rintro ⟨-, -, hcheckpoints⟩
  obtain ⟨-, -, -, -, hwrites, -⟩ := hcheckpoints dueCheckpoint
  obtain ⟨t, hexec, -, -, -, ⟨hl1, -⟩, -⟩ := hwrites (.port 0) rfl rfl rfl
  obtain rfl := Host.Outcome.next.inj ((execCheckpoint_due _).symm.trans hexec)
  have hclean : idleCopy.dirty = [] := hl1 idleCopy (l1_takeCheckpoint_due ▸ List.mem_cons_self) trivial
  cases hclean

end Sys2Proof.Proofs

/-! SUPPORT. A copy command that stops on a rank that does not exist, for the refutation of O37. -/

namespace Sys2Proof.Machine

open Sys2Proof.Safety Sys2Proof.Claims

/-- A begun copy to rank 0, which no block holds, that has used the translation of one frame. -/
def orphanCopy : CopyCmd :=
  { thread := 0, core := 0, what := .cpy .spToRm none, dst := 0, src := 0, len := 16, guard := none, batch := none, state := .begun,
    moved := 0, frames := [5], fault := none, delivered := false }

/-- A thread whose only copy command is that one. -/
def orphaned : State := { State.reset with threads := [(0, newThread 0 0 [] 0 0 0 0)], cmds := [(0, orphanCopy)] }

theorem remoteRank_zero : remoteRank 0 = 0 := by decide

theorem blockOf_orphaned (b r : Nat) : blockOf orphaned b r = none := rfl

/-- The command stops with BENT_TICKET and lets go of its frames. -/
theorem exec_orphaned : exec (.copyCommandComplete 0) orphaned =
    .next (setCmd orphaned 0 fun k =>
      { k with state := .done, moved := k.total, frames := [], fault := some (kept .bentTicket 0) }) := by
  have hcmd : Tab.get? orphaned.cmds 0 = some orphanCopy := rfl
  have hthread : threadOf orphaned orphanCopy.thread = some (newThread 0 0 [] 0 0 0 0) := rfl
  have hbegun : orphanCopy.state = .begun := rfl
  have hranks : orphanCopy.ranks = [0] := congrArg (fun r => [r]) remoteRank_zero
  have hbatch : orphanCopy.batch = none := rfl
  show execCopyCommandComplete 0 orphaned = _
  simp only [execCopyCommandComplete, hcmd, hthread, hbegun, hranks, hbatch, List.find?, blockOf_orphaned, ne_eq, not_true_eq_false,
    if_false, Option.isNone_some, Bool.and_false, Bool.false_eq_true]

end Sys2Proof.Machine

namespace Sys2Proof.Proofs

open Sys2Proof.Machine Sys2Proof.Safety Sys2Proof.Claims

/-- Refutes O37: a command that finishes lets go of its frames, which the statement's finished command keeps. -/
theorem not_batchesSealAndComplete : ¬ Obligations.BatchesSealAndComplete := by
  rintro ⟨-, hmove, -⟩
  obtain ⟨-, hgone, -⟩ := hmove orphaned (newThread 0 0 [] 0 0 0 0) 0 orphanCopy rfl rfl rfl
  have hstop := hgone [] 0 [] rfl (by simp) (by simp [blockOf_orphaned])
  have hcmds := congrArg State.cmds (Host.Outcome.next.inj (exec_orphaned.symm.trans hstop))
  have hframes : ([] : List Nat) = [5] := congrArg (fun cs => (cs.map fun e => e.2.frames).flatten) hcmds
  cases hframes

end Sys2Proof.Proofs

/-! SUPPORT. Two commands of one key, for the refutation of O36. -/

namespace Sys2Proof.Machine

open Sys2Proof.Safety Sys2Proof.Claims

/-- A copy command of 16 bytes waiting for the guard in slot 0. -/
def guardedCopy : CopyCmd :=
  { thread := 0, core := 0, what := .cpy .glToSp none, dst := 0, src := 0, len := 16, guard := some 0, batch := none, state := .waiting,
    moved := 0, frames := [], fault := none, delivered := false }

/-- Another thread's command, which names nothing to move. -/
def emptyCopy : CopyCmd := { guardedCopy with thread := 1, len := 0, guard := none }

/-- A thread whose register 0 holds 1. -/
def guardSetter : Thread := { newThread 0 0 [] 1 0 0 0 with regs := [(0, 1)] }

/-- That thread's command behind another's of the same key. -/
def twoCopies : State :=
  { State.reset with cur := some (.thread 0), threads := [(0, guardSetter)], cmds := [(0, emptyCopy), (0, guardedCopy)] }

/-- GSET of slot 0 from register 0. -/
def setSlot0 : Instr := .gset 0 { vd := 1023, va := 0, vb := 1023, vc := 1023, mask := 0, inv := false, z := false, rnd := .dflt, imm := 0, lit := none }

theorem ready_setSlot0 : Ready setSlot0 twoCopies (.thread 0) guardSetter := ⟨rfl, rfl, rfl, rfl, rfl⟩

theorem streamHead_twoCopies : streamHead twoCopies 0 = some (0, guardedCopy) := rfl

/-- The state after that GSET. -/
def copiesSet : State :=
  { twoCopies with
    threads := [(0, { guardSetter with guards := [(0, true)], pc := 12 })]
    cmds := [(0, { emptyCopy with state := .done }), (0, { guardedCopy with state := .begun })] }

/-- GSET begins the command behind: that in front, of no length, is changed with it and is done. -/
theorem exec_twoCopies : exec setSlot0 twoCopies = .next copiesSet := rfl

theorem entry_copiesSet : entry copiesSet 0 = some { emptyCopy with state := .done } := rfl

end Sys2Proof.Machine

namespace Sys2Proof.Proofs

open Sys2Proof.Machine Sys2Proof.Safety Sys2Proof.Claims

/-- Refutes O36: nothing in its second half says that a command's key is its alone, and a key's commands are all set when its guard
is resolved, each by its own length. -/
theorem not_copyCommandsAndGuards : ¬ Obligations.CopyCommandsAndGuards := by
  rintro ⟨-, hguards⟩
  obtain ⟨-, hset, -⟩ := hguards twoCopies 0 guardSetter
  obtain ⟨r, u, hexec, -, -, -, -, -, hbatches⟩ := hset _ _ 1 0 guardSetter ready_setSlot0 rfl rfl (fun _ _ h => by cases h)
  have hr : r = copiesSet := (Host.Outcome.next.inj (exec_twoCopies.symm.trans hexec)).symm
  obtain ⟨-, hbegin, -⟩ := hbatches rfl
  have hstate := hbegin 0 guardedCopy streamHead_twoCopies rfl rfl
  rw [hr, entry_copiesSet] at hstate
  cases hstate

end Sys2Proof.Proofs

/-! SUPPORT. A load that finds no room for what it evicts, for the refutation of O24. -/

namespace Sys2Proof.Machine

open Sys2Proof.Safety Sys2Proof.Claims

theorem exists_lines_of_one_l1Set : ∃ line other : Nat, line < 129 ∧ other ≠ line ∧ Config.l1Set other % 128 = Config.l1Set line % 128 := by
  obtain ⟨a, b, hne, hab⟩ := Fintype.exists_ne_map_eq_of_card_lt
    (fun i : Fin 129 => (⟨Config.l1Set i % 128, Nat.mod_lt _ (by decide)⟩ : Fin 128)) (by simp)
  exact ⟨b, a, b.isLt, fun h => hne (Fin.ext h), Fin.mk.inj_iff.mp hab⟩

/-- A clean copy of a line in bay 0 of the first core's L1, with a mark. -/
def markedCopy (line : Nat) : L1Line := { cache := 0, bay := 0, line := line, key := 0, data := 0, filled := 1, dirty := [], mark := some 0 }

/-- That copy as it stands in the retention store. -/
def retainedCopy (line : Nat) : Retained :=
  { cache := 0, bay := 0, line := line, key := 0, data := 0, valid := 1, mark := 0, page := none }

/-- The first thread of a package. -/
def firstThread : Thread := newThread 0 0 [] 0 0 0 0

/-- The translation of the enclave's first page. -/
def firstEntry : TlbEntry :=
  { core := 0, enclave := 0, page := 0, big := false, pot := { owner := 0, slot := 0, type := 0, rstr := false }, entry := 7 }

/-- That page. -/
def firstPage : Page := { va := 0, pa := 0, size := 65536, fmt := 0 }

theorem covers_firstEntry {line : Nat} (h : line < 129) : firstEntry.covers 0 (line * 128) = true := by
  simp [TlbEntry.covers, firstEntry]
  omega

/-- A package whose first core has n copies of one line in its L1, for an enclave with no free page. -/
def hoarding (n line : Nat) : State :=
  { State.reset with
    enclaves := [(0, bareEnclave 0)]
    tlb := [firstEntry]
    threads := [(0, firstThread)]
    l1 := List.replicate n (markedCopy line) }

/-- Copies of a live mark that leave a store all go to retention. -/
theorem foldl_retain_marked (line n : Nat) (s : State) (hlive : ∀ rs, markLive { s with retained := rs } 0 0 = true) :
    (List.replicate n (markedCopy line)).foldl retain s =
      { s with retained := s.retained ++ List.replicate n (retainedCopy line) } := by
  induction n generalizing s with
  | zero => simp
  | succ n ih =>
    have hstep : retain s (markedCopy line) = { s with retained := s.retained ++ [retainedCopy line] } := by
      have hnow : markLive s (markedCopy line).cache 0 = true := hlive s.retained
      exact if_pos (by rw [hnow]; rfl)
    refine (congrArg (List.foldl retain · _) hstep).trans ((ih { s with retained := s.retained ++ [retainedCopy line] } hlive).trans ?_)
    simp [List.replicate_succ]

/-- The copies of the other line all leave for retention when a line of their set comes in. -/
theorem makeRoom_hoarding {n line other : Nat} (hn : 4 ≤ n) (hne : other ≠ line)
    (hset : Config.l1Set other % 128 = Config.l1Set line % 128) :
    makeRoom (hoarding n other) 0 0 line = { hoarding n other with l1 := [], retained := List.replicate n (retainedCopy other) } := by
  have hsame : l1SetOf 0 other = l1SetOf 0 line := by rw [l1SetOf, l1SetOf, hset]; rfl
  have hheld : ((hoarding n other).l1.filter fun x => x.cache == 0 && x.bay == 0 && l1SetOf 0 x.line == l1SetOf 0 line).map (·.line) =
      List.replicate n other := by
    rw [hoarding, List.filter_replicate, if_pos (by simp [markedCopy, hsame]), List.map_replicate]
    rfl
  have hout (k : Nat) : (List.replicate n other).getD (k % n) 0 = other := by
    rw [List.getD_eq_getElem _ _ (by simpa using Nat.mod_lt k (by omega : 0 < n)), List.getElem_replicate]
  have hcache : cacheOf (hoarding n other) 0 = 0 := rfl
  have hclean (sel : L1Line → BitVec 128) : writeBack (hoarding n other) sel = hoarding n other := by
    simp [writeBack, hoarding, markedCopy, L1Line.written]
  have hall : (hoarding n other).l1.filter (fun x => x.cache == 0 && x.bay == 0 && x.line == other) = List.replicate n (markedCopy other) := by
    simp [hoarding, markedCopy]
  have hnone : (hoarding n other).l1.filter (fun x => !(x.cache == 0 && x.bay == 0 && x.line == other)) = [] := by
    simp [hoarding, markedCopy]
  have hgone : flushL1 (hoarding n other) (fun x => x.cache == 0 && x.bay == 0 && x.line == other) =
      { hoarding n other with l1 := [], retained := List.replicate n (retainedCopy other) } := by
    have hretain := foldl_retain_marked other n (hoarding n other) fun _ => rfl
    have hempty : (hoarding n other).retained = [] := rfl
    rw [flushL1, hclean, discard, hall, hretain, hempty]
    simp only [hnone, List.nil_append]
  simp only [makeRoom, hcache, hheld]
  rw [if_neg (by simp [hne.symm, hn]), List.length_replicate, hout, hgone]

/-- No page of the enclave's takes the 65th entry of the retention store. -/
theorem overflowTo_none {n line : Nat} (s : State) (hs : s.retained = List.replicate (n + 1) (retainedCopy line))
    (he : (enclaveOf s 0).map (·.stack) = some []) : overflowTo 0 0 0 1 s = none := by
  have hchip : onChip s 0 0 = retainedCopy line :: List.replicate n (retainedCopy line) := by
    simp [onChip, hs, retainedCopy, List.replicate_succ]
  have hpages : (s.retained.filter fun x => x.cache == 0 && x.bay == 0).filterMap (·.page) = [] := by
    simp [hs, retainedCopy]
  simp only [overflowTo, hchip, hpages, List.find?_nil, he]

theorem translate_hoarding {n line : Nat} (other : Nat) (h : line < 129) :
    translate (hoarding n other) 0 0 .read (line * 128) = .ok firstPage := by
  have hcanonical : canonicalVa (line * 128) = true := by
    have h57 : bits (line * 128) 63 57 = 0 := by simp [bits]; omega
    have h56 : bit (line * 128) 56 = false := by simp [bit]; omega
    simp [canonicalVa, h57, h56]
  have hlookup : tlbLookup (hoarding n other) 0 0 (line * 128) = some firstEntry := by
    have hfind : (hoarding n other).tlb.find? (fun t => t.core == 0 && t.covers 0 (line * 128)) = some firstEntry :=
      List.find?_cons_of_pos (covers_firstEntry h)
    rw [tlbLookup, hfind, Option.some_or]
  have henclave : Tab.get? (hoarding n other).enclaves 0 = some (bareEnclave 0) := rfl
  have hcheck : leafCheck .read 7 (line * 128) = none := rfl
  have hleaf : leafPage false 7 (line * 128) = firstPage := by
    simp [leafPage, leafFrame, bits, firstPage]
    omega
  simp only [translate, hcanonical, henclave, hlookup]
  simp [hcheck, hleaf, Got.bind, firstEntry]

theorem l1Hit_hoarding {line other : Nat} (n : Nat) (hne : other ≠ line) :
    l1Hit (hoarding n other) 0 0 firstThread.phaseStart (line * 128) = false := by
  have hline : lineOf (line * 128) = line := Nat.mul_div_cancel line (by decide)
  have hretained : (hoarding n other).retained = [] := rfl
  have hl1 : (hoarding n other).l1 = List.replicate n (markedCopy other) := rfl
  rw [l1Hit, hline, hretained, hl1]
  simp [L1Line.holds, markedCopy, hne]

/-- The load of a line that the L1 does not hold makes room there, and takes a page for what overfills retention. -/
theorem loadL1_hoarding {line other : Nat} (hne : other ≠ line) (hset : Config.l1Set other % 128 = Config.l1Set line % 128) (ea : Nat) :
    loadL1 (hoarding 65 other) firstThread ea (line * 128) 4 = .trap (kept .freePageEmpty ea) := by
  have hline : lineOf (line * 128) = line := Nat.mul_div_cancel line (by decide)
  have hhit := l1Hit_hoarding 65 hne
  have hexcess : excess (makeRoom (hoarding 65 other) 0 0 line) 0 0 = 1 := by
    rw [makeRoom_hoarding (by decide) hne hset]
    simp [excess, onChip, retainedCopy, chipLines, Config.cores]
  have hfull : overflowTo 0 0 0 1 (makeRoom (hoarding 65 other) 0 0 line) = none := by
    rw [makeRoom_hoarding (by decide) hne hset]
    exact overflowTo_none (n := 64) _ rfl rfl
  have hcore : threadCore (hoarding 65 other) firstThread = 0 := rfl
  have hbay : threadBay (hoarding 65 other) firstThread = 0 := rfl
  have hcache : cacheOf (hoarding 65 other) 0 = 0 := rfl
  have henclave : threadEnclave (makeRoom (hoarding 65 other) 0 0 line) firstThread = 0 := by
    rw [makeRoom_hoarding (by decide) hne hset]
    rfl
  simp only [loadL1, hcore, hbay, hcache, hhit, hline, henclave, hexcess, hfull, Bool.false_eq_true, if_false]

theorem loadGlobal_hoarding {line other : Nat} (hlt : line < 129) (hne : other ≠ line)
    (hset : Config.l1Set other % 128 = Config.l1Set line % 128) :
    loadGlobal (hoarding 65 other) firstThread (line * 128) 4 .none .cr false = .trap (kept .freePageEmpty (line * 128)) := by
  have htranslate := translate_hoarding (n := 65) other hlt
  have hcore : threadCore (hoarding 65 other) firstThread = 0 := rfl
  have henclave : threadEnclave (hoarding 65 other) firstThread = 0 := rfl
  have hfill (part : Nat) : fillTlb (hoarding 65 other) part 0 0 (line * 128) = hoarding 65 other := by
    have hfind : (hoarding 65 other).tlb.find? (fun t => t.core == 0 && t.covers 0 (line * 128)) = some firstEntry :=
      List.find?_cons_of_pos (covers_firstEntry hlt)
    simp only [fillTlb, hfind]
  have hdevice : firstPage.device = false := rfl
  have hat : firstPage.at (line * 128) = line * 128 := by simp [Page.at, firstPage]
  have htarget : loadTarget (hoarding 65 other) firstThread (line * 128) false .cr = .ok (firstPage, hoarding 65 other) := by
    simp [loadTarget, hcore, henclave, htranslate, hfill, hdevice, tracked, Got.bind, Got.map]
  have hfrom : loadFrom (hoarding 65 other) firstThread firstPage 4 (line * 128) 0 4 .none .cr =
      loadL1 (hoarding 65 other) firstThread (line * 128) (line * 128) 4 := by
    simp only [loadFrom, Nat.add_zero, hdevice, hat]
    rfl
  simp only [loadGlobal]
  rw [show (Ord.none == .acq || false) = false from rfl, htarget]
  exact hfrom.trans (loadL1_hoarding hne hset _)

end Sys2Proof.Machine

namespace Sys2Proof.Proofs

open Sys2Proof.Machine Sys2Proof.Safety Sys2Proof.Claims

/-- Refutes O24: a load's miss whose eviction overfills a retention store takes a page from its enclave's stack (R193) and traps where
that is empty. Nothing in `LoadMissReadsHome` bounds the copies of one line that leave a store at once. -/
theorem not_globalLoadsReadMemory : ¬ Obligations.GlobalLoadsReadMemory := by
  rintro ⟨-, -, hmiss, -⟩
  obtain ⟨line, other, hlt, hne, hset⟩ := exists_lines_of_one_l1Set
  have hat : firstPage.at (line * 128) = line * 128 := by simp [Page.at, firstPage]
  have hothers : ∀ x ∈ (hoarding 65 other).l1, x.cache = cacheOf (hoarding 65 other) (threadCore (hoarding 65 other) firstThread) →
      x.line ≠ firstPage.at (line * 128) / 128 ∧ x.dirty = [] := by
    intro x hx _
    obtain rfl := List.eq_of_mem_replicate hx
    rw [hat, Nat.mul_div_cancel line (by decide)]
    exact ⟨hne, rfl⟩
  obtain ⟨t, hload, -⟩ := hmiss (hoarding 65 other) firstThread (line * 128) 4 .cr firstPage rfl (translate_hoarding other hlt) rfl rfl
    hothers (fun r hr => by cases hr) rfl (by omega)
  cases (loadGlobal_hoarding hlt hne hset).symm.trans hload

end Sys2Proof.Proofs

/-! SUPPORT. NOP, SLEEPC and WAIT (R209-R211, R479, R490). -/

namespace Sys2Proof.Machine

open Sys2Proof.Safety Sys2Proof.Claims

/-- An instruction whose effect, where it is executed, is on its PC alone advances its context. -/
theorem advances_of_local' {i : Instr} {s : State} {w : Who} {v : Thread} (R : Ready i s w v)
    (h : exec i s = settleEff i s w v (local' i s w v)) : ∃ t u, exec i s = .next t ∧ Advanced i w s t v u :=
  h ▸ local'_advances R.view

section
variable {x : Ext} {s : State} {w : Who} {v : Thread}

theorem execSleepc_due (R : Ready (.sleepc x) s w v) (h : regNum v x.va.toNat 2 ≤ arithCycles s (threadCore s v)) :
    exec (.sleepc x) s = settleEff (.sleepc x) s w v (local' (.sleepc x) s w v) :=
  (run_ready R _).trans (by rw [if_pos h])

theorem execSleepc_parks {n : Nat} (R : Ready (.sleepc x) s (.thread n) v) (h : arithCycles s (threadCore s v) < regNum v x.va.toNat 2) :
    exec (.sleepc x) s = .next (setThread s n { v with status := .sleep (regNum v x.va.toNat 2) }) :=
  (run_ready R _).trans (by rw [if_neg (Nat.not_le.2 h), settleEff, putView])

theorem execSleepcWake_due {n target : Nat} (hv : threadOf s n = some v) (hst : v.status = .sleep target)
    (h : target ≤ arithCycles s (threadCore s v)) :
    exec (.sleepcWake n) s = .next (setThread s n { v with status := .running, pc := v.pc + 12 }) := by
  show execSleepcWake n s = _
  simp only [execSleepcWake, hv, hst, if_pos h]
  rfl

end

section
variable {i : Instr} {s : State} {w : Who} {v : Thread} {ld st cp tl : Nat} (R : Ready i s w v)
include R

theorem waitOp_stalls (h : countsWithin s w v ld st cp tl = false) : waitOp i s ld st cp tl = .next s :=
  (run_ready R _).trans (by rw [h]; rfl)

/-- A WAIT whose counters are within its fields, with no kept fault to deliver, has no effect but on the PC. -/
theorem waitOp_within (h : countsWithin s w v ld st cp tl = true) (hkept : tl ≠ 0 ∨ v.handMode = true ∨ v.kept = none) :
    waitOp i s ld st cp tl = settleEff i s w v (local' i s w v) := by
  have hnone : (if tl = 0 ∧ !v.handMode then v.kept else none) = none := by
    rcases hkept with htl | hhand | hnone
    · exact if_neg fun ⟨h0, _⟩ => htl h0
    · exact if_neg fun ⟨_, hno⟩ => by simp [hhand] at hno
    · rw [hnone, ite_self]
  refine (run_ready R _).trans ?_
  rw [h, hnone]
  rfl

end

end Sys2Proof.Machine

namespace Sys2Proof.Proofs

open Sys2Proof.Machine Sys2Proof.Safety Sys2Proof.Claims

/-- Settles O23: each of the three goes on with no effect but on the PC, parks its thread, or stalls. -/
theorem nopSleepAndWait : Obligations.NopSleepAndWait := by
  intro s w v
  refine ⟨fun R => advances_of_local' R (run_ready R _), fun x R => advances_of_local' R (run_ready R _),
    fun x R h => advances_of_local' R (execSleepc_due R h), ?_, fun n target hv hst h => execSleepcWake_due hv hst h, ?_, ?_⟩
  · rintro x n rfl R h
    exact execSleepc_parks R h
  · intro ld st cp tl R
    have hzero : tl ≠ 0 → tl.toNat ≠ 0 := fun h h0 => h (BitVec.eq_of_toNat_eq h0)
    exact ⟨waitOp_stalls R, fun h hkept => advances_of_local' R (waitOp_within R h (hkept.imp_left hzero))⟩
  · intro ld st cp x R
    exact ⟨waitOp_stalls R, fun h hkept => advances_of_local' R (waitOp_within R h hkept)⟩

end Sys2Proof.Proofs

/-! SUPPORT. What a context reads of its own after an instruction puts it back, and the values and offsets of loads and stores. -/

namespace Sys2Proof.Machine

open Sys2Proof.Safety Sys2Proof.Claims

/-! ### Contexts put back -/

/-- Two threads agree on what a context, a hand's too, has of its own. -/
structure ReadsAs (u r : Thread) : Prop where
  pc : r.pc = u.pc
  regs : r.regs = u.regs
  masks : r.masks = u.masks
  queues : r.queues = u.queues
  loads : r.loads = u.loads
  stores : r.stores = u.stores
  fpsr : r.fpsr = u.fpsr
  phaseStart : r.phaseStart = u.phaseStart
  h : r.hctx.h = u.hctx.h
  gather : r.hctx.gather = u.hctx.gather
  half : r.hctx.half = u.hctx.half

/-- What a hand's view takes from its foreman is unchanged. -/
structure KeepsForeman (v u : Thread) : Prop where
  no : u.hctx.no = v.hctx.no
  raise : u.raise = v.raise
  regs : u.regs = v.regs
  masks : u.masks = v.masks
  stores : u.stores = v.stores

theorem viewOf_congr {s t : State} (h : t.threads = s.threads) (w : Who) : viewOf t w = viewOf s w := by
  cases w <;> simp [viewOf, threadOf, h]

theorem ReadsAs.refl (u : Thread) : ReadsAs u u := ⟨rfl, rfl, rfl, rfl, rfl, rfl, rfl, rfl, rfl, rfl, rfl⟩

/-- A context put back reads as it was put. -/
theorem reads_putView {s : State} {w : Who} {v u : Thread} (hv : viewOf s w = some v) (hu : KeepsForeman v u) :
    ∃ r, viewOf (putView s w u) w = some r ∧ ReadsAs u r := by
  cases w with
  | thread t => exact ⟨u, viewOf_putView_thread s t u, ReadsAs.refl u⟩
  | hand t h =>
    obtain ⟨f, ra, x, hf, hra, hx, rfl⟩ := viewOf_hand hv
    obtain ⟨hno, hraise, hregs, hmasks, hstores⟩ := hu
    exact ⟨_, viewOf_putView_hand hf hx hno (hraise.trans hra), rfl, hregs.symm, hmasks.symm, rfl, rfl, hstores.symm, rfl, rfl, rfl, rfl, rfl⟩
  | hart n => exact absurd hv (by simp [viewOf])

/-- Flags change `fpsr` and the gathered flags alone. -/
theorem setFlags_same (u : Thread) (g : Flags) :
    setFlags u g = { u with fpsr := (setFlags u g).fpsr, hctx := { u.hctx with gather := (setFlags u g).hctx.gather } } := by
  rcases setFlags_eq u g with ⟨-, hF⟩ | ⟨-, hF⟩ <;> rw [hF]

theorem keepsForeman_setFlags {v u : Thread} (h : KeepsForeman v u) (g : Flags) : KeepsForeman v (setFlags u g) := by
  obtain ⟨hno, hraise, hregs, hmasks, hstores⟩ := h
  rw [setFlags_same]
  exact ⟨hno, hraise, hregs, hmasks, hstores⟩

/-- Flags set on a context that has kept its own go where they are to. -/
theorem flagsAfter_setFlags {v u r : Thread} {g : Flags} (hr : ReadsAs (setFlags u g) r) (hmode : u.handMode = v.handMode)
    (hiter : u.hctx.iter = v.hctx.iter) (hfpsr : u.fpsr = v.fpsr) (hgather : u.hctx.gather = v.hctx.gather) : FlagsAfter v r g := by
  unfold FlagsAfter
  rw [hr.fpsr, hr.gather, ← hmode, ← hiter]
  rcases setFlags_eq u g with ⟨hc, hF⟩ | ⟨hc, hF⟩ <;> rw [hF] <;> simp [hc, hfpsr, hgather]

/-- An instruction of whose flags none traps completes by putting its context back. -/
theorem complete_of_no_trap {i : Instr} {s : State} {w : Who} {v v' : Thread} {g : Flags} (h : trapFlags v g = 0) :
    complete i s w v v' g = putView s w (setFlags v' g) := by
  simp [complete, completeAt, h]

/-- A context that is put back with flags set: what it reads as, and that no other thread changes. -/
theorem reads_complete {i : Instr} {s : State} {w : Who} {v v' : Thread} {g : Flags} (hv : viewOf s w = some v) (ht : trapFlags v g = 0)
    (hk : KeepsForeman v v') : ∃ r, viewOf (complete i s w v v' g) w = some r ∧ ReadsAs (setFlags v' g) r ∧
      OnlyThread w s (complete i s w v v' g) := by
  rw [complete_of_no_trap ht]
  obtain ⟨r, hr, hreads⟩ := reads_putView hv (keepsForeman_setFlags hk g)
  exact ⟨r, hr, hreads, onlyThread_putView s w _⟩

theorem sameRegsBut_of_reads {v u : Thread} (hregs : u.regs = v.regs) (hh : u.hctx.h = v.hctx.h) : SameRegsBut v u 0 0 :=
  fun k _ => regVal_congr hregs hh k

/-- A load's words are on their way, and its context has changed but for them in its queues, its phase, its half, its flags and its PC. -/
theorem loadIssued_issues {i : Instr} {s : State} {w : Who} {v v' : Thread} {g : Flags} (s0 : State) (d : Reg) (ws : List Word)
    (hv : viewOf s w = some v) (ht : trapFlags v g = 0)
    (hk : v' = { v with queues := v'.queues, phaseStart := v'.phaseStart, hctx := { v.hctx with half := v'.hctx.half } }) :
    ∃ r u, settleEff i s0 w v (loadIssued i s w v v' g (destWrites d ws)) = .next r ∧ Issued i w r v v' u g d ws ∧
      u.hctx.half = v'.hctx.half ∧ u.phaseStart = v'.phaseStart ∧ OnlyThread w s r := by
  have hkeeps : KeepsForeman v { v' with loads := v'.loads ++ [{ writes := destWrites d ws }], pc := v.next i } := by
    rw [hk]
    exact ⟨rfl, rfl, rfl, rfl, rfl⟩
  obtain ⟨u, hu, hreads, honly⟩ := reads_complete (i := i) hv ht hkeeps
  have hflags : FlagsAfter v u g := flagsAfter_setFlags hreads (by rw [hk]) (by rw [hk]) (by rw [hk]) (by rw [hk])
  obtain ⟨hpc, hregs, hmasks, hqueues, hloads, hstores, -, hphase, hh, -, hhalf⟩ := hreads
  rw [setFlags_same] at hpc hregs hmasks hqueues hloads hstores hphase hh hhalf
  refine ⟨_, u, rfl, ⟨hu, ?_, sameRegsBut_of_reads ?_ ?_, hpc, ?_, hqueues, hflags, ?_⟩, hhalf, hphase, honly⟩
  · rw [hloads, hk]
    rfl
  · rw [hregs, hk]
  · rw [hh, hk]
  · rw [hmasks, hk]
  · rw [hstores, hk]

/-! ### Values and offsets -/

theorem sext_eq_toInt {n : Nat} (x : Nat) (hn : 0 < n) : sext x n = (BitVec.ofNat n x).toInt := by
  obtain ⟨m, rfl⟩ : ∃ m, n = m + 1 := ⟨n - 1, by omega⟩
  rw [sext, BitVec.toInt_eq_toNat_cond, BitVec.toNat_ofNat, Nat.pow_succ, Nat.add_sub_cancel]
  split <;> split <;> omega

theorem sext_toNat {n : Nat} (b : BitVec n) (hn : 0 < n) : sext b.toNat n = b.toInt := by
  rw [sext_eq_toInt _ hn, BitVec.ofNat_toNat, BitVec.setWidth_eq]

theorem wrap_eq_toNat (n : Nat) (i : Int) : wrap n i = (BitVec.ofInt n i).toNat := by
  rw [wrap, BitVec.toNat_ofInt]

theorem bmOff_eq_off9 (x : BI) (n : Nat) : bmOff x n = off9 x n := by
  rw [bmOff, off9, sext_toNat _ (by decide)]

theorem extOff_eq_off13 (x : Ext) (n : Nat) : extOff x n = off13 x n := by
  unfold extOff off13
  cases x.lit with
  | none => rw [sext_toNat _ (by decide)]
  | some l => exact sext_toNat _ (by decide)

theorem memRegs_size (t : Ty) : memRegs t.size = movedRegs t := rfl

theorem signExtend_ofNat (x : Nat) {n : Nat} (hn : 0 < n) : BitVec.ofNat 32 (wrap 32 (sext x n)) = (BitVec.ofNat n x).signExtend 32 := by
  rw [wrap_eq_toNat, BitVec.ofNat_toNat, BitVec.setWidth_eq, sext_eq_toInt _ hn]
  rfl

/-- A load's words are those of its bytes. -/
theorem loadWords_eq_wordsFrom (t : Ty) (bs : List Byte) : loadWords t bs = wordsFrom t bs := by
  have hwords : (upFrom 0 (memRegs t.size)).map (fun k => BitVec.ofNat 32 (ofBytes bs / 2 ^ (32 * k))) =
      (List.range (movedRegs t)).map fun k => BitVec.ofNat 32 (ofBytes bs >>> (32 * k)) := by
    rw [upFrom_eq_range', ← List.range_eq_range', memRegs_size]
    simp only [Nat.shiftRight_eq_div_pow]
  cases t
  case s8 => exact congrArg (fun x => [x]) (signExtend_ofNat _ (by decide))
  case s16 => exact congrArg (fun x => [x]) (signExtend_ofNat _ (by decide))
  all_goals exact hwords

end Sys2Proof.Machine

/-! SUPPORT. Scratchpad accesses (R186, R187, R228, R437, R482). -/

namespace Sys2Proof.Machine

open Sys2Proof.Safety Sys2Proof.Claims

/-! ### A block's bytes written -/

theorem blockOf_scratchWrite (s : State) (ticket block off : Nat) (bs : List Byte) (tk bl : Nat) :
    blockOf (scratchWrite s ticket block off bs) tk bl = if tk = ticket ∧ bl = block
      then (blockOf s tk bl).map fun b => { b with scratch := Memory.writeBytes b.scratch off bs } else blockOf s tk bl := by
  simp only [blockOf, scratchWrite, Tab.get?_modify]
  by_cases ht : tk = ticket
  · subst ht
    cases Tab.get? s.bents tk with
    | none => simp
    | some b => by_cases hl : bl = block <;> simp [hl, Tab.get?_modify]
  · simp [ht]

/-- A state that has, beside its threads, only a write in a block's scratchpad has it there alone. -/
theorem scratchPut_of_scratchWrite {s t : State} {ticket block off : Nat} {bs : List Byte} (hmem : t.mem = (scratchWrite s ticket block off bs).mem)
    (hbents : t.bents = (scratchWrite s ticket block off bs).bents) : ScratchPut s t ticket block off bs := by
  have hblock (tk bl : Nat) : blockOf t tk bl = blockOf (scratchWrite s ticket block off bs) tk bl := by simp only [blockOf, hbents]
  refine ⟨hmem, fun c hc => ?_, fun tk bl hne => ?_⟩
  · have hput : blockOf t ticket block = some { c with scratch := Memory.writeBytes c.scratch off bs } := by
      rw [hblock, blockOf_scratchWrite, if_pos ⟨rfl, rfl⟩, hc, Option.map_some]
    have hwas (o : Nat) : scratchRead s ticket block o 1 = [Memory.read c.scratch o] := by simp only [scratchRead, hc, Memory.bytes]
    have his (o : Nat) : scratchRead t ticket block o 1 = [Memory.read (Memory.writeBytes c.scratch off bs) o] := by
      simp only [scratchRead, hput, Memory.bytes]
    refine ⟨?_, fun o ho => ?_⟩
    · simp only [scratchRead, hput]
      exact Memory.bytes_writeBytes bs c.scratch off
    · rw [hwas, his, Memory.read_writeBytes_out bs _ _ _ ho]
  · rw [hblock, blockOf_scratchWrite, if_neg fun h => hne (Prod.ext h.1 h.2)]

theorem mem_of_onlyThread {w : Who} {s t : State} (h : OnlyThread w s t) : t.mem = s.mem := by rw [← h.1]

theorem bents_of_onlyThread {w : Who} {s t : State} (h : OnlyThread w s t) : t.bents = s.bents := by rw [← h.1]

/-! ### Halves (R228) -/

/-- The first half of an access of two leaves the half noted and the rest of its context as it was. -/
theorem halfway_halfDone {s : State} {w : Who} {v v1 : Thread} (hv : viewOf s w = some v) (hlate : v1 = { v with late := v1.late }) (i : Instr)
    (no : Nat) (at' : HalfAt) (p : Page) (ea rank : Nat) (bs : List Byte) :
    ∃ u, HalfDone w (halfway s w v1 i no at' p ea rank bs) v u
      { insn := i, no := no, at' := at', page := p, ea := ea, rank := rank, data := bs, issue := (s.time, s.issue.length), seq := s.draws,
        made := false } := by
  have hv' : viewOf { s with draws := s.draws + 1 } w = some v := (viewOf_congr rfl w).trans hv
  have hkeeps (h : Option Half) : KeepsForeman v { v1 with hctx := { v1.hctx with half := h } } := by
    rw [hlate]
    exact ⟨rfl, rfl, rfl, rfl, rfl⟩
  obtain ⟨u, hu, hpc, hregs, hmasks, hqueues, hloads, hstores, hfpsr, -, hh, -, hhalf⟩ := reads_putView hv' (hkeeps _)
  rw [hlate] at hpc hregs hmasks hqueues hloads hstores hfpsr hh
  exact ⟨u, hu, hhalf, hpc, sameRegsBut_of_reads hregs hh, hmasks, hqueues, hfpsr, hloads, hstores⟩

theorem mem_halfway (s : State) (w : Who) (v : Thread) (i : Instr) (no : Nat) (at' : HalfAt) (p : Page) (ea rank : Nat) (bs : List Byte) :
    (halfway s w v i no at' p ea rank bs).mem = s.mem :=
  mem_of_onlyThread (s := { s with draws := s.draws + 1 }) (onlyThread_putView _ w _)

theorem bents_halfway (s : State) (w : Who) (v : Thread) (i : Instr) (no : Nat) (at' : HalfAt) (p : Page) (ea rank : Nat) (bs : List Byte) :
    (halfway s w v i no at' p ea rank bs).bents = s.bents :=
  bents_of_onlyThread (s := { s with draws := s.draws + 1 }) (onlyThread_putView _ w _)

/-! ### Loads -/

/-- The range check of a scratchpad access, by its rank where it has one. -/
def rangeFault (s : State) (v : Thread) (m : Local) (b ea : Nat) : Option Kept :=
  if m.rank.isSome then remoteCheck s v b ea m.ty.size else scratchCheck s v ea m.ty.size

theorem exec_ldsOf {i : Instr} {m : Local} (s : State) (h : ldsOf i = some m) : exec i s = ldsOp i m.ty m.reg m.base m.rank m.off s := by
  unfold ldsOf at h
  split at h <;> cases h
  case h_1 x => exact congrArg (ldsOp _ _ _ _ _ · s) (bmOff_eq_off9 x 4)
  case h_2 x => exact congrArg (ldsOp _ _ _ _ _ · s) (bmOff_eq_off9 x 8)
  case h_3 t x => exact congrArg (ldsOp _ _ _ _ _ · s) (extOff_eq_off13 x t.size)
  case h_4 t x => exact congrArg (ldsOp _ _ _ _ _ · s) (extOff_eq_off13 x t.size)

theorem exec_stsOf {i : Instr} {m : Local} (s : State) (h : stsOf i = some m) : exec i s = stsOp i m.ty m.reg m.base m.rank m.off s := by
  unfold stsOf at h
  split at h <;> cases h
  case h_1 x => exact congrArg (stsOp _ _ _ _ _ · s) (bmOff_eq_off9 x 4)
  case h_2 x => exact congrArg (stsOp _ _ _ _ _ · s) (bmOff_eq_off9 x 8)
  case h_3 t x => exact congrArg (stsOp _ _ _ _ _ · s) (extOff_eq_off13 x t.size)
  case h_4 t x => exact congrArg (stsOp _ _ _ _ _ · s) (extOff_eq_off13 x t.size)

theorem rankSrc_eq (rank : Option Reg) : rankSrc rank = rank.elim .no (Src.reg 1) := by cases rank <;> rfl

section
variable {i : Instr} {m : Local} {s : State} {w : Who} {v v' : Thread} {a b x : Nat} {g : Flags}

/-- A scratchpad load that is not half done. -/
theorem lds_ready (hi : ldsOf i = some m) (R : Ready i s w v) (hhalf : v.hctx.half = none)
    (hsrc : readSrcs v (.reg 1 m.base) (m.rank.elim .no (Src.reg 1)) .no = some (a, b, x, g, v')) :
    let ea := (BitVec.ofInt 32 ((a : Nat) + m.off)).toNat
    let block := if m.rank.isSome then b else v.block
    exec i s = settleEff i s w v (if ea % m.ty.size ≠ 0 then .trap (kept .misalign ea)
      else match rangeFault s v m b ea with
        | some k => .trap k
        | none => if 63 ≤ v.loads.length then .stall
          else if m.ty.size = 16 then
            .done (halfway s w v i (firstNo s) .load .none ea block (scratchRead s v.bent block (ea + 8 * firstNo s) 8))
          else loadIssued i s w v v' g (destWrites m.reg (loadWords m.ty (scratchRead s v.bent block ea m.ty.size)))) := by
  rw [exec_ldsOf s hi]
  refine (run_ready R _).trans ?_
  rw [rankSrc_eq, hsrc]
  simp only [hhalf, wrap_eq_toNat]
  rfl

theorem scratchpadLoads : ScratchpadLoads := by
  intro i m s w v v' a b z g hi R hsize hhalf hsrc ea fault
  have hexec := lds_ready hi R hhalf hsrc
  have hfault : rangeFault s v m b ea = fault := rfl
  refine ⟨fun hmis => ?_, fun k hal hk => ?_, fun hal hnone hroom ht => ?_⟩
  · rw [hexec, if_pos hmis, settleEff]
  · rw [hexec, if_neg (not_not_intro hal), hfault, hk, settleEff]
  · rw [hexec, if_neg (not_not_intro hal), hfault, hnone]
    simp only [if_neg (Nat.not_le.2 hroom), if_neg hsize, loadWords_eq_wordsFrom]
    have hsame := readSrcs_same hsrc
    obtain ⟨t, u, ht, hissued, -, -, honly⟩ := loadIssued_issues (i := i) (v' := v') s m.reg
      (wordsFrom m.ty (scratchRead s v.bent (if m.rank.isSome then b else v.block) ea m.ty.size)) R.view ht (by rw [hsame])
    exact ⟨t, u, ht, honly, hissued⟩

theorem wideScratchpadLoads_first (hi : ldsOf i = some m) (R : Ready i s w v) (hsize : m.ty.size = 16) (hhalf : v.hctx.half = none)
    (hsrc : readSrcs v (.reg 1 m.base) (m.rank.elim .no (Src.reg 1)) .no = some (a, b, x, g, v'))
    (hal : (BitVec.ofInt 32 ((a : Nat) + m.off)).toNat % 16 = 0)
    (hnone : rangeFault s v m b (BitVec.ofInt 32 ((a : Nat) + m.off)).toNat = none) (hroom : v.loads.length < 63) :
    let ea := (BitVec.ofInt 32 ((a : Nat) + m.off)).toNat
    let block := if m.rank.isSome then b else v.block
    ∃ t u q k, exec i s = .next t ∧ t.mem = s.mem ∧
      HalfDone w t v u { insn := i, no := firstNo s, at' := .load, page := Page.none, ea := ea, rank := block,
                         data := scratchRead s v.bent block (ea + 8 * firstNo s) 8, issue := q, seq := k, made := false } := by
  intro ea block
  obtain ⟨u, hu⟩ := halfway_halfDone (v1 := v) R.view rfl i (firstNo s) .load Page.none ea block (scratchRead s v.bent block (ea + 8 * firstNo s) 8)
  refine ⟨_, u, _, _, (lds_ready hi R hhalf hsrc).trans ?_, mem_halfway s w v _ _ _ _ _ _ _, hu⟩
  rw [hsize, if_neg (not_not_intro hal), hnone]
  simp only [if_neg (Nat.not_le.2 hroom), if_true]
  rfl

/-- The second half of a 128-bit scratchpad load reads the other bytes at the place the first was checked for. -/
theorem lds_second {h : Half} (hi : ldsOf i = some m) (R : Ready i s w v) (hhalf : v.hctx.half = some h)
    (hsrc : readSrcs v (.reg 1 m.base) (m.rank.elim .no (Src.reg 1)) .no = some (a, b, x, g, v')) :
    exec i s = settleEff i s w v (loadIssued i s w v v'.whole g
      (destWrites m.reg (loadWords m.ty (h.join (scratchRead s v.bent h.rank (h.ea + 8 * (1 - h.no)) 8))))) := by
  rw [exec_ldsOf s hi]
  refine (run_ready R _).trans ?_
  rw [rankSrc_eq, hsrc]
  simp only [hhalf]

end

theorem wideScratchpadLoads : WideScratchpadLoads := by
  intro i m s w v v' a b z g hi R hsize ht hsrc ea fault block
  refine ⟨fun hhalf hal hnone hroom => ?_, fun h hhalf _ => ?_⟩
  · have hfault : rangeFault s v m b ea = fault := by rw [rangeFault, hsize]
    exact wideScratchpadLoads_first hi R hsize hhalf hsrc hal (hfault.trans hnone) hroom
  · intro bs
    have hsame := readSrcs_same hsrc
    obtain ⟨t, u, hexec, hissued, hwhole, -, honly⟩ := loadIssued_issues (i := i) (v' := v'.whole) s m.reg
      (wordsFrom m.ty (h.join bs)) R.view ht (by rw [hsame]; rfl)
    refine ⟨t, u, ?_, mem_of_onlyThread honly, hwhole, { hissued with }⟩
    rw [lds_second hi R hhalf hsrc, loadWords_eq_wordsFrom]
    exact hexec

/-! ### Stores -/

/-- A store has been performed: it counts as outstanding, and of the rest of its context only the PC, what its sources popped, its flags,
its phase and its half have changed. -/
structure Stored (i : Instr) (w : Who) (t : State) (v v' u : Thread) (g : Flags) : Prop where
  view : viewOf t w = some u
  stores : u.stores = v.stores + 1
  pc : u.pc = v.pc + BitVec.ofNat 64 i.len
  regs : SameRegsBut v u 0 0
  masks : u.masks = v.masks
  queues : u.queues = v'.queues
  flags : FlagsAfter v u g
  loads : u.loads = v.loads
  phaseStart : u.phaseStart = v'.phaseStart
  half : u.hctx.half = none

theorem storeDone_stores {i : Instr} {s : State} {w : Who} {n : Nat} {v v' : Thread} {g : Flags} (s0 : State) (range : List (Nat × Nat))
    (hw : w = .thread n) (ht : trapFlags v g = 0)
    (hk : v' = { v with queues := v'.queues, phaseStart := v'.phaseStart, late := v'.late }) :
    ∃ r u, settleEff i s0 w v (storeDone i s w v v' g range) = .next r ∧ Stored i w r v v' u g ∧ OnlyThread w s r := by
  subst hw
  have hflags : FlagsAfter v (setFlags { v'.whole with stores := v'.stores + 1, late := v'.late ++ range, pc := v.next i } g) g :=
    flagsAfter_setFlags (ReadsAs.refl _) (by rw [hk]; rfl) (by rw [hk]; rfl) (by rw [hk]; rfl) (by rw [hk]; rfl)
  have hview := viewOf_putView_thread s n (setFlags { v'.whole with stores := v'.stores + 1, late := v'.late ++ range, pc := v.next i } g)
  refine ⟨_, _, congrArg Host.Outcome.next (complete_of_no_trap ht), ⟨hview, ?_, ?_, sameRegsBut_of_reads ?_ ?_, ?_, ?_, hflags, ?_, ?_, ?_⟩,
    onlyThread_putView s _ _⟩
  all_goals rw [setFlags_same, hk]
  all_goals rfl


section
variable {i : Instr} {m : Local} {s : State} {w : Who} {v v' : Thread} {a b x : Nat} {g : Flags}

/-- A scratchpad store outside hand mode that is not half done. -/
theorem sts_ready (hi : stsOf i = some m) (R : Ready i s w v) (hmode : v.handMode = false) (hhalf : v.hctx.half = none)
    (hsrc : readSrcs v (.reg 1 m.base) (m.rank.elim .no (Src.reg 1)) (.reg (movedRegs m.ty) m.reg) = some (a, b, x, g, v')) :
    let ea := (BitVec.ofInt 32 ((a : Nat) + m.off)).toNat
    let block := if m.rank.isSome then b else v.block
    let bs := toBytes m.ty.size x
    exec i s = settleEff i s w v (if ea % m.ty.size ≠ 0 then .trap (kept .misalign ea)
      else match rangeFault s v m b ea with
        | some k => .trap k
        | none => if 63 ≤ v.stores then .stall
          else if m.ty.size = 16 then
            .done (halfway (scratchWrite s v.bent block (ea + 8 * firstNo s) (halfBytes bs (firstNo s))) w v i (firstNo s) (.scratch block) .none
              ea block bs)
          else storeDone i (scratchWrite s v.bent block ea bs) w v v' g []) := by
  have hopen : noIteration v = false := by rw [noIteration, hmode, Bool.false_and]
  rw [exec_stsOf s hi]
  refine (run_ready R _).trans ?_
  rw [rankSrc_eq, memRegs_size, hsrc]
  simp only [hhalf, wrap_eq_toNat, hopen, hmode, Bool.false_eq_true, if_false]
  rfl

/-- The second half of a 128-bit scratchpad store writes the other bytes at the place the first was checked for. -/
theorem sts_second {h : Half} (hi : stsOf i = some m) (R : Ready i s w v) (hhalf : v.hctx.half = some h)
    (hsrc : readSrcs v (.reg 1 m.base) (m.rank.elim .no (Src.reg 1)) (.reg (movedRegs m.ty) m.reg) = some (a, b, x, g, v')) :
    exec i s = settleEff i s w v (storeDone i (secondHalf s v h) w v v' g []) := by
  rw [exec_stsOf s hi]
  refine (run_ready R _).trans ?_
  rw [rankSrc_eq, memRegs_size, hsrc]
  simp only [hhalf]

/-- A second half before which none of its issue's is due writes its own bytes alone (R482). -/
theorem secondHalf_alone {h : Half} (hmade : h.made = false) (hfirst : halvesBefore s h.issue h.seq = []) :
    secondHalf s v h = storeHalf s v h (1 - h.no) := by
  rw [secondHalf, if_neg (by simp [hmade]), hfirst, List.foldl_nil]

end

theorem scratchpadStores : ScratchpadStores := by
  intro i m s w v v' a b x g hi R hsize hmode hhalf hsrc ea fault
  have hexec := sts_ready hi R hmode hhalf hsrc
  have hfault : rangeFault s v m b ea = fault := rfl
  refine ⟨fun hmis => ?_, fun k hal hk => ?_, fun hal hnone hroom ht => ?_⟩
  · rw [hexec, if_pos hmis, settleEff]
  · rw [hexec, if_neg (not_not_intro hal), hfault, hk, settleEff]
  · rw [hexec, if_neg (not_not_intro hal), hfault, hnone]
    simp only [if_neg (Nat.not_le.2 hroom), if_neg hsize]
    obtain ⟨n, hw⟩ := thread_of_not_handMode R.view hmode
    have hsame := readSrcs_same hsrc
    obtain ⟨t, u, ht, hst, honly⟩ := storeDone_stores (i := i) (v' := v')
      (s := scratchWrite s v.bent (if m.rank.isSome then b else v.block) ea (toBytes m.ty.size x)) s [] hw ht (by rw [hsame])
    exact ⟨t, u, ht, hst.view, hst.stores, hst.pc, hst.regs, hst.masks, hst.queues, hst.flags,
      scratchPut_of_scratchWrite (mem_of_onlyThread honly) (bents_of_onlyThread honly)⟩

theorem wideScratchpadStores : WideScratchpadStores := by
  intro i m s w v v' a b x g hi R hsize hmode ht hsrc ea fault block
  refine ⟨fun hhalf hal hnone hroom => ?_, fun h c hhalf hat hno hdata hmade hfirst => ?_⟩
  · intro no
    have hfault : rangeFault s v m b ea = fault := by rw [rangeFault, hsize]
    obtain ⟨u, hu⟩ := halfway_halfDone (v1 := v) (s := scratchWrite s v.bent block (ea + 8 * no) (halfBytes (toBytes 16 x) no))
      ((viewOf_congr rfl w).trans R.view) rfl i no (.scratch block) Page.none ea block (toBytes 16 x)
    refine ⟨_, u, _, _, (sts_ready hi R hmode hhalf hsrc).trans ?_, hu,
      scratchPut_of_scratchWrite (mem_halfway _ _ _ _ _ _ _ _ _ _) (bents_halfway _ _ _ _ _ _ _ _ _ _)⟩
    rw [hsize, if_neg (not_not_intro hal), hfault, hnone]
    simp only [if_neg (Nat.not_le.2 hroom), if_true]
    rfl
  · obtain ⟨n, hw⟩ := thread_of_not_handMode R.view hmode
    have hsame := readSrcs_same hsrc
    have hsecond : secondHalf s v h = scratchWrite s v.bent c (h.ea + 8 * (1 - h.no)) (halfBytes h.data (1 - h.no)) := by
      rw [secondHalf_alone hmade hfirst, storeHalf, hat]
    obtain ⟨t, u, hexec, hst, honly⟩ := storeDone_stores (i := i) (v' := v') (s := secondHalf s v h) s [] hw ht (by rw [hsame])
    rw [hsecond] at honly
    exact ⟨t, u, (sts_second hi R hhalf hsrc).trans hexec, hst.view, hst.stores, hst.pc, hst.half, hst.regs, hst.queues,
      scratchPut_of_scratchWrite (mem_of_onlyThread honly) (bents_of_onlyThread honly)⟩

end Sys2Proof.Machine

namespace Sys2Proof.Proofs

open Sys2Proof.Machine Sys2Proof.Safety Sys2Proof.Claims

/-- Settles O27: the four kinds of access, whole and in halves, each from the equation of its operation where it is ready. -/
theorem scratchpadAccesses : Obligations.ScratchpadAccesses :=
  ⟨scratchpadLoads, wideScratchpadLoads, scratchpadStores, wideScratchpadStores⟩

end Sys2Proof.Proofs

/-! SUPPORT. What accesses to memory leave of the threads, of the coherent stores and of the bytes of memory. -/

namespace Sys2Proof.Machine

open Sys2Proof.Safety Sys2Proof.Claims

/-! ### The parts that stay -/

/-- The part of the state that no access to memory changes on its own: threads, blocks, launches, clusters and phase counts. -/
structure WorkPart where
  threads : Tab Thread
  bents : Tab Bent
  launches : Tab Launch
  clusters : Tab Cluster
  phases : Tab Word

/-- That part of a state. -/
def work (s : State) : WorkPart := { threads := s.threads, bents := s.bents, launches := s.launches, clusters := s.clusters, phases := s.phases }

/-- The part of the state that accesses at the homes leave alone: that, the coherent stores with their retention, and the frames' owners. -/
structure StorePart where
  work : WorkPart
  l1 : List L1Line
  retained : List Retained
  pot : Tab Pot
  enclaves : Tab Enclave

/-- That part of a state. -/
def stores (s : State) : StorePart := { work := work s, l1 := s.l1, retained := s.retained, pot := s.pot, enclaves := s.enclaves }

section
variable {s t : State}

theorem threads_of_work (h : work t = work s) : t.threads = s.threads := congrArg WorkPart.threads h
theorem bents_of_work (h : work t = work s) : t.bents = s.bents := congrArg WorkPart.bents h
theorem launches_of_work (h : work t = work s) : t.launches = s.launches := congrArg WorkPart.launches h
theorem clusters_of_work (h : work t = work s) : t.clusters = s.clusters := congrArg WorkPart.clusters h
theorem phases_of_work (h : work t = work s) : t.phases = s.phases := congrArg WorkPart.phases h
theorem work_of_stores (h : stores t = stores s) : work t = work s := congrArg StorePart.work h
theorem l1_of_stores (h : stores t = stores s) : t.l1 = s.l1 := congrArg StorePart.l1 h
theorem retained_of_stores (h : stores t = stores s) : t.retained = s.retained := congrArg StorePart.retained h
theorem pot_of_stores (h : stores t = stores s) : t.pot = s.pot := congrArg StorePart.pot h
theorem enclaves_of_stores (h : stores t = stores s) : t.enclaves = s.enclaves := congrArg StorePart.enclaves h

theorem work_of_withoutCaches (h : withoutCaches t = withoutCaches s) : work t = work s := by
  have hwork := congrArg work h
  exact hwork

theorem viewOf_of_work (h : work t = work s) (w : Who) : viewOf t w = viewOf s w := viewOf_congr (threads_of_work h) w

theorem cacheOf_of_work (h : work t = work s) (core : Nat) : cacheOf t core = cacheOf s core := by
  rw [cacheOf, fusedAt, clusterOfPkg, clusters_of_work h]
  rfl

theorem atHome_of_work (h : work t = work s) (control : Bool) (core : Nat) (sc : Scope) : atHome t control core sc = atHome s control core sc := by
  simp only [atHome, fusedAt, clusterOfPkg, clusters_of_work h]

theorem threadCore_of_work (h : work t = work s) (v : Thread) : threadCore t v = threadCore s v := by
  simp only [threadCore, blockOf, bents_of_work h]

theorem threadBay_of_work (h : work t = work s) (v : Thread) : threadBay t v = threadBay s v := by
  simp only [threadBay, blockOf, bents_of_work h]

theorem phaseOf_of_work (h : work t = work s) (cache : Nat) : phaseOf t cache = phaseOf s cache := by
  simp only [phaseOf, phases_of_work h]

theorem keyOf_of_stores (h : stores t = stores s) (line : Nat) : keyOf t line = keyOf s line := by
  simp only [keyOf, potOf, pot_of_stores h]

theorem dirtyBelow_of_stores (h : stores t = stores s) (core a : Nat) : DirtyBelow t core a ↔ DirtyBelow s core a := by
  simp only [DirtyBelow, l1_of_stores h, cacheOf_of_work (work_of_stores h)]

end

/-! ### Accesses at the homes -/

/-- What a fill of translations leaves alone: all that neither the L2's accesses nor the tables of translations are. -/
theorem fillTlb_keeps {β : Type} (g : State → β) (htouch : ∀ s part line, g (touchL2 s part line false) = g s)
    (htlb : ∀ s a b c, g { s with tlb := a, tlb2 := b, walks := c } = g s) (s : State) (part core enclave va : Nat) :
    g (fillTlb s part core enclave va) = g s := by
  have hlines (ws : List WalkStep) : g (ws.foldl (fun s w => touchL2 s part (lineOf w.addr) false) s) = g s :=
    foldl_keeps g (fun s w => htouch s part (lineOf w.addr)) ws s
  have hfill (t : State) (a b : TlbEntry) (cluster : Nat) (ws : List WalkStep) :
      g (fillWalks (fillTlb1 (fillTlb2 t b) a) cluster enclave va ws) = g t := htlb t _ _ _
  unfold fillTlb
  dsimp only
  split
  · rfl
  · split
    · exact htlb s _ s.tlb2 s.walks
    · split
      · rfl
      · split
        · rw [hfill]
          split
          · exact hlines _
          · rfl
        · split
          · exact hlines _
          · rfl

@[simp] theorem stores_fillTlb (s : State) (part core enclave va : Nat) : stores (fillTlb s part core enclave va) = stores s :=
  fillTlb_keeps stores (fun _ _ _ => rfl) (fun _ _ _ _ => rfl) s part core enclave va

@[simp] theorem mem_fillTlb (s : State) (part core enclave va : Nat) : (fillTlb s part core enclave va).mem = s.mem :=
  fillTlb_keeps State.mem (fun _ _ _ => rfl) (fun _ _ _ _ => rfl) s part core enclave va

@[simp] theorem stores_touchL2 (s : State) (part line : Nat) (write : Bool) : stores (touchL2 s part line write) = stores s := rfl
@[simp] theorem mem_touchL2 (s : State) (part line : Nat) (write : Bool) : (touchL2 s part line write).mem = s.mem := rfl

@[simp] theorem stores_noteFailure (s : State) (line : Nat) : stores (noteFailure s line) = stores s := by
  unfold noteFailure
  dsimp only
  split <;> rfl

theorem stores_keepHbm (s : State) (line : Nat) : stores (keepHbm s line) = stores s := by
  unfold keepHbm
  split <;> rfl

theorem stores_clearCount (s : State) (line : Nat) : stores (clearCount s line) = stores s := by
  unfold clearCount
  split <;> rfl

theorem stores_unflip (s : State) (line : Nat) (forged : Bool) : stores (unflip s line forged) = stores s := by
  unfold unflip
  split <;> rfl

theorem stores_lineWritten (s : State) (part line : Nat) : stores (lineWritten s part line) = stores s := stores_clearCount s line

theorem stores_partWritten (s : State) (line : Nat) : stores (partWritten s line) = stores s := by
  rw [partWritten, stores_unflip, stores_noteFailure]

@[simp] theorem stores_writeHome (s : State) (part pa : Nat) (bs : List Byte) : stores (writeHome s part pa bs) = stores s := by
  have hmem (t : State) (m : Memory) : stores { t with mem := m } = stores t := rfl
  rw [writeHome, writeOver, stores_partWritten, stores_lineWritten, hmem, stores_keepHbm]

@[simp] theorem stores_writeHomeCells (s : State) (part line : Nat) (cs : List Host.Cell) :
    stores (writeHomeCells s part line cs) = stores s := by
  have hmem (t : State) (m : Memory) : stores { t with mem := m } = stores t := rfl
  unfold writeHomeCells
  split
  · rfl
  · rw [stores_partWritten, stores_lineWritten, hmem, stores_keepHbm]

@[simp] theorem stores_track (s : State) (line : Nat) (e : ScopeEntry) : stores (track s line e).2 = stores s := by
  unfold track
  dsimp only
  split
  · rfl
  · split_ifs <;> rfl

/-! ### The coherent stores -/

theorem mem_writeHomeCells (s : State) (part line : Nat) (cs : List Host.Cell) :
    (writeHomeCells s part line cs).mem = cs.foldl (fun m c => Memory.write m c.1 c.2) s.mem := by
  unfold writeHomeCells
  split
  · rename_i h
    rw [List.isEmpty_iff.1 h, List.foldl_nil]
  · rw [mem_partWritten, mem_lineWritten]

theorem read_foldl_write_of_not_mem {a : Nat} : ∀ (cs : List Host.Cell) (m : Memory), (∀ c ∈ cs, c.1 ≠ a) →
    Memory.read (cs.foldl (fun m c => Memory.write m c.1 c.2) m) a = Memory.read m a
  | [], _, _ => rfl
  | c :: cs, m, h => by
    rw [List.foldl_cons, read_foldl_write_of_not_mem cs _ fun c hc => h c (List.mem_cons_of_mem _ hc), Memory.read_write,
      if_neg (Ne.symm (h c List.mem_cons_self))]

/-- The cells of a copy under a mask stand on its line, at the mask's bytes. -/
theorem mem_cells {x : L1Line} {m : BitVec 128} {c : Host.Cell} (h : c ∈ x.cells m) :
    x.line = c.1 / 128 ∧ m.getLsbD (c.1 % 128) = true := by
  obtain ⟨i, hi, rfl⟩ := List.mem_map.1 h
  obtain ⟨hlt, hm⟩ := List.mem_filter.1 hi
  have hlt := mem_upFrom.1 hlt
  have hmod : (x.line * 128 + i) % 128 = i := by omega
  exact ⟨by omega, by rw [hmod]; exact hm⟩

theorem read_foldl_writeHomeCells {a : Nat} (part : L1Line → State → Nat) (m : L1Line → BitVec 128) : ∀ (l : List L1Line) (s : State),
    (∀ x ∈ l, x.line = a / 128 → (m x).getLsbD (a % 128) = false) →
    Memory.read (l.foldl (fun s x => writeHomeCells s (part x s) x.line (x.cells (m x))) s).mem a = Memory.read s.mem a
  | [], _, _ => rfl
  | x :: l, s, h => by
    have hx : ∀ c ∈ x.cells (m x), c.1 ≠ a := by
      rintro c hc rfl
      obtain ⟨hline, hbit⟩ := mem_cells hc
      rw [h x List.mem_cons_self hline] at hbit
      cases hbit
    rw [List.foldl_cons, read_foldl_writeHomeCells part m l _ fun x hx => h x (List.mem_cons_of_mem _ hx), mem_writeHomeCells,
      read_foldl_write_of_not_mem _ _ hx]

/-- A write-back changes the dirty bytes that it takes, and no other byte of memory. -/
theorem read_writeBack {s : State} {sel : L1Line → BitVec 128} {a : Nat}
    (h : ∀ x ∈ s.l1, x.line = a / 128 → (x.written &&& sel x).getLsbD (a % 128) = false) :
    Memory.read (writeBack s sel).mem a = Memory.read s.mem a := by
  unfold writeBack
  dsimp only
  split
  · rfl
  · exact read_foldl_writeHomeCells (fun x s => cachePart s x.cache x.bay) _ _ _ fun x hx => h x (List.mem_of_mem_filter hx)

theorem mem_retain (s : State) (x : L1Line) : (retain s x).mem = s.mem := by
  unfold retain
  split
  · split <;> rfl
  · rfl

theorem mem_flushL1 (s : State) (sel : L1Line → Bool) : (flushL1 s sel).mem = (writeBack s (allOf sel)).mem :=
  foldl_keeps State.mem mem_retain _ _

/-- Lines of a core's own store that leave it write its dirty bytes back, and no other byte of memory. -/
theorem sameMemButDirty_flushL1 {s : State} {core : Nat} {sel : L1Line → Bool} (h : ∀ x ∈ s.l1, sel x = true → x.cache = cacheOf s core) :
    SameMemButDirty s (flushL1 s sel) core := by
  intro a ha
  rw [mem_flushL1]
  refine read_writeBack fun x hx hline => ?_
  rw [BitVec.getLsbD_and, allOf]
  cases hsel : sel x with
  | false => simp
  | true =>
    have hclean : x.written.getLsbD (a % 128) = false := by
      by_contra hdirty
      exact ha ⟨x, hx, h x hx hsel, hline, by simpa using hdirty⟩
    rw [hclean, Bool.false_and]

theorem withoutCaches_makeRoom (s : State) (core bay line : Nat) : withoutCaches (makeRoom s core bay line) = withoutCaches s := by
  unfold makeRoom
  dsimp only
  split
  · rfl
  · exact withoutCaches_flushL1 s _

theorem sameMemButDirty_makeRoom (s : State) (core bay line : Nat) : SameMemButDirty s (makeRoom s core bay line) core := by
  unfold makeRoom
  dsimp only
  split
  · exact fun _ _ => rfl
  · refine sameMemButDirty_flushL1 fun x _ hsel => ?_
    simp only [Bool.and_eq_true, beq_iff_eq] at hsel
    exact hsel.1.1

theorem withoutCaches_fillSector (s : State) (core bay pa : Nat) (mark : Option Word) :
    withoutCaches (fillSector s core bay pa mark) = withoutCaches s := by
  unfold fillSector
  dsimp only
  split <;> split <;> rfl

theorem mem_fillSector (s : State) (core bay pa : Nat) (mark : Option Word) : (fillSector s core bay pa mark).mem = s.mem := by
  unfold fillSector
  dsimp only
  split <;> split <;> rfl

end Sys2Proof.Machine

/-! SUPPORT. Prefetches and completions (R210, R211, R463). -/

namespace Sys2Proof.Machine

open Sys2Proof.Safety Sys2Proof.Claims

/-- What a prefetch may change: nothing that the threads' work is, and no byte of memory but what its core's store holds dirty. -/
structure Prefetched (s : State) (core : Nat) (t : State) : Prop where
  work : work t = work s
  mem : SameMemButDirty s t core

theorem prefetched_of_stores {s t : State} {core : Nat} (hstores : stores t = stores s) (hmem : t.mem = s.mem) : Prefetched s core t :=
  ⟨work_of_stores hstores, fun a _ => by rw [hmem]⟩

theorem work_fillLine (s : State) (core bay line : Nat) : work (fillLine s core bay line) = work s := by
  have hstep (s : State) (k : Nat) : work (if s.l1.any fun x => x.holds s (cacheOf s core) line && x.bay == bay && x.has (line * 128 + 32 * k)
      then s else fillSector s core bay (line * 128 + 32 * k) none) = work s := by
    split
    · rfl
    · exact work_of_withoutCaches (withoutCaches_fillSector s core bay _ none)
  exact (foldl_keeps work hstep _ _).trans (work_of_withoutCaches (withoutCaches_makeRoom s core bay line))

theorem mem_fillLine (s : State) (core bay line : Nat) : (fillLine s core bay line).mem = (makeRoom s core bay line).mem := by
  have hstep (s : State) (k : Nat) : (if s.l1.any fun x => x.holds s (cacheOf s core) line && x.bay == bay && x.has (line * 128 + 32 * k)
      then s else fillSector s core bay (line * 128 + 32 * k) none).mem = s.mem := by
    split
    · rfl
    · exact mem_fillSector s core bay _ none
  exact foldl_keeps State.mem hstep _ _

theorem prefetched_fillLine {s t : State} (hstores : stores t = stores s) (hmem : t.mem = s.mem) (core bay line : Nat) :
    Prefetched s core (fillLine t core bay line) := by
  refine ⟨(work_fillLine t core bay line).trans (work_of_stores hstores), fun a ha => ?_⟩
  rw [mem_fillLine, ← hmem]
  exact sameMemButDirty_makeRoom t core bay line a fun hdirty => ha ((dirtyBelow_of_stores hstores core a).1 hdirty)

/-- A prefetch brings lines and translations in. -/
theorem prefetched_prefetch (s : State) (v : Thread) (l2 : Bool) (ea : Nat) : Prefetched s (threadCore s v) (prefetch s v l2 ea) := by
  unfold prefetch
  dsimp only
  split
  · split_ifs
    · exact prefetched_of_stores rfl rfl
    · exact prefetched_of_stores (by simp) (by simp [mem_noteFailure])
    · exact prefetched_of_stores (by simp) (by simp)
    · exact prefetched_fillLine (by simp) (by simp) _ _ _
    · exact prefetched_of_stores (by simp) (by simp [mem_noteFailure])
    · exact prefetched_of_stores (by simp) (by simp)
    · split
      · split_ifs
        · exact prefetched_of_stores rfl rfl
        · exact prefetched_of_stores (by simp) (by simp [mem_noteFailure])
        · exact prefetched_of_stores (by simp) (by simp)
      · exact prefetched_of_stores (by simp) (by simp)
  · exact prefetched_of_stores (by simp) (by simp)

theorem threads_putView_congr {s t : State} (h : t.threads = s.threads) (w : Who) (u : Thread) :
    (putView t w u).threads = (putView s w u).threads := by
  have hthread (n : Nat) : threadOf t n = threadOf s n := by rw [threadOf, threadOf, h]
  cases w with
  | thread n => exact congrArg (Tab.set · n u) h
  | hand n k =>
    simp only [putView, hthread]
    cases threadOf s n with
    | none => exact h
    | some f => exact congrArg (Tab.set · n (putHand f u k)) h
  | hart n => exact h

theorem trapFlags_zero (v : Thread) : trapFlags v 0 = 0 := by simp [trapFlags]

section
variable {s : State} {w : Who} {v : Thread}

theorem pref_issues {l2 : Bool} {x : Ext} (R : Ready (.pref l2 x) s w v) (hroom : v.loads.length < 63) :
    ∃ t u, exec (.pref l2 x) s = .next t ∧ Issued (.pref l2 x) w t v v u 0 1023 [] ∧ SameMemButDirty s t (threadCore s v) := by
  obtain ⟨hwork, hmem⟩ := prefetched_prefetch s v l2 (wrap 64 ((regNum v x.va.toNat 2 : Nat) + extOff x 4))
  obtain ⟨t, u, hexec, hissued, -, -, honly⟩ := loadIssued_issues (i := .pref l2 x) (v' := v) (g := 0) s 1023 []
    ((viewOf_of_work hwork w).trans R.view) (trapFlags_zero v) rfl
  refine ⟨t, u, (run_ready R _).trans ?_, hissued, fun a ha => ?_⟩
  · simp only [if_neg (Nat.not_le.2 hroom)]
    exact hexec
  · rw [mem_of_onlyThread honly]
    exact hmem a ha

theorem loadDataReturn_writes {k : Nat} {l : LoadOut} (hv : viewOf s w = some v) (hl : v.loads[k]? = some l) :
    exec (.loadDataReturn w k) s =
      .next (putView s w (l.writes.foldl (fun v e => setReg v e.1 e.2) { v with loads := v.loads.eraseIdx k })) := by
  show execLoadDataReturn w k s = _
  simp only [execLoadDataReturn, hv, hl]

theorem storeAccepted_counts (hv : viewOf s w = some v) : ∃ t late, exec (.storeAccepted w) s = .next t ∧ t.mem = s.mem ∧
    viewOf t w = viewOf (putView s w { v with stores := v.stores - 1, late := late }) w := by
  have hsame (u : Thread) : viewOf (putView { s with draws := s.draws + 1 } w u) w = viewOf (putView s w u) w :=
    viewOf_congr (threads_putView_congr (s := s) (t := { s with draws := s.draws + 1 }) rfl w u) w
  refine ⟨_, v.late.eraseIdx (Config.pick s.draws % max 1 v.stores), ?_,
    mem_of_onlyThread (s := { s with draws := s.draws + 1 }) (onlyThread_putView _ w _), hsame _⟩
  show execStoreAccepted w s = _
  simp only [execStoreAccepted, hv]

end

end Sys2Proof.Machine

namespace Sys2Proof.Proofs

open Sys2Proof.Machine Sys2Proof.Safety Sys2Proof.Claims

/-- Settles O28: a prefetch is a load of nothing after a state in which only caches and translations have changed; the two completions are
what they say. -/
theorem prefetchAndCompletions : Obligations.PrefetchAndCompletions := fun _ _ _ =>
  ⟨fun _ _ R hroom => pref_issues R hroom, fun _ _ hv hl => loadDataReturn_writes hv hl, storeAccepted_counts⟩

end Sys2Proof.Proofs

/-! SUPPORT. Fences and cache control (R222, R232-R234, R389, R411, R425). -/

namespace Sys2Proof.Machine

open Sys2Proof.Safety Sys2Proof.Claims

/-! ### Pages filled on the way, and one page's action -/

theorem work_setEnclave (s : State) (id : Nat) (f : Enclave → Enclave) : work (setEnclave s id f) = work s := rfl

theorem work_writeHome (s : State) (part pa : Nat) (bs : List Byte) : work (writeHome s part pa bs) = work s :=
  work_of_stores (stores_writeHome s part pa bs)

theorem work_fillTlb (s : State) (part core enclave va : Nat) : work (fillTlb s part core enclave va) = work s :=
  work_of_stores (stores_fillTlb s part core enclave va)

theorem work_trackPage (s : State) (enclave va frame : Nat) : work (trackPage s enclave va frame) = work s := by
  unfold trackPage
  split
  · split <;> rfl
  · rfl

theorem work_mapFresh (s : State) (enclave : Nat) (e : Enclave) (va addr frame : Nat) (rest : List Nat) :
    work (mapFresh s enclave e va addr frame rest) = work s := by
  rw [mapFresh, work_trackPage, writeEntry, work_writeHome]
  rfl

theorem work_demandZero (s : State) (enclave va : Nat) : work (demandZero s enclave va) = work s := by
  unfold demandZero
  split
  · rfl
  · split
    · split
      · exact work_mapFresh s _ _ _ _ _ _
      · rfl
    · rfl

theorem work_touchFor (s : State) (part core enclave : Nat) (a : Access) (va : Nat) : work (touchFor s part core enclave a va).1 = work s := by
  unfold touchFor
  dsimp only
  rw [work_fillTlb]
  split
  · rw [work_demandZero, work_fillTlb]
  · rfl

theorem work_discard (s : State) (sel : L1Line → Bool) : work (discard s sel) = work s :=
  work_of_withoutCaches (foldl_keeps withoutCaches withoutCaches_retain _ _)

theorem work_writeBack (s : State) (sel : L1Line → BitVec 128) : work (writeBack s sel) = work s :=
  work_of_withoutCaches (withoutCaches_writeBack s sel)

theorem work_flushL1 (s : State) (sel : L1Line → Bool) : work (flushL1 s sel) = work s :=
  work_of_withoutCaches (withoutCaches_flushL1 s sel)

theorem work_cctlAct (s : State) (op : CctlOp) (sc : Scope) (core bay : Nat) (rs : Ranges) : work (cctlAct s op sc core bay rs) = work s := by
  unfold cctlAct
  dsimp only
  split
  · rfl
  · split
    · exact work_writeBack _ _
    · rfl
  · split
    · exact work_discard _ _
    · rfl
  · split
    · exact work_flushL1 _ _
    · rfl

theorem work_cctlPages (op : CctlOp) (sc : Scope) (core bay part enclave : Nat) : ∀ (fuel va n : Nat) (s : State),
    work (cctlPages op sc core bay part enclave fuel va n s).1 = work s
  | 0, _, _, _ => rfl
  | fuel + 1, va, n, s => by
    have htouch := work_touchFor s part core enclave .read va
    unfold cctlPages
    split
    · rfl
    · split <;> rename_i h <;> rw [h] at htouch
      · rw [work_cctlPages op sc core bay part enclave fuel, work_cctlAct]
        exact (foldl_keeps work (fun s va => work_fillTlb s part core enclave va) _ _).trans htouch
      all_goals exact htouch

section
variable {s : State} {w : Who} {v v' : Thread} {op : CctlOp} {sc : Scope} {x : Ext} {a n z : Nat} {g : Flags}

/-- A context goes on past an instruction that has read its sources, with its flags. -/
theorem advances_past {i : Instr} {t : State} (hv : viewOf t w = some v) (ht : trapFlags v g = 0) (hk : v' = { v with queues := v'.queues }) :
    ∃ u, viewOf (complete i t w v { v' with pc := v.next i } g) w = some u ∧ u.pc = v.pc + BitVec.ofNat 64 i.len ∧ SameRegsBut v u 0 0 ∧
      OnlyThread w t (complete i t w v { v' with pc := v.next i } g) := by
  have hkeeps : KeepsForeman v { v' with pc := v.next i } := by
    rw [hk]
    exact ⟨rfl, rfl, rfl, rfl, rfl⟩
  obtain ⟨u, hu, hreads, honly⟩ := reads_complete (i := i) hv ht hkeeps
  obtain ⟨hpc, hregs, -, -, -, -, -, -, hh, -, -⟩ := hreads
  rw [setFlags_same] at hpc hregs hh
  exact ⟨u, hu, hpc, sameRegsBut_of_reads (by rw [hregs, hk]) (by rw [hh, hk]), honly⟩

/-- CCTL whose range has been acted on goes on in the state that it left. -/
theorem cctl_acts {s1 : State} (R : Ready (.cctl op sc x) s w v) (hsrc : readSrcs v (.reg 2 x.va) (.reg 1 x.vb) .no = some (a, n, z, g, v'))
    (ht : trapFlags v g = 0) (hsc : sc ≠ .cr)
    (hpages : cctlPages op sc (threadCore s v) (threadBay s v) (partOf s v) (threadEnclave s v) (n / 65536 + 2) a n s = (s1, .ok ())) :
    ∃ t u, exec (.cctl op sc x) s = .next t ∧ viewOf t w = some u ∧ u.pc = v.pc + BitVec.ofNat 64 (Instr.len (.cctl op sc x)) ∧
      SameRegsBut v u 0 0 ∧ { t with threads := s1.threads } = s1 := by
  have hwork : work s1 = work s := by
    have h := work_cctlPages op sc (threadCore s v) (threadBay s v) (partOf s v) (threadEnclave s v) (n / 65536 + 2) a n s
    rw [hpages] at h
    exact h
  obtain ⟨u, hu, hpc, hregs, honly⟩ := advances_past (i := .cctl op sc x) ((viewOf_of_work hwork w).trans R.view) ht (readSrcs_same hsrc)
  refine ⟨_, u, (run_ready R _).trans ?_, hu, hpc, hregs, honly.1⟩
  rw [hsrc]
  simp only [if_neg hsc, hpages]
  rfl

theorem cctl_cr (R : Ready (.cctl op .cr x) s w v) (hsrc : readSrcs v (.reg 2 x.va) (.reg 1 x.vb) .no = some (a, n, z, g, v'))
    (ht : trapFlags v g = 0) :
    ∃ t u, exec (.cctl op .cr x) s = .next t ∧ viewOf t w = some u ∧ u.pc = v.pc + BitVec.ofNat 64 (Instr.len (.cctl op .cr x)) ∧
      SameRegsBut v u 0 0 ∧ OnlyThread w s t := by
  obtain ⟨u, hu, hpc, hregs, honly⟩ := advances_past (i := .cctl op .cr x) R.view ht (readSrcs_same hsrc)
  refine ⟨_, u, (run_ready R _).trans ?_, hu, hpc, hregs, honly⟩
  rw [hsrc]
  simp only [if_true]
  rfl

theorem ifence_advances (R : Ready (.ifence x) s w v) :
    ∃ t u, exec (.ifence x) s = .next t ∧ Advanced (.ifence x) w s t { v with fetched := [] } u := by
  have hown : ∀ t h, w = .hand t h → ({ v with fetched := [], pc := v.next (.ifence x) } : Thread) = { v with
      hctx := { v.hctx with no := v.hctx.no, phase := v.hctx.phase }, pc := v.next (.ifence x), queues := v.queues, loads := v.loads,
      fpsr := v.fpsr } := by
    rintro t h rfl
    obtain ⟨f, r, y, -, -, -, rfl⟩ := viewOf_hand R.view
    rfl
  obtain ⟨r, hview, -⟩ := viewOf_putView (u := { v with fetched := [], pc := v.next (.ifence x) }) R.view hown
  exact ⟨_, _, run_ready R _, hview, rfl, rfl, onlyThread_putView s w _⟩

end

/-! ### Dirty bytes of a copy -/

theorem getLsbD_byteMask (off n i : Nat) : (byteMask off n).getLsbD i = (decide (i < 128) && (decide (off ≤ i) && decide (i < off + n))) := by
  rw [byteMask, BitVec.getLsbD_ofNat, Nat.testBit_mul_two_pow, Nat.testBit_two_pow_sub_one]
  by_cases h : off ≤ i
  · simp only [h, decide_true, Bool.true_and]
    congr 2
    exact propext ⟨fun _ => by omega, fun _ => by omega⟩
  · simp [h]

/-- A mask of sectors has the bytes of the chosen ones. -/
theorem getLsbD_sectorMask (sel : Nat → Bool) (i : Nat) : (sectorMask sel).getLsbD i = (decide (i < 128) && sel (i / 32)) := by
  have hfold (l : List Nat) : ∀ m : BitVec 128, (l.foldl (fun m k => if sel k then m ||| byteMask (32 * k) 32 else m) m).getLsbD i =
      (m.getLsbD i || l.any fun k => sel k && (byteMask (32 * k) 32).getLsbD i) := by
    induction l with
    | nil => intro m; simp
    | cons k l ih =>
      intro m
      rw [List.foldl_cons, ih, List.any_cons]
      cases hk : sel k <;> simp [Bool.or_assoc]
  rw [sectorMask, hfold, Bool.eq_iff_iff]
  simp only [getLsbD_byteMask, Bool.or_eq_true, List.any_eq_true, mem_upFrom, Bool.and_eq_true, decide_eq_true_eq]
  constructor
  · rintro (h | ⟨k, -, hk, hlt, hlow, hhigh⟩)
    · simp at h
    · exact ⟨hlt, (by omega : i / 32 = k) ▸ hk⟩
  · rintro ⟨hlt, hsel⟩
    exact .inr ⟨i / 32, by omega, hsel, hlt, by omega, by omega⟩

theorem getLsbD_foldl_or (l : List (Nat × BitVec 128)) (i : Nat) : ∀ m : BitVec 128,
    (l.foldl (fun m e => m ||| e.2) m).getLsbD i = (m.getLsbD i || l.any fun e => e.2.getLsbD i) := by
  induction l with
  | nil => intro m; simp
  | cons e l ih => intro m; rw [List.foldl_cons, ih, BitVec.getLsbD_or, List.any_cons, Bool.or_assoc]

/-- A byte of a copy is dirty when some core has it so. -/
theorem getLsbD_written (x : L1Line) (i : Nat) : x.written.getLsbD i = x.dirty.any fun e => e.2.getLsbD i := by
  rw [L1Line.written, getLsbD_foldl_or]
  simp

theorem getLsbD_written_of_getD {x : L1Line} {core i : Nat} (h : (Tab.getD x.dirty core 0).getLsbD i = true) : x.written.getLsbD i = true := by
  rw [getLsbD_written, List.any_eq_true]
  cases hget : Tab.get? x.dirty core with
  | none => simp [Tab.getD, hget] at h
  | some m =>
    rw [Tab.getD, hget] at h
    exact ⟨(core, m), Tab.mem_of_get? hget, h⟩

/-- A copy that is another with perhaps fewer dirty bytes. -/
structure FewerDirty (x c : L1Line) : Prop where
  cache : c.cache = x.cache
  line : c.line = x.line
  dirty : ∀ e ∈ c.dirty, ∃ y ∈ x.dirty, y.1 = e.1 ∧ ∃ m, e.2 = y.2 &&& m

theorem FewerDirty.of_dirty {x c : L1Line} (hcache : c.cache = x.cache) (hline : c.line = x.line) (hdirty : c.dirty = x.dirty) : FewerDirty x c :=
  ⟨hcache, hline, fun e he => ⟨e, hdirty ▸ he, rfl, BitVec.allOnes 128, (BitVec.and_allOnes).symm⟩⟩

theorem FewerDirty.trans {x y c : L1Line} (hxy : FewerDirty x y) (hyc : FewerDirty y c) : FewerDirty x c := by
  refine ⟨hyc.cache.trans hxy.cache, hyc.line.trans hxy.line, fun e he => ?_⟩
  obtain ⟨e1, he1, hk1, m1, hm1⟩ := hyc.dirty e he
  obtain ⟨e2, he2, hk2, m2, hm2⟩ := hxy.dirty e1 he1
  exact ⟨e2, he2, hk2.trans hk1, m2 &&& m1, by rw [hm1, hm2, BitVec.and_assoc]⟩

/-- A byte dirty in the one is dirty in the other. -/
theorem FewerDirty.written {x c : L1Line} (h : FewerDirty x c) {i : Nat} (hi : c.written.getLsbD i = true) : x.written.getLsbD i = true := by
  rw [getLsbD_written, List.any_eq_true] at hi ⊢
  obtain ⟨e, he, hbit⟩ := hi
  obtain ⟨y, hy, -, m, hm⟩ := h.dirty e he
  rw [hm, BitVec.getLsbD_and, Bool.and_eq_true] at hbit
  exact ⟨y, hy, hbit.1⟩

theorem mem_dropDirty {d : Tab (BitVec 128)} {m : BitVec 128} {e : Nat × BitVec 128} (h : e ∈ dropDirty d m) :
    ∃ y ∈ d, y.1 = e.1 ∧ e.2 = y.2 &&& ~~~m := by
  obtain ⟨y, hy, rfl⟩ := List.mem_map.1 (List.mem_of_mem_filter h)
  exact ⟨y, hy, rfl, rfl⟩

/-- A state whose copies are another's, with perhaps fewer of them and fewer dirty bytes. -/
def Receded (s t : State) : Prop := ∀ c ∈ t.l1, ∃ x ∈ s.l1, FewerDirty x c

theorem Receded.trans {s t r : State} (hst : Receded s t) (htr : Receded t r) : Receded s r := by
  intro c hc
  obtain ⟨y, hy, hyc⟩ := htr c hc
  obtain ⟨x, hx, hxy⟩ := hst y hy
  exact ⟨x, hx, hxy.trans hyc⟩

theorem Receded.dirtyBelow {s t : State} (h : Receded s t) (hw : work t = work s) {core a : Nat} (hd : DirtyBelow t core a) :
    DirtyBelow s core a := by
  obtain ⟨c, hc, hcache, hline, hbit⟩ := hd
  obtain ⟨x, hx, hxc⟩ := h c hc
  exact ⟨x, hx, by rw [← hxc.cache, hcache, cacheOf_of_work hw], hxc.line.symm.trans hline, hxc.written hbit⟩

/-- Bytes that stay through a change that leaves no new byte dirty stay through what follows. -/
theorem sameMemButDirty_trans {s t r : State} {core : Nat} (hst : SameMemButDirty s t core) (hback : Receded s t) (hw : work t = work s)
    (htr : SameMemButDirty t r core) : SameMemButDirty s r core :=
  fun a ha => (htr a fun hd => ha (hback.dirtyBelow hw hd)).trans (hst a ha)

/-- What a write-back leaves of each copy: it with the chosen bytes clean, or itself where none of them was dirty. -/
theorem mem_l1_writeBack {s : State} {sel : L1Line → BitVec 128} {c : L1Line} (h : c ∈ (writeBack s sel).l1) :
    ∃ x ∈ s.l1, c = { x with dirty := dropDirty x.dirty (sel x) } ∨ (c = x ∧ x.written &&& sel x = 0) := by
  unfold writeBack at h
  dsimp only at h
  split at h
  · rename_i hout
    have hnone := List.filter_eq_nil_iff.1 (List.isEmpty_iff.1 hout) c h
    exact ⟨c, h, .inr ⟨rfl, by simpa using hnone⟩⟩
  · have hkeep : (List.foldl (fun s x => writeHomeCells s (cachePart s x.cache x.bay) x.line (x.cells (x.written &&& sel x)))
        (mapL1 s fun x => { x with dirty := dropDirty x.dirty (sel x) }) (s.l1.filter fun x => x.written &&& sel x != 0)).l1 =
        (mapL1 s fun x => { x with dirty := dropDirty x.dirty (sel x) }).l1 :=
      l1_of_stores (foldl_keeps stores (fun s x => stores_writeHomeCells s _ _ _) _ _)
    rw [hkeep] at h
    obtain ⟨x, hx, rfl⟩ := List.mem_map.1 (List.mem_of_mem_filter h)
    exact ⟨x, hx, .inl rfl⟩

theorem receded_writeBack (s : State) (sel : L1Line → BitVec 128) : Receded s (writeBack s sel) := by
  intro c hc
  obtain ⟨x, hx, rfl | ⟨rfl, -⟩⟩ := mem_l1_writeBack hc
  · refine ⟨x, hx, rfl, rfl, fun e he => ?_⟩
    obtain ⟨y, hy, hk, hm⟩ := mem_dropDirty he
    exact ⟨y, hy, hk, _, hm⟩
  · exact ⟨c, hx, FewerDirty.of_dirty rfl rfl rfl⟩

theorem l1_retain (s : State) (x : L1Line) : (retain s x).l1 = s.l1 := by
  unfold retain
  split
  · split <;> rfl
  · rfl

theorem l1_discard (s : State) (sel : L1Line → Bool) : (discard s sel).l1 = s.l1.filter fun x => !sel x := by
  have h : ((s.l1.filter sel).foldl retain s).l1 = s.l1 := foldl_keeps State.l1 l1_retain _ _
  simp only [discard, h]

theorem receded_flushL1 (s : State) (sel : L1Line → Bool) : Receded s (flushL1 s sel) := by
  refine (receded_writeBack s (allOf sel)).trans fun c hc => ?_
  rw [flushL1, l1_discard] at hc
  exact ⟨c, List.mem_of_mem_filter hc, FewerDirty.of_dirty rfl rfl rfl⟩

/-! ### Releases and acquires -/

theorem work_releaseHome (s : State) (core : Nat) : work (releaseHome s core) = work s := work_writeBack s _

theorem work_acquireHome (s : State) (core : Nat) : work (acquireHome s core) = work s := work_flushL1 s _

/-- A release writes back dirty bytes of its core's own store. -/
theorem sameMemButDirty_releaseHome (s : State) (core : Nat) : SameMemButDirty s (releaseHome s core) core := by
  intro a ha
  refine read_writeBack fun x hx hline => ?_
  by_cases hcache : x.cache = cacheOf s core
  · have hclean : x.written.getLsbD (a % 128) = false := by
      by_contra hdirty
      exact ha ⟨x, hx, hcache, hline, by simpa using hdirty⟩
    rw [BitVec.getLsbD_and, hclean, Bool.false_and]
  · simp [hcache]

theorem receded_mapL1 (s : State) {f : L1Line → L1Line} (h : ∀ x, FewerDirty x (f x)) : Receded s (mapL1 s f) := by
  intro c hc
  obtain ⟨x, hx, rfl⟩ := List.mem_map.1 (List.mem_of_mem_filter hc)
  exact ⟨x, hx, h x⟩

theorem receded_discardClean (s : State) (sel : L1Line → Bool) : Receded s (discardClean s sel) :=
  (receded_flushL1 s _).trans (receded_mapL1 _ fun x => by split <;> exact FewerDirty.of_dirty rfl rfl rfl)

theorem receded_acquireHome (s : State) (core : Nat) : Receded s (acquireHome s core) := receded_discardClean s _

/-- After an acquire no copy of its core's store has a clean byte. -/
theorem acquireHome_empties {s : State} {core : Nat} {c : L1Line} (hc : c ∈ (acquireHome s core).l1) (hcache : c.cache = cacheOf s core) :
    c.filled = 0 := by
  obtain ⟨x, -, rfl⟩ := List.mem_map.1 (List.mem_of_mem_filter hc)
  by_cases hx : x.cache = cacheOf s core
  · simp [hx]
  · simp [hx] at hcache

theorem sameMemButDirty_acquireHome (s : State) (core : Nat) : SameMemButDirty s (acquireHome s core) core := by
  refine sameMemButDirty_flushL1 fun x _ hsel => ?_
  simp only [Bool.and_eq_true, beq_iff_eq] at hsel
  exact hsel.1.1

/-- The sectors of a copy in which a core has dirty bytes. -/
def ownSectors (x : L1Line) (core : Nat) : BitVec 128 := sectorMask fun k => Tab.getD x.dirty core 0 &&& byteMask (32 * k) 32 != 0

theorem releaseHome_eq (s : State) (core : Nat) :
    releaseHome s core = writeBack s fun x => if x.cache == cacheOf s core then ownSectors x core else 0 := rfl

/-- A core's dirty bytes lie in its sectors. -/
theorem getLsbD_ownSectors {x : L1Line} {core i : Nat} (hi : (Tab.getD x.dirty core 0).getLsbD i = true) :
    (ownSectors x core).getLsbD i = true := by
  have hlt : i < 128 := BitVec.lt_of_getLsbD hi
  have hmask : (byteMask (32 * (i / 32)) 32).getLsbD i = true := by
    rw [getLsbD_byteMask]
    simp only [Bool.and_eq_true, decide_eq_true_eq]
    omega
  rw [ownSectors, getLsbD_sectorMask, Bool.and_eq_true, decide_eq_true_eq, bne_iff_ne]
  refine ⟨hlt, fun hzero => ?_⟩
  have hbit : (Tab.getD x.dirty core 0 &&& byteMask (32 * (i / 32)) 32).getLsbD i = true := by rw [BitVec.getLsbD_and, hi, hmask, Bool.and_self]
  rw [hzero] at hbit
  simp at hbit

/-- After a release no byte of its core's own is dirty in its store. -/
theorem releaseHome_cleans {s : State} {core : Nat} (hs : ∀ c ∈ s.l1, (Tab.keys c.dirty).Pairwise (· < ·)) :
    ∀ c ∈ (releaseHome s core).l1, c.cache = cacheOf s core → ∀ e ∈ c.dirty, e.1 = core → e.2 = 0 := by
  intro c hc hcache e he hcore
  have hown {x : L1Line} (hx : x ∈ s.l1) {y : Nat × BitVec 128} (hy : y ∈ x.dirty) (hk : y.1 = core) : Tab.getD x.dirty core 0 = y.2 := by
    obtain ⟨k, m⟩ := y
    subst hk
    rw [Tab.getD, Tab.get?_of_mem (hs x hx) hy, Option.getD_some]
  rw [releaseHome_eq] at hc
  obtain ⟨x, hx, rfl | ⟨rfl, hclean⟩⟩ := mem_l1_writeBack hc
  · obtain ⟨y, hy, hk, hm⟩ := mem_dropDirty he
    rw [hm, if_pos (beq_iff_eq.2 hcache), ← hown hx hy (hk.trans hcore)]
    refine BitVec.eq_of_getLsbD_eq fun i hlt => ?_
    rw [BitVec.getLsbD_and, BitVec.getLsbD_not]
    cases hi : (Tab.getD x.dirty core 0).getLsbD i with
    | false => simp
    | true => rw [getLsbD_ownSectors hi]; simp
  · rw [if_pos (beq_iff_eq.2 hcache)] at hclean
    rw [← hown hx he hcore]
    refine BitVec.eq_of_getLsbD_eq fun i _ => ?_
    cases hi : (Tab.getD c.dirty core 0).getLsbD i with
    | false => simp
    | true =>
      have hbit : (c.written &&& ownSectors c core).getLsbD i = true := by
        rw [BitVec.getLsbD_and, getLsbD_written_of_getD hi, getLsbD_ownSectors hi, Bool.and_self]
      rw [hclean] at hbit
      exact hbit.symm

theorem getD_eq_zero_of_forall {d : Tab (BitVec 128)} {core : Nat} (h : ∀ e ∈ d, e.1 = core → e.2 = 0) : Tab.getD d core 0 = 0 := by
  cases hget : Tab.get? d core with
  | none => rw [Tab.getD, hget, Option.getD_none]
  | some m =>
    rw [Tab.getD, hget]
    exact h (core, m) (Tab.mem_of_get? hget) rfl

/-! ### FENCE -/

/-- What a FENCE does to its core's store before it starts a phase. -/
def fenceActs (s : State) (v : Thread) (o : Ord) (sc : Scope) : State :=
  let s1 := if Ord.releases o then releaseAt s v.control (threadCore s v) sc else s
  if Ord.acquires o then acquireAt s1 v.control (threadCore s v) sc else s1

theorem Ord.releases_iff (o : Ord) : Ord.releases o = true ↔ o = .rel ∨ o = .ar := by simp [Ord.releases]

theorem Ord.acquires_iff (o : Ord) : Ord.acquires o = true ↔ o = .acq ∨ o = .ar := by simp [Ord.acquires]

section
variable {s : State} {w : Who} {v : Thread} {o : Ord} {sc : Scope} {x : Ext}

/-- A FENCE that does not act at the home changes no store. -/
theorem fenceActs_none (h : v.control = true ∨ atHome s false (threadCore s v) sc = false) : fenceActs s v o sc = s := by
  have hno : (!v.control && atHome s v.control (threadCore s v) sc) = false := by
    cases hc : v.control with
    | true => rfl
    | false => rw [h.resolve_left (by simp [hc]), Bool.and_false]
  simp [fenceActs, releaseAt, acquireAt, hno]

/-- One that acts there releases and acquires as its ordering says. -/
theorem fenceActs_home (hc : v.control = false) (h : atHome s false (threadCore s v) sc = true) :
    fenceActs s v o sc =
      let s1 := if o = .rel ∨ o = .ar then releaseHome s (threadCore s v) else s
      if o = .acq ∨ o = .ar then acquireHome s1 (threadCore s v) else s1 := by
  have hrelease : releaseAt s v.control (threadCore s v) sc = releaseHome s (threadCore s v) := by simp [releaseAt, hc, h]
  have hacquire {t : State} (ht : work t = work s) : acquireAt t v.control (threadCore s v) sc = acquireHome t (threadCore s v) := by
    simp [acquireAt, hc, atHome_of_work ht, h]
  simp only [fenceActs, Ord.releases_iff, Ord.acquires_iff, hrelease]
  split
  · rw [hacquire]
    split
    · exact work_releaseHome s _
    · rfl
  · rfl

/-- What a FENCE's actions leave: the threads' work, and every byte of memory that its core's store does not hold dirty. -/
theorem fenceActs_keeps (s : State) (v : Thread) (o : Ord) (sc : Scope) :
    work (fenceActs s v o sc) = work s ∧ SameMemButDirty s (fenceActs s v o sc) (threadCore s v) := by
  by_cases hhome : v.control = true ∨ atHome s false (threadCore s v) sc = false
  · rw [fenceActs_none hhome]
    exact ⟨rfl, fun _ _ => rfl⟩
  · obtain ⟨hc, h⟩ := not_or.1 hhome
    rw [fenceActs_home (by simpa using hc) (by simpa using h)]
    have hrelease : ∃ t, t = (if o = .rel ∨ o = .ar then releaseHome s (threadCore s v) else s) ∧ work t = work s ∧ Receded s t ∧
        SameMemButDirty s t (threadCore s v) := by
      refine ⟨_, rfl, ?_⟩
      split
      · exact ⟨work_releaseHome s _, receded_writeBack s _, sameMemButDirty_releaseHome s _⟩
      · exact ⟨rfl, fun c hc => ⟨c, hc, FewerDirty.of_dirty rfl rfl rfl⟩, fun _ _ => rfl⟩
    obtain ⟨t, ht, hwork, hback, hsame⟩ := hrelease
    simp only [← ht]
    split
    · exact ⟨(work_acquireHome t _).trans hwork, sameMemButDirty_trans hsame hback hwork (sameMemButDirty_acquireHome t _)⟩
    · exact ⟨hwork, hsame⟩

theorem fence_stalls (R : Ready (.fence o sc x) s w v) (h : v.loads ≠ []) : exec (.fence o sc x) s = .next s :=
  (run_ready R _).trans (by rw [loadsOut_eq_true h]; rfl)

/-- A context in a new phase, past a FENCE. -/
def pastFence (s : State) (v : Thread) (o : Ord) (i : Instr) : Thread :=
  { ({ v with phaseStart := phaseOf s (cacheOf s (threadCore s v)) + 1 } : Thread).released (Ord.releases o) with pc := v.next i }

theorem pastFence_eq (s : State) (v : Thread) (o : Ord) (i : Instr) : pastFence s v o i =
    { v with phaseStart := phaseOf s (cacheOf s (threadCore s v)) + 1, pc := v.next i, late := (pastFence s v o i).late } := by
  unfold pastFence Thread.released
  split <;> rfl

theorem execFence_goes (R : Ready (.fence o sc x) s w v) (h : v.loads = []) : exec (.fence o sc x) s =
    .next (putView (boundary (fenceActs s v o sc) (threadCore s v)).1 w (pastFence s v o (.fence o sc x))) := by
  obtain ⟨hwork, -⟩ := fenceActs_keeps s v o sc
  refine (run_ready R _).trans ?_
  rw [loadsOut_eq_false h]
  simp only [Bool.false_eq_true, if_false]
  show Host.Outcome.next (putView (boundary (fenceActs s v o sc) (threadCore (fenceActs s v o sc) v)).1 w
    { ({ v with phaseStart := phaseOf (fenceActs s v o sc) (cacheOf (fenceActs s v o sc) (threadCore (fenceActs s v o sc) v)) + 1 } : Thread).released
      (Ord.releases o) with pc := v.next (.fence o sc x) }) = _
  rw [threadCore_of_work hwork, cacheOf_of_work hwork, phaseOf_of_work hwork]
  rfl

/-- A FENCE whose loads have all returned acts, starts a phase and goes on. -/
theorem fence_goes (R : Ready (.fence o sc x) s w v) (h : v.loads = []) :
    ∃ t u, exec (.fence o sc x) s = .next t ∧ viewOf t w = some u ∧ u.pc = v.pc + BitVec.ofNat 64 (Instr.len (.fence o sc x)) ∧
      SameRegsBut v u 0 0 ∧ u.masks = v.masks ∧ u.phaseStart = phaseOf s (cacheOf s (threadCore s v)) + 1 ∧
      t.mem = (fenceActs s v o sc).mem ∧ t.l1 = (fenceActs s v o sc).l1 ∧ t.retained = (fenceActs s v o sc).retained := by
  obtain ⟨hwork, -⟩ := fenceActs_keeps s v o sc
  have hview : viewOf (boundary (fenceActs s v o sc) (threadCore s v)).1 w = some v := (viewOf_congr (threads_of_work hwork) w).trans R.view
  have hkeeps : KeepsForeman v (pastFence s v o (.fence o sc x)) := by
    rw [pastFence_eq]
    exact ⟨rfl, rfl, rfl, rfl, rfl⟩
  obtain ⟨u, hu, hreads⟩ := reads_putView hview hkeeps
  obtain ⟨hpc, hregs, hmasks, -, -, -, -, hphase, hh, -, -⟩ := hreads
  rw [pastFence_eq] at hpc hregs hmasks hphase hh
  have honly := (onlyThread_putView (boundary (fenceActs s v o sc) (threadCore s v)).1 w (pastFence s v o (.fence o sc x))).1
  have hmem := congrArg State.mem honly
  have hl1 := congrArg State.l1 honly
  have hretained := congrArg State.retained honly
  exact ⟨_, u, execFence_goes R h, hu, hpc, sameRegsBut_of_reads hregs hh, hmasks, hphase, hmem, hl1, hretained⟩

end

end Sys2Proof.Machine

namespace Sys2Proof.Proofs

open Sys2Proof.Machine Sys2Proof.Safety Sys2Proof.Claims

/-- Settles O32: a fence's actions are a release and an acquire or nothing, page after page CCTL leaves the threads alone, and IFENCE changes
its own thread. -/
theorem fencesAndCacheControl : Obligations.FencesAndCacheControl := by
  intro s w v
  refine ⟨fun o sc x R h => fence_stalls R h, fun o sc x R h => ?_, fun op sc x a n z g v' s1 R hsrc ht hsc hpages => cctl_acts R hsrc ht hsc hpages,
    fun op x a n z g v' R hsrc ht => cctl_cr R hsrc ht, fun x R => ifence_advances R⟩
  obtain ⟨t, u, hexec, hu, hpc, hregs, hmasks, hphase, hmem, hl1, hretained⟩ := fence_goes R h
  obtain ⟨-, hsame⟩ := fenceActs_keeps s v o sc
  refine ⟨t, u, hexec, hu, hpc, hregs, hmasks, hphase, fun a ha => hmem ▸ hsame a ha, fun hc => ?_, fun hno => ?_, fun hc hhome => ?_⟩
  · rw [hmem, hl1, fenceActs_none (.inl hc)]
    exact ⟨rfl, rfl⟩
  · rw [hmem, hl1, hretained, fenceActs_none (.inr hno)]
    exact ⟨rfl, rfl, rfl⟩
  · rw [hmem, hl1, hretained, fenceActs_home hc hhome]
    intro s1 s2
    have hwork : work s1 = work s := by
      dsimp only [s1]
      split
      · exact work_releaseHome s _
      · rfl
    refine ⟨rfl, rfl, rfl, fun hacq c hcl hcache => ?_, fun hrel hs c hcl hcache => ?_⟩
    · have hs2 : s2 = acquireHome s1 (threadCore s v) := if_pos hacq
      have hcl : c ∈ s2.l1 := hcl
      rw [hs2] at hcl
      exact acquireHome_empties hcl (hcache.trans (cacheOf_of_work hwork _).symm)
    · have hs1 : s1 = releaseHome s (threadCore s v) := if_pos hrel
      have hback : Receded s1 s2 := by
        dsimp only [s2]
        split
        · exact receded_acquireHome s1 _
        · exact fun c hc => ⟨c, hc, FewerDirty.of_dirty rfl rfl rfl⟩
      obtain ⟨x, hx, hxc⟩ := hback c hcl
      refine getD_eq_zero_of_forall fun e he hcore => ?_
      obtain ⟨y, hy, hk, m, hm⟩ := hxc.dirty e he
      rw [hs1] at hx
      rw [hm, releaseHome_cleans hs x hx (hxc.cache.symm.trans hcache) y hy (hk.trans hcore)]
      exact BitVec.zero_and

end Sys2Proof.Proofs

/-! SUPPORT. Page allocation (R221, R287, R460). -/

namespace Sys2Proof.Machine

open Sys2Proof.Safety Sys2Proof.Claims

/-! ### Statuses -/

/-- A status in a thread's register, and the PC past the instruction that answers it. -/
structure Answered (i : Instr) (w : Who) (t : State) (v u : Thread) (d : Reg) (r : Nat) : Prop where
  view : viewOf t w = some u
  pc : u.pc = v.pc + BitVec.ofNat 64 i.len
  regs : SameRegsBut v u d.toNat 1
  status : regNum u d.toNat 1 = if d = 1023 then 0 else r

theorem answered_of_put {i : Instr} {w : Who} {v : Thread} {n : Nat} {d : Reg} {r : Nat} (s : State) (hw : w = .thread n)
    (hd : (Role.dst 1 false).admits d = true) (hr : r < 2 ^ 32) :
    ∃ u, Answered i w (putView s w { setRegs v d.toNat 1 r with pc := v.next i }) v u d r ∧
      OnlyThread w s (putView s w { setRegs v d.toNat 1 r with pc := v.next i }) := by
  subst hw
  have hreg : d.toNat ≠ 1023 → ∀ k, d.toNat ≤ k → k < d.toNat + 1 → isReg k := by
    intro hz k h1 h2
    simp only [Role.admits, Bool.or_eq_true, Bool.and_eq_true, beq_iff_eq, decide_eq_true_eq] at hd
    simp at hd
    unfold isReg
    omega
  refine ⟨_, ⟨viewOf_putView_thread s n _, rfl, fun k hk => ?_, ?_⟩, onlyThread_putView s _ _⟩
  · rw [← regVal_setRegs_out 1 v d.toNat r k hk]
    exact regVal_congr rfl rfl k
  · have hput : regNum { setRegs v d.toNat 1 r with pc := v.next i } d.toNat 1 = regNum (setRegs v d.toNat 1 r) d.toNat 1 := regNum_congr rfl rfl _ _
    rw [hput]
    split
    · rename_i hz
      rw [hz]
      rfl
    · rename_i hz
      have hne : d.toNat ≠ 1023 := fun h => hz (BitVec.eq_of_toNat_eq h)
      exact regNum_setRegs v d.toNat 1 r (.inl rfl) hne (hreg hne) hr

/-! ### What both find -/

theorem threadEnclave_of_work {s t : State} (h : work t = work s) (v : Thread) : threadEnclave t v = threadEnclave s v := by
  have hlaunch : launchOf t = launchOf s := funext fun b => by rw [launchOf, launchOf, launches_of_work h]
  rw [threadEnclave, threadEnclave, launchOfBent, launchOfBent, bentOf, bentOf, bents_of_work h, hlaunch]

theorem enclaveOf_of_stores {s t : State} (h : stores t = stores s) (en : Nat) : enclaveOf t en = enclaveOf s en := by
  simp only [enclaveOf, enclaves_of_stores h]

section
variable {s : State} {w : Who} {v : Thread} {x : Ext} {i : Instr}

theorem execPg_poisoned {line : Nat} (hi : i = .pgalloc x ∨ i = .pgfree x) (harg : pageArg (regNum v x.va.toNat 2) = none) (R : Ready i s w v)
    (hp : walkPoison s (threadEnclave s v) (regNum v x.va.toNat 2) = some line) :
    exec i s = .next (integrityHalt s (some v) line ((sideOf s line).code == 0x29)) := by
  rcases hi with rfl | rfl
  all_goals
    refine (run_ready R _).trans ?_
    simp only [onPage, harg, hp]
    rfl

theorem pgalloc_misaligned (h : regNum v x.va.toNat 2 % 65536 ≠ 0) (R : Ready (.pgalloc x) s w v) :
    exec (.pgalloc x) s = .next (takeTrap s w v (kept .misalign (regNum v x.va.toNat 2)) (trapHere (.pgalloc x) v)) := by
  have harg : pageArg (regNum v x.va.toNat 2) = some (kept .misalign (regNum v x.va.toNat 2)) := if_pos h
  refine (run_ready R _).trans ?_
  simp only [onPage, harg]
  rfl

/-- The state in which a page is looked up: its translation kept, and the lines of its walk filled. -/
def lookedUp (s : State) (v : Thread) (va : Nat) : State := fillTlb s (partOf s v) (threadCore s v) (threadEnclave s v) va

theorem stores_lookedUp (s : State) (v : Thread) (va : Nat) : stores (lookedUp s v va) = stores s := stores_fillTlb s _ _ _ _

theorem threadEnclave_lookedUp (s : State) (v : Thread) (va : Nat) : threadEnclave (lookedUp s v va) v = threadEnclave s v :=
  threadEnclave_of_work (work_of_stores (stores_lookedUp s v va)) v

/-- PGALLOC of a page it may look up answers what it comes to. -/
theorem pgalloc_answers {r : Nat} {s1 : State} (harg : pageArg (regNum v x.va.toNat 2) = none)
    (hp : walkPoison s (threadEnclave s v) (regNum v x.va.toNat 2) = none) (R : Ready (.pgalloc x) s w v)
    (hf : pgalloc (lookedUp s v (regNum v x.va.toNat 2)) (threadEnclave s v) (regNum v x.va.toNat 2) = (r, s1)) (hr : r < 2 ^ 32) :
    ∃ t u, exec (.pgalloc x) s = .next t ∧ Answered (.pgalloc x) w t v u x.vd r ∧ OnlyThread w s1 t := by
  obtain ⟨n, hw⟩ := thread_of_not_handMode R.view (not_handMode_of_contextCheck rfl rfl R.checks)
  obtain ⟨u, hu, honly⟩ := answered_of_put (i := .pgalloc x) (v := v) s1 hw (wellFormed_admits R.wf _ List.mem_cons_self) hr
  refine ⟨_, u, (run_ready R _).trans ?_, hu, honly⟩
  have hf' : pgalloc (lookedUp s v (regNum v x.va.toNat 2)) (threadEnclave (lookedUp s v (regNum v x.va.toNat 2)) v) (regNum v x.va.toNat 2) = (r, s1) := by
    rw [threadEnclave_lookedUp, hf]
  simp only [onPage, harg, hp]
  show settleEff _ s w v (match pgalloc (lookedUp s v _) (threadEnclave (lookedUp s v _) v) _ with
    | (r, s') => .done (putView s' w { setRegs v x.vd.toNat 1 r with pc := v.next (.pgalloc x) })) = _
  rw [hf']
  rfl

/-- PGFREE of a page it may look up waits for what still uses the page, or answers what it comes to. -/
theorem execPgfree_looks (harg : pageArg (regNum v x.va.toNat 2) = none)
    (hp : walkPoison s (threadEnclave s v) (regNum v x.va.toNat 2) = none) (R : Ready (.pgfree x) s w v) :
    exec (.pgfree x) s = settleEff (.pgfree x) s w v
      (match pgfree (lookedUp s v (regNum v x.va.toNat 2)) (threadEnclave s v) (regNum v x.va.toNat 2) with
        | none => .stall
        | some (r, s') => .done (putView s' w { setRegs v x.vd.toNat 1 r with pc := v.next (.pgfree x) })) := by
  refine (run_ready R _).trans ?_
  rw [← threadEnclave_lookedUp s v (regNum v x.va.toNat 2)]
  simp only [onPage, harg, hp]
  rfl

theorem pgfree_status_le {en va r : Nat} {s1 : State} (h : pgfree s en va = some (r, s1)) : r ≤ 4 := by
  unfold pgfree at h
  split at h
  · cases h
    decide
  · split at h
    · cases h
      decide
    · dsimp only at h
      split_ifs at h <;> cases h <;> decide

theorem pgfree_answers {r : Nat} {s1 : State} (harg : pageArg (regNum v x.va.toNat 2) = none)
    (hp : walkPoison s (threadEnclave s v) (regNum v x.va.toNat 2) = none) (R : Ready (.pgfree x) s w v)
    (hf : pgfree (lookedUp s v (regNum v x.va.toNat 2)) (threadEnclave s v) (regNum v x.va.toNat 2) = some (r, s1)) :
    ∃ t u, exec (.pgfree x) s = .next t ∧ Answered (.pgfree x) w t v u x.vd r ∧ OnlyThread w s1 t := by
  obtain ⟨n, hw⟩ := thread_of_not_handMode R.view (not_handMode_of_contextCheck rfl rfl R.checks)
  obtain ⟨u, hu, honly⟩ := answered_of_put (i := .pgfree x) (v := v) s1 hw (wellFormed_admits R.wf _ List.mem_cons_self)
    (Nat.lt_of_le_of_lt (pgfree_status_le hf) (by decide))
  refine ⟨_, u, ?_, hu, honly⟩
  rw [execPgfree_looks harg hp R, hf]
  rfl

end

/-! ### A page mapped, a page freed -/

theorem enclaveOf_of_onlyThread {w : Who} {s t : State} (h : OnlyThread w s t) (en : Nat) : enclaveOf t en = enclaveOf s en := by
  have henclaves := congrArg State.enclaves h.1
  exact congrArg (Tab.get? · en) henclaves

theorem potOf_of_onlyThread {w : Who} {s t : State} (h : OnlyThread w s t) (pa : Nat) : potOf t pa = potOf s pa := by
  have hpot := congrArg State.pot h.1
  exact congrArg (fun p => Tab.getD p (frameOf pa) { owner := 0, slot := 0, type := 0, rstr := false }) hpot

section
variable {s : State} {en va : Nat} {e : Enclave} {l : WalkStep}

theorem pgalloc_mapped (he : enclaveOf s en = some e) (hl : (walk s.mem va tableLevels e.root).getLast? = some l) (hv : l.valid = true) :
    pgalloc s en va = (2, s) := by
  simp [pgalloc, he, hl, hv]

theorem pgalloc_missing (he : enclaveOf s en = some e) (hl : (walk s.mem va tableLevels e.root).getLast? = some l) (hv : l.valid = false)
    (hlevel : l.level ≠ 0) : pgalloc s en va = (3, s) := by
  simp [pgalloc, he, hl, hv, hlevel]

theorem pgalloc_empty (he : enclaveOf s en = some e) (hl : (walk s.mem va tableLevels e.root).getLast? = some l) (hv : l.valid = false)
    (hlevel : l.level = 0) (hstack : e.stack = []) : pgalloc s en va = (1, s) := by
  simp [pgalloc, he, hl, hv, hlevel, hstack]

theorem pgalloc_maps {f : Nat} {rest : List Nat} (he : enclaveOf s en = some e)
    (hl : (walk s.mem va tableLevels e.root).getLast? = some l) (hv : l.valid = false) (hlevel : l.level = 0) (hstack : e.stack = f :: rest) :
    pgalloc s en va = (0, mapFresh s en e va l.addr f rest) := by
  simp [pgalloc, he, hl, hv, hlevel, hstack]

theorem mem_trackPage (s : State) (en va frame : Nat) : (trackPage s en va frame).mem = s.mem := by
  unfold trackPage
  split
  · split <;> rfl
  · rfl

theorem pot_trackPage (s : State) (en va frame : Nat) : (trackPage s en va frame).pot = s.pot := by
  unfold trackPage
  split
  · split <;> rfl
  · rfl

theorem stack_pageChange (s : State) (en va : Nat) (mapped : Bool) :
    (enclaveOf (pageChange s en va mapped) en).map (·.stack) = (enclaveOf s en).map (·.stack) := by
  rw [pageChange, enclaveOf_setEnclave, if_pos rfl, Option.map_map]
  congr 1
  funext e
  simp only [Function.comp]
  split <;> rfl

theorem stack_trackPage (s : State) (en va frame : Nat) :
    (enclaveOf (trackPage s en va frame) en).map (·.stack) = (enclaveOf s en).map (·.stack) := by
  unfold trackPage
  split
  · split
    · exact stack_pageChange s en va true
    · rfl
  · rfl

theorem stack_setEnclave (he : enclaveOf s en = some e) (st : List Nat) :
    (enclaveOf (setEnclave s en fun e => { e with stack := st }) en).map (·.stack) = some st := by
  rw [enclaveOf_setEnclave, if_pos rfl, he]
  rfl

/-- A page mapped: its enclave's stack without its frame, which is the enclave's and zero but for the table entry. -/
theorem mapFresh_maps (he : enclaveOf s en = some e) (addr f : Nat) (rest : List Nat) :
    (enclaveOf (mapFresh s en e va addr f rest) en).map (·.stack) = some rest ∧ (potOf (mapFresh s en e va addr f rest) (f * 65536)).owner = en ∧
      (mapFresh s en e va addr f rest).mem = Memory.writeBytes (Memory.zero s.mem (f * 65536) 65536) addr (toBytes 8 (f * 64 + 7)) := by
  have hframe : frameOf (f * 65536) = f := Nat.mul_div_cancel f (by decide)
  refine ⟨?_, ?_, ?_⟩
  · rw [mapFresh, stack_trackPage, writeEntry, enclaveOf_of_stores (stores_writeHome _ _ _ _)]
    exact stack_setEnclave (s := zeroFrame s f) he rest
  · rw [potOf, mapFresh, pot_trackPage, writeEntry, pot_of_stores (stores_writeHome _ _ _ _), hframe, Tab.getD_set_self]
  · rw [mapFresh, mem_trackPage, writeEntry, mem_writeHome]
    rfl

theorem mem_setRetained (s : State) (live : List Retained) : (setRetained s live).mem = s.mem := by
  unfold setRetained
  dsimp only
  split <;> rfl

/-- A retention store that keeps all its entries frees no page. -/
theorem enclaves_setRetained_self (s : State) : (setRetained s s.retained).enclaves = s.enclaves := by
  have hnone : ((s.retained.filterMap (·.page)).filter fun f => !(s.retained.any fun r => r.page == some f)) = [] := by
    rw [List.filter_eq_nil_iff]
    intro f hf
    obtain ⟨r, hr, hpage⟩ := List.mem_filterMap.1 hf
    simp only [Bool.not_eq_true', Bool.not_eq_false, List.any_eq_true, beq_iff_eq]
    exact ⟨r, hr, hpage⟩
  simp [setRetained, hnone]

theorem stores_writeEntry (s : State) (addr n : Nat) : stores (writeEntry s addr n) = stores s := stores_writeHome s 0 addr (toBytes 8 n)

theorem mem_writeEntry (s : State) (addr n : Nat) : (writeEntry s addr n).mem = Memory.writeBytes s.mem addr (toBytes 8 n) :=
  mem_writeHome s 0 addr (toBytes 8 n)

theorem stores_invalidateRange (s : State) (en va size : Nat) : stores (invalidateRange s en va size) = stores s := rfl

theorem mem_discardFrame (s : State) (frame : Nat) : (discardFrame s frame).mem = s.mem :=
  mem_setRetained s (s.retained.filter fun r => r.line / 512 != frame)

theorem mem_pageChange (s : State) (en va : Nat) (mapped : Bool) : (pageChange s en va mapped).mem = s.mem := rfl

theorem mem_invalidateRange (s : State) (en va size : Nat) : (invalidateRange s en va size).mem = s.mem := rfl

theorem mem_freePage (s : State) (en va frame addr : Nat) : (freePage s en va frame addr).mem = (writeEntry s addr 0).mem := by
  rw [freePage, setEnclave_mem, mem_pageChange, mem_discardFrame, mem_invalidateRange]

/-- A frame of which nothing is retained goes from the caches without a change of the enclaves. -/
theorem enclaves_discardFrame {frame : Nat} (hr : ∀ r ∈ s.retained, r.line / 512 ≠ frame) : (discardFrame s frame).enclaves = s.enclaves := by
  have hkeep : s.retained.filter (fun r => r.line / 512 != frame) = s.retained :=
    List.filter_eq_self.2 fun r hm => by simpa using hr r hm
  show (setRetained s (s.retained.filter fun r => r.line / 512 != frame)).enclaves = s.enclaves
  rw [hkeep, enclaves_setRetained_self]

/-- A page freed where no retained copy is of its frame: its frame on its enclave's stack, and of memory the table entry alone changed. -/
theorem freePage_frees (he : enclaveOf s en = some e) (va frame addr : Nat) (hr : ∀ r ∈ s.retained, r.line / 512 ≠ frame) :
    (enclaveOf (freePage s en va frame addr) en).map (·.stack) = some (frame :: e.stack) ∧
      (freePage s en va frame addr).mem = Memory.writeBytes s.mem addr (toBytes 8 0) := by
  have hentry := (stores_invalidateRange (writeEntry s addr 0) en va 65536).trans (stores_writeEntry s addr 0)
  have hkept : enclaveOf (discardFrame (invalidateRange (writeEntry s addr 0) en va 65536) frame) en = some e := by
    rw [enclaveOf, enclaves_discardFrame ((retained_of_stores hentry).symm ▸ hr), enclaves_of_stores hentry]
    exact he
  have hstack := stack_pageChange (discardFrame (invalidateRange (writeEntry s addr 0) en va 65536) frame) en va false
  rw [hkept, Option.map_some] at hstack
  refine ⟨?_, (mem_freePage s en va frame addr).trans (mem_writeEntry s addr 0)⟩
  rw [freePage, enclaveOf_setEnclave, if_pos rfl]
  generalize pageChange (discardFrame (invalidateRange (writeEntry s addr 0) en va 65536) frame) en va false = t at hstack
  obtain ⟨e', he', hstack⟩ := Option.map_eq_some_iff.1 hstack
  show ((enclaveOf t en).map _).map _ = _
  rw [he', ← hstack]
  rfl

/-- PGFREE of a page of its enclave, with nothing using it, frees it. -/
theorem pgfree_frees (he : enclaveOf s en = some e) (hl : (walk s.mem va tableLevels e.root).getLast? = some l) (hlevel : l.level = 0)
    (hv : l.valid = true) (hraw : bits l.entry 63 38 = 0) (hown : frameOwned s en e.slot (leafFrame l.entry) = true)
    (hfree : (potOf s (leafFrame l.entry)).rstr = false) (hroom : e.stack.length < 65536)
    (huse : frameInUse s (frameOf (leafFrame l.entry)) = false) :
    pgfree s en va = some (0, freePage s en va (frameOf (leafFrame l.entry)) l.addr) := by
  have hstack : ¬ Config.freeStack ≤ e.stack.length := Nat.not_le.2 hroom
  simp [pgfree, he, hl, hlevel, hv, hraw, hown, hfree, hstack, huse]

end

end Sys2Proof.Machine

namespace Sys2Proof.Proofs

open Sys2Proof.Machine Sys2Proof.Safety Sys2Proof.Claims

/-- Settles O34: the walk that a lookup makes is that of the memory before it, and a status is written to a thread's register. -/
theorem pageAllocation : Obligations.PageAllocation := by
  intro s w v x e he va en last s0
  have he0 : enclaveOf s0 en = some e := (enclaveOf_of_stores (stores_lookedUp s v va) en).trans he
  have hmem0 : s0.mem = s.mem := mem_fillTlb s _ _ _ _
  have hlast (l : WalkStep) (hl : last = some l) : (walk s0.mem va tableLevels e.root).getLast? = some l := hmem0.symm ▸ hl
  refine ⟨fun h R => pgalloc_misaligned h R, fun line i hi harg R hp => execPg_poisoned hi harg R hp, fun harg hp R l hl => ?_,
    fun harg hp R hwait => ?_, fun harg hp R r s1 hf => ?_, fun l hl hlevel hv hraw hown hfree hroom huse hr => ?_⟩
  · cases hv : l.valid with
    | true =>
      obtain ⟨t, u, hexec, hans, honly⟩ := pgalloc_answers harg hp R (pgalloc_mapped he0 (hlast l hl) hv) (by decide)
      exact ⟨t, u, hexec, hans.view, hans.pc, hans.regs, fun _ => ⟨hans.status, honly⟩, nofun, nofun, nofun⟩
    | false =>
      by_cases hlevel : l.level = 0
      · cases hstack : e.stack with
        | nil =>
          obtain ⟨t, u, hexec, hans, honly⟩ := pgalloc_answers harg hp R (pgalloc_empty he0 (hlast l hl) hv hlevel hstack) (by decide)
          exact ⟨t, u, hexec, hans.view, hans.pc, hans.regs, nofun, fun _ h => absurd hlevel h, fun _ _ _ => ⟨hans.status, honly⟩, nofun⟩
        | cons f rest =>
          obtain ⟨t, u, hexec, hans, honly⟩ := pgalloc_answers harg hp R (pgalloc_maps he0 (hlast l hl) hv hlevel hstack) (by decide)
          obtain ⟨hrest, howner, hmem⟩ := mapFresh_maps (va := va) he0 l.addr f rest
          refine ⟨t, u, hexec, hans.view, hans.pc, hans.regs, nofun, fun _ h => absurd hlevel h, nofun, ?_⟩
          rintro f' rest' - - h
          cases h
          have honly : OnlyThread w (mapFresh s0 en e va l.addr f rest) t := honly
          rw [enclaveOf_of_onlyThread honly, potOf_of_onlyThread honly, mem_of_onlyThread honly, ← hmem0]
          exact ⟨hans.status.trans (ite_self 0), hrest, howner, hmem⟩
      · obtain ⟨t, u, hexec, hans, honly⟩ := pgalloc_answers harg hp R (pgalloc_missing he0 (hlast l hl) hv hlevel) (by decide)
        exact ⟨t, u, hexec, hans.view, hans.pc, hans.regs, nofun, fun _ _ => ⟨hans.status, honly⟩, fun _ h => absurd h hlevel,
          fun _ _ _ h => absurd h hlevel⟩
  · rw [execPgfree_looks harg hp R]
    show settleEff _ s w v (match pgfree s0 en va with
      | none => .stall
      | some (r, s') => .done (putView s' w { setRegs v x.vd.toNat 1 r with pc := v.next (.pgfree x) })) = _
    rw [hwait]
    rfl
  · obtain ⟨t, u, hexec, hans, honly⟩ := pgfree_answers harg hp R hf
    exact ⟨t, u, hexec, hans.view, hans.pc, hans.regs, hans.status, honly.1⟩
  · obtain ⟨hstack, hmem⟩ := freePage_frees he va (frameOf (leafFrame l.entry)) l.addr hr
    exact ⟨_, pgfree_frees he hl hlevel hv hraw hown hfree hroom huse, hstack, hmem⟩

end Sys2Proof.Proofs

/-! SUPPORT. Global stores (R190, R228, R230-R232, R482, R483). -/

namespace Sys2Proof.Machine

open Sys2Proof.Safety Sys2Proof.Claims

/-! ### A line's data -/

theorem toBytes_ofBytes : ∀ bs : List Byte, toBytes bs.length (ofBytes bs) = bs
  | [] => rfl
  | b :: bs => by
    have hb := b.isLt
    have hdiv : (b.toNat + 256 * ofBytes bs) / 256 = ofBytes bs := by omega
    have hhead : BitVec.ofNat 8 (b.toNat + 256 * ofBytes bs) = b := by
      apply BitVec.eq_of_toNat_eq
      rw [BitVec.toNat_ofNat]
      omega
    rw [ofBytes, List.length_cons, toBytes, hdiv, hhead, toBytes_ofBytes bs]

theorem toBytes_mod (n : Nat) : ∀ x, toBytes n (x % 2 ^ (8 * n)) = toBytes n x := by
  induction n with
  | zero => intro x; rfl
  | succ n ih =>
    intro x
    have hpow : 2 ^ (8 * (n + 1)) = 256 * 2 ^ (8 * n) := by rw [Nat.mul_add, Nat.pow_add, Nat.mul_comm]
    have hhead : BitVec.ofNat 8 (x % 2 ^ (8 * (n + 1))) = BitVec.ofNat 8 x := by
      apply BitVec.eq_of_toNat_eq
      rw [BitVec.toNat_ofNat, BitVec.toNat_ofNat, hpow]
      exact Nat.mod_mul_right_mod x 256 _
    rw [toBytes, toBytes, hhead, hpow, Nat.mod_mul_right_div_self, ih]

/-- A line's bytes read as they were put there. -/
theorem dataBytes_patchData (d : BitVec 1024) {off : Nat} {bs : List Byte} (h : off + bs.length ≤ 128) :
    dataBytes (patchData d off bs) off bs.length = bs := by
  have hvalue : (patchData d off bs).toNat / 2 ^ (8 * off) % 2 ^ (8 * bs.length) = ofBytes bs % 2 ^ (8 * bs.length) := by
    apply Nat.eq_of_testBit_eq
    intro j
    rw [Nat.testBit_mod_two_pow, Nat.testBit_mod_two_pow, Nat.testBit_div_two_pow]
    by_cases hj : j < 8 * bs.length
    · have hlt : j + 8 * off < 1024 := by omega
      have hmask : (BitVec.ofNat 1024 ((2 ^ (8 * bs.length) - 1) * 2 ^ (8 * off))).getLsbD (j + 8 * off) = true := by
        rw [BitVec.getLsbD_ofNat, Nat.testBit_mul_two_pow, Nat.testBit_two_pow_sub_one]
        simp [hlt, hj]
      have hbits : (BitVec.ofNat 1024 (ofBytes bs * 2 ^ (8 * off))).getLsbD (j + 8 * off) = (ofBytes bs).testBit j := by
        rw [BitVec.getLsbD_ofNat, Nat.testBit_mul_two_pow]
        simp [hlt]
      have hput : (patchData d off bs).getLsbD (j + 8 * off) = (ofBytes bs).testBit j := by
        rw [patchData, BitVec.getLsbD_or, BitVec.getLsbD_and, BitVec.getLsbD_not, hmask, hbits]
        simp
      rw [← BitVec.getLsbD, hput]
    · simp [hj]
  rw [dataBytes, ← toBytes_mod, hvalue, toBytes_mod, toBytes_ofBytes]

/-! ### A store in a core's coherent store (R190, R231) -/

/-- A mask of dirty bytes with at least those of another under a core's name. -/
def HasDirty (m : BitVec 128) (core : Nat) (d : Tab (BitVec 128)) : Prop :=
  ∃ y, Tab.get? d core = some y ∧ ∀ i, m.getLsbD i = true → y.getLsbD i = true

theorem hasDirty_update_self (m : BitVec 128) (core : Nat) (d : Tab (BitVec 128)) : HasDirty m core (Tab.update d core 0 (· ||| m)) :=
  ⟨_, Tab.get?_set_self _ _ _, fun i hi => by rw [BitVec.getLsbD_or, hi, Bool.or_true]⟩

theorem hasDirty_update {m : BitVec 128} {core : Nat} {d : Tab (BitVec 128)} (h : HasDirty m core d) (k : Nat) (x : BitVec 128) :
    HasDirty m core (Tab.update d k 0 (· ||| x)) := by
  obtain ⟨y, hy, hm⟩ := h
  by_cases hk : core = k
  · subst hk
    refine ⟨_, Tab.get?_set_self _ _ _, fun i hi => ?_⟩
    rw [Tab.getD, hy, Option.getD_some, BitVec.getLsbD_or, hm i hi, Bool.true_or]
  · exact ⟨y, (Tab.get?_set_ne _ _ hk).trans hy, hm⟩

/-- What a store adds to the storing bay's dirty bytes: its own, under its core's name, and under the other cores' names those that were
theirs. -/
def addDirty (before : Tab (BitVec 128)) (m : BitVec 128) (core : Nat) (d : Tab (BitVec 128)) : Tab (BitVec 128) :=
  before.foldl (fun d e => if e.2 &&& m = 0 then d else Tab.update d e.1 0 (· ||| (e.2 &&& m))) (Tab.update d core 0 (· ||| m))

theorem hasDirty_addDirty (before : Tab (BitVec 128)) (m : BitVec 128) (core : Nat) (d : Tab (BitVec 128)) :
    HasDirty m core (addDirty before m core d) := by
  unfold addDirty
  generalize hd : Tab.update d core 0 (· ||| m) = d1
  have h1 : HasDirty m core d1 := hd ▸ hasDirty_update_self m core d
  clear hd
  induction before generalizing d1 with
  | nil => exact h1
  | cons e l ih =>
    refine ih _ ?_
    dsimp only
    split
    · exact h1
    · exact hasDirty_update h1 _ _

/-- A copy of a line after a store there. -/
def storedCopy (mine : L1Line → Bool) (before : Tab (BitVec 128)) (core bay off : Nat) (bs : List Byte) (x : L1Line) : L1Line :=
  if mine x then { x with data := patchData x.data off bs,
                          dirty := if x.bay == bay then addDirty before (byteMask off bs.length) core x.dirty
                            else dropDirty x.dirty (byteMask off bs.length) }
  else x

/-- A line of which no byte is held, ahead of a store. -/
def freshCopy (s : State) (cache bay line : Nat) : L1Line :=
  { cache := cache, bay := bay, line := line, key := keyOf s line, data := 0, filled := 0, dirty := [], mark := none }

theorem l1_writeL1 (s : State) (core bay pa : Nat) (bs : List Byte) : (writeL1 s core bay pa bs).l1 =
    (((if s.l1.any fun x => x.holds s (cacheOf s core) (lineOf pa) && x.bay == bay then s.l1
        else freshCopy s (cacheOf s core) bay (lineOf pa) :: s.l1).map
      (storedCopy (fun x => x.holds s (cacheOf s core) (lineOf pa))
        ((s.l1.filter fun x => x.holds s (cacheOf s core) (lineOf pa)).flatMap (·.dirty)) core bay (pa % 128) bs)).filter
      fun x => x.filled != 0 || !x.dirty.isEmpty) := by
  unfold writeL1
  dsimp only
  split <;> rfl

section
variable {s : State} {core bay pa : Nat} {bs : List Byte}

theorem storedCopy_holds (mine : L1Line → Bool) (before : Tab (BitVec 128)) (core bay off : Nat) (bs : List Byte) (x : L1Line) (s : State)
    (cache line : Nat) : (storedCopy mine before core bay off bs x).holds s cache line = x.holds s cache line := by
  unfold storedCopy
  split <;> rfl

theorem storedCopy_bay (mine : L1Line → Bool) (before : Tab (BitVec 128)) (core bay off : Nat) (bs : List Byte) (x : L1Line) :
    (storedCopy mine before core bay off bs x).bay = x.bay := by
  unfold storedCopy
  split <;> rfl

/-- Every copy of the line has the bytes that were stored. -/
theorem writeL1_data (h : pa % 128 + bs.length ≤ 128) {x : L1Line} (hx : x ∈ (writeL1 s core bay pa bs).l1)
    (hholds : x.holds s (cacheOf s core) (lineOf pa) = true) : dataBytes x.data (pa % 128) bs.length = bs := by
  rw [l1_writeL1] at hx
  obtain ⟨y, -, rfl⟩ := List.mem_map.1 (List.mem_of_mem_filter hx)
  rw [storedCopy_holds] at hholds
  rw [storedCopy, if_pos hholds]
  exact dataBytes_patchData y.data h

/-- The storing bay has a copy of the line with the bytes dirty. -/
theorem writeL1_dirty (h : pa % 128 + bs.length ≤ 128) : ∃ x ∈ (writeL1 s core bay pa bs).l1,
    x.holds s (cacheOf s core) (lineOf pa) = true ∧ x.bay = bay ∧ ∀ k, k < bs.length → x.written.getLsbD (pa % 128 + k) = true := by
  have hheld : ∃ y ∈ (if s.l1.any fun x => x.holds s (cacheOf s core) (lineOf pa) && x.bay == bay then s.l1
      else freshCopy s (cacheOf s core) bay (lineOf pa) :: s.l1), y.holds s (cacheOf s core) (lineOf pa) = true ∧ y.bay = bay := by
    split
    · rename_i hany
      obtain ⟨y, hy, hyes⟩ := List.any_eq_true.1 hany
      rw [Bool.and_eq_true, beq_iff_eq] at hyes
      exact ⟨y, hy, hyes⟩
    · exact ⟨_, List.mem_cons_self, by simp [L1Line.holds, freshCopy], rfl⟩
  obtain ⟨y, hy, hholds, hbay⟩ := hheld
  have hcopy (before : Tab (BitVec 128)) :
      (storedCopy (fun x => x.holds s (cacheOf s core) (lineOf pa)) before core bay (pa % 128) bs y).dirty =
        addDirty before (byteMask (pa % 128) bs.length) core y.dirty := by
    rw [storedCopy, if_pos hholds, if_pos (beq_iff_eq.2 hbay)]
  rw [l1_writeL1]
  refine ⟨_, List.mem_filter.2 ⟨List.mem_map_of_mem hy, ?_⟩, (storedCopy_holds _ _ _ _ _ _ _ _ _ _).trans hholds,
    (storedCopy_bay _ _ _ _ _ _ _).trans hbay, fun k hk => ?_⟩
  · obtain ⟨m, hm, -⟩ := hasDirty_addDirty ((s.l1.filter fun x => x.holds s (cacheOf s core) (lineOf pa)).flatMap (·.dirty))
      (byteMask (pa % 128) bs.length) core y.dirty
    rw [hcopy]
    cases hd : addDirty ((s.l1.filter fun x => x.holds s (cacheOf s core) (lineOf pa)).flatMap (·.dirty))
      (byteMask (pa % 128) bs.length) core y.dirty with
    | nil => rw [hd] at hm; cases hm
    | cons e l => simp
  · obtain ⟨m, hm, hall⟩ := hasDirty_addDirty ((s.l1.filter fun x => x.holds s (cacheOf s core) (lineOf pa)).flatMap (·.dirty))
      (byteMask (pa % 128) bs.length) core y.dirty
    refine getLsbD_written_of_getD (core := core) ?_
    rw [hcopy, Tab.getD, hm, Option.getD_some]
    refine hall _ ?_
    rw [getLsbD_byteMask]
    simp only [Bool.and_eq_true, decide_eq_true_eq]
    omega

theorem mem_writeL1 (s : State) (core bay pa : Nat) (bs : List Byte) : (writeL1 s core bay pa bs).mem = s.mem := by
  unfold writeL1
  dsimp only
  split <;> rfl

theorem mem_mapL1 (s : State) (f : L1Line → L1Line) : (mapL1 s f).mem = s.mem := rfl

theorem mem_patchRetained (s : State) (cache pa : Nat) (bs : List Byte) : (patchRetained s cache pa bs).mem = s.mem := rfl

theorem mem_writeThrough (s : State) (core bay pa : Nat) (bs : List Byte) :
    (writeThrough s core bay pa bs).mem = Memory.writeBytes s.mem pa bs := by
  simp only [writeThrough, mem_patchRetained, mem_mapL1, mem_writeHome]

theorem mem_kickWrite (s : State) (id off size n : Nat) : (kickWrite s id off size n).mem = s.mem := by
  unfold kickWrite
  split_ifs <;> rfl

end

/-! ### What a store leaves at its site -/

section
variable {s t : State} {v : Thread} {sc : Scope} {size pa : Nat} {bs : List Byte}

theorem performStore_home (hc : cacheable pa = true) (h : v.control = true ∨ atHome s v.control (threadCore s v) sc = true) :
    (performStore s v sc size pa bs).mem = Memory.writeBytes s.mem pa bs := by
  rw [performStore, if_pos hc]
  unfold storeAt
  dsimp only
  split
  · exact mem_writeHome s _ _ _
  · rename_i hcontrol
    rw [if_pos (h.resolve_left hcontrol)]
    exact mem_writeThrough s _ _ _ _

theorem performStore_core (hc : cacheable pa = true) (hcontrol : v.control = false) (h : atHome s v.control (threadCore s v) sc = false) :
    performStore s v sc size pa bs =
      writeL1 (makeRoom s (threadCore s v) (threadBay s v) (lineOf pa)) (threadCore s v) (threadBay s v) pa bs := by
  rw [performStore, if_pos hc]
  simp only [storeAt, hcontrol, Bool.false_eq_true, if_false]
  rw [hcontrol] at h
  simp only [h, Bool.false_eq_true, if_false]

theorem work_makeRoom (s : State) (core bay line : Nat) : work (makeRoom s core bay line) = work s :=
  work_of_withoutCaches (withoutCaches_makeRoom s core bay line)

theorem holds_makeRoom (x : L1Line) (s : State) (core bay line cache l : Nat) :
    x.holds (makeRoom s core bay line) cache l = x.holds s cache l := by
  have hpot := congrArg State.pot (withoutCaches_makeRoom s core bay line)
  have hpot : (makeRoom s core bay line).pot = s.pot := hpot
  simp only [L1Line.holds, keyOf, potOf, hpot]

/-- A store performed leaves at its site what it is to leave there. -/
theorem storedAt_performStore (hlen : pa % 128 + bs.length ≤ 128) (hmem : t.mem = (performStore s v sc size pa bs).mem)
    (hl1 : t.l1 = (performStore s v sc size pa bs).l1) : StoredAt s t v sc pa bs := by
  refine ⟨fun hc hhome => ?_, fun hc hcontrol hno => ?_, fun hc a => ?_⟩
  · rw [performStore_home hc hhome] at hmem
    refine ⟨fun a ha => ?_, ?_⟩
    · rw [hmem, Memory.read_writeBytes_out bs _ _ _ ha]
    · rw [hmem]
      exact Memory.bytes_writeBytes bs s.mem pa
  · rw [performStore_core hc hcontrol hno] at hmem hl1
    rw [mem_writeL1] at hmem
    have hcache := cacheOf_of_work (work_makeRoom s (threadCore s v) (threadBay s v) (lineOf pa)) (threadCore s v)
    refine ⟨hmem, fun a ha => hmem ▸ sameMemButDirty_makeRoom s _ _ _ a ha, ?_, fun x hx hholds => ?_⟩
    · rw [hl1]
      obtain ⟨x, hx, hholds, hbay, hdirty⟩ := writeL1_dirty (s := makeRoom s (threadCore s v) (threadBay s v) (lineOf pa)) (core := threadCore s v)
        (bay := threadBay s v) hlen
      rw [hcache, holds_makeRoom] at hholds
      exact ⟨x, hx, hholds, hbay, hdirty⟩
    · rw [hl1] at hx
      refine writeL1_data hlen hx ?_
      rw [hcache, holds_makeRoom]
      exact hholds
  · rw [hmem, performStore, hc]
    simp only [Bool.false_eq_true, if_false, mem_kickWrite]

end

theorem work_writeL1 (s : State) (core bay pa : Nat) (bs : List Byte) : work (writeL1 s core bay pa bs) = work s := by
  unfold writeL1
  dsimp only
  split <;> rfl

theorem work_kickWrite (s : State) (id off size n : Nat) : work (kickWrite s id off size n) = work s := by
  unfold kickWrite
  split_ifs <;> rfl

theorem work_mapL1 (s : State) (f : L1Line → L1Line) : work (mapL1 s f) = work s := rfl

theorem work_patchRetained (s : State) (cache pa : Nat) (bs : List Byte) : work (patchRetained s cache pa bs) = work s := rfl

theorem work_performStore (s : State) (v : Thread) (sc : Scope) (size pa : Nat) (bs : List Byte) :
    work (performStore s v sc size pa bs) = work s := by
  unfold performStore storeAt
  dsimp only
  split_ifs
  · exact work_writeHome s _ _ _
  · simp only [writeThrough, work_patchRetained, work_mapL1, work_writeHome]
  · rw [work_writeL1, work_makeRoom]
  · exact work_kickWrite s _ _ _ _

theorem work_releaseAt (s : State) (control : Bool) (core : Nat) (sc : Scope) : work (releaseAt s control core sc) = work s := by
  unfold releaseAt
  split
  · exact work_releaseHome s core
  · rfl

/-! ### The page that a store leads to -/

theorem leafPage_at (big : Bool) (e va : Nat) : (leafPage big e va).at va % 65536 = va % 65536 := by
  have hframe : leafFrame e % 65536 = 0 := Nat.mul_mod_left _ _
  have hle : va / (if big then 2 ^ 21 else 2 ^ 16) * (if big then 2 ^ 21 else 2 ^ 16) ≤ va := Nat.div_mul_le_self _ _
  have hva : va / (if big then 2 ^ 21 else 2 ^ 16) * (if big then 2 ^ 21 else 2 ^ 16) % 65536 = 0 := by
    cases big
    · exact Nat.mul_mod_left _ _
    · simp only [if_true]
      omega
  simp only [Page.at, leafPage]
  omega

theorem Got.of_bind_ok {α β : Type} {g : Got α} {f : α → Got β} {y : β} (h : g.bind f = .ok y) : ∃ x, g = .ok x ∧ f x = .ok y := by
  cases g with
  | ok x => exact ⟨x, rfl, h⟩
  | trap k => cases h
  | fill va => cases h
  | poison l => cases h

theorem Got.of_map_ok {α β : Type} {g : Got α} {f : α → β} {y : β} (h : g.map f = .ok y) : ∃ x, g = .ok x ∧ f x = y := by
  obtain ⟨x, hx, hy⟩ := Got.of_bind_ok h
  exact ⟨x, hx, Got.ok.inj hy⟩

/-- A walk that reaches a page reads it off a leaf. -/
theorem stepsOutcome_page {s : State} {enclave va : Nat} {e : Enclave} {a : Access} {ws : List WalkStep} {x : Page × Nat × Bool}
    (h : stepsOutcome s enclave e a va ws = .ok x) : ∃ big n, x.1 = leafPage big n va := by
  unfold stepsOutcome at h
  split at h
  · cases h
  · split at h
    · cases h
    · iterate 7
        split at h
        · cases h
      cases h
      exact ⟨_, _, rfl⟩

/-- A page is read off a leaf, so a physical address stands in its 64 KiB frame as its virtual address does. -/
theorem translate_at {s : State} {core enclave va : Nat} {a : Access} {p : Page} (h : translate s core enclave a va = .ok p) :
    p.at va % 65536 = va % 65536 := by
  have hleaf : ∃ big n, p = leafPage big n va := by
    unfold translate at h
    split at h
    · cases h
    · split at h
      · cases h
      · obtain ⟨q, hq, hp⟩ := Got.of_bind_ok h
        split_ifs at hp
        cases hp
        split at hq
        · split at hq
          · cases hq
          · cases hq
            exact ⟨_, _, rfl⟩
        · obtain ⟨x, hx, rfl⟩ := Got.of_map_ok hq
          exact stepsOutcome_page hx
  obtain ⟨big, n, rfl⟩ := hleaf
  exact leafPage_at big n va

theorem stores_tracked {s s1 : State} {v : Thread} {on : Bool} {ea pa : Nat} {sc : Scope} (h : tracked s v on ea pa sc = .ok s1) :
    stores s1 = stores s ∧ s1.mem = s.mem := by
  unfold tracked at h
  split at h
  · split at h
    · cases h
    · rename_i t ht
      cases h
      have hstores := stores_track s (lineOf pa) (scopeEntryOf s v (lineOf pa) sc)
      have hmem := mem_track s (lineOf pa) (scopeEntryOf s v (lineOf pa) sc)
      rw [ht] at hstores hmem
      exact ⟨hstores, hmem⟩
  · cases h
    exact ⟨rfl, rfl⟩

/-- What a store's address leads to: a page at its place in its frame, in a state with the same threads, stores and bytes. -/
theorem storeTarget_ok {s s1 : State} {v : Thread} {ea : Nat} {on : Bool} {sc : Scope} {p : Page} (h : storeTarget s v ea on sc = .ok (p, s1)) :
    p.at ea % 65536 = ea % 65536 ∧ stores s1 = stores s ∧ s1.mem = s.mem := by
  obtain ⟨q, hq, hp⟩ := Got.of_bind_ok h
  have hat := translate_at hq
  dsimp only at hp
  split at hp
  · cases hp
    exact ⟨hat, stores_fillTlb s _ _ _ _, mem_fillTlb s _ _ _ _⟩
  · obtain ⟨t, ht, hpair⟩ := Got.of_map_ok hp
    cases hpair
    obtain ⟨hstores, hmem⟩ := stores_tracked ht
    exact ⟨hat, hstores.trans (stores_fillTlb s _ _ _ _), hmem.trans (mem_fillTlb s _ _ _ _)⟩

/-! ### ST -/

theorem exec_storeOf {i : Instr} {m : Global} (s : State) (h : storeOf i = some m) :
    exec i s = stOp i m.ty m.reg m.base m.off m.o m.sc m.sync s := by
  unfold storeOf at h
  split at h <;> cases h
  case h_1 x => exact congrArg (stOp _ _ _ _ · _ _ _ s) (bmOff_eq_off9 x 4)
  case h_2 x => exact congrArg (stOp _ _ _ _ · _ _ _ s) (bmOff_eq_off9 x 8)
  case h_3 o sc y t x => exact congrArg (stOp _ _ _ _ · _ _ _ s) (extOff_eq_off13 x t.size)

/-- The phase that a store's ordering starts changes no store and no byte of memory. -/
theorem phaseIf_keeps (on : Bool) (s : State) (v : Thread) :
    (phaseIf on s v).1.mem = s.mem ∧ (phaseIf on s v).1.l1 = s.l1 ∧ (phaseIf on s v).2 = { v with phaseStart := (phaseIf on s v).2.phaseStart } ∧
      (on = true → (phaseIf on s v).2.phaseStart = phaseOf (phaseIf on s v).1 (cacheOf s (threadCore s v))) := by
  cases on with
  | false => exact ⟨rfl, rfl, rfl, nofun⟩
  | true => exact ⟨rfl, rfl, rfl, fun _ => (Tab.getD_set_self _ _ _ _).symm⟩

theorem released_eq (v : Thread) (rel : Bool) : v.released rel = { v with late := (v.released rel).late } := by
  unfold Thread.released
  split <;> rfl

theorem l1_of_onlyThread {w : Who} {s t : State} (h : OnlyThread w s t) : t.l1 = s.l1 := by rw [← h.1]

/-- A store that has been performed in a state counts as outstanding, in the phase that its ordering starts. -/
theorem storeFinishes {i : Instr} {s : State} {w : Who} {n : Nat} {v v' : Thread} {g : Flags} (on : Bool) (s0 : State) (range : List (Nat × Nat))
    (hw : w = .thread n) (ht : trapFlags v g = 0) (hk : v' = { v with queues := v'.queues }) :
    ∃ t u, settleEff i s0 w v (storeDone i (phaseIf on s v').1 w v ((phaseIf on s v').2.released on) g range) = .next t ∧
      Stored i w t v ((phaseIf on s v').2.released on) u g ∧ u.queues = v'.queues ∧ t.mem = s.mem ∧ t.l1 = s.l1 ∧
      (on = true → u.phaseStart = phaseOf t (cacheOf s (threadCore s v))) := by
  obtain ⟨hmem, hl1, hphase, hstart⟩ := phaseIf_keeps on s v'
  have hkeeps : (phaseIf on s v').2.released on = { v with
      queues := ((phaseIf on s v').2.released on).queues, phaseStart := ((phaseIf on s v').2.released on).phaseStart,
      late := ((phaseIf on s v').2.released on).late } := by
    rw [released_eq, hphase, hk]
  have hcore : threadCore s v' = threadCore s v := by
    rw [hk]
    rfl
  obtain ⟨t, u, hexec, hstored, honly⟩ := storeDone_stores (i := i) (s := (phaseIf on s v').1) s0 range hw ht hkeeps
  have hphases := congrArg State.phases honly.1
  refine ⟨t, u, hexec, hstored, ?_, (mem_of_onlyThread honly).trans hmem, (l1_of_onlyThread honly).trans hl1, fun hon => ?_⟩
  · rw [hstored.queues, released_eq, hphase]
  · have hsame : phaseOf t (cacheOf s (threadCore s v)) = phaseOf (phaseIf on s v').1 (cacheOf s (threadCore s v)) :=
      congrArg (Tab.getD · _ 0) hphases
    rw [hstored.phaseStart, released_eq, hsame, ← hcore]
    exact hstart hon

/-- The state in which a store acts at its site: what its core's store holds dirty has been written back where it releases (R232). -/
def siteOf (s : State) (control : Bool) (core : Nat) (o : Ord) (sc : Scope) : State :=
  if o = .rel then releaseAt s control core sc else s

theorem work_siteOf (s : State) (control : Bool) (core : Nat) (o : Ord) (sc : Scope) : work (siteOf s control core o sc) = work s := by
  unfold siteOf
  split
  · exact work_releaseAt s _ _ _
  · rfl

/-- What a store outside hand mode does at the page that its address leads to. -/
def storeThere (i : Instr) (m : Global) (s : State) (w : Who) (v v' : Thread) (x : Nat) (g : Flags) (p : Page) (s1 : State) : Eff :=
  let s2 := siteOf s1 v.control (threadCore s v) m.o m.sc
  let bs := toBytes m.ty.size x
  if 63 ≤ v.stores ∨ (m.o = .rel ∧ loadsOut v = true) then .stall
  else if m.ty.size = 16 then
    .done (halfway (performStore s2 v m.sc 16 (p.at (m.ea v) + 8 * firstNo s) (halfBytes bs (firstNo s))) w (v.released (m.o = .rel)) i (firstNo s)
      (.global m.sc) p (m.ea v) 0 bs)
  else
    let S := performStore s2 v m.sc m.ty.size (p.at (m.ea v)) bs
    storeDone i (phaseIf (m.o = .rel) S v').1 w v ((phaseIf (m.o = .rel) S v').2.released (m.o = .rel)) g
      (if p.device then [] else [(p.at (m.ea v), m.ty.size)])

theorem size_cases (t : Ty) : t.size = 1 ∨ t.size = 2 ∨ t.size = 4 ∨ t.size = 8 ∨ t.size = 16 := by cases t <;> decide

/-- An aligned access of a page's frame stays within a line. -/
theorem fits_line {a b n : Nat} (h : a % 65536 = b % 65536) (hal : b % n = 0) (hn : n = 1 ∨ n = 2 ∨ n = 4 ∨ n = 8 ∨ n = 16) :
    a % 128 + n ≤ 128 := by
  rcases hn with rfl | rfl | rfl | rfl | rfl <;> omega

section
variable {i : Instr} {m : Global} {s s1 : State} {w : Who} {v v' : Thread} {x : Nat} {g : Flags} {p : Page}

/-- A global store outside hand mode that is not half done. -/
theorem st_ready (hi : storeOf i = some m) (R : Ready i s w v) (hmode : v.handMode = false) (hhalf : v.hctx.half = none)
    (hsrc : readSrc v (.reg (movedRegs m.ty) m.reg) = some (x, g, v')) :
    exec i s = settleEff i s w v (if m.ea v % m.ty.size ≠ 0 then .trap (kept .misalign (m.ea v))
      else onGot s v (fun s => storeTarget s v (m.ea v) (m.o == .rel || m.sync) m.sc) fun _ (p, s1) => storeThere i m s w v v' x g p s1) := by
  have hopen : noIteration v = false := by rw [noIteration, hmode, Bool.false_and]
  have hea : wrap 64 ((regNum v m.base.toNat 2 : Nat) + m.off) = m.ea v := wrap_eq_toNat 64 _
  rw [exec_storeOf s hi]
  refine (run_ready R _).trans ?_
  rw [memRegs_size, hsrc]
  simp only [hhalf, hopen, hea, hmode, Bool.false_eq_true, if_false, Bool.not_false, Bool.and_true, Bool.or_eq_true, Bool.and_eq_true,
    decide_eq_true_eq]
  rfl

/-- The second half of a 128-bit store is performed with no other check. -/
theorem st_second {h : Half} (hi : storeOf i = some m) (R : Ready i s w v) (hhalf : v.hctx.half = some h)
    (hsrc : readSrc v (.reg (movedRegs m.ty) m.reg) = some (x, g, v')) :
    exec i s = settleEff i s w v (storeDone i (phaseIf (m.o = .rel) (secondHalf s v h) v').1 w v
      ((phaseIf (m.o = .rel) (secondHalf s v h) v').2.released (m.o = .rel)) g (if h.page.device then [] else [(h.page.at h.ea, 16)])) := by
  rw [exec_storeOf s hi]
  refine (run_ready R _).trans ?_
  rw [memRegs_size, hsrc]
  simp only [hhalf]

/-- Where its address leads to a page, a store goes on there. -/
theorem st_there (hi : storeOf i = some m) (R : Ready i s w v) (hmode : v.handMode = false) (hhalf : v.hctx.half = none)
    (hsrc : readSrc v (.reg (movedRegs m.ty) m.reg) = some (x, g, v')) (hal : m.ea v % m.ty.size = 0)
    (htarget : storeTarget s v (m.ea v) (m.o == .rel || m.sync) m.sc = .ok (p, s1)) :
    exec i s = settleEff i s w v (storeThere i m s w v v' x g p s1) := by
  rw [st_ready hi R hmode hhalf hsrc, if_neg (not_not_intro hal), onGot_ok _ htarget]

/-- A store with room in its counter, and with no earlier load to wait for where it releases, does not stall. -/
theorem not_stalls (hroom : v.stores < 63) (hloads : m.o = .rel → v.loads = []) : ¬ (63 ≤ v.stores ∨ (m.o = .rel ∧ loadsOut v = true)) := by
  rintro (h | ⟨hrel, h⟩)
  · omega
  · rw [loadsOut_eq_false (hloads hrel)] at h
    cases h

theorem narrowStores_performs (hi : storeOf i = some m) (R : Ready i s w v) (hsize : m.ty.size ≠ 16) (hmode : v.handMode = false)
    (hhalf : v.hctx.half = none) (hsrc : readSrc v (.reg (movedRegs m.ty) m.reg) = some (x, g, v')) (ht : trapFlags v g = 0)
    (hal : m.ea v % m.ty.size = 0) (htarget : storeTarget s v (m.ea v) (m.o == .rel || m.sync) m.sc = .ok (p, s1)) (hroom : v.stores < 63)
    (hloads : m.o = .rel → v.loads = []) :
    ∃ t u, exec i s = .next t ∧ viewOf t w = some u ∧ u.stores = v.stores + 1 ∧ u.pc = v.pc + BitVec.ofNat 64 i.len ∧
      SameRegsBut v u 0 0 ∧ u.masks = v.masks ∧ u.queues = v'.queues ∧ FlagsAfter v u g ∧ u.loads = v.loads ∧
      StoredAt (siteOf s1 v.control (threadCore s v) m.o m.sc) t v m.sc (p.at (m.ea v)) (toBytes m.ty.size x) ∧
      (m.o = .rel → u.phaseStart = phaseOf t (cacheOf s (threadCore s v))) := by
  obtain ⟨hat, hstores, -⟩ := storeTarget_ok htarget
  obtain ⟨n, hw⟩ := thread_of_not_handMode R.view hmode
  obtain ⟨t, u, hexec, hstored, hqueues, hmem, hl1, hphase⟩ := storeFinishes (i := i) (decide (m.o = .rel))
    (s := performStore (siteOf s1 v.control (threadCore s v) m.o m.sc) v m.sc m.ty.size (p.at (m.ea v)) (toBytes m.ty.size x)) s
    (if p.device then [] else [(p.at (m.ea v), m.ty.size)]) hw ht (readSrc_same hsrc)
  refine ⟨t, u, ?_, hstored.view, hstored.stores, hstored.pc, hstored.regs, hstored.masks, hqueues, hstored.flags, hstored.loads,
    storedAt_performStore ?_ hmem hl1, fun hrel => ?_⟩
  · rw [st_there hi R hmode hhalf hsrc hal htarget, storeThere, if_neg (not_stalls hroom hloads), if_neg hsize]
    exact hexec
  · rw [toBytes_length]
    exact fits_line hat hal (size_cases m.ty)
  · have hwork : work (performStore (siteOf s1 v.control (threadCore s v) m.o m.sc) v m.sc m.ty.size (p.at (m.ea v)) (toBytes m.ty.size x)) = work s := by
      rw [work_performStore, work_siteOf, work_of_stores hstores]
    rw [hphase (decide_eq_true hrel), cacheOf_of_work hwork, threadCore_of_work hwork]

end

theorem narrowStores : NarrowStores := by
  intro i m s s1 w v v' x g p hi R hsize hmode hhalf hsrc ht target
  refine ⟨fun hmis => ?_, fun k hal htrap => ?_, fun hal hok hrel hloads => ?_, fun hal hok hroom hloads => ?_⟩
  · rw [st_ready hi R hmode hhalf hsrc, if_pos hmis, settleEff]
  · rw [st_ready hi R hmode hhalf hsrc, if_neg (not_not_intro hal), onGot_trap _ htrap, settleEff]
  · rw [st_there hi R hmode hhalf hsrc hal hok, storeThere, if_pos (.inr ⟨hrel, loadsOut_eq_true hloads⟩), settleEff]
  · obtain ⟨-, hstores, hmem⟩ := storeTarget_ok hok
    obtain ⟨t, u, hexec, hview, hcount, hpc, hregs, hmasks, hqueues, hflags, hl, hat, hphase⟩ :=
      narrowStores_performs hi R hsize hmode hhalf hsrc ht hal hok hroom hloads
    refine ⟨hmem, t, u, hexec, hview, hcount, hpc, hregs, hmasks, hqueues, hflags, hl, fun hnone => ?_, fun hrel => ⟨?_, hphase hrel⟩⟩
    · rwa [siteOf, if_neg (by rw [hnone]; decide)] at hat
    · rwa [siteOf, if_pos hrel, ← threadCore_of_work (work_of_stores hstores)] at hat

/-! ### ST of 128 bits (R228) -/

theorem l1_halfway (s : State) (w : Who) (v : Thread) (i : Instr) (no : Nat) (at' : HalfAt) (p : Page) (ea rank : Nat) (bs : List Byte) :
    (halfway s w v i no at' p ea rank bs).l1 = s.l1 :=
  l1_of_onlyThread (s := { s with draws := s.draws + 1 }) (onlyThread_putView _ w _)

theorem firstNo_le (s : State) : firstNo s ≤ 1 := by
  unfold firstNo ofBool
  split <;> omega

theorem halfBytes_length {bs : List Byte} {no : Nat} (hlen : bs.length = 16) (hno : no ≤ 1) : (halfBytes bs no).length = 8 := by
  rw [halfBytes, List.length_take, List.length_drop]
  omega

/-- A half of a 128-bit store, performed, leaves its 8 bytes at its site. -/
theorem storedAt_half {s t : State} {v : Thread} {sc : Scope} {pa no : Nat} {bs : List Byte} (hal : pa % 16 = 0) (hlen : bs.length = 16)
    (hno : no ≤ 1) (hmem : t.mem = (performStore s v sc 16 (pa + 8 * no) (halfBytes bs no)).mem)
    (hl1 : t.l1 = (performStore s v sc 16 (pa + 8 * no) (halfBytes bs no)).l1) : StoredAt s t v sc (pa + 8 * no) (halfBytes bs no) := by
  refine storedAt_performStore ?_ hmem hl1
  rw [halfBytes_length hlen hno]
  omega

section
variable {i : Instr} {m : Global} {s s1 : State} {w : Who} {v v' : Thread} {x : Nat} {g : Flags} {p : Page}

theorem wideStores_first (hi : storeOf i = some m) (R : Ready i s w v) (hsize : m.ty.size = 16) (hmode : v.handMode = false)
    (hhalf : v.hctx.half = none) (hsrc : readSrc v (.reg (movedRegs m.ty) m.reg) = some (x, g, v')) (hal : m.ea v % 16 = 0)
    (htarget : storeTarget s v (m.ea v) (m.o == .rel || m.sync) m.sc = .ok (p, s1)) (hroom : v.stores < 63) (hloads : m.o = .rel → v.loads = []) :
    ∃ t u q k, exec i s = .next t ∧
      HalfDone w t v u { insn := i, no := firstNo s, at' := .global m.sc, page := p, ea := m.ea v, rank := 0, data := toBytes 16 x, issue := q,
                         seq := k, made := false } ∧
      StoredAt (siteOf s1 v.control (threadCore s v) m.o m.sc) t v m.sc (p.at (m.ea v) + 8 * firstNo s) (halfBytes (toBytes 16 x) (firstNo s)) := by
  obtain ⟨hat, hstores, -⟩ := storeTarget_ok htarget
  have hwork (pa : Nat) (bs : List Byte) :
      work (performStore (siteOf s1 v.control (threadCore s v) m.o m.sc) v m.sc 16 pa bs) = work s := by
    rw [work_performStore, work_siteOf, work_of_stores hstores]
  obtain ⟨u, hu⟩ := halfway_halfDone (v1 := v.released (m.o = .rel)) ((viewOf_of_work (hwork _ _) w).trans R.view) (released_eq v _) i (firstNo s)
    (.global m.sc) p (m.ea v) 0 (toBytes 16 x)
  refine ⟨_, u, _, _, ?_, hu, storedAt_half (by omega) (toBytes_length _ _) (firstNo_le s) (mem_halfway _ _ _ _ _ _ _ _ _ _)
    (l1_halfway _ _ _ _ _ _ _ _ _ _)⟩
  rw [st_there hi R hmode hhalf hsrc (hsize ▸ hal) htarget, storeThere, if_neg (not_stalls hroom hloads), if_pos hsize, hsize]
  rfl

theorem wideStores_second {h : Half} (hi : storeOf i = some m) (R : Ready i s w v) (hmode : v.handMode = false)
    (hsrc : readSrc v (.reg (movedRegs m.ty) m.reg) = some (x, g, v')) (ht : trapFlags v g = 0) (hhalf : v.hctx.half = some h)
    (hsite : h.at' = .global m.sc) (hal : h.page.at h.ea % 16 = 0) (hlen : h.data.length = 16) :
    ∃ t u, exec i s = .next t ∧ Stored i w t v ((phaseIf (m.o = .rel) (secondHalf s v h) v').2.released (m.o = .rel)) u g ∧
      u.queues = v'.queues ∧ (h.made = true → t.mem = s.mem ∧ t.l1 = s.l1) ∧
      (h.made = false → halvesBefore s h.issue h.seq = [] →
        StoredAt s t v m.sc (h.page.at h.ea + 8 * (1 - h.no)) (halfBytes h.data (1 - h.no))) := by
  obtain ⟨n, hw⟩ := thread_of_not_handMode R.view hmode
  obtain ⟨t, u, hexec, hstored, hqueues, hmem, hl1, -⟩ := storeFinishes (i := i) (decide (m.o = .rel)) (s := secondHalf s v h) s
    (if h.page.device then [] else [(h.page.at h.ea, 16)]) hw ht (readSrc_same hsrc)
  refine ⟨t, u, (st_second hi R hhalf hsrc).trans hexec, hstored, hqueues, fun hmade => ?_, fun hmade hfirst => ?_⟩
  · rw [secondHalf, if_pos hmade] at hmem hl1
    exact ⟨hmem, hl1⟩
  · have hsecond : secondHalf s v h = performStore s v m.sc 16 (h.page.at h.ea + 8 * (1 - h.no)) (halfBytes h.data (1 - h.no)) := by
      rw [secondHalf_alone hmade hfirst, storeHalf, hsite]
    rw [hsecond] at hmem hl1
    exact storedAt_half hal hlen (Nat.sub_le _ _) hmem hl1

end

theorem wideStores : WideStores := by
  intro i m s s1 w v v' x g p hi R hsize hmode hsrc ht
  refine ⟨fun hhalf hal htarget hroom hloads => ?_, fun h hhalf hsite _ hal hlen => ?_⟩
  · obtain ⟨-, hstores, -⟩ := storeTarget_ok htarget
    have hfirst := wideStores_first hi R hsize hmode hhalf hsrc hal htarget hroom hloads
    rwa [siteOf, ← threadCore_of_work (work_of_stores hstores)] at hfirst
  · obtain ⟨t, u, hexec, hst, hqueues, hkept, hat⟩ := wideStores_second hi R hmode hsrc ht hhalf hsite hal hlen
    exact ⟨t, u, hexec, hst.view, hst.stores, hst.pc, hst.half, hst.regs, hqueues, hst.loads, hkept, hat⟩

end Sys2Proof.Machine

namespace Sys2Proof.Proofs

open Sys2Proof.Machine Sys2Proof.Safety Sys2Proof.Claims

/-- Settles O25: a store's bytes go where `performStore` puts them (`storedAt_performStore`), whole or in halves. -/
theorem globalStores : Obligations.GlobalStores := ⟨narrowStores, wideStores⟩

end Sys2Proof.Proofs
